-- ==== Sys2Proof/Word.lean ====
section
/-! DEFINITION. The word types of the machine and sparse tables. The plainest layer: nothing here reads a rule
beyond the widths of spec/05 and spec/11. -/

namespace Sys2Proof

/-- One byte of memory (R8). -/
abbrev Byte := BitVec 8
/-- One lane's 32-bit word of a lane register (R35). -/
abbrev Word := BitVec 32
/-- A 64-bit scalar register, address or register pair (R73, R37). -/
abbrev DWord := BitVec 64
/-- One bit per lane of a warp, lane i in bit i (R72). -/
abbrev LaneMask := BitVec 32
/-- A 4-bit format tag (R35). -/
abbrev FmtTag := BitVec 4

/-- A sparse table: key and value pairs, keys strictly rising. -/
abbrev Tab (α : Type) := List (Nat × α)

/-- The value listed at a key. -/
def Tab.find? {α : Type} : Tab α → Nat → Option α
  | [], _ => none
  | (k, v) :: t, n => if k = n then some v else Tab.find? t n

/-- The value at a key, `d` where none is listed. -/
def Tab.getD {α : Type} (t : Tab α) (n : Nat) (d : α) : α := (Tab.find? t n).getD d

/-- Write a key. A table with rising keys keeps them rising. -/
def Tab.put {α : Type} : Tab α → Nat → α → Tab α
  | [], n, v => [(n, v)]
  | (k, w) :: t, n, v =>
    if n < k then (n, v) :: (k, w) :: t
    else if n = k then (n, v) :: t
    else (k, w) :: Tab.put t n v

/-- Drop a key. -/
def Tab.del {α : Type} : Tab α → Nat → Tab α
  | [], _ => []
  | (k, v) :: t, n => if k = n then Tab.del t n else (k, v) :: Tab.del t n

/-- Keys strictly rising. -/
def Tab.rising {α : Type} : Tab α → Bool
  | [] => true
  | [_] => true
  | (k, _) :: (k', v') :: t => decide (k < k') && Tab.rising ((k', v') :: t)

/-- The lane indices 0 to 31 in ascending order. -/
def laneIds : List Nat := List.range 32

/-- Lane i's bit of a mask. -/
def LaneMask.has (m : LaneMask) (i : Nat) : Bool := m.getLsbD i

/-- The mask of the lanes that satisfy a test. -/
def LaneMask.ofPred (p : Nat → Bool) : LaneMask :=
  laneIds.foldl (fun m i => if p i then m ||| BitVec.twoPow 32 i else m) 0#32

/-- The lanes of a mask, ascending. -/
def LaneMask.lanes (m : LaneMask) : List Nat := laneIds.filter (fun i => m.getLsbD i)

/-- The lowest lane of a mask, 0 for an empty one. -/
def LaneMask.lowest (m : LaneMask) : Nat := (LaneMask.lanes m).headD 0

/-- How many lanes a mask holds. -/
def LaneMask.count (m : LaneMask) : Nat := (LaneMask.lanes m).length

end Sys2Proof
end

