-- ==== Sys2Proof/Machine/Bits.lean ====
section
/-! DEFINITION. Bit fields, sign extension and byte order (R8). -/

namespace Sys2Proof.Machine

/-- SEXT to 64 bits (08). -/
def sext64 {w : Nat} (x : BitVec w) : DWord := x.signExtend 64
/-- ZEXT to 64 bits (08). -/
def zext64 {w : Nat} (x : BitVec w) : DWord := x.setWidth 64

/-- A field [hi:lo] of a bit vector as a number. -/
def fieldNat {w : Nat} (x : BitVec w) (hi lo : Nat) : Nat := (x.toNat >>> lo) % 2 ^ (hi + 1 - lo)

/-- The n bytes of a number, lowest first (R8). -/
def toBytesLE : Nat → Nat → List Byte
  | 0, _ => []
  | n + 1, v => BitVec.ofNat 8 v :: toBytesLE n (v / 256)

/-- The number that bytes stand for, lowest first (R8). -/
def ofBytesLE : List Byte → Nat
  | [] => 0
  | b :: t => b.toNat + 256 * ofBytesLE t

/-- Bits of a word as a signed integer. -/
def sint {w : Nat} (x : BitVec w) : Int := x.toInt

/-- The exact integer wrapped to 32 bits (R38). -/
def wrap32 (z : Int) : Word := BitVec.ofInt 32 z

/-- The exact integer clamped to I32 or N32 (R38, R149). -/
def clamp32 (signed : Bool) (z : Int) : Word :=
  if signed then wrap32 (max (-(2 ^ 31)) (min (2 ^ 31 - 1) z)) else wrap32 (max 0 (min (2 ^ 32 - 1) z))

/-- Low and high words of a 64-bit value (R8). -/
def lo32 (v : DWord) : Word := v.setWidth 32
def hi32 (v : DWord) : Word := (v >>> 32).setWidth 32
/-- A 64-bit value from its low and high words (R8). -/
def pair64 (lo hi : Word) : DWord := hi ++ lo

/-- log2 of a power of two, and floor of log2 in general; 0 for 0. -/
def floorLog2 (n : Nat) : Nat := n.log2

/-- Ceiling division. -/
def ceilDiv (a b : Nat) : Nat := (a + b - 1) / b

/-- The low n bits of a value. -/
def truncTo (n : Nat) (v : DWord) : DWord := BitVec.ofNat 64 (v.toNat % 2 ^ n)

/-- Replace the element of a list at an index. -/
def setAt {α : Type} (l : List α) (n : Nat) (v : α) : List α := l.set n v

end Sys2Proof.Machine
end

