-- ==== Sys2Proof/Syntax.lean ====
section
/-! DEFINITION. The moves of the machine: the words of the two streams (R64 to R70, R84) and the events of its
other agents (the rows of the table of operations that have no word). One constructor per row of the table. -/

namespace Sys2Proof

/-- A scalar register number s0 to s31 (R73). -/
abbrev Reg := BitVec 5

/-- One source field of the lane word with its pattern (R68, R70, R79). -/
structure SrcField where
  /-- register or queue code -/
  code : BitVec 8
  /-- pattern code (R79) -/
  pat : BitVec 3
  /-- pattern parameter K -/
  k : BitVec 5
deriving DecidableEq, Repr

/-- The fields of a 96-bit lane word other than OP (R68). Words whose description lays other fields over the
strip (displacements, long immediates) read them through the accessors below. -/
structure Strip where
  sw : Bool
  pm : BitVec 3
  d : BitVec 8
  a : SrcField
  b : SrcField
  c : SrcField
  lr : BitVec 3
  ib : Bool
  rm : BitVec 2
  sat : Bool
  fmt : FmtTag
  x : BitVec 15
deriving DecidableEq, Repr

/-- The 16 bits of a source field, code highest. -/
def SrcField.bits (f : SrcField) : BitVec 16 := f.code ++ f.pat ++ f.k
/-- IMM16, bits [57:42] (R68). -/
def Strip.imm16 (w : Strip) : BitVec 16 := w.b.bits
/-- imm32 of MOVI, bits [57:26] (R152). -/
def Strip.imm32 (w : Strip) : BitVec 32 := w.b.bits ++ w.c.bits
/-- TDISP, bits [81:56] (R170). -/
def Strip.tdisp (w : Strip) : BitVec 26 := w.d ++ w.a.bits ++ w.b.bits.extractLsb' 14 2
/-- JDISP of BRA, bits [55:30] (R170). -/
def Strip.jdispBra (w : Strip) : BitVec 26 := w.b.bits.extractLsb' 0 14 ++ w.c.bits.extractLsb' 4 12
/-- JDISP of BRX and HDISP of FRAG.CLAIM, bits [57:32] (R170, R267). -/
def Strip.disp57 (w : Strip) : BitVec 26 := w.b.bits ++ w.c.bits.extractLsb' 6 10

/-- Where an uncorrectable error is found (R329). -/
inductive PoisonPlace where
  /-- every aligned word of a memory granule that starts at this byte and has this many words (R355) -/
  | memory (key words : Nat)
  /-- lane word of a register of the focused warp -/
  | register (n lane : Nat)
  /-- word of an entry of a forward queue of the focused warp -/
  | queue (q index lane : Nat)
  /-- word of an entry of a back queue of the focused warp -/
  | backQueue (k index lane : Nat)
  /-- word of an entry of a cluster queue: the entry from the oldest -/
  | clusterQueue (ctx hw q index word : Nat)
deriving DecidableEq, Repr

/-- What the monitors of one core read over a 10 ms period (R339). -/
structure WearReading where
  /-- temperature class T0 to T4 -/
  temp : Nat
  /-- voltage class: 0 low, 1 nominal, 2 high -/
  volt : Nat
  drift : Nat
  emf : Nat
  /-- a monitor failed its self-check -/
  monitorFailed : Bool
deriving DecidableEq, Repr

/-- The two PCI Express ports (R348). -/
inductive HostPort where
  | a
  | b
deriving DecidableEq, Repr

/-- The loss of a port: its link goes down, or its function is reset (R352). -/
structure PortLoss where
  port : HostPort
  reset : Bool
deriving DecidableEq, Repr

/-- One lane computed again on the spare capacity of another, and the error that strikes the computation (R327). -/
structure SpareRun where
  lane : Nat
  spare : Nat
  flip : List Word
deriving DecidableEq, Repr

/-- One host access: of device memory on path H through BAR2 (R348), or a read of a function's BAR0 (R349). -/
inductive DmaOp where
  | read (len : Nat)
  | write (bytes : List Byte)
  | regs (fn len : Nat)
deriving DecidableEq, Repr

/-- Where an access of a function or a command came from (R348, R350). -/
structure Cmd where
  port : HostPort
  /-- 0 the physical function, 1 to 16 the virtual functions -/
  fn : Nat
  /-- the context assigned to a virtual function; of the physical function, the one that the command addresses -/
  ctx : Nat
deriving DecidableEq, Repr

/-- Operands of CTX.CREATE (R350). -/
structure CtxOperands where
  /-- physical address of the level-1 table -/
  root : Nat
  /-- log2 of the level-1 entries (R237) -/
  n : Nat
  seqbase : DWord
  nseq : Nat
  tvec : DWord
  redundant : Bool
  priv : Bool
deriving DecidableEq, Repr

/-- What the two ends of a fabric link settle on (R353). -/
structure LinkOutcome where
  /-- the chip at the other end, none where no partner answers -/
  partner : Option Nat
  /-- the partner's attestation report verified -/
  attested : Bool
  /-- the highest rate both ends train at: 800, 400 or 200 Gb/s, 0 for none -/
  rate : Nat
  /-- both ends allow the low-latency FEC mode -/
  lowLatency : Bool
  /-- the incarnation in the partner's report (R357) -/
  incarnation : Nat
deriving DecidableEq, Repr

/-- One constructor per row of the table of operations. Access words carry typed fields, lane words the strip,
events what their agent brings from outside. The words stand first, then the events that the machine raises by
itself, then those that come from outside: the order carries no meaning. -/
inductive Instr where
  /-- ADDI (R125). -/
  | addi (d a : Reg) (imm : BitVec 16)
  /-- ANDI (R125). -/
  | andi (d a : Reg) (imm : BitVec 16)
  /-- ORI (R125). -/
  | ori (d a : Reg) (imm : BitVec 16)
  /-- XORI (R125). -/
  | xori (d a : Reg) (imm : BitVec 16)
  /-- SLTI (R125). -/
  | slti (d a : Reg) (imm : BitVec 16)
  /-- LUI (R125). -/
  | lui (d : Reg) (imm : BitVec 16)
  /-- SHLI (R125). -/
  | shli (d a : Reg) (n : BitVec 6)
  /-- SHRI (R125). -/
  | shri (d a : Reg) (n : BitVec 6)
  /-- SRAI (R125). -/
  | srai (d a : Reg) (n : BitVec 6)
  /-- ADD (R126). -/
  | add (d a b : Reg)
  /-- SUB (R126). -/
  | sub (d a b : Reg)
  /-- MUL (R126). -/
  | mul (d a b : Reg)
  /-- MULH (R126). -/
  | mulh (d a b : Reg)
  /-- AND (R126). -/
  | and (d a b : Reg)
  /-- OR (R126). -/
  | or (d a b : Reg)
  /-- XOR (R126). -/
  | xor (d a b : Reg)
  /-- SHL (R126). -/
  | shl (d a b : Reg)
  /-- SHR (R126). -/
  | shr (d a b : Reg)
  /-- SRA (R126). -/
  | sra (d a b : Reg)
  /-- SLT (R126). -/
  | slt (d a b : Reg)
  /-- SLTN (R126). -/
  | sltn (d a b : Reg)
  /-- MIN (R126). -/
  | min (d a b : Reg)
  /-- MAX (R126). -/
  | max (d a b : Reg)
  /-- MINN (R126). -/
  | minn (d a b : Reg)
  /-- MAXN (R126). -/
  | maxn (d a b : Reg)
  /-- LDS (R130). -/
  | lds (d a : Reg) (imm : BitVec 16)
  /-- LDSW (R130). -/
  | ldsw (d a : Reg) (imm : BitVec 16)
  /-- STS (R130). -/
  | sts (d a : Reg) (imm : BitVec 16)
  /-- STSW (R130). -/
  | stsw (d a : Reg) (imm : BitVec 16)
  /-- LDQ (R133). -/
  | ldq (a : Reg) (q : BitVec 3) (stride : BitVec 18)
  /-- QPUSH (R134). -/
  | qpush (a : Reg) (q : BitVec 3) (hi : Bool)
  /-- QPOP_W (R135). -/
  | qpopW (d : Reg) (bq : Bool) (lane : BitVec 5) (peek : Bool)
  /-- QPOP_D (R135). -/
  | qpopD (d : Reg) (bq : Bool) (lane : BitVec 5) (peek : Bool)
  /-- QPOP_M (R135). -/
  | qpopM (d : Reg) (bq : Bool) (peek : Bool)
  /-- XLATS (R136). -/
  | xlats (d a : Reg) (imm : BitVec 16)
  /-- XLATQ (R137). -/
  | xlatq (a : Reg) (q : BitVec 3) (stride : BitVec 18)
  /-- PREFS_L1 (R131). -/
  | prefsL1 (a : Reg) (imm : BitVec 16)
  /-- PREFS_L2 (R131). -/
  | prefsL2 (a : Reg) (imm : BitVec 16)
  /-- CSRRS (R145). -/
  | csrrs (d : Reg) (csr : BitVec 16)
  /-- CSRWS (R145). -/
  | csrws (a : Reg) (csr : BitVec 16)
  /-- J (R128). -/
  | j (off : BitVec 26)
  /-- JAL (R128). -/
  | jal (off : BitVec 26)
  /-- JR (R128). -/
  | jr (d a : Reg) (imm : BitVec 16)
  /-- BEQ (R127). -/
  | beq (a b : Reg) (off : BitVec 16)
  /-- BNE (R127). -/
  | bne (a b : Reg) (off : BitVec 16)
  /-- BLT (R127). -/
  | blt (a b : Reg) (off : BitVec 16)
  /-- BGE (R127). -/
  | bge (a b : Reg) (off : BitVec 16)
  /-- BLTN (R127). -/
  | bltn (a b : Reg) (off : BitVec 16)
  /-- BGEN (R127). -/
  | bgen (a b : Reg) (off : BitVec 16)
  /-- LSTART (R139). -/
  | lstart (a : Reg)
  /-- LWAIT (R140). -/
  | lwait (a : Reg) (imm : BitVec 16)
  /-- TRAPS (R143). -/
  | traps (a : Reg) (imm : BitVec 16)
  /-- YIELDS (R142). -/
  | yields (imm : BitVec 16)
  /-- TRAMPS (R129). -/
  | tramps (off : BitVec 26)
  /-- NOP (R150). -/
  | nop (w : Strip)
  /-- IADD (R150). -/
  | iadd (w : Strip)
  /-- ISUB (R150). -/
  | isub (w : Strip)
  /-- IMUL (R150). -/
  | imul (w : Strip)
  /-- IMULH (R150). -/
  | imulh (w : Strip)
  /-- IMULHN (R150). -/
  | imulhn (w : Strip)
  /-- IMAD (R150). -/
  | imad (w : Strip)
  /-- IMIN (R150). -/
  | imin (w : Strip)
  /-- IMAX (R150). -/
  | imax (w : Strip)
  /-- IMINN (R150). -/
  | iminn (w : Strip)
  /-- IMAXN (R150). -/
  | imaxn (w : Strip)
  /-- IABS (R150). -/
  | iabs (w : Strip)
  /-- INEG (R150). -/
  | ineg (w : Strip)
  /-- IAND (R150). -/
  | iand (w : Strip)
  /-- IOR (R150). -/
  | ior (w : Strip)
  /-- IXOR (R150). -/
  | ixor (w : Strip)
  /-- INOT (R150). -/
  | inot (w : Strip)
  /-- ISHL (R150). -/
  | ishl (w : Strip)
  /-- ISHR (R150). -/
  | ishr (w : Strip)
  /-- ISRA (R150). -/
  | isra (w : Strip)
  /-- IROT (R150). -/
  | irot (w : Strip)
  /-- ICLZ (R150). -/
  | iclz (w : Strip)
  /-- IPOPC (R150). -/
  | ipopc (w : Strip)
  /-- IBREV (R150). -/
  | ibrev (w : Strip)
  /-- IBFX (R150). -/
  | ibfx (w : Strip)
  /-- IBFI (R150). -/
  | ibfi (w : Strip)
  /-- IDIV (R150). -/
  | idiv (w : Strip)
  /-- IDIVN (R150). -/
  | idivn (w : Strip)
  /-- IREM (R150). -/
  | irem (w : Strip)
  /-- IREMN (R150). -/
  | iremn (w : Strip)
  /-- ICMP (R151). -/
  | icmp (w : Strip)
  /-- ISEL (R152). -/
  | isel (w : Strip)
  /-- MOVI (R152). -/
  | movi (w : Strip)
  /-- MOV (R152). -/
  | mov (w : Strip)
  /-- MOVX (R152). -/
  | movx (w : Strip)
  /-- MOVXD (R152). -/
  | movxd (w : Strip)
  /-- LANEID (R152). -/
  | laneid (w : Strip)
  /-- FADD (R153). -/
  | fadd (w : Strip)
  /-- FSUB (R153). -/
  | fsub (w : Strip)
  /-- FMUL (R153). -/
  | fmul (w : Strip)
  /-- FMA (R153). -/
  | fma (w : Strip)
  /-- FMIN (R153). -/
  | fmin (w : Strip)
  /-- FMAX (R153). -/
  | fmax (w : Strip)
  /-- FABS (R153). -/
  | fabs (w : Strip)
  /-- FNEG (R153). -/
  | fneg (w : Strip)
  /-- FCMP (R155). -/
  | fcmp (w : Strip)
  /-- FRCP (R153). -/
  | frcp (w : Strip)
  /-- FRSQ (R153). -/
  | frsq (w : Strip)
  /-- FSQRT (R153). -/
  | fsqrt (w : Strip)
  /-- FDIV (R153). -/
  | fdiv (w : Strip)
  /-- FEXP2 (R153). -/
  | fexp2 (w : Strip)
  /-- FLOG2 (R153). -/
  | flog2 (w : Strip)
  /-- FRINT (R153). -/
  | frint (w : Strip)
  /-- TWOSUM (R59). -/
  | twosum (w : Strip)
  /-- FASTSUM (R60). -/
  | fastsum (w : Strip)
  /-- FCLASS (R155). -/
  | fclass (w : Strip)
  /-- FSCALE (R153). -/
  | fscale (w : Strip)
  /-- HADD2 (R156). -/
  | hadd2 (w : Strip)
  /-- HMUL2 (R156). -/
  | hmul2 (w : Strip)
  /-- HFMA2 (R156). -/
  | hfma2 (w : Strip)
  /-- DOT4E (R156). -/
  | dot4e (w : Strip)
  /-- FEXPE (R157). -/
  | fexpe (w : Strip)
  /-- CVT (R158). -/
  | cvt (w : Strip)
  /-- CVT_PK (R159). -/
  | cvtPk (w : Strip)
  /-- CVT_UPK (R159). -/
  | cvtUpk (w : Strip)
  /-- QBX4 (R160). -/
  | qbx4 (w : Strip)
  /-- DQBX4 (R161). -/
  | dqbx4 (w : Strip)
  /-- TAG (R162). -/
  | tag (w : Strip)
  /-- TAGR (R162). -/
  | tagr (w : Strip)
  /-- SHAPE (R162). -/
  | shape (w : Strip)
  /-- SHFL (R164). -/
  | shfl (w : Strip)
  /-- VOTE (R165). -/
  | vote (w : Strip)
  /-- REDX (R166). -/
  | redx (w : Strip)
  /-- SCAN (R166). -/
  | scan (w : Strip)
  /-- MATCH (R167). -/
  | matchLanes (w : Strip)
  /-- CMPR (R168). -/
  | cmpr (w : Strip)
  /-- ELECT (R165). -/
  | elect (w : Strip)
  /-- ALIVE (R165). -/
  | alive (w : Strip)
  /-- BRA (R171). -/
  | bra (w : Strip)
  /-- BRX (R172). -/
  | brx (w : Strip)
  /-- CALL (R174). -/
  | call (w : Strip)
  /-- CALLX (R175). -/
  | callx (w : Strip)
  /-- RET (R176). -/
  | ret (w : Strip)
  /-- RECONV (R177). -/
  | reconv (w : Strip)
  /-- ENTRY (R177). -/
  | entry (w : Strip)
  /-- EXIT (R177). -/
  | exit (w : Strip)
  /-- YIELD (R177). -/
  | yield (w : Strip)
  /-- PSET (R178). -/
  | pset (w : Strip)
  /-- PMOV (R178). -/
  | pmov (w : Strip)
  /-- LMARK (R22). -/
  | lmark (w : Strip)
  /-- LAUNCH (R292). -/
  | launch (w : Strip)
  /-- PREEMPT_OFF (R234). -/
  | preemptOff (w : Strip)
  /-- PREEMPT_ON (R234). -/
  | preemptOn (w : Strip)
  /-- LD (R207). -/
  | ld (w : Strip)
  /-- ST (R207). -/
  | st (w : Strip)
  /-- LD_P (R208). -/
  | ldP (w : Strip)
  /-- ST_P (R208). -/
  | stP (w : Strip)
  /-- ST_CL (R209). -/
  | stCl (w : Strip)
  /-- LD_CL (R209). -/
  | ldCl (w : Strip)
  /-- LD_C (R210). -/
  | ldC (w : Strip)
  /-- ATOM (R212). -/
  | atom (w : Strip)
  /-- RED (R212). -/
  | red (w : Strip)
  /-- CAS (R213). -/
  | cas (w : Strip)
  /-- FENCE (R214). -/
  | fence (w : Strip)
  /-- FENCE_X (R215). -/
  | fenceX (w : Strip)
  /-- BAR_INIT (R218). -/
  | barInit (w : Strip)
  /-- BAR_ARRIVE (R219). -/
  | barArrive (w : Strip)
  /-- BAR_EXPECT (R220). -/
  | barExpect (w : Strip)
  /-- BAR_WAIT (R221). -/
  | barWait (w : Strip)
  /-- BAR_TEST (R221). -/
  | barTest (w : Strip)
  /-- XLAT (R223). -/
  | xlat (w : Strip)
  /-- XLAT_RP (R224). -/
  | xlatRp (w : Strip)
  /-- PREFETCH (R211). -/
  | prefetch (w : Strip)
  /-- MX_LOADW (R248). -/
  | mxLoadw (w : Strip)
  /-- MX_SWAP (R249). -/
  | mxSwap (w : Strip)
  /-- MX_CLEAR (R250). -/
  | mxClear (w : Strip)
  /-- MX_CLEAR_REL (R250). -/
  | mxClearRel (w : Strip)
  /-- MX_STREAM (R251). -/
  | mxStream (w : Strip)
  /-- MX_DRAIN_REG (R252). -/
  | mxDrainReg (w : Strip)
  /-- MX_DRAIN_MEM (R253). -/
  | mxDrainMem (w : Strip)
  /-- MX_STAT (R254). -/
  | mxStat (w : Strip)
  /-- CP_TILE (R256). -/
  | cpTile (w : Strip)
  /-- CP_CMD (R257). -/
  | cpCmd (w : Strip)
  /-- TMASK_ACC (R304). -/
  | tmaskAcc (w : Strip)
  /-- TMASK_REG (R305). -/
  | tmaskReg (w : Strip)
  /-- SAMP_ARM (R315). -/
  | sampArm (w : Strip)
  /-- FRAG_OPEN (R268). -/
  | fragOpen (w : Strip)
  /-- FRAG_IN (R269). -/
  | fragIn (w : Strip)
  /-- FRAG_INM (R270). -/
  | fragInm (w : Strip)
  /-- FRAG_CLAIM (R271). -/
  | fragClaim (w : Strip)
  /-- FRAG_OUT (R273). -/
  | fragOut (w : Strip)
  /-- FRAG_OUT_WIN (R273). -/
  | fragOutWin (w : Strip)
  /-- FRAG_SEAL (R273). -/
  | fragSeal (w : Strip)
  /-- FRAG_DROP (R274). -/
  | fragDrop (w : Strip)
  /-- FRAG_NAME (R274). -/
  | fragName (w : Strip)
  /-- SPEC_OPEN (R279). -/
  | specOpen (w : Strip)
  /-- SPEC_COMMIT (R279). -/
  | specCommit (w : Strip)
  /-- SPEC_SQUASH (R279). -/
  | specSquash (w : Strip)
  /-- SPEC_STAT (R279). -/
  | specStat (w : Strip)
  /-- KV_STAGE (R311). -/
  | kvStage (w : Strip)
  /-- KV_COMMIT (R312). -/
  | kvCommit (w : Strip)
  /-- Q_PUSH (R285). -/
  | qPush (w : Strip)
  /-- Q_POP (R286). -/
  | qPop (w : Strip)
  /-- Q_STAT (R287). -/
  | qStat (w : Strip)
  /-- LAD_DONE_OPEN (R294). -/
  | ladDoneOpen (w : Strip)
  /-- LAD_DONE_TEST (R300). -/
  | ladDoneTest (w : Strip)
  /-- LAD_ESC (R297). -/
  | ladEsc (w : Strip)
  /-- LAD_RES (R298). -/
  | ladRes (w : Strip)
  /-- LAD_ITEM (R299). -/
  | ladItem (w : Strip)
  /-- SIG_CHK (R324). -/
  | sigChk (w : Strip)
  /-- SIG_RD (R326). -/
  | sigRd (w : Strip)
  /-- RG_CKPT (R334). -/
  | rgCkpt (w : Strip)
  /-- RG_STAT (R338). -/
  | rgStat (w : Strip)
  /-- WEAR_RD (R343). -/
  | wearRd (w : Strip)
  /-- CSRR (R230). -/
  | csrr (w : Strip)
  /-- CSRW (R230). -/
  | csrw (w : Strip)
  /-- TRAP (R232). -/
  | trap (w : Strip)
  /-- TRET (R228). -/
  | tret (w : Strip)
  /-- TRAMP (R233). -/
  | tramp (slot : BitVec 3) (w : Strip)
  /-- UNDEFINED_ACCESS_WORD (R67). -/
  | undefinedAccessWord (w : BitVec 32)
  /-- UNDEFINED_LANE_OPCODE (R85). -/
  | undefinedLaneOpcode (op : BitVec 10) (w : Strip)
  /-- SPMAP_WRITE (R184). -/
  | spmapWrite (k : BitVec 3) (v : DWord)
  /-- INVPG_WRITE (R240). -/
  | invpgWrite (va : DWord)
  /-- RGINJ_WRITE (R336). -/
  | rginjWrite (v : DWord)
  /-- VARLAT_RESULT_WRITE (R75). -/
  | varlatResultWrite (k : Nat)
  /-- CLUSTER_START (R12). -/
  | clusterStart (grid : Nat)
  /-- GANG_PREEMPTION (R235). -/
  | gangPreemption (hw : Nat)
  /-- CLUSTER_RESTORE (R260). -/
  | clusterRestore (save hw : Nat)
  /-- TASK_LAUNCH (R291). -/
  | taskLaunch (seq : Nat)
  /-- GRID_END (R242). -/
  | gridEnd (grid : Nat)
  /-- EPOCH_COMMIT_POINT (R279). -/
  | epochCommitPoint (req epoch : Nat)
  /-- LOADER_DONE (R248). -/
  | loaderDone (team : Nat)
  /-- STREAM_DONE (R251). -/
  | streamDone (team : Nat)
  /-- DRAIN_BYTES_LAND (R253). -/
  | drainBytesLand (op : Nat)
  /-- FILTER_ROW_RECORD (R318). -/
  | filterRowRecord (fctx row : Nat)
  /-- COPY_BYTES_LAND (R256). -/
  | copyBytesLand (op start n : Nat)
  /-- QUEUE_REFILL (R282). -/
  | queueRefill (hw q : Nat)
  /-- LADDER_ITEM_ENTRY (R294). -/
  | ladderItemEntry (hw lnum : Nat)
  /-- STARVE_EXPIRE (R295). -/
  | starveExpire (hw lnum rung : Nat)
  /-- GROUP_LAUNCH (R295). -/
  | groupLaunch (hw : Nat)
  /-- LADDER_COMPLETE (R296). -/
  | ladderComplete (hw lnum : Nat)
  /-- REPLAY_REEXECUTE (R327). -/
  | replayReexecute (core part idx : Nat) (run : SpareRun)
  /-- PTS_TICK (R192). -/
  | ptsTick (core : Nat)
  /-- NOPS (R144). -/
  | nops
  /-- HALTS (R141). -/
  | halts
  /-- YIELDS_EXPIRE (R142). -/
  | yieldsExpire
  /-- RGINJ_FIRE (R336). -/
  | rginjFire
  /-- TRAP_ENTRY (R226). -/
  | trapEntry
  /-- PAGE_HW_SERVICE_END (R241). -/
  | pageHwServiceEnd
  /-- LMARK_RETIRE (R22). -/
  | lmarkRetire
  /-- LWAIT_COMPLETE (R22). -/
  | lwaitComplete
  /-- BAR_WAIT_RETURN (R221). -/
  | barWaitReturn
  /-- QUEUE_STALL_END (R19). -/
  | queueStallEnd
  /-- QUANTUM_ROTATION (R28). -/
  | quantumRotation
  /-- WATCHDOG_EXPIRE (R30). -/
  | watchdogExpire
  /-- NOPREEMPT_CAP (R234). -/
  | nopreemptCap
  /-- WARP_CANCEL (R279). -/
  | warpCancel
  /-- TASK_ACCEPT (R291). -/
  | taskAccept
  /-- RG_COMMIT (R333). -/
  | rgCommit
  /-- WEAR_RECORD_WRITE (R344). -/
  | wearRecordWrite
  /-- SUPPLIES_UP (R357). -/
  | suppliesUp
  /-- FUSE_READ (R357). -/
  | fuseRead
  /-- ROM_LOAD (R357). -/
  | romLoad
  /-- FW_VERIFY (R357). -/
  | fwVerify
  /-- WEAR_LOAD (R357). -/
  | wearLoad
  /-- FABRIC_BRINGUP (R357). -/
  | fabricBringup
  /-- MEMORY_CLEAR (R357). -/
  | memoryClear
  /-- START_FAIL (R357). -/
  | startFail
  /-- POWER_LOSS (R344). -/
  | powerLoss
  /-- ORDERLY_SHUTDOWN (R344). -/
  | orderlyShutdown
  /-- COPY_FABRIC_ERROR (R256). -/
  | copyFabricError (op start n : Nat)
  /-- POISON_DETECT (R329). -/
  | poisonDetect (place : PoisonPlace)
  /-- TIMESTAMP_SCRUB (R192). -/
  | timestampScrub (line : Nat)
  /-- REMOTE_WRITE_APPLY (R199). -/
  | remoteWriteApply (src num key : Nat) (bytes : List Byte)
  /-- L2_MODE_CHANGE (R188). -/
  | l2ModeChange (toPrivate : Bool)
  /-- WEAR_PERIOD (R339). -/
  | wearPeriod (core : Nat) (r : WearReading)
  /-- INFIELD_TEST (R346). -/
  | infieldTest (core : Nat)
  /-- INFIELD_TEST_DONE (R347). -/
  | infieldTestDone (hw : Nat) (failed : List Nat)
  /-- POWER_WINDOW (R359). -/
  | powerWindow (milliwatts : Nat)
  /-- HBM_SCRUB (R355). -/
  | hbmScrub (stack : Nat)
  /-- TASK_SUBMIT (R288). -/
  | taskSubmit (c : Cmd) (win : BitVec 3)
  /-- SEM_ACQUIRE (R352). -/
  | semAcquire (port : HostPort) (iod : Bool) (n : BitVec 4)
  /-- SEM_RELEASE (R352). -/
  | semRelease (port : HostPort) (iod : Bool) (n : BitVec 4)
  /-- HOST_REG_WRITE (R349). -/
  | hostRegWrite (c : Cmd) (off : Nat) (bytes : List Byte)
  /-- HOST_DMA (R348). -/
  | hostDma (port : HostPort) (off : Nat) (op : DmaOp)
  /-- HOST_LINK_DOWN (R352). -/
  | hostLinkDown (loss : PortLoss)
  /-- CTX_CREATE (R350). -/
  | ctxCreate (c : Cmd) (o : CtxOperands)
  /-- CTX_DESTROY (R350). -/
  | ctxDestroy (c : Cmd) (ctx : Nat)
  /-- DOM_OPEN (R350). -/
  | domOpen (c : Cmd) (dom : BitVec 16) (salt : DWord) (cistern catalogue : Nat)
  /-- DOM_CLEAR (R350). -/
  | domClear (c : Cmd) (dom : BitVec 16)
  /-- DOM_CLOSE (R350). -/
  | domClose (c : Cmd) (dom : BitVec 16)
  /-- PREEMPT (R350). -/
  | preempt (c : Cmd) (hw : Nat)
  /-- INVAL (R350). -/
  | inval (c : Cmd) (va : DWord)
  /-- PEERSEQ (R350). -/
  | peerseq (c : Cmd) (chip : Nat)
  /-- PEERFAIL (R354). -/
  | peerfail (c : Cmd) (chip : Nat)
  /-- ROUTE_LOSS_TIMEOUT (R354). -/
  | routeLossTimeout (chip : Nat)
  /-- DIE_RESET (R351). -/
  | dieReset (c : Cmd) (die : BitVec 2) (failing : List Nat)
  /-- FW_UPDATE (R356). -/
  | fwUpdate (c : Cmd) (addr : DWord) (len : Nat)
  /-- ATTEST (R356). -/
  | attest (c : Cmd) (nonce : List Byte) (addr : DWord)
  /-- WINDOW (R350). -/
  | window (c : Cmd) (base : DWord)
  /-- LINK_NEGOTIATE (R353). -/
  | linkNegotiate (port : Nat) (o : LinkOutcome)
  /-- HBM_INIT (R357). -/
  | hbmInit (settingsCheck : Bool)
  /-- SCAN_SELF_TEST (R357). -/
  | scanSelfTest (failing : List Nat)
  /-- UNLISTED_COMMAND_CODE (R350). -/
  | unlistedCommandCode (c : Cmd) (code : Word)
  /-- REMOTE_LEASE_REQUEST (R198). -/
  | remoteLeaseRequest (line chip : Nat)
  /-- FABRIC_LINK_LOSS (R353). -/
  | fabricLinkLoss (port : Nat)
deriving DecidableEq, Repr

end Sys2Proof
end

