-- ==== Sys2Proof/Decode.lean ====
section
/-! DEFINITION. Decoding: the 32-bit access word (R64 to R67) and the 96-bit lane word (R68, R84, R85), total on any
bits; a word the maps do not list becomes the constructor that traps ILLEGAL, named as undefined. Then the encoder,
written from the same tables. -/

namespace Sys2Proof

/-! ## The access word -/

/-- D of the I and R forms, A of the B and Q forms: bits [25:21] (R64). -/
def fD (w : BitVec 32) : Reg := w.extractLsb' 21 5
/-- A of the I and R forms, B of the B form: bits [20:16] (R64). -/
def fA (w : BitVec 32) : Reg := w.extractLsb' 16 5
/-- IMM16 and OFF16: bits [15:0] (R64). -/
def fImm (w : BitVec 32) : BitVec 16 := w.extractLsb' 0 16

/-- The R form by FN (R66, R67). -/
def decodeAlu (w : BitVec 32) (d a b : Reg) : Instr :=
  match (w.extractLsb' 0 11).toNat with
  | 0 => .add d a b
  | 1 => .sub d a b
  | 2 => .mul d a b
  | 3 => .mulh d a b
  | 4 => .and d a b
  | 5 => .or d a b
  | 6 => .xor d a b
  | 7 => .shl d a b
  | 8 => .shr d a b
  | 9 => .sra d a b
  | 10 => .slt d a b
  | 11 => .sltn d a b
  | 12 => .min d a b
  | 13 => .max d a b
  | 14 => .minn d a b
  | 15 => .maxn d a b
  | _ => .undefinedAccessWord w

/-- QPOP by MODE (R135): reserved bits and A are 0, MODE 1 takes an even lane, MODE 2 lane 0. -/
def decodeQpop (w : BitVec 32) : Instr :=
  let l := w.extractLsb' 4 5
  let bq := w.getLsbD 0
  let pk := w.getLsbD 9
  if fA w = 0#5 && w.extractLsb' 10 6 = 0#6 && !w.getLsbD 1 then
    match (w.extractLsb' 2 2).toNat with
    | 0 => .qpopW (fD w) bq l pk
    | 1 => .qpopD (fD w) bq l pk
    | 2 => if l = 0#5 then .qpopM (fD w) bq pk else .undefinedAccessWord w
    | _ => .undefinedAccessWord w
  else .undefinedAccessWord w

/-- The instruction an access word stands for (R65). -/
def decodeAccess (w : BitVec 32) : Instr :=
  match (w.extractLsb' 26 6).toNat with
  | 0x00 => if w = 0#32 then .nops else .undefinedAccessWord w
  | 0x01 => .addi (fD w) (fA w) (fImm w)
  | 0x02 => .andi (fD w) (fA w) (fImm w)
  | 0x03 => .ori (fD w) (fA w) (fImm w)
  | 0x04 => .xori (fD w) (fA w) (fImm w)
  | 0x05 => .slti (fD w) (fA w) (fImm w)
  | 0x10 => .lds (fD w) (fA w) (fImm w)
  | 0x11 => .ldsw (fD w) (fA w) (fImm w)
  | 0x12 => .sts (fD w) (fA w) (fImm w)
  | 0x13 => .stsw (fD w) (fA w) (fImm w)
  | 0x17 => .xlats (fD w) (fA w) (fImm w)
  | 0x22 => .jr (fD w) (fA w) (fImm w)
  | 0x06 => if fA w = 0#5 then .lui (fD w) (fImm w) else .undefinedAccessWord w
  | 0x07 => if w.extractLsb' 6 10 = 0#10 then .shli (fD w) (fA w) (w.extractLsb' 0 6) else .undefinedAccessWord w
  | 0x08 => if w.extractLsb' 6 10 = 0#10 then .shri (fD w) (fA w) (w.extractLsb' 0 6) else .undefinedAccessWord w
  | 0x09 => if w.extractLsb' 6 10 = 0#10 then .srai (fD w) (fA w) (w.extractLsb' 0 6) else .undefinedAccessWord w
  | 0x0A => decodeAlu w (fD w) (fA w) (w.extractLsb' 11 5)
  | 0x14 => .ldq (fD w) (w.extractLsb' 18 3) (w.extractLsb' 0 18)
  | 0x15 => if w.extractLsb' 1 17 = 0#17 then .qpush (fD w) (w.extractLsb' 18 3) (w.getLsbD 0) else .undefinedAccessWord w
  | 0x16 => decodeQpop w
  | 0x18 => .xlatq (fD w) (w.extractLsb' 18 3) (w.extractLsb' 0 18)
  | 0x19 => if fD w = 0#5 then .prefsL1 (fA w) (fImm w) else if fD w = 1#5 then .prefsL2 (fA w) (fImm w) else .undefinedAccessWord w
  | 0x1A => if fA w = 0#5 then .csrrs (fD w) (fImm w) else .undefinedAccessWord w
  | 0x1B => if fD w = 0#5 then .csrws (fA w) (fImm w) else .undefinedAccessWord w
  | 0x20 => .j (w.extractLsb' 0 26)
  | 0x21 => .jal (w.extractLsb' 0 26)
  | 0x3E => .tramps (w.extractLsb' 0 26)
  | 0x23 => .beq (fD w) (fA w) (fImm w)
  | 0x24 => .bne (fD w) (fA w) (fImm w)
  | 0x25 => .blt (fD w) (fA w) (fImm w)
  | 0x26 => .bge (fD w) (fA w) (fImm w)
  | 0x27 => .bltn (fD w) (fA w) (fImm w)
  | 0x28 => .bgen (fD w) (fA w) (fImm w)
  | 0x29 => if fD w = 0#5 && fImm w = 0#16 then .lstart (fA w) else .undefinedAccessWord w
  | 0x2A => if fD w = 0#5 then .lwait (fA w) (fImm w) else .undefinedAccessWord w
  | 0x2C => if fD w = 0#5 then .traps (fA w) (fImm w) else .undefinedAccessWord w
  | 0x2D => if fD w = 0#5 && fA w = 0#5 then .yields (fImm w) else .undefinedAccessWord w
  | 0x2E => if w.extractLsb' 0 26 = 0#26 then .halts else .undefinedAccessWord w
  | _ => .undefinedAccessWord w

/-! ## The lane word -/

/-- The strip of a lane word (R68). -/
def stripOf (w : BitVec 96) : Strip where
  sw := w.getLsbD 95
  pm := w.extractLsb' 82 3
  d := w.extractLsb' 74 8
  a := ⟨w.extractLsb' 66 8, w.extractLsb' 63 3, w.extractLsb' 58 5⟩
  b := ⟨w.extractLsb' 50 8, w.extractLsb' 47 3, w.extractLsb' 42 5⟩
  c := ⟨w.extractLsb' 34 8, w.extractLsb' 31 3, w.extractLsb' 26 5⟩
  lr := w.extractLsb' 23 3
  ib := w.getLsbD 22
  rm := w.extractLsb' 20 2
  sat := w.getLsbD 19
  fmt := w.extractLsb' 15 4
  x := w.extractLsb' 0 15

/-- The instruction of an operation code (R84, R85). Codes with two forms are told apart by the field their
chapter gives (R250, R252, R253, R273, R294, R304, R305). -/
def laneOf (op : BitVec 10) (w : Strip) : Instr :=
  match op.toNat with
  | 0x000 => .nop w
  | 0x001 => .iadd w
  | 0x002 => .isub w
  | 0x003 => .imul w
  | 0x004 => .imulh w
  | 0x005 => .imulhn w
  | 0x006 => .imad w
  | 0x007 => .imin w
  | 0x008 => .imax w
  | 0x009 => .iminn w
  | 0x00A => .imaxn w
  | 0x00B => .iabs w
  | 0x00C => .ineg w
  | 0x00D => .iand w
  | 0x00E => .ior w
  | 0x00F => .ixor w
  | 0x010 => .inot w
  | 0x011 => .ishl w
  | 0x012 => .ishr w
  | 0x013 => .isra w
  | 0x014 => .irot w
  | 0x015 => .iclz w
  | 0x016 => .ipopc w
  | 0x017 => .ibrev w
  | 0x018 => .ibfx w
  | 0x019 => .ibfi w
  | 0x01A => .isel w
  | 0x01B => .icmp w
  | 0x01D => .movi w
  | 0x01E => .mov w
  | 0x01F => .movx w
  | 0x020 => .movxd w
  | 0x021 => .laneid w
  | 0x022 => .idiv w
  | 0x023 => .idivn w
  | 0x024 => .irem w
  | 0x025 => .iremn w
  | 0x080 => .fadd w
  | 0x081 => .fsub w
  | 0x082 => .fmul w
  | 0x083 => .fma w
  | 0x084 => .fmin w
  | 0x085 => .fmax w
  | 0x086 => .fabs w
  | 0x087 => .fneg w
  | 0x088 => .fcmp w
  | 0x089 => .frcp w
  | 0x08A => .frsq w
  | 0x08B => .fsqrt w
  | 0x08C => .fdiv w
  | 0x08D => .fexp2 w
  | 0x08E => .flog2 w
  | 0x08F => .frint w
  | 0x090 => .twosum w
  | 0x091 => .fastsum w
  | 0x092 => .fclass w
  | 0x093 => .fscale w
  | 0x094 => .hadd2 w
  | 0x095 => .hmul2 w
  | 0x096 => .hfma2 w
  | 0x098 => .dot4e w
  | 0x099 => .fexpe w
  | 0x100 => .cvt w
  | 0x101 => .cvtPk w
  | 0x102 => .cvtUpk w
  | 0x103 => .qbx4 w
  | 0x104 => .dqbx4 w
  | 0x105 => .tag w
  | 0x106 => .tagr w
  | 0x107 => .shape w
  | 0x110 => .shfl w
  | 0x111 => .vote w
  | 0x112 => .redx w
  | 0x113 => .scan w
  | 0x114 => .matchLanes w
  | 0x115 => .cmpr w
  | 0x116 => .elect w
  | 0x117 => .alive w
  | 0x180 => .bra w
  | 0x181 => .brx w
  | 0x182 => .call w
  | 0x183 => .callx w
  | 0x184 => .ret w
  | 0x185 => .reconv w
  | 0x186 => .entry w
  | 0x187 => .exit w
  | 0x188 => .yield w
  | 0x189 => .pset w
  | 0x18A => .pmov w
  | 0x18C => .launch w
  | 0x18D => .lmark w
  | 0x18E => .preemptOff w
  | 0x18F => .preemptOn w
  | 0x200 => .ld w
  | 0x201 => .st w
  | 0x202 => .ldP w
  | 0x203 => .stP w
  | 0x204 => .stCl w
  | 0x205 => .ldCl w
  | 0x206 => .atom w
  | 0x208 => .red w
  | 0x209 => .cas w
  | 0x20A => .fence w
  | 0x20B => .fenceX w
  | 0x20C => .barInit w
  | 0x20D => .barArrive w
  | 0x20E => .barExpect w
  | 0x20F => .barWait w
  | 0x210 => .barTest w
  | 0x211 => .xlat w
  | 0x212 => .xlatRp w
  | 0x213 => .prefetch w
  | 0x214 => .ldC w
  | 0x280 => .mxLoadw w
  | 0x281 => .mxSwap w
  | 0x282 => if w.x.getLsbD 14 then .mxClearRel w else .mxClear w
  | 0x283 => .mxStream w
  | 0x284 => if w.d = 0#8 then .mxDrainMem w else .mxDrainReg w
  | 0x286 => .mxStat w
  | 0x287 => .cpTile w
  | 0x288 => .cpCmd w
  | 0x289 => if w.x.getLsbD 14 then .tmaskReg w else .tmaskAcc w
  | 0x28A => .sampArm w
  | 0x300 => .fragOpen w
  | 0x301 => .fragIn w
  | 0x302 => .fragInm w
  | 0x303 => .fragClaim w
  | 0x304 => if w.x.getLsbD 2 then .fragOutWin w else .fragOut w
  | 0x305 => .fragSeal w
  | 0x306 => .fragDrop w
  | 0x307 => .fragName w
  | 0x310 => .specOpen w
  | 0x311 => .specCommit w
  | 0x312 => .specSquash w
  | 0x313 => .specStat w
  | 0x314 => .kvStage w
  | 0x315 => .kvCommit w
  | 0x320 => .qPush w
  | 0x321 => .qPop w
  | 0x322 => .qStat w
  | 0x330 => .ladEsc w
  | 0x331 => .ladRes w
  | 0x332 => if w.x.getLsbD 0 then .ladDoneOpen w else .ladDoneTest w
  | 0x333 => .ladItem w
  | 0x380 => .sigChk w
  | 0x381 => .sigRd w
  | 0x382 => .rgCkpt w
  | 0x383 => .rgStat w
  | 0x384 => .csrr w
  | 0x385 => .csrw w
  | 0x386 => .trap w
  | 0x387 => .tret w
  | 0x388 => .wearRd w
  | 0x3F0 => .tramp 0#3 w
  | 0x3F1 => .tramp 1#3 w
  | 0x3F2 => .tramp 2#3 w
  | 0x3F3 => .tramp 3#3 w
  | 0x3F4 => .tramp 4#3 w
  | 0x3F5 => .tramp 5#3 w
  | 0x3F6 => .tramp 6#3 w
  | 0x3F7 => .tramp 7#3 w
  | _ => .undefinedLaneOpcode op w

/-- The instruction a lane word stands for. -/
def decodeLane (w : BitVec 96) : Instr := laneOf (w.extractLsb' 85 10) (stripOf w)

/-! ## Bytes -/

/-- An access word from its bytes, lowest address first, and the bytes after it (R62). -/
def decodeAccessBytes (bs : List Byte) : Option (Instr × List Byte) :=
  if bs.length < 4 then none
  else some (decodeAccess (BitVec.ofNat 32 (Machine.ofBytesLE (bs.take 4))), bs.drop 4)

/-- A lane word from its bytes, lowest address first, and the bytes after it (R62). -/
def decodeLaneBytes (bs : List Byte) : Option (Instr × List Byte) :=
  if bs.length < 12 then none
  else some (decodeLane (BitVec.ofNat 96 (Machine.ofBytesLE (bs.take 12))), bs.drop 12)

/-- The instruction whose bits, numbered as the table of operations numbers them, are `w`: a row of at most 32 bits
is an access word, one of at most 96 a lane word. -/
def decodeTableWord (nbits w : Nat) : Option Instr :=
  if nbits ≤ 32 then (decodeAccessBytes (Machine.toBytesLE 4 w)).map Prod.fst
  else if nbits ≤ 96 then (decodeLaneBytes (Machine.toBytesLE 12 w)).map Prod.fst
  else none

/-! ## The encoder -/

/-- OP, two register fields and a 16-bit field (R64). -/
def iForm (op : BitVec 6) (d a : Reg) (i : BitVec 16) : BitVec 32 := op ++ d ++ a ++ i
/-- The R form (R64, R66). -/
def rForm (fn : BitVec 11) (d a b : Reg) : BitVec 32 := 0x0A#6 ++ d ++ a ++ b ++ fn
/-- The Q form (R64). -/
def qForm (op : BitVec 6) (a : Reg) (q : BitVec 3) (st : BitVec 18) : BitVec 32 := op ++ a ++ q ++ st
/-- QPOP (R135). -/
def qpopForm (d : Reg) (mode : BitVec 2) (bq : Bool) (l : BitVec 5) (pk : Bool) : BitVec 32 :=
  0x16#6 ++ d ++ 0#5 ++ 0#6 ++ BitVec.ofBool pk ++ l ++ mode ++ 0#1 ++ BitVec.ofBool bq

/-- The access word of an instruction; none for lane words and events. -/
def encodeAccess : Instr → Option (BitVec 32)
  | .nops => some 0#32
  | .addi d a i => some (iForm 0x01#6 d a i)
  | .andi d a i => some (iForm 0x02#6 d a i)
  | .ori d a i => some (iForm 0x03#6 d a i)
  | .xori d a i => some (iForm 0x04#6 d a i)
  | .slti d a i => some (iForm 0x05#6 d a i)
  | .lds d a i => some (iForm 0x10#6 d a i)
  | .ldsw d a i => some (iForm 0x11#6 d a i)
  | .sts d a i => some (iForm 0x12#6 d a i)
  | .stsw d a i => some (iForm 0x13#6 d a i)
  | .xlats d a i => some (iForm 0x17#6 d a i)
  | .jr d a i => some (iForm 0x22#6 d a i)
  | .lui d i => some (iForm 0x06#6 d 0#5 i)
  | .shli d a n => some (iForm 0x07#6 d a (n.setWidth 16))
  | .shri d a n => some (iForm 0x08#6 d a (n.setWidth 16))
  | .srai d a n => some (iForm 0x09#6 d a (n.setWidth 16))
  | .add d a b => some (rForm 0#11 d a b)
  | .sub d a b => some (rForm 1#11 d a b)
  | .mul d a b => some (rForm 2#11 d a b)
  | .mulh d a b => some (rForm 3#11 d a b)
  | .and d a b => some (rForm 4#11 d a b)
  | .or d a b => some (rForm 5#11 d a b)
  | .xor d a b => some (rForm 6#11 d a b)
  | .shl d a b => some (rForm 7#11 d a b)
  | .shr d a b => some (rForm 8#11 d a b)
  | .sra d a b => some (rForm 9#11 d a b)
  | .slt d a b => some (rForm 10#11 d a b)
  | .sltn d a b => some (rForm 11#11 d a b)
  | .min d a b => some (rForm 12#11 d a b)
  | .max d a b => some (rForm 13#11 d a b)
  | .minn d a b => some (rForm 14#11 d a b)
  | .maxn d a b => some (rForm 15#11 d a b)
  | .ldq a q st => some (qForm 0x14#6 a q st)
  | .qpush a q hi => some (qForm 0x15#6 a q (if hi then 1#18 else 0#18))
  | .qpopW d bq l pk => some (qpopForm d 0#2 bq l pk)
  | .qpopD d bq l pk => some (qpopForm d 1#2 bq l pk)
  | .qpopM d bq pk => some (qpopForm d 2#2 bq 0#5 pk)
  | .xlatq a q st => some (qForm 0x18#6 a q st)
  | .prefsL1 a i => some (iForm 0x19#6 0#5 a i)
  | .prefsL2 a i => some (iForm 0x19#6 1#5 a i)
  | .csrrs d c => some (iForm 0x1A#6 d 0#5 c)
  | .csrws a c => some (iForm 0x1B#6 0#5 a c)
  | .j off => some (0x20#6 ++ off)
  | .jal off => some (0x21#6 ++ off)
  | .tramps off => some (0x3E#6 ++ off)
  | .beq a b off => some (iForm 0x23#6 a b off)
  | .bne a b off => some (iForm 0x24#6 a b off)
  | .blt a b off => some (iForm 0x25#6 a b off)
  | .bge a b off => some (iForm 0x26#6 a b off)
  | .bltn a b off => some (iForm 0x27#6 a b off)
  | .bgen a b off => some (iForm 0x28#6 a b off)
  | .lstart a => some (iForm 0x29#6 0#5 a 0#16)
  | .lwait a i => some (iForm 0x2A#6 0#5 a i)
  | .traps a i => some (iForm 0x2C#6 0#5 a i)
  | .yields i => some (iForm 0x2D#6 0#5 0#5 i)
  | .halts => some (iForm 0x2E#6 0#5 0#5 0#16)
  | .undefinedAccessWord w => some w
  | _ => none

/-- The operation code and strip of a lane word; none for access words and events. -/
def laneOp : Instr → Option (BitVec 10 × Strip)
  | .nop w => some (0x000#10, w)
  | .iadd w => some (0x001#10, w)
  | .isub w => some (0x002#10, w)
  | .imul w => some (0x003#10, w)
  | .imulh w => some (0x004#10, w)
  | .imulhn w => some (0x005#10, w)
  | .imad w => some (0x006#10, w)
  | .imin w => some (0x007#10, w)
  | .imax w => some (0x008#10, w)
  | .iminn w => some (0x009#10, w)
  | .imaxn w => some (0x00A#10, w)
  | .iabs w => some (0x00B#10, w)
  | .ineg w => some (0x00C#10, w)
  | .iand w => some (0x00D#10, w)
  | .ior w => some (0x00E#10, w)
  | .ixor w => some (0x00F#10, w)
  | .inot w => some (0x010#10, w)
  | .ishl w => some (0x011#10, w)
  | .ishr w => some (0x012#10, w)
  | .isra w => some (0x013#10, w)
  | .irot w => some (0x014#10, w)
  | .iclz w => some (0x015#10, w)
  | .ipopc w => some (0x016#10, w)
  | .ibrev w => some (0x017#10, w)
  | .ibfx w => some (0x018#10, w)
  | .ibfi w => some (0x019#10, w)
  | .isel w => some (0x01A#10, w)
  | .icmp w => some (0x01B#10, w)
  | .movi w => some (0x01D#10, w)
  | .mov w => some (0x01E#10, w)
  | .movx w => some (0x01F#10, w)
  | .movxd w => some (0x020#10, w)
  | .laneid w => some (0x021#10, w)
  | .idiv w => some (0x022#10, w)
  | .idivn w => some (0x023#10, w)
  | .irem w => some (0x024#10, w)
  | .iremn w => some (0x025#10, w)
  | .fadd w => some (0x080#10, w)
  | .fsub w => some (0x081#10, w)
  | .fmul w => some (0x082#10, w)
  | .fma w => some (0x083#10, w)
  | .fmin w => some (0x084#10, w)
  | .fmax w => some (0x085#10, w)
  | .fabs w => some (0x086#10, w)
  | .fneg w => some (0x087#10, w)
  | .fcmp w => some (0x088#10, w)
  | .frcp w => some (0x089#10, w)
  | .frsq w => some (0x08A#10, w)
  | .fsqrt w => some (0x08B#10, w)
  | .fdiv w => some (0x08C#10, w)
  | .fexp2 w => some (0x08D#10, w)
  | .flog2 w => some (0x08E#10, w)
  | .frint w => some (0x08F#10, w)
  | .twosum w => some (0x090#10, w)
  | .fastsum w => some (0x091#10, w)
  | .fclass w => some (0x092#10, w)
  | .fscale w => some (0x093#10, w)
  | .hadd2 w => some (0x094#10, w)
  | .hmul2 w => some (0x095#10, w)
  | .hfma2 w => some (0x096#10, w)
  | .dot4e w => some (0x098#10, w)
  | .fexpe w => some (0x099#10, w)
  | .cvt w => some (0x100#10, w)
  | .cvtPk w => some (0x101#10, w)
  | .cvtUpk w => some (0x102#10, w)
  | .qbx4 w => some (0x103#10, w)
  | .dqbx4 w => some (0x104#10, w)
  | .tag w => some (0x105#10, w)
  | .tagr w => some (0x106#10, w)
  | .shape w => some (0x107#10, w)
  | .shfl w => some (0x110#10, w)
  | .vote w => some (0x111#10, w)
  | .redx w => some (0x112#10, w)
  | .scan w => some (0x113#10, w)
  | .matchLanes w => some (0x114#10, w)
  | .cmpr w => some (0x115#10, w)
  | .elect w => some (0x116#10, w)
  | .alive w => some (0x117#10, w)
  | .bra w => some (0x180#10, w)
  | .brx w => some (0x181#10, w)
  | .call w => some (0x182#10, w)
  | .callx w => some (0x183#10, w)
  | .ret w => some (0x184#10, w)
  | .reconv w => some (0x185#10, w)
  | .entry w => some (0x186#10, w)
  | .exit w => some (0x187#10, w)
  | .yield w => some (0x188#10, w)
  | .pset w => some (0x189#10, w)
  | .pmov w => some (0x18A#10, w)
  | .lmark w => some (0x18D#10, w)
  | .launch w => some (0x18C#10, w)
  | .preemptOff w => some (0x18E#10, w)
  | .preemptOn w => some (0x18F#10, w)
  | .ld w => some (0x200#10, w)
  | .st w => some (0x201#10, w)
  | .ldP w => some (0x202#10, w)
  | .stP w => some (0x203#10, w)
  | .stCl w => some (0x204#10, w)
  | .ldCl w => some (0x205#10, w)
  | .atom w => some (0x206#10, w)
  | .red w => some (0x208#10, w)
  | .cas w => some (0x209#10, w)
  | .fence w => some (0x20A#10, w)
  | .fenceX w => some (0x20B#10, w)
  | .barInit w => some (0x20C#10, w)
  | .barArrive w => some (0x20D#10, w)
  | .barExpect w => some (0x20E#10, w)
  | .barWait w => some (0x20F#10, w)
  | .barTest w => some (0x210#10, w)
  | .xlat w => some (0x211#10, w)
  | .xlatRp w => some (0x212#10, w)
  | .prefetch w => some (0x213#10, w)
  | .ldC w => some (0x214#10, w)
  | .mxLoadw w => some (0x280#10, w)
  | .mxSwap w => some (0x281#10, w)
  | .mxClear w => some (0x282#10, w)
  | .mxClearRel w => some (0x282#10, w)
  | .mxStream w => some (0x283#10, w)
  | .mxDrainReg w => some (0x284#10, w)
  | .mxDrainMem w => some (0x284#10, w)
  | .mxStat w => some (0x286#10, w)
  | .cpTile w => some (0x287#10, w)
  | .cpCmd w => some (0x288#10, w)
  | .tmaskAcc w => some (0x289#10, w)
  | .tmaskReg w => some (0x289#10, w)
  | .sampArm w => some (0x28A#10, w)
  | .fragOpen w => some (0x300#10, w)
  | .fragIn w => some (0x301#10, w)
  | .fragInm w => some (0x302#10, w)
  | .fragClaim w => some (0x303#10, w)
  | .fragOut w => some (0x304#10, w)
  | .fragOutWin w => some (0x304#10, w)
  | .fragSeal w => some (0x305#10, w)
  | .fragDrop w => some (0x306#10, w)
  | .fragName w => some (0x307#10, w)
  | .specOpen w => some (0x310#10, w)
  | .specCommit w => some (0x311#10, w)
  | .specSquash w => some (0x312#10, w)
  | .specStat w => some (0x313#10, w)
  | .kvStage w => some (0x314#10, w)
  | .kvCommit w => some (0x315#10, w)
  | .qPush w => some (0x320#10, w)
  | .qPop w => some (0x321#10, w)
  | .qStat w => some (0x322#10, w)
  | .ladDoneOpen w => some (0x332#10, w)
  | .ladDoneTest w => some (0x332#10, w)
  | .ladEsc w => some (0x330#10, w)
  | .ladRes w => some (0x331#10, w)
  | .ladItem w => some (0x333#10, w)
  | .sigChk w => some (0x380#10, w)
  | .sigRd w => some (0x381#10, w)
  | .rgCkpt w => some (0x382#10, w)
  | .rgStat w => some (0x383#10, w)
  | .wearRd w => some (0x388#10, w)
  | .csrr w => some (0x384#10, w)
  | .csrw w => some (0x385#10, w)
  | .trap w => some (0x386#10, w)
  | .tret w => some (0x387#10, w)
  | .tramp slot w => some (0x3F0#10 ||| slot.setWidth 10, w)
  | .undefinedLaneOpcode op w => some (op, w)
  | _ => none

/-- The 96 bits of an operation code and a strip (R68). -/
def encodeStrip (op : BitVec 10) (w : Strip) : BitVec 96 :=
  BitVec.ofBool w.sw ++ op ++ w.pm ++ w.d ++ w.a.bits ++ w.b.bits ++ w.c.bits ++ w.lr ++ BitVec.ofBool w.ib
    ++ w.rm ++ BitVec.ofBool w.sat ++ w.fmt ++ w.x

/-- The lane word of an instruction; none for access words and events. -/
def encodeLane (i : Instr) : Option (BitVec 96) := (laneOp i).map fun p => encodeStrip p.1 p.2

end Sys2Proof
end

