-- ==== Sys2Proof/Machine/Legal.lean ====
section
/-! DEFINITION. Which fields of the strip each lane word uses (R68, R69, R70, R79 and the strip tables of the
chapters): the legality of a lane word, the tags its sources accept (R36), the registers it names (R71), its
latency class (R74) and its purity class (R266). -/

namespace Sys2Proof.Machine

/-- The tags an operand accepts (R35, R36). -/
inductive TagSet where
  /-- not checked -/
  | unchecked
  /-- any tag -/
  | any
  /-- any tag except BX4 -/
  | notBx4
  /-- INT: I32 or N32 -/
  | int
  /-- FLT -/
  | f32
  /-- INT or FLT (CVT) -/
  | number
  | pk16
  | pk8
  | bx4
  | adr
  /-- the tag in FMT -/
  | fmt
deriving DecidableEq, Repr

/-- Whether a tag is in the set, under the word's FMT. A reserved tag (0xB to 0xF) is in none that is checked. -/
def TagSet.accepts (t : TagSet) (fmt tag : FmtTag) : Bool :=
  match t with
  | .unchecked => true
  | .any => tag.toNat < 11
  | .notBx4 => tag.toNat < 11 && tag != 8#4
  | .int => tag == 1#4 || tag == 2#4
  | .f32 => tag == 3#4
  | .number => tag == 1#4 || tag == 2#4 || tag == 3#4
  | .pk16 => tag == 4#4 || tag == 5#4
  | .pk8 => tag == 6#4 || tag == 7#4
  | .bx4 => tag == 8#4
  | .adr => tag == 0xA#4
  | .fmt => tag == fmt && tag.toNat < 11

/-- How a source field is used. -/
structure SrcForm where
  used : Bool
  /-- registers read, from the named one upward -/
  span : Nat
  /-- the register number must be a multiple of this -/
  align : Nat
  /-- may name a queue -/
  queue : Bool
  /-- may carry a pattern -/
  pat : Bool
  tags : TagSet
deriving DecidableEq, Repr

/-- How an immediate is used: not at all, in place of B, or always. -/
inductive ImmUse where
  | no
  | may
  | must
deriving DecidableEq, Repr

/-- The use of every field of one lane word. -/
structure LaneForm where
  op : BitVec 10
  /-- takes a guard -/
  guard : Bool
  dUsed : Bool
  dSpan : Nat
  dAlign : Nat
  /-- D may name a back queue -/
  dBack : Bool
  /-- D is a source as well (TMASK registers) or a source only (KV.STAGE) -/
  dRead : TagSet
  a : SrcForm
  b : SrcForm
  c : SrcForm
  imm : ImmUse
  rm : Bool
  sat : Bool
  /-- the FMT codes allowed; none: the field is unused -/
  fmts : List FmtTag
  /-- the bits of X that the word uses -/
  xmask : BitVec 15
  /-- the remaining conditions on the word -/
  extra : Bool
  /-- B and C hold another field (MOVI, displacements) -/
  overlay : Bool
  /-- may execute inside an open fragment (R266) -/
  pure : Bool
  /-- its register reads are exempt from the clean test (R265) -/
  exempt : Bool
  /-- variable latency (R74) -/
  var : Bool
deriving DecidableEq, Repr

namespace Form

def noSrc : SrcForm := ⟨false, 0, 1, false, false, .unchecked⟩
/-- An ordinary source: register or queue, any pattern. -/
def src (t : TagSet) : SrcForm := ⟨true, 1, 1, true, true, t⟩
/-- A register only, without a pattern. -/
def plain (t : TagSet) : SrcForm := ⟨true, 1, 1, false, false, t⟩
/-- A register only, any pattern. -/
def regSrc (t : TagSet) : SrcForm := ⟨true, 1, 1, false, true, t⟩
/-- A register pair of class ADR (R37). -/
def adrPair : SrcForm := ⟨true, 2, 2, false, true, .adr⟩
/-- A range of registers read as they stand. -/
def range (n al : Nat) (t : TagSet) : SrcForm := ⟨true, n, al, false, false, t⟩

/-- Nothing used but OP and SW. -/
def bare (op : BitVec 10) : LaneForm :=
  ⟨op, false, false, 0, 1, false, .unchecked, noSrc, noSrc, noSrc, .no, false, false, [], 0#15, true, false, true, false, false⟩

/-- A guarded compute word with a destination. -/
def compute (op : BitVec 10) (fmts : List FmtTag) : LaneForm :=
  { bare op with guard := true, dUsed := true, dSpan := 1, dBack := true, fmts := fmts }

def ints : List FmtTag := [1#4, 2#4]
def notBx4 : List FmtTag := [0#4, 1#4, 2#4, 3#4, 4#4, 5#4, 6#4, 7#4, 9#4, 0xA#4]
def all : List FmtTag := [0#4, 1#4, 2#4, 3#4, 4#4, 5#4, 6#4, 7#4, 8#4, 9#4, 0xA#4]

/-- Integer word of two operands (R149, R150). -/
def int2 (op : BitVec 10) (sat : Bool) : LaneForm :=
  { compute op ints with a := src .int, b := src .int, imm := .may, sat := sat }
/-- Integer word of one operand. -/
def int1 (op : BitVec 10) (sat : Bool) : LaneForm := { compute op ints with a := src .int, sat := sat }
/-- Bitwise word of two operands. -/
def bit2 (op : BitVec 10) : LaneForm :=
  { compute op notBx4 with a := src .notBx4, b := src .notBx4, imm := .may }
/-- Shift and field word of two operands. -/
def shift2 (op : BitVec 10) : LaneForm :=
  { compute op ints with a := src .notBx4, b := src .notBx4, imm := .may }
def shift1 (op : BitVec 10) : LaneForm := { compute op ints with a := src .notBx4 }
/-- F32 word of two operands (R153). -/
def flt2 (op : BitVec 10) (imm : ImmUse) (rm sat : Bool) : LaneForm :=
  { compute op [3#4] with a := src .f32, b := src .f32, imm := imm, rm := rm, sat := sat }
def flt1 (op : BitVec 10) (rm : Bool) : LaneForm := { compute op [3#4] with a := src .f32, rm := rm }
/-- Packed 16-bit word (R156). -/
def pk2 (op : BitVec 10) : LaneForm :=
  { compute op [4#4, 5#4] with a := src .fmt, b := src .fmt, rm := true, sat := true }

/-- Bits of X as a number. -/
def xf (w : Strip) (hi lo : Nat) : Nat := (w.x.toNat >>> lo) % 2 ^ (hi + 1 - lo)
def xb (w : Strip) (n : Nat) : Bool := w.x.getLsbD n

/-- SIZE of a memory word in bytes; the registers it moves and their alignment (R203). -/
def sizeBytes (w : Strip) : Nat := 2 ^ xf w 2 0
def sizeSpan (w : Strip) : Nat := match xf w 2 0 with | 3 => 2 | 4 => 4 | _ => 1

/-- The registers a source names. -/
def srcRegs (f : SrcForm) (s : SrcField) : List Nat :=
  if f.used && decide (s.code.toNat < 248) then (List.range f.span).map (· + s.code.toNat) else []

/-- The registers D names. -/
def dstRegs (f : LaneForm) (w : Strip) : List Nat :=
  if f.dUsed && decide (w.d.toNat < 248) then (List.range f.dSpan).map (· + w.d.toNat) else []

def useB (f : LaneForm) (w : Strip) : Bool := f.b.used && !w.ib

/-- Every register the word reads. -/
def readRegs (f : LaneForm) (w : Strip) : List Nat :=
  srcRegs f.a w.a ++ (if useB f w then srcRegs f.b w.b else []) ++ (if f.overlay then [] else srcRegs f.c w.c)
    ++ (if f.dRead = .unchecked then [] else dstRegs f w)

/-- No destination register is a source (R204). -/
def noOverlap (f : LaneForm) (w : Strip) : Bool :=
  (dstRegs f w).all fun n => !(readRegs f w).contains n

/-- A load (R201, R203 to R205). -/
def load (op : BitVec 10) (w : Strip) (addr : SrcForm) (core : Bool) : LaneForm :=
  let f : LaneForm := { compute op notBx4 with
    dSpan := sizeSpan w, dAlign := sizeSpan w, dBack := sizeSpan w == 1,
    a := addr, b := src .int, imm := .may,
    xmask := if core then 0x3F#15 else 0xF#15, var := true }
  { f with extra := decide (xf w 2 0 ≤ 4) && (!xb w 3 || decide (xf w 2 0 < 2)) && noOverlap f w }

/-- A store. -/
def store (op : BitVec 10) (w : Strip) (addr : SrcForm) (core : Bool) : LaneForm :=
  { compute op [] with
    dUsed := false, dSpan := 0, dBack := false,
    a := addr, b := src .int, imm := .may,
    c := ⟨true, sizeSpan w, sizeSpan w, sizeSpan w == 1, true, .notBx4⟩,
    xmask := if core then 0x37#15 else 0x7#15,
    extra := decide (xf w 2 0 ≤ 4) && (!core || xf w 3 3 == 0) }

/-- ATOM and RED (R212). -/
def atomic (op : BitVec 10) (w : Strip) (ret : Bool) : LaneForm :=
  let f : LaneForm := { compute op ints with
    dUsed := ret, dSpan := if ret then 1 else 0, dBack := ret,
    a := adrPair, b := src .int, imm := .may, c := src .int, xmask := 0xF7#15, var := ret }
  { f with extra := xf w 2 0 == 2 && decide (xf w 7 4 ≤ 8) && noOverlap f w }

/-- A barrier word (R216): CORE is 0 whenever CL is 0. -/
def barrier (op : BitVec 10) (w : Strip) (xmask : BitVec 15) : LaneForm :=
  { compute op [] with
    dUsed := false, dSpan := 0, dBack := false, a := src .int, xmask := xmask,
    extra := xb w 2 || xf w 1 0 == 0 }

/-- XLAT and XLAT.RP (R223, R224). -/
def xlat (op : BitVec 10) (w : Strip) : LaneForm :=
  let f : LaneForm := { compute op [0xA#4] with
    dSpan := 2, dAlign := 2, dBack := false, a := src .int, b := src .int, imm := .may,
    xmask := 0xF#15, pure := false, var := true }
  { f with extra := (if op = 0x211#10 then xb w 0 || xf w 3 1 == 0 else xb w 0) && noOverlap f w }

/-- A row range of the accumulator store: ROW + NROW within 128 (R247). -/
def rowsOk (w : Strip) : Bool := decide (xf w 6 0 + xf w 13 7 + 1 ≤ 128)

/-- A matrix or copy word (R247). -/
def matrix (op : BitVec 10) : LaneForm := { bare op with pure := false }

/-- A word with a status or value in D and PM 7. -/
def status (op : BitVec 10) : LaneForm := { bare op with dUsed := true, dSpan := 1, dBack := true }

/-- A word of the queue, ladder and KV chapters: no field names a queue (R284, R302). -/
def qword (op : BitVec 10) : LaneForm := { bare op with dUsed := true, dSpan := 1 }

/-- A word of R170 that uses nothing but part of X. -/
def control (op : BitVec 10) : LaneForm := bare op

/-- Bits [29:4] of the word are 0. -/
def low26zero (w : Strip) : Bool :=
  w.c.k.extractLsb' 0 4 == 0#4 && w.lr == 0#3 && !w.ib && w.rm == 0#2 && !w.sat && w.fmt == 0#4
    && w.x.extractLsb' 4 11 == 0#11

/-- FMT of REDX and SCAN, and the tags of A, by OPR (R166). -/
def redFmts (opr : Nat) : List FmtTag := if opr ≤ 4 then ints else if opr ≤ 7 then notBx4 else [3#4]
def redTags (opr : Nat) : TagSet := if opr ≤ 4 then .int else if opr ≤ 7 then .notBx4 else .f32
def reduce (op : BitVec 10) (w : Strip) (xmask : BitVec 15) : LaneForm :=
  { compute op (redFmts (xf w 6 3)) with
    a := src (redTags (xf w 6 3)), rm := xf w 6 3 == 8, xmask := xmask,
    extra := decide (xf w 6 3 ≤ 10) && xf w 8 7 != 3 }

end Form

open Form in
/-- The form of every lane word of the table, by its constructor; none for access words and events. Which tags the operands
of SHAPE, FRAG.IN, FRAG.OUT, LAD.ESC and LAD.RES accept is DESIGN CHOICE (log 85). -/
def laneForm : Instr → Option (LaneForm × Strip)
  | .nop w => some ({ bare 0x000#10 with guard := true }, w)
  | .iadd w => some (int2 0x001#10 true, w)
  | .isub w => some (int2 0x002#10 true, w)
  | .imul w => some (int2 0x003#10 true, w)
  | .imulh w => some (int2 0x004#10 false, w)
  | .imulhn w => some (int2 0x005#10 false, w)
  | .imad w => some ({ int2 0x006#10 true with c := src .int }, w)
  | .imin w => some (int2 0x007#10 false, w)
  | .imax w => some (int2 0x008#10 false, w)
  | .iminn w => some (int2 0x009#10 false, w)
  | .imaxn w => some (int2 0x00A#10 false, w)
  | .iabs w => some (int1 0x00B#10 true, w)
  | .ineg w => some (int1 0x00C#10 true, w)
  | .iand w => some (bit2 0x00D#10, w)
  | .ior w => some (bit2 0x00E#10, w)
  | .ixor w => some (bit2 0x00F#10, w)
  | .inot w => some ({ compute 0x010#10 notBx4 with a := src .notBx4 }, w)
  | .ishl w => some (shift2 0x011#10, w)
  | .ishr w => some (shift2 0x012#10, w)
  | .isra w => some (shift2 0x013#10, w)
  | .irot w => some (shift2 0x014#10, w)
  | .iclz w => some (shift1 0x015#10, w)
  | .ipopc w => some (shift1 0x016#10, w)
  | .ibrev w => some (shift1 0x017#10, w)
  | .ibfx w => some (shift2 0x018#10, w)
  | .ibfi w => some ({ shift2 0x019#10 with c := src .notBx4 }, w)
  | .isel w => some ({ compute 0x01A#10 notBx4 with a := src .notBx4, b := src .notBx4, imm := .may, xmask := 0x38#15 }, w)
  | .icmp w => some ({ compute 0x01B#10 ints with
      dUsed := false, dSpan := 0, dBack := false, a := src .int, b := src .int, imm := .may, xmask := 0x7F#15,
      extra := decide (xf w 6 3 ≤ 5) }, w)
  | .movi w => some ({ compute 0x01D#10 notBx4 with imm := .must, overlay := true }, w)
  | .mov w => some ({ compute 0x01E#10 [] with a := src .any }, w)
  | .movx w => some ({ compute 0x01F#10 notBx4 with a := range 0 1 .unchecked, b := src .int }, w)
  | .movxd w => some ({ compute 0x020#10 notBx4 with dSpan := 0, dBack := false, a := src .fmt, b := src .int }, w)
  | .laneid w => some (compute 0x021#10 ints, w)
  | .idiv w => some (int2 0x022#10 false, w)
  | .idivn w => some (int2 0x023#10 false, w)
  | .irem w => some (int2 0x024#10 false, w)
  | .iremn w => some (int2 0x025#10 false, w)
  | .fadd w => some (flt2 0x080#10 .may true true, w)
  | .fsub w => some (flt2 0x081#10 .may true true, w)
  | .fmul w => some (flt2 0x082#10 .may true true, w)
  | .fma w => some ({ flt2 0x083#10 .may true true with c := src .f32 }, w)
  | .fmin w => some (flt2 0x084#10 .may false false, w)
  | .fmax w => some (flt2 0x085#10 .may false false, w)
  | .fabs w => some (flt1 0x086#10 false, w)
  | .fneg w => some (flt1 0x087#10 false, w)
  | .fcmp w => some ({ flt2 0x088#10 .may false false with
      dUsed := false, dSpan := 0, dBack := false, fmts := [], xmask := 0x7F#15, extra := decide (xf w 6 3 ≤ 7) }, w)
  | .frcp w => some (flt1 0x089#10 true, w)
  | .frsq w => some (flt1 0x08A#10 false, w)
  | .fsqrt w => some (flt1 0x08B#10 true, w)
  | .fdiv w => some (flt2 0x08C#10 .no true false, w)
  | .fexp2 w => some (flt1 0x08D#10 false, w)
  | .flog2 w => some (flt1 0x08E#10 false, w)
  | .frint w => some (flt1 0x08F#10 true, w)
  | .twosum w => some ({ flt2 0x090#10 .no false false with dSpan := 2, dAlign := 2, dBack := false }, w)
  | .fastsum w => some ({ flt2 0x091#10 .no false false with dSpan := 2, dAlign := 2, dBack := false }, w)
  | .fclass w => some ({ flt1 0x092#10 false with fmts := [2#4] }, w)
  | .fscale w => some ({ flt2 0x093#10 .may true true with b := src .int }, w)
  | .hadd2 w => some (pk2 0x094#10, w)
  | .hmul2 w => some (pk2 0x095#10, w)
  | .hfma2 w => some ({ pk2 0x096#10 with c := src .fmt }, w)
  | .dot4e w => some ({ compute 0x098#10 [3#4] with
      a := src .pk8, b := src .pk8, c := src .f32, rm := true, sat := true }, w)
  | .fexpe w => some (flt2 0x099#10 .no false true, w)
  | .cvt w => some ({ compute 0x100#10 [1#4, 2#4, 3#4] with a := src .number, rm := true }, w)
  | .cvtPk w => some (
      let t := if w.fmt == 4#4 || w.fmt == 5#4 then TagSet.f32 else .pk16
      ({ compute 0x101#10 [4#4, 5#4, 6#4, 7#4] with a := src t, b := src t, rm := true }, w))
  | .cvtUpk w => some ({ compute 0x102#10 [3#4, 4#4, 5#4] with
      a := src (if w.fmt == 3#4 then .pk16 else .pk8), xmask := 1#15 }, w)
  | .qbx4 w => some ({ compute 0x103#10 [8#4] with a := range 8 8 .f32, rm := true }, w)
  | .dqbx4 w => some ({ compute 0x104#10 [3#4] with dSpan := 8, dAlign := 8, dBack := false, a := src .bx4, rm := true }, w)
  | .tag w => some ({ compute 0x105#10 all with a := src .any }, w)
  | .tagr w => some ({ compute 0x106#10 [] with a := src .unchecked }, w)
  | .shape w => some ({ compute 0x107#10 [] with a := plain .unchecked, xmask := 3#15, extra := xf w 1 0 != 3 }, w)
  | .shfl w => some ({ compute 0x110#10 [] with
      a := if xb w 4 then range 0 1 .unchecked else ⟨true, 1, 1, true, false, .notBx4⟩, b := src .int, imm := .may, xmask := 0x1F#15, pure := !xb w 4, var := xb w 4 }, w)
  | .vote w => some ({ compute 0x111#10 [] with xmask := 0xF8#15 }, w)
  | .redx w => some (reduce 0x112#10 w 0x1FF#15, w)
  | .scan w => some (reduce 0x113#10 w 0x3FF#15, w)
  | .matchLanes w => some ({ compute 0x114#10 [] with a := src .any, xmask := 7#15 }, w)
  | .cmpr w => some ({ compute 0x115#10 [1#4, 2#4, 3#4] with
      dSpan := if xb w 11 then 2 else 1, dAlign := if xb w 11 then 2 else 1, dBack := !xb w 11,
      a := src .fmt, xmask := 0xFFF#15,
      extra := xf w 4 3 != 3 && decide (1 ≤ xf w 10 5) && decide (xf w 10 5 ≤ 32 / 2 ^ xf w 4 3) }, w)
  | .elect w => some ({ compute 0x116#10 [] with
      dUsed := xb w 3, dSpan := if xb w 3 then 1 else 0, dBack := xb w 3, xmask := 0xF#15 }, w)
  | .alive w => some ({ compute 0x117#10 [] with xmask := 1#15 }, w)
  | .bra w => some ({ bare 0x180#10 with overlay := true, extra := low26zero w }, w)
  | .brx w => some ({ bare 0x181#10 with
      overlay := true, a := adrPair,
      extra := w.d == 0#8 && w.c.pat.getLsbD 0 == false && w.c.k == 0#5 && w.lr.extractLsb' 0 2 == 0#2 && !w.ib
        && w.rm == 0#2 && !w.sat && w.fmt == 0#4 && w.x == 0#15 }, w)
  | .call w => some ({ bare 0x182#10 with
      overlay := true,
      extra := w.b.bits.extractLsb' 0 14 == 0#14 && w.c.bits == 0#16 && low26zero w && w.x == 0#15 }, w)
  | .callx w => some ({ bare 0x183#10 with a := adrPair }, w)
  | .ret w => some (control 0x184#10, w)
  | .reconv w => some (control 0x185#10, w)
  | .entry w => some ({ control 0x186#10 with xmask := 0x1F#15, extra := xf w 4 0 != 0 }, w)
  | .exit w => some ({ control 0x187#10 with guard := true }, w)
  | .yield w => some (control 0x188#10, w)
  | .pset w => some ({ compute 0x189#10 [] with
      dUsed := false, dSpan := 0, dBack := false, a := ⟨!w.ib, 1, 1, true, true, .any⟩, imm := .may, xmask := 7#15 }, w)
  | .pmov w => some ({ compute 0x18A#10 [] with dUsed := false, dSpan := 0, dBack := false, xmask := 0x1FFF#15 }, w)
  | .lmark w => some (control 0x18D#10, w)
  | .launch w => some ({ qword 0x18C#10 with a := adrPair, var := true }, w)
  | .preemptOff w => some (control 0x18E#10, w)
  | .preemptOn w => some (control 0x18F#10, w)
  | .ld w => some (load 0x200#10 w adrPair false, w)
  | .st w => some (store 0x201#10 w adrPair false, w)
  | .ldP w => some (load 0x202#10 w (src .int) false, w)
  | .stP w => some (store 0x203#10 w (src .int) false, w)
  | .stCl w => some (store 0x204#10 w (src .int) true, w)
  | .ldCl w => some ({ load 0x205#10 w (src .int) true with pure := false }, w)
  | .atom w => some ({ atomic 0x206#10 w true with pure := false }, w)
  | .red w => some (atomic 0x208#10 w false, w)
  | .cas w => some (
      let wide := xf w 2 0 == 3
      let f : LaneForm := { compute 0x209#10 (if wide then [9#4, 0xA#4] else ints) with
        dSpan := sizeSpan w, dAlign := sizeSpan w, dBack := !wide, a := adrPair,
        b := if wide then ⟨true, 2, 2, false, true, .fmt⟩ else src .int,
        c := if wide then ⟨true, 2, 2, false, true, .fmt⟩ else src .int, xmask := 7#15, pure := false, var := true }
      ({ f with extra := (xf w 2 0 == 2 || wide) && noOverlap f w }, w))
  | .fence w => some ({ compute 0x20A#10 [] with dUsed := false, dSpan := 0, dBack := false, xmask := 1#15 }, w)
  | .fenceX w => some ({ compute 0x20B#10 [] with
      dUsed := false, dSpan := 0, dBack := false, xmask := 0x3F#15,
      extra := xf w 2 0 != 7 && xf w 5 3 != 7 && xf w 2 0 != xf w 5 3 }, w)
  | .barInit w => some ({ barrier 0x20C#10 w 7#15 with b := src .int, c := src .int, imm := .may }, w)
  | .barArrive w => some ({ barrier 0x20D#10 w 0x7FF#15 with
      dUsed := true, dSpan := 1, dBack := true, pure := false, var := true }, w)
  | .barExpect w => some ({ barrier 0x20E#10 w 0x1F#15 with b := src .int, imm := .may }, w)
  | .barWait w => some ({ barrier 0x20F#10 w 7#15 with b := src .int }, w)
  | .barTest w => some ({ barrier 0x210#10 w 0x3F#15 with b := src .int, pure := false, var := true }, w)
  | .xlat w => some (xlat 0x211#10 w, w)
  | .xlatRp w => some (xlat 0x212#10 w, w)
  | .prefetch w => some ({ compute 0x213#10 [] with
      dUsed := false, dSpan := 0, dBack := false, a := adrPair, b := src .int, imm := .may, xmask := 1#15 }, w)
  | .ldC w => some (load 0x214#10 w adrPair false, w)
  | .mxLoadw w => some ({ matrix 0x280#10 with
      a := src .int, b := src .int, imm := .may, fmts := [4#4, 5#4, 6#4, 7#4, 8#4] }, w)
  | .mxSwap w => some (matrix 0x281#10, w)
  | .mxClear w => some ({ matrix 0x282#10 with
      b := src .int, imm := .may, xmask := 0x3FFF#15, extra := rowsOk w }, w)
  | .mxClearRel w => some ({ matrix 0x282#10 with
      b := src .int, imm := .must, xmask := 0x7FFF#15, extra := rowsOk w && xb w 14 && w.imm16 == 0#16 }, w)
  | .mxStream w => some ({ matrix 0x283#10 with
      a := src .int, b := src .int, imm := .may, fmts := all, xmask := 0x3FFF#15, extra := rowsOk w }, w)
  | .mxDrainReg w => some (
      let per := if w.fmt == 3#4 then 4 else if w.fmt == 9#4 then 16 else 2
      let n := xf w 13 7 + 1
      ({ matrix 0x284#10 with
        dUsed := true, dSpan := per * n, dAlign := 4, fmts := [3#4, 4#4, 5#4, 9#4], xmask := 0x3FFF#15, var := true,
        extra := rowsOk w && w.d != 0#8
          && decide (n ≤ if w.fmt == 3#4 then 8 else if w.fmt == 9#4 then 2 else 16) }, w))
  | .mxDrainMem w => some ({ matrix 0x284#10 with
      a := adrPair, b := src .int, imm := .may, c := src .int, fmts := [3#4, 4#4, 5#4, 9#4], xmask := 0x7FFF#15,
      extra := rowsOk w && (!xb w 14 || w.fmt == 9#4) }, w)
  | .mxStat w => some ({ matrix 0x286#10 with
      dUsed := true, dSpan := 1, dBack := true, xmask := 0x3FF#15,
      extra := decide (xf w 1 0 < 2) }, w)
  | .cpTile w => some ({ matrix 0x287#10 with
      a := adrPair, b := ⟨true, 1, 1, false, true, .unchecked⟩, c := src .int, xmask := 0x7FFF#15, extra := !xb w 0 || xf w 14 1 == 0 }, w)
  | .cpCmd w => some ({ matrix 0x288#10 with
      a := src .int, b := src .int, imm := .may, c := src .int, fmts := all, xmask := 0x3FFF#15, extra := rowsOk w }, w)
  | .tmaskAcc w => some ({ matrix 0x289#10 with
      a := ⟨true, 2, 2, false, true, .int⟩, b := regSrc .int, imm := .may, c := regSrc .int, xmask := 0x3FFF#15,
      extra := rowsOk w && decide (xf w 13 7 < 32) }, w)
  | .tmaskReg w => some ({ matrix 0x289#10 with
      guard := true, dUsed := true, dSpan := 1, dRead := .f32, a := ⟨true, 2, 2, false, true, .int⟩,
      b := regSrc .int, imm := .may, c := regSrc .int, fmts := [3#4], xmask := 0x4000#15, extra := xb w 14 }, w)
  | .sampArm w => some ({ qword 0x28A#10 with
      a := adrPair, b := regSrc .int, imm := .may, pure := false, var := true }, w)
  | .fragOpen w => some ({ bare 0x300#10 with b := src .unchecked, imm := .must }, w)
  | .fragIn w => some (
      let n := xf w 1 0
      ({ bare 0x301#10 with
        dUsed := decide (3 ≤ n), dSpan := if 3 ≤ n then 1 else 0, dRead := if 3 ≤ n then .any else .unchecked,
        a := plain .any, b := if 1 ≤ n then plain .any else noSrc, c := if 2 ≤ n then plain .any else noSrc,
        xmask := 3#15, exempt := true }, w))
  | .fragInm w => some ({ bare 0x302#10 with a := adrPair, b := src .int, exempt := true }, w)
  | .fragClaim w => some ({ status 0x303#10 with
      overlay := true,
      a := if xb w 0 then adrPair else noSrc, xmask := 1#15, exempt := true, var := true,
      extra := (xb w 0 || w.a.bits == 0#16) && w.c.bits.extractLsb' 0 6 == 0#6 && (w.lr.extractLsb' 0 2 == 0#2)
        && (xb w 0 || w.lr == 0#3) && !w.ib && w.rm == 0#2 && !w.sat && w.fmt == 0#4 && w.x.extractLsb' 1 14 == 0#14 }, w)
  | .fragOut w => some (
      let n := xf w 1 0
      ({ bare 0x304#10 with
        dUsed := decide (3 ≤ n), dSpan := if 3 ≤ n then 1 else 0, dRead := if 3 ≤ n then .any else .unchecked,
        a := plain .any, b := if 1 ≤ n then plain .any else noSrc, c := if 2 ≤ n then plain .any else noSrc,
        xmask := 3#15, exempt := true }, w))
  | .fragOutWin w => some ({ bare 0x304#10 with
      a := ⟨true, 2, 2, false, false, .adr⟩, b := plain .int, xmask := 7#15,
      extra := xf w 2 0 == 4, exempt := true }, w)
  | .fragSeal w => some ({ status 0x305#10 with var := true }, w)
  | .fragDrop w => some (bare 0x306#10, w)
  | .fragName w => some ({ status 0x307#10 with dSpan := 4, dAlign := 4, dBack := false }, w)
  | .specOpen w => some ({ status 0x310#10 with a := src .int, pure := false, var := true }, w)
  | .specCommit w => some ({ status 0x311#10 with a := src .int, pure := false, var := true }, w)
  | .specSquash w => some ({ status 0x312#10 with a := src .int, pure := false, var := true }, w)
  | .specStat w => some ({ status 0x313#10 with a := src .int, pure := false, var := true }, w)
  | .kvStage w => some ({ qword 0x314#10 with
      dRead := .int, a := regSrc .int, b := regSrc .int, imm := .may,
      c := range (xf w 2 0 + 1) 1 .notBx4, xmask := 0x7FFF#15, pure := false }, w)
  | .kvCommit w => some ({ qword 0x315#10 with
      a := regSrc .int, b := regSrc .int, imm := .may, c := regSrc .int, pure := false, var := true }, w)
  | .qPush w => some ({ qword 0x320#10 with
      dUsed := false, dSpan := 0, a := range 8 1 .notBx4, b := if xb w 3 then regSrc .int else noSrc, xmask := 0xF#15 }, w)
  | .qPop w => some ({ qword 0x321#10 with
      dSpan := 8, b := if xb w 3 then regSrc .int else noSrc, fmts := notBx4, xmask := 0xFF#15, pure := false, var := true }, w)
  | .qStat w => some ({ qword 0x322#10 with
      b := if xb w 3 then regSrc .int else noSrc, xmask := 0x3F#15, extra := xf w 5 4 != 3, pure := false, var := true }, w)
  | .ladDoneOpen w => some ({ qword 0x332#10 with
      a := adrPair, b := regSrc .int, c := adrPair, xmask := 0x7FFF#15, extra := xb w 0, var := true }, w)
  | .ladDoneTest w => some ({ qword 0x332#10 with xmask := 0x3E#15, var := true }, w)
  | .ladEsc w => some ({ qword 0x330#10 with dUsed := false, dSpan := 0, a := range 8 1 .notBx4 }, w)
  | .ladRes w => some ({ qword 0x331#10 with dUsed := false, dSpan := 0, a := plain .notBx4 }, w)
  | .ladItem w => some ({ qword 0x333#10 with
      dSpan := if xb w 0 then 8 else 1, fmts := if xb w 0 then notBx4 else [2#4], xmask := 1#15, pure := false }, w)
  | .sigChk w => some ({ bare 0x380#10 with xmask := 0x7FFF#15 }, w)
  | .sigRd w => some ({ status 0x381#10 with pure := false }, w)
  | .rgCkpt w => some (bare 0x382#10, w)
  | .rgStat w => some ({ status 0x383#10 with xmask := 3#15, extra := decide (xf w 1 0 < 2), pure := false }, w)
  | .wearRd w => some ({ status 0x388#10 with
      dSpan := 2, dAlign := 2, dBack := false, xmask := 7#15, extra := decide (xf w 2 0 ≤ 4), pure := false, var := true }, w)
  | .csrr w => some ({ status 0x384#10 with
      dSpan := if xb w 0 then 2 else 1, dAlign := if xb w 0 then 2 else 1, dBack := !xb w 0,
      b := src .unchecked, imm := .must, xmask := 1#15, pure := false,
      var := decide (0x810 ≤ w.imm16.toNat) && decide (w.imm16.toNat ≤ 0x817) }, w)
  | .csrw w => some ({ bare 0x385#10 with
      a := if xb w 0 then adrPair else src .int, b := src .unchecked, imm := .must, xmask := 1#15 }, w)
  | .trap w => some ({ bare 0x386#10 with b := src .unchecked, imm := .must }, w)
  | .tret w => some ({ bare 0x387#10 with xmask := 1#15 }, w)
  | .tramp slot w => some ({ bare (0x3F0#10 + slot.setWidth 10) with
      overlay := true,
      extra := w.b.bits.extractLsb' 0 14 == 0#14 && w.c.bits == 0#16 && low26zero w && w.x == 0#15 }, w)
  | _ => none

/-- A source field that an instruction reads obeys its form (R37, R70, R79); an unused one is 0 (R69). -/
def srcLegal (f : SrcForm) (s : SrcField) (lr : Bool) : Bool :=
  if f.used then
    decide (s.pat.toNat ≤ 6)
      && (f.pat || s.pat == 0#3)
      && ((s.pat != 0#3 && s.pat != 4#3) || s.k == 0#5)
      && (if 248 ≤ s.code.toNat then f.queue && !lr
          else s.code.toNat % f.align == 0 && decide (s.code.toNat + f.span ≤ 248))
  else s.bits == 0#16 && !lr

/-- The encoding checks of R63: no unused field is nonzero, register codes, patterns and FMT are allowed. A reserved FMT is not
among them: it traps FORMAT, also in a word whose rule says ILLEGAL of any other FMT, and nothing where P is empty:
DESIGN CHOICE (log 95). -/
def formLegal (f : LaneForm) (w : Strip) : Bool :=
  (f.guard || w.pm == 7#3)
    && (f.overlay && f.imm == .no || (match f.imm with | .no => !w.ib | .may => true | .must => w.ib))
    && (if f.overlay then true
        else (if w.ib then !w.lr.getLsbD 1 else srcLegal f.b w.b (w.lr.getLsbD 1))
          && srcLegal f.c w.c (w.lr.getLsbD 0))
    && (if f.overlay && !f.a.used then f.imm == .no || (w.a.bits == 0#16 && w.lr == 0#3)
        else srcLegal f.a w.a (w.lr.getLsbD 2))
    && (if f.overlay && f.imm == .no && !f.dUsed then true
        else if f.dUsed then
          (if 248 ≤ w.d.toNat then f.dBack && decide (w.d.toNat ≤ 249)
           else w.d.toNat % f.dAlign == 0 && decide (w.d.toNat + f.dSpan ≤ 248))
        else w.d == 0#8)
    && (if f.overlay && f.imm == .no then true
        else (f.rm || w.rm == 0#2) && (f.sat || !w.sat) && (w.x &&& ~~~f.xmask) == 0#15
          && (if f.fmts.isEmpty then w.fmt == 0#4 else f.fmts.contains w.fmt || decide (11 ≤ w.fmt.toNat)))
    && f.extra

/-- Whether a lane word is legal; access words and events have no strip to check. -/
def laneLegal (i : Instr) : Bool :=
  match laneForm i with
  | some (f, w) => formLegal f w
  | none => true

end Sys2Proof.Machine
end

