-- ==== Sys2Proof/Machine/Digest.lean ====
section
/-! DEFINITION. The two digests the spec names: SHAKE256 of FIPS 202 (R100, R264, R344, R356) and the reflected
CRC-32C without inversion (R321). -/

namespace Sys2Proof.Machine

/-! ## SHAKE256 -/

/-- The 24 round constants of Keccak-f[1600]. -/
def keccakRC : List (BitVec 64) :=
  [0x0000000000000001#64, 0x0000000000008082#64, 0x800000000000808A#64, 0x8000000080008000#64,
   0x000000000000808B#64, 0x0000000080000001#64, 0x8000000080008081#64, 0x8000000000008009#64,
   0x000000000000008A#64, 0x0000000000000088#64, 0x0000000080008009#64, 0x000000008000000A#64,
   0x000000008000808B#64, 0x800000000000008B#64, 0x8000000000008089#64, 0x8000000000008003#64,
   0x8000000000008002#64, 0x8000000000000080#64, 0x000000000000800A#64, 0x800000008000000A#64,
   0x8000000080008081#64, 0x8000000000008080#64, 0x0000000080000001#64, 0x8000000080008008#64]

/-- Rotation offsets of lane x + 5y. -/
def keccakRot : List Nat :=
  [0, 1, 62, 28, 27, 36, 44, 6, 55, 20, 3, 10, 43, 25, 39, 41, 45, 15, 21, 8, 18, 2, 61, 56, 14]

/-- Lane of a state given as 25 lanes. -/
def kLane (a : List (BitVec 64)) (x y : Nat) : BitVec 64 := a.getD (x % 5 + 5 * (y % 5)) 0#64

def keccakTheta (a : List (BitVec 64)) : List (BitVec 64) :=
  let c := (List.range 5).map fun x => kLane a x 0 ^^^ kLane a x 1 ^^^ kLane a x 2 ^^^ kLane a x 3 ^^^ kLane a x 4
  (List.range 25).map fun i =>
    kLane a i (i / 5) ^^^ c.getD ((i + 4) % 5) 0#64 ^^^ (c.getD ((i + 1) % 5) 0#64).rotateLeft 1

/-- ρ and π: the lane at (x, y) comes from (x + 3y, x). -/
def keccakRhoPi (a : List (BitVec 64)) : List (BitVec 64) :=
  (List.range 25).map fun i =>
    let x := i % 5
    let y := i / 5
    let sx := (x + 3 * y) % 5
    (kLane a sx x).rotateLeft (keccakRot.getD (sx + 5 * x) 0)

def keccakChi (a : List (BitVec 64)) : List (BitVec 64) :=
  (List.range 25).map fun i =>
    let y := i / 5
    kLane a i y ^^^ (~~~ kLane a (i + 1) y &&& kLane a (i + 2) y)

def keccakRound (a : List (BitVec 64)) (rc : BitVec 64) : List (BitVec 64) :=
  match keccakChi (keccakRhoPi (keccakTheta a)) with
  | [] => []
  | h :: t => (h ^^^ rc) :: t

def keccakF (a : List (BitVec 64)) : List (BitVec 64) := keccakRC.foldl keccakRound a

/-- Bytes to 64-bit lanes, `n` of them. -/
def bytesToLanes : Nat → List Byte → List (BitVec 64)
  | 0, _ => []
  | n + 1, bs => BitVec.ofNat 64 (ofBytesLE (bs.take 8)) :: bytesToLanes n (bs.drop 8)

/-- XOR a block of 136 bytes into the state. -/
def absorbBlock (a : List (BitVec 64)) (bs : List Byte) : List (BitVec 64) :=
  keccakF (List.zipWith (· ^^^ ·) a (bytesToLanes 17 bs ++ List.replicate 8 0#64))

/-- Absorb whole blocks, `n` of them. -/
def absorbBlocks : Nat → List (BitVec 64) → List Byte → List (BitVec 64)
  | 0, a, _ => a
  | n + 1, a, bs => absorbBlocks n (absorbBlock a (bs.take 136)) (bs.drop 136)

/-- Padding of SHAKE256 to a multiple of 136 bytes. -/
def shakePad (bs : List Byte) : List Byte :=
  let room := 136 - bs.length % 136
  bs ++ (if room = 1 then [0x9F#8] else 0x1F#8 :: List.replicate (room - 2) 0#8 ++ [0x80#8])

/-- The first n bytes of SHAKE256, for n up to 136. -/
def shake256 (n : Nat) (bs : List Byte) : List Byte :=
  let p := shakePad bs
  let a := absorbBlocks (p.length / 136) (List.replicate 25 0#64) p
  (a.flatMap fun l => toBytesLE 8 l.toNat).take n

/-! ## CRC-32C -/

/-- One bit of the reflected CRC-32C. -/
def crcBit (c : Word) : Word := if c.getLsbD 0 then (c >>> 1) ^^^ 0x82F63B78#32 else c >>> 1

def crcBits : Nat → Word → Word
  | 0, c => c
  | n + 1, c => crcBits n (crcBit c)

/-- CRC_ABSORB of bytes (R321). -/
def crcAbsorb (c : Word) : List Byte → Word
  | [] => c
  | b :: t => crcAbsorb (crcBits 8 (c ^^^ b.setWidth 32)) t

end Sys2Proof.Machine
end

