-- ==== Sys2Proof/Machine/Float.lean ====
section
/-! DEFINITION. The floating formats (R39, R40), rounding (R48), narrowing (R49, R50) and the F32, BF16 and F16
arithmetic of the lane units (R46, R47, R153 to R156). An operation is computed exactly on dyadic numbers, with a
sticky bit where the exact value is not dyadic, and rounded once. -/

namespace Sys2Proof.Machine

/-- A floating format: exponent and significand bits, and whether it has infinities in the IEEE layout. -/
structure FloatFmt where
  e : Nat
  m : Nat
  ieee : Bool
deriving DecidableEq, Repr

namespace FloatFmt

def f32 : FloatFmt := ⟨8, 23, true⟩
def bf16 : FloatFmt := ⟨8, 7, true⟩
def f16 : FloatFmt := ⟨5, 10, true⟩
def e4m3 : FloatFmt := ⟨4, 3, false⟩
def e5m2 : FloatFmt := ⟨5, 2, true⟩
/-- E2M1 as a magnitude grid: 0 to 6 (R42). -/
def e2m1 : FloatFmt := ⟨2, 1, false⟩

def bias (f : FloatFmt) : Nat := 2 ^ (f.e - 1) - 1
/-- Exponent of the least significant bit of a subnormal. -/
def qmin (f : FloatFmt) : Int := 1 - (f.bias : Int) - f.m
/-- Position of the sign bit. -/
def signPos (f : FloatFmt) : Nat := f.e + f.m
/-- Magnitude code of infinity in an IEEE layout. -/
def infCode (f : FloatFmt) : Nat := (2 ^ f.e - 1) * 2 ^ f.m
/-- Magnitude code of the largest finite value (R40). -/
def maxCode (f : FloatFmt) : Nat :=
  if f.ieee then f.infCode - 1 else if f.e = 4 then 2 ^ (f.e + f.m) - 2 else 2 ^ (f.e + f.m) - 1
/-- The canonical NaN (R47) and the NaN codes of R50. -/
def nanCode (f : FloatFmt) : Nat :=
  if f.ieee then f.infCode + 2 ^ (f.m - 1) else 2 ^ (f.e + f.m) - 1

end FloatFmt

/-- A value: NaN, an infinity, or (−1)^neg × mag × 2^exp. -/
inductive FVal where
  | nan
  | inf (neg : Bool)
  | fin (neg : Bool) (mag : Nat) (exp : Int)
deriving DecidableEq, Repr

/-- The sign bit of a code. -/
def fneg? (f : FloatFmt) (x : Nat) : Bool := x.testBit f.signPos

/-- The value of a code (R40). -/
def fval (f : FloatFmt) (x : Nat) : FVal :=
  let neg := fneg? f x
  let c := x % 2 ^ f.signPos
  let ex := c / 2 ^ f.m
  let fr := c % 2 ^ f.m
  if f.ieee && ex == 2 ^ f.e - 1 then (if fr = 0 then .inf neg else .nan)
  else if !f.ieee && f.e == 4 && c == 2 ^ f.signPos - 1 then .nan
  else if ex = 0 then .fin neg fr f.qmin
  else .fin neg (fr + 2 ^ f.m) (f.qmin + (ex - 1))

def isNan (f : FloatFmt) (x : Nat) : Bool := fval f x = .nan

/-- A NaN with its quiet bit set (R47). -/
def quiet (f : FloatFmt) (x : Nat) : Nat := x ||| 2 ^ (f.m - 1)

/-- The first NaN of the sources, quieted (R47). -/
def firstNan (f : FloatFmt) : List Nat → Option Nat
  | [] => none
  | x :: t => if isNan f x then some (quiet f x) else firstNan f t

/-! ## Rounding -/

/-- mag / 2^shift rounded to an integer under RM (R48); `sticky` says that the exact value lies above mag. -/
def roundShift (rm : Nat) (neg : Bool) (mag shift : Nat) (sticky : Bool) : Nat :=
  let far := decide (mag.log2 + 2 < shift)
  let q := if far then 0 else mag >>> shift
  let rem := if far then mag else mag % 2 ^ shift
  let inexact := rem != 0 || sticky
  let up :=
    match rm with
    | 0 =>
      if far then false
      else
        let twice := 2 * rem
        decide (2 ^ shift < twice) || (decide (2 ^ shift = twice) && (sticky || q.testBit 0))
    | 1 => false
    | 2 => inexact && !neg
    | _ => inexact && neg
  if up then q + 1 else q

/-- The magnitude code of a finite value rounded as though the exponent had no upper bound (R48). -/
def roundCode (f : FloatFmt) (rm : Nat) (neg : Bool) (mag : Nat) (exp : Int) (sticky : Bool) : Nat :=
  let lsb : Int := max f.qmin (exp + mag.log2 - f.m)
  let sig :=
    if exp ≤ lsb then roundShift rm neg mag (lsb - exp).toNat sticky
    else mag <<< (exp - lsb).toNat
  if mag = 0 && !sticky then 0 else (lsb - f.qmin).toNat * 2 ^ f.m + sig

def withSign (f : FloatFmt) (neg : Bool) (c : Nat) : Nat := if neg then c + 2 ^ f.signPos else c

/-- IEEE overflow (R48), with SAT (R153). -/
def overflow (f : FloatFmt) (rm : Nat) (neg sat : Bool) : Nat :=
  let toInf := match rm with | 0 => true | 1 => false | 2 => !neg | _ => neg
  if toInf && !sat then f.infCode else f.maxCode

/-- The result of lane arithmetic with this exact value (R46 to R48, R153). -/
def arith (f : FloatFmt) (rm : Nat) (sat : Bool) (v : FVal) (sticky : Bool := false) : Nat :=
  match v with
  | .nan => f.nanCode
  | .inf neg => withSign f neg f.infCode
  | .fin neg mag exp =>
    let c := roundCode f rm neg mag exp sticky
    withSign f neg (if f.maxCode < c then overflow f rm neg sat else c)

/-- A narrowing result with this exact value: rounded, then saturated (R49); a NaN becomes the format's NaN. -/
def narrow (f : FloatFmt) (rm : Nat) (v : FVal) : Nat :=
  match v with
  | .nan => f.nanCode
  | .inf neg => withSign f neg f.maxCode
  | .fin neg mag exp => withSign f neg (min f.maxCode (roundCode f rm neg mag exp false))

/-- A NaN carried into another format (R50, R52): sign kept, high-order significand bits kept where they fit, quiet
bit set; E4M3 and E5M2 have one code. -/
def convNan (src dst : FloatFmt) (x : Nat) : Nat :=
  let neg := fneg? src x
  let fr := x % 2 ^ src.m
  let c :=
    if dst.e = 4 then 2 ^ dst.signPos - 1
    else if dst.m = 2 then dst.infCode + 2
    else dst.infCode + ((if src.m ≤ dst.m then fr <<< (dst.m - src.m) else fr >>> (src.m - dst.m)) ||| 2 ^ (dst.m - 1))
  withSign dst neg c

/-- A narrowing conversion between formats (R49, R50). -/
def convNarrow (src dst : FloatFmt) (rm : Nat) (x : Nat) : Nat :=
  if isNan src x then convNan src dst x else narrow dst rm (fval src x)

/-- A widening conversion (R52): exact; an infinity stays one. -/
def convWiden (src dst : FloatFmt) (x : Nat) : Nat :=
  if isNan src x then convNan src dst x else arith dst 0 false (fval src x)

/-! ## Exact operations on values -/

/-- Sum of two values; an exact zero sum of opposite signs is +0, −0 under RD (R46, IEEE 754). -/
def addVal (rm : Nat) : FVal → FVal → FVal
  | .nan, _ => .nan
  | _, .nan => .nan
  | .inf a, .inf b => if a = b then .inf a else .nan
  | .inf a, _ => .inf a
  | _, .inf b => .inf b
  | .fin n1 m1 e1, .fin n2 m2 e2 =>
    let e := min e1 e2
    let i1 : Int := (m1 : Int) * 2 ^ (e1 - e).toNat
    let i2 : Int := (m2 : Int) * 2 ^ (e2 - e).toNat
    let z := (if n1 then -i1 else i1) + (if n2 then -i2 else i2)
    if z = 0 then .fin (if n1 = n2 then n1 else rm == 3) 0 e else .fin (decide (z < 0)) z.natAbs e

/-- Product of two values; 0 × ∞ is NaN. -/
def mulVal : FVal → FVal → FVal
  | .nan, _ => .nan
  | _, .nan => .nan
  | .inf a, .inf b => .inf (a != b)
  | .inf a, .fin b m _ => if m = 0 then .nan else .inf (a != b)
  | .fin a m _, .inf b => if m = 0 then .nan else .inf (a != b)
  | .fin n1 m1 e1, .fin n2 m2 e2 => .fin (n1 != n2) (m1 * m2) (e1 + e2)

def negVal : FVal → FVal
  | .nan => .nan
  | .inf a => .inf (!a)
  | .fin a m e => .fin (!a) m e

/-! ## Lane arithmetic by format -/

def fAdd (f : FloatFmt) (rm : Nat) (sat : Bool) (x y : Nat) : Nat :=
  (firstNan f [x, y]).getD (arith f rm sat (addVal rm (fval f x) (fval f y)))

def fSub (f : FloatFmt) (rm : Nat) (sat : Bool) (x y : Nat) : Nat :=
  (firstNan f [x, y]).getD (arith f rm sat (addVal rm (fval f x) (negVal (fval f y))))

def fMul (f : FloatFmt) (rm : Nat) (sat : Bool) (x y : Nat) : Nat :=
  (firstNan f [x, y]).getD (arith f rm sat (mulVal (fval f x) (fval f y)))

/-- a × b + c, exact, rounded once (R61). -/
def fMulAdd (f : FloatFmt) (rm : Nat) (sat : Bool) (x y z : Nat) : Nat :=
  (firstNan f [x, y, z]).getD (arith f rm sat (addVal rm (mulVal (fval f x) (fval f y)) (fval f z)))

/-- Order of non-NaN codes by value, −0 below +0. -/
def fKey (f : FloatFmt) (x : Nat) : Int :=
  if fneg? f x then -((x % 2 ^ f.signPos : Nat) : Int) - 1 else ((x % 2 ^ f.signPos : Nat) : Int)

def fMinOf (f : FloatFmt) (x y : Nat) : Nat := (firstNan f [x, y]).getD (if fKey f y < fKey f x then y else x)
def fMaxOf (f : FloatFmt) (x y : Nat) : Nat := (firstNan f [x, y]).getD (if fKey f x < fKey f y then y else x)

/-- The exact comparison of two non-NaN values, −0 equal to +0. -/
def fCompare (f : FloatFmt) (x y : Nat) : Ordering :=
  let k (z : Nat) : Int := if z % 2 ^ f.signPos = 0 then 0 else fKey f z
  if k x < k y then .lt else if k x = k y then .eq else .gt

/-- FCMP's conditions (R155). -/
def fCond (cond : Nat) (x y : Nat) : Bool :=
  let f := FloatFmt.f32
  let un := isNan f x || isNan f y
  let o := fCompare f x y
  match cond with
  | 0 => !un && o == .eq
  | 1 => un || o != .eq
  | 2 => !un && o == .lt
  | 3 => !un && o != .gt
  | 4 => !un && o == .gt
  | 5 => !un && o != .lt
  | 6 => un
  | _ => !un

/-- FCLASS's bit (R155). -/
def fClassBit (x : Nat) : Nat :=
  let f := FloatFmt.f32
  match fval f x with
  | .nan => if x.testBit 22 then 9 else 8
  | .inf neg => if neg then 0 else 7
  | .fin neg mag _ =>
    if mag = 0 then (if neg then 3 else 4)
    else if mag < 2 ^ 23 then (if neg then 2 else 5)
    else (if neg then 1 else 6)

/-! ## Division and square roots -/

/-- Floor square root by bits: the bits k − 1 to 0 of the root of n, above those in r. -/
def isqrtBits : Nat → Nat → Nat → Nat
  | 0, _, r => r
  | k + 1, n, r => let t := r + 2 ^ k; isqrtBits k n (if t * t ≤ n then t else r)

def isqrt (n : Nat) : Nat := isqrtBits (n.log2 / 2 + 1) n 0

/-- Quotient of finite nonzero values to more than 64 bits, with its sticky bit. -/
def divVal (m1 : Nat) (e1 : Int) (m2 : Nat) (e2 : Int) : Nat × Int × Bool :=
  let k := m2.log2 + 66
  (m1 * 2 ^ k / m2, e1 - e2 - k, m1 * 2 ^ k % m2 != 0)

/-- a / b, correctly rounded (R153, R154). -/
def fDiv (rm : Nat) (x y : Nat) : Nat :=
  let f := FloatFmt.f32
  (firstNan f [x, y]).getD <|
    match fval f x, fval f y with
    | .inf _, .inf _ => f.nanCode
    | .inf a, .fin b _ _ => withSign f (a != b) f.infCode
    | .fin a _ _, .inf b => withSign f (a != b) 0
    | .fin a m1 e1, .fin b m2 e2 =>
      if m2 = 0 then (if m1 = 0 then f.nanCode else withSign f (a != b) f.infCode)
      else if m1 = 0 then withSign f (a != b) 0
      else
        let (q, e, st) := divVal m1 e1 m2 e2
        arith f rm false (.fin (a != b) q e) st
    | _, _ => f.nanCode

/-- 1 / a, correctly rounded (R153, R154). -/
def fRcp (rm : Nat) (x : Nat) : Nat := fDiv rm 0x3F800000 x

/-- √a, correctly rounded (R153, R154). -/
def fSqrt (rm : Nat) (x : Nat) : Nat :=
  let f := FloatFmt.f32
  (firstNan f [x]).getD <|
    match fval f x with
    | .inf false => f.infCode
    | .fin neg 0 _ => withSign f neg 0
    | .fin false m e =>
      let k : Nat := if e % 2 = 0 then 64 else 65
      let n := m * 2 ^ k
      let r := isqrt n
      arith f rm false (.fin false r ((e - k) / 2)) (r * r != n)
    | _ => f.nanCode

/-- 1 / √a, correctly rounded to nearest even (R153, R154). -/
def fRsq (x : Nat) : Nat :=
  let f := FloatFmt.f32
  (firstNan f [x]).getD <|
    match fval f x with
    | .inf false => 0
    | .fin neg 0 _ => withSign f neg f.infCode
    | .fin false m e =>
      let k : Nat := if e % 2 = 0 then 128 else 129
      let r := isqrt (2 ^ k / m)
      -- r = ⌊2^(k/2) / √m⌋ at weight 2^(−(k + e)/2)
      arith f 0 false (.fin false r (-((k + e) / 2))) (r * r * m != 2 ^ k)
    | _ => f.nanCode

/-- a rounded to an integral value (R153). -/
def fRint (rm : Nat) (x : Nat) : Nat :=
  let f := FloatFmt.f32
  (firstNan f [x]).getD <|
    match fval f x with
    | .fin neg m e =>
      if 0 ≤ e then x
      else withSign f neg (roundCode f 0 neg (roundShift rm neg m (-e).toNat false) 0 false)
    | _ => x

/-- a × 2^b, rounded once (R153). -/
def fScale (rm : Nat) (sat : Bool) (x : Nat) (b : Int) : Nat :=
  let f := FloatFmt.f32
  (firstNan f [x]).getD <|
    match fval f x with
    | .fin neg m e =>
      -- beyond ±600 the result no longer depends on the amount
      arith f rm sat (.fin neg m (e + max (-600) (min 600 b)))
    | v => arith f rm sat v

/-! ## Conversions of integers -/

/-- A floating value as an integer under RM, clamped to I32 or N32 (R51); NaN gives 0 (R50). -/
def fToInt (rm : Nat) (signed : Bool) (x : Nat) : Word :=
  match fval .f32 x with
  | .nan => 0#32
  | .inf neg => clamp32 signed (if neg then -(2 ^ 40) else 2 ^ 40)
  | .fin neg m e =>
    let n : Nat := if 0 ≤ e then m * 2 ^ (min e 200).toNat else roundShift rm neg m (-e).toNat false
    clamp32 signed (if neg then -(n : Int) else n)

/-- An integer as F32 under RM (R51). -/
def intToF (rm : Nat) (z : Int) : Nat := narrow .f32 rm (.fin (decide (z < 0)) z.natAbs 0)

/-! ## Packed words (R41) -/

/-- The 16-bit format of a PK16 tag and the 8-bit format of a PK8 tag. -/
def fmt16 (tag : FmtTag) : FloatFmt := if tag = 4#4 then .bf16 else .f16
def fmt8 (tag : FmtTag) : FloatFmt := if tag = 6#4 then .e4m3 else .e5m2

def half (v : Word) (k : Nat) : Nat := fieldNat v (16 * k + 15) (16 * k)
def byteOf (v : Word) (k : Nat) : Nat := fieldNat v (8 * k + 7) (8 * k)
def pack2 (lo hi : Nat) : Word := BitVec.ofNat 32 (lo % 2 ^ 16 + (hi % 2 ^ 16) * 2 ^ 16)
def pack4 (b0 b1 b2 b3 : Nat) : Word :=
  BitVec.ofNat 32 (b0 % 256 + (b1 % 256) * 2 ^ 8 + (b2 % 256) * 2 ^ 16 + (b3 % 256) * 2 ^ 24)

/-- An element-wise operation on packed 16-bit words. -/
def packed (op : Nat → Nat → Nat) (a b : Word) : Word := pack2 (op (half a 0) (half b 0)) (op (half a 1) (half b 1))

/-- DOT4E (R156): the exact sum of four products and c, rounded once. -/
def dot4 (rm : Nat) (sat : Bool) (ta tb : FmtTag) (a b c : Word) : Nat :=
  let f := FloatFmt.f32
  let cn := c.toNat
  if isNan f cn then quiet f cn
  else
    let prods := (List.range 4).map fun k => mulVal (fval (fmt8 ta) (byteOf a k)) (fval (fmt8 tb) (byteOf b k))
    let sum := prods.foldl (fun s p => addVal rm s p) (.fin (rm == 3) 0 0)
    -- a zero partial sum must not set the sign of an exact zero: the sign is that of equal addends, else of RM
    let all := prods ++ [fval f cn]
    let v := addVal rm sum (fval f cn)
    match v with
    | .fin _ 0 e =>
      let neg := all.all (fun p => match p with | .fin n _ _ => n | _ => false)
      let pos := all.all (fun p => match p with | .fin n _ _ => !n | _ => false)
      arith f rm sat (.fin (if neg then true else if pos then false else rm == 3) 0 e)
    | v => arith f rm sat v

end Sys2Proof.Machine
end

