-- ==== Sys2Proof/Config.lean ====
section
/-! DEFINITION. What the spec leaves open and the model leaves free: constants without a body, so that no proof
can see a value of one. -/

namespace Sys2Proof.Config

/-- A free bit. The first argument is the state's counter, the second names the place of the choice (a byte of
memory, a lane of a register). Used where the spec allows either of two outcomes (R75, R195, R240). -/
opaque choice : Nat → Nat → Bool

/-- A free 64-bit value, indexed by the state's counter: readings of quantities that the spec names without a rule
for their value (a monitor's calibration, R344). -/
opaque free : Nat → BitVec 64

/-- Whether a firmware image of this content verifies under the fused key (R356): SLH-DSA-SHAKE-256s of FIPS 205,
with a key the spec does not give. -/
opaque firmwareVerifies : List (BitVec 8) → Bool

/-- The signature bytes of an attestation report over this content (R356): SLH-DSA-SHAKE-256f under a key that
never leaves the package. -/
opaque attestSignature : List (BitVec 8) → List (BitVec 8)

/-- The firmware image that stands in the nonvolatile store as the package is delivered (R357). -/
opaque shippedFirmware : List (BitVec 8)

/-- The version that a firmware image carries, which the identity registers show (R349). -/
opaque firmwareVersion : List (BitVec 8) → Nat

/-- The measured fuses and boot ROM of the package, which an attestation report digests (R356). -/
opaque fuses : List (BitVec 8)
opaque rom : List (BitVec 8)

/-- Where the save area of a pre-empted cluster stands (R236), in units of 256 bytes. -/
opaque saveArea : Nat → Nat

end Sys2Proof.Config
end

