-- ==== Sys2Proof/Machine/State.lean ====
section
/-! DEFINITION. The state of one Krytim K4 package and its scale-up domain's memory, as plain data: everything the
spec gives the machine, and the model's own bookkeeping fields, each marked so. -/

namespace Sys2Proof.Machine

/-! ## Registers and queues -/

/-- A lane register's 32 words by shape (R31): U one value, A base and stride, G 32 words. -/
inductive LaneVal where
  | u (v : Word)
  | a (base stride : Word)
  | g (ws : List Word)
deriving DecidableEq, Repr

/-- One lane register (R31, R35, R45, R82, R329). -/
structure LaneReg where
  val : LaneVal
  tag : FmtTag
  /-- BX4 side metadata: SCALE and EXTRA of blocks 0 to 7 -/
  side : List (Byte × Byte)
  /-- poison bit of each lane word -/
  poison : LaneMask
  /-- released by a retired last-read mark (R83) -/
  released : Bool
deriving DecidableEq, Repr

/-- At launch every register is U, value 0, tag RAW (R31). -/
def LaneReg.launch : LaneReg := ⟨.u 0#32, 0#4, [], 0#32, false⟩

/-- An entry of a forward queue (R18): a vector of 32 words or one broadcast word. -/
structure QEntry where
  vec : Bool
  ws : List Word
  tag : FmtTag
  poison : LaneMask
deriving DecidableEq, Repr

/-- An entry of a back queue (R20). -/
structure BEntry where
  ws : List Word
  mask : LaneMask
  tag : FmtTag
  poison : LaneMask
deriving DecidableEq, Repr

/-! ## Splits, traps and the warp -/

/-- Access paths (R194). -/
inductive Path where
  | g
  | c
  | m
  | t
  | f
  | b
  | h
deriving DecidableEq, Repr

/-- What an issuer knows of the order of writes on other paths (R195): the model's own. -/
structure PathView where
  /-- the issuer as a writer: 2 × warp for a lane stream, 2 × warp + 1 for an access stream -/
  own : Nat
  /-- landings whose completion it has observed -/
  observed : List Nat
  /-- landings it has fenced into a later class other than G -/
  crossed : List (Nat × Path)
  /-- the write serial up to which it has observed the G writes of others (R222) -/
  gseen : Nat
  /-- later class, writer (none: every writer), serial up to which FENCE.X has ordered those G writes before it -/
  hor : List (Path × Option Nat × Nat)
  /-- request and epoch of the issuing warp when it is a member (R276) -/
  epoch : Option (Nat × Nat)
  /-- it reads through the constant cache (R210) -/
  const : Bool
deriving DecidableEq, Repr

/-- What passes from one issuer to another through the generic order (R22, R138, R222): the serial of the arrival or
mark, and per writer the serial up to which that writer had itself fenced G to T. The model's own. -/
structure Passed where
  serial : Nat
  tfenced : List (Nat × Nat)
deriving DecidableEq, Repr

/-- Nothing observed. -/
def PathView.start (own gseen : Nat) : PathView := ⟨own, [], [], gseen, [], none, false⟩

/-- A join record (J, M) and the record outside it (R24). The number names it within its warp. -/
structure JoinRec where
  id : Nat
  j : DWord
  m : LaneMask
  outer : Option Nat
deriving DecidableEq, Repr

/-- What a retiring word does to the signature (R322). -/
inductive SigKind where
  | absorb
  | seed
  | seedJoin
  | keep
deriving DecidableEq, Repr

/-- A trap raised outside the issue of its own word, taken at the split's next boundary (R30, R234, R256, R328). -/
structure Raised where
  code : BitVec 8
  /-- the whole split, or these lanes -/
  lanes : Option LaneMask
  detail : BitVec 16
  info : DWord
deriving DecidableEq, Repr

/-- A block of a sequence, as a fault of it is known: the sequence and the block, none where the descriptor gives none
(R223, R307). -/
abbrev Block := Nat × Option Nat

/-- A fault record to post (R239): kind, address, and the block for kind 3. -/
structure Post where
  kind : Nat
  addr : DWord
  block : Option Block
deriving DecidableEq, Repr

/-- A posted record of kind 3, which XLAT.RP waits for (R224): grid, block, key of the status word, and the answer once
the ring has used the record again. -/
structure BlockFault where
  grid : Nat
  block : Block
  key : Nat
  answer : Nat
deriving DecidableEq, Repr

/-- What the fault record of a PROGRESS trap lists (R30): the program counter and mask of every split of the warp. No rule
places it in memory, so it stands as data (log 83). -/
structure ProgressRec where
  grid : Nat
  /-- the warp's WHERE (R231) -/
  place : Word
  splits : List (DWord × LaneMask)
deriving DecidableEq, Repr

/-- A lane trap to be taken (R225, R226). -/
structure TrapInfo where
  code : BitVec 8
  /-- the lanes named -/
  lanes : LaneMask
  replay : LaneMask
  /-- TCAUSE[31:16] -/
  detail : BitVec 16
  /-- TCAUSE[15:8], the lowest named lane unless given -/
  lane : Option Nat
  /-- fault address or value of each lane -/
  addrs : List (Nat × DWord)
  /-- access kind for the trap save area, 0 for none (R227) -/
  kind : Nat
  /-- the fault records to post (R239) -/
  posts : List Post
deriving DecidableEq, Repr

/-- Fault records posted so far: the index of the first and the keys of the status words (R239). -/
structure Posted where
  first : Option Nat
  keys : List Nat
deriving DecidableEq, Repr

def Posted.none : Posted := ⟨Option.none, []⟩

/-- What a resident split is waiting for. -/
inductive SplitWait where
  /-- not waiting -/
  | none
  /-- BAR.WAIT on the object at this memory key with this token (R221) -/
  | barWait (obj : Nat) (token : Word)
  /-- an empty forward queue, a full back queue or a cluster queue (R19, R20, R283) -/
  | queue
  /-- parked on LMARK (R22) -/
  | lmark
  /-- executed TRET; its siblings have not (R228). With NXT = 1, what the skipped word does to the signature and its
  operation code (R323) -/
  | tret (skip : Option (SigKind × BitVec 10))
  /-- hardware service of the fault records whose status words stand at these keys (R241) -/
  | service (status : List Nat)
  /-- a trap held while the fault queue is full, with the records it has posted (R239) -/
  | posting (t : TrapInfo) (done : Posted)
  /-- FRAG.CLAIM until its result returns (R271) -/
  | claim
  /-- a commit point of a redundant group (R333) -/
  | commit
deriving DecidableEq, Repr

/-- One split (R23). -/
structure Split where
  /-- its number within its warp, in the order in which splits were made (R328); the model's own -/
  id : Nat
  pc : DWord
  mask : LaneMask
  /-- signature register (R321) -/
  sig : Word
  /-- innermost join record -/
  join : Option Nat
  /-- the trap-state set it holds: in a handler (R226) -/
  ts : Option Nat
  wait : SplitWait
  /-- lanes the next execution at pc is limited to: a replay (R204, R228) -/
  only : Option LaneMask
  /-- cycle at which it last entered its slot (R28) -/
  entered : Nat
  /-- step serial of its last issue (R77) -/
  issued : Nat
  /-- what it knows of other paths (R195); the model's own -/
  view : PathView
  /-- traps raised elsewhere, to be taken at its next boundary -/
  raised : List Raised := []
  /-- block faults that the unretired word at pc has posted while the queue was full (R239) -/
  noted : List Block := []
deriving DecidableEq, Repr

/-- An entry of the return stack (R173): a link address and the lanes that hold it. The age, the model's own, rises from
entry to entry: it says which of two entries is the younger, wherever they are kept. -/
structure Link where
  addr : DWord
  mask : LaneMask
  age : Nat
deriving DecidableEq, Repr

/-- An entry of the divergence stack (R26). -/
inductive StackEntry where
  | ready (sp : Split)
  | waiting (sp : Split)
  | join (r : JoinRec)
  | link (l : Link)
deriving DecidableEq, Repr

/-- A trap-state set (R226). -/
structure TrapSet where
  inUse : Bool
  tpc : DWord
  tmask : LaneMask
  tlanes : LaneMask
  tcause : Word
  replay : LaneMask
  /-- what the trapped split held: signature, innermost join (R323) and number -/
  sig : Word
  join : Option Nat
  id : Nat
deriving DecidableEq, Repr

def TrapSet.free : TrapSet := ⟨false, 0#64, 0#32, 0#32, 0#32, 0#32, 0#32, none, 0⟩

/-- How a register write sets the shape (R31): one value for the whole register under a full mask, an A shape under
a full mask, or lane values. -/
inductive WriteVal where
  | uniform (v : Word)
  | affine (base stride : Word)
  | lanes (ws : List Word)
deriving DecidableEq, Repr

/-- One register write of a result (R31, R32, R45). -/
structure RegWrite where
  n : Nat
  val : WriteVal
  mask : LaneMask
  tag : FmtTag
  /-- metadata carried by each lane, for a BX4 result -/
  side : List (Byte × Byte)
  poison : LaneMask
deriving DecidableEq, Repr

/-- One predicate write. -/
structure PredWrite where
  k : Nat
  bits : LaneMask
  mask : LaneMask
deriving DecidableEq, Repr

/-- A variable-latency result that has not been written (R74, R75). -/
structure Pending where
  regs : List RegWrite
  preds : List PredWrite
  /-- lanes of a register written again since issue -/
  again : List (Nat × LaneMask)
  /-- a HIT's branch target, taken when the result returns (R271) -/
  branch : Option DWord
  /-- the status waits for this epoch's fate (R279): request and epoch -/
  epoch : Option (Nat × Nat)
  /-- the word's own split waits for it (R271) -/
  holds : Option Bool
  /-- the submission whose acceptance supplies the value (R292) -/
  sub : Option Nat
deriving DecidableEq, Repr

/-- What the access stream is doing (R16, R17, R22, R123, R142). -/
inductive AccWait where
  | ready
  | lwait (n : Word)
  /-- YIELDS with a count: the cycle at which it runs out -/
  | yieldUntil (cycle : Nat)
  /-- YIELDS 0: the warps of the core still to be served -/
  | yieldRound (left : List Nat)
  | queue
  /-- a commit point of a redundant group: a full compare buffer (R333) -/
  | commit
  | halted
  | stopped
deriving DecidableEq, Repr

/-- A ladder item in a lane (R296). -/
structure Held where
  index : Nat
  frame : List Word
  /-- frame words that carry poison (R329) -/
  bad : List Nat
  live : Bool
deriving DecidableEq, Repr

/-- The open fragment of a warp (R263). -/
structure Frag where
  rid : BitVec 16
  dom : Nat
  /-- the domain's generation at FRAG.OPEN -/
  gen : Nat
  mask : LaneMask
  /-- the bytes absorbed so far (R264) -/
  sponge : List Byte
  regsIn : Nat
  /-- absorbed window: base, length, the write serial at its read, and the key of its part in every 256 KiB page -/
  window : Option (DWord × Nat × Nat × List Nat)
  claimed : Bool
  /-- a claim answered MISS or UNSEALED -/
  settled : Bool
  reservation : Option (BitVec 128)
  outs : List Nat
  outWin : Option (DWord × Nat)
  written : List Nat
  cleanR : List Nat
  cleanP : List Nat
  poisoned : Bool
deriving DecidableEq, Repr

/-- A redundant copy's side of the group (R331 to R336). -/
structure RgCopy where
  trailing : Bool
  /-- the partner warp -/
  partner : Nat
  /-- accesses of this stream so far, for pairing in the access stream -/
  accN : Nat
  /-- lane words retired since the last checkpoint of the pair, for the slack limit -/
  lead : Nat
  mismatches : Nat
  rollbacks : Nat
  /-- the word at the commit point may act: the leading copy performs, the trailing copy receives -/
  granted : Bool
  /-- results the leading copy delivers to the trailing one -/
  mail : List Pending
  /-- armed injection: words left, lane, bit (R336) -/
  inject : Option (Nat × Nat × Nat)
  /-- words retired since arming -/
  injCount : Nat
  /-- D of the last retired word when it names a lane register -/
  lastD : Option Nat
  /-- a trap met that would end the copy, code and word address (R335); code 0 is the normal end, 0xFF a noted
  mismatch -/
  ending : Option (BitVec 8 × DWord)
  /-- lanes whose death in this copy is the mismatch -/
  killed : LaneMask
  /-- the word at which the copy is granted its commit point: access stream or lane stream, address, mask -/
  grant : Option (Bool × DWord × LaneMask)
  /-- access words completed -/
  accWords : Nat
  /-- trailing copy: lane words that the leading one has retired or trapped on and this one has not (R334) -/
  trace : List (DWord × LaneMask)
  /-- leading copy: reservations, by domain and name, that FRAG.DROP frees at the next commit point (R274) -/
  drops : List (Nat × BitVec 128) := []
deriving DecidableEq, Repr

/-- One warp in its slot (R15, R23, R72, R73, R146, R231). -/
structure Warp where
  /-- the model's own number of the warp -/
  id : Nat
  grid : Nat
  /-- cluster index within the grid -/
  cluster : Nat
  team : Nat
  /-- index in its team -/
  index : Nat
  /-- team index in its cluster -/
  teamIx : Nat
  /-- package cluster index 0 to 159 -/
  hw : Nat
  core : Nat
  slot : Nat
  units : Nat
  ctx : Nat
  req : Nat
  image : Nat
  -- access stream
  s : Vector DWord 32
  apc : DWord
  acc : AccWait
  qtag : Word
  am : Word
  lm : Word
  atvec : DWord
  atpc : DWord
  acause : Word
  afaddr : DWord
  ahstat : Bool
  /-- what the access stream knows of other paths; the model's own, as is the next -/
  aview : PathView
  /-- what the last LMARK handed on -/
  lmView : Passed
  fq : Vector (List QEntry) 8
  bq : Vector (List BEntry) 2
  -- lane stream
  lstarted : Bool
  slotA : Option Split
  slotB : Option Split
  stack : List StackEntry
  /-- the entries of the return stack that are held, the youngest first -/
  rets : List Link
  /-- next number of a join record or a split; the model's own -/
  nextJoin : Nat
  alive : LaneMask
  dead : LaneMask
  regs : Tab LaneReg
  preds : Vector LaneMask 7
  ts0 : TrapSet
  ts1 : TrapSet
  pending : List Pending
  parked : Bool
  tvec : DWord
  spillbase : DWord
  ltsave : DWord
  wdog : BitVec 6
  faultq : DWord
  sigctl : Word
  sigtab : DWord
  sigcnt : Word
  rgbase : DWord
  rginj : DWord
  pd : Nat
  pdSince : Nat
  /-- cycle of the last retired lane word (R30) -/
  watch : Nat
  retired : Nat
  frag : Option Frag
  epoch : Option Nat
  /-- cancelled by a squash, to end at its next boundary (R279) -/
  cancelled : Bool
  items : List (Option Held)
  /-- the ladder its items belong to: home cluster, slot, rung -/
  ladder : Option (Nat × Nat × Nat)
  rg : Option RgCopy
  /-- the code of the trap in whose handler the warp met the trap that ends it, 0 otherwise (R226) -/
  first : BitVec 8
  /-- ended: status and code of its completion line -/
  ended : Option (BitVec 8 × BitVec 8)
  endPc : DWord
deriving DecidableEq, Repr

/-! ## Matrix path -/

/-- Non-finite state of an exact word (R55). -/
inductive NonFin where
  | fin
  | pinf
  | ninf
  | nan
deriving DecidableEq, Repr

/-- A word of the accumulator store (R53, R55). -/
structure ExWord where
  w : BitVec 128
  st : NonFin
deriving DecidableEq, Repr

/-- One accumulator row (R244). -/
structure AccRow where
  owner : Option Nat
  anchor : BitVec 16
  words : List ExWord
deriving DecidableEq, Repr

/-- One weight plane: the bytes of its 128 columns (R243). -/
structure Plane where
  fmt : FmtTag
  cols : List (List Byte)
  /-- columns loaded from poisoned bytes (R329) -/
  bad : List Nat
deriving DecidableEq, Repr

/-- A running MX.LOADW (R248). -/
structure LoadOp where
  fmt : FmtTag
  off : Nat
  stride : Int
  view : PathView
deriving DecidableEq, Repr

/-- State of an occupied stream slot (R245). -/
inductive SlotState where
  | reserved
  | waiting
  | running
deriving DecidableEq, Repr

/-- One MX.STREAM in a slot, or a follow-on's reservation (R251, R257). -/
structure StreamOp where
  state : SlotState
  fmt : FmtTag
  off : Int
  stride : Int
  row : Nat
  /-- row steps remaining -/
  left : Nat
  warp : Nat
  view : PathView
  /-- the copy that fires it, for a follow-on -/
  follow : Option Nat
deriving DecidableEq, Repr

/-- One drained item still to land: its address, the runs of keys it is written to (a second one in the trailing
copy of a redundant group), its bytes, and whether it is an add-on-store of the exact word they hold (R253). -/
structure DrainItem where
  addr : DWord
  dst : List Nat
  twin : List Nat
  bytes : List Byte
  add : Bool
deriving DecidableEq, Repr

/-- A drain to memory whose bytes have not all landed (R253). -/
structure DrainOp where
  id : Nat
  core : Nat
  warp : Nat
  /-- keys of the barrier object, and of its twin in a redundant group -/
  objs : List Nat
  items : List DrainItem
  /-- an item has landed (R351) -/
  begun : Bool
  view : PathView
  ctx : Nat
  /-- filter contexts whose status its split knew when it issued (R316) -/
  armed : List Nat
deriving DecidableEq, Repr

/-- Where one box element's bytes come from (R256). -/
inductive CopySrc where
  | keys (ks : List Nat)
  | bytes (bs : List Byte)
deriving DecidableEq, Repr

/-- One box element: source, destination keys (none: a skipped store, counted all the same), those in the trailing
copy of a redundant group, bytes counted. -/
structure CopyElem where
  src : CopySrc
  dst : List Nat
  twin : List Nat
  size : Nat
deriving DecidableEq, Repr

/-- A copy in progress on a copy engine (R256, R258). -/
structure CopyOp where
  id : Nat
  core : Nat
  engine : Nat
  warp : Nat
  /-- number and mask of the split that issued it -/
  split : Nat
  mask : LaneMask
  team : Nat
  objs : List Nat
  elems : List CopyElem
  /-- an element has landed (R351) -/
  begun : Bool
  follow : Option StreamOp
  view : PathView
deriving DecidableEq, Repr

/-- A held store of the compare buffer (R332, R334). -/
structure CmpEntry where
  warp : Nat
  /-- access stream, or lane stream -/
  access : Bool
  /-- lane: word address and split mask; access: the stream's access number -/
  pc : DWord
  mask : LaneMask
  num : Nat
  bytes : List (Nat × Byte)
  poison : List Nat
  agreed : Bool
deriving DecidableEq, Repr

/-- A forwarded load (R332). -/
structure FwdEntry where
  warp : Nat
  access : Bool
  pc : DWord
  mask : LaneMask
  num : Nat
  keys : List Nat
  bytes : List Byte
deriving DecidableEq, Repr

/-- One team on its core (R181, R183, R245, R334). -/
structure Team where
  id : Nat
  grid : Nat
  cluster : Nat
  teamIx : Nat
  hw : Nat
  core : Nat
  warps : Nat
  /-- offset of the team's range in the core's scratchpad, and TOTAL -/
  base : Nat
  total : Nat
  spmap : Vector DWord 8
  activeFmt : FmtTag
  shadowFmt : FmtTag
  loader : Option LoadOp
  slots : List StreamOp
  nf : Bool
  fd : Bool
  cf : Bool
  trailing : Bool
  partner : Option Nat
  held : List CmpEntry
  fwd : List FwdEntry
deriving DecidableEq, Repr

/-- Wear state of a core (R340). -/
inductive WearState where
  | healthy
  | derated
  | drained
  | marked
  | unknown
  | retired
deriving DecidableEq, Repr

/-- An entry of a partition's replay queue (R327): the word with its address, the registers of its operands after patterns,
the predicates, the lanes, the results. -/
structure ReplayEntry where
  warp : Nat
  /-- its completion-record line: grid, cluster, number in the cluster -/
  grid : Nat
  cluster : Nat
  line : Nat
  /-- number of the split that issued it -/
  split : Nat
  addr : DWord
  word : Instr
  a : List LaneReg
  b : List LaneReg
  c : List LaneReg
  preds : Vector LaneMask 7
  results : List RegWrite
  mask : LaneMask
  left : LaneMask
deriving DecidableEq, Repr

/-- What one core holds beyond its warps (R5, R243, R244, R327, R339, R344). -/
structure Core where
  wu : Nat
  drift : Nat
  emf : Nat
  wear : WearState
  calib : List (BitVec 64)
  /-- powered time since the last in-field test, in wear periods of 10 ms -/
  sinceTest : Nat
  /-- lane instructions issued in the running wear period, by context × 2^32 + grid -/
  issued : Tab Nat
  rows : Tab AccRow
  active : Plane
  shadow : Plane
  planeOwner : Option Nat
  replay : List (List ReplayEntry)
  /-- slot of the warp whose access stream the pump served last (R17) -/
  served : Nat
  /-- logical time (R192) -/
  pts : BitVec 48
  /-- lease copies held: line and lease end -/
  leases : List (Nat × BitVec 48)
deriving DecidableEq, Repr

/-- A core at its first start (R1); the values R339 leaves open are named in the log. -/
def Core.init : Core :=
  ⟨0, 0, 0, .healthy, [], 0, [], [], ⟨0#4, [], []⟩, ⟨0#4, [], []⟩, none, [[], [], [], []], 31, 0#48, []⟩

/-! ## Images, grids, tasks, requests -/

/-- A declared barrier object (R103). -/
structure BarDecl where
  off : Nat
  arrive : Nat
  reload : Nat
deriving DecidableEq, Repr

/-- A kernel's .budget record with its .scratch layout (R103, R104). -/
structure Kernel where
  entry : DWord
  units : Nat
  warps : Nat
  teams : Nat
  wdog : Nat
  scr : Nat
  bars : List BarDecl
deriving DecidableEq, Repr

/-- A .frag record (R100). -/
structure Region where
  rid : BitVec 16
  lstart : DWord
  lend : DWord
  cstart : DWord
  cend : DWord
  digest : List Byte
deriving DecidableEq, Repr

/-- A .queue record (R106). -/
structure QueueDecl where
  qnum : Nat
  well : Nat
  waddr : DWord
deriving DecidableEq, Repr

/-- A rung of a ladder descriptor (R107). -/
structure Rung where
  kentry : DWord
  team : Bool
  qnum : Nat
  starve : Nat
deriving DecidableEq, Repr

/-- A ladder descriptor (R107). -/
structure LadderDecl where
  lnum : Nat
  rsize : Nat
  maxItems : Nat
  rungs : List Rung
deriving DecidableEq, Repr

/-- A linked image as the loader has registered it for a context (R93 to R109, R262). -/
structure Image where
  ctx : Nat
  kernels : List Kernel
  regions : List Region
  sigcnt : Nat
  sigtab : DWord
  queues : List QueueDecl
  ladders : List LadderDecl
  tramps : List (Nat × DWord × DWord)
  constLo : DWord
  constHi : DWord
  /-- built for second-level private mode (R91, R188) -/
  priv : Bool
  /-- loader-allocated areas: spill, trap save, checkpoint (R89, R227, R334) -/
  spill : DWord
  ltsave : DWord
  rgbase : DWord
deriving DecidableEq, Repr

/-- A context (R237, R306, R350). -/
structure Context where
  root : Nat
  n : Nat
  seqbase : DWord
  nseq : Nat
  tvec : DWord
  redundant : Bool
  priv : Bool
  wear : Nat
deriving DecidableEq, Repr

/-- A launch record as read (R109). -/
structure LaunchRec where
  kaddr : DWord
  nclust : Nat
  argsz : Nat
  args : DWord
  even : Bool
  tvec : DWord
  faultq : DWord
  grec : DWord
deriving DecidableEq, Repr

/-- A warp line of a completion record (R242). -/
structure WarpLine where
  cluster : Nat
  warp : Nat
  status : BitVec 8
  code : BitVec 8
  retired : Nat
  pc : DWord
deriving DecidableEq, Repr

/-- A ladder line of a completion record (R242). -/
structure LadderLine where
  lnum : Nat
  home : Nat
  items : Nat
  resolved : Nat
  escalated : Nat
deriving DecidableEq, Repr

/-- An entry of a cluster queue (R281). -/
structure CqEntry where
  words : List Word
  label : Word
  /-- cycle at which it entered (R295) -/
  entered : Nat
  /-- words that carry poison (R329) -/
  bad : List Nat
deriving DecidableEq, Repr

/-- A group of items formed for a rung (R295): the queue entries, label the item's index, in queue order. -/
structure Group where
  rung : Nat
  items : List CqEntry
deriving DecidableEq, Repr

/-- The ladder group a rung grid runs (R295). -/
structure RungGrid where
  /-- the grid of the warp that opened the ladder -/
  opener : Nat
  home : Nat
  lnum : Nat
  group : Group
deriving DecidableEq, Repr

/-- A grid (R9, R109, R242, R293). -/
structure Grid where
  id : Nat
  ctx : Nat
  req : Nat
  /-- the task it runs for -/
  task : Nat
  image : Nat
  kernel : Nat
  lr : LaunchRec
  /-- TILES and ITERS of a LAUNCH.EVEN grid (R293) -/
  work : Option (Nat × Nat)
  /-- clusters started -/
  started : Nat
  /-- the first code that ended a warp abnormally -/
  code : BitVec 8
  status : BitVec 8
  lines : List WarpLine
  /-- warps still resident or saved -/
  live : Nat
  /-- fragments sealed per region -/
  sealed : List (BitVec 16 × Nat)
  /-- package clusters on which a warp ran -/
  ran : List Nat
  /-- ladders opened by its warps -/
  ladders : List LadderLine
  /-- the group it runs, for a rung grid -/
  rung : Option RungGrid
  /-- its warps by number; the model's own -/
  members : List Nat
  /-- warp lines of the rung groups that its ladders launched (R109) -/
  rungLines : List WarpLine
  /-- the write serial at its start: later stores to code are not fetched (R189) -/
  since : Nat
  /-- fault records posted (R239) -/
  faults : Nat
  wear : Nat
  ended : Bool
deriving DecidableEq, Repr

/-- An epoch of a request's chain (R280). -/
structure EpochRec where
  num : Nat
  state : BitVec 3
  /-- its commit is requested -/
  asked : Bool
deriving DecidableEq, Repr

/-- A request (R10, R275, R290). -/
structure Request where
  id : Nat
  ctx : Nat
  /-- address that names it -/
  addr : DWord
  dom : Option Nat
  windows : List (DWord × Nat)
  epochs : List EpochRec
  crec : DWord
  lastSeen : Bool
  /-- statuses and codes of ended tasks, by sequence number -/
  results : List (Nat × BitVec 8 × BitVec 8)
  running : Nat
  ended : Bool
  /-- wear units charged to its grids (R342) -/
  wear : Nat
deriving DecidableEq, Repr

/-- A task in flight (R289, R291). -/
structure Task where
  seq : Nat
  die : Nat
  ctx : Nat
  req : Nat
  lrec : DWord
  crec : DWord
  reads : List (DWord × Nat)
  writes : List (DWord × Nat)
  launched : Bool
deriving DecidableEq, Repr

/-- A submitted task record that no matcher has accepted (R288, R292). -/
structure Submission where
  /-- the model's own number -/
  id : Nat
  ctx : Nat
  /-- a host window, or the request of a launching warp -/
  window : Option (HostPort × Nat)
  req : Option Nat
  bytes : List Byte
  /-- the launching warp, whose pending result receives the sequence number -/
  warp : Option Nat
deriving DecidableEq, Repr

/-- A cluster saved by a gang pre-emption (R236, R259). -/
structure Saved where
  id : Nat
  warps : List Warp
  teams : List Team
  /-- scratchpad bytes of each team: place in the list of teams, offset in the core, byte -/
  scratch : List (Nat × Nat × Byte)
  /-- poisoned scratchpad words, by offset -/
  badWords : List (Nat × Nat)
  /-- owned rows: team index, row number, row -/
  rows : List (Nat × Nat × AccRow)
  planes : List (Nat × Plane × Plane)
  /-- the cluster it must be restored on, after a passed in-field test (R346) -/
  only : Option Nat
  /-- the model's own: what names the teams' barrier objects elsewhere, by place in the list of teams and offset in the
  core: landings counted against them, filter contexts, ladders, and what their arrivals handed on -/
  landObjs : List (Nat × Nat × Nat)
  filterObjs : List (Nat × Nat × Nat)
  ladderObjs : List (Nat × Nat × Nat)
  seen : List (Nat × Nat × Passed × Passed)
  /-- WEARCTX of the context at the save (R320) -/
  wearctx : DWord
deriving DecidableEq, Repr

/-! ## Salvage, queues, ladders, filter -/

/-- State of a catalogue entry (R272); FREE entries are not listed. -/
inductive CatState where
  | open_
  | orphan
  | complete
deriving DecidableEq, Repr

/-- A sealed register (R273). -/
structure StoredReg where
  n : Nat
  reg : LaneReg
deriving DecidableEq, Repr

/-- A catalogue entry with its cistern contents (R272, R273). -/
structure CatEntry where
  name : BitVec 128
  state : CatState
  owner : Option Nat
  regs : List StoredReg
  window : List Byte
deriving DecidableEq, Repr

/-- An open salvage domain (R261). -/
structure Domain where
  isOpen : Bool
  gen : Nat
  salt : List Byte
  cistern : Nat
  used : Nat
  size : Nat
  entries : List CatEntry
deriving DecidableEq, Repr

/-- A cluster queue (R281, R282). -/
structure CQueue where
  hwPart : List CqEntry
  well : List CqEntry
  head : Word
  tail : Word
deriving DecidableEq, Repr

/-- State of a ladder item (R296). -/
inductive ItemState where
  | waiting (rung : Nat)
  | held
  | resolved
  | dropped
deriving DecidableEq, Repr

/-- An OPEN ladder slot (R294). -/
structure Ladder where
  n : Nat
  res : DWord
  frames : DWord
  /-- keys of the barrier object, and of its twin in a redundant group -/
  objs : List Nat
  /-- opener: warp's grid, context and image -/
  grid : Nat
  ctx : Nat
  image : Nat
  entered : Nat
  items : List ItemState
  /-- groups formed and waiting for room, in the order they formed -/
  groups : List Group
  escalated : Nat
deriving DecidableEq, Repr

/-- One row of an armed filter context: consumed bytes by offset in the row (R316). -/
structure FilterRow where
  row : Nat
  bytes : List (Nat × Byte)
  done : Bool
deriving DecidableEq, Repr

/-- An armed logit-filter context (R314, R315). -/
structure FilterCtx where
  id : Nat
  ctx : Nat
  grid : Nat
  wbase : DWord
  rows : Nat
  rlen : Nat
  rstride : Nat
  efmt : FmtTag
  k : Nat
  keep : Bool
  cref : Word
  res : DWord
  /-- the executing package's page of every 256 KiB of the result area, in order: key of its first byte -/
  resPages : List Nat
  objs : List Nat
  state : List FilterRow
  /-- the model's own: the arming split as a writer and by number, the register of its status, whether it has read the
  status, and the serial of its first G store after that (R316) -/
  armer : Nat
  split : Nat
  reg : Nat
  read : Bool
  pub : Option Nat
  /-- the arming warp's epoch, whose stores the records are (R276) -/
  epoch : Option (Nat × Nat)
deriving DecidableEq, Repr

/-! ## Memory -/

/-- The model's own record of one byte's write: what a reader that is not ordered after it may still see
(R195, R196), and what fetch still sees (R189). -/
structure WriteRec where
  serial : Nat
  path : Path
  key : Nat
  old : Byte
  writer : Nat
  /-- landing number, 0 for a G write -/
  land : Nat
  /-- the write serial at which FENCE.X placed it in the generic order (R196) -/
  fenced : Option Nat
  /-- the update of an add-on-store, whose value counts what lies beneath it (R253) -/
  sum : Bool
  /-- the serial of the first byte of its store: a reader sees the bytes of one store in an aligned unit together (R191) -/
  group : Nat
  /-- written by a host to constant memory while a grid of the image was resident (R210) -/
  breach : Bool
deriving DecidableEq, Repr

/-- The model's own record of a landing: the barrier objects it was counted against (two in a redundant group), and
whether that phase has completed (R195). -/
structure Landing where
  id : Nat
  path : Path
  objs : List Nat
  closed : Bool
deriving DecidableEq, Repr

/-- A byte of an epoch store before commit (R277). -/
structure Version where
  req : Nat
  epoch : Nat
  byte : Byte
  record : WriteRec
deriving DecidableEq, Repr

/-- A 4 KiB granule of physical memory registered at a scratchpad (R184): physical granule, first scratchpad key. -/
structure MapGran where
  team : Nat
  idx : Nat
  phys : Nat
  scr : Nat
deriving DecidableEq, Repr

/-- A translation-cache entry (R238): core, context, page base, log2 size, entry word. -/
structure TlbEntry where
  core : Nat
  ctx : Nat
  base : Nat
  size : Nat
  entry : DWord
deriving DecidableEq, Repr

/-! ## Host side, fabric, start-up -/

/-- Start-up states (R357). -/
inductive StartState where
  | off
  | fuse
  | rom
  | fwchk
  | hbm
  | wear
  | fabric
  | scan
  | clear
  | ready
  | recovery
deriving DecidableEq, Repr

/-- A task queue window (R288): the record bytes as they stand, records submitted and not yet accepted, and STATUS
bit 0. -/
structure TaskWindow where
  record : List Byte
  queued : Nat
  dropped : Bool
deriving DecidableEq, Repr

/-- A command record with its operands (R350). -/
inductive HostCmd where
  | ctxCreate (o : CtxOperands)
  | ctxDestroy (ctx : Nat)
  | domOpen (dom : BitVec 16) (salt : DWord) (cistern catalogue : Nat)
  | domClear (dom : BitVec 16)
  | domClose (dom : BitVec 16)
  | preempt (hw : Nat)
  | inval (va : DWord)
  | peerseq (chip : Nat)
  | peerfail (chip : Nat)
  | dieReset (die : BitVec 2) (failing : List Nat)
  | fwUpdate (addr : DWord) (len : Nat)
  | attest (nonce : List Byte) (addr : DWord)
  | window (base : DWord)
  | unlisted (code : Word)
deriving DecidableEq, Repr

/-- The command mailbox of one function of a port (R349, R350). -/
structure Mailbox where
  /-- bytes 0 to 63, the command record -/
  record : List Byte
  /-- STATUS of the last command -/
  status : Word
  result : DWord
  /-- interrupts signalled on vector 0 -/
  signals : Nat
  /-- the package cluster that a running PREEMPT command waits for -/
  busy : Option Nat
  /-- commands whose doorbell came while one runs -/
  waiting : List (Cmd × HostCmd)
deriving DecidableEq, Repr

/-- One host port (R348 to R350). -/
structure Port where
  /-- task queue windows, by function × 8 + window -/
  windows : Tab TaskWindow
  /-- mailboxes, by function: 0 the physical one, 1 to 16 the virtual ones (R348) -/
  boxes : Tab Mailbox
  /-- base of BAR2, and the context it is a window on -/
  bar2 : DWord
  bar2Ctx : Nat
  /-- other BAR registers, by offset -/
  regs : Tab Byte
  /-- the data returned by the last host read -/
  data : List Byte
deriving DecidableEq, Repr

/-- A fabric port (R353). -/
structure FabricPort where
  up : Bool
  partner : Option Nat
  rate : Nat
  lowLatency : Bool
  powered : Bool
deriving DecidableEq, Repr

/-- One core's line of the lifetime record (R344). -/
structure LifeLine where
  core : Nat
  wu : Nat
  drift : Nat
  emf : Nat
  wear : WearState
  calib : List (BitVec 64)
  hours : Nat
deriving DecidableEq, Repr

/-- A copy of the lifetime record (R344). -/
structure LifeRecord where
  generation : Nat
  lines : List LifeLine
  digest : List Byte
  rebuilt : Bool
deriving DecidableEq, Repr

/-- A write held back at a home for a gap (R199). -/
structure HeldWrite where
  src : Nat
  num : Nat
  key : Nat
  bytes : List Byte
deriving DecidableEq, Repr

/-- Which agent moves (the model's own, log 4). -/
inductive Turn where
  | access
  | laneA
  | laneB
  | event
deriving DecidableEq, Repr

/-- The whole machine. -/
structure State where
  -- the model's own scheduling data
  agenda : List Instr
  plan : List (Nat × Turn × Nat)
  turn : Turn
  /-- the lane slot that issues: false A, true B -/
  slotB : Bool
  /-- steps so far: the index of the free choices -/
  draws : Nat
  -- the issuing warp and the other resident warps
  warp : Warp
  others : List Warp
  -- package
  start : StartState
  cold : Bool
  failedStarts : Nat
  incarnation : Nat
  chip : Nat
  /-- firmware images in the nonvolatile store, the newest first (R356) -/
  fwStore : List (List Byte)
  fwRunning : List Byte
  /-- the last end of power was an orderly shutdown (R344) -/
  orderly : Bool
  powerDerated : Bool
  l2Private : Bool
  nextGrid : Nat
  nextReq : Nat
  nextSeq : Nat
  /-- the model's own numbering of warps, teams, engine operations and landings -/
  nextId : Nat
  cycle : Nat
  -- memory
  mem : List Host.Cell
  poison : List Nat
  hist : List WriteRec
  serial : Nat
  landings : List Landing
  versions : List Version
  /-- scratchpad granules registered at homes, and the scratchpad lines modified while registered (R184) -/
  mapped : List MapGran
  spDirty : List Nat
  /-- per barrier object: what the arrivals of the running phase hand on, and those of completed phases (R222) -/
  barSeen : Tab (Passed × Passed)
  /-- completion records written: the key of MAGIC, the serial, and the warps whose writes the record follows; of those
  that the host has read, serial and warps (R197) -/
  crecs : List (Nat × Nat × List Nat)
  hostSeen : List (Nat × List Nat)
  /-- FENCE.X from G to T that a G store has published since: writer and serial (R138, R196) -/
  tfences : List (Nat × Nat)
  tlb : List TlbEntry
  lineTimes : Tab (BitVec 48 × BitVec 48)
  /-- in private mode, lines that a die's slices hold under leases: die, line, lease end (R187) -/
  dieLeases : List (Nat × Nat × BitVec 48)
  /-- the model's own: contexts that have left the package, whose queues are read back when they return (R281) -/
  away : List Nat
  -- contexts, images, work
  contexts : Tab Context
  images : Tab Image
  requests : List Request
  submitted : List Submission
  tasks : List Task
  grids : List Grid
  teams : List Team
  saved : List Saved
  preemptAsked : List Nat
  testAsked : List Nat
  faultPos : List (DWord × Nat)
  /-- block faults posted, the newest first (R224) -/
  blockFaults : List BlockFault
  /-- the records of PROGRESS traps (R30) -/
  progress : List ProgressRec
  -- cores and engines
  cores : Tab Core
  drains : List DrainOp
  copies : List CopyOp
  -- salvage, queues, ladders, filter
  domains : Tab Domain
  cqueues : Tab CQueue
  ladders : Tab Ladder
  filters : List FilterCtx
  /-- the last checkpoint of each copy of a redundant group (R334) -/
  checkpoints : List Warp
  -- domain and host
  sent : Tab Nat
  applied : Tab (Nat × Nat)
  heldWrites : List HeldWrite
  failedChips : List Nat
  /-- the incarnation under which a chip last joined the domain (R354) -/
  peers : Tab Nat
  /-- lines of this package leased to other chips -/
  remoteLeases : List (Nat × Nat × BitVec 48)
  fabric : Tab FabricPort
  portA : Port
  portB : Port
  sems0 : Vector Word 16
  sems1 : Vector Word 16
  lifeA : LifeRecord
  lifeB : LifeRecord
  /-- per stack, the cycle at which its last daily scrub was complete (R355) -/
  scrubs : Tab Nat
deriving DecidableEq, Repr

/-! ## Reset -/

/-- A warp record before anything is launched into the slot: every register as at launch (R31, R72, R73, R146). -/
def Warp.blank : Warp where
  id := 0
  grid := 0
  cluster := 0
  team := 0
  index := 0
  teamIx := 0
  hw := 0
  core := 0
  slot := 0
  units := 31
  ctx := 0
  req := 0
  image := 0
  s := Vector.replicate 32 0#64
  apc := 0#64
  acc := .stopped
  qtag := 0#32
  am := 0#32
  lm := 0#32
  atvec := 0#64
  atpc := 0#64
  acause := 0#32
  afaddr := 0#64
  ahstat := false
  aview := PathView.start 1 0
  lmView := ⟨0, []⟩
  fq := Vector.replicate 8 []
  bq := Vector.replicate 2 []
  lstarted := false
  slotA := none
  slotB := none
  stack := []
  rets := []
  nextJoin := 1
  alive := 0xFFFFFFFF#32
  dead := 0#32
  regs := []
  preds := Vector.replicate 7 0#32
  ts0 := TrapSet.free
  ts1 := TrapSet.free
  pending := []
  parked := false
  tvec := 0#64
  spillbase := 0#64
  ltsave := 0#64
  wdog := 24#6
  faultq := 0#64
  sigctl := 5#32
  sigtab := 0#64
  sigcnt := 0#32
  rgbase := 0#64
  rginj := 0#64
  pd := 0
  pdSince := 0
  watch := 0
  retired := 0
  frag := none
  epoch := none
  cancelled := false
  items := List.replicate 32 none
  ladder := none
  rg := none
  first := 0#8
  ended := some (0#8, 0#8)
  endPc := 0#64

/-- A mailbox that has run no command. -/
def Mailbox.init : Mailbox := ⟨[], 0#32, 0#64, 0, none, []⟩

/-- A host port after reset: no record, nothing signalled. -/
def Port.init : Port := ⟨[], [], 0#64, 0, [], []⟩

def LifeRecord.init : LifeRecord := ⟨0, [], [], false⟩

/-- The package with its supplies off, before a start (R357): no warp is resident and nothing is configured. -/
def State.reset : State where
  agenda := []
  plan := []
  turn := .access
  slotB := false
  draws := 0
  warp := Warp.blank
  others := []
  start := .off
  cold := true
  failedStarts := 0
  incarnation := 0
  chip := 0
  fwStore := [Config.shippedFirmware]
  fwRunning := []
  orderly := true
  powerDerated := false
  l2Private := false
  nextGrid := 0
  nextReq := 0
  nextSeq := 0
  nextId := 1
  cycle := 0
  mem := []
  poison := []
  hist := []
  serial := 0
  landings := []
  versions := []
  mapped := []
  spDirty := []
  barSeen := []
  crecs := []
  hostSeen := []
  tfences := []
  tlb := []
  lineTimes := []
  dieLeases := []
  away := []
  contexts := []
  images := []
  requests := []
  submitted := []
  tasks := []
  grids := []
  teams := []
  saved := []
  preemptAsked := []
  testAsked := []
  faultPos := []
  blockFaults := []
  progress := []
  cores := []
  drains := []
  copies := []
  domains := []
  cqueues := []
  ladders := []
  filters := []
  checkpoints := []
  sent := []
  applied := []
  heldWrites := []
  failedChips := []
  peers := []
  remoteLeases := []
  fabric := []
  portA := Port.init
  portB := Port.init
  sems0 := Vector.replicate 16 0#32
  sems1 := Vector.replicate 16 0#32
  lifeA := LifeRecord.init
  lifeB := LifeRecord.init
  scrubs := []

/-! ## How a step can stop -/

/-- Why the machine stops. Neither reason is a situation of the hardware: no move of `step` raises one. Both are
safe: they only cut off a use of `exec` that no machine makes. -/
inductive Fault where
  /-- raised by every lane word executed when the selected slot of the focused warp holds no split; safe -/
  | noSplit
  /-- raised by every access word executed when the focused warp's access stream has stopped, halted or its warp
  has ended; safe -/
  | noAccessStream
deriving DecidableEq, Repr

/-- Why a move has no meaning. -/
inductive Refusal where
  /-- raised by an arm of the dispatch for an instruction without a meaning yet; safe -/
  | notModelled (mnemonic : String)
deriving DecidableEq, Repr

/-- The outcome of one move. -/
abbrev Result := Host.Outcome State Fault Refusal

end Sys2Proof.Machine
end

