-- ==== Sys2Proof/Machine/Operands.lean ====
section
/-! DEFINITION. Scalar and lane registers, and the operand forms of a lane word: shapes (R31), queue entries (R18,
R80), patterns (R79), immediates (R81, R148), unreturned results (R75), and how a result is written (R31, R32, R45). -/

namespace Sys2Proof.Machine

/-! ## Warps of the state -/

def modWarp (s : State) (f : Warp → Warp) : State := { s with warp := f s.warp }

def warpById (s : State) (id : Nat) : Option Warp :=
  if s.warp.id = id then some s.warp else s.others.find? (fun w => w.id == id)

def modWarpId (s : State) (id : Nat) (f : Warp → Warp) : State :=
  if s.warp.id = id then { s with warp := f s.warp }
  else { s with others := s.others.map (fun w => if w.id = id then f w else w) }

/-- Every warp in a slot, the issuing one first. -/
def allWarps (s : State) : List Warp := s.warp :: s.others

/-! ## Scalar registers (R73) -/

/-- s0 reads 0. -/
def Warp.sget (w : Warp) (r : Reg) : DWord := if r = 0#5 then 0#64 else w.s[r.toNat]'r.isLt
/-- Writes to s0 are discarded. -/
def Warp.sset (w : Warp) (r : Reg) (v : DWord) : Warp := if r = 0#5 then w else { w with s := w.s.set r.toNat v r.isLt }

/-! ## Lane registers -/

/-- Lane i of a value (R31). -/
def LaneVal.word : LaneVal → Nat → Word
  | .u v, _ => v
  | .a b st, i => b + BitVec.ofNat 32 i * st
  | .g ws, i => ws.getD i 0#32

/-- Shape code: 0 U, 1 A, 2 G (R162). -/
def LaneVal.shape : LaneVal → Nat
  | .u _ => 0
  | .a _ _ => 1
  | .g _ => 2

def Warp.reg (w : Warp) (n : Nat) : LaneReg := Tab.getD w.regs n LaneReg.launch

/-- Whether vn lies in an allocation of u units (R71). -/
def inAlloc (u n : Nat) : Bool := decide (240 ≤ n ∧ n ≤ 247) || decide (2 ≤ u ∧ n ≤ 8 * u - 9)

/-- Lane i of predicate k; p7 reads true (R72). -/
def Warp.predLane (w : Warp) (k i : Nat) : Bool := if k = 7 then true else (w.preds.getD k 0#32).has i
def Warp.predMask (w : Warp) (k : Nat) : LaneMask := if k = 7 then 0xFFFFFFFF#32 else w.preds.getD k 0#32

/-! ## Operands -/

/-- One source operand after its pattern. -/
structure Operand where
  /-- 0 U, 1 A, 2 G -/
  shape : Nat
  base : Word
  stride : Word
  ws : List Word
  tag : FmtTag
  /-- BX4 metadata carried by each lane -/
  side : List (Byte × Byte)
  poison : LaneMask
deriving DecidableEq, Repr

def Operand.word (o : Operand) (i : Nat) : Word := o.ws.getD i 0#32

/-- An unused operand. -/
def Operand.none : Operand := ⟨0, 0#32, 0#32, [], 0#4, [], 0#32⟩

/-- The metadata that a lane reading 0 carries (R79). -/
def sideZero : Byte × Byte := (0x7F#8, 0x00#8)

/-- The value of a register lane while results are outstanding: the old one or the result's, both allowed (R75). -/
def hazardWord (draws n : Nat) (w : Warp) (i : Nat) (v : Word) : Word :=
  w.pending.foldl (fun v p =>
    p.regs.foldl (fun v x =>
      if x.n = n && x.mask.has i && Config.choice draws (n * 64 + i) then
        match x.val with
        | .uniform u => u
        | .affine b st => b + BitVec.ofNat 32 i * st
        | .lanes ws => ws.getD i 0#32
      else v) v) v

/-- Base of an A register, value of a U register, lane 0 of a G register (R162). -/
def LaneVal.base : LaneVal → Word
  | .u v => v
  | .a b _ => b
  | .g ws => ws.getD 0 0#32

/-- Stride of an A register, 0 otherwise (R162). -/
def LaneVal.stride : LaneVal → Word
  | .a _ st => st
  | _ => 0#32

/-- A register as an operand read straight. -/
def readReg (draws : Nat) (w : Warp) (n : Nat) : Operand where
  shape := (w.reg n).val.shape
  base := (w.reg n).val.base
  stride := (w.reg n).val.stride
  ws := laneIds.map fun i => hazardWord draws n w i ((w.reg n).val.word i)
  tag := (w.reg n).tag
  side := if (w.reg n).tag = 8#4 then laneIds.map fun i => (w.reg n).side.getD (i / 4) sideZero else []
  poison := (w.reg n).poison

/-- A popped forward-queue entry: G, or U for a broadcast (R18). An entry has no BX4 metadata of its own, so one tagged
BX4 carries SCALE 0x7F and EXTRA 0x00 in every lane: DESIGN CHOICE (log 84). -/
def readEntry (e : QEntry) : Operand :=
  let v := e.ws.getD 0 0#32
  if e.vec then ⟨2, v, 0#32, laneIds.map (fun i => e.ws.getD i 0#32), e.tag, [], e.poison⟩
  else ⟨0, v, 0#32, List.replicate 32 v, e.tag, [], if e.poison.getLsbD 0 then 0xFFFFFFFF#32 else 0#32⟩

/-- The lane that lane i reads under a pattern (R79); none where it reads 0. -/
def patLane (pat k i : Nat) : Option Nat :=
  match pat with
  | 0 => some i
  | 1 => some ((i + k) % 32)
  | 2 => some k
  | 3 => some (i ^^^ k)
  | 4 => some (31 - i)
  | 5 => if i < k then Option.none else some (i - k)
  | _ => if 31 < i + k then Option.none else some (i + k)

/-- The shape of a patterned read (R31, R80): a broadcast read is U whatever it reads. -/
def patShape (pat k : Nat) (dead : LaneMask) (shape : Nat) : Nat :=
  match pat, shape with
  | 0, sh => sh
  | 2, _ => 0
  | 1, 0 => if dead = 0#32 then 0 else 2
  | 3, 0 => if dead = 0#32 then 0 else 2
  | 4, 0 => if dead = 0#32 then 0 else 2
  | _, 0 => if k = 0 then 0 else 2
  | _, _ => 2

/-- Apply a pattern; a lane whose source lane is dead reads 0 (R79). -/
def applyPat (dead : LaneMask) (pat k : Nat) (o : Operand) : Operand :=
  if pat = 0 then o
  else
    let src (i : Nat) : Option Nat := (patLane pat k i).filter (fun j => !dead.has j)
    let ws := laneIds.map fun i => ((src i).map o.word).getD 0#32
    { shape := patShape pat k dead o.shape
      base := ws.getD (LaneMask.lowest (~~~ dead)) 0#32
      stride := 0#32
      ws := ws
      tag := o.tag
      side := if o.side.isEmpty then [] else laneIds.map fun i => ((src i).map fun j => o.side.getD j sideZero).getD sideZero
      poison := LaneMask.ofPred fun i => ((src i).map o.poison.has).getD false }

/-- The register `k` above the one a source names, or the head of the queue it names, after the pattern. -/
def operand (draws : Nat) (w : Warp) (f : SrcField) (k : Nat) : Operand :=
  let c := f.code.toNat
  let raw :=
    if 248 ≤ c then
      match w.fq.getD (c - 248) [] with
      | e :: _ => readEntry e
      | [] => Operand.none
    else readReg draws w (c + k)
  applyPat (w.dead &&& ~~~ w.alive) f.pat.toNat f.k.toNat raw

/-- A U operand. -/
def uOperand (v : Word) (tag : FmtTag) : Operand := ⟨0, v, 0#32, List.replicate 32 v, tag, [], 0#32⟩

/-! ## Results -/

/-- The words a write gives to lane i. -/
def WriteVal.word : WriteVal → Nat → Word
  | .uniform v, _ => v
  | .affine b st, i => b + BitVec.ofNat 32 i * st
  | .lanes ws, i => ws.getD i 0#32

/-- Metadata of the eight blocks after a BX4 write (R45). -/
def blockSides (old : List (Byte × Byte)) (m : LaneMask) (side : List (Byte × Byte)) : List (Byte × Byte) :=
  (List.range 8).map fun b =>
    match [4 * b, 4 * b + 1, 4 * b + 2, 4 * b + 3].find? (fun i => m.has i) with
    | some i => side.getD i sideZero
    | none => old.getD b sideZero

/-- A register after a write in the lanes of its mask, `alive` being the full mask (R31, R32). -/
def writeReg (alive : LaneMask) (r : LaneReg) (x : RegWrite) : LaneReg :=
  let merged := LaneVal.g (laneIds.map fun i => if x.mask.has i then x.val.word i else r.val.word i)
  { val := match x.val with
      | .uniform v => if x.mask = alive then .u v else merged
      | .affine b st => if x.mask = alive then (if st = 0#32 then .u b else .a b st) else merged
      | .lanes _ => merged
    tag := x.tag
    side := if x.tag = 8#4 then blockSides r.side x.mask x.side else r.side
    poison := (r.poison &&& ~~~ x.mask) ||| (x.poison &&& x.mask)
    released := false }

/-- Write a lane register of a warp. -/
def Warp.writeLane (w : Warp) (x : RegWrite) : Warp :=
  { w with regs := Tab.put w.regs x.n (writeReg w.alive (w.reg x.n) x) }

/-- Note a later write to a register with an outstanding result (R75). -/
def noteOver (n : Nat) (m : LaneMask) (p : Pending) : Pending :=
  if p.regs.any (fun x => x.n == n) then { p with again := (n, m) :: p.again } else p

/-- A retired fixed-latency register write. -/
def Warp.writeNow (w : Warp) (x : RegWrite) : Warp :=
  { w.writeLane x with pending := w.pending.map (noteOver x.n x.mask) }

/-- A write of a word per lane. -/
def mkWrite (n : Nat) (val : WriteVal) (mask : LaneMask) (tag : FmtTag) : RegWrite := ⟨n, val, mask, tag, [], 0#32⟩

end Sys2Proof.Machine
end

