-- ==== Sys2Proof/Machine/Flags.lean ====
section
/-! DEFINITION. Conditions and what a retired word leaves beside its registers: predicates (R72), the conditions of
ICMP (R151), and the signature (R321, R322). There is no flag register: predicates are the machine's flags. -/

namespace Sys2Proof.Machine

/-- ICMP's conditions (R151). -/
def iCond (cond : Nat) (signed : Bool) (a b : Word) : Bool :=
  let lt := if signed then a.slt b else a.ult b
  match cond with
  | 0 => a == b
  | 1 => a != b
  | 2 => lt
  | 3 => lt || a == b
  | 4 => !(lt || a == b)
  | _ => !lt

/-- A predicate after a write in the lanes of the mask; p7 is discarded (R72). -/
def Warp.writePred (w : Warp) (x : PredWrite) : Warp :=
  if h : x.k < 7 then { w with preds := w.preds.set x.k ((w.preds[x.k] &&& ~~~ x.mask) ||| (x.bits &&& x.mask)) }
  else w

/-- A signature seeded with a mask (R322). -/
def sigSeed (m : LaneMask) : Word := crcAbsorb 0#32 (toBytesLE 4 m.toNat)
/-- The seed made by RECONV: the M record, then the E record. -/
def sigSeedJoin (m : LaneMask) : Word := crcAbsorb (sigSeed m) [0xC5#8]
/-- A signature with the I record of an operation code absorbed. -/
def sigAbsorb (sig : Word) (op : BitVec 10) : Word := crcAbsorb sig (toBytesLE 2 op.toNat)

/-- The signature after a word retires, outside a handler. -/
def sigAfter (k : SigKind) (op : BitVec 10) (sig : Word) (m : LaneMask) : Word :=
  match k with
  | .absorb => sigAbsorb sig op
  | .seed => sigSeed m
  | .seedJoin => sigSeedJoin m
  | .keep => sig

end Sys2Proof.Machine
end

