-- ==== Sys2Proof/Machine/Mem.lean ====
section
/-! DEFINITION. Memory: its canonical form, the one place where a byte is read or written on a path (R190, R194 to
R196, R277), poison marks (R329), the address map and its windows (R179 to R182), scratchpad mappings (R184), the
page walk and its cache (R237, R238, R240), and the times of lines (R192). Byte order is decided once, in Bits. -/

namespace Sys2Proof.Machine

/-! ## The list of bytes -/

/-- What an unlisted address reads as (log 2). -/
def Memory.blank : Byte := 0#8

/-- The byte at a key. -/
def memGet : List Host.Cell → Nat → Byte
  | [], _ => Memory.blank
  | (k, b) :: t, n => if k = n then b else memGet t n

/-- Insert a byte that is not blank. -/
def memInsert : List Host.Cell → Nat → Byte → List Host.Cell
  | [], n, v => [(n, v)]
  | (k, b) :: t, n, v =>
    if n < k then (n, v) :: (k, b) :: t
    else if n = k then (n, v) :: t
    else (k, b) :: memInsert t n v

/-- Drop a key. -/
def memErase : List Host.Cell → Nat → List Host.Cell
  | [], _ => []
  | (k, b) :: t, n => if n = k then memErase t n else (k, b) :: memErase t n

/-- Write one byte, keeping the canonical form. -/
def memPut (m : List Host.Cell) (n : Nat) (v : Byte) : List Host.Cell :=
  if v = Memory.blank then memErase m n else memInsert m n v

/-- Put bytes at keys. -/
def memPutList (m : List Host.Cell) (k : Nat) : List Byte → List Host.Cell
  | [] => m
  | b :: t => memPutList (memPut m k b) (k + 1) t

/-- The canonical form: keys strictly rising, no entry blank. -/
def Memory.wf : List Host.Cell → Bool
  | [] => true
  | [(_, b)] => b != Memory.blank
  | (k, b) :: (k', b') :: t => b != Memory.blank && decide (k < k') && Memory.wf ((k', b') :: t)

/-! ## Keys -/

/-- First key of the scratchpads; the keys below are physical bytes of the domain, chip × 2^39 + address (R180). -/
def spBase : Nat := 2 ^ 52
def hbmKey (chip paddr : Nat) : Nat := chip * 2 ^ 39 + paddr
/-- Byte `off` of the scratchpad of package core `core` (R181). -/
def spKey (core off : Nat) : Nat := spBase + core * 2 ^ 19 + off
/-- Core number in the package: four cores to a cluster (R231). -/
def Warp.coreIx (w : Warp) : Nat := w.hw * 4 + w.core
def Team.coreIx (t : Team) : Nat := t.hw * 4 + t.core

/-- The bytes that stand for a key: a registered line is its scratchpad copy (R184). -/
def home (s : State) (k : Nat) : Nat :=
  if k < spBase then
    match s.mapped.find? (fun g => g.phys == k / 4096) with
    | some g => g.scr + k % 4096
    | none => k
  else k

/-! ## Order between paths -/

/-- Whether an issuer with this knowledge, acting on this path, is ordered after the write (R190, R195, R196). -/
def PathView.sees (v : PathView) (path : Path) (r : WriteRec) : Bool :=
  if v.const && r.breach then false
  else if r.path = path then true
  else if path = .g then r.fenced.isSome
  else
    ((r.path == .g || r.fenced.isSome)
        && v.hor.any fun (p, w, n) => p == path && (w == none || w == some r.writer) && decide (r.fenced.getD r.serial ≤ n))
      || (r.path != .g && v.crossed.contains (r.land, path))

/-- Name of the free choice whether one reader sees one write. -/
def choiceIx (serial key lane : Nat) : Nat := (serial * 2 ^ 64 + key) * 64 + lane

/-- The aligned unit of a byte in which one store is seen whole: 8 bytes (R191), for a table entry 16 (R138). -/
def seenUnit (path : Path) (key : Nat) : Nat := if path = .t then key / 16 else key / 8

/-- The choice whether a reader on a path sees a write that it is not ordered after. -/
def maySee (draws : Nat) (path : Path) (lane : Nat) (r : WriteRec) : Bool :=
  Config.choice draws (choiceIx r.group (seenUnit path r.key) lane)

/-- The serial at which a write took its place in the generic order (R196). -/
def WriteRec.place (r : WriteRec) : Nat := r.fenced.getD r.serial

/-- The value of a key along the write records, newest first: an unordered write is seen or not, both allowed
(R195). The number is the place of the write seen, 0 for the oldest contents. -/
def histRead (v : PathView) (path : Path) (draws lane key : Nat) : List WriteRec → Byte → Byte × Nat
  | [], cur => (cur, 0)
  | r :: t, cur =>
    if r.key = key then
      if v.sees path r || maySee draws path lane r then (cur, r.place)
      else histRead v path draws lane key t r.old
    else histRead v path draws lane key t cur

/-- The newest epoch store to a key that a member of epoch e of the request may see (R277). -/
def versionRead (v : PathView) (path : Path) (draws lane key req e : Nat) : List Version → Option (Byte × Nat)
  | [] => none
  | x :: t =>
    if x.record.key = key && x.req = req && decide (x.epoch ≤ e)
        && (v.sees path x.record || maySee draws path lane x.record) then
      some (x.byte, x.record.place)
    else versionRead v path draws lane key req e t

/-- One byte as a reader sees it. -/
def readByte (s : State) (v : PathView) (path : Path) (lane k : Nat) : Byte :=
  let k := home s k
  let (b, ser) := histRead v path s.draws lane k s.hist (memGet s.mem k)
  match v.epoch with
  | none => b
  | some (q, e) =>
    match versionRead v path s.draws lane k q e s.versions with
    | some (b', ser') => if ser < ser' then b' else b
    | none => b

def readBytes (s : State) (v : PathView) (path : Path) (lane : Nat) (ks : List Nat) : List Byte :=
  ks.map (readByte s v path lane)

/-- n consecutive keys. -/
def keysFrom (k n : Nat) : List Nat := (List.range n).map (k + ·)

/-- The number in n bytes from a key. -/
def readNat (s : State) (v : PathView) (path : Path) (lane k n : Nat) : Nat :=
  ofBytesLE (readBytes s v path lane (keysFrom k n))

/-- Place a write beneath the newest write of its key (R195: unordered writes end in either order). -/
def histBeneath (r : WriteRec) (b : Byte) : List WriteRec → List WriteRec
  | [] => []
  | x :: t =>
    if x.key = r.key then { x with old := b } :: { r with old := x.old } :: t
    else x :: histBeneath r b t

/-- The last write of a key. -/
def lastWrite (s : State) (k : Nat) : Option WriteRec := s.hist.find? (fun r => r.key == k)

/-- Mark a scratchpad line modified while its granule is registered (R184). -/
def markDirty (s : State) (k : Nat) : State :=
  if spBase ≤ k && s.mapped.any (fun g => decide (g.scr ≤ k) && decide (k < g.scr + 4096)) && !s.spDirty.contains (k / 128) then
    { s with spDirty := k / 128 :: s.spDirty }
  else s

/-- Write one byte as committed data. -/
def writeCommitted (s : State) (v : PathView) (path : Path) (land group k : Nat) (b : Byte) : State :=
  let k := home s k
  let r : WriteRec := ⟨s.serial + 1, path, k, memGet s.mem k, v.own, land, none, false, group, false⟩
  let s := markDirty { s with serial := s.serial + 1 } k
  match lastWrite s k with
  | some x =>
    if v.sees path x || maySee s.draws path 63 x then
      { s with hist := r :: s.hist, mem := memPut s.mem k b }
    else { s with hist := histBeneath r b s.hist }
  | none => { s with hist := r :: s.hist, mem := memPut s.mem k b }

/-- One byte as it stands at its home, whatever path wrote it last: with the epoch's own stores (R253, log 13). -/
def standingByte (s : State) (v : PathView) (k : Nat) : Byte :=
  let k := home s k
  match v.epoch.bind (fun e => s.versions.find? fun x => x.record.key == k && x.req == e.1 && decide (x.epoch ≤ e.2)) with
  | some x => if ((lastWrite s k).map (·.place)).getD 0 < x.record.place then x.byte else memGet s.mem k
  | none => memGet s.mem k

/-- Write one byte of an add-on-store on top of what stands (R253, log 13). -/
def sumByte (s : State) (v : PathView) (land group k : Nat) (b : Byte) : State :=
  let k := home s k
  let s := { s with serial := s.serial + 1 }
  match v.epoch with
  | none =>
    { markDirty s k with hist := ⟨s.serial, .m, k, memGet s.mem k, v.own, land, none, true, group, false⟩ :: s.hist, mem := memPut s.mem k b }
  | some (q, e) => { s with versions := ⟨q, e, b, ⟨s.serial, .m, k, 0#8, v.own, land, none, true, group, false⟩⟩ :: s.versions }

/-- Write one byte: an epoch store stays a version until commit (R277). -/
def writeByte (s : State) (v : PathView) (path : Path) (land group k : Nat) (b : Byte) : State :=
  match v.epoch with
  | none => writeCommitted s v path land group k b
  | some (q, e) =>
    let k := home s k
    let r : WriteRec := ⟨s.serial + 1, path, k, 0#8, v.own, land, none, false, group, false⟩
    { s with serial := s.serial + 1, versions := ⟨q, e, b, r⟩ :: s.versions }

/-! ## Poison marks (R329) -/

def wordPoisoned (s : State) (k : Nat) : Bool := s.poison.contains (home s k / 4)
def anyPoisoned (s : State) (ks : List Nat) : Bool := ks.any (wordPoisoned s)

def poisonWord (s : State) (n : Nat) : State :=
  if s.poison.contains n then s else { s with poison := n :: s.poison }

/-- Update the marks of the words that a write of these keys touches. -/
def poisonAfterWrite (s : State) (ks : List Nat) (bad : Bool) : State :=
  let hs := ks.map (home s)
  if bad then hs.foldl (fun s k => poisonWord s (k / 4)) s
  else { s with poison := s.poison.filter fun n =>
    !(hs.contains (4 * n) && hs.contains (4 * n + 1) && hs.contains (4 * n + 2) && hs.contains (4 * n + 3)) }

/-! ## Writes to other chips (R199) -/

/-- Count one write sent to another chip. -/
def countChip (s : State) (chip : Nat) : State := { s with sent := Tab.put s.sent chip (Tab.getD s.sent chip 0 + 1) }

/-- Whether a byte is homed on another chip: not by a scratchpad here (R184, R198). -/
def homedAway (s : State) (k : Nat) : Bool := decide (home s k < spBase) && k / 2 ^ 39 != s.chip

/-- Number one write, once for each other chip that is home of bytes of it: what one write is, is DESIGN CHOICE
(log 99). An epoch store is numbered when it commits. -/
def countRemote (s : State) (v : PathView) (ks : List Nat) : State :=
  if v.epoch.isSome then s
  else (((ks.filter (homedAway s)).map (· / 2 ^ 39)).eraseDups).foldl countChip s

/-- Write bytes at keys, as one store. -/
def writeBytes (s : State) (v : PathView) (path : Path) (land : Nat) (ks : List Nat) (bs : List Byte) (bad : Bool) :
    State :=
  countRemote (poisonAfterWrite ((ks.zip bs).foldl (fun t p => writeByte t v path land (s.serial + 1) p.1 p.2) s) ks bad)
    v ks

/-- Write the bytes of an add-on-store. -/
def sumBytes (s : State) (v : PathView) (land : Nat) (ks : List Nat) (bs : List Byte) (bad : Bool) : State :=
  countRemote (poisonAfterWrite ((ks.zip bs).foldl (fun t p => sumByte t v land (s.serial + 1) p.1 p.2) s) ks bad) v ks

/-! ## Addresses -/

/-- Where a virtual address lies (R179). -/
inductive Region57 where
  | paged
  | local_ (off : Nat)
  | cluster (c off : Nat)
  | reserved
deriving DecidableEq, Repr

def regionOf (va : DWord) : Region57 :=
  let n := va.toNat
  if n < 2 ^ 56 then .paged
  else
    let off := n - 2 ^ 56
    if off < 2 ^ 19 then .local_ off
    else if 2 ^ 32 ≤ off && off < 2 ^ 32 + 2 ^ 21 then .cluster ((off - 2 ^ 32) / 2 ^ 19) ((off - 2 ^ 32) % 2 ^ 19)
    else .reserved

/-- The team of a number. -/
def teamById (s : State) (id : Nat) : Option Team := s.teams.find? (fun t => t.id == id)

/-- The team of the warp's cluster that cluster window c reaches: the one on core c, in the warp's copy role (R182,
R333). -/
def teamOnCore (s : State) (w : Warp) (c : Nat) : Option Team :=
  match s.teams.find? (fun t => t.grid == w.grid && t.cluster == w.cluster && t.core == c) with
  | none => none
  | some t =>
    match teamById s w.team with
    | none => some t
    | some mine => if t.trailing = mine.trailing then some t else t.partner.bind (teamById s)

/-- Whether [off, off + n) lies in the team's range (R181). -/
def Team.owns (t : Team) (off n : Nat) : Bool := decide (t.base ≤ off) && decide (off + n ≤ t.base + t.total)

/-- Why an access is not performed, in the order of R87. -/
inductive AccErr where
  | epochwin
  | align
  | bounds
  | prot
  | page
  | fabric
  | epochfull
deriving DecidableEq, Repr

/-- What an access does (R239). -/
inductive AccKind where
  | read
  | write
  | fetch
  | table
deriving DecidableEq, Repr

def AccKind.code : AccKind → Nat
  | .read => 1
  | .write => 2
  | .fetch => 3
  | .table => 4

/-! ## The page walk (R237) -/

/-- An entry: reserved bits, alignment of a leaf of 2^size bytes. -/
def entryOk (e : DWord) (size : Nat) (lastLevel : Bool) : Bool :=
  e.getLsbD 0 && fieldNat e 50 39 == 0 && fieldNat e 9 5 == 0
    && (if e.getLsbD 1 then fieldNat e 38 0 / 2 ^ 10 * 2 ^ 10 % 2 ^ size == 0 else !lastLevel)

def entryAddr (e : DWord) : Nat := fieldNat e 38 10 * 2 ^ 10
def entryChip (e : DWord) : Nat := fieldNat e 63 51
def entryKey (e : DWord) : Nat := hbmKey (entryChip e) (entryAddr e)

/-- A successful translation: leaf entry and log2 of its page. -/
structure Leaf where
  entry : DWord
  size : Nat
deriving DecidableEq, Repr

/-- Whether no access reaches a byte: its home is another chip, which is declared failed or to which no fabric port is up
(R200, R353). Any port that is up is taken as a route: DESIGN CHOICE (log 100). -/
def unreachable (s : State) (k : Nat) : Bool :=
  homedAway s k && (s.failedChips.contains (k / 2 ^ 39) || !s.fabric.any (·.2.up))

/-- The walk from a table: levels left with their index position and leaf size. PAGE where an entry does not map, FABRIC
where a table cannot be reached. -/
def walk (s : State) (v : PathView) (va : Nat) : List (Nat × Nat × Bool) → Nat → Except AccErr Leaf
  | [], _ => .error .page
  | (index, size, last) :: rest, table =>
    if unreachable s (table + 8 * index) then .error .fabric
    else
      let e := BitVec.ofNat 64 (readNat s v .t 0 (table + 8 * index) 8)
      if entryOk e size last then
        if e.getLsbD 1 then .ok ⟨e, size⟩ else walk s v va rest (entryKey e)
      else .error .page

/-- The page of a paged address in a context, by walk alone. -/
def walkCtx (s : State) (v : PathView) (ctx : Nat) (va : DWord) : Except AccErr Leaf :=
  match Tab.find? s.contexts ctx with
  | none => .error .page
  | some c =>
    let n := va.toNat
    if 2 ^ c.n ≤ n / 2 ^ 32 then .error .page
    else walk s { v with epoch := none } n
      [(n / 2 ^ 32, 32, false), (n / 2 ^ 25 % 128, 25, false), (n / 2 ^ 18 % 128, 18, true)] (hbmKey s.chip c.root)

def tlbFind (s : State) (core ctx : Nat) (va : DWord) : Option TlbEntry :=
  s.tlb.find? fun t => t.core == core && t.ctx == ctx && va.toNat / 2 ^ t.size == t.base / 2 ^ t.size

/-- Translation with the core's cache (R238): while a cached entry differs from the tables, either is used (R240).
A successful walk is cached. -/
def translate (s : State) (v : PathView) (core ctx : Nat) (va : DWord) : Except AccErr Leaf × State :=
  let fresh := walkCtx s v ctx va
  match tlbFind s core ctx va with
  | some t =>
    let cached : Leaf := ⟨t.entry, t.size⟩
    let same := match fresh with | .ok l => l == cached | .error _ => false
    (if same then fresh else if Config.choice s.draws (choiceIx 0 (spBase + va.toNat) 62) then .ok cached else fresh, s)
  | none =>
    match fresh with
    | .error e => (.error e, s)
    | .ok l =>
      let e : TlbEntry := ⟨core, ctx, va.toNat / 2 ^ l.size * 2 ^ l.size, l.size, l.entry⟩
      let mine := s.tlb.filter (fun t => t.core == core)
      let kept := if mine.length < 1024 then s.tlb else s.tlb.filter (fun t => t.core != core) ++ mine.dropLast
      (fresh, { s with tlb := e :: kept })

/-- Whether the entry permits the access. -/
def permits (e : DWord) : AccKind → Bool
  | .read => e.getLsbD 2
  | .write => e.getLsbD 3
  | .fetch => e.getLsbD 4
  | .table => true

/-- The key of a paged address under a leaf. -/
def leafKey (l : Leaf) (va : DWord) : Nat := entryKey l.entry + va.toNat % 2 ^ l.size

/-- Translate one paged access (R237, R200, R353): its key, or PROT, PAGE or FABRIC. -/
def placePaged (s : State) (v : PathView) (core ctx : Nat) (kind : AccKind) (va : DWord) : Except AccErr Nat × State :=
  let (l, s) := translate s v core ctx va
  match l with
  | .error e => (.error e, s)
  | .ok l =>
    if !permits l.entry kind then (.error .prot, s)
    else if unreachable s (leafKey l va) then (.error .fabric, s)
    else (.ok (leafKey l va), s)

/-- The scratchpad window check of one access by a warp (R181, R182): the key, or BOUNDS. `none` for paged space;
a reserved address is PAGE. -/
def placeWindow (s : State) (w : Warp) (va : DWord) (n : Nat) : Option (Except AccErr Nat) :=
  match regionOf va with
  | .paged => none
  | .reserved => some (.error .page)
  | .local_ off =>
    match teamById s w.team with
    | some t => some (if t.owns off n then .ok (spKey w.coreIx off) else .error .bounds)
    | none => some (.error .bounds)
  | .cluster c off =>
    match teamOnCore s w c with
    | some t => some (if t.owns off n then .ok (spKey t.coreIx off) else .error .bounds)
    | none => some (.error .bounds)

/-- The key of one access of a warp, by window or translation. -/
def placeAccess (s : State) (v : PathView) (w : Warp) (kind : AccKind) (va : DWord) (n : Nat) :
    Except AccErr Nat × State :=
  match placeWindow s w va n with
  | some r => (r, s)
  | none => placePaged s v w.coreIx w.ctx kind va

/-! ## Accesses that may cross pages -/

/-- n bytes from an address, cut at page boundaries of 256 KiB. The first argument bounds the number of pieces. -/
def pageCuts : Nat → DWord → Nat → List (DWord × Nat)
  | 0, _, _ => []
  | k + 1, va, n =>
    if n = 0 then []
    else
      let now := min n (2 ^ 18 - va.toNat % 2 ^ 18)
      (va, now) :: pageCuts k (va + BitVec.ofNat 64 now) (n - now)

def cutsOf (va : DWord) (n : Nat) : List (DWord × Nat) := pageCuts (n / 2 ^ 18 + 2) va n

/-- Place the pieces of an access in turn. -/
def placeCuts (place : DWord → Nat → State → Except AccErr Nat × State) :
    List (DWord × Nat) → State → List (DWord × Nat × Except AccErr Nat) × State
  | [], s => ([], s)
  | (va, n) :: t, s =>
    let (r, s) := place va n s
    let (l, s) := placeCuts place t s
    ((va, n, r) :: l, s)

/-- The first condition in the order of R87 among pieces, with its address. -/
def cutsFail (l : List (DWord × Nat × Except AccErr Nat)) : Option (AccErr × DWord) :=
  [AccErr.epochwin, .align, .bounds, .prot, .page, .fabric, .epochfull].findSome? fun e =>
    l.findSome? fun p => match p.2.2 with | .error x => if x = e then some (e, p.1) else none | .ok _ => none

/-- The keys of the pieces. -/
def cutKeys (l : List (DWord × Nat × Except AccErr Nat)) : List Nat :=
  l.flatMap fun p => match p.2.2 with | .ok k => keysFrom k p.2.1 | .error _ => []

/-- The keys of n bytes of a warp's memory, every page they touch translated; the condition that stops it and its
address. -/
def placeSpan (s : State) (v : PathView) (w : Warp) (kind : AccKind) (va : DWord) (n : Nat) :
    Except (AccErr × DWord) (List Nat) × State :=
  let (l, s) := placeCuts (fun va n s => placeAccess s v w kind va n) (cutsOf va n) s
  match cutsFail l with
  | some e => (.error e, s)
  | none => (.ok (cutKeys l), s)

/-! ## Knowledge of paths -/

/-- Record that the G writes of a writer up to a serial are ordered before accesses on a path. -/
def addHor (l : List (Path × Option Nat × Nat)) (h : Path × Option Nat × Nat) : List (Path × Option Nat × Nat) :=
  h :: l.filter fun x => !(x.1 == h.1 && x.2.1 == h.2.1 && decide (x.2.2 ≤ h.2.2))

/-- FENCE.X from G to a path: the issuer's own G writes up to `own`, and every G write up to `all` (R195). -/
def PathView.setHor (v : PathView) (p : Path) (own all : Nat) : PathView :=
  { v with hor := addHor (addHor v.hor (p, some v.own, own)) (p, none, all) }

/-- What two splits both know: a merged split is taken to know no more (log 7). -/
def PathView.meet (a b : PathView) : PathView where
  own := a.own
  observed := a.observed.filter b.observed.contains
  crossed := a.crossed.filter b.crossed.contains
  gseen := min a.gseen b.gseen
  hor := a.hor.filterMap fun (p, w, n) =>
    let m := b.hor.foldl (fun m (p', w', n') => if p' == p && (w' == w || w' == none) then max m n' else m) 0
    if m = 0 then none else some (p, w, min n m)
  epoch := a.epoch
  const := a.const

/-- What an issuer hands on at a mark or an arrival at this serial. -/
def PathView.pass (v : PathView) (serial : Nat) : Passed :=
  ⟨serial, v.hor.filterMap fun (p, w, n) => if p == .t then w.map (·, n) else none⟩

/-- Both of two things handed on. -/
def Passed.join (a b : Passed) : Passed := ⟨max a.serial b.serial, a.tfenced ++ b.tfenced.filter fun x => !a.tfenced.contains x⟩

/-- Take over what was handed on: G order up to its serial, and the writers' own fences to T (R22, R138, R222). -/
def PathView.learn (a : PathView) (b : Passed) : PathView :=
  { a with
    gseen := max a.gseen b.serial
    hor := b.tfenced.foldl (fun l x => addHor l (.t, some x.1, x.2)) a.hor }

/-- Keep the latest serial of each writer. -/
def addFence (l : List (Nat × Nat)) (x : Nat × Nat) : List (Nat × Nat) :=
  x :: l.filter fun y => !(y.1 == x.1 && decide (y.2 ≤ x.2))

/-- A G store publishes what its issuer knows: what is fenced to T (R138, R196), and the SAMP.ARM statuses it has read
(R316). -/
def publish (s : State) (v : PathView) : State :=
  { s with
    tfences := (v.pass 0).tfenced.foldl addFence s.tfences
    filters := s.filters.map fun f => if f.read && f.armer == v.own && f.pub.isNone then { f with pub := some s.serial } else f }

/-- An issuer that makes a G access stands after every G access so far, and after the fences to T that they publish
(R138, R190). -/
def PathView.atG (v : PathView) (s : State) : PathView := v.learn ⟨s.serial, s.tfences⟩

/-! ## Times of lines (R192) -/

def modCore (s : State) (core : Nat) (f : Core → Core) : State :=
  { s with cores := Tab.put s.cores core (f (Tab.getD s.cores core Core.init)) }

/-- Later of two 48-bit serial times. -/
def laterTime (a b : BitVec 48) : BitVec 48 :=
  let d := (a - b).toNat
  if 1 ≤ d && d < 2 ^ 47 then a else b

/-- The times of a load by a core. -/
def stampLoad (s : State) (core k : Nat) : State :=
  let line := home s k / 128
  let c := Tab.getD s.cores core Core.init
  let (wts, rts) := Tab.getD s.lineTimes line (0#48, 0#48)
  let live (t : BitVec 48) : Bool := t == c.pts || laterTime t c.pts == t
  let held := c.leases.any fun l => l.1 == line && live l.2
  -- in private mode the slices of the core's die hold lines under leases of their own (R187)
  let die := (s.dieLeases.find? fun l => l.1 == core / 160 && l.2.1 == line && live l.2.2).map (·.2.2)
  let end_ := die.getD (laterTime rts (laterTime (wts + 64#48) (c.pts + 64#48)))
  let rts' := if held || die.isSome then rts else end_
  let leases := if held then c.leases else (line, end_) :: c.leases.filter (fun l => l.1 != line)
  let s := { s with
    lineTimes := Tab.put s.lineTimes line (wts, rts')
    dieLeases := if s.l2Private && !held && die.isNone then
        (core / 160, line, end_) :: s.dieLeases.filter fun l => !(l.1 == core / 160 && l.2.1 == line)
      else s.dieLeases }
  modCore s core fun c => { c with pts := laterTime c.pts wts, leases := leases }

/-- The times of a store or atomic by a core. -/
def stampStore (s : State) (core k : Nat) : State :=
  let line := home s k / 128
  let c := Tab.getD s.cores core Core.init
  let (_, rts) := Tab.getD s.lineTimes line (0#48, 0#48)
  let w := laterTime c.pts (rts + 1#48)
  let s := { s with lineTimes := Tab.put s.lineTimes line (w, w) }
  modCore s core fun c => { c with pts := w, leases := (line, w) :: c.leases.filter (fun l => l.1 != line) }

/-- The times of a store or atomic performed at a line's home for a writer with this time (R192, R198). -/
def stampHome (s : State) (pts : BitVec 48) (k : Nat) : State :=
  let line := home s k / 128
  let (_, rts) := Tab.getD s.lineTimes line (0#48, 0#48)
  let w := laterTime pts (rts + 1#48)
  { s with lineTimes := Tab.put s.lineTimes line (w, w) }

/-! ## Generic accesses of a warp's core -/

/-- A G load of n bytes at a key. -/
def gLoad (s : State) (v : PathView) (core lane k n : Nat) : List Byte × State :=
  (readBytes s v .g lane (keysFrom k n), stampLoad s core k)

/-- The first byte of every line of keys. -/
def lineKeys (ks : List Nat) : List Nat := ((ks.map (· / 128)).eraseDups).map (128 * ·)

/-- G loads of the bytes at these keys, each line once. -/
def gReads (s : State) (v : PathView) (core lane : Nat) (ks : List Nat) : List Byte × State :=
  (readBytes s v .g lane ks, (lineKeys ks).foldl (fun s k => stampLoad s core k) s)

/-- G stores of bytes at these keys, with the times of every line they touch. -/
def gWrites (s : State) (v : PathView) (core : Nat) (ks : List Nat) (bs : List Byte) (bad : Bool) : State :=
  (lineKeys ks).foldl (fun s k => stampStore s core k) (publish (writeBytes s v .g 0 ks bs bad) v)

/-- A G store of bytes at a key. -/
def gStore (s : State) (v : PathView) (core k : Nat) (bs : List Byte) (bad : Bool) : State :=
  stampStore (publish (writeBytes s v .g 0 (keysFrom k bs.length) bs bad) v) core k

end Sys2Proof.Machine
end

