-- ==== Sys2Proof/Machine/Ops.lean ====
section
/-! DEFINITION. The named operations over a warp: splits, joins and the divergence stack (R23 to R28, R173), the end
of lanes, warps, teams and clusters (R16, R330, R362, R185, R244), fault records (R239), taking a trap (R226, R123)
and returning from one (R228). -/

namespace Sys2Proof.Machine

/-! ## The issuing warp -/

/-- Make another warp the issuing one. -/
def focusWarp (s : State) (id : Nat) : State :=
  if s.warp.id = id then s
  else match s.others.find? (fun w => w.id == id) with
    | none => s
    | some w => { s with warp := w, others := s.others.map fun x => if x.id = id then s.warp else x }

/-- Act on a warp as the issuing one. -/
def onWarp (s : State) (id : Nat) (f : State → State) : State :=
  let back := s.warp.id
  let s' := focusWarp s id
  if s'.warp.id = id then focusWarp (f s') back else s

/-! ## Splits -/

/-- The split in the issuing slot. -/
def Warp.slot? (w : Warp) (b : Bool) : Option Split := if b then w.slotB else w.slotA
def Warp.setSlot (w : Warp) (b : Bool) (sp : Option Split) : Warp :=
  if b then { w with slotB := sp } else { w with slotA := sp }
def State.split? (s : State) : Option Split := s.warp.slot? s.slotB
def State.setSplit (s : State) (sp : Option Split) : State := { s with warp := s.warp.setSlot s.slotB sp }
def State.modSplit (s : State) (f : Split → Split) : State := s.setSplit (s.split?.map f)

/-- The issuing split, or the access stream, has made a G access (R190). -/
def seeSplit (s : State) : State := s.modSplit fun sp => { sp with view := sp.view.atG s }
def seeAccess (s : State) : State := modWarp s fun w => { w with aview := w.aview.atG s }

/-- MAGIC of a completion record (R242). -/
def magicWord : Nat := 0x5243344B

/-- The completion records whose MAGIC a read of these keys returned (R195, R197). -/
def recordsRead (s : State) (ks : List Nat) (bs : List Byte) : List (Nat × List Nat) :=
  (s.crecs.filter fun c => (List.range 4).all fun j =>
    (ks.zip bs).any fun p => p.1 == c.1 + j && p.2 == (toBytesLE 4 magicWord).getD j 0#8).map (·.2)

/-- The landings that records follow: those of the writes of their warps up to their serials. -/
def landingsOf (s : State) (l : List (Nat × List Nat)) : List Nat :=
  ((s.hist.filter fun r => r.land != 0 && l.any fun c => decide (r.serial ≤ c.1) && c.2.contains (r.writer / 2)).map
    (·.land)).eraseDups

/-- What an issuer knows after a G load: its place in the generic order, and the completion records it read (R195). -/
def PathView.afterLoad (v : PathView) (s : State) (ks : List Nat) (bs : List Byte) : PathView :=
  let ids := landingsOf s (recordsRead s ks bs)
  { v.atG s with observed := v.observed ++ ids.filter fun n => !v.observed.contains n }

/-- What the issuing split knows, as a member of the warp's epoch (R276). -/
def viewOf (w : Warp) (sp : Split) : PathView :=
  { sp.view with epoch := w.epoch.map (fun e => (w.req, e)), const := false }
def aviewOf (w : Warp) : PathView := { w.aview with epoch := w.epoch.map (fun e => (w.req, e)), const := false }

/-- Whether a split holds a trap that waits for room in the fault queue (R239). -/
def Split.posting (sp : Split) : Bool := match sp.wait with | .posting _ _ => true | _ => false

/-- Splits of a warp with no regard to place: resident, ready, waiting. -/
def Warp.splits (w : Warp) : List Split :=
  w.slotA.toList ++ w.slotB.toList ++
    w.stack.filterMap fun e => match e with | .ready sp => some sp | .waiting sp => some sp | _ => none

/-- Entries of the divergence stack in use (R26). -/
def Warp.stackUse (w : Warp) : Nat := w.stack.length
/-- Whether an event that adds n entries needs a 65th (R27). -/
def Warp.stackFull (w : Warp) (n : Nat) : Bool := decide (64 < w.stackUse + n)

def Warp.joinRec (w : Warp) (id : Nat) : Option JoinRec :=
  w.stack.findSome? fun e => match e with | .join r => if r.id = id then some r else none | _ => none

/-- The oldest ready split (R28). -/
def Warp.oldestReady (w : Warp) : Option Split :=
  w.stack.findSome? fun e => match e with | .ready sp => some sp | _ => none

def dropFirstReady : List StackEntry → List StackEntry
  | [] => []
  | .ready _ :: t => t
  | e :: t => e :: dropFirstReady t

/-- Bring the oldest ready split into an empty slot (R28). -/
def Warp.rotateIn (w : Warp) (b : Bool) (cycle : Nat) : Warp :=
  match w.slot? b, w.oldestReady with
  | none, some sp => { w.setSlot b (some { sp with entered := cycle }) with stack := dropFirstReady w.stack }
  | _, _ => w

/-- Fill both empty slots with ready splits (R28, R29). The three cases of R28 do not name a slot that a split's end left
free; a ready split enters it at once: DESIGN CHOICE (log 10). -/
def Warp.fillSlots (w : Warp) (cycle : Nat) : Warp := (w.rotateIn false cycle).rotateIn true cycle

/-- Push a ready split, the youngest (R28). -/
def Warp.pushReady (w : Warp) (sp : Split) : Warp := { w with stack := w.stack ++ [.ready sp] }

/-- Place a ready split: a free slot, else the stack. -/
def Warp.placeSplit (w : Warp) (sp : Split) (cycle : Nat) : Warp :=
  let sp := { sp with entered := cycle }
  match w.slotA, w.slotB with
  | none, _ => { w with slotA := some sp }
  | _, none => { w with slotB := some sp }
  | _, _ => w.pushReady sp

/-! ## Joins (R25) -/

/-- Splits waiting at a join record. -/
def Warp.waitingAt (w : Warp) (id : Nat) : List Split :=
  w.stack.filterMap fun e =>
    match e with
    | .waiting sp => if sp.join == some id && sp.wait == SplitWait.none then some sp else none
    | _ => none

def unionMask (l : List Split) : LaneMask := l.foldl (fun m sp => m ||| sp.mask) 0#32

/-- The split that splits waiting at a record merge into (R25, R322). -/
def mergeSplit (r : JoinRec) (l : List Split) : Option Split :=
  match l with
  | [] => none
  | sp :: t =>
    let m := unionMask l
    some { sp with
      id := t.foldl (fun n x => min n x.id) sp.id
      pc := r.j + 12#64
      mask := m
      join := r.outer
      only := none
      sig := if sp.ts.isSome then sp.sig else sigSeedJoin m
      view := t.foldl (fun v x => v.meet x.view) sp.view
      issued := l.foldl (fun n x => max n x.issued) 0
      raised := l.flatMap (·.raised) }

/-- Take a record and the splits waiting at it off the stack. -/
def Warp.dropJoin (w : Warp) (id : Nat) : Warp :=
  { w with stack := w.stack.filter fun e =>
      match e with
      | .join r => r.id != id
      | .waiting sp => !(sp.join == some id && sp.wait == SplitWait.none)
      | _ => true }

/-- The merged split when the waiting splits hold every lane left in the record. -/
def Warp.joinDone (w : Warp) (r : JoinRec) : Option Split :=
  let l := w.waitingAt r.id
  if r.m &&& ~~~ unionMask l = 0#32 then mergeSplit r l else none

/-- Close every record that an exit or a death completed: the merged split takes a free slot, else the stack. -/
def Warp.settleJoins (w : Warp) (cycle : Nat) : Warp :=
  let ids := w.stack.filterMap fun e => match e with | .join r => some r | _ => none
  ids.foldl (fun w r =>
    if r.m = 0#32 then w.dropJoin r.id
    else match w.joinDone r with
      | some sp => (w.dropJoin r.id).placeSplit sp cycle
      | none => w) w

/-! ## The return stack (R173) -/

/-- Links spilled to the divergence stack. -/
def Warp.spilled (w : Warp) : List Link :=
  w.stack.filterMap fun e => match e with | .link l => some l | _ => none

/-- Insert a link into a list whose youngest stands first. -/
def insertLink (l : Link) : List Link → List Link
  | [] => [l]
  | x :: t => if x.age < l.age then l :: x :: t else x :: insertLink l t

/-- Links by age, the youngest first. -/
def byAge (l : List Link) : List Link := l.foldr insertLink []

/-- The whole return stack, held and spilled, the youngest entry first. -/
def Warp.links (w : Warp) : List Link := byAge (w.rets ++ w.spilled)

/-- The age of the next entry. -/
def Warp.nextAge (w : Warp) : Nat := (w.links.headD ⟨0#64, 0#32, 0⟩).age + 1

/-- Bring the youngest spilled entry back while fewer than 8 are held. -/
def Warp.refillRets : Nat → Warp → Warp
  | 0, w => w
  | n + 1, w =>
    match byAge w.spilled with
    | l :: _ =>
      if w.rets.length < 8 then
        Warp.refillRets n { w with rets := insertLink l w.rets, stack := w.stack.erase (.link l) }
      else w
    | [] => w

/-- Push a link; a full stack moves its oldest entry to the divergence stack. -/
def Warp.pushRet (w : Warp) (a : DWord) (m : LaneMask) : Warp :=
  let l : Link := ⟨a, m, w.nextAge⟩
  if w.rets.length < 8 then { w with rets := l :: w.rets }
  else { w with rets := l :: w.rets.dropLast, stack := w.stack ++ w.rets.getLast?.toList.map .link }

/-- A lane's link: the youngest entry that holds it, held or spilled. -/
def Warp.linkOf (w : Warp) (i : Nat) : Option DWord := (w.links.find? (fun l => l.mask.has i)).map (·.addr)

/-- Clear lanes from the first entry of a list that holds each. -/
def clearLinks : LaneMask → List Link → List Link
  | _, [] => []
  | m, l :: t =>
    let rest := l.mask &&& ~~~ m
    if rest = 0#32 then clearLinks (m &&& ~~~ l.mask) t else { l with mask := rest } :: clearLinks (m &&& ~~~ l.mask) t

/-- Replace the spilled links, keeping the other entries. -/
def replaceLinks : List StackEntry → List Link → List StackEntry
  | [], l => l.map .link
  | .link _ :: t, l :: ls => .link l :: replaceLinks t ls
  | .link _ :: t, [] => replaceLinks t []
  | e :: t, l => e :: replaceLinks t l

/-- The ages of the held entries after a spilled one has been brought back: where 8 are held it is exchanged with the
oldest of them, which is one that the same RET does not use if there is one (R176, log 87). -/
def bringBack (used held : List Nat) (a : Nat) : List Nat :=
  if held.length < 8 then a :: held
  else
    let idle := held.filter fun x => !used.contains x
    let from_ := if idle.isEmpty then held else idle
    a :: held.erase (from_.foldl min (from_.headD 0))

/-- Clear each lane of m from its own entry: spilled entries that hold such a lane are brought back first, emptied
entries are freed (R173, R176). -/
def Warp.popLinks (w : Warp) (m : LaneMask) : Warp :=
  let after := clearLinks m w.links
  let used := (w.links.filter fun l => !after.contains l).map (·.age)
  let spill := (byAge w.spilled).map (·.age)
  let held := (spill.filter used.contains).foldl (bringBack used) (w.rets.map (·.age))
  Warp.refillRets 8 { w with
    rets := after.filter fun l => held.contains l.age
    stack := replaceLinks w.stack (after.filter fun l => !held.contains l.age) }

/-- Lanes leave every live mask; emptied entries are freed (R173). -/
def Warp.leaveLinks (w : Warp) (m : LaneMask) : Warp :=
  let trim (l : Link) : Option Link := if l.mask &&& ~~~ m = 0#32 then none else some { l with mask := l.mask &&& ~~~ m }
  Warp.refillRets 8 { w with
    rets := w.rets.filterMap trim
    stack := w.stack.filterMap fun e => match e with | .link l => (trim l).map .link | e => some e }

/-! ## Lanes that end (R25, R330, R362) -/

def trimSplit (m : LaneMask) (sp : Split) : Option Split :=
  let r := sp.mask &&& ~~~ m
  if r = 0#32 then none else some { sp with mask := r }

/-- Take lanes out of the splits, join records and return entries of a warp. -/
def Warp.dropLanes (w : Warp) (m : LaneMask) : Warp :=
  let stack := w.stack.filterMap fun e =>
    match e with
    | .ready sp => (trimSplit m sp).map .ready
    | .waiting sp => (trimSplit m sp).map .waiting
    | .join r => some (.join { r with m := r.m &&& ~~~ m })
    | .link l => some (.link l)
  { w with
    alive := w.alive &&& ~~~ m
    slotA := w.slotA.bind (trimSplit m)
    slotB := w.slotB.bind (trimSplit m)
    stack := stack }.leaveLinks m

/-! ## Trap-state sets (R226, R228) -/

def Warp.ts (w : Warp) (k : Nat) : TrapSet := if k = 0 then w.ts0 else w.ts1
def Warp.setTs (w : Warp) (k : Nat) (t : TrapSet) : Warp := if k = 0 then { w with ts0 := t } else { w with ts1 := t }

/-- The split that leaves a handler: it resumes at TPC under TMASK, or past TPC; none where no lane is left. -/
def resumeSplit (w : Warp) (t : TrapSet) (k : Nat) (next : Bool) (view : PathView) (serial : Nat) : Option Split :=
  let m := t.tmask &&& w.alive
  if m = 0#32 then none
  else
    let re := t.replay &&& w.alive
    -- an instruction whose replay lanes are all gone retires without re-executing (R228)
    let past := next || (t.replay != 0#32 && re == 0#32)
    some {
      id := t.id
      pc := if past then t.tpc + 12#64 else t.tpc
      mask := m
      sig := t.sig
      join := t.join
      ts := none
      wait := .none
      only := if past || re == 0#32 then none else some re
      entered := 0
      issued := k
      -- a replay re-reads the tables as after FENCE.X G, T (R239)
      view := if past || re == 0#32 then view else view.setHor .t serial serial }

/-- Whether a split belongs to handler k. -/
def inHandler (k : Nat) (sp : Split) : Bool := sp.ts == some k

/-- Splits of handler k that have executed TRET. -/
def Warp.returned (w : Warp) (k : Nat) : List Split :=
  w.stack.filterMap fun e => match e with
    | .waiting sp => (match sp.wait with | .tret _ => if sp.ts == some k then some sp else none | _ => none)
    | _ => none

/-- Whether the splits of a handler that have executed TRET, and lanes `more` besides, hold every alive lane of TLANES. -/
def Warp.allReturned (w : Warp) (k : Nat) (more : LaneMask) : Bool :=
  (w.ts k).tlanes &&& w.alive &&& ~~~ (more ||| unionMask (w.returned k)) == 0#32

/-- What the returned splits of a handler ask of the word that trapped: the wish of the one that executed TRET last
(log 88). -/
def Warp.skipOf (w : Warp) (k : Nat) : Option (SigKind × BitVec 10) :=
  match (w.returned k).foldl (fun (o : Option Split) sp => match o with
    | some x => if x.issued ≤ sp.issued then some sp else some x
    | none => some sp) none with
  | some sp => (match sp.wait with | .tret skip => skip | _ => none)
  | none => none

/-- A return from handler k: its set is free, its waiting splits are gone, and the split that resumes, if a lane of
TMASK is left, stands beside (R228). -/
def Warp.endHandler (w : Warp) (k : Nat) (skip : Option (SigKind × BitVec 10)) (cycle serial draws : Nat) :
    Warp × Option Split :=
  let view := match w.returned k with
    | [] => PathView.start (2 * w.id) 0
    | sp :: l => l.foldl (fun v x => v.meet x.view) sp.view
  let t := w.ts k
  let w := { w with stack := w.stack.filter fun e => match e with
    | .waiting sp => !(inHandler k sp && (match sp.wait with | .tret _ => true | _ => false))
    | _ => true }
  let sp := (resumeSplit w t draws skip.isSome view serial).map fun sp =>
    { sp with
      entered := cycle
      sig := match skip with | some (kind, op) => sigAfter kind op sp.sig sp.mask | none => sp.sig }
  (w.setTs k TrapSet.free, sp)

/-- Lanes have ended: a handler none of whose splits is left ends without a TRET, and one whose remaining lanes have all
executed TRET returns (R228). -/
def Warp.settleHandler (w : Warp) (k : Nat) (cycle serial draws : Nat) : Warp :=
  if (w.ts k).inUse && w.allReturned k 0#32 then
    match w.endHandler k (w.skipOf k) cycle serial draws with
    | (w, some sp) => w.placeSplit sp cycle
    | (w, none) => w
  else w

/-- Joins, handlers and empty slots after lanes have ended. -/
def Warp.settle (w : Warp) (cycle serial draws : Nat) : Warp :=
  (((w.settleJoins cycle).settleHandler 0 cycle serial draws).settleHandler 1 cycle serial draws).fillSlots cycle

/-! ## Ladder items and fragments of lanes and warps that end -/

/-- Mark an item of a ladder slot of a home cluster. -/
def setItem (s : State) (home lnum ix : Nat) (st : ItemState) : State :=
  let key := home * 4 + lnum
  match Tab.find? s.ladders key with
  | none => s
  | some l => { s with ladders := Tab.put s.ladders key { l with items := l.items.set ix st } }

/-- Held items of these lanes are dropped (R296). -/
def dropItems (s : State) (w : Warp) (m : LaneMask) : State :=
  match w.ladder with
  | none => s
  | some (home, lnum, _) =>
    (LaneMask.lanes m).foldl (fun s i =>
      match w.items.getD i none with
      | some h => if h.live then setItem s home lnum h.index .dropped else s
      | none => s) s

/-- The warp's copy of its items after lanes end. -/
def Warp.loseItems (w : Warp) (m : LaneMask) : Warp :=
  { w with items := laneIds.map fun i =>
      if m.has i then (w.items.getD i none).map (fun h => { h with live := false }) else w.items.getD i none }

/-- A reservation becomes an orphan (R272). -/
def orphanEntry (e : CatEntry) (id : Nat) : CatEntry :=
  if e.state = .open_ && e.owner = some id then { e with state := .orphan, owner := none } else e

/-- Close a warp's open fragment; its reservation becomes an orphan (R272, R274). -/
def closeFragment (s : State) (id : Nat) : State :=
  let closed (w : Warp) : Warp := if w.id = id then { w with frag := none } else w
  let s := { s with
    domains := s.domains.map fun d => (d.1, { d.2 with entries := d.2.entries.map (fun e => orphanEntry e id) })
    checkpoints := s.checkpoints.map closed }
  modWarpId s id fun w => { w with frag := none }

/-! ## Mappings (R184, R185) -/

/-- Release a team's registered granules that satisfy a test, writing modified lines back. -/
def releaseGrans (s : State) (sel : MapGran → Bool) : State :=
  let gone := s.mapped.filter sel
  let s := { s with mapped := s.mapped.filter (fun g => !sel g) }
  gone.foldl (fun s g =>
    let inG (l : Nat) : Bool := decide (g.scr ≤ l * 128) && decide (l * 128 < g.scr + 4096)
    let dirty := s.spDirty.filter inG
    let s := dirty.foldl (fun s l =>
      let off := l * 128 - g.scr
      let src := keysFrom (l * 128) 128
      let dst := keysFrom (g.phys * 4096 + off) 128
      let bad := src.filter fun k => s.poison.contains (k / 4)
      let s := writeBytes s (PathView.start 0 0) .g 0 dst (src.map (memGet s.mem)) false
      bad.foldl (fun s k => poisonWord s ((g.phys * 4096 + off + (k - l * 128)) / 4)) s) s
    { s with spDirty := s.spDirty.filter (fun l => !inG l) }) s

def releaseTeam (s : State) (team : Nat) : State :=
  let s := releaseGrans s (fun g => g.team == team)
  { s with teams := s.teams.map fun t => if t.id = team then { t with spmap := t.spmap.map (· &&& ~~~ (1#64 <<< 63)) } else t }

/-! ## The end of a warp (R16, R242) -/

def modGrid (s : State) (id : Nat) (f : Grid → Grid) : State :=
  { s with grids := s.grids.map fun g => if g.id = id then f g else g }
def gridById (s : State) (id : Nat) : Option Grid := s.grids.find? (fun g => g.id == id)
def modTeam (s : State) (id : Nat) (f : Team → Team) : State :=
  { s with teams := s.teams.map fun t => if t.id = id then f t else t }

/-- Rows that a warp owns are released (R244). -/
def releaseRows (s : State) (core warp : Nat) : State :=
  modCore s core fun c => { c with rows := c.rows.map fun r =>
    (r.1, if r.2.owner = some warp then { r.2 with owner := none } else r.2) }

def sameCluster (a b : Warp) : Bool := a.grid == b.grid && a.cluster == b.cluster

/-- A team whose last warp has ended: mappings and planes are released (R185, R244). -/
def endTeamIfDone (s : State) (w : Warp) : State :=
  if (allWarps s).any (fun x => x.team == w.team && x.ended.isNone) then s
  else
    let s := releaseTeam s w.team
    modCore s w.coreIx fun c => if c.planeOwner = some w.team then { c with planeOwner := none } else c

/-- A cluster whose last warp has ended gives up its slots (R13). -/
def endClusterIfDone (s : State) (w : Warp) : State :=
  if (allWarps s).any (fun x => sameCluster x w && x.ended.isNone) then s
  else { s with
    checkpoints := s.checkpoints.filter (fun x => !sameCluster x w)
    others := s.others.filter (fun x => !sameCluster x w)
    teams := s.teams.filter (fun t => !(t.grid == w.grid && t.cluster == w.cluster)) }

/-- Whether a warp runs in the trailing role (R331). -/
def Warp.trailing (w : Warp) : Bool := (w.rg.map (·.trailing)).getD false

/-- A warp's number in its cluster, which names its line of a completion record (R242). -/
def lineIndex (s : State) (w : Warp) : Nat := w.teamIx * ((teamById s w.team).map (·.warps)).getD 1 + w.index

/-- Put a warp's line into its grid's record. The trailing copy of a group has no line of its own. The first trap code of
the record is the first code of a warp that met a trap in a handler (R226, log 89). -/
def addLine (s : State) (w : Warp) (status code : BitVec 8) (pc : DWord) : State :=
  if w.trailing then s
  else modGrid s w.grid fun g =>
    { g with
      lines := g.lines ++ [⟨w.cluster, lineIndex s w, status, code, w.retired, pc⟩]
      live := g.live - 1
      status := if g.status = 0#8 then status else g.status
      code := if g.code ≠ 0#8 then g.code else if w.first = 0#8 then code else w.first }

/-- End the warp of this number with a status, a code and a program counter. -/
def endWarp (s : State) (id : Nat) (status code : BitVec 8) (pc : DWord) : State :=
  match warpById s id with
  | none => s
  | some w =>
    if w.ended.isSome then s
    else
      let s := closeFragment s id
      let s := if status = 0#8 then s else dropItems s w w.alive
      let s := releaseRows s w.coreIx id
      let s := { s with teams := s.teams.map fun t => { t with
        held := t.held.filter fun e => e.warp != id
        fwd := t.fwd.filter fun e => e.warp != id } }
      let s := modWarpId s id fun w => { w with
        ended := some (status, code)
        endPc := pc
        acc := .stopped
        fq := Vector.replicate 8 []
        slotA := none
        slotB := none
        stack := []
        rets := []
        pending := []
        parked := false
        ts0 := TrapSet.free
        ts1 := TrapSet.free
        pd := 0
        epoch := none }
      let s := addLine s w status code pc
      endClusterIfDone (endTeamIfDone s w) w

/-- The program counter a warp's line shows: that of a resident split, else of the access stream. -/
def Warp.anyPc (w : Warp) : DWord := ((w.slotA.or w.slotB).map (·.pc)).getD w.apc

/-- The issuing warp ends normally. A redundant copy first waits for its partner: the end is a commit point (R333). -/
def endNormal (s : State) (pc : DWord) : State :=
  match s.warp.rg with
  | none => endWarp s s.warp.id 0#8 0#8 pc
  | some g => modWarp s fun w => { w with rg := some { g with ending := some (0#8, pc) }, acc := .stopped }

/-- The warp ends when its lane stream has started and no split remains (R16). -/
def endIfNoSplit (s : State) (pc : DWord) : State :=
  if s.warp.lstarted && s.warp.splits.isEmpty && s.warp.ended.isNone then endNormal s pc else s

/-- Lanes of the issuing warp execute EXIT (R177, R296). -/
def exitLanes (s : State) (m : LaneMask) (pc : DWord) : State :=
  let s := dropItems s s.warp m
  let s := modWarp s fun w => (((w.loseItems m).dropLanes m).settle s.cycle s.serial s.draws)
  endIfNoSplit s pc

/-- Lanes of a warp die (R330): HOLD is set; a warp whose last alive lane dies ends with DEADWARP. -/
def killLanes (s : State) (m : LaneMask) (pc : DWord) : State :=
  let s := dropItems s s.warp m
  let s := modWarp s fun w =>
    let w := { (w.loseItems m).dropLanes m with dead := w.dead ||| m, sigctl := w.sigctl ||| 2#32 }
    w.settle s.cycle s.serial s.draws
  if s.warp.alive = 0#32 then endWarp s s.warp.id 5#8 0x13#8 pc else s

/-! ## Trap codes (R86) -/

namespace Code
def illegal : BitVec 8 := 0x01#8
def format : BitVec 8 := 0x02#8
def bounds : BitVec 8 := 0x03#8
def align : BitVec 8 := 0x04#8
def page : BitVec 8 := 0x05#8
def prot : BitVec 8 := 0x06#8
def budget : BitVec 8 := 0x07#8
def retempty : BitVec 8 := 0x08#8
def divstack : BitVec 8 := 0x09#8
def progress : BitVec 8 := 0x0A#8
def sigmismatch : BitVec 8 := 0x0B#8
def softerr : BitVec 8 := 0x0C#8
def impure : BitVec 8 := 0x0D#8
def epochwin : BitVec 8 := 0x0E#8
def epochfull : BitVec 8 := 0x0F#8
def nopreempt : BitVec 8 := 0x10#8
def rgmismatch : BitVec 8 := 0x11#8
def fabric : BitVec 8 := 0x12#8
def software : BitVec 8 := 0x14#8
def queue : BitVec 8 := 0x15#8
/-- The model's own mark of a noted mismatch; no trap has this code. -/
def noted : BitVec 8 := 0xFF#8
end Code

/-- The code of a failed access. -/
def AccErr.trap : AccErr → BitVec 8
  | .epochwin => Code.epochwin
  | .align => Code.align
  | .bounds => Code.bounds
  | .prot => Code.prot
  | .page => Code.page
  | .fabric => Code.fabric
  | .epochfull => Code.epochfull

/-- A trap of the whole split. -/
def wholeTrap (code : BitVec 8) (m : LaneMask) : TrapInfo := ⟨code, m, 0#32, 0#16, none, [], 0, []⟩

/-! ## Fault records (R239) -/

/-- WHERE of a warp (R231). -/
def whereWord (w : Warp) : Word :=
  let part := w.slot / 8
  BitVec.ofNat 32 (w.index + w.core * 2 ^ 4 + part * 2 ^ 6 + w.hw * 2 ^ 8 + w.hw / 40 * 2 ^ 16
    + (w.hw % 40 * 4 + w.core) * 2 ^ 18)

/-- QFILL: occupancy of the queues (R146). -/
def qfill (w : Warp) : DWord :=
  BitVec.ofNat 64 ((List.range 8).foldl (fun n k => n + (w.fq.getD k []).length * 2 ^ (5 * k)) 0
    + (w.bq.getD 0 []).length * 2 ^ 40 + (w.bq.getD 1 []).length * 2 ^ 45)

/-- Next position of a fault queue. -/
def faultNext (s : State) (q : DWord) : Nat := ((s.faultPos.find? (fun p => p.1 == q)).map (·.2)).getD 0

def setFaultNext (s : State) (q : DWord) (n : Nat) : State :=
  { s with faultPos := (q, n) :: s.faultPos.filter (fun p => p.1 != q) }

/-- The word of n bytes at a key as it stands, whatever path wrote it last: how the hardware reads a status word (log 12). -/
def standingNat (s : State) (k n : Nat) : Nat := ofBytesLE ((keysFrom k n).map fun j => memGet s.mem (home s j))

/-- Bytes that stand for every path: what is written over them later follows them (log 12). -/
def settleBytes (s : State) (ks : List Nat) : State :=
  let hs := ks.map (home s)
  { s with hist := s.hist.filter fun r => !hs.contains r.key }

/-- The record whose status word stands at a key is used again: its answer is kept, and the new record's block noted
(R224, R239). -/
def noteBlock (s : State) (grid : Nat) (block : Option Block) (key : Nat) : State :=
  let st := standingNat s key 4
  let old := s.blockFaults.map fun f => if f.key = key && f.answer = 0 then { f with answer := st } else f
  { s with blockFaults := (block.map fun b => ⟨grid, b, key, 0⟩).toList ++ old }

/-- What posting one record comes to. -/
inductive PostRes where
  /-- posted: its index and the key of its status word -/
  | ok (ix key : Nat)
  /-- the queue is full -/
  | full
  /-- the entry cannot be written -/
  | err (e : AccErr)
deriving DecidableEq, Repr

/-- Post one record. A posted record stands for its servicer on every path (log 12). -/
def postFault (s : State) (acc : Nat) (p : Post) : PostRes × State :=
  let w := s.warp
  let q := w.faultq
  let size := 2 ^ fieldNat q 7 0
  let base : DWord := BitVec.ofNat 64 (fieldNat q 56 8 * 256)
  let n := faultNext s q
  let ix := n % size
  let va := base + BitVec.ofNat 64 (32 * ix)
  let v := PathView.start (2 * w.id) s.serial
  let (r, s') := placeAccess s v w .write va 32
  let seq := ((gridById s w.grid).map (·.faults)).getD 0
  match r with
  | .error e => (.err e, s)
  | .ok k =>
    if size ≤ n && standingNat s' (k + 24) 4 == 0 then (.full, s)
    else
      let bytes := toBytesLE 8 p.addr.toNat ++ toBytesLE 1 p.kind ++ toBytesLE 1 acc ++ toBytesLE 2 0
        ++ toBytesLE 4 w.grid ++ toBytesLE 4 (whereWord w).toNat ++ toBytesLE 4 seq ++ toBytesLE 8 0
      let s' := noteBlock s' w.grid p.block (k + 24)
      let s' := settleBytes (gStore s' v w.coreIx k bytes false) (keysFrom k 32)
      (.ok ix (k + 24), setFaultNext (modGrid s' w.grid fun g => { g with faults := g.faults + 1 }) q (n + 1))

/-- Records to post: what has been posted, what is left where the queue is full, and the error of an entry that cannot
be written. -/
structure Posting where
  done : Posted
  left : List Post
  err : Option AccErr
deriving DecidableEq, Repr

/-- Post records until none is left or the queue is full. -/
def postFaults (acc : Nat) (done : Posted) : List Post → State → Posting × State
  | [], s => (⟨done, [], none⟩, s)
  | p :: t, s =>
    match postFault s acc p with
    | (.ok ix k, s) => postFaults acc ⟨done.first.or (some ix), done.keys ++ [k]⟩ t s
    | (.full, s) => (⟨done, p :: t, none⟩, s)
    | (.err e, s) => (⟨done, p :: t, some e⟩, s)

/-- The distinct pages of 256 KiB among addresses, each by its first address. -/
def distinctPages (l : List DWord) : List DWord :=
  l.foldl (fun acc a => if acc.any (fun b => b.toNat / 2 ^ 18 == a.toNat / 2 ^ 18) then acc else acc ++ [a]) []

/-- The records of a PAGE or PROT trap at these addresses: one per distinct page. -/
def pagePosts (code : BitVec 8) (l : List DWord) : List Post :=
  if code = Code.page then (distinctPages l).map (⟨1, ·, none⟩)
  else if code = Code.prot then (distinctPages l).map (⟨2, ·, none⟩)
  else []

/-- One record of kind 3 per distinct block (R223, R239). -/
def blockPosts (l : List (DWord × Block)) : List Post :=
  (l.foldl (fun acc (x : DWord × Block) => if acc.any (fun y => y.2 == x.2) then acc else acc ++ [x]) []).map
    fun x => ⟨3, x.1, some x.2⟩

/-- A trap of some lanes, each with its fault address. -/
def laneTrap (code : BitVec 8) (kind : Nat) (replay : LaneMask) (bad : List (Nat × DWord)) : TrapInfo where
  code := code
  lanes := LaneMask.ofPred fun i => bad.any (·.1 == i)
  replay := replay
  detail := 0#16
  lane := none
  addrs := bad
  kind := kind
  posts := pagePosts code (bad.map (·.2))

/-! ## Taking a trap (R226) -/

/-- The vector's entry for a code: 0 where TVEC is 0 or the table cannot be read. -/
def vectorEntry (s : State) (v : PathView) (tvec : DWord) (code : Nat) : DWord :=
  if tvec = 0#64 then 0#64
  else
    match (placeAccess s v s.warp .read (tvec + BitVec.ofNat 64 (8 * code)) 8).1 with
    | .ok k => BitVec.ofNat 64 (readNat s v .g 0 k 8)
    | .error _ => 0#64

/-! ## Epoch stores (R276, R278) -/

def reqById (s : State) (id : Nat) : Option Request := s.requests.find? (fun r => r.id == id)

/-- Whether [va, va + n) lies in a speculative window of the request. -/
def inWindows (r : Request) (va n : Nat) : Bool :=
  r.windows.any fun (b, len) => decide (b.toNat ≤ va) && decide (va + n ≤ b.toNat + len)

/-- Whether a write of the warp to these bytes is an epoch store outside every window (R276). -/
def epochOutside (s : State) (w : Warp) (va : DWord) (n : Nat) : Bool :=
  w.epoch.isSome && regionOf va == .paged &&
    match reqById s w.req with
    | some r => !inWindows r va.toNat n
    | none => true

/-- Second-level slice of a physical line (R187). -/
def sliceOf (line : Nat) : Nat :=
  let l := line % 2 ^ 32
  (l ^^^ (l / 2 ^ 8) ^^^ (l / 2 ^ 16) ^^^ (l / 2 ^ 24)) % 384

/-- The die whose versioned capacity a line uses: that of its home slice, or the writer's in private mode (R278). -/
def versionDie (s : State) (writer key : Nat) : Nat × Nat :=
  let chip := key / 2 ^ 39
  -- a line of another chip is homed under that chip's mode, which this package does not hold (R187)
  let priv := if chip = s.chip then s.l2Private else Config.choice 0 (choiceIx 3 chip 58)
  if priv then (s.chip, ((warpById s (writer / 2)).map (·.hw / 40)).getD 0)
  else (chip, sliceOf (key % 2 ^ 39 / 128) / 96)

/-- Versioned lines: request, epoch, line, die. -/
def versionLines (s : State) : List (Nat × Nat × Nat × Nat × Nat) :=
  (s.versions.map fun x => (x.req, x.epoch, x.record.key / 128, versionDie s x.record.writer x.record.key)).eraseDups

/-- Versions that the lines of a store's keys need. -/
def linesOf (s : State) (v : PathView) (ks : List Nat) : List (Nat × Nat × Nat × Nat × Nat) :=
  match v.epoch with
  | none => []
  | some (q, e) => (ks.filter (· < spBase)).map fun k => (q, e, k / 128, versionDie s v.own k)

/-- Versions reserved at issue by epoch stores that have not been performed: of drains, of copies, and of stores held in
compare buffers (R278). -/
def reservedLines (s : State) : List (Nat × Nat × Nat × Nat × Nat) :=
  s.drains.flatMap (fun d => linesOf s d.view (d.items.flatMap (·.dst)))
    ++ s.copies.flatMap (fun c => linesOf s c.view (c.elems.flatMap (·.dst)))
    ++ s.teams.flatMap fun t => t.held.flatMap fun h =>
        match warpById s h.warp with
        | some w => linesOf s { PathView.start (2 * w.id) 0 with epoch := w.epoch.map fun e => (w.req, e) } (h.bytes.map (·.1))
        | none => []

/-- Lines of versions a die holds: 16 MiB (R278). -/
def versionCap : Nat := 2 ^ 24 / 128

inductive Room where
  | ok
  | stall
  | full
deriving DecidableEq, Repr

/-- The oldest open epoch of a request's chain. -/
def oldestOpen (r : Request) : Option Nat :=
  (r.epochs.filter (·.state == 1#3)).foldl (fun m e => some (min e.num (m.getD e.num))) none

/-- Whether versions for every line of these keys fit (R278). -/
def epochRoom (s : State) (v : PathView) (keys : List Nat) : Room :=
  match v.epoch with
  | none => .ok
  | some (q, e) =>
    let have_ := (versionLines s ++ reservedLines s).eraseDups
    let new := (linesOf s v keys).eraseDups.filter fun x => !have_.contains x
    let all := have_ ++ new
    if new.all fun x => decide ((all.filter fun y => y.2.2.2 == x.2.2.2).length ≤ versionCap) then .ok
    else if (reqById s q).bind oldestOpen == some e then .full else .stall

/-- What a write to an address knows: scratchpad windows take no epoch stores (R207). -/
def storeView (v : PathView) (va : DWord) : PathView :=
  if regionOf va = .paged then v else { v with epoch := none }

/-! ## Entering a handler (R226, R227) -/

/-- Trap save area of lane i. -/
def Warp.area (w : Warp) (i : Nat) : DWord := w.ltsave + BitVec.ofNat 64 (256 * i)

/-- Place the 12 bytes of each lane's trap save area. -/
def placeAreas (v : PathView) : List Nat → State → List (Nat × Except AccErr Nat) × State
  | [], s => ([], s)
  | i :: rest, s =>
    let (r, s) := placeAccess s v s.warp .write (s.warp.area i) 12
    let (l, s) := placeAreas v rest s
    ((i, r) :: l, s)

/-- The 12 bytes of a lane: fault address and detail. -/
def areaBytes (t : TrapInfo) (i : Nat) : List Byte :=
  toBytesLE 8 (((t.addrs.find? (fun p => p.1 == i)).map (·.2)).getD 0#64).toNat ++ toBytesLE 4 (i + t.kind * 256)

/-- The code that the stores into the areas trap with, in the order of R87: none where they can be performed, `some none`
where they wait for a version (R276, R278). -/
def areaFault (s : State) (v : PathView) (l : List (Nat × Except AccErr Nat)) : Option (Option (BitVec 8)) :=
  if l.any fun p => epochOutside s s.warp (s.warp.area p.1) 12 then some (some Code.epochwin)
  else
    let bad (e : AccErr) : Bool := l.any fun p => match p.2 with | .error x => x == e | .ok _ => false
    match [AccErr.bounds, .prot, .page, .fabric].find? bad with
    | some e => some (some e.trap)
    | none =>
      let keys := l.flatMap fun p => match p.2 with | .ok k => keysFrom k 12 | .error _ => []
      match epochRoom s (storeView v s.warp.ltsave) keys with
      | .ok => none
      | .stall => some none
      | .full => some (some Code.epochfull)

/-- Write fault address and detail into the named lanes' trap save areas, as G stores of the split (R227); else the fault
of these stores. -/
def saveAreas (t : TrapInfo) (v : PathView) (l : List Nat) (s : State) : Except (Option (BitVec 8)) State :=
  let (l, s) := placeAreas v l s
  match areaFault s v l with
  | some e => .error e
  | none => .ok (l.foldl (fun s p => match p.2 with
    | .ok k => gStore s (storeView v s.warp.ltsave) s.warp.coreIx k (areaBytes t p.1) false
    | .error _ => s) s)

/-- A redundant copy that meets an abnormal end waits for its partner to meet the same (R335). -/
def endAbnormal (s : State) (code : BitVec 8) (pc : DWord) : State :=
  match s.warp.rg with
  | none => endWarp s s.warp.id 1#8 code pc
  | some g => modWarp s fun w => { w with
      rg := some { g with ending := some (code, pc) }
      acc := .stopped
      slotA := w.slotA.map (fun sp => { sp with wait := .commit })
      slotB := w.slotB.map (fun sp => { sp with wait := .commit }) }

/-- A mismatch of a redundant group is noted for the RG_COMMIT event, which rolls both copies back (R335). -/
def noteMismatch (s : State) : State :=
  modWarp s fun w => { w with rg := w.rg.map fun g => { g with ending := some (Code.noted, 0#64) } }

/-- A death of lanes in a copy is a mismatch that kills them in both (R335). -/
def noteDeath (s : State) (m : LaneMask) : State :=
  modWarp (noteMismatch s) fun w => { w with rg := w.rg.map fun g => { g with killed := g.killed ||| m } }

/-- The first occurrence of a word leaves the trace. -/
def untrace (x : DWord × LaneMask) (w : Warp) : Warp :=
  { w with rg := w.rg.map fun g => { g with trace := g.trace.erase x } }

/-- A lane word passed by a redundant copy, retired or trapped on: the trailing copy may follow (R334). A trailing copy
that passes a word which the leading one did not pass has met no end where its partner met one (R335). -/
def traceWord (s : State) (pc : DWord) (m : LaneMask) : State :=
  match s.warp.rg with
  | none => s
  | some g =>
    if !g.trailing then
      modWarpId s g.partner fun w => { w with rg := w.rg.map fun h => { h with trace := h.trace ++ [(pc, m)] } }
    else if g.trace.contains (pc, m) then modWarp s (untrace (pc, m))
    else if (((warpById s g.partner).bind (·.rg)).bind (·.ending)).isSome then noteMismatch s
    else s

/-- A copy's checkpoint: its warp as it stands (R334). -/
def checkpoint (s : State) : State :=
  let s := modWarp s fun w => { w with rg := w.rg.map fun g => { g with mismatches := 0, granted := false, grant := none } }
  { s with checkpoints := s.checkpoints.map fun w => if w.id = s.warp.id then s.warp else w }

/-- Entry of a split into a handler, records posted (R226). `first` is the index of the first record. -/
def enterHandler (s : State) (sp : Split) (t : TrapInfo) (first : Option Nat) (status : List Nat) : State :=
  let w := s.warp
  let v := viewOf w sp
  let entry := vectorEntry s v w.tvec t.code.toNat
  let replay := if t.replay = 0#32 then sp.only.getD 0#32 else t.replay
  if sp.ts.isSome then
    endAbnormal (modWarp s fun w => { w with first := (sp.ts.map fun k => (w.ts k).tcause.setWidth 8).getD 0#8 }) t.code sp.pc
  else if entry = 0#64 && t.code == Code.page then
    s.setSplit (some { sp with wait := .service status, only := if replay = 0#32 then none else some replay })
  else
    let free : Option Nat := if !w.ts0.inUse then some 0 else if !w.ts1.inUse then some 1 else none
    match (if entry = 0#64 then none else free) with
    | none => endAbnormal s t.code sp.pc
    | some k =>
      let lane := t.lane.getD (LaneMask.lowest t.lanes)
      let detail := (first.map (BitVec.ofNat 16 ·)).getD t.detail
      let cause : Word := detail ++ BitVec.ofNat 8 lane ++ t.code
      let set : TrapSet := ⟨true, sp.pc, sp.mask, t.lanes, cause, replay, sp.sig, sp.join, sp.id⟩
      let waits := s.setSplit (some { sp with wait := .posting { t with posts := [] } ⟨first, status⟩ })
      let s := traceWord (modWarp s fun w => w.setTs k set) sp.pc sp.mask
      match saveAreas t v (LaneMask.lanes t.lanes) s with
      | .error none => waits
      | .error (some e) => endAbnormal (modWarp s fun w => { w with first := t.code }) e entry
      | .ok s => s.setSplit (some { sp with
          pc := entry
          mask := t.lanes
          join := none
          ts := some k
          wait := .none
          only := none })

/-- Post a trap's records and enter its handler. A full fault queue holds the word unretired with the records posted so
far (R239); an entry of the queue that cannot be written ends the warp (log 20). -/
def postTrap (s : State) (sp : Split) (t : TrapInfo) (done : Posted) : State :=
  match postFaults t.kind done t.posts s with
  | (p, s) =>
    match p.err with
    | some e => endAbnormal s e.trap sp.pc
    | none =>
      if p.left.isEmpty then enterHandler s { sp with wait := .none } t p.done.first p.done.keys
      else s.setSplit (some { sp with wait := .posting { t with posts := p.left } p.done })

/-- Take a lane trap in the issuing split (R225, R226). Outstanding results are waited for first (R76); FAULTQ 0 ends the
warp (06, R239); a SIGMISMATCH or SOFTERR of a redundant copy is a mismatch (R335). -/
def takeTrap (s : State) (t : TrapInfo) : State :=
  match s.split? with
  | none => s
  | some sp =>
    if !s.warp.pending.isEmpty then modWarp s fun w => { w with parked := true }
    else if s.warp.rg.isSome && (t.code == Code.sigmismatch || t.code == Code.softerr) then noteMismatch s
    else if t.posts.isEmpty then enterHandler s sp t none []
    else if s.warp.faultq = 0#64 then endAbnormal s t.code sp.pc
    else postTrap s sp t Posted.none

/-! ## Returning from a trap (R228) -/

/-- Complete a return: the set is released and the split resumes in the issuing slot. -/
def finishReturn (s : State) (k : Nat) (skip : Option (SigKind × BitVec 10)) : State :=
  let (w, sp) := s.warp.endHandler k skip s.cycle s.serial s.draws
  endIfNoSplit { s with warp := (w.setSlot s.slotB sp).fillSlots s.cycle } (s.warp.ts k).tpc

/-! ## Taking a trap in the access stream (R123) -/

/-- The access handler is entered, or the warp ends abnormally. -/
def accessTrap (s : State) (code : BitVec 8) (lane : Nat) (imm : BitVec 16) (faddr : DWord) : State :=
  let w := s.warp
  if !w.ahstat && w.atvec != 0#64 then
    modWarp s fun w => { w with
      rg := w.rg.map fun g => { g with accWords := g.accWords + 1 }
      atpc := truncTo 57 w.apc
      acause := imm ++ BitVec.ofNat 8 lane ++ code
      afaddr := faddr
      ahstat := true
      apc := w.atvec }
  else endAbnormal (modWarp s fun w => { w with atpc := truncTo 57 w.apc }) code w.apc

end Sys2Proof.Machine
end

