-- ==== Sys2Proof/Machine/WarpBytes.lean ====
section
/-! DEFINITION. A warp as it is saved and its bytes (R124, R236), and the checkpoint of a redundant copy in memory
(R334). -/

namespace Sys2Proof.Machine

/-! ## A warp as it is saved -/

/-- A register whose poisoned words are saved as 0; of a released one only the mark is saved (R33, R236, R330). -/
def saveReg (r : LaneReg) : LaneReg :=
  if r.released then { LaneReg.launch with released := true }
  else if r.poison = 0#32 then r
  else { r with val := .g (laneIds.map fun i => if r.poison.has i then 0#32 else r.val.word i), poison := 0#32 }

/-- Words without those that are poisoned, which are saved as 0 (R330). -/
def cleanWords (bad : LaneMask) (ws : List Word) : List Word := ws.zipIdx.map fun p => if bad.has p.2 then 0#32 else p.1
def saveQueue (e : QEntry) : QEntry := { e with ws := cleanWords e.poison e.ws, poison := 0#32 }
def saveBack (e : BEntry) : BEntry := { e with ws := cleanWords e.poison e.ws, poison := 0#32 }

/-- A split that re-executes what it waited in. -/
def saveSplit (sp : Split) : Split :=
  match sp.wait with
  | .tret _ | .service _ | .posting _ _ => sp
  | _ => { sp with wait := .none }

def saveEntry (e : StackEntry) : StackEntry :=
  match e with
  | .ready sp => .ready (saveSplit sp)
  | .waiting sp => .waiting (saveSplit sp)
  | e => e

/-- The access stream re-executes the word that has not issued (R124). -/
def saveAcc : AccWait → AccWait
  | .halted => .halted
  | .stopped => .stopped
  | _ => .ready

/-- A warp as it is saved: the watchdog count is the cycles since the last retired word, and `pdSince` the cycles in the
current PREEMPT.OFF section (R236). -/
def saveWarp (cycle : Nat) (w : Warp) : Warp :=
  { w with
    regs := w.regs.map fun r => (r.1, saveReg r.2)
    fq := w.fq.map (·.map saveQueue)
    bq := w.bq.map (·.map saveBack)
    slotA := w.slotA.map saveSplit
    slotB := w.slotB.map saveSplit
    stack := w.stack.map saveEntry
    acc := saveAcc w.acc
    parked := false
    pdSince := cycle - w.pdSince
    watch := cycle - w.watch }

/-! ## Parts of a warp -/

def wordsBytes (l : List Word) : List Byte := l.flatMap fun w => toBytesLE 4 w.toNat

/-- Bytes cut or filled with zeros to a length. -/
def padTo (n : Nat) (l : List Byte) : List Byte := l.take n ++ List.replicate (n - l.length) 0#8

/-- One 32-byte entry of R26. -/
def stackBytes (kind : Byte) (sig mask : Word) (join pc : DWord) : List Byte :=
  toBytesLE 8 pc.toNat ++ toBytesLE 8 join.toNat ++ toBytesLE 4 mask.toNat ++ toBytesLE 4 sig.toNat ++ [kind] ++ List.replicate 7 0#8

/-- J of the innermost join record of a split. -/
def splitJ (w : Warp) (sp : Split) : DWord := ((sp.join.bind w.joinRec).map (·.j)).getD 0#64

/-- A split in the layout of R26. -/
def splitBytes (w : Warp) (kind : Byte) (sp : Split) : List Byte := stackBytes kind sp.sig sp.mask (splitJ w sp) sp.pc

/-- An entry of the divergence stack (R26). -/
def entryBytes (w : Warp) : StackEntry → List Byte
  | .ready sp => splitBytes w 0#8 sp
  | .waiting sp => splitBytes w 1#8 sp
  | .join r => stackBytes 2#8 0#32 r.m r.j 0#64
  | .link l => stackBytes 3#8 0#32 l.mask 0#64 l.addr

/-- A split slot; KIND 0xFF when empty. -/
def slotBytes (w : Warp) : Option Split → List Byte
  | none => stackBytes 0xFF#8 0#32 0#32 0#64 0#64
  | some sp => splitBytes w 0#8 sp

/-- TS0 or TS1. -/
def trapSetBytes (t : TrapSet) : List Byte :=
  toBytesLE 8 t.tpc.toNat ++ toBytesLE 4 t.tmask.toNat ++ toBytesLE 4 t.tlanes.toNat ++ toBytesLE 4 t.tcause.toNat
    ++ toBytesLE 4 t.replay.toNat ++ toBytesLE 4 t.inUse.toNat ++ List.replicate 4 0#8

/-- The eight entries of the return stack. -/
def retBytes (w : Warp) : List Byte :=
  padTo 128 (w.rets.flatMap fun r => toBytesLE 8 r.addr.toNat ++ toBytesLE 4 r.mask.toNat ++ List.replicate 4 0#8)

/-- Access PC and access CSRs, in the order of R146 (log 39). -/
def accessBytes (w : Warp) : List Byte :=
  padTo 64 (toBytesLE 8 w.apc.toNat ++ toBytesLE 4 w.qtag.toNat ++ toBytesLE 4 w.am.toNat ++ toBytesLE 4 w.lm.toNat
    ++ toBytesLE 8 w.atvec.toNat ++ toBytesLE 8 w.atpc.toNat ++ toBytesLE 4 w.acause.toNat ++ toBytesLE 8 w.afaddr.toNat
    ++ toBytesLE 4 w.ahstat.toNat ++ toBytesLE 8 (qfill w).toNat)

/-- The lane CSRs of R231 and R320 in a saved warp, by rising number, without the per-split ones, the per-team ones,
INVPG and the core's clock; WEARCTX is its context's. -/
def savedCsrs (wearctx : DWord) (w : Warp) : List DWord :=
  [w.tvec, w.spillbase, w.ltsave, w.wdog.setWidth 64, w.faultq, (whereWord w).setWidth 64,
    BitVec.ofNat 64 (w.pd + (if w.pd = 0 then 0 else min (w.pdSince / 128) 65535) * 16),
    w.sigctl.setWidth 64, w.sigtab, w.sigcnt.setWidth 64, w.rgbase, w.rginj, wearctx]

/-- Eight bytes for each (log 39). -/
def laneCsrBytes (wearctx : DWord) (w : Warp) : List Byte :=
  padTo 128 ((savedCsrs wearctx w).flatMap fun x => toBytesLE 8 x.toNat)

/-- The 1,024 bytes of a warp block. -/
def warpBlock (wearctx : DWord) (w : Warp) : List Byte :=
  slotBytes w w.slotA ++ slotBytes w w.slotB ++ trapSetBytes w.ts0 ++ trapSetBytes w.ts1 ++ retBytes w
    ++ [BitVec.ofNat 8 w.stackUse, BitVec.ofNat 8 w.rets.length, BitVec.ofNat 8 w.pd, 0#8]
    ++ toBytesLE 4 (if w.pd = 0 then 0 else w.pdSince) ++ toBytesLE 4 w.lm.toNat ++ toBytesLE 4 w.am.toNat ++ List.replicate 4 0#8
    ++ w.preds.toList.flatMap (fun p => toBytesLE 4 p.toNat) ++ toBytesLE 4 w.alive.toNat ++ List.replicate 12 0#8
    ++ w.s.toList.flatMap (fun x => toBytesLE 8 x.toNat) ++ accessBytes w ++ laneCsrBytes wearctx w ++ toBytesLE 8 w.watch
    ++ List.replicate 248 0#8

/-- An entry of a forward queue: header, then 4 or 128 bytes. -/
def queueEntryBytes (e : QEntry) : List Byte := BitVec.ofNat 8 (e.tag.toNat + 16 * (!e.vec).toNat) :: wordsBytes e.ws

/-- An entry of a back queue: header, mask, 128 bytes. -/
def backEntryBytes (e : BEntry) : List Byte := e.tag.setWidth 8 :: toBytesLE 4 e.mask.toNat ++ wordsBytes e.ws

/-- The queue part of a warp. -/
def queuePart (w : Warp) : List Byte :=
  w.fq.toList.flatMap (fun q => BitVec.ofNat 8 q.length :: q.flatMap queueEntryBytes)
    ++ w.bq.toList.flatMap fun q => BitVec.ofNat 8 q.length :: q.flatMap backEntryBytes

/-- One register: header, value, metadata of a BX4 register. -/
def regBytes (r : LaneReg) : List Byte :=
  if r.released then [BitVec.ofNat 8 (r.tag.toNat + 16 * 3)]
  else
    let (shape, bs) : Nat × List Byte := match r.val with
      | .u v => (0, toBytesLE 4 v.toNat)
      | .a b d => (1, toBytesLE 4 b.toNat ++ toBytesLE 4 d.toNat)
      | .g ws => (2, wordsBytes ws)
    let bx := r.tag == 8#4
    BitVec.ofNat 8 (r.tag.toNat + 16 * shape + 64 * bx.toNat) :: bs
      ++ if bx then (List.range 8).flatMap fun b => let p := r.side.getD b (0#8, 0#8); [p.1, p.2] else []

/-- The register part of a warp: its 8 × units allocated registers (R12). -/
def registerPart (w : Warp) : List Byte := (List.range (8 * w.units)).flatMap fun n => regBytes (w.reg n)

/-! ## Areas in memory -/

/-- Hardware puts bytes at keys, seen by every observer at once (log 39, log 55). -/
def putArea (s : State) (k : Nat) (bs : List Byte) : State :=
  let covers (n : Nat) : Bool := decide (k ≤ n) && decide (n < k + bs.length)
  { s with
    mem := memPutList s.mem k bs
    hist := s.hist.filter fun r => !covers r.key
    poison := s.poison.filter fun n => !(covers (4 * n) && covers (4 * n + 3)) }

/-! ## Checkpoints (R334) -/

/-- The bytes of a checkpoint: a warp as it is saved, with SIG of its splits (log 55). -/
def checkpointBytes (cycle : Nat) (wearctx : DWord) (w : Warp) : List Byte :=
  let x := saveWarp cycle w
  padTo 65536 (warpBlock wearctx x ++ queuePart x ++ registerPart x ++ x.splits.flatMap fun sp => toBytesLE 4 sp.sig.toNat)

/-- WEARCTX of a context (R320). -/
def wearCtx (s : State) (ctx : Nat) : DWord := BitVec.ofNat 64 (((Tab.find? s.contexts ctx).map (·.wear)).getD 0)

/-- The pieces of a warp's checkpoint area, page by page, placed. -/
def checkpointPlaces (s : State) (w : Warp) : List (DWord × Nat × Except AccErr Nat) × State :=
  placeCuts (fun va _ s => placePaged s (PathView.start 0 s.serial) w.coreIx w.ctx .write va)
    (cutsOf (w.rgbase + BitVec.ofNat 64 (65536 * w.index)) 65536) s

/-- Write a warp's checkpoint at RGBASE + 65,536 × its index, where that is mapped. -/
def writeCheckpoint (s : State) (w : Warp) : State :=
  let va := w.rgbase + BitVec.ofNat 64 (65536 * w.index)
  let bs := checkpointBytes s.cycle (wearCtx s w.ctx) w
  let (l, s) := checkpointPlaces s w
  l.foldl (fun s p => match p.2.2 with
    | .ok k => putArea s k ((bs.drop (p.1 - va).toNat).take p.2.1)
    | .error _ => s) s

/-- A word that used a commit point is followed by a checkpoint (R333). -/
def afterGrant (s : State) : State :=
  if (s.warp.rg.map (·.granted)).getD false then let s := checkpoint s; writeCheckpoint s s.warp else s

end Sys2Proof.Machine
end

