-- ==== Sys2Proof/Machine/Lane.lean ====
section
/-! DEFINITION. The issue of one lane word, shared by every lane instruction: the checks in the order of R87 (R63,
R69, R71, R19, R20, R36, R265, R266, R329), the body of the instruction, and retirement (R19, R31, R74, R75, R82,
R265, R322, R30, R334). And instruction fetch (R62, R189). -/

namespace Sys2Proof.Machine

/-! ## Fetch -/

/-- A byte as the instruction caches of a grid that started at `since` hold it (R189). -/
def fetchSeen (since key : Nat) : List WriteRec → Byte → Byte
  | [], cur => cur
  | r :: t, cur =>
    if r.key = key then
      let ser := r.fenced.getD r.serial
      if since < ser then fetchSeen since key t r.old
      else if r.path = .g || r.fenced.isSome || Config.choice since (choiceIx r.serial key 61) then cur
      else fetchSeen since key t r.old
    else fetchSeen since key t cur

/-- Four instruction bytes at an address of a warp. -/
def fetch4 (s : State) (w : Warp) (pc : DWord) : Except AccErr (List Byte) × State :=
  let v := PathView.start (2 * w.id) s.serial
  let (r, s) := placeAccess s (v.setHor .t s.serial s.serial) w .fetch pc 4
  match r with
  | .error e => (.error e, s)
  | .ok k =>
    let since := ((gridById s w.grid).map (·.since)).getD s.serial
    (.ok ((keysFrom k 4).map fun k => let k := home s k; fetchSeen since k s.hist (memGet s.mem k)), s)

/-- n words of four instruction bytes. -/
def fetchBytes (w : Warp) : Nat → State → DWord → Except AccErr (List Byte) × State
  | 0, s, _ => (.ok [], s)
  | n + 1, s, pc =>
    match fetch4 s w pc with
    | (.error e, s) => (.error e, s)
    | (.ok b, s) =>
      match fetchBytes w n s (pc + 4#64) with
      | (.error e, s) => (.error e, s)
      | (.ok bs, s) => (.ok (b ++ bs), s)

/-- The instruction at a lane address. -/
def fetchLane (s : State) (w : Warp) (pc : DWord) : Except AccErr Instr × State :=
  match fetchBytes w 3 s pc with
  | (.error e, s) => (.error e, s)
  | (.ok bs, s) => (match decodeLaneBytes bs with | some (i, _) => .ok i | none => .error .page, s)

/-- The instruction at an access address. -/
def fetchAccess (s : State) (w : Warp) (pc : DWord) : Except AccErr Instr × State :=
  match fetchBytes w 1 s pc with
  | (.error e, s) => (.error e, s)
  | (.ok bs, s) => (match decodeAccessBytes bs with | some (i, _) => .ok i | none => .error .page, s)

/-! ## What a body sees -/

/-- The context of a lane word that has passed its checks. -/
structure Cx where
  s : State
  w : Strip
  f : LaneForm
  sp : Split
  /-- P: the participating lanes (R147) -/
  p : LaneMask
  a : Operand
  b : Operand
  c : Operand
deriving DecidableEq

/-- Whether every alive lane takes part (R31). -/
def Cx.full (cx : Cx) : Bool := cx.p == cx.s.warp.alive
def Cx.next (cx : Cx) : DWord := cx.sp.pc + 12#64
def Cx.view (cx : Cx) : PathView := viewOf cx.s.warp cx.sp
def Cx.lane0 (cx : Cx) : Nat := LaneMask.lowest cx.p
/-- Bits of X. -/
def Cx.x (cx : Cx) (hi lo : Nat) : Nat := Form.xf cx.w hi lo
def Cx.xb (cx : Cx) (n : Nat) : Bool := Form.xb cx.w n
/-- The register k above the one a source field names. -/
def Cx.srcA (cx : Cx) (k : Nat) : Operand := operand cx.s.draws cx.s.warp cx.w.a k
def Cx.srcB (cx : Cx) (k : Nat) : Operand := operand cx.s.draws cx.s.warp cx.w.b k
def Cx.srcC (cx : Cx) (k : Nat) : Operand := operand cx.s.draws cx.s.warp cx.w.c k
/-- Register D + k read as it stands. -/
def Cx.srcD (cx : Cx) (k : Nat) : Operand := readReg cx.s.draws cx.s.warp (cx.w.d.toNat + k)
/-- The 64-bit value of a pair operand in lane i (R37). -/
def Cx.pairA (cx : Cx) (i : Nat) : DWord := pair64 (cx.a.word i) ((cx.srcA 1).word i)
def Cx.pairC (cx : Cx) (i : Nat) : DWord := pair64 (cx.c.word i) ((cx.srcC 1).word i)
def Cx.d (cx : Cx) : Nat := cx.w.d.toNat

/-- The immediate as a word (R148, R201, R302): sign-extended for memory and matrix words, for FSCALE and under I32; a
BF16 pattern in float words and in ISEL under F32; zero-extended otherwise, in XLAT and in the words of R302. -/
def immWord (op : BitVec 10) (w : Strip) : Word :=
  let n := op.toNat
  if n = 0x211 || n = 0x212 || n = 0x289 || n = 0x28A || n = 0x314 || n = 0x315 then w.imm16.setWidth 32
  else if 0x200 ≤ n || n = 0x093 then w.imm16.signExtend 32
  else if (0x080 ≤ n && n < 0x100) || (n = 0x01A && w.fmt = 3#4) then w.imm16 ++ 0#16
  else if w.fmt = 1#4 then w.imm16.signExtend 32
  else w.imm16.setWidth 32

/-- How a body ends without a trap. -/
structure Done where
  s : State
  regs : List RegWrite := []
  preds : List PredWrite := []
  /-- the results are variable-latency (R74) -/
  var : Bool := false
  /-- where the split continues, NEXT unless given -/
  next : Option DWord := none
  /-- a HIT's branch, an awaited epoch, or a result that holds its split -/
  branch : Option DWord := none
  epoch : Option (Nat × Nat) := none
  holds : Bool := false
  /-- the submission whose acceptance supplies the value (R292) -/
  sub : Option Nat := none

/-- What the body of a lane instruction does. -/
inductive LaneRes where
  | done (d : Done)
  /-- a trap before any effect -/
  | trap (t : TrapInfo)
  /-- some lanes completed, the named ones did not (R204) -/
  | part (d : Done) (t : TrapInfo)
  /-- the word does not retire now: its split waits, in the state given -/
  | hold (s : State)
  /-- the body has moved the splits itself -/
  | moved (s : State)

/-- What an instruction adds to the common checks. -/
structure LaneOpts where
  /-- further conditions for ILLEGAL -/
  illegal : State → Split → Strip → Bool := fun _ _ _ => false
  /-- lanes that trap BUDGET by their operands (R152, R175) -/
  budget : Cx → LaneMask := fun _ => 0#32
  /-- FORMAT by registers that the operands choose (R152) -/
  badFormat : Cx → Bool := fun _ => false
  /-- registers read beside the named ones -/
  reads : Cx → List Nat := fun _ => []
  /-- DIVSTACK and RETEMPTY, before IMPURE (R87) -/
  early : Cx → Option TrapInfo := fun _ => none
  /-- the lanes of P that consume poison; none: the common rule (R329) -/
  deaths : Option (Cx → LaneMask) := none
  /-- the body runs although P is empty -/
  always : Bool := false

/-! ## Checks -/

/-- The queues that a word names in source fields (R19). -/
def namedQueues (f : LaneForm) (w : Strip) : List Nat :=
  let q (g : SrcForm) (x : SrcField) : List Nat :=
    if g.used && decide (248 ≤ x.code.toNat) then [x.code.toNat - 248] else []
  (q f.a w.a ++ (if Form.useB f w then q f.b w.b else []) ++ (if f.overlay then [] else q f.c w.c)).eraseDups

/-- The guard as a mask (R72). -/
def guardMask (warp : Warp) (f : LaneForm) (w : Strip) : LaneMask :=
  if f.guard then warp.predMask w.pm.toNat else 0xFFFFFFFF#32

/-- P (R147), limited to the replay lanes of a re-execution (R204). -/
def takingPart (warp : Warp) (sp : Split) (f : LaneForm) (w : Strip) : LaneMask :=
  sp.mask &&& warp.alive &&& guardMask warp f w &&& sp.only.getD 0xFFFFFFFF#32

/-- Every operand tag accepted (R36), a pair by both its registers (R37). -/
def tagsOk (draws : Nat) (warp : Warp) (f : LaneForm) (w : Strip) : Bool :=
  let ok (g : SrcForm) (x : SrcField) : Bool :=
    !g.used || (List.range g.span).all fun k => g.tags.accepts w.fmt (operand draws warp x k).tag
  ok f.a w.a && (!Form.useB f w || ok f.b w.b) && (f.overlay || ok f.c w.c)
    && (f.dRead == .unchecked || (Form.dstRegs f w).all fun n => f.dRead.accepts w.fmt (warp.reg n).tag)

/-- The predicates a word reads beside its guard. -/
def predReads : Instr → List Nat
  | .isel w => [Form.xf w 5 3]
  | .vote w => [Form.xf w 5 3]
  | .pmov w => [Form.xf w 5 3, Form.xf w 8 6]
  | .bra w => [Form.xf w 2 0]
  | .xlatRp w => [Form.xf w 3 1]
  | _ => []

/-- Whether every register and predicate the word reads is clean (R265). -/
def readsClean (fr : Frag) (i : Instr) (f : LaneForm) (w : Strip) : Bool :=
  (Form.readRegs f w).all fr.cleanR.contains
    && ((if f.guard then [w.pm.toNat] else []) ++ predReads i).all fun k => k == 7 || fr.cleanP.contains k

/-- Whether one of these registers has an outstanding result. -/
def outstanding (warp : Warp) (regs : List Nat) : Bool :=
  regs.any fun n => warp.pending.any fun p => p.regs.any fun x => x.n == n

/-- Whether a register the word names as a source has an outstanding result (R265). -/
def readsPending (warp : Warp) (f : LaneForm) (w : Strip) : Bool := outstanding warp (Form.readRegs f w)

/-- The lanes of P that read a poisoned word as an operand (R329). -/
def genericDeaths (cx : Cx) : LaneMask :=
  let m (g : SrcForm) (x : SrcField) : LaneMask :=
    if g.used then (List.range g.span).foldl (fun m k => m ||| (operand cx.s.draws cx.s.warp x k).poison) 0#32 else 0#32
  let d := if cx.f.dRead == .unchecked then 0#32
    else (Form.dstRegs cx.f cx.w).foldl (fun m n => m ||| (cx.s.warp.reg n).poison) 0#32
  cx.p &&& (m cx.f.a cx.w.a ||| (if Form.useB cx.f cx.w then m cx.f.b cx.w.b else 0#32)
    ||| (if cx.f.overlay then 0#32 else m cx.f.c cx.w.c) ||| d)

/-- The lanes that die where a word reads its operands from the lowest lane of P (R216, R247): each lowest lane in
turn, until one is clean in all of `bad`. -/
def lowPrefix (p bad : LaneMask) : LaneMask :=
  match (LaneMask.lanes p).find? (fun i => !bad.has i) with
  | some i => LaneMask.ofPred fun k => p.has k && decide (k < i)
  | none => p

def lowDeaths (cx : Cx) : LaneMask := lowPrefix cx.p (genericDeaths cx)

/-- Commit points of a redundant group by their word (R333). -/
def commitPoint : Instr → Bool
  | .atom _ | .cas _ | .red _ | .fence _ | .fenceX _ | .barArrive _ | .barExpect _ | .launch _ => true
  | .qPush _ | .qPop _ | .ladEsc _ | .ladRes _ | .ladDoneOpen _ | .ladDoneTest _ => true
  | .cpTile _ | .mxDrainMem _ | .mxLoadw _ | .mxSwap _ | .mxClear _ | .mxClearRel _ | .mxStream _ | .tmaskAcc _ => true
  | .fragClaim _ | .fragSeal _ | .specOpen _ | .specCommit _ | .specSquash _ | .specStat _ => true
  | .kvStage _ | .kvCommit _ | .sampArm _ | .csrw _ | .trap _ | .rgCkpt _ => true
  | _ => false

/-- Commit points whose action both copies perform for themselves: array commands, and words that act on the copy's
own warp alone (R333). -/
def ownAction : Instr → Bool
  | .mxLoadw _ | .mxSwap _ | .mxClear _ | .mxClearRel _ | .mxStream _ | .tmaskAcc _ => true
  | .fence _ | .fenceX _ | .csrw _ | .trap _ | .rgCkpt _ => true
  | _ => false

/-- Whether the team's compare buffer holds entries of a warp (R334). -/
def holdsEntries (s : State) (id : Nat) : Bool :=
  s.teams.any fun t => t.held.any fun e => e.warp == id

/-- The slack limit of a leading copy (R334). -/
def atSlack (w : Warp) : Bool := match w.rg with | some g => !g.trailing && decide (512 ≤ g.lead) | none => false

/-- The outcome of the checks. -/
inductive Issue where
  | noSplit
  /-- the word does not reach its body: a trap, a stall, a wait -/
  | stop (s : State)
  | go (cx : Cx)

def readCx (s : State) (w : Strip) (f : LaneForm) (sp : Split) (p : LaneMask) : Cx :=
  { s := s, w := w, f := f, sp := sp, p := p
    a := if f.a.used then operand s.draws s.warp w.a 0 else Operand.none
    b := if w.ib then uOperand (immWord f.op w) w.fmt
         else if f.b.used then operand s.draws s.warp w.b 0 else Operand.none
    c := if f.c.used && !f.overlay then operand s.draws s.warp w.c 0 else Operand.none }

/-- The lanes named by BUDGET: those that take part, the whole split where none does (R71, R86). -/
def orMask (p m : LaneMask) : LaneMask := if p = 0#32 then m else p

/-- The back queue a word pushes to (R20), full and not discarding (R141). -/
def backFull (warp : Warp) (f : LaneForm) (w : Strip) (p : LaneMask) : Bool :=
  f.dUsed && decide (248 ≤ w.d.toNat) && p != 0#32 && warp.acc != .halted
    && decide (16 ≤ (warp.bq.getD (w.d.toNat - 248) []).length)

/-- The checks of a lane word up to its body. -/
def laneIssue (i : Instr) (o : LaneOpts) (s : State) : Issue :=
  match s.split?, laneForm i with
  | none, _ => .noSplit
  | _, none => .noSplit
  | some sp, some (f, w) =>
    let m := sp.mask
    let p := takingPart s.warp sp f w
    if !formLegal f w || o.illegal s sp w then .stop (takeTrap s (wholeTrap Code.illegal m))
    else if !((Form.readRegs f w ++ Form.dstRegs f w).all (inAlloc s.warp.units)) then
      .stop (takeTrap s (wholeTrap Code.budget (orMask p m)))
    else if atSlack s.warp && !((s.warp.rg.map (·.granted)).getD false) then
      .stop (if holdsEntries s s.warp.id then s.setSplit (some { sp with wait := .commit }) else s)
    else if (namedQueues f w).any (fun q => (s.warp.fq.getD q []).isEmpty) || backFull s.warp f w p then
      .stop (s.setSplit (some { sp with wait := .queue }))
    else if o.budget (readCx s w f sp p) != 0#32 then
      .stop (takeTrap s (wholeTrap Code.budget (o.budget (readCx s w f sp p))))
    else if p != 0#32 && (decide (11 ≤ w.fmt.toNat) || !tagsOk s.draws s.warp f w || o.badFormat (readCx s w f sp p)) then
      .stop (takeTrap s (wholeTrap Code.format m))
    else
      match o.early (readCx s w f sp p) with
      | some t => .stop (takeTrap s t)
      | none =>
        let reads := o.reads (readCx s w f sp p)
        let impure := match s.warp.frag with
          | none => false
          | some fr => sp.ts.isNone &&
            (!f.pure || !(namedQueues f w).isEmpty || (!f.exempt && !(readsClean fr i f w && reads.all fr.cleanR.contains)))
        if impure then .stop (takeTrap s (wholeTrap Code.impure m))
        else if s.warp.frag.isSome && (readsPending s.warp f w || outstanding s.warp reads) then
          .stop (modWarp s fun w => { w with parked := true })
        else
          let cx := readCx s w f sp p
          let die := (o.deaths.getD genericDeaths) cx
          if die != 0#32 then
            if s.warp.rg.isSome then .stop (noteDeath s die)
            else
              let s := killLanes s die sp.pc
              match s.split? with
              | none => .stop s
              | some sp' =>
                if sp'.id != sp.id || sp'.pc != sp.pc || sp'.mask != sp.mask &&& ~~~ die || s.warp.ended.isSome then .stop s
                else .go (readCx s w f sp' (p &&& ~~~ die))
          else if s.warp.rg.isSome && commitPoint i && !((s.warp.rg.map (·.granted)).getD false) then
            .stop (s.setSplit (some { sp with wait := .commit }))
          else .go cx

/-! ## Retirement -/

def sigKind (op : BitVec 10) : SigKind :=
  let n := op.toNat
  if n = 0x185 then .seedJoin
  else if 0x180 ≤ n && n ≤ 0x188 then .seed
  else if n = 0x380 || n = 0x381 then .keep
  else .absorb

/-- Pop each named queue once (R19). -/
def popQueues (w : Warp) (qs : List Nat) : Warp :=
  qs.foldl (fun w q => { w with fq := w.fq.setIfInBounds q ((w.fq.getD q []).drop 1) }) w

/-- Push a result into a back queue; lanes outside the mask contribute 0 (R20); discarded after HALTS (R141). -/
def pushBack (w : Warp) (k : Nat) (x : RegWrite) : Warp :=
  if w.acc = .halted then w
  else
    let e : BEntry := ⟨laneIds.map (fun i => if x.mask.has i then x.val.word i else 0#32), x.mask, x.tag, x.poison &&& x.mask⟩
    { w with bq := w.bq.setIfInBounds k (w.bq.getD k [] ++ [e]) }

/-- Clean bits after a retired word (R265). -/
def updateClean (w : Warp) (allClean : Bool) (regs : List RegWrite) (preds : List PredWrite) : Warp :=
  { w with frag := w.frag.map fun fr =>
    let need := fr.mask &&& w.alive
    let step (l : List Nat) (n : Nat) (m : LaneMask) : List Nat :=
      if allClean && (need &&& ~~~ m == 0#32 || l.contains n) then (if l.contains n then l else n :: l)
      else l.filter (· != n)
    { fr with
      cleanR := regs.foldl (fun l x => step l x.n x.mask) fr.cleanR
      cleanP := preds.foldl (fun l x => step l x.k x.mask) fr.cleanP } }

/-- The registers released by retired last-read marks (R82): those of the marked sources that the word does not
write. The A of a SHFL with T = 1 names the partner's register; a mark on it releases the executing warp's own register
of that number: DESIGN CHOICE (log 86). -/
def releasedRegs (f : LaneForm) (w : Strip) (written : List Nat) : List Nat :=
  let m (b : Nat) (g : SrcForm) (x : SrcField) : List Nat :=
    if w.lr.getLsbD b then Form.srcRegs { g with span := max g.span 1 } x else []
  (m 2 f.a w.a ++ (if Form.useB f w then m 1 f.b w.b else []) ++ (if f.overlay then [] else m 0 f.c w.c)).filter
    fun n => !written.contains n

def releaseReg (w : Warp) (n : Nat) : Warp := { w with regs := Tab.put w.regs n { w.reg n with released := true } }

/-- Whether a word is eligible for opportunistic replay (R327); one that names a queue is variable-latency (R74). -/
def replayable (f : LaneForm) (w : Strip) : Bool :=
  let n := f.op.toNat
  decide (1 ≤ n ∧ n ≤ 0x107) && n != 0x01F && n != 0x020 && !f.var && (namedQueues f w).isEmpty

/-- An operand after its pattern, as a register; one whose lanes differ (R75) is G, but in SHAPE. -/
def Operand.reg (o : Operand) (keep : Bool) : LaneReg :=
  let val : LaneVal := if o.shape = 0 then .u o.base else if o.shape = 1 then .a o.base o.stride else .g o.ws
  let same := keep || laneIds.all fun i => val.word i == o.word i
  { LaneReg.launch with val := if same then val else .g o.ws, tag := o.tag, side := (List.range 8).map fun b => o.side.getD (4 * b) sideZero }

/-- The operands of a source field. -/
def Cx.replayRegs (cx : Cx) (g : SrcForm) (x : SrcField) : List LaneReg :=
  if g.used then (List.range g.span).map fun k => (operand cx.s.draws cx.s.warp x k).reg (cx.f.op == 0x107#10) else []

/-- Enter a retired word into its partition's replay queue of 16 (R327). -/
def enterReplay (s : State) (i : Instr) (cx : Cx) (regs : List RegWrite) : State :=
  if s.warp.sigctl.getLsbD 2 && replayable cx.f cx.w && !(regs.filter (fun x => decide (x.n < 248))).isEmpty then
    modCore s s.warp.coreIx fun c =>
      let part := s.warp.slot / 8
      let e : ReplayEntry := {
        warp := s.warp.id, grid := s.warp.grid, cluster := s.warp.cluster, line := lineIndex s s.warp, split := cx.sp.id
        addr := cx.sp.pc, word := i, a := cx.replayRegs cx.f.a cx.w.a
        b := if Form.useB cx.f cx.w then cx.replayRegs cx.f.b cx.w.b else []
        c := if cx.f.overlay then [] else cx.replayRegs cx.f.c cx.w.c
        preds := cx.s.warp.preds, results := regs, mask := cx.p, left := cx.p }
      { c with replay := c.replay.set part ((e :: c.replay.getD part []).take 16) }
  else s

/-- Count a retired lane word for the redundant group (R334, R336). -/
def countRg (s : State) (d : Option Nat) : State :=
  match s.warp.rg with
  | none => s
  | some g =>
    if g.trailing then
      let armed := match g.inject with | some (n, _, _) => decide (n = g.injCount + 1) | none => false
      let s := modWarp s fun w => { w with rg := some { g with
        lastD := d
        injCount := if g.inject.isSome then g.injCount + 1 else g.injCount } }
      let s := modWarpId s g.partner fun w => { w with rg := w.rg.map fun h => { h with lead := h.lead - 1 } }
      if armed then { s with agenda := .rginjFire :: s.agenda } else s
    else modWarp s fun w => { w with rg := some { g with lead := g.lead + 1, lastD := d } }

/-- Under which name a core counts a warp's instructions in a wear period (R342). -/
def wearKey (w : Warp) : Nat := w.ctx * 2 ^ 32 + w.grid

/-- A word that reads the returned status of a SAMP.ARM: its split knows that the context is armed (R316). -/
def noteStatus (s : State) (cx : Cx) : State :=
  let reads (f : FilterCtx) : Bool :=
    f.armer == 2 * cx.s.warp.id && f.split == cx.sp.id && cx.s.filters.any (·.id == f.id)
      && (Form.readRegs cx.f cx.w).contains f.reg && !(cx.s.warp.pending.any fun p => p.regs.any (·.n == f.reg))
  { s with filters := s.filters.map fun f => if reads f then { f with read := true } else f }

/-- Bookkeeping of every retired lane word: watchdog, counts, SW (R30, R75, R242, R342). -/
def bumpRetired (s : State) (cx : Cx) : State :=
  let s := noteStatus s cx
  let s := modCore s s.warp.coreIx fun c =>
    { c with issued := Tab.put c.issued (wearKey s.warp) (Tab.getD c.issued (wearKey s.warp) 0 + 1) }
  modWarp s fun w => { w with
    retired := w.retired + 1
    watch := s.cycle
    parked := w.parked || (cx.w.sw && !w.pending.isEmpty) }

/-- What a redundant group counts of a retired lane word. -/
def groupRetired (s : State) (cx : Cx) : State :=
  if s.warp.rg.isNone then s
  else afterGrant (traceWord (countRg s (if cx.f.dUsed && decide (cx.d < 248) then some cx.d else none)) cx.sp.pc cx.sp.mask)

def countRetired (s : State) (cx : Cx) : State := groupRetired (bumpRetired s cx) cx

/-- Deliver results of a once-performed word to the trailing copy, with what it changed in the warp (R333). -/
def deliverMail (s : State) (i : Instr) (p : Pending) : State :=
  match s.warp.rg with
  | some g =>
    if !g.trailing && commitPoint i && !ownAction i then
      let lead := s.warp
      modWarpId s g.partner fun w => { w with
        rg := w.rg.map fun h => { h with mail := h.mail ++ [p] }
        epoch := lead.epoch
        items := lead.items
        frag := match w.frag, lead.frag with
          | some fr, some fl => some { fr with
              claimed := fl.claimed, settled := fl.settled, reservation := fl.reservation }
          | _, _ => none }
    else s
  | none => s

/-- A result joins the outstanding ones: it is a later write of its registers for those issued before it (R75). -/
def Warp.promise (w : Warp) (p : Pending) : Warp :=
  { w with pending := w.pending.map (fun q => p.regs.foldl (fun q x => noteOver x.n x.mask q) q) ++ [p] }

/-- Write the results of a word: back queues at once, variable-latency results when they return (R74, R75). A word that
names a queue in a source field is a variable-latency one. -/
def writeResults (s : State) (d : Done) (queue : Bool) (regs : List RegWrite) (p : Pending) : State :=
  let back := d.regs.filter fun x => decide (248 ≤ x.n)
  let s := modWarp s fun w => back.foldl (fun w x => pushBack w (x.n - 248) x) w
  if ((d.var || queue) && !(regs.isEmpty && d.preds.isEmpty)) || d.holds || d.branch.isSome || d.epoch.isSome || d.sub.isSome then
    modWarp s fun w => w.promise p
  else modWarp s fun w => d.preds.foldl (fun w x => w.writePred x) (regs.foldl (fun w x => w.writeNow x) w)

/-- Whether a retiring word has read clean registers alone: words that pass the test have, and an exempt one is
asked (R265). -/
def cleanSources (w : Warp) (cx : Cx) : Bool :=
  !cx.f.exempt || (match w.frag with | some fr => (Form.readRegs cx.f cx.w).all fr.cleanR.contains | none => true)

/-- Retire a lane word (R82). -/
def retire (i : Instr) (cx : Cx) (d : Done) : State :=
  let regs := d.regs.filter fun x => decide (x.n < 248)
  let pend (x : RegWrite) : RegWrite := if x.mask = d.s.warp.alive then x else { x with val := .lanes (laneIds.map x.val.word) }
  let p : Pending := ⟨regs.map pend, d.preds, [], d.branch, d.epoch, if d.holds then some d.s.slotB else none, d.sub⟩
  let s := modWarp d.s fun w => popQueues w (namedQueues cx.f cx.w)
  let s := writeResults s d (!(namedQueues cx.f cx.w).isEmpty) regs p
  let s := modWarp s fun w => if cx.sp.ts.isSome then w else updateClean w (cleanSources w cx) regs d.preds
  let s := modWarp s fun w => (releasedRegs cx.f cx.w (regs.map (·.n))).foldl releaseReg w
  let s := deliverMail s i { p with regs := d.regs.map pend }
  let s := s.modSplit fun sp => { sp with
    pc := d.next.getD cx.next
    sig := if sp.ts.isSome then sp.sig else sigAfter (sigKind cx.f.op) cx.f.op sp.sig sp.mask
    only := none
    wait := if d.holds then .claim else .none
    issued := s.draws }
  countRetired (enterReplay s i cx regs) cx

/-- The results of the lanes that completed, written now: registers, back-queue entries, predicates (R204, log 22). -/
def partWrite (d : Done) (w : Warp) : Warp :=
  let some_ := d.regs.filter fun x => x.mask != 0#32
  let w := (some_.filter fun x => decide (248 ≤ x.n)).foldl (fun w x => pushBack w (x.n - 248) x) w
  d.preds.foldl (fun w x => w.writePred x) ((some_.filter fun x => decide (x.n < 248)).foldl (fun w x => w.writeNow x) w)

/-- The lanes of a partial access are written now and the trap names the others (R204). -/
def retirePart (cx : Cx) (d : Done) (t : TrapInfo) : State :=
  if !cx.s.warp.pending.isEmpty then modWarp cx.s fun w => { w with parked := true }
  else
    let s := modWarp d.s (partWrite d)
    takeTrap (s.modSplit fun sp => { sp with only := some t.replay }) t

/-- The commit point at which a copy stands is used up (R333). -/
def ungrant (s : State) : State := modWarp s fun w => { w with rg := w.rg.map fun g => { g with granted := false, grant := none } }

/-- A trap of a once-performed word in the leading copy is the trailing copy's as well (R333): its split at the same
word takes it, with the results of the lanes that completed. -/
def mirrorTrap (i : Instr) (cx : Cx) (d : Option Done) (t : TrapInfo) (s : State) : State :=
  match cx.s.warp.rg with
  | some g =>
    if !g.trailing && commitPoint i && !ownAction i then
      onWarp s g.partner fun s =>
        let here (o : Option Split) : Bool := (o.map fun sp => sp.pc == cx.sp.pc && sp.mask == cx.sp.mask).getD false
        if here s.warp.slotA || here s.warp.slotB then
          let b := s.slotB
          let s := { s with slotB := !here s.warp.slotA }
          let s := s.modSplit fun sp => { sp with wait := .none }
          let s := match d with
            | some d => modWarp s (partWrite d)
            | none => s
          { ungrant (takeTrap s t) with slotB := b }
        else s
    else s
  | none => s

/-- A control word has moved the splits: it retires, and with it its last-read marks (R82). -/
def retireMoved (cx : Cx) (s : State) : State :=
  countRetired (modWarp s fun w => (releasedRegs cx.f cx.w []).foldl releaseReg (popQueues w (namedQueues cx.f cx.w))) cx

/-- The end of a body. -/
def finish (i : Instr) (cx : Cx) : LaneRes → State
  | .done d => retire i cx d
  | .trap t => mirrorTrap i cx none t (ungrant (takeTrap cx.s t))
  | .part d t => mirrorTrap i cx (some d) t (ungrant (retirePart cx d t))
  | .hold s => s
  | .moved s => retireMoved cx s

/-- A word whose action the leading copy has performed: the trailing copy takes the delivered results (R333). -/
def takeMail (i : Instr) (cx : Cx) : State :=
  match cx.s.warp.rg with
  | some g =>
    match g.mail with
    | p :: rest =>
      let s := modWarp cx.s fun w => { w with rg := some { g with mail := rest } }
      retire i cx { s := s, regs := p.regs, preds := p.preds, var := true, branch := p.branch, epoch := p.epoch, holds := p.holds.isSome, sub := p.sub }
    | [] => cx.s
  | none => cx.s

/-- Whether the word is a once-performed one in the trailing copy. -/
def takesMail (i : Instr) (s : State) : Bool := s.warp.trailing && commitPoint i && !ownAction i

/-- Where the leading copy has performed the word, its checks have passed, and what the word changed in the warp is
delivered already: the trailing copy does not check that state again (R333). -/
def mailOpts (i : Instr) (o : LaneOpts) (s : State) : LaneOpts :=
  if takesMail i s && (s.warp.rg.any fun g => !g.mail.isEmpty) then { reads := o.reads, deaths := o.deaths, always := o.always }
  else o

/-- Issue one lane word with its body. -/
def laneWord (i : Instr) (o : LaneOpts) (body : Cx → LaneRes) (s : State) : Result :=
  match laneIssue i (mailOpts i o s) s with
  | .noSplit => .fault .noSplit
  | .stop s => .next s
  | .go cx =>
    if takesMail i cx.s then .next (takeMail i cx)
    else if cx.p = 0#32 && !o.always then .next (retire i cx { s := cx.s })
    else .next (finish i cx (body cx))

/-! ## Results of compute words -/

/-- A result of the shape that R31 gives it under a full mask. Where an outstanding result has made the operands' lanes
differ (R75, log 71), the lanes keep their own words. -/
def Cx.shaped (cx : Cx) (v : WriteVal) (g : Nat → Word) : WriteVal :=
  if cx.full && (LaneMask.lanes cx.p).all fun i => v.word i == g i then v else .lanes (laneIds.map g)

/-- The shape and words of a result computed lane by lane (R31): U when the mask is full and every operand is U. -/
def Cx.mapLanes (cx : Cx) (allU : Bool) (g : Nat → Word) : WriteVal :=
  if allU then cx.shaped (.uniform (g cx.lane0)) g else .lanes (laneIds.map g)

/-- Whether the operands a word uses are all U. -/
def Cx.allU (cx : Cx) : Bool :=
  (!cx.f.a.used || cx.a.shape == 0) && (cx.w.ib || !cx.f.b.used || cx.b.shape == 0)
    && (cx.f.overlay || !cx.f.c.used || cx.c.shape == 0)

/-- A retired word that writes one register lane by lane. -/
def Cx.put (cx : Cx) (tag : FmtTag) (g : Nat → Word) : LaneRes :=
  .done { s := cx.s, regs := [mkWrite cx.d (cx.mapLanes cx.allU g) cx.p tag] }

/-- A retired word that writes one value to every lane of P: U under a full mask (R31). -/
def Cx.putU (cx : Cx) (tag : FmtTag) (v : Word) : LaneRes :=
  .done { s := cx.s, regs := [mkWrite cx.d (.uniform v) cx.p tag] }

/-- A retired word that writes a predicate in the lanes of P. -/
def Cx.putPred (cx : Cx) (k : Nat) (g : Nat → Bool) : LaneRes :=
  .done { s := cx.s, preds := [⟨k, LaneMask.ofPred g, cx.p⟩] }

/-- A compute word of one result. -/
def laneMap (i : Instr) (g : Cx → Nat → Word) (s : State) : Result :=
  laneWord i {} (fun cx => cx.put cx.w.fmt (g cx)) s

end Sys2Proof.Machine
end

