-- ==== Sys2Proof/Machine/Control.lean ====
section
/-! DEFINITION. Control instructions (R170 to R178), LMARK (R22), the trampoline jump (R233), and the events that move
splits: quantum rotation (R28), the retirement of a parked LMARK (R22). -/

namespace Sys2Proof.Machine

/-! ## Shared operations -/

/-- NEXT + 12 × a displacement (R170). -/
def laneTarget (next : DWord) (disp : BitVec 26) : DWord := next + 12#64 * disp.signExtend 64

/-- The signature a split of this mask continues with after a seeding word (R322, R323). -/
def Cx.seed (cx : Cx) (m : LaneMask) : Word := if cx.sp.ts.isSome then cx.sp.sig else sigSeed m

/-- The executing split continuing at an address with some of its lanes. -/
def Cx.side (cx : Cx) (join : Option Nat) (g : DWord × LaneMask) : Split :=
  { cx.sp with
    pc := g.1, mask := g.2, sig := cx.seed g.2, join := join, only := none, wait := .none
    entered := cx.s.cycle, issued := cx.s.draws }

/-- The sides of a divided split: the first goes on as the split itself, the others are numbered from n + 1. -/
def Cx.sides (cx : Cx) (join : Option Nat) (n : Nat) (groups : List (DWord × LaneMask)) : List Split :=
  groups.zipIdx.map fun p => { cx.side join p.1 with id := if p.2 = 0 then cx.sp.id else n + p.2 }

/-- Put sides into the machine: the first in this slot, the next in the free slot, the rest on the stack in
descending order of lowest lane (R24). -/
def placeSides (w : Warp) (slotB : Bool) (sides : List Split) : Warp :=
  match sides with
  | [] => w
  | first :: rest =>
    let held := ((w.slot? slotB).map (·.entered)).getD first.entered
    let w := w.setSlot slotB (some { first with entered := held })
    match rest, w.slot? (!slotB) with
    | second :: more, none => more.reverse.foldl Warp.pushReady (w.setSlot (!slotB) (some second))
    | l, _ => l.reverse.foldl Warp.pushReady w

/-- A divergence with a join record (R24): `groups` in the order in which they are placed. -/
def Cx.diverge (cx : Cx) (w : Warp) (j : DWord) (groups : List (DWord × LaneMask)) : Warp :=
  let id := w.nextJoin
  let w := { w with nextJoin := id + groups.length, stack := w.stack ++ [.join ⟨id, j, cx.sp.mask, cx.sp.join⟩] }
  placeSides w cx.s.slotB (cx.sides (some id) id groups)

/-- The lanes of a mask grouped by an address, in ascending order of lowest lane. -/
def groupLanes (m : LaneMask) (t : Nat → DWord) : List (DWord × LaneMask) :=
  ((LaneMask.lanes m).map t).eraseDups.map fun a => (a, LaneMask.ofPred fun i => m.has i && t i == a)

/-- Continue by groups: no divergence for one group. -/
def Cx.spread (cx : Cx) (w : Warp) (j : DWord) (groups : List (DWord × LaneMask)) : Warp :=
  match groups with
  | [g] => placeSides w cx.s.slotB [cx.side cx.sp.join g]
  | gs => cx.diverge w j gs

/-- DIVSTACK where the warp that a control word would leave needs a 65th entry (R27). -/
def divstack (cx : Cx) (w : Warp) : Option TrapInfo :=
  if 64 < w.stackUse then some (wholeTrap Code.divstack cx.sp.mask) else none

/-- A control word: the warp it leaves, if it traps neither DIVSTACK nor otherwise. -/
def controlWord (i : Instr) (after : Cx → Warp) : State → Result :=
  laneWord i { always := true, early := fun cx => divstack cx (after cx) } fun cx =>
    .moved { cx.s with warp := after cx }

/-! ## BRA, BRX (R171, R172) -/

/-- The warp after a BRA. -/
def braAfter (w : Strip) (cx : Cx) : Warp :=
  let t := LaneMask.ofPred fun i => cx.sp.mask.has i && cx.s.warp.predLane (cx.x 2 0) i != cx.xb 3
  let target := laneTarget cx.next w.tdisp
  if t = cx.sp.mask then cx.spread cx.s.warp 0#64 [(target, t)]
  else if t = 0#32 then cx.spread cx.s.warp 0#64 [(cx.next, cx.sp.mask)]
  else cx.spread cx.s.warp (laneTarget cx.next w.jdispBra) [(cx.next, cx.sp.mask &&& ~~~ t), (target, t)]

/-- BRA (R171). -/
def execBra (w : Strip) : State → Result := controlWord (.bra w) (braAfter w)

/-- Why the word at an address cannot be fetched, with the caches as the checks leave them. -/
def fetchCheck (w : Warp) (s : State) (t : DWord) : Option AccErr × State :=
  if t.toNat % 4 ≠ 0 then (some .align, s)
  else match fetchLane s w t with
    | (.error e, s) => (some e, s)
    | (.ok _, s) => (none, s)

/-- Order of the conditions a target can meet (R87). -/
def targetRank : AccErr → Nat
  | .align => 0
  | .prot => 1
  | .page => 2
  | .fabric => 3
  | _ => 4

/-- Check the targets of lanes: each lane's failure, the caches as they are left. -/
def targetErrors (w : Warp) (t : Nat → DWord) : List Nat → State → List (Nat × AccErr) × State
  | [], s => ([], s)
  | i :: rest, s =>
    let (e, s) := fetchCheck w s (t i)
    let (l, s) := targetErrors w t rest s
    (e.toList.map (i, ·) ++ l, s)

/-- The trap of lanes whose targets fail: the first condition in the order of R87 and its lanes. -/
def targetTrap (t : Nat → DWord) (errs : List (Nat × AccErr)) : Option TrapInfo :=
  ([AccErr.align, .prot, .page, .fabric].find? fun e => errs.any (·.2 == e)).map fun e =>
    let ls := (errs.filter (·.2 == e)).map (·.1)
    laneTrap e.trap 3 0#32 (ls.map fun i => (i, t i))

/-- A branch to per-lane addresses: targets are checked, then the warp moves. -/
def targetWord (i : Instr) (o : LaneOpts) (after : Cx → Warp) : State → Result :=
  laneWord i { o with always := true, early := fun cx => divstack cx (after cx) } fun cx =>
    let (errs, s) := targetErrors cx.s.warp cx.pairA (LaneMask.lanes cx.sp.mask) cx.s
    match targetTrap cx.pairA errs with
    | some t => .hold (takeTrap s t)
    | none => .moved { s with warp := after cx }

/-- The warp after a BRX. -/
def brxAfter (w : Strip) (cx : Cx) : Warp :=
  cx.spread cx.s.warp (laneTarget cx.next w.disp57) (groupLanes cx.sp.mask cx.pairA)

/-- BRX (R172). -/
def execBrx (w : Strip) : State → Result := targetWord (.brx w) {} (brxAfter w)

/-! ## Calls and returns (R173 to R176) -/

/-- The warp after a CALL. -/
def callAfter (w : Strip) (cx : Cx) : Warp :=
  cx.spread (cx.s.warp.pushRet cx.next cx.sp.mask) 0#64 [(laneTarget cx.next w.tdisp, cx.sp.mask)]

/-- CALL (R174). -/
def execCall (w : Strip) : State → Result := controlWord (.call w) (callAfter w)

/-- Whether an aligned, fetchable target holds no ENTRY within the allocation (R175). -/
def overBudget (s : State) (w : Warp) (t : DWord) : Bool :=
  decide (t.toNat % 4 = 0) &&
    match (fetchLane s w t).1 with
    | .ok (.entry e) => decide (w.units < Form.xf e 4 0)
    | .ok _ => true
    | .error _ => false

/-- The warp after a CALLX. -/
def callxAfter (cx : Cx) : Warp :=
  cx.spread (cx.s.warp.pushRet cx.next cx.sp.mask) cx.next (groupLanes cx.sp.mask cx.pairA)

/-- CALLX (R175). -/
def execCallx (w : Strip) : State → Result :=
  targetWord (.callx w)
    { budget := fun cx => LaneMask.ofPred fun i => cx.sp.mask.has i && overBudget cx.s cx.s.warp (cx.pairA i) }
    callxAfter

/-- The warp after a RET: no join record is made. -/
def retAfter (cx : Cx) : Warp :=
  let link (i : Nat) : DWord := (cx.s.warp.linkOf i).getD 0#64
  let groups := groupLanes cx.sp.mask link
  let w := cx.s.warp.popLinks cx.sp.mask
  placeSides { w with nextJoin := w.nextJoin + groups.length } cx.s.slotB (cx.sides cx.sp.join w.nextJoin groups)

/-- DIVSTACK, then RETEMPTY, of a RET (R87). -/
def retEarly (cx : Cx) : Option TrapInfo :=
  let linked := (LaneMask.lanes cx.sp.mask).all fun i => (cx.s.warp.linkOf i).isSome
  (divstack cx (retAfter cx)).or (if linked then none else some (wholeTrap Code.retempty cx.sp.mask))

/-- RET (R176). -/
def execRet (w : Strip) : State → Result :=
  laneWord (.ret w) { always := true, early := retEarly } fun cx => .moved { cx.s with warp := retAfter cx }

/-! ## RECONV, ENTRY, EXIT, YIELD (R25, R177) -/

/-- The record a RECONV at this word waits at. -/
def Cx.joinHere (cx : Cx) : Option JoinRec :=
  (cx.sp.join.bind cx.s.warp.joinRec).filter fun r => r.j == cx.sp.pc

/-- The warp after a RECONV. -/
def reconvAfter (cx : Cx) : Warp :=
  match cx.joinHere with
  | none =>
    let sp := cx.side cx.sp.join (cx.next, cx.sp.mask)
    let sig := if cx.sp.ts.isSome then cx.sp.sig else sigSeedJoin cx.sp.mask
    cx.s.warp.setSlot cx.s.slotB (some { sp with sig := sig, entered := cx.sp.entered })
  | some r =>
    let waiting := { cx.sp with only := none, wait := .none, issued := cx.s.draws }
    let w := { cx.s.warp.setSlot cx.s.slotB none with stack := cx.s.warp.stack ++ [StackEntry.waiting waiting] }
    match w.joinDone r with
    | some m => (w.dropJoin r.id).setSlot cx.s.slotB (some { m with entered := cx.s.cycle })
    | none => w.rotateIn cx.s.slotB cx.s.cycle

/-- DIVSTACK of a split that waits, at a join or in TRET: one that completes the wait needs an entry for itself, since no
stacked split is brought into its slot before the waiting splits merge (R25, R27). -/
def waitStack (cx : Cx) (completes : Bool) (after : Warp) : Option TrapInfo :=
  if completes && cx.s.warp.stackFull 1 then some (wholeTrap Code.divstack cx.sp.mask) else divstack cx after

/-- Whether the executing split's arrival at a record completes the join. -/
def Cx.completesJoin (cx : Cx) (r : JoinRec) : Bool :=
  r.m &&& ~~~ (cx.sp.mask ||| unionMask (cx.s.warp.waitingAt r.id)) == 0#32

/-- RECONV (R25). -/
def execReconv (w : Strip) : State → Result :=
  laneWord (.reconv w)
    { always := true
      early := fun cx => waitStack cx (cx.joinHere.any cx.completesJoin) (reconvAfter cx) } fun cx =>
    .moved { cx.s with warp := reconvAfter cx }

/-- ENTRY (R177). -/
def execEntry (w : Strip) : State → Result :=
  laneWord (.entry w)
    { always := true
      budget := fun cx => if cx.s.warp.units < Form.xf w 4 0 then cx.sp.mask else 0#32 }
    fun cx => .done { s := cx.s }

/-- EXIT (R177): outstanding results are waited for first (R76). -/
def execExit (w : Strip) : State → Result :=
  laneWord (.exit w) { always := true } fun cx =>
    if !cx.s.warp.pending.isEmpty then .hold (modWarp cx.s fun w => { w with parked := true })
    else
      let rest := cx.sp.mask &&& ~~~ cx.p
      let s := cx.s.setSplit (some { cx.side cx.sp.join (cx.next, cx.sp.mask) with
        sig := cx.seed rest, entered := cx.sp.entered })
      .hold (groupRetired (exitLanes (bumpRetired s cx) cx.p cx.sp.pc) cx)

/-- The warp after a YIELD: it rotates out when a ready split is stacked, outside a handler (R28, R226). -/
def yieldAfter (cx : Cx) : Warp :=
  let sp := { cx.side cx.sp.join (cx.next, cx.sp.mask) with entered := cx.sp.entered }
  if cx.s.warp.oldestReady.isSome && cx.sp.ts.isNone then
    let w := (cx.s.warp.setSlot cx.s.slotB none).rotateIn cx.s.slotB cx.s.cycle
    w.pushReady { sp with entered := cx.s.cycle }
  else cx.s.warp.setSlot cx.s.slotB (some sp)

/-- YIELD (R177). -/
def execYield (w : Strip) : State → Result := controlWord (.yield w) yieldAfter

/-! ## Predicates (R178) -/

/-- PSET (R178). -/
def execPset (w : Strip) : State → Result := laneWord (.pset w) {} fun cx =>
  cx.putPred (cx.x 2 0) fun i => if w.ib then w.imm16 != 0#16 else cx.a.word i != 0#32

/-- PMOV (R178). -/
def execPmov (w : Strip) : State → Result := laneWord (.pmov w) {} fun cx =>
  let bit (k i : Nat) : Nat := if cx.s.warp.predLane k i then 1 else 0
  cx.putPred (cx.x 2 0) fun i => (cx.x 12 9).testBit (2 * bit (cx.x 5 3) i + bit (cx.x 8 6) i)

/-! ## LMARK (R22) -/

/-- Whether a 32-bit count X has reached n (R22). -/
def reached (x n : Word) : Bool := (x - n).toNat < 2 ^ 31

/-- Whether an LMARK of this warp can retire: AM has reached LM + 1, or the access stream has halted (R141). -/
def lmarkReady (w : Warp) : Bool := reached w.am (w.lm + 1#32) || w.acc == .halted

/-- The mark that LMARK makes, with what its split hands on. -/
def markLm (s : State) (sp : Split) : State :=
  modWarp s fun w => { w with lm := w.lm + 1#32, lmView := sp.view.pass s.serial }

/-- LMARK (R22). -/
def execLmark (w : Strip) : State → Result :=
  laneWord (.lmark w) { always := true } fun cx =>
    if lmarkReady cx.s.warp then .done { s := markLm cx.s cx.sp }
    else .hold (cx.s.setSplit (some { cx.sp with wait := .lmark }))

/-! ## Trampolines (R233) -/

/-- TRAMP (R233). -/
def execTramp (slot : BitVec 3) (w : Strip) : State → Result :=
  laneWord (.tramp slot w) { always := true } fun cx =>
    .done { s := cx.s, next := some (laneTarget cx.next w.tdisp) }

/-! ## Events that move splits -/

/-- Resident splits that satisfy a test stop waiting: the next issue of each executes its word again. -/
def wakeSplits (s : State) (test : Split → Bool) : State :=
  let f (o : Option Split) : Option Split := o.map fun sp => if test sp then { sp with wait := .none } else sp
  modWarp s fun w => { w with slotA := f w.slotA, slotB := f w.slotB }

/-- The split of a slot stops waiting and the word it waits on is performed, which `run` recognises. -/
def resumeWord (s : State) (b : Bool) (run : Instr → State → Option Result) : State :=
  match s.warp.slot? b with
  | none => s
  | some sp =>
    let s' := { modWarp s fun w => w.setSlot b (some { sp with wait := .none }) with slotB := b }
    match fetchLane s' s'.warp sp.pc with
    | (.ok i, s') =>
      match run i s' with
      | some (.next t) => { t with slotB := s.slotB }
      | _ => { s' with slotB := s.slotB }
    | (_, s') => { s' with slotB := s.slotB }

/-- Whether the split of a slot waits in a given way. -/
def slotWaits (s : State) (b : Bool) (test : SplitWait → Bool) : Bool :=
  ((s.warp.slot? b).map fun sp => test sp.wait).getD false

/-- LMARK of the word a parked split holds. -/
def runLmark : Instr → State → Option Result
  | .lmark w, s => some (execLmark w s)
  | _, _ => none

/-- LMARK_RETIRE (R22): a split parked on LMARK performs it once AM has reached LM + 1. -/
def execLmarkRetire (s : State) : Result :=
  let go (s : State) (b : Bool) : State :=
    if slotWaits s b (· == .lmark) && lmarkReady s.warp then resumeWord s b runLmark else s
  .next (go (go s false) true)

/-- Rotation quantum in cycles (R28). -/
def quantum : Nat := 4096

/-- Whether a resident split may be rotated out by the quantum (R28, R226). A split pushed by the event that brought
the resident in counts as having entered the stack first (log 10). -/
def quantumDue (s : State) (o : Option Split) : Bool :=
  match o, s.warp.oldestReady with
  | some sp, some r => sp.ts.isNone && decide (sp.entered + quantum ≤ s.cycle) && decide (r.entered ≤ sp.entered)
  | _, _ => false

/-- Rotate the split of a slot out and the oldest ready split in (R28). -/
def rotateOut (s : State) (b : Bool) : State :=
  match s.warp.slot? b with
  | some sp => modWarp s fun w => ((w.setSlot b none).rotateIn b s.cycle).pushReady { sp with entered := s.cycle }
  | none => s

/-- QUANTUM_ROTATION (R28): at most one, the split that entered its slot earlier first; of two that entered in one cycle
that of slot A: DESIGN CHOICE (log 10). -/
def execQuantumRotation (s : State) : Result :=
  let a := quantumDue s s.warp.slotA
  let b := quantumDue s s.warp.slotB
  let ea : Nat := (s.warp.slotA.map (·.entered)).getD 0
  let eb : Nat := (s.warp.slotB.map (·.entered)).getD 0
  if a && (!b || decide (ea ≤ eb)) then .next (rotateOut s false)
  else if b then .next (rotateOut s true)
  else .next s

end Sys2Proof.Machine
end

