-- ==== Sys2Proof/Machine/Csr.lean ====
section
/-! DEFINITION. The control registers (R146, R231, R320): their widths and rights, reading and writing them from either
stream (R145, R230), scratchpad mappings (R183, R184) and the invalidation of a page (R240). -/

namespace Sys2Proof.Machine

/-- Rights of one register: width in bits, read and write from the lane stream, read and write from the access
stream. -/
structure CsrInfo where
  width : Nat
  laneR : Bool
  laneW : Bool
  accR : Bool
  accW : Bool
deriving DecidableEq, Repr

/-- Every control register (R146, R231, R320). -/
def csrInfo (n : Nat) : Option CsrInfo :=
  match n with
  | 0x800 => some ⟨57, true, true, true, false⟩   -- TVEC
  | 0x801 => some ⟨3, true, false, false, false⟩  -- THSTAT
  | 0x802 => some ⟨57, true, true, false, false⟩  -- TPC
  | 0x803 => some ⟨32, true, true, false, false⟩  -- TMASK
  | 0x804 => some ⟨32, true, false, false, false⟩ -- TLANES
  | 0x805 => some ⟨32, true, false, false, false⟩ -- TCAUSE
  | 0x806 => some ⟨32, true, true, false, false⟩  -- TREPLAY
  | 0x807 => some ⟨57, true, true, true, true⟩    -- SPILLBASE
  | 0x808 => some ⟨57, true, true, true, true⟩    -- LTSAVE
  | 0x809 => some ⟨6, true, true, true, true⟩     -- WDOG
  | 0x80A => some ⟨64, true, false, true, false⟩  -- FAULTQ
  | 0x80B => some ⟨64, true, false, true, false⟩  -- CYCLE
  | 0x80C => some ⟨32, true, false, true, false⟩  -- WHERE
  | 0x80D => some ⟨20, true, false, false, false⟩ -- PDEPTH
  | 0x80E => some ⟨57, false, true, false, true⟩  -- INVPG
  | 0x810 | 0x811 | 0x812 | 0x813 | 0x814 | 0x815 | 0x816 | 0x817 => some ⟨64, true, true, true, true⟩ -- SPMAPk
  | 0x818 => some ⟨32, true, true, true, false⟩   -- SIGCTL
  | 0x819 => some ⟨57, true, false, true, false⟩  -- SIGTAB
  | 0x81A => some ⟨32, true, false, true, false⟩  -- SIGCNT
  | 0x81B => some ⟨57, true, true, false, false⟩  -- RGBASE
  | 0x81C => some ⟨64, true, true, false, false⟩  -- RGINJ
  | 0x81D => some ⟨64, true, false, true, false⟩  -- WEARCTX
  | 0xC00 => some ⟨32, false, false, true, true⟩  -- QTAG
  | 0xC01 => some ⟨32, false, false, true, false⟩ -- AM
  | 0xC02 => some ⟨32, false, false, true, false⟩ -- LM
  | 0xC03 => some ⟨57, false, false, true, true⟩  -- ATVEC
  | 0xC04 => some ⟨57, false, false, true, true⟩  -- ATPC
  | 0xC05 => some ⟨32, false, false, true, false⟩ -- ACAUSE
  | 0xC06 => some ⟨64, false, false, true, false⟩ -- AFADDR
  | 0xC07 => some ⟨32, false, false, true, true⟩  -- AHSTAT
  | 0xC08 => some ⟨50, false, false, true, false⟩ -- QFILL
  | _ => none

/-- Registers that act on the executing split's trap-state set (R231). -/
def csrPerSplit (n : Nat) : Bool := decide (0x802 ≤ n) && decide (n ≤ 0x806)

/-- PDEPTH: depth and cycles in the section ÷ 128 (R231). -/
def pdepth (w : Warp) (cycle : Nat) : DWord :=
  BitVec.ofNat 64 (w.pd + (if w.pd = 0 then 0 else min ((cycle - w.pdSince) / 128) 65535) * 16)

/-- The value of a register for a warp, and for the set a split holds. -/
def csrGet (s : State) (w : Warp) (ts : Option Nat) (n : Nat) : DWord :=
  let t := match ts with | some k => w.ts k | none => TrapSet.free
  match n with
  | 0x800 => w.tvec
  | 0x801 => match ts with | some k => BitVec.ofNat 64 (1 + 2 * k) | none => 0#64
  | 0x802 => t.tpc
  | 0x803 => zext64 t.tmask
  | 0x804 => zext64 t.tlanes
  | 0x805 => zext64 t.tcause
  | 0x806 => zext64 t.replay
  | 0x807 => w.spillbase
  | 0x808 => w.ltsave
  | 0x809 => zext64 w.wdog
  | 0x80A => w.faultq
  | 0x80B => BitVec.ofNat 64 s.cycle
  | 0x80C => zext64 (whereWord w)
  | 0x80D => pdepth w s.cycle
  | 0x818 => zext64 w.sigctl
  | 0x819 => w.sigtab
  | 0x81A => zext64 w.sigcnt
  | 0x81B => w.rgbase
  | 0x81C => w.rginj
  | 0x81D => wearCtx s w.ctx
  | 0xC00 => zext64 w.qtag
  | 0xC01 => zext64 w.am
  | 0xC02 => zext64 w.lm
  | 0xC03 => w.atvec
  | 0xC04 => w.atpc
  | 0xC05 => zext64 w.acause
  | 0xC06 => w.afaddr
  | 0xC07 => if w.ahstat then 1#64 else 0#64
  | 0xC08 => qfill w
  | _ =>
    if 0x810 ≤ n && n ≤ 0x817 then ((teamById s w.team).map fun t => t.spmap.getD (n - 0x810) 0#64).getD 0#64
    else 0#64

/-- Values that a register's description admits, the whole value being checked (R145, R230; log 11). -/
def csrAdmits (w : Warp) (ts : Option Nat) (n : Nat) (v : DWord) : Bool :=
  match n with
  | 0x800 | 0x808 | 0x81B => v.toNat % 256 == 0
  | 0x809 => v == 0#64 || (decide (16 ≤ v.toNat) && decide (v.toNat ≤ 40))
  | 0x806 => match ts with | some k => (v &&& ~~~ zext64 (w.ts k).replay) == 0#64 | none => false
  | 0x802 | 0x803 => ts.isSome
  | 0x818 => fieldNat v 15 3 == 0 && !v.getLsbD 1
  | 0x81C => fieldNat v 63 31 == 0
  | _ => true

/-- A write of a register that only sets state of the warp. -/
def csrSet (w : Warp) (ts : Option Nat) (n : Nat) (v : DWord) : Warp :=
  let inSet (f : TrapSet → TrapSet) : Warp := match ts with | some k => w.setTs k (f (w.ts k)) | none => w
  match n with
  | 0x800 => { w with tvec := truncTo 57 v }
  | 0x802 => inSet fun t => { t with tpc := truncTo 57 v }
  | 0x803 => inSet fun t => { t with tmask := lo32 v &&& w.alive }
  | 0x806 => inSet fun t => { t with replay := lo32 v }
  | 0x807 => { w with spillbase := truncTo 57 v }
  | 0x808 => { w with ltsave := truncTo 57 v }
  | 0x809 => { w with wdog := BitVec.ofNat 6 v.toNat }
  | 0x818 => { w with sigctl := (w.sigctl &&& 0xFFFF0000#32) ||| (lo32 v &&& 5#32) }
  | 0x81B => { w with rgbase := truncTo 57 v }
  | 0xC00 => { w with qtag := lo32 v }
  | 0xC03 => { w with atvec := truncTo 57 v }
  | 0xC04 => { w with atpc := truncTo 57 v }
  | 0xC07 => { w with ahstat := v.getLsbD 0 }
  | _ => w

/-! ## INVPG (R240) -/

/-- Drop the page of an address from every translation cache of the package. -/
def dropPage (s : State) (ctx : Nat) (va : DWord) : State :=
  { s with tlb := s.tlb.filter fun t => !(t.ctx == ctx && va.toNat / 2 ^ t.size == t.base / 2 ^ t.size) }

/-! ## SPMAP (R183, R184) -/

def spSize (v : DWord) : Nat := 2 ^ fieldNat v 62 57
def spBaseVa (v : DWord) : DWord := BitVec.ofNat 64 (fieldNat v 56 12 * 4096)
def spOff (v : DWord) : Nat := fieldNat v 11 5 * 4096

/-- The encoding checks of an entry in force. -/
def spValid (v : DWord) : Bool :=
  let sz := fieldNat v 62 57
  decide (12 ≤ sz) && decide (sz ≤ 19) && (spBaseVa v).toNat % spSize v == 0 && spOff v % spSize v == 0
    && !v.getLsbD 56 && fieldNat v 3 0 == 0

/-- Whether two mapped ranges overlap in scratchpad. -/
def spOverlap (a b : DWord) : Bool :=
  decide (spOff a < spOff b + spSize b) && decide (spOff b < spOff a + spSize a)

/-- Translate the granules of a mapping, all writable: for each its address, with its physical granule or what fails. -/
def spGrans (w : Warp) (v : PathView) (va : DWord) : Nat → State → List (DWord × Except AccErr Nat) × State
  | 0, s => ([], s)
  | n + 1, s =>
    let (r, s) := placePaged s v w.coreIx w.ctx .write va
    let (l, s) := spGrans w v (va + 4096#64) n s
    ((va, r.map (· / 4096)) :: l, s)

/-- The condition that stops the registration of granules, the first in the order of R87, with its address: a granule that
does not translate, or one that is held at a scratchpad already, by another mapping or by this one. A held granule is
named by the mapping's base: DESIGN CHOICE (log 51). -/
def spStop (s : State) (base : DWord) (l : List (DWord × Except AccErr Nat)) : Option (AccErr × DWord) :=
  let ps := l.filterMap fun x => x.2.toOption
  let fails (e : AccErr) : Option (AccErr × DWord) :=
    (l.find? fun x => match x.2 with | .error f => f == e | .ok _ => false).map fun x => (e, x.1)
  let held : Option (AccErr × DWord) :=
    if (ps.any fun p => s.mapped.any fun g => g.phys == p) || !decide ps.Nodup then some (.prot, base) else none
  (fails .prot).or (held.or ((fails .page).or (fails .fabric)))

/-- Translate the granules of a mapping: their physical granules, or what stops it. -/
def spPlace (w : Warp) (v : PathView) (va : DWord) (n : Nat) (s : State) : Except (AccErr × DWord) (List Nat) × State :=
  let (l, s) := spGrans w v va n s
  (match spStop s va l with | some e => .error e | none => .ok (l.filterMap fun x => x.2.toOption), s)

/-- Copy a granule of backing memory into the scratchpad. -/
def spLoad (s : State) (phys scr : Nat) : State :=
  let src := keysFrom (phys * 4096) 4096
  let bad := src.filter fun k => s.poison.contains (k / 4)
  let s := writeBytes s (PathView.start 0 0) .g 0 (keysFrom scr 4096) (src.map (memGet s.mem)) false
  bad.foldl (fun s k => poisonWord s ((scr + k % 4096) / 4)) s

/-- A write to SPMAPk by a warp: the state, with the condition that stops it and its address (R184). The address of ILLEGAL
is the value written and that of BOUNDS the mapping's base: DESIGN CHOICE (log 51). -/
def spmapPut (s : State) (w : Warp) (v : PathView) (k : Nat) (x : DWord) : Option (BitVec 8 × DWord) × State :=
  match teamById s w.team with
  | none => (none, s)
  | some t =>
    let old := t.spmap.getD k 0#64
    let s := if old.getLsbD 63 then releaseGrans s fun g => g.team == t.id && g.idx == k else s
    let off := old &&& ~~~ (1#64 <<< 63)
    let set (s : State) (y : DWord) : State := modTeam s t.id fun t => { t with spmap := t.spmap.setIfInBounds k y }
    let others := ((List.range 8).filter (· != k)).map fun j => t.spmap.getD j 0#64
    if !x.getLsbD 63 then (none, set s x)
    else if !spValid x || others.any fun y => y.getLsbD 63 && spOverlap x y then (some (Code.illegal, x), set s off)
    else if t.total < spOff x + spSize x then (some (Code.bounds, spBaseVa x), set s off)
    else
      match spPlace w v (spBaseVa x) (spSize x / 4096) (set s off) with
      | (.error (e, va), s) => (some (e.trap, va), s)
      | (.ok ps, s) =>
        let scr (j : Nat) : Nat := spKey t.coreIx (t.base + spOff x + 4096 * j)
        let ix := (List.range ps.length).zip ps
        let s := if x.getLsbD 4 then ix.foldl (fun s p => spLoad s p.2 (scr p.1)) s else s
        (none, set { s with mapped := s.mapped ++ ix.map fun p => ⟨t.id, k, p.2, scr p.1⟩ } x)

/-! ## RGINJ (R336) -/

/-- A write to RGINJ: with ARM set, the trailing copy arms the fault; the leading copy ignores the write. -/
def rginjPut (w : Warp) (v : DWord) : Warp :=
  match w.rg with
  | some g =>
    if g.trailing then
      { w with
        rginj := v
        rg := some { g with
          -- the arming word itself is counted first
          inject := if v.getLsbD 30 then some (fieldNat v 19 0 + 1, fieldNat v 24 20, fieldNat v 29 25) else g.inject
          injCount := if v.getLsbD 30 then 0 else g.injCount } }
    else w
  | none => { w with rginj := v }

/-! ## Writes from either stream -/

/-- The effect of a checked write: the state, with the condition that stops it and its address. -/
def csrPut (s : State) (v : PathView) (ts : Option Nat) (n : Nat) (x : DWord) : Option (BitVec 8 × DWord) × State :=
  if 0x810 ≤ n && n ≤ 0x817 then
    if s.warp.rg.isSome then (some (Code.illegal, 0#64), s) else spmapPut s s.warp v (n - 0x810) x
  else if n = 0x80E then (none, dropPage s s.warp.ctx (truncTo 57 x))
  else if n = 0x81C then (none, modWarp s fun w => rginjPut w x)
  else (none, modWarp s fun w => csrSet w ts n x)

/-- SPMAP_WRITE (R184): a write of the issuing warp's access stream to SPMAPk takes effect, or traps as its CSRWS does. -/
def execSpmapWrite (k : BitVec 3) (v : DWord) (s : State) : Result :=
  match csrPut s (PathView.start (2 * s.warp.id) s.serial) none (0x810 + k.toNat) v with
  | (none, s) => .next s
  | (some (code, va), s) => .next (accessTrap s code 0 0#16 va)

/-- INVPG_WRITE (R240). -/
def execInvpgWrite (va : DWord) (s : State) : Result := .next (csrPut s (PathView.start (2 * s.warp.id) 0) none 0x80E va).2

/-- RGINJ_WRITE (R336). -/
def execRginjWrite (v : DWord) (s : State) : Result := .next (csrPut s (PathView.start (2 * s.warp.id) 0) none 0x81C v).2

end Sys2Proof.Machine
end

