-- ==== Sys2Proof/Machine/Group.lean ====
section
/-! DEFINITION. How a redundant group performs its accesses (R331, R332, R334): the load forward queue, the compare
buffer, and the pairing of the two copies' accesses. -/

namespace Sys2Proof.Machine

/-- How an access names its partner (R332): the stream, and in the lane stream the word and its split mask, in the
access stream its number. -/
structure Pairing where
  access : Bool
  pc : DWord
  mask : LaneMask
  num : Nat
deriving DecidableEq, Repr

/-- The warp of the leading copy for this warp. -/
def leadId (w : Warp) : Nat := match w.rg with | some g => if g.trailing then g.partner else w.id | none => w.id
/-- The leading warp, for placing addresses as it sees them. -/
def leadWarp (s : State) (w : Warp) : Warp := (warpById s (leadId w)).getD w
/-- The leading team, which holds the compare buffer. -/
def leadTeam (s : State) (w : Warp) : Option Team := teamById s (leadWarp s w).team

/-- Whether an access is shared between the copies: paged space and cluster windows (R332). -/
def sharedAddr (w : Warp) (va : DWord) : Bool :=
  w.rg.isSome && match regionOf va with | .local_ _ => false | _ => true

def CmpEntry.pairs (e : CmpEntry) (lead : Nat) (p : Pairing) : Bool :=
  e.warp == lead && e.access == p.access && e.pc == p.pc && e.mask == p.mask && e.num == p.num
def FwdEntry.pairs (e : FwdEntry) (lead : Nat) (p : Pairing) : Bool :=
  e.warp == lead && e.access == p.access && e.pc == p.pc && e.mask == p.mask && e.num == p.num

/-- The byte a warp holds for a key in the compare buffer, the latest entry first (R332). -/
def heldByte (t : Team) (warp key : Nat) : Option Byte :=
  t.held.reverse.findSome? fun e =>
    if e.warp = warp then (e.bytes.reverse.find? (fun b => b.1 == key)).map (·.2) else none

/-- Bytes of a load with the warp's held data over them. -/
def overlayHeld (s : State) (w : Warp) (ks : List Nat) (bs : List Byte) : List Byte :=
  match leadTeam s w with
  | none => bs
  | some t => (ks.zip bs).map fun p => (heldByte t w.id (home s p.1)).getD p.2

/-- Whether the word of a byte carries poison for a load, the warp's held stores over memory: one that is poisoned marks the
word, a good one that covers it clears the mark (R329, R332). -/
def loadPoison (s : State) (w : Warp) (k : Nat) : Bool :=
  let word (e : CmpEntry) : List Nat := (e.bytes.map (·.1)).filter fun b => b / 4 == k / 4
  let step (bad : Bool) (e : CmpEntry) : Bool :=
    if (word e).any e.poison.contains then true else if 4 ≤ (word e).eraseDups.length then false else bad
  match leadTeam s w with
  | none => wordPoisoned s k
  | some t => (t.held.filter fun e => e.warp == leadId w).foldl step (wordPoisoned s k)

/-- Whether a load of these bytes by a warp returns poison. -/
def loadPoisoned (s : State) (w : Warp) (ks : List Nat) : Bool :=
  if w.rg.isNone then anyPoisoned s ks else ks.any (loadPoison s w)

/-- What the exchange with the other copy yields. -/
inductive Exchange (α : Type) where
  /-- the access is complete -/
  | ok (a : α)
  /-- the partner has not made its access, or a queue is full -/
  | wait
  /-- the comparison failed -/
  | mismatch
deriving Repr

/-- Capacity of a warp pair's load forward queue and of a team's compare buffer (R332, R334). -/
def fwdMax : Nat := 64
def heldMax : Nat := 32

/-- A leading copy passes a performed load on. -/
def fwdPush (s : State) (w : Warp) (p : Pairing) (ks : List Nat) (bs : List Byte) : Exchange State :=
  match leadTeam s w with
  | none => .ok s
  | some t =>
    if fwdMax ≤ (t.fwd.filter (·.warp == w.id)).length then .wait
    else .ok (modTeam s t.id fun t => { t with fwd := t.fwd ++ [⟨w.id, p.access, p.pc, p.mask, p.num, ks, bs⟩] })

/-- Remove the oldest forwarded load of a pairing. -/
def dropFwd (lead : Nat) (p : Pairing) : List FwdEntry → List FwdEntry
  | [] => []
  | e :: t => if e.pairs lead p then t else e :: dropFwd lead p t

/-- A trailing copy takes the forwarded value, its address compared. -/
def fwdTake (s : State) (w : Warp) (p : Pairing) (ks : List Nat) : Exchange (List Byte × State) :=
  match leadTeam s w with
  | none => .wait
  | some t =>
    match t.fwd.find? (·.pairs (leadId w) p) with
    | none => .wait
    | some e =>
      if e.keys = ks then .ok (e.bytes, modTeam s t.id fun t => { t with fwd := dropFwd (leadId w) p t.fwd })
      else .mismatch

/-- Twin keys of scratchpad bytes in the trailing copy of a redundant group (R333). -/
def twinKeys (s : State) (w : Warp) (ks : List Nat) : List Nat :=
  if w.rg.isNone then []
  else ks.filterMap fun k =>
    (s.teams.find? fun t => decide (spKey t.coreIx t.base ≤ k) && decide (k < spKey t.coreIx (t.base + t.total))).bind fun t =>
      (t.partner.bind (teamById s)).map fun p => spKey p.coreIx p.base + (k - spKey t.coreIx t.base)

/-- Write a held entry at its home, in the leading copy's order; an entry of a cluster window reaches the object of the
trailing copy's role as well. -/
def commitEntry (s : State) (w : Warp) (e : CmpEntry) : State :=
  let own := 2 * w.id + (if e.access then 1 else 0)
  let paged := e.bytes.filter fun b => b.1 < spBase
  let sp := e.bytes.filter fun b => spBase ≤ b.1
  let twin := (sp.map fun b => (twinKeys s w [b.1]).map fun k => (k, b.2)).flatten
  let v := { PathView.start own s.serial with epoch := w.epoch.map (fun x => (w.req, x)) }
  let put (s : State) (v : PathView) (l : List (Nat × Byte)) : State :=
    match l with
    | [] => s
    | (k, _) :: _ =>
      let bad := e.poison.any fun k => l.any fun b => b.1 == k
      stampStore (writeBytes s v .g 0 (l.map (·.1)) (l.map (·.2)) bad) w.coreIx k
  put (put (put s v paged) { v with epoch := none } sp) { v with epoch := none } twin

/-- Whether a copy is past its partner's agreement on the word it issues (R333). -/
def Warp.grantedNow (w : Warp) : Bool := (w.rg.map (·.granted)).getD false

/-- A leading copy holds a store; one whose word is the commit point is performed, its operands having agreed (R333). -/
def heldPush (s : State) (w : Warp) (p : Pairing) (bytes : List (Nat × Byte)) (poison : List Nat) : Exchange State :=
  match leadTeam s w with
  | none => .ok s
  | some t =>
    if w.grantedNow then .ok (commitEntry s w ⟨w.id, p.access, p.pc, p.mask, p.num, bytes, poison, true⟩)
    else if heldMax ≤ t.held.length then .wait
    else .ok (modTeam s t.id fun t => { t with
      held := t.held ++ [⟨w.id, p.access, p.pc, p.mask, p.num, bytes, poison, false⟩] })

/-- Mark the oldest unpaired entry of a pairing agreed. -/
def agreeHeld (lead : Nat) (p : Pairing) : List CmpEntry → List CmpEntry
  | [] => []
  | e :: t => if e.pairs lead p && !e.agreed then { e with agreed := true } :: t else e :: agreeHeld lead p t

/-- A trailing copy compares its store with the entry. -/
def heldCompare (s : State) (w : Warp) (p : Pairing) (bytes : List (Nat × Byte)) : Exchange State :=
  match leadTeam s w with
  | none => .wait
  | some t =>
    if w.grantedNow then .ok s else
    match t.held.find? (fun e => e.pairs (leadId w) p && !e.agreed) with
    | none => .wait
    | some e =>
      if e.bytes = bytes then .ok (modTeam s t.id fun t => { t with held := agreeHeld (leadId w) p t.held }) else .mismatch

end Sys2Proof.Machine
end

