-- ==== Sys2Proof/Machine/KvAddr.lean ====
section
/-! DEFINITION. Sequences, block tables and KVADDR (R306 to R308): the translation of a token position, read on
path T. -/

namespace Sys2Proof.Machine

/-- A sequence descriptor as read (R306). -/
structure SeqDesc where
  btab : DWord
  nblk : Nat
  rowb : Nat
  len : Nat
  nslot : Nat
  nstop : Nat
  stg : DWord
  stops : List Word
  /-- the reserved bytes are 0 -/
  clean : Bool
deriving DecidableEq, Repr

def parseSeq (bs : List Byte) : SeqDesc :=
  let f (o n : Nat) : Nat := ofBytesLE ((bs.drop o).take n)
  { btab := BitVec.ofNat 64 (f 0 8), nblk := f 8 4, rowb := f 12 4, len := f 16 4, nslot := f 20 1, nstop := f 21 1
    stg := BitVec.ofNat 64 (f 24 8)
    stops := (List.range 4).map fun k => BitVec.ofNat 32 (f (32 + 4 * k) 4)
    clean := f 22 2 == 0 && (bs.drop 48).all (· == 0#8) }

/-- ROWB is a power of two from 128 to 65,536. -/
def rowbOk (n : Nat) : Bool := (List.range 10).any fun k => n == 128 * 2 ^ k

/-- Every field lies within its limits and every reserved byte is 0. -/
def SeqDesc.valid (d : SeqDesc) : Bool :=
  d.btab.toNat % 16 == 0 && decide (1 ≤ d.nblk) && decide (d.nblk ≤ 2 ^ 20) && rowbOk d.rowb
    && decide (d.nslot ≤ 64) && decide (d.nstop ≤ 4) && d.stg.toNat % 256 == 0 && d.clean

def SeqDesc.rpp (d : SeqDesc) : Nat := 262144 / d.rowb

/-- Address of descriptor n of a context. -/
def seqAddr (c : Context) (n : Nat) : DWord := c.seqbase + BitVec.ofNat 64 (64 * n)

/-- What a translation of a position yields. -/
inductive KvRes where
  /-- the row's address, its entry's address and block, whether a byte read for it was marked poisoned -/
  | addr (a entry : DWord) (block : Block) (bad : Bool)
  /-- unmapped: the address of the entry that does not map it, and the block -/
  | unmapped (entry : DWord) (block : Block)
  /-- the table itself cannot be read, at this address -/
  | err (e : AccErr) (at_ : DWord)
deriving DecidableEq, Repr

/-- n bytes of a table on path T. -/
def tableRead (s : State) (v : PathView) (w : Warp) (lane : Nat) (va : DWord) (n : Nat) :
    Except (AccErr × DWord) (List Byte × Bool) × State :=
  match placeSpan s { v with epoch := none } w .read va n with
  | (.error e, s) => (.error e, s)
  | (.ok ks, s) => (.ok (readBytes s v .t lane ks, anyPoisoned s ks), s)

/-- The address of a position in the block an entry holds. -/
def kvRow (d : SeqDesc) (e : Nat) (p : Nat) : Option DWord :=
  let b := p / d.rpp
  if e.testBit 96 && e / 2 ^ 64 % 2 ^ 32 == b && e / 2 ^ 97 == 0 && e / 2 ^ 57 % 2 ^ 7 == 0 && e % 2 ^ 18 == 0 then
    some (BitVec.ofNat 64 (e / 2 ^ 18 % 2 ^ 39 * 2 ^ 18 + p % d.rpp * d.rowb))
  else none

/-- What a translation finds in the descriptor: the descriptor, the block and its entry's address, or its end. -/
inductive KvFound where
  | block (d : SeqDesc) (b : Nat) (entry : DWord) (bad : Bool)
  | ended (r : KvRes)
deriving DecidableEq, Repr

/-- The first half of KVADDR (R307): the descriptor and the block of a position. -/
def kvFind (s : State) (v : PathView) (w : Warp) (lane seq p : Nat) : KvFound × State :=
  match Tab.find? s.contexts w.ctx with
  | none => (.ended (.unmapped 0#64 (seq, none)), s)
  | some c =>
    let da := seqAddr c seq
    if c.nseq ≤ seq then (.ended (.unmapped da (seq, none)), s)
    else
      match tableRead s v w lane da 64 with
      | (.error e, s) => (.ended (.err e.1 e.2), s)
      | (.ok (bs, bad), s) =>
        let d := parseSeq bs
        if !d.valid then (.ended (.unmapped da (seq, none)), s)
        else
          let b := p / d.rpp
          (.block d b (d.btab + BitVec.ofNat 64 (16 * (b % d.nblk))) bad, s)

/-- An entry as read on path T: its bytes and their mark, or why it cannot be read. -/
abbrev EntryRead := Except (AccErr × DWord) (List Byte × Bool)

/-- The second half of KVADDR (R307): the position under the entry that was read. -/
def kvFinish (d : SeqDesc) (seq b : Nat) (entry : DWord) (bad : Bool) (p : Nat) (r : EntryRead) : KvRes :=
  match r with
  | .error e => .err e.1 e.2
  | .ok (es, bad') =>
    match kvRow d (ofBytesLE es) p with
    | some a => .addr a entry (seq, some b) (bad || bad')
    | none => .unmapped entry (seq, some b)

/-- KVADDR (R307). -/
def kvAddr (s : State) (v : PathView) (w : Warp) (lane seq p : Nat) : KvRes × State :=
  match kvFind s v w lane seq p with
  | (.ended r, s) => (r, s)
  | (.block d b entry bad, s) =>
    let (r, s) := tableRead s v w lane entry 16
    (kvFinish d seq b entry bad p r, s)

/-- Entries read so far by block. -/
abbrev BlocksRead := List ((Nat × Nat) × DWord × EntryRead)

/-- KVADDR of several lanes of one instruction: lanes that name one block share one read of its entry (R223, R307). -/
def kvLanes (v : PathView) (w : Warp) : List (Nat × Nat × Nat) → BlocksRead → State → List (Nat × KvRes) × State
  | [], _, s => ([], s)
  | (i, seq, p) :: t, seen, s =>
    match kvFind s v w i seq p with
    | (.ended r, s) =>
      let (l, s) := kvLanes v w t seen s
      ((i, r) :: l, s)
    | (.block d b entry bad, s) =>
      match seen.find? (fun x => x.1 == (seq, b)) with
      | some x =>
        let (l, s) := kvLanes v w t seen s
        ((i, kvFinish d seq b x.2.1 bad p x.2.2) :: l, s)
      | none =>
        let (r, s) := tableRead s v w i entry 16
        let (l, s) := kvLanes v w t (((seq, b), entry, r) :: seen) s
        ((i, kvFinish d seq b entry bad p r) :: l, s)

end Sys2Proof.Machine
end

