-- ==== Sys2Proof/Machine/LaneMem.lean ====
section
/-! DEFINITION. Lane loads, stores and atomics, fences, prefetch and XLAT (R201 to R215, R223, R224), with the checks
of R87 and R204, epoch stores (R276 to R278), purity of loads (R266), poison (R329) and the redundant group (R332). -/

namespace Sys2Proof.Machine

/-! ## Addresses (R202) -/

/-- One lane's access: lane, effective address, and whether it stays in the range the word is limited to. -/
structure LaneAcc where
  lane : Nat
  ea : DWord
  owned : Bool
deriving DecidableEq, Repr

/-- Accesses of the paged instructions. -/
def Cx.pagedAccs (cx : Cx) (offset : Bool) : List LaneAcc :=
  (LaneMask.lanes cx.p).map fun i =>
    ⟨i, cx.pairA i + (if offset then sext64 (cx.b.word i) else 0#64), true⟩

/-- Accesses of the scratchpad instructions: through the local window, or cluster window CORE. -/
def Cx.scratchAccs (cx : Cx) (cluster : Bool) (n : Nat) : List LaneAcc :=
  let core := cx.x 5 4
  let t := if cluster then teamOnCore cx.s cx.s.warp core else teamById cx.s cx.s.warp.team
  let base : Nat := if cluster then 2 ^ 56 + 2 ^ 32 + core * 2 ^ 19 else 2 ^ 56
  (LaneMask.lanes cx.p).map fun i =>
    let off : Int := (cx.a.word i).toNat + (cx.b.word i).toInt
    let tb := (t.map (·.base)).getD 0
    ⟨i, BitVec.ofInt 64 (base + tb + off), (t.map fun t => decide (0 ≤ off) && decide (off + n ≤ t.total)).getD false⟩

/-! ## Checks before any lane is performed (R204, R210) -/

/-- The .const section of the warp's image holds the whole access (R210). -/
def inConst (s : State) (w : Warp) (va : DWord) (n : Nat) : Bool :=
  match Tab.find? s.images w.image with
  | some m => decide (m.constLo.toNat ≤ va.toNat) && decide (va.toNat + n ≤ m.constHi.toNat)
  | none => false

/-- Whether the windows refuse the access (R181, R182). -/
def outOfBounds (s : State) (w : Warp) (x : LaneAcc) (n : Nat) : Bool :=
  !x.owned || (match placeWindow s w x.ea n with | some (.error .bounds) => true | _ => false)

/-- EPOCHWIN, ALIGN, BOUNDS, or the .const check of LD.C, in this order. -/
def preCheck (s : State) (w : Warp) (n : Nat) (store const : Bool) (l : List LaneAcc) : Option TrapInfo :=
  let kind := if store then 2 else 1
  let hit (code : BitVec 8) (f : LaneAcc → Bool) : Option TrapInfo :=
    let bad := l.filter f
    if bad.isEmpty then none else some (laneTrap code kind 0#32 (bad.map fun x => (x.lane, x.ea)))
  ((hit Code.epochwin fun x => store && epochOutside s w x.ea n).or
    (hit Code.align fun x => decide (x.ea.toNat % n ≠ 0))).or
    (if const then hit Code.prot fun x => !inConst s w x.ea n
      else hit Code.bounds fun x => outOfBounds s w x n)

/-- Place the accesses of lanes in turn. -/
def placeLanes (v : PathView) (w : Warp) (kind : AccKind) (n : Nat) :
    List LaneAcc → State → List (LaneAcc × Except AccErr Nat) × State
  | [], s => ([], s)
  | x :: t, s =>
    let (r, s) := placeAccess s v w kind x.ea n
    let (l, s) := placeLanes v w kind n t s
    ((x, r) :: l, s)

/-- Lanes whose access can be performed, with their keys. -/
def placedOk (l : List (LaneAcc × Except AccErr Nat)) : List (LaneAcc × Nat) :=
  l.filterMap fun p => match p.2 with | .ok k => some (p.1, k) | .error _ => none

/-- PROT, PAGE or FABRIC of the lanes that cannot (R204). -/
def placedTrap (store : Bool) (l : List (LaneAcc × Except AccErr Nat)) : Option TrapInfo :=
  let bad := l.filterMap fun p => match p.2 with | .error e => some (p.1, e) | .ok _ => none
  let replay := LaneMask.ofPred fun i => bad.any fun p => p.1.lane == i
  let kind := if store then 2 else 1
  ([AccErr.prot, .page, .fabric].find? fun e => bad.any fun p => p.2 == e).map fun e =>
    laneTrap e.trap kind replay ((bad.filter fun p => p.2 == e).map fun p => (p.1.lane, p.1.ea))

/-- The trap of a store whose versions do not fit: EPOCHFULL comes last (R87), after the lanes that meet PROT, PAGE or
FABRIC; no lane has been performed, so every lane re-executes (R278). -/
def fullTrap (m : LaneMask) (placed : List (LaneAcc × Except AccErr Nat)) : TrapInfo :=
  match placedTrap true placed with
  | some t => { t with replay := LaneMask.ofPred fun i => placed.any fun p => p.1.lane == i }
  | none => wholeTrap Code.epochfull m

/-- A body that completes, for the lanes that meet no fault. -/
def withTrap (d : Done) (t : Option TrapInfo) : LaneRes := match t with | some t => .part d t | none => .done d

/-- The pairing of a lane access in a redundant group. -/
def Cx.pairing (cx : Cx) : Pairing := ⟨false, cx.sp.pc, cx.sp.mask, 0⟩

/-! ## Loads (R203, R205) -/

/-- Register words of n loaded bytes. -/
def loadWords (n : Nat) (sx : Bool) (bs : List Byte) : List Word :=
  if n = 1 && sx then [(BitVec.ofNat 8 (ofBytesLE bs)).signExtend 32]
  else if n = 2 && sx then [(BitVec.ofNat 16 (ofBytesLE bs)).signExtend 32]
  else (List.range (ceilDiv n 4)).map fun k => BitVec.ofNat 32 (ofBytesLE ((bs.drop (4 * k)).take 4))

/-- Read lanes one after another. -/
def readLanes (v : PathView) (core n : Nat) : List (LaneAcc × Nat) → State → List (List Byte) × State
  | [], s => ([], s)
  | (x, k) :: t, s =>
    let (b, s) := gLoad s v core x.lane k n
    let (l, s) := readLanes v core n t s
    (b :: l, s)

/-- The keys of lanes' accesses, n bytes each. -/
def accKeys (n : Nat) (l : List (LaneAcc × Nat)) : List Nat := l.flatMap fun p => keysFrom p.2 n

/-- What the split knows after its lanes' loads of these keys (R190, R195). -/
def afterLoads (s : State) (ks : List Nat) (bs : List Byte) : State :=
  if ks.isEmpty then s else s.modSplit fun sp => { sp with view := sp.view.afterLoad s ks bs }

/-- What the split knows after its lanes' stores or atomics, where there are any (R190). -/
def afterStores {α : Type} (s : State) (l : List α) : State := if l.isEmpty then s else seeSplit s

/-- Cut bytes into pieces of n. -/
def chunk (n : Nat) : Nat → List Byte → List (List Byte)
  | 0, _ => []
  | k + 1, bs => bs.take n :: chunk n k (bs.drop n)

/-- The bytes of lanes' loads, as the copy's role has them performed (R332). -/
def loadBytes (cx : Cx) (v : PathView) (n : Nat) (s : State) (ok : List (LaneAcc × Nat)) :
    Exchange (List (List Byte) × State) :=
  let w := cx.s.warp
  if ok.any fun p => sharedAddr w p.1.ea then
    let own := ok.filter fun p => !sharedAddr w p.1.ea
    let shared := ok.filter fun p => sharedAddr w p.1.ea
    let lead := leadWarp s w
    let keys := shared.flatMap fun p =>
      match (placeAccess s v lead .read p.1.ea n).1 with | .ok k => keysFrom k n | .error _ => keysFrom p.2 n
    let merge (own shared : List (List Byte)) : List (List Byte) :=
      ok.map fun p =>
        if sharedAddr w p.1.ea then shared.getD ((ok.filter fun q => sharedAddr w q.1.ea && decide (q.1.lane < p.1.lane)).length) []
        else own.getD ((ok.filter fun q => !sharedAddr w q.1.ea && decide (q.1.lane < p.1.lane)).length) []
    let (ownBs, s) := readLanes v w.coreIx n own s
    if w.trailing then
      match fwdTake s w cx.pairing keys with
      | .ok (bs, s) => .ok (merge ownBs (chunk n shared.length bs), s)
      | .wait => .wait
      | .mismatch => .mismatch
    else
      let (shBs, s) := readLanes v w.coreIx n shared s
      let bs := overlayHeld s w keys shBs.flatten
      match fwdPush s w cx.pairing keys bs with
      | .ok s => .ok (merge ownBs (chunk n shared.length bs), s)
      | .wait => .wait
      | .mismatch => .mismatch
  else .ok (readLanes v w.coreIx n ok s)

/-- The result registers of a load. -/
def loadRegs (cx : Cx) (n : Nat) (sx uniform : Bool) (s : State) (ok : List (LaneAcc × Nat)) (bs : List (List Byte)) :
    List RegWrite :=
  let lanes := ok.zip bs
  let mask := LaneMask.ofPred fun i => ok.any fun p => p.1.lane == i
  let words (i : Nat) : List Word := ((lanes.find? fun p => p.1.1.lane == i).map fun p => loadWords n sx p.2).getD []
  (List.range (ceilDiv n 4)).map fun k =>
    { n := cx.d + k
      val := if uniform && mask == cx.p then .uniform ((words cx.lane0).getD k 0#32)
        else .lanes (laneIds.map fun i => (words i).getD k 0#32)
      mask := mask
      tag := cx.w.fmt
      side := []
      poison := LaneMask.ofPred fun i => ok.any fun p =>
        p.1.lane == i && loadPoisoned s cx.s.warp (keysFrom (p.2 + 4 * k) (min n 4)) }

/-- A load: one access for every lane when its address is U under a full mask (R205). -/
def loadBody (n : Nat) (sx const : Bool) (accs : Cx → List LaneAcc) (pair : Bool) (cx : Cx) : LaneRes :=
  let v := { cx.view with const := const }
  let uniform := cx.full && cx.a.shape == 0 && (!pair || (cx.srcA 1).shape == 0) && cx.b.shape == 0
  let l := accs cx
  match preCheck cx.s cx.s.warp n false const l with
  | some t => .trap t
  | none =>
    let (placed, s) := placeLanes v cx.s.warp .read n l cx.s
    let ok := placedOk placed
    let one := if uniform then ok.take 1 else ok
    match loadBytes cx v n s one with
    | .wait => .hold cx.s
    | .mismatch => .hold (noteMismatch cx.s)
    | .ok (bs, s) =>
      let s := afterLoads s (accKeys n one) bs.flatten
      let bs := if uniform then List.replicate ok.length (bs.headD []) else bs
      withTrap { s := s, regs := loadRegs cx n sx uniform s ok bs, var := true } (placedTrap false placed)

/-! ## Purity of loads (R266) -/

/-- Whether [va, va + n) lies in a range of addresses. -/
def within (va : DWord) (n : Nat) (base : DWord) (len : Nat) : Bool :=
  decide (base.toNat ≤ va.toNat) && decide (va.toNat + n ≤ base.toNat + len)

/-- The warp's spill area, or one of its lanes' trap save areas (R89, R227). -/
def exemptArea (w : Warp) (va : DWord) (n : Nat) : Bool := within va n w.spillbase 36864 || within va n w.ltsave 8192

/-- The region of the open fragment. -/
def fragRegion (s : State) (w : Warp) (rid : BitVec 16) : Option Region :=
  (Tab.find? s.images w.image).bind fun m => m.regions.find? (·.rid == rid)

/-- IMPURE of a load inside an open fragment, outside a handler. -/
def loadPurity (n : Nat) (const scratch : Bool) (accs : Cx → List LaneAcc) (cx : Cx) : Option TrapInfo :=
  match cx.s.warp.frag with
  | none => none
  | some fr =>
    if cx.sp.ts.isSome || cx.p = 0#32 then none
    else
      let w := cx.s.warp
      let covered (x : LaneAcc) : Bool := match fragRegion cx.s w fr.rid with
        | some r => within x.ea n r.cstart (r.cend.toNat - r.cstart.toNat)
        | none => false
      -- LD.C outside the covered range is a generic load (R210)
      let pure (x : LaneAcc) : Bool :=
        (const && covered x) || exemptArea w x.ea n
          || (!scratch && (fr.window.map fun (b, len, _, _) => within x.ea n b len).getD false)
      if (accs cx).all pure then none else some (wholeTrap Code.impure cx.sp.mask)

def loadWord (i : Instr) (w : Strip) (const scratch : Bool) (accs : Cx → List LaneAcc) : State → Result :=
  let n := Form.sizeBytes w
  laneWord i { early := loadPurity n const scratch accs } (loadBody n (Form.xb w 3) const accs (!scratch))

/-- LD (R207). -/
def execLd (w : Strip) : State → Result := loadWord (.ld w) w false false fun cx => cx.pagedAccs true

/-- LD.C (R210). -/
def execLdC (w : Strip) : State → Result := loadWord (.ldC w) w true false fun cx => cx.pagedAccs true

/-- LD.P (R208). -/
def execLdP (w : Strip) : State → Result :=
  loadWord (.ldP w) w false true fun cx => cx.scratchAccs false (Form.sizeBytes w)

/-- LD.CL (R209). -/
def execLdCl (w : Strip) : State → Result :=
  loadWord (.ldCl w) w false true fun cx => cx.scratchAccs true (Form.sizeBytes w)

/-! ## Stores (R203, R206) -/

/-- The n bytes of lane i's data. -/
def Cx.storeData (cx : Cx) (n i : Nat) : List Byte :=
  ((List.range (ceilDiv n 4)).flatMap fun k => toBytesLE 4 ((cx.srcC k).word i).toNat).take n

/-- The poison of lane i's data. -/
def Cx.storePoison (cx : Cx) (n i : Nat) : Bool := (List.range (ceilDiv n 4)).any fun k => (cx.srcC k).poison.has i

/-- Lanes of a store that consume poison: an address, or data outside the exempt areas (R329). -/
def storeDeaths (n : Nat) (pair : Bool) (accs : Cx → List LaneAcc) (cx : Cx) : LaneMask :=
  let a := cx.a.poison ||| (if pair then (cx.srcA 1).poison else 0#32) ||| cx.b.poison
  let c := LaneMask.ofPred fun i =>
    cx.storePoison n i && !((accs cx).any fun x => x.lane == i && exemptArea cx.s.warp x.ea n)
  cx.p &&& (a ||| c)

/-- Write lanes one after another, ascending: the bytes of the highest lane remain. -/
def writeLanes (v : PathView) (core : Nat) (data : Nat → List Byte) (bad : Nat → Bool) :
    List (LaneAcc × Nat) → State → State
  | [], s => s
  | (x, k) :: t, s => writeLanes v core data bad t (gStore s (storeView v x.ea) core k (data x.lane) (bad x.lane))

/-- The output window bytes that a store of the fragment's splits writes (R273). -/
def markWritten (s : State) (sp : Split) (n : Nat) (l : List LaneAcc) : State :=
  if sp.ts.isSome then s
  else modWarp s fun w => { w with frag := w.frag.map fun fr =>
    match fr.outWin with
    | none => fr
    | some (b, len) =>
      let offs := l.flatMap fun x => (keysFrom x.ea.toNat n).filterMap fun a =>
        if b.toNat ≤ a && a < b.toNat + len then some (a - b.toNat) else none
      { fr with written := (fr.written ++ offs).eraseDups } }

/-- Perform lanes' stores as the copy's role has them performed (R332). -/
def storeLanes (cx : Cx) (data : Nat → List Byte) (bad : Nat → Bool) (s : State) (ok : List (LaneAcc × Nat)) :
    Exchange State :=
  let w := cx.s.warp
  let own := ok.filter fun p => !sharedAddr w p.1.ea
  let shared := ok.filter fun p => sharedAddr w p.1.ea
  let s' := writeLanes cx.view w.coreIx data bad own s
  if shared.isEmpty then .ok s'
  else
    let lead := leadWarp s w
    let bytes := shared.flatMap fun p =>
      let k := match (placeAccess s cx.view lead .write p.1.ea (data p.1.lane).length).1 with | .ok k => k | .error _ => p.2
      (keysFrom k (data p.1.lane).length).zip (data p.1.lane)
    if w.trailing then heldCompare s' w cx.pairing bytes
    else heldPush s' w cx.pairing bytes (shared.flatMap fun p => if bad p.1.lane then keysFrom p.2 (data p.1.lane).length else [])

/-- The stall of a full compare buffer: a commit point where the warp holds entries (R333, R334). -/
def bufferStall (cx : Cx) : LaneRes :=
  .hold (if !cx.s.warp.trailing && holdsEntries cx.s cx.s.warp.id then cx.s.setSplit (some { cx.sp with wait := .commit })
    else cx.s)

/-- A store. -/
def storeBody (n : Nat) (accs : Cx → List LaneAcc) (cx : Cx) : LaneRes :=
  let l := accs cx
  match preCheck cx.s cx.s.warp n true false l with
  | some t => .trap t
  | none =>
    let (placed, s) := placeLanes cx.view cx.s.warp .write n l cx.s
    let ok := placedOk placed
    let keys := accKeys n (ok.filter fun p => regionOf p.1.ea == .paged)
    match epochRoom s cx.view keys with
    | .stall => .hold cx.s
    | .full => .trap (fullTrap cx.sp.mask placed)
    | .ok =>
      match storeLanes cx (cx.storeData n) (cx.storePoison n) s ok with
      | .wait => bufferStall cx
      | .mismatch => .hold (noteMismatch cx.s)
      | .ok s => withTrap { s := markWritten (afterStores s ok) cx.sp n (ok.map (·.1)) } (placedTrap true placed)

def storeWord (i : Instr) (w : Strip) (pair : Bool) (accs : Cx → List LaneAcc) : State → Result :=
  let n := Form.sizeBytes w
  laneWord i { deaths := some (storeDeaths n pair accs) } (storeBody n accs)

/-- ST (R207). -/
def execSt (w : Strip) : State → Result := storeWord (.st w) w true fun cx => cx.pagedAccs true

/-- ST.P (R208). -/
def execStP (w : Strip) : State → Result :=
  storeWord (.stP w) w false fun cx => cx.scratchAccs false (Form.sizeBytes w)

/-- ST.CL (R209). -/
def execStCl (w : Strip) : State → Result :=
  storeWord (.stCl w) w false fun cx => cx.scratchAccs true (Form.sizeBytes w)

/-! ## Atomics (R212, R213) -/

/-- acc OP c. -/
def atomOp (aop : Nat) (acc c : Word) : Word :=
  match aop with
  | 0 => acc + c
  | 1 => if c.slt acc then c else acc
  | 2 => if acc.slt c then c else acc
  | 3 => if c.ult acc then c else acc
  | 4 => if acc.ult c then c else acc
  | 5 => acc &&& c
  | 6 => acc ||| c
  | 7 => acc ^^^ c
  | _ => c

/-- Place accesses that both read and write. -/
def placeRmw (v : PathView) (w : Warp) (n : Nat) (l : List LaneAcc) (s : State) :
    List (LaneAcc × Except AccErr Nat) × State :=
  let (pw, s) := placeLanes v w .write n l s
  let (pr, s) := placeLanes v w .read n l s
  ((pw.zip pr).map fun (a, b) => (a.1, match a.2, b.2 with | .ok k, .ok _ => .ok k | .error e, _ => .error e | _, .error e => .error e), s)

/-- The old values that the lanes of one group receive, in lane order, and the value left in memory. -/
def combineLanes (aop : Nat) (c : Nat → Word) : List Nat → Word → List (Nat × Word) × Word
  | [], acc => ([], acc)
  | l :: t, acc =>
    let (r, fin) := combineLanes aop c t (atomOp aop acc (c l))
    ((l, acc) :: r, fin)

/-- The groups of lanes by lowest lane: lanes whose addresses are placed at one word are one group, whatever names they
give it: DESIGN CHOICE (log 93). -/
def atomGroups (ok : List (LaneAcc × Nat)) : List (Nat × DWord × List Nat) :=
  ((ok.map (·.2)).eraseDups).map fun k =>
    let g := ok.filter fun p => p.2 == k
    (k, ((g.map (·.1.ea)).headD 0#64), g.map (·.1.lane))

/-- Perform the groups of an ATOM or RED: old values per lane, and whether the word was marked poisoned. -/
def atomRun (v : PathView) (core aop : Nat) (c : Nat → Word) :
    List (Nat × DWord × List Nat) → State → List (Nat × Word × Bool) × State
  | [], s => ([], s)
  | (k, ea, ls) :: t, s =>
    let v' := storeView v ea
    let bad := anyPoisoned s (keysFrom k 4)
    let (old, fin) := combineLanes aop c ls (BitVec.ofNat 32 (readNat s v' .g 63 k 4))
    let s := gStore s v' core k (toBytesLE 4 fin.toNat) false
    let (rest, s) := atomRun v core aop c t s
    (old.map (fun p => (p.1, p.2, bad)) ++ rest, s)

/-- One result register of lanes' old values. -/
def oldRegs (d : Nat) (tag : FmtTag) (old : List (Nat × Word × Bool)) : RegWrite :=
  { n := d
    val := .lanes (laneIds.map fun i => ((old.find? (·.1 == i)).map (·.2.1)).getD 0#32)
    mask := LaneMask.ofPred fun i => old.any (·.1 == i)
    tag := tag, side := []
    poison := LaneMask.ofPred fun i => old.any fun p => p.1 == i && p.2.2 }

/-- ATOM and RED. -/
def atomBody (ret : Bool) (cx : Cx) : LaneRes :=
  let l := cx.pagedAccs true
  match preCheck cx.s cx.s.warp 4 true false l with
  | some t => .trap t
  | none =>
    let (placed, s) := placeRmw cx.view cx.s.warp 4 l cx.s
    let ok := placedOk placed
    match epochRoom s cx.view (accKeys 4 (ok.filter fun p => regionOf p.1.ea == .paged)) with
    | .stall => .hold cx.s
    | .full => .trap (fullTrap cx.sp.mask placed)
    | .ok =>
      let (old, s) := atomRun cx.view cx.s.warp.coreIx (cx.x 7 4) cx.c.word (atomGroups ok) s
      let s := markWritten (afterStores s ok) cx.sp 4 (ok.map (·.1))
      withTrap { s := s, regs := if ret then [oldRegs cx.d cx.w.fmt old] else [], var := ret } (placedTrap true placed)

/-- ATOM (R212). -/
def execAtom (w : Strip) : State → Result := laneWord (.atom w) {} (atomBody true)

/-- RED (R212). -/
def execRed (w : Strip) : State → Result := laneWord (.red w) {} (atomBody false)

/-- Perform the lanes of a CAS in order. -/
def casRun (cx : Cx) (n : Nat) : List (LaneAcc × Nat) → State → List (Nat × List Byte × Bool) × State
  | [], s => ([], s)
  | (x, k) :: t, s =>
    let v := storeView cx.view x.ea
    let bytes (o : Nat → Operand) : List Byte :=
      (List.range (n / 4)).flatMap fun j => toBytesLE 4 ((o j).word x.lane).toNat
    let ks := keysFrom k n
    let bad := anyPoisoned s ks
    let old := readBytes s v .g 63 ks
    let s := if old = bytes cx.srcB then
        markWritten (gStore s v cx.s.warp.coreIx k (bytes cx.srcC) false) cx.sp n [x]
      else stampStore s cx.s.warp.coreIx k
    let (rest, s) := casRun cx n t s
    ((x.lane, old, bad) :: rest, s)

/-- CAS (R213). -/
def execCas (w : Strip) : State → Result :=
  let n := Form.sizeBytes w
  laneWord (.cas w) {} fun cx =>
    let l := cx.pagedAccs false
    match preCheck cx.s cx.s.warp n true false l with
    | some t => .trap t
    | none =>
      let (placed, s) := placeRmw cx.view cx.s.warp n l cx.s
      let ok := placedOk placed
      match epochRoom s cx.view (accKeys n (ok.filter fun p => regionOf p.1.ea == .paged)) with
      | .stall => .hold cx.s
      | .full => .trap (fullTrap cx.sp.mask placed)
      | .ok =>
        let (old, s) := casRun cx n ok s
        let word (k : Nat) : List (Nat × Word × Bool) :=
          old.map fun p => (p.1, BitVec.ofNat 32 (ofBytesLE ((p.2.1.drop (4 * k)).take 4)), p.2.2)
        withTrap { s := afterStores s ok, regs := (List.range (n / 4)).map fun k => oldRegs (cx.d + k) w.fmt (word k), var := true }
          (placedTrap true placed)

/-! ## Fences (R214, R215) -/

/-- FENCE (R214): every access of the model is performed when its word issues, so it completes at once. -/
def execFence (w : Strip) : State → Result := laneWord (.fence w) { always := true } fun cx => .done { s := cx.s }

/-- The class of a code (R215). -/
def pathOf (n : Nat) : Path :=
  match n with
  | 0 => .g
  | 1 => .c
  | 2 => .m
  | 3 => .t
  | 4 => .f
  | 5 => .b
  | _ => .h

/-- The value that a record wrote, given the newer records of its key and the byte now in memory. -/
def recordValue (key : Nat) (cur : Byte) (newer : List WriteRec) : Byte :=
  match newer.reverse.find? (fun r => r.key == key) with
  | some r => r.old
  | none => cur

/-- Hand the contents beneath a removed record to the record above it, newest first. -/
def raiseOld (key : Nat) (b : Byte) : List WriteRec → List WriteRec
  | [] => []
  | r :: t =>
    if r.key = key && !(t.any fun x => x.key == key) then { r with old := b } :: t else r :: raiseOld key b t

/-- A write of another path takes its place in the generic order (R196): the newest record that satisfies the test
becomes the newest of its byte, but stays beneath an add-on-store that has counted it (R253, log 13). -/
def fenceRecord (s : State) (ser : Nat) (hit : WriteRec → Bool) : State :=
  let newer := s.hist.takeWhile fun x => !hit x
  match s.hist.dropWhile fun x => !hit x with
  | [] => s
  | r :: older =>
    let cur := memGet s.mem r.key
    if (newer.any fun x => x.key == r.key) && !(newer.any fun x => x.key == r.key && x.sum) then
      let top := { r with old := cur, fenced := some ser }
      { s with
        hist := top :: (raiseOld r.key r.old newer ++ older)
        mem := memPut s.mem r.key (recordValue r.key cur newer) }
    else { s with hist := newer ++ { r with fenced := some ser } :: older }

/-- Whether a write is one of a path that an issuer has observed and nothing has fenced yet. -/
def PathView.unfenced (v : PathView) (p : Path) (r : WriteRec) : Bool :=
  r.path == p && r.fenced.isNone && v.observed.contains r.land

/-- Every write that satisfies the test takes its place in the generic order, oldest first. -/
def fenceAll (s : State) (pick : WriteRec → Bool) : State :=
  let ser := s.serial + 1
  let serials := ((s.hist.filter pick).map (·.serial)).reverse
  serials.foldl (fun s n => fenceRecord s ser fun x => pick x && x.serial == n) { s with serial := ser }

/-- Epoch stores, newest first, of which those that satisfy the test take their place at a serial: the ones that become the
newest, and the others. One that an add-on-store has counted stays beneath it (R253, log 13). -/
def fenceVersions (ser : Nat) (hit : WriteRec → Bool) : List Nat → List Version → List Version × List Version
  | _, [] => ([], [])
  | sums, x :: t =>
    let (up, rest) := fenceVersions ser hit (if x.record.sum then x.record.key :: sums else sums) t
    if !hit x.record then (up, x :: rest)
    else
      let y := { x with record := { x.record with fenced := some ser } }
      if sums.contains x.record.key then (up, y :: rest) else (y :: up, rest)

/-- FENCE.X into G: every observed write of the path, committed or of an epoch (R277). -/
def fenceIntoG (s : State) (v : PathView) (p : Path) : State :=
  let t := fenceAll s (v.unfenced p)
  let (up, rest) := fenceVersions t.serial (v.unfenced p) [] t.versions
  { t with versions := up ++ rest }

/-- FENCE.X (R215): what the split knows afterwards. -/
def fenceCross (s : State) (v : PathView) (e l : Path) : State × PathView :=
  if e = .g then
    let v := v.setHor l s.serial v.gseen
    (s, if l = .t then { v with hor := addHor v.hor (.t, some (v.own + 1), s.serial) } else v)
  else if l = .g then (fenceIntoG s v e, v)
  else
    let of := (s.landings.filter fun x => x.path == e && v.observed.contains x.id).map fun x => (x.id, l)
    (s, { v with crossed := v.crossed ++ of.filter fun x => !v.crossed.contains x })

/-- FENCE.X (R215). -/
def execFenceX (w : Strip) : State → Result :=
  laneWord (.fenceX w) { always := true } fun cx =>
    let (s, v) := fenceCross cx.s cx.sp.view (pathOf (cx.x 2 0)) (pathOf (cx.x 5 3))
    .done { s := s.modSplit fun sp => { sp with view := v } }

/-! ## PREFETCH (R211) -/

/-- PREFETCH (R211): a line that can be read takes its normal lease; nothing else changes. -/
def execPrefetch (w : Strip) : State → Result := laneWord (.prefetch w) {} fun cx =>
  let touch (s : State) (x : LaneAcc) : State :=
    match placeAccess s cx.view s.warp .read x.ea 1 with
    | (.ok k, s) => if cx.xb 0 then s else stampLoad s s.warp.coreIx k
    | (.error _, s) => s
  .done { s := (cx.pagedAccs true).foldl touch cx.s }

/-! ## XLAT (R223, R224) -/

/-- Translate lanes: each lane's result. -/
def xlatLanes (cx : Cx) (v : PathView) (l : List Nat) (s : State) : List (Nat × KvRes) × State :=
  kvLanes v cx.s.warp (l.map fun i => (i, (cx.a.word i).toNat, (cx.b.word i).toNat)) [] s

/-- Result registers of translated lanes. -/
def xlatRegs (d : Nat) (l : List (Nat × KvRes)) : List RegWrite :=
  let ok := l.filterMap fun p => match p.2 with | .addr a _ _ bad => some (p.1, a, bad) | _ => none
  [oldRegs d 0xA#4 (ok.map fun p => (p.1, lo32 p.2.1, p.2.2)), oldRegs (d + 1) 0xA#4 (ok.map fun p => (p.1, hi32 p.2.1, p.2.2))]

/-- Unmapped lanes with their entries and blocks. -/
def xlatUnmapped (l : List (Nat × KvRes)) : List (Nat × DWord × Block) :=
  l.filterMap fun p => match p.2 with | .unmapped e b => some (p.1, e, b) | _ => none

/-- PROT, PAGE or FABRIC met while the tables are read, then PAGE for unmapped positions. -/
def xlatTrap (unmapped : Bool) (l : List (Nat × KvRes)) : Option TrapInfo :=
  let errs := l.filterMap fun p => match p.2 with | .err e a => some (p.1, e, a) | _ => none
  let un := if unmapped then xlatUnmapped l else []
  let replay := LaneMask.ofPred fun i => errs.any (·.1 == i) || un.any (·.1 == i)
  let of (e : AccErr) : List (Nat × DWord) := (errs.filter (·.2.1 == e)).map fun p => (p.1, p.2.2)
  let page := of .page ++ un.map fun p => (p.1, p.2.1)
  if !(of .bounds).isEmpty then some (laneTrap Code.bounds 4 replay (of .bounds))
  else if !(of .prot).isEmpty then some (laneTrap Code.prot 4 replay (of .prot))
  else if !page.isEmpty then some { laneTrap Code.page 4 replay page with
    posts := pagePosts Code.page ((of .page).map (·.2)) ++ blockPosts (un.map (·.2)) }
  else if !(of .fabric).isEmpty then some (laneTrap Code.fabric 4 replay (of .fabric))
  else none

/-- PF of lanes after a translation. -/
def xlatPred (k : Nat) (l : List (Nat × KvRes)) : PredWrite :=
  let ok := l.filter fun p => match p.2 with | .err _ _ => false | _ => true
  ⟨k, LaneMask.ofPred fun i => (xlatUnmapped l).any (·.1 == i), LaneMask.ofPred fun i => ok.any (·.1 == i)⟩

/-- Post the faults of an NT translation: one per distinct block that the word has not posted yet. -/
def postBlocks (s : State) (noted : List Block) (l : List (Nat × KvRes)) : Posting × State :=
  postFaults 4 Posted.none (blockPosts (((xlatUnmapped l).map (·.2)).filter fun x => !noted.contains x.2)) s

/-- The blocks that a word held by a full queue has posted. -/
def notedBlocks (noted : List Block) (l : List (Nat × KvRes)) (left : List Post) : List Block :=
  (noted ++ (xlatUnmapped l).map (·.2.2)).eraseDups.filter fun b => !left.any fun p => p.block == some b

/-- The end of a translation of these lanes. A full fault queue holds the word unretired with what it has posted; an entry
of the queue that cannot be written ends the warp (log 20). -/
def xlatEnd (cx : Cx) (nt : Bool) (l : List (Nat × KvRes)) (trap : Option TrapInfo) (s : State) : LaneRes :=
  let d (s : State) : Done :=
    { s := s.modSplit fun sp => { sp with noted := [] }, regs := (xlatRegs cx.d l).filter fun x => x.mask != 0#32
      preds := if nt then [xlatPred (cx.x 3 1) l] else [], var := true }
  if nt && !(xlatUnmapped l).isEmpty then
    if s.warp.faultq = 0#64 then .hold (endAbnormal s Code.page cx.sp.pc)
    else
      match postBlocks s cx.sp.noted l with
      | (p, s) =>
        match p.err with
        | some e => .hold (endAbnormal s e.trap cx.sp.pc)
        | none =>
          if p.left.isEmpty then withTrap (d s) trap
          else .hold (s.modSplit fun sp => { sp with noted := notedBlocks sp.noted l p.left })
  else withTrap (d s) trap

/-- XLAT (R223). -/
def execXlat (w : Strip) : State → Result := laneWord (.xlat w) {} fun cx =>
  let nt := cx.xb 0
  let (l, s) := xlatLanes cx cx.view (LaneMask.lanes cx.p) cx.s
  xlatEnd cx nt l (xlatTrap (!nt) l) s

/-- The block of a lane's translation. -/
def KvRes.block? : KvRes → Option Block
  | .unmapped _ b | .addr _ _ b _ => some b
  | .err _ _ => none

/-- The entry of a lane's translation. -/
def KvRes.entry : KvRes → DWord
  | .unmapped e _ | .addr _ e _ _ | .err _ e => e

/-- The answer of a posted block fault, 0 while it has none. -/
def BlockFault.status (s : State) (f : BlockFault) : Nat := if f.answer = 0 then standingNat s f.key 4 else f.answer

/-- The faults posted for a block by the grid, the newest first (R224). -/
def faultsOf (s : State) (w : Warp) (r : KvRes) : List BlockFault :=
  s.blockFaults.filter fun f => f.grid == w.grid && r.block? == some f.block

/-- What a re-run knows (R224, R239): as after FENCE.X G, T; an answer written on path H follows the host's table writes. -/
def answeredView (s : State) (v : PathView) (keys : List Nat) : PathView :=
  let v := v.setHor .t s.serial s.serial
  let byHost := keys.any fun k => ((lastWrite s (home s k)).map (·.path)) == some Path.h
  let ids := (s.landings.filter (·.path == .h)).map fun x => (x.id, Path.t)
  if byHost then { v with crossed := v.crossed ++ ids.filter fun x => !v.crossed.contains x } else v

/-- XLAT.RP (R224): the flagged lanes once every fault posted for their blocks is answered; the newest answer counts
(log 97). -/
def execXlatRp (w : Strip) : State → Result := laneWord (.xlatRp w) {} fun cx =>
  let flagged := (LaneMask.lanes cx.p).filter fun i => cx.s.warp.predLane (cx.x 3 1) i
  -- an answered fault is fenced to T by the servicing agent
  let mine := cx.s.blockFaults.filter (·.grid == cx.s.warp.grid)
  let (l, s) := xlatLanes cx (answeredView cx.s cx.view (mine.map (·.key))) flagged cx.s
  let faults (p : Nat × KvRes) : List Nat := (faultsOf cx.s cx.s.warp p.2).map (·.status cx.s)
  if l.any fun p => (faults p).contains 0 then .hold cx.s
  else
    let refused := l.filter fun p => (faults p).head? == some 2
    let refusedAs := refused.map fun p => (p.1, KvRes.unmapped p.2.entry (p.2.block?.getD (0, none)))
    let go := l.filter fun p => (faults p).head? != some 2
    let rt := xlatTrap false go
    let trap :=
      if refused.isEmpty then rt
      else match rt with
        | some t => if t.code = Code.prot then some { t with replay := t.replay ||| LaneMask.ofPred fun i => refused.any (·.1 == i) }
          else xlatTrap true (refusedAs ++ go.filter fun p => match p.2 with | .err _ _ => true | _ => false)
        | none => xlatTrap true refusedAs
    xlatEnd cx true go trap s

end Sys2Proof.Machine
end

