-- ==== Sys2Proof/Machine/Access.lean ====
section
/-! DEFINITION. The access stream (R15 to R17, R121 to R146): arithmetic, control transfer, scalar memory, queues,
translation, stream control and control registers. -/

namespace Sys2Proof.Machine

/-! ## Issue and completion -/

/-- Whether the issuing warp has an access stream to run (R16, R141). -/
def accessRuns (w : Warp) : Bool := w.ended.isNone && w.acc != .halted && w.acc != .stopped

/-- One access word of a running stream. -/
def accessWord (body : State → State) (s : State) : Result :=
  if accessRuns s.warp then .next (body s) else .fault .noAccessStream

/-- What a redundant group counts of a completed access word. -/
def groupAccess (s : State) : State :=
  if s.warp.rg.isNone then s
  else
    let s := modWarp s fun w => { w with rg := w.rg.map fun g => { g with accWords := g.accWords + 1 } }
    if ((s.warp.rg.bind (·.grant)).map (·.1)).getD false then afterGrant s else s

/-- The word completes: the stream continues at an address. -/
def jumpAccess (s : State) (pc : DWord) : State := groupAccess (modWarp s fun w => { w with apc := pc, acc := .ready })

/-- The word completes: the stream continues at NEXT. -/
def stepAccess (s : State) : State := jumpAccess s (s.warp.apc + 4#64)

/-- The word completes with a value for sD. -/
def putS (s : State) (d : Reg) (v : DWord) : State := stepAccess (modWarp s fun w => w.sset d v)

def State.s1 (s : State) (r : Reg) : DWord := s.warp.sget r

/-- The stream is not ready until a queue moves (R17). -/
def stallQueue (s : State) : State := modWarp s fun w => { w with acc := .queue }

/-- 1 or 0. -/
def bit64 (b : Bool) : DWord := if b then 1#64 else 0#64

/-- High 64 bits of the signed product. -/
def mulHigh (a b : DWord) : DWord := BitVec.ofInt 64 (a.toInt * b.toInt / 2 ^ 64)

/-- Poison consumed by the access stream ends the warp with SOFTERR (R329), a mismatch in a redundant group (R335). -/
def accessPoison (s : State) : State :=
  if s.warp.rg.isSome then noteMismatch s else endAbnormal s Code.softerr s.warp.apc

/-! ## Arithmetic (R125, R126) -/

/-- A word of one source and an immediate. -/
def immOp (d a : Reg) (f : DWord → DWord) : State → Result := accessWord fun s => putS s d (f (s.s1 a))
/-- A word of two sources. -/
def regOp (d a b : Reg) (f : DWord → DWord → DWord) : State → Result := accessWord fun s => putS s d (f (s.s1 a) (s.s1 b))

/-- ADDI (R125). -/
def execAddi (d a : Reg) (imm : BitVec 16) : State → Result := immOp d a fun a => a + sext64 imm

/-- ANDI (R125). -/
def execAndi (d a : Reg) (imm : BitVec 16) : State → Result := immOp d a fun a => a &&& zext64 imm

/-- ORI (R125). -/
def execOri (d a : Reg) (imm : BitVec 16) : State → Result := immOp d a fun a => a ||| zext64 imm

/-- XORI (R125). -/
def execXori (d a : Reg) (imm : BitVec 16) : State → Result := immOp d a fun a => a ^^^ zext64 imm

/-- SLTI (R125). -/
def execSlti (d a : Reg) (imm : BitVec 16) : State → Result := immOp d a fun a => bit64 (a.slt (sext64 imm))

/-- LUI (R125). -/
def execLui (d : Reg) (imm : BitVec 16) : State → Result := immOp d 0#5 fun _ => sext64 imm <<< 16

/-- SHLI (R125). -/
def execShli (d a : Reg) (n : BitVec 6) : State → Result := immOp d a fun a => a <<< n.toNat

/-- SHRI (R125). -/
def execShri (d a : Reg) (n : BitVec 6) : State → Result := immOp d a fun a => a >>> n.toNat

/-- SRAI (R125). -/
def execSrai (d a : Reg) (n : BitVec 6) : State → Result := immOp d a fun a => a.sshiftRight n.toNat

/-- ADD (R126). -/
def execAdd (d a b : Reg) : State → Result := regOp d a b fun a b => a + b

/-- SUB (R126). -/
def execSub (d a b : Reg) : State → Result := regOp d a b fun a b => a - b

/-- MUL (R126). -/
def execMul (d a b : Reg) : State → Result := regOp d a b fun a b => a * b

/-- MULH (R126). -/
def execMulh (d a b : Reg) : State → Result := regOp d a b fun a b => mulHigh a b

/-- AND (R126). -/
def execAnd (d a b : Reg) : State → Result := regOp d a b fun a b => a &&& b

/-- OR (R126). -/
def execOr (d a b : Reg) : State → Result := regOp d a b fun a b => a ||| b

/-- XOR (R126). -/
def execXor (d a b : Reg) : State → Result := regOp d a b fun a b => a ^^^ b

/-- SHL (R126). -/
def execShl (d a b : Reg) : State → Result := regOp d a b fun a b => a <<< (b.toNat % 64)

/-- SHR (R126). -/
def execShr (d a b : Reg) : State → Result := regOp d a b fun a b => a >>> (b.toNat % 64)

/-- SRA (R126). -/
def execSra (d a b : Reg) : State → Result := regOp d a b fun a b => a.sshiftRight (b.toNat % 64)

/-- SLT (R126). -/
def execSlt (d a b : Reg) : State → Result := regOp d a b fun a b => bit64 (a.slt b)

/-- SLTN (R126). -/
def execSltn (d a b : Reg) : State → Result := regOp d a b fun a b => bit64 (a.ult b)

/-- MIN (R126). -/
def execMin (d a b : Reg) : State → Result := regOp d a b fun a b => if b.slt a then b else a

/-- MAX (R126). -/
def execMax (d a b : Reg) : State → Result := regOp d a b fun a b => if a.slt b then b else a

/-- MINN (R126). -/
def execMinn (d a b : Reg) : State → Result := regOp d a b fun a b => if b.ult a then b else a

/-- MAXN (R126). -/
def execMaxn (d a b : Reg) : State → Result := regOp d a b fun a b => if a.ult b then b else a

/-- NOPS (R144). -/
def execNops : State → Result := accessWord stepAccess

/-! ## Control transfer (R127 to R129) -/

/-- NEXT + 4 × a displacement (R127). -/
def accTarget {n : Nat} (pc : DWord) (off : BitVec n) : DWord := pc + 4#64 + 4#64 * off.signExtend 64

/-- A conditional branch. -/
def branchOp (a b : Reg) (off : BitVec 16) (f : DWord → DWord → Bool) : State → Result :=
  accessWord fun s => if f (s.s1 a) (s.s1 b) then jumpAccess s (accTarget s.warp.apc off) else stepAccess s

/-- BEQ (R127). -/
def execBeq (a b : Reg) (off : BitVec 16) : State → Result := branchOp a b off fun a b => a == b

/-- BNE (R127). -/
def execBne (a b : Reg) (off : BitVec 16) : State → Result := branchOp a b off fun a b => a != b

/-- BLT (R127). -/
def execBlt (a b : Reg) (off : BitVec 16) : State → Result := branchOp a b off fun a b => a.slt b

/-- BGE (R127). -/
def execBge (a b : Reg) (off : BitVec 16) : State → Result := branchOp a b off fun a b => !a.slt b

/-- BLTN (R127). -/
def execBltn (a b : Reg) (off : BitVec 16) : State → Result := branchOp a b off fun a b => a.ult b

/-- BGEN (R127). -/
def execBgen (a b : Reg) (off : BitVec 16) : State → Result := branchOp a b off fun a b => !a.ult b

/-- J (R128). -/
def execJ (off : BitVec 26) : State → Result := accessWord fun s => jumpAccess s (accTarget s.warp.apc off)

/-- JAL (R128): the link goes to s1. -/
def execJal (off : BitVec 26) : State → Result := accessWord fun s =>
  jumpAccess (modWarp s fun w => w.sset 1#5 (w.apc + 4#64)) (accTarget s.warp.apc off)

/-- TRAMPS (R129). -/
def execTramps (off : BitVec 26) : State → Result := accessWord fun s => jumpAccess s (accTarget s.warp.apc off)

/-- JR (R128): the target is read before sD is written. -/
def execJr (d a : Reg) (imm : BitVec 16) : State → Result := accessWord fun s =>
  jumpAccess (modWarp s fun w => w.sset d (w.apc + 4#64)) (s.s1 a + sext64 imm)

/-! ## Scalar memory (R122, R130) -/

/-- A condition met by an access: its code and the address reported. -/
abbrev AccFail := BitVec 8 × DWord

/-- Check and place one access of n bytes (R122, R87). -/
def accPlace (s : State) (kind : AccKind) (n : Nat) (ea : DWord) : Except AccErr Nat × State :=
  let w := s.warp
  if kind == .write && epochOutside s w ea n then (.error .epochwin, s)
  else if ea.toNat % n ≠ 0 then (.error .align, s)
  else placeAccess s (aviewOf w) w kind ea n

/-- The trap of a failed access. -/
def accFail (s : State) (e : AccErr) (lane : Nat) (ea : DWord) : State := accessTrap s e.trap lane 0#16 ea

/-- The pairing of the stream's next shared access (R332). -/
def accPairing (w : Warp) : Pairing := ⟨true, 0#64, 0#32, (w.rg.map (·.accN)).getD 0⟩
/-- One shared access more. -/
def countAcc (s : State) : State := modWarp s fun w => { w with rg := w.rg.map fun g => { g with accN := g.accN + 1 } }

/-- What the stream knows after its loads of these keys (R190, R195). -/
def accSeen (ks : List Nat) (r : Exchange (List (List Byte) × State)) : Exchange (List (List Byte) × State) :=
  match r with
  | .ok (bs, s) => .ok (bs, modWarp s fun w => { w with aview := w.aview.afterLoad s ks bs.flatten })
  | r => r

/-- Read pieces of n bytes at placed addresses in order, as the copy's role has it done (R332). -/
def accReadRaw (s : State) (n : Nat) (l : List (DWord × Nat)) : Exchange (List (List Byte) × State) :=
  let w := s.warp
  let v := aviewOf w
  let accs := (List.range l.length).zip l |>.map fun p => ((⟨p.1, p.2.1, true⟩ : LaneAcc), p.2.2)
  if l.any fun p => sharedAddr w p.1 then
    let keys := l.flatMap fun p =>
      match (placeAccess s v (leadWarp s w) .read p.1 n).1 with | .ok k => keysFrom k n | .error _ => keysFrom p.2 n
    if w.trailing then
      match fwdTake s w (accPairing w) keys with
      | .ok (bs, s) => .ok (chunk n l.length bs, countAcc s)
      | .wait => .wait
      | .mismatch => .mismatch
    else
      let (bs, s) := readLanes v w.coreIx n accs s
      let bs := overlayHeld s w keys bs.flatten
      match fwdPush s w (accPairing w) keys bs with
      | .ok s => .ok (chunk n l.length bs, countAcc s)
      | .wait => .wait
      | .mismatch => .mismatch
  else .ok (readLanes v w.coreIx n accs s)

/-- The same with what the stream learns. -/
def accRead (s : State) (n : Nat) (l : List (DWord × Nat)) : Exchange (List (List Byte) × State) :=
  accSeen (l.flatMap fun p => keysFrom p.2 n) (accReadRaw s n l)

/-- A scalar load. -/
def loadScalar (n : Nat) (d a : Reg) (imm : BitVec 16) : State → Result := accessWord fun s =>
  let ea := s.s1 a + sext64 imm
  match accPlace s .read n ea with
  | (.error e, s) => accFail s e 0 ea
  | (.ok k, s') =>
    if loadPoisoned s' s'.warp (keysFrom k n) then accessPoison s'
    else match accRead s' n [(ea, k)] with
      | .ok (bs, s) => putS s d (BitVec.ofNat 64 (ofBytesLE (bs.headD [])))
      | .wait => s
      | .mismatch => noteMismatch s

/-- LDS (R130). -/
def execLds (d a : Reg) (imm : BitVec 16) : State → Result := loadScalar 8 d a imm
/-- LDSW (R130). -/
def execLdsw (d a : Reg) (imm : BitVec 16) : State → Result := loadScalar 4 d a imm

/-- A scalar store. -/
def storeScalar (n : Nat) (d a : Reg) (imm : BitVec 16) : State → Result := accessWord fun s =>
  let w := s.warp
  let ea := s.s1 a + sext64 imm
  let bs := toBytesLE n (s.s1 d).toNat
  match accPlace s .write n ea with
  | (.error e, s) => accFail s e 0 ea
  | (.ok k, s') =>
    let v := storeView (aviewOf w) ea
    match epochRoom s' v (keysFrom k n) with
    | .stall => s
    | .full => accFail s' .epochfull 0 ea
    | .ok =>
      if sharedAddr w ea then
        let key := match (placeAccess s v (leadWarp s w) .write ea n).1 with | .ok k => k | .error _ => k
        let bytes := (keysFrom key n).zip bs
        let r := if w.trailing then heldCompare s' w (accPairing w) bytes else heldPush s' w (accPairing w) bytes []
        match r with
        | .ok s => stepAccess (seeAccess (countAcc s))
        | .wait => if !w.trailing && holdsEntries s w.id then modWarp s fun w => { w with acc := .commit } else s
        | .mismatch => noteMismatch s
      else stepAccess (seeAccess (gStore s' v w.coreIx k bs false))

/-- STS (R130). -/
def execSts (d a : Reg) (imm : BitVec 16) : State → Result := storeScalar 8 d a imm
/-- STSW (R130). -/
def execStsw (d a : Reg) (imm : BitVec 16) : State → Result := storeScalar 4 d a imm

/-- A prefetch (R131): an address that cannot be read is dropped. -/
def prefetchScalar (l1 : Bool) (a : Reg) (imm : BitVec 16) : State → Result := accessWord fun s =>
  match placeAccess s (aviewOf s.warp) s.warp .read (s.s1 a + sext64 imm) 1 with
  | (.ok k, s) => stepAccess (if l1 then stampLoad s s.warp.coreIx k else s)
  | (.error _, s) => stepAccess s

/-- PREFS.L1 (R131). -/
def execPrefsL1 (a : Reg) (imm : BitVec 16) : State → Result := prefetchScalar true a imm
/-- PREFS.L2 (R131). -/
def execPrefsL2 (a : Reg) (imm : BitVec 16) : State → Result := prefetchScalar false a imm

/-! ## Queues (R132 to R135) -/

/-- Capacity of a queue (R18, R20). -/
def queueMax : Nat := 16
def queueLen (w : Warp) (q : BitVec 3) : Nat := (w.fq[q.toNat]'q.isLt).length
/-- The tag QTAG gives a queue (R132). -/
def queueTag (w : Warp) (q : BitVec 3) : FmtTag := BitVec.ofNat 4 (w.qtag.toNat / 2 ^ (4 * q.toNat))
def pushQueue (s : State) (q : BitVec 3) (e : QEntry) : State :=
  modWarp s fun w => { w with fq := w.fq.set q.toNat (w.fq[q.toNat]'q.isLt ++ [e]) q.isLt }

/-- Place the lanes of a vector access: every lane's outcome. -/
def accPlaces (n : Nat) : List (Nat × DWord) → State → List (Nat × DWord × Except AccErr Nat) × State
  | [], s => ([], s)
  | (i, ea) :: t, s =>
    let (r, s) := accPlace s .read n ea
    let (l, s) := accPlaces n t s
    ((i, ea, r) :: l, s)

/-- The first condition in the order of R87 among lanes, with its lowest lane and address. -/
def firstFail (l : List (Nat × DWord × AccErr)) : Option (AccErr × Nat × DWord) :=
  ([AccErr.align, .bounds, .prot, .page, .fabric].find? fun e => l.any fun p => p.2.2 == e).bind fun e =>
    (l.find? fun p => p.2.2 == e).map fun p => (e, p.1, p.2.1)

/-- LDQ (R133). -/
def execLdq (a : Reg) (q : BitVec 3) (stride : BitVec 18) : State → Result := accessWord fun s =>
  if queueMax ≤ queueLen s.warp q then stallQueue s
  else
    let lanes := laneIds.map fun i => (i, s.s1 a + BitVec.ofNat 64 i * sext64 stride)
    let (l, s') := accPlaces 4 lanes s
    match firstFail (l.filterMap fun p => match p.2.2 with | .error e => some (p.1, p.2.1, e) | .ok _ => none) with
    | some (e, i, ea) => accFail s' e i ea
    | none =>
      let ok := l.filterMap fun p => match p.2.2 with | .ok k => some (p.2.1, k) | .error _ => none
      match accRead s' 4 ok with
      | .ok (bs, s) =>
        let bad := LaneMask.ofPred fun i => (ok[i]?.map fun p => loadPoisoned s s.warp (keysFrom p.2 4)).getD false
        stepAccess (pushQueue s q ⟨true, bs.map fun b => BitVec.ofNat 32 (ofBytesLE b), queueTag s.warp q, bad⟩)
      | .wait => s
      | .mismatch => noteMismatch s

/-- QPUSH (R134). -/
def execQpush (a : Reg) (q : BitVec 3) (hi : Bool) : State → Result := accessWord fun s =>
  if queueMax ≤ queueLen s.warp q then stallQueue s
  else
    let v := if hi then hi32 (s.s1 a) else lo32 (s.s1 a)
    stepAccess (pushQueue s q ⟨false, [v], queueTag s.warp q, 0#32⟩)

/-- A pop or peek of a back queue (R135). -/
def popBack (d : Reg) (bq peek : Bool) (lanes : List Nat) (f : BEntry → DWord) : State → Result := accessWord fun s =>
  let k := if bq then 1 else 0
  match s.warp.bq.getD k [] with
  | [] => stallQueue s
  | e :: rest =>
    if lanes.any e.poison.has then accessPoison s
    else
      let s := if peek then s else modWarp s fun w => { w with bq := w.bq.setIfInBounds k rest }
      putS s d (f e)

def BEntry.lane (e : BEntry) (i : Nat) : Word := e.ws.getD i 0#32

/-- QPOP.W (R135). -/
def execQpopW (d : Reg) (bq : Bool) (lane : BitVec 5) (peek : Bool) : State → Result :=
  popBack d bq peek [lane.toNat] fun e => zext64 (e.lane lane.toNat)

/-- QPOP.D (R135): an odd lane traps ILLEGAL. -/
def execQpopD (d : Reg) (bq : Bool) (lane : BitVec 5) (peek : Bool) : State → Result :=
  if lane.getLsbD 0 then accessWord fun s => accessTrap s Code.illegal 0 0#16 0#64
  else popBack d bq peek [lane.toNat, lane.toNat + 1] fun e => pair64 (e.lane lane.toNat) (e.lane (lane.toNat + 1))

/-- QPOP.M (R135). -/
def execQpopM (d : Reg) (bq : Bool) (peek : Bool) : State → Result :=
  popBack d bq peek [] fun e => zext64 e.mask + zext64 e.tag <<< 32

/-! ## Translation (R136 to R138) -/

/-- The register after an even one. -/
def regNext (a : Reg) : Reg := a + 1#5

/-- XLATS (R136). -/
def execXlats (d a : Reg) (imm : BitVec 16) : State → Result := accessWord fun s =>
  if a.getLsbD 0 then accessTrap s Code.illegal 0 0#16 0#64
  else
    match kvAddr s (aviewOf s.warp) s.warp 0 (s.s1 a).toNat (s.s1 (regNext a)).toNat with
    | (.addr _ _ _ true, s) => accessPoison s
    | (.addr v _ _ false, s) => putS s d (v + zext64 imm)
    | (.unmapped e _, s) => accessTrap s Code.page 0 0#16 e
    | (.err e va, s) => accFail s e 0 va

/-- The condition that stops a vector translation: PROT, PAGE or FABRIC of the tables, or an unmapped position. -/
def kvFail (l : List (Nat × KvRes)) : Option (AccErr × Nat × DWord) :=
  firstFail (l.filterMap fun p => match p.2 with
    | .unmapped e _ => some (p.1, e, .page)
    | .err e va => some (p.1, va, e)
    | .addr _ _ _ _ => none)

/-- XLATQ (R137): two entries tagged ADDR64. -/
def execXlatq (a : Reg) (q : BitVec 3) (stride : BitVec 18) : State → Result := accessWord fun s =>
  if a.getLsbD 0 then accessTrap s Code.illegal 0 0#16 0#64
  else if queueMax < queueLen s.warp q + 2 then stallQueue s
  else
    let pos := laneIds.map fun i => (i, (s.s1 a).toNat, (s.s1 (regNext a) + BitVec.ofNat 64 i * sext64 stride).toNat)
    let (l, s) := kvLanes (aviewOf s.warp) s.warp pos [] s
    match kvFail l with
    | some (e, i, va) => accFail s e i va
    | none =>
      let va (p : Nat × KvRes) : DWord := match p.2 with | .addr a _ _ _ => a | _ => 0#64
      let bad := LaneMask.ofPred fun i => l.any fun p => p.1 == i && (match p.2 with | .addr _ _ _ b => b | _ => false)
      let s := pushQueue s q ⟨true, l.map fun p => lo32 (va p), 0xA#4, bad⟩
      stepAccess (pushQueue s q ⟨true, l.map fun p => hi32 (va p), 0xA#4, bad⟩)

/-! ## Stream control (R139 to R143) -/

/-- What the lane stream of a new warp knows: writes before its grid's launch (R34). -/
def launchView (own since : Nat) : PathView := { PathView.start own since with hor := [(.t, none, since)] }

/-- LSTART (R139). -/
def execLstart (a : Reg) : State → Result := accessWord fun s =>
  let pc := s.s1 a
  if s.warp.lstarted then accessTrap s Code.illegal 0 0#16 0#64
  else if pc.toNat % 4 ≠ 0 then accessTrap s Code.align 0 0#16 pc
  else
    let since := ((gridById s s.warp.grid).map (·.since)).getD s.serial
    let sp : Split := {
      id := 0, pc := pc, mask := s.warp.alive, sig := 0#32, join := none, ts := none, wait := .none, only := none
      entered := s.cycle, issued := s.draws, view := launchView (2 * s.warp.id) since }
    let s := stepAccess (modWarp s fun w => { w with lstarted := true, watch := s.cycle })
    -- a rung group's warp without an item (R295)
    if s.warp.alive = 0#32 then endNormal s pc
    else modWarp s fun w => { w with slotA := some sp }

/-- An LWAIT whose count is reached completes (R22). -/
def finishLwait (s : State) (n : Word) : State :=
  stepAccess (modWarp s fun w => if w.lm = n then { w with aview := w.aview.learn w.lmView } else w)

/-- LWAIT (R140). -/
def execLwait (a : Reg) (imm : BitVec 16) : State → Result := accessWord fun s =>
  let n := lo32 (s.s1 a + zext64 imm)
  let s := modWarp s fun w => { w with am := n }
  if reached s.warp.lm n then finishLwait s n else modWarp s fun w => { w with acc := .lwait n }

/-- LWAIT_COMPLETE (R22). -/
def execLwaitComplete (s : State) : Result :=
  match s.warp.acc with
  | .lwait n => .next (if reached s.warp.lm n then finishLwait s n else s)
  | _ => .next s

/-- HALTS (R141): before LSTART it ends the warp normally. -/
def execHalts : State → Result := accessWord fun s =>
  if s.warp.lstarted then groupAccess (modWarp s fun w => { w with acc := .halted, bq := Vector.replicate 2 [] })
  else endNormal (groupAccess s) s.warp.apc

/-- Warps of the core, other than the issuing one, with a ready access instruction. -/
def readyOthers (s : State) : List Nat :=
  (s.others.filter fun w => w.coreIx == s.warp.coreIx && w.ended.isNone && w.acc == .ready).map (·.id)

/-- YIELDS (R142). -/
def execYields (imm : BitVec 16) : State → Result := accessWord fun s =>
  let wait : AccWait := if imm = 0#16 then (if (readyOthers s).isEmpty then .ready else .yieldRound (readyOthers s))
    else .yieldUntil (s.cycle + imm.toNat)
  modWarp (stepAccess s) fun w => { w with acc := wait }

/-- YIELDS_EXPIRE (R142). -/
def execYieldsExpire (s : State) : Result :=
  match s.warp.acc with
  | .yieldUntil c => .next (if c ≤ s.cycle then modWarp s fun w => { w with acc := .ready } else s)
  | _ => .next s

/-- After the pump has served a warp: it leaves every round of YIELDS 0 that waits for it, and so do warps that are not
ready (R142). -/
def pumpServed (s : State) (id : Nat) : State :=
  let gone (n : Nat) : Bool := n == id || !((allWarps s).any fun w => w.id == n && w.ended.isNone && w.acc == .ready)
  let f (w : Warp) : Warp := match w.acc with
    | .yieldRound l => let l := l.filter fun n => !gone n; { w with acc := if l.isEmpty then .ready else .yieldRound l }
    | _ => w
  { s with warp := f s.warp, others := s.others.map f }

/-- TRAPS (R143). -/
def execTraps (a : Reg) (imm : BitVec 16) : State → Result := accessWord fun s =>
  accessTrap s Code.software 0 imm (s.s1 a)

/-- QUEUE_STALL_END (R19): what waits for a queue tries again. -/
def execQueueStallEnd (s : State) : Result :=
  .next (modWarp (wakeSplits s fun sp => sp.wait == .queue) fun w =>
    { w with acc := if w.acc = .queue then .ready else w.acc })

/-! ## Control registers (R145) -/

/-- CSRRS (R145). -/
def execCsrrs (d : Reg) (csr : BitVec 16) : State → Result := accessWord fun s =>
  match csrInfo csr.toNat with
  | some i => if i.accR then putS s d (csrGet s s.warp none csr.toNat) else accessTrap s Code.illegal 0 0#16 0#64
  | none => accessTrap s Code.illegal 0 0#16 0#64

/-- CSRWS (R145). -/
def execCsrws (a : Reg) (csr : BitVec 16) : State → Result := accessWord fun s =>
  let v := s.s1 a
  match csrInfo csr.toNat with
  | some i =>
    if !i.accW || !csrAdmits s.warp none csr.toNat v then accessTrap s Code.illegal 0 0#16 0#64
    else
      match csrPut s (aviewOf s.warp) none csr.toNat v with
      | (none, s) => stepAccess s
      | (some (code, va), s) => accessTrap s code 0 0#16 va
  | none => accessTrap s Code.illegal 0 0#16 0#64

/-- UNDEFINED_ACCESS_WORD (R67). R146 names no address for an ILLEGAL word; AFADDR becomes 0 here and at every other
ILLEGAL of the access stream: DESIGN CHOICE (log 91). -/
def execUndefinedAccessWord (_w : BitVec 32) : State → Result := accessWord fun s =>
  accessTrap s Code.illegal 0 0#16 0#64

end Sys2Proof.Machine
end

