-- ==== Sys2Proof/Machine/Barrier.lean ====
section
/-! DEFINITION. Barrier objects (R216 to R222): the object, its indivisible update, what a completed phase lets an
observer know, the six instructions, and the return of a waiting BAR.WAIT. -/

namespace Sys2Proof.Machine

/-- A barrier object (R216). -/
structure BarObj where
  reload : Word
  pendB : Word
  expArr : Nat
  pendArr : Nat
  phase : Word
deriving DecidableEq, Repr

def BarObj.parse (bs : List Byte) : BarObj :=
  let f (o n : Nat) : Nat := ofBytesLE ((bs.drop o).take n)
  ⟨BitVec.ofNat 32 (f 12 4), BitVec.ofNat 32 (f 8 4), f 6 2, f 4 2, BitVec.ofNat 32 (f 0 4)⟩

def BarObj.bytes (o : BarObj) : List Byte :=
  toBytesLE 4 o.phase.toNat ++ toBytesLE 2 o.pendArr ++ toBytesLE 2 o.expArr ++ toBytesLE 4 o.pendB.toNat
    ++ toBytesLE 4 o.reload.toNat

/-- The end of every update (R217). -/
def BarObj.settle (o : BarObj) : BarObj :=
  if o.pendArr = 0 && o.pendB == 0#32 then { o with phase := o.phase + 1#32, pendArr := o.expArr, pendB := o.reload }
  else o

/-- n arrivals; those beyond PEND_ARR are dropped (R219). -/
def BarObj.arrive (o : BarObj) (n : Nat) : BarObj := { o with pendArr := o.pendArr - min n o.pendArr }

/-- An announcement of bytes (R220). -/
def BarObj.expect (o : BarObj) (b : Word) (rld arv : Bool) : BarObj :=
  let o := { o with pendB := o.pendB + b, reload := if rld then o.reload + b else o.reload }
  if arv then o.arrive 1 else o

/-- Bytes that an engine landed (R217). -/
def BarObj.landed (o : BarObj) (n : Nat) : BarObj := { o with pendB := o.pendB - BitVec.ofNat 32 n }

def readBar (s : State) (v : PathView) (key : Nat) : BarObj :=
  BarObj.parse (readBytes s { v with epoch := none } .g 63 (keysFrom key 16))

/-- A phase completes: the landings counted in it close, and what its arrivals knew is complete (R195, R222). -/
def closePhase (s : State) (key : Nat) : State :=
  let (run, done) := Tab.getD s.barSeen key (⟨0, []⟩, ⟨0, []⟩)
  { s with
    landings := s.landings.map fun l => if l.objs.contains key then { l with closed := true } else l
    barSeen := Tab.put s.barSeen key (⟨0, []⟩, done.join run) }

/-- One indivisible update of an object as a G access (R217), an atomic of a core or performed at the home for an engine
(R192). -/
def barUpdate (s : State) (v : PathView) (core : Option Nat) (key : Nat) (f : BarObj → BarObj) : State :=
  let o := readBar s v key
  let o' := f o
  let n := o'.settle
  let s := publish (writeBytes s { v with epoch := none } .g 0 (keysFrom key 16) n.bytes false) v
  let s := match core with | some c => stampStore s c key | none => stampHome s 0#48 key
  if n.phase = o'.phase then s else closePhase s key

/-- What an arrival hands on (R222). -/
def noteArrival (s : State) (v : PathView) (key : Nat) : State :=
  let (run, done) := Tab.getD s.barSeen key (⟨0, []⟩, ⟨0, []⟩)
  { s with barSeen := Tab.put s.barSeen key (run.join (v.pass s.serial), done) }

/-- Engine bytes landed against an object (R217). -/
def barLand (s : State) (key n : Nat) : State := barUpdate s (PathView.start 0 s.serial) none key fun o => o.landed n

/-- Record a landing of a path against an object (R195). -/
def newLanding (s : State) (p : Path) (objs : List Nat) : Nat × State :=
  (s.nextId, { s with nextId := s.nextId + 1, landings := ⟨s.nextId, p, objs, false⟩ :: s.landings })

/-- Engine bytes landed against every object of an operation. -/
def barLandAll (s : State) (objs : List Nat) (n : Nat) : State := objs.foldl (fun s k => barLand s k n) s

/-- What an observer of a completed phase knows (R195, R222). -/
def observePhase (s : State) (v : PathView) (key : Nat) : PathView :=
  let (_, done) := Tab.getD s.barSeen key (⟨0, []⟩, ⟨0, []⟩)
  let ids := (s.landings.filter fun l => l.objs.contains key && l.closed).map (·.id)
  { v.learn done with observed := v.observed ++ ids.filter fun n => !v.observed.contains n }

/-! ## The instructions -/

/-- Team offset to key: ALIGN, then BOUNDS (R216). -/
def objKey (t : Option Team) (off : Int) : Except AccErr Nat :=
  if off % 16 ≠ 0 then .error .align
  else match t with
    | none => .error .bounds
    | some t => if 0 ≤ off && off + 16 ≤ t.total then .ok (spKey t.coreIx (t.base + off.toNat)) else .error .bounds

/-- The object a word names: its operands are those of the lowest lane of P (R216). -/
def Cx.object (cx : Cx) : Except AccErr Nat :=
  let t := if cx.xb 2 then teamOnCore cx.s cx.s.warp (cx.x 1 0) else teamById cx.s cx.s.warp.team
  objKey t (cx.a.word cx.lane0).toInt

/-- The partner's object at the same offset: a once-performed update applies to both copies' objects (R333). -/
def partnerObject (s : State) (w : Warp) (t : Option Team) (off : Int) : Option Nat :=
  if w.rg.isNone then none
  else match (objKey (t.bind fun t => t.partner.bind (teamById s)) off) with
    | .ok k => some k
    | .error _ => none

/-- The keys a once-performed update reaches: the named object, and in a redundant group its twin (R333). -/
def Cx.objects (cx : Cx) (key : Nat) : List Nat :=
  let t := if cx.xb 2 then teamOnCore cx.s cx.s.warp (cx.x 1 0) else teamById cx.s cx.s.warp.team
  key :: (partnerObject cx.s cx.s.warp t (cx.a.word cx.lane0).toInt).toList

/-- A barrier word with its object found; ALIGN and BOUNDS name P. -/
def barWord (i : Instr) (body : Cx → Nat → LaneRes) : State → Result :=
  laneWord i { deaths := some lowDeaths } fun cx =>
    match cx.object with
    | .error e => .trap (laneTrap e.trap 2 0#32 ((LaneMask.lanes cx.p).map fun l => (l, sext64 (cx.a.word cx.lane0))))
    | .ok k => body cx k

/-- BAR.INIT (R218). -/
def execBarInit (w : Strip) : State → Result := barWord (.barInit w) fun cx k =>
  let n := (cx.b.word cx.lane0).toNat % 2 ^ 16
  let n := if n = 0 then 1 else n
  let c := cx.c.word cx.lane0
  .done { s := seeSplit (barUpdate cx.s cx.view (some cx.s.warp.coreIx) k fun _ => ⟨c, c, n, n, 0#32⟩) }

/-- An arrival or an announcement of the issuing split at an object: what it hands on, then the update. -/
def Cx.arriveAt (cx : Cx) (s : State) (k : Nat) (f : BarObj → BarObj) : State :=
  barUpdate (noteArrival s cx.view k) cx.view (some cx.s.warp.coreIx) k f

/-- BAR.ARRIVE (R219). -/
def execBarArrive (w : Strip) : State → Result := barWord (.barArrive w) fun cx k =>
  let token := (readBar cx.s cx.view k).phase
  let s := (cx.objects k).foldl (fun s k => cx.arriveAt s k fun o => o.arrive (cx.x 10 3 + 1)) cx.s
  .done { s := seeSplit s, regs := [mkWrite cx.d (.uniform token) cx.p 2#4], var := true }

/-- BAR.EXPECT (R220). -/
def execBarExpect (w : Strip) : State → Result := barWord (.barExpect w) fun cx k =>
  let b := cx.b.word cx.lane0
  .done { s := seeSplit ((cx.objects k).foldl (fun s k => cx.arriveAt s k fun o => o.expect b (cx.xb 4) (cx.xb 3)) cx.s) }

/-- The split observes a completed phase of an object. -/
def observe (s : State) (key : Nat) : State := s.modSplit fun sp => { sp with view := observePhase s sp.view key }

/-- BAR.WAIT (R221). -/
def execBarWait (w : Strip) : State → Result := barWord (.barWait w) fun cx k =>
  let token := cx.b.word cx.lane0
  if (readBar cx.s cx.view k).phase = token then .hold (cx.s.setSplit (some { cx.sp with wait := .barWait k token }))
  else .done { s := observe cx.s k }

/-- BAR.TEST (R221). -/
def execBarTest (w : Strip) : State → Result := barWord (.barTest w) fun cx k =>
  let hit := (readBar cx.s cx.view k).phase != cx.b.word cx.lane0
  .done { s := if hit then observe cx.s k else cx.s, preds := [⟨cx.x 5 3, if hit then cx.p else 0#32, cx.p⟩], var := true }

/-- Whether the object a split waits on has left the phase of its token. -/
def barReady (s : State) : SplitWait → Bool
  | .barWait k t => (readBar s (PathView.start 0 s.serial) k).phase != t
  | _ => false

/-- BAR.WAIT of the word a waiting split holds. -/
def runBarWait : Instr → State → Option Result
  | .barWait w, s => some (execBarWait w s)
  | _, _ => none

/-- BAR_WAIT_RETURN (R221): a waiting BAR.WAIT whose phase has changed returns. -/
def execBarWaitReturn (s : State) : Result :=
  let go (s : State) (b : Bool) : State := if slotWaits s b (barReady s) then resumeWord s b runBarWait else s
  .next (go (go s false) true)

end Sys2Proof.Machine
end

