-- ==== Sys2Proof/Machine/Transc.lean ====
section
/-! DEFINITION. FEXP2, FLOG2 and FEXPE (R153, R154, R157): the exact function value rounded once to nearest even.
The value is computed in fixed point with 320 fraction bits and an error below 2^(−300); log 5 says why that is
taken for the exact value. -/

namespace Sys2Proof.Machine

/-- Fraction bits of the fixed-point values. -/
def tP : Nat := 320

/-- Terms 1/(k 2^k) of ln 2 from k down to 1. -/
def ln2Terms : Nat → Nat
  | 0 => 0
  | k + 1 => 2 ^ (tP + 40) / ((k + 1) * 2 ^ (k + 1)) + ln2Terms k

/-- ln 2 with tP fraction bits. -/
def ln2Fix : Nat := ln2Terms (tP + 40) / 2 ^ 40

/-- Terms t^k/k! of the exponential, `n` of them left, the current one `term`. -/
def expTerms : Nat → Nat → Nat → Nat → Nat
  | 0, _, _, _ => 0
  | n + 1, k, term, t => term + expTerms n (k + 1) (term * t / (k * 2 ^ tP)) t

/-- e^t for 0 ≤ t < 1, fixed point. -/
def expFix (t : Nat) : Nat := expTerms 90 1 (2 ^ tP) t

/-- Terms u^(2k+1)/(2k+1) of atanh u, `n` left, the current power `pw`. -/
def atanhTerms : Nat → Nat → Nat → Nat → Nat
  | 0, _, _, _ => 0
  | n + 1, d, pw, u2 => pw / d + atanhTerms n (d + 2) (pw * u2 / 2 ^ tP) u2

/-- ln z for z = m / 2^b, 1 ≤ z < 2, fixed point. -/
def lnFix (m b : Nat) : Nat :=
  let u := (m - 2 ^ b) * 2 ^ tP / (m + 2 ^ b)
  2 * atanhTerms 110 1 u (u * u / 2 ^ tP)

/-- A finite value as a fixed-point integer; exponents below −tP are cut off. -/
def toFix (neg : Bool) (m : Nat) (e : Int) : Int :=
  let v : Nat := if 0 ≤ e + tP then m <<< (e + tP).toNat else m >>> (-(e + tP)).toNat
  if neg then -(v : Int) else v

/-- 2^a (R153, R154). -/
def fExp2 (x : Nat) : Nat :=
  let f := FloatFmt.f32
  (firstNan f [x]).getD <|
    match fval f x with
    | .inf neg => if neg then 0 else f.infCode
    | .fin neg m e =>
      if 9 < e then (if neg then 0 else f.infCode)
      else
        let v := toFix neg m e
        let n := v / 2 ^ tP
        let fr := (v % 2 ^ tP).toNat
        if fr = 0 then arith f 0 false (.fin false 1 n)
        else arith f 0 false (.fin false (expFix (fr * ln2Fix / 2 ^ tP)) (n - tP)) true
    | .nan => f.nanCode

/-- log2 a (R153, R154). -/
def fLog2 (x : Nat) : Nat :=
  let f := FloatFmt.f32
  (firstNan f [x]).getD <|
    match fval f x with
    | .inf neg => if neg then f.nanCode else f.infCode
    | .fin _ 0 _ => withSign f true f.infCode
    | .fin false m e =>
      let b := m.log2
      let n := e + b
      if m = 2 ^ b then arith f 0 false (.fin (decide (n < 0)) n.natAbs 0)
      else
        let v : Int := n * 2 ^ tP + ((lnFix m b * 2 ^ tP / ln2Fix : Nat) : Int)
        arith f 0 false (.fin (decide (v < 0)) v.natAbs (-tP)) true
    | _ => f.nanCode

/-- e^(a − b), the difference taken exactly (R157). -/
def fExpE (sat : Bool) (x y : Nat) : Nat :=
  let f := FloatFmt.f32
  (firstNan f [x, y]).getD <|
    match addVal 0 (fval f x) (negVal (fval f y)) with
    | .nan => f.nanCode
    | .inf neg => if neg then 0 else if sat then f.maxCode else f.infCode
    | .fin neg m e =>
      if m = 0 then 0x3F800000
      else if 9 < e + m.log2 then (if neg then 0 else if sat then f.maxCode else f.infCode)
      else
        let v := toFix neg m e
        let n := v / ln2Fix
        arith f 0 sat (.fin false (expFix (v % ln2Fix).toNat) (n - tP)) true

end Sys2Proof.Machine
end

