-- ==== Sys2Proof/Machine/FloatLane.lean ====
section
/-! DEFINITION. The F32, packed and narrow-product instructions (R153 to R157, R59, R60). -/

namespace Sys2Proof.Machine

def Cx.rm (cx : Cx) : Nat := cx.w.rm.toNat
def Cx.an (cx : Cx) (i : Nat) : Nat := (cx.a.word i).toNat
def Cx.bn (cx : Cx) (i : Nat) : Nat := (cx.b.word i).toNat
def Cx.cn (cx : Cx) (i : Nat) : Nat := (cx.c.word i).toNat

/-- A float word of one result. -/
def floatMap (i : Instr) (g : Cx → Nat → Nat) : State → Result := laneMap i fun cx l => BitVec.ofNat 32 (g cx l)

/-- FADD (R153). -/
def execFadd (w : Strip) : State → Result := floatMap (.fadd w) fun cx i => fAdd .f32 cx.rm cx.w.sat (cx.an i) (cx.bn i)

/-- FSUB (R153). -/
def execFsub (w : Strip) : State → Result := floatMap (.fsub w) fun cx i => fSub .f32 cx.rm cx.w.sat (cx.an i) (cx.bn i)

/-- FMUL (R153). -/
def execFmul (w : Strip) : State → Result := floatMap (.fmul w) fun cx i => fMul .f32 cx.rm cx.w.sat (cx.an i) (cx.bn i)

/-- FMA (R153). -/
def execFma (w : Strip) : State → Result := floatMap (.fma w) fun cx i => fMulAdd .f32 cx.rm cx.w.sat (cx.an i) (cx.bn i) (cx.cn i)

/-- FMIN (R153). -/
def execFmin (w : Strip) : State → Result := floatMap (.fmin w) fun cx i => fMinOf .f32 (cx.an i) (cx.bn i)

/-- FMAX (R153). -/
def execFmax (w : Strip) : State → Result := floatMap (.fmax w) fun cx i => fMaxOf .f32 (cx.an i) (cx.bn i)

/-- FDIV (R153). -/
def execFdiv (w : Strip) : State → Result := floatMap (.fdiv w) fun cx i => fDiv cx.rm (cx.an i) (cx.bn i)

/-- FSCALE (R153). -/
def execFscale (w : Strip) : State → Result := floatMap (.fscale w) fun cx i => fScale cx.rm cx.w.sat (cx.an i) (cx.b.word i).toInt

/-- FEXPE (R157). -/
def execFexpe (w : Strip) : State → Result := floatMap (.fexpe w) fun cx i => fExpE cx.w.sat (cx.an i) (cx.bn i)

/-- DOT4E (R156). -/
def execDot4e (w : Strip) : State → Result := floatMap (.dot4e w) fun cx i => dot4 cx.rm cx.w.sat cx.a.tag cx.b.tag (cx.a.word i) (cx.b.word i) (cx.c.word i)

/-- FRCP (R153). -/
def execFrcp (w : Strip) : State → Result := floatMap (.frcp w) fun cx i => fRcp cx.rm (cx.an i)

/-- FRSQ (R153). -/
def execFrsq (w : Strip) : State → Result := floatMap (.frsq w) fun cx i => fRsq (cx.an i)

/-- FSQRT (R153). -/
def execFsqrt (w : Strip) : State → Result := floatMap (.fsqrt w) fun cx i => fSqrt cx.rm (cx.an i)

/-- FEXP2 (R153). -/
def execFexp2 (w : Strip) : State → Result := floatMap (.fexp2 w) fun cx i => fExp2 (cx.an i)

/-- FLOG2 (R153). -/
def execFlog2 (w : Strip) : State → Result := floatMap (.flog2 w) fun cx i => fLog2 (cx.an i)

/-- FRINT (R153). -/
def execFrint (w : Strip) : State → Result := floatMap (.frint w) fun cx i => fRint cx.rm (cx.an i)

/-- FABS (R153). -/
def execFabs (w : Strip) : State → Result := floatMap (.fabs w) fun cx i => cx.an i % 2 ^ 31

/-- FNEG (R153). -/
def execFneg (w : Strip) : State → Result := floatMap (.fneg w) fun cx i => if 2 ^ 31 ≤ cx.an i then cx.an i - 2 ^ 31 else cx.an i + 2 ^ 31

/-- The rounded sum and its exact error (R59); the sum itself where it is not finite. -/
def twoSum (a b : Nat) : Nat × Nat :=
  let f := FloatFmt.f32
  let s := fAdd f 0 false a b
  match fval f s with
  | .fin _ _ _ => (s, arith f 0 false (addVal 0 (addVal 0 (fval f a) (fval f b)) (negVal (fval f s))))
  | _ => (s, s)

/-- The rounded sum and the error of the fast form (R60). -/
def fastSum (a b : Nat) : Nat × Nat :=
  let f := FloatFmt.f32
  let s := fAdd f 0 false a b
  match fval f s with
  | .fin _ _ _ => (s, fSub f 0 false b (fSub f 0 false s a))
  | _ => (s, s)

/-- A word that writes the pair D, D + 1, both tagged F32. -/
def pairMap (i : Instr) (g : Nat → Nat → Nat × Nat) : State → Result := laneWord i {} fun cx =>
  let r (l : Nat) := g (cx.an l) (cx.bn l)
  .done { s := cx.s, regs := [mkWrite cx.d (cx.mapLanes cx.allU fun l => BitVec.ofNat 32 (r l).1) cx.p 3#4,
    mkWrite (cx.d + 1) (cx.mapLanes cx.allU fun l => BitVec.ofNat 32 (r l).2) cx.p 3#4] }

/-- TWOSUM (R59). -/
def execTwosum (w : Strip) : State → Result := pairMap (.twosum w) twoSum

/-- FASTSUM (R60). -/
def execFastsum (w : Strip) : State → Result := pairMap (.fastsum w) fastSum

/-- FCMP (R155). -/
def execFcmp (w : Strip) : State → Result := laneWord (.fcmp w) {} fun cx =>
  cx.putPred (cx.x 2 0) fun i => fCond (cx.x 6 3) (cx.an i) (cx.bn i)

/-- FCLASS (R155). -/
def execFclass (w : Strip) : State → Result := laneWord (.fclass w) {} fun cx =>
  cx.put 2#4 fun i => BitVec.twoPow 32 (fClassBit (cx.an i))

/-- HADD2 (R156). -/
def execHadd2 (w : Strip) : State → Result :=
  laneMap (.hadd2 w) fun cx i => packed (fAdd (fmt16 cx.w.fmt) cx.rm cx.w.sat) (cx.a.word i) (cx.b.word i)

/-- HMUL2 (R156). -/
def execHmul2 (w : Strip) : State → Result :=
  laneMap (.hmul2 w) fun cx i => packed (fMul (fmt16 cx.w.fmt) cx.rm cx.w.sat) (cx.a.word i) (cx.b.word i)

/-- HFMA2 (R156). -/
def execHfma2 (w : Strip) : State → Result := laneMap (.hfma2 w) fun cx i =>
  let f := fmt16 cx.w.fmt
  let e (k : Nat) : Nat := fMulAdd f cx.rm cx.w.sat (half (cx.a.word i) k) (half (cx.b.word i) k) (half (cx.c.word i) k)
  pack2 (e 0) (e 1)

end Sys2Proof.Machine
end

