-- ==== Sys2Proof/Machine/IntLane.lean ====
section
/-! DEFINITION. The integer instructions, the moves and the lane constants (R149 to R152). -/

namespace Sys2Proof.Machine

/-! ## Values (R149, R150) -/

/-- An operand as an integer: signed under I32, unsigned under N32. -/
def sget (fmt : FmtTag) (v : Word) : Int := if fmt = 1#4 then v.toInt else (v.toNat : Int)
/-- The exact result, clamped under SAT, wrapped otherwise. -/
def intResult (cx : Cx) (z : Int) : Word := if cx.w.sat then clamp32 (cx.w.fmt == 1#4) z else wrap32 z
def highS (a b : Word) : Word := ((a.signExtend 64 * b.signExtend 64) >>> 32).setWidth 32
def highU (a b : Word) : Word := ((a.setWidth 64 * b.setWidth 64) >>> 32).setWidth 32
/-- n := b[7:0]. -/
def shiftAmount (b : Word) : Nat := b.toNat % 256
def shl (a : Word) (n : Nat) : Word := if 32 ≤ n then 0#32 else a <<< n
def shr (a : Word) (n : Nat) : Word := if 32 ≤ n then 0#32 else a >>> n
def sra (a : Word) (n : Nat) : Word := a.sshiftRight (if 32 ≤ n then 31 else n)
def leadingZeros (a : Word) : Nat := if a = 0#32 then 32 else 31 - a.toNat.log2
def popCount (a : Word) : Nat := (laneIds.filter (fun i => a.getLsbD i)).length
/-- IBFX (R150). -/
def fieldExtract (signed : Bool) (a b : Word) : Word :=
  let pos := b.toNat % 32
  let w := min (b.toNat / 256 % 64) 32
  let k := min (pos + w) 32 - pos
  let f := a.toNat / 2 ^ pos % 2 ^ k
  if signed && decide (0 < k) && f.testBit (k - 1) then BitVec.ofInt 32 ((f : Int) - 2 ^ k) else BitVec.ofNat 32 f
/-- IBFI (R150). -/
def fieldInsert (a b c : Word) : Word :=
  let pos := b.toNat % 32
  let w := min (b.toNat / 256 % 64) 32
  let mask : Word := BitVec.ofNat 32 ((2 ^ w - 1) * 2 ^ pos)
  (c &&& ~~~ mask) ||| ((a <<< pos) &&& mask)
/-- Division never traps (R150). -/
def divS (a b : Word) : Word := if b = 0#32 then 0xFFFFFFFF#32 else a.sdiv b
def divU (a b : Word) : Word := if b = 0#32 then 0xFFFFFFFF#32 else a / b

/-- A result that keeps the form base + lane × stride (R31). -/
def Cx.putAffine (cx : Cx) (ok : Bool) (base stride : Word) (g : Nat → Word) : LaneRes :=
  let val := if ok && !cx.allU then cx.shaped (.affine base stride) g else cx.mapLanes cx.allU g
  .done { s := cx.s, regs := [mkWrite cx.d val cx.p cx.w.fmt] }

/-- Both operands are U or A. -/
def Cx.linear (cx : Cx) : Bool := decide (cx.a.shape ≤ 1) && decide (cx.b.shape ≤ 1)

/-! ## Meanings -/

/-- NOP (R150): nothing is written. -/
def execNop (w : Strip) : State → Result := laneWord (.nop w) {} fun cx => .done { s := cx.s }

/-- IADD (R150). -/
def execIadd (w : Strip) : State → Result := laneWord (.iadd w) {} fun cx =>
  cx.putAffine (!cx.w.sat && cx.linear) (cx.a.base + cx.b.base) (cx.a.stride + cx.b.stride)
    fun i => intResult cx (sget cx.w.fmt (cx.a.word i) + sget cx.w.fmt (cx.b.word i))

/-- ISUB (R150). -/
def execIsub (w : Strip) : State → Result := laneWord (.isub w) {} fun cx =>
  cx.putAffine (!cx.w.sat && cx.linear) (cx.a.base - cx.b.base) (cx.a.stride - cx.b.stride)
    fun i => intResult cx (sget cx.w.fmt (cx.a.word i) - sget cx.w.fmt (cx.b.word i))

/-- ISHL (R150). -/
def execIshl (w : Strip) : State → Result := laneWord (.ishl w) {} fun cx =>
  let n := shiftAmount (cx.b.word cx.lane0)
  cx.putAffine (cx.linear && cx.b.shape == 0) (shl cx.a.base n) (shl cx.a.stride n)
    fun i => shl (cx.a.word i) (shiftAmount (cx.b.word i))

/-- IMUL (R150). -/
def execImul (w : Strip) : State → Result :=
  laneMap (.imul w) fun cx i => intResult cx (sget cx.w.fmt (cx.a.word i) * sget cx.w.fmt (cx.b.word i))

/-- IMAD (R150). -/
def execImad (w : Strip) : State → Result :=
  laneMap (.imad w) fun cx i => intResult cx (sget cx.w.fmt (cx.a.word i) * sget cx.w.fmt (cx.b.word i) + sget cx.w.fmt (cx.c.word i))

/-- IABS (R150). -/
def execIabs (w : Strip) : State → Result :=
  laneMap (.iabs w) fun cx i => intResult cx (((sget cx.w.fmt (cx.a.word i)).natAbs : Int))

/-- INEG (R150). -/
def execIneg (w : Strip) : State → Result :=
  laneMap (.ineg w) fun cx i => intResult cx (-(sget cx.w.fmt (cx.a.word i)))

/-- IMULH (R150). -/
def execImulh (w : Strip) : State → Result :=
  laneMap (.imulh w) fun cx i => highS (cx.a.word i) (cx.b.word i)

/-- IMULHN (R150). -/
def execImulhn (w : Strip) : State → Result :=
  laneMap (.imulhn w) fun cx i => highU (cx.a.word i) (cx.b.word i)

/-- IMIN (R150). -/
def execImin (w : Strip) : State → Result :=
  laneMap (.imin w) fun cx i => if (cx.b.word i).slt (cx.a.word i) then cx.b.word i else cx.a.word i

/-- IMAX (R150). -/
def execImax (w : Strip) : State → Result :=
  laneMap (.imax w) fun cx i => if (cx.a.word i).slt (cx.b.word i) then cx.b.word i else cx.a.word i

/-- IMINN (R150). -/
def execIminn (w : Strip) : State → Result :=
  laneMap (.iminn w) fun cx i => if (cx.b.word i).ult (cx.a.word i) then cx.b.word i else cx.a.word i

/-- IMAXN (R150). -/
def execImaxn (w : Strip) : State → Result :=
  laneMap (.imaxn w) fun cx i => if (cx.a.word i).ult (cx.b.word i) then cx.b.word i else cx.a.word i

/-- IAND (R150). -/
def execIand (w : Strip) : State → Result :=
  laneMap (.iand w) fun cx i => cx.a.word i &&& cx.b.word i

/-- IOR (R150). -/
def execIor (w : Strip) : State → Result :=
  laneMap (.ior w) fun cx i => cx.a.word i ||| cx.b.word i

/-- IXOR (R150). -/
def execIxor (w : Strip) : State → Result :=
  laneMap (.ixor w) fun cx i => cx.a.word i ^^^ cx.b.word i

/-- INOT (R150). -/
def execInot (w : Strip) : State → Result :=
  laneMap (.inot w) fun cx i => ~~~ cx.a.word i

/-- ISHR (R150). -/
def execIshr (w : Strip) : State → Result :=
  laneMap (.ishr w) fun cx i => shr (cx.a.word i) (shiftAmount (cx.b.word i))

/-- ISRA (R150). -/
def execIsra (w : Strip) : State → Result :=
  laneMap (.isra w) fun cx i => sra (cx.a.word i) (shiftAmount (cx.b.word i))

/-- IROT (R150). -/
def execIrot (w : Strip) : State → Result :=
  laneMap (.irot w) fun cx i => (cx.a.word i).rotateLeft ((cx.b.word i).toNat % 32)

/-- ICLZ (R150). -/
def execIclz (w : Strip) : State → Result :=
  laneMap (.iclz w) fun cx i => BitVec.ofNat 32 (leadingZeros (cx.a.word i))

/-- IPOPC (R150). -/
def execIpopc (w : Strip) : State → Result :=
  laneMap (.ipopc w) fun cx i => BitVec.ofNat 32 (popCount (cx.a.word i))

/-- IBREV (R150). -/
def execIbrev (w : Strip) : State → Result :=
  laneMap (.ibrev w) fun cx i => (cx.a.word i).reverse

/-- IBFX (R150). -/
def execIbfx (w : Strip) : State → Result :=
  laneMap (.ibfx w) fun cx i => fieldExtract (cx.w.fmt == 1#4) (cx.a.word i) (cx.b.word i)

/-- IBFI (R150). -/
def execIbfi (w : Strip) : State → Result :=
  laneMap (.ibfi w) fun cx i => fieldInsert (cx.a.word i) (cx.b.word i) (cx.c.word i)

/-- IDIV (R150). -/
def execIdiv (w : Strip) : State → Result :=
  laneMap (.idiv w) fun cx i => divS (cx.a.word i) (cx.b.word i)

/-- IDIVN (R150). -/
def execIdivn (w : Strip) : State → Result :=
  laneMap (.idivn w) fun cx i => divU (cx.a.word i) (cx.b.word i)

/-- IREM (R150). -/
def execIrem (w : Strip) : State → Result :=
  laneMap (.irem w) fun cx i => cx.a.word i - divS (cx.a.word i) (cx.b.word i) * cx.b.word i

/-- IREMN (R150). -/
def execIremn (w : Strip) : State → Result :=
  laneMap (.iremn w) fun cx i => cx.a.word i - divU (cx.a.word i) (cx.b.word i) * cx.b.word i

/-- ICMP (R151): a predicate and no register. -/
def execIcmp (w : Strip) : State → Result := laneWord (.icmp w) {} fun cx =>
  cx.putPred (cx.x 2 0) fun i => iCond (cx.x 6 3) (cx.w.fmt == 1#4) (cx.a.word i) (cx.b.word i)

/-- MOVI (R152). -/
def execMovi (w : Strip) : State → Result := laneWord (.movi w) {} fun cx => cx.putU cx.w.fmt cx.w.imm32

/-- No operand's poison kills a lane: a move carries the bit (R329). -/
def moveOpts : LaneOpts := { deaths := some fun _ => 0#32 }

/-- A copy of operand A with its tag or another, its metadata and poison. -/
def Cx.copyA (cx : Cx) (tag : FmtTag) (side : List (Byte × Byte)) (poison : LaneMask) : LaneRes :=
  let val := if cx.a.shape == 1 then cx.shaped (.affine cx.a.base cx.a.stride) cx.a.word
    else cx.mapLanes (cx.a.shape == 0) cx.a.word
  .done { s := cx.s, regs := [{ mkWrite cx.d val cx.p tag with side := side, poison := poison }] }

/-- MOV (R152): tag, metadata and poison travel with the value. -/
def execMov (w : Strip) : State → Result := laneWord (.mov w) moveOpts fun cx => cx.copyA cx.a.tag cx.a.side cx.a.poison

/-- ISEL (R152). The immediate follows FMT (R148). -/
def execIsel (w : Strip) : State → Result := laneWord (.isel w) moveOpts fun cx =>
  let pick (i : Nat) : Bool := cx.s.warp.predLane (cx.x 5 3) i
  let poison := LaneMask.ofPred fun i => if pick i then cx.a.poison.has i else cx.b.poison.has i
  -- the predicate differs lane by lane, so the result is U only under p7 (log 8)
  let uniform := cx.allU && cx.x 5 3 == 7
  .done { s := cx.s, regs := [{ mkWrite cx.d
    (cx.mapLanes uniform fun i => if pick i then cx.a.word i else cx.b.word i) cx.p cx.w.fmt with poison := poison }] }

/-- Lane i's register number in MOVX and MOVXD: the base plus b as unsigned. -/
def Cx.indexed (cx : Cx) (base i : Nat) : Nat := base + (cx.b.word i).toNat

/-- The lanes of P whose register lies past v247 or outside the allocation (R152). -/
def Cx.indexBad (cx : Cx) (base : Nat) : LaneMask :=
  LaneMask.ofPred fun i => cx.p.has i && !inAlloc cx.s.warp.units (cx.indexed base i)

/-- The registers that lanes of P name by index. -/
def Cx.indexRegs (cx : Cx) (base : Nat) : List Nat := ((LaneMask.lanes cx.p).map (cx.indexed base)).eraseDups

/-- MOVX (R152): lane i of the register A + b[i]. -/
def execMovx (w : Strip) : State → Result :=
  laneWord (.movx w) {
    budget := fun cx => cx.indexBad w.a.code.toNat
    badFormat := fun cx => (cx.indexRegs w.a.code.toNat).any fun n => (cx.s.warp.reg n).tag != w.fmt
    reads := fun cx => cx.indexRegs w.a.code.toNat
    deaths := some fun cx => cx.p &&& cx.b.poison } fun cx =>
    let rd (i : Nat) : Operand := readReg cx.s.draws cx.s.warp (cx.indexed w.a.code.toNat i)
    .done { s := cx.s, regs := [{ mkWrite cx.d (.lanes (laneIds.map fun i =>
      if cx.p.has i then (rd i).word i else 0#32)) cx.p cx.w.fmt with
        poison := LaneMask.ofPred fun i => cx.p.has i && (rd i).poison.has i }] }

/-- MOVXD (R152): lane i of the register D + b[i] receives a[i]; every register written becomes G. -/
def execMovxd (w : Strip) : State → Result :=
  laneWord (.movxd w) {
    budget := fun cx => cx.indexBad w.d.toNat
    deaths := some fun cx => cx.p &&& cx.b.poison } fun cx =>
    .done { s := cx.s, regs := (cx.indexRegs cx.d).map fun n =>
      let m := LaneMask.ofPred fun i => cx.p.has i && cx.indexed cx.d i == n
      { mkWrite n (.lanes cx.a.ws) m cx.w.fmt with poison := cx.a.poison } }

/-- LANEID (R152): base 0, stride 1 under a full mask. -/
def execLaneid (w : Strip) : State → Result := laneWord (.laneid w) {} fun cx =>
  .done { s := cx.s, regs := [mkWrite cx.d (if cx.full then .affine 0#32 1#32 else .lanes (laneIds.map (BitVec.ofNat 32 ·)))
    cx.p cx.w.fmt] }

end Sys2Proof.Machine
end

