-- ==== Sys2Proof/Machine/Convert.lean ====
section
/-! DEFINITION. Conversions, the BX4 block, tags and shapes (R42 to R45, R158 to R162). -/

namespace Sys2Proof.Machine

/-! ## BX4 (R42 to R44) -/

/-- E2M1 code without the extra value. -/
def e2m1Val (c : Nat) : FVal :=
  match fval .e2m1 (c % 8) with
  | .fin _ m e => .fin (decide (8 ≤ c)) m e
  | v => v

/-- Multiply by a power of two. -/
def scaleVal (v : FVal) (e : Int) : FVal :=
  match v with
  | .fin n m x => .fin n m (x + e)
  | v => v

/-- The value of a code under a block's SCALE and EXTRA (R44). -/
def bx4Val (code : Nat) (side : Byte × Byte) : FVal :=
  if side.1 = 0xFF#8 then .nan
  else scaleVal (if code = 8 then fval .e4m3 side.2.toNat else e2m1Val code) ((side.1.toNat : Int) - 127)

/-- Magnitude of a value as integer × 2^−300, an infinity counting as the largest F32 value (R160). -/
def magAt (v : FVal) : Nat :=
  match v with
  | .fin _ m e => m <<< (e + 300).toNat
  | _ => (2 ^ 24 - 1) <<< (104 + 300)

/-- Signed value as integer × 2^−300; none for an infinity or NaN. -/
def fixedAt (v : FVal) : Option Int :=
  match v with
  | .fin n m e => some (if n then -((m <<< (e + 300).toNat : Nat) : Int) else ((m <<< (e + 300).toNat : Nat) : Int))
  | _ => none

/-- |y − x| < |y − z| where all are finite; false otherwise. -/
def nearer (y x z : FVal) : Bool :=
  match fixedAt y, fixedAt x, fixedAt z with
  | some y, some x, some z => decide ((y - x).natAbs < (y - z).natAbs)
  | _, _, _ => false

/-- Floor of log2 of a nonzero magnitude at weight 2^−300. -/
def magLog (m : Nat) : Int := (m.log2 : Int) - 300

/-- One block quantised: its values by element number, RM; SCALE, EXTRA and the codes (R160). -/
def quantise (rm : Nat) (vals : List (Nat × FVal)) : (Byte × Byte) × List (Nat × Nat) :=
  if vals.any (fun p => p.2 == .nan) then ((0xFF#8, 0#8), vals.map fun p => (p.1, 0))
  else
    let top := vals.foldl (fun (acc : Nat × FVal × Nat) p =>
      let m := magAt p.2
      if acc.1 < m then (m, p.2, p.1) else if acc.1 = m && p.1 < acc.2.2 then (m, p.2, p.1) else acc) (0, .fin false 0 0, 32)
    let e : Int := if top.1 = 0 then 0 else max (magLog top.1 - 2) (-127)
    let extra : Nat := if rm = 0 && !vals.isEmpty then narrow .e4m3 0 (scaleVal top.2.1 (-e)) else 0
    let code (v : FVal) : Nat :=
      let y := scaleVal v (-e)
      let c := narrow .e2m1 rm y
      -- E2M1 has no negative zero: a result that rounds to zero is code 0 (log 9)
      let c := if c % 8 = 0 then 0 else c
      if rm = 0 && nearer y (fval .e4m3 extra) (e2m1Val c) then 8 else c
    ((BitVec.ofInt 8 (e + 127), BitVec.ofNat 8 extra), vals.map fun p => (p.1, code p.2))

/-! ## Meanings -/

/-- CVT (R158, R51). -/
def execCvt (w : Strip) : State → Result := laneMap (.cvt w) fun cx i =>
  let v := cx.a.word i
  if cx.a.tag = cx.w.fmt then v
  else if cx.a.tag = 3#4 then fToInt cx.rm (cx.w.fmt == 1#4) v.toNat
  else if cx.w.fmt = 3#4 then BitVec.ofNat 32 (intToF cx.rm (sget cx.a.tag v))
  else clamp32 (cx.w.fmt == 1#4) (sget cx.a.tag v)

/-- CVT.PK (R159). -/
def execCvtPk (w : Strip) : State → Result := laneMap (.cvtPk w) fun cx i =>
  if cx.w.fmt = 4#4 || cx.w.fmt = 5#4 then
    let f := convNarrow .f32 (fmt16 cx.w.fmt) cx.rm
    pack2 (f (cx.an i)) (f (cx.bn i))
  else
    let d := fmt8 cx.w.fmt
    let f (t : FmtTag) (v : Word) (k : Nat) : Nat := convNarrow (fmt16 t) d cx.rm (half v k)
    pack4 (f cx.a.tag (cx.a.word i) 0) (f cx.a.tag (cx.a.word i) 1) (f cx.b.tag (cx.b.word i) 0) (f cx.b.tag (cx.b.word i) 1)

/-- CVT.UPK (R159). -/
def execCvtUpk (w : Strip) : State → Result := laneMap (.cvtUpk w) fun cx i =>
  let h := cx.x 0 0
  let v := cx.a.word i
  if cx.w.fmt = 3#4 then BitVec.ofNat 32 (convWiden (fmt16 cx.a.tag) .f32 (half v h))
  else
    let f (k : Nat) : Nat := convWiden (fmt8 cx.a.tag) (fmt16 cx.w.fmt) (byteOf v (2 * h + k))
    pack2 (f 0) (f 1)

/-- The values of block b that take part, by element number 8j + k (R45, R160). -/
def Cx.blockVals (cx : Cx) (b : Nat) : List (Nat × FVal) :=
  (List.range 4).flatMap fun j =>
    if cx.p.has (4 * b + j) then
      (List.range 8).map fun k => (8 * j + k, fval .f32 ((cx.srcA k).word (4 * b + j)).toNat)
    else []

/-- QBX4 (R160). -/
def execQbx4 (w : Strip) : State → Result := laneWord (.qbx4 w) {} fun cx =>
  let blocks := (List.range 8).map fun b => quantise cx.rm (cx.blockVals b)
  let lane (i : Nat) : Word :=
    let codes := (blocks.getD (i / 4) ((0#8, 0#8), [])).2
    BitVec.ofNat 32 ((List.range 8).foldl (fun n k => n + Tab.getD codes (8 * (i % 4) + k) 0 * 16 ^ k) 0)
  let side := laneIds.map fun i => (blocks.getD (i / 4) ((0#8, 0#8), [])).1
  let uni := (List.range 8).all fun k => (cx.srcA k).shape == 0
  .done { s := cx.s, regs := [{ mkWrite cx.d (cx.mapLanes uni lane) cx.p 8#4 with side := side }] }

/-- DQBX4 (R161): element 8j + k of block b goes to register D + k, lane 4b + j. -/
def execDqbx4 (w : Strip) : State → Result := laneWord (.dqbx4 w) {} fun cx =>
  let elem (k i : Nat) : Word :=
    let side := cx.a.side.getD i sideZero
    let code := (cx.a.word i).toNat / 16 ^ k % 16
    -- a NaN extra value keeps its sign (R50)
    if code = 8 && side.1 != 0xFF#8 && isNan .e4m3 side.2.toNat then BitVec.ofNat 32 (convNan .e4m3 .f32 side.2.toNat)
    else BitVec.ofNat 32 (narrow .f32 cx.rm (bx4Val code side))
  .done { s := cx.s, regs := (List.range 8).map fun k => mkWrite (cx.d + k) (cx.mapLanes (cx.a.shape == 0) (elem k)) cx.p 3#4 }

/-- TAG (R162). -/
def execTag (w : Strip) : State → Result := laneWord (.tag w) {} fun cx =>
  let side := if cx.w.fmt = 8#4 then (if cx.a.side.isEmpty then List.replicate 32 sideZero else cx.a.side) else []
  cx.copyA cx.w.fmt side 0#32

/-- TAGR (R162). -/
def execTagr (w : Strip) : State → Result := laneWord (.tagr w) {} fun cx => cx.putU 2#4 (cx.a.tag.setWidth 32)

/-- SHAPE (R162): the register as it stands before any pattern. -/
def execShape (w : Strip) : State → Result := laneWord (.shape w) {} fun cx =>
  cx.putU 2#4 (match cx.x 1 0 with
    | 0 => BitVec.ofNat 32 cx.a.shape
    | 1 => cx.a.base
    | _ => if cx.a.shape = 1 then cx.a.stride else 0#32)

end Sys2Proof.Machine
end

