-- ==== Sys2Proof/Machine/Filter.lean ====
section
/-! DEFINITION. The logit filter (R314 to R318): arming, what it consumes of drained bytes, and the record of a row. -/

namespace Sys2Proof.Machine

/-! ## Names of operands read once -/

/-- The value of an operand in the lowest lane of P. -/
def Cx.low (cx : Cx) (o : Operand) : Word := o.word cx.lane0
/-- The team of the issuing warp, with an empty range where it has none. -/
def Cx.team (cx : Cx) : Team :=
  (teamById cx.s cx.s.warp.team).getD ⟨0, 0, 0, 0, 0, 0, 0, 0, 0, Vector.replicate 8 0#64, 0#4, 0#4, none, [], false, false, false, false, none, [], []⟩

/-- A trap that names every lane of P with one address or value; `posts` are the pages it reports. -/
def Cx.nameAll (cx : Cx) (code : BitVec 8) (kind : Nat) (v : DWord) (posts : List DWord) : TrapInfo :=
  { wholeTrap code cx.p with
    addrs := (LaneMask.lanes cx.p).map fun i => (i, v), kind := kind, posts := pagePosts code posts }

/-- Place accesses of a warp one after another: address and length. -/
def placeList (v : PathView) (w : Warp) (kind : AccKind) :
    List (DWord × Nat) → State → List (DWord × Except AccErr Nat) × State
  | [], s => ([], s)
  | (va, n) :: t, s =>
    let (r, s) := placeAccess s v w kind va n
    let (l, s) := placeList v w kind t s
    ((va, r) :: l, s)

/-- The addresses that fail with an error. -/
def failsWith (l : List (DWord × Except AccErr Nat)) (e : AccErr) : List DWord :=
  l.filterMap fun p => match p.2 with | .error x => if x = e then some p.1 else none | .ok _ => none

/-- The keys of accesses that all succeed. -/
def keysOf (l : List (DWord × Except AccErr Nat)) : List Nat :=
  l.filterMap fun p => match p.2 with | .ok k => some k | .error _ => none

/-- PROT, PAGE or FABRIC of placed accesses, naming all of P (R87). -/
def Cx.placedFail (cx : Cx) (kind : Nat) (l : List (DWord × Except AccErr Nat)) : Option TrapInfo :=
  [AccErr.bounds, .prot, .page, .fabric].findSome? fun e =>
    match failsWith l e with
    | [] => none
    | va :: t => some (cx.nameAll e.trap kind va (va :: t))

/-- The keys of n bytes from an address, given the key of its part in each page. -/
def windowKeys (va : DWord) (n : Nat) (pages : List Nat) : List Nat :=
  (cutsOf va n).zip pages |>.flatMap fun p => keysFrom p.2 p.1.2

/-- G loads of the split at placed keys, every lane at one place. -/
def Cx.loadKeys (cx : Cx) (s : State) (ks : List Nat) : List Byte × State :=
  let (bs, s) := gReads s cx.view s.warp.coreIx cx.lane0 ks
  (bs, afterLoads s ks bs)

/-! ## Descriptors (R314) -/

/-- Bytes of a row's record (R318). -/
def recordBytes (k : Nat) : Nat := ceilDiv (32 + 8 * k) 16 * 16

def FilterCtx.es (f : FilterCtx) : Nat := if f.efmt = 3#4 then 4 else 2
/-- Bytes from the window base to the last row's last element. -/
def FilterCtx.span (f : FilterCtx) : Nat := (f.rows - 1) * f.rstride + f.rlen * f.es

/-- A descriptor as read; none where a field breaks R314. -/
def parseFilter (bs : List Byte) : Option FilterCtx :=
  let f (o n : Nat) : Nat := ofBytesLE ((bs.drop o).take n)
  let efmt := f 24 1
  let es := if efmt = 3 then 4 else 2
  let c := f 28 4
  if f 0 8 % 4096 == 0 && decide (1 ≤ f 8 4 ∧ f 8 4 ≤ 65536) && decide (1 ≤ f 12 4 ∧ f 12 4 ≤ 2 ^ 20)
      && f 16 8 % 4096 == 0 && decide (f 12 4 * es ≤ f 16 8) && decide (3 ≤ efmt ∧ efmt ≤ 5)
      && decide (1 ≤ f 25 1 ∧ f 25 1 ≤ 64) && decide (f 26 1 < 2) && f 27 1 == 0
      && c / 2 ^ 23 % 256 != 255 && f 32 8 % 16 == 0 && f 40 24 == 0 then
    some { id := 0, ctx := 0, grid := 0, wbase := BitVec.ofNat 64 (f 0 8), rows := f 8 4, rlen := f 12 4
           rstride := f 16 8, efmt := BitVec.ofNat 4 efmt, k := f 25 1, keep := f 26 1 == 1
           cref := BitVec.ofNat 32 c, res := BitVec.ofNat 64 (f 32 8), resPages := [], objs := [], state := []
           armer := 0, split := 0, reg := 0, read := false, pub := none, epoch := none }
  else none

/-- Whether two windows of one context share a byte. -/
def FilterCtx.overlaps (a b : FilterCtx) : Bool :=
  a.ctx == b.ctx && decide (a.wbase.toNat < b.wbase.toNat + b.span) && decide (b.wbase.toNat < a.wbase.toNat + a.span)

/-- Filter contexts of a package. -/
def filterMax : Nat := 16

/-- Pages of the window: translated, writable and of the executing package. -/
def ownPages (s : State) : List (DWord × Except AccErr Nat) → List (DWord × Except AccErr Nat) :=
  List.map fun p => match p.2 with
    | .ok k => if k / 2 ^ 39 = s.chip || spBase ≤ k then p else (p.1, .error .prot)
    | .error .fabric => (p.1, .error .prot)
    | .error _ => p

/-- SAMP.ARM (R315). -/
def execSampArm (w : Strip) : State → Result :=
  laneWord (.sampArm w) { deaths := some lowDeaths } fun cx =>
    let s := cx.s
    let v := cx.view
    let a := cx.pairA cx.lane0
    let off := (cx.low cx.b).toInt
    if a.toNat % 16 ≠ 0 then .trap (cx.nameAll Code.align 1 a [])
    else
      match objKey (some cx.team) off with
      | .error e => .trap (cx.nameAll e.trap 2 (BitVec.ofInt 64 off) [])
      | .ok obj =>
        match placeSpan s v s.warp .read a 64 with
        | (.error e, _) => .trap (cx.nameAll e.1.trap 1 e.2 [e.2])
        | (.ok ks, s) =>
          let (bs, s) := cx.loadKeys s ks
          let status (s : State) (n : Nat) : LaneRes :=
            .done { s := s, regs := [mkWrite cx.d (.uniform (BitVec.ofNat 32 n)) cx.p 2#4], var := true }
          match parseFilter bs with
          | none => status s 2
          | some f =>
            let f := { f with
              id := s.nextId, ctx := s.warp.ctx, grid := s.warp.grid
              objs := obj :: (partnerObject s s.warp (some cx.team) off).toList
              armer := 2 * s.warp.id, split := cx.sp.id, reg := cx.d, epoch := v.epoch }
            if epochOutside s s.warp f.res (f.rows * recordBytes f.k) then .trap (cx.nameAll Code.epochwin 2 f.res []) else
            let (win, s) := placeList v s.warp .write (cutsOf f.wbase f.span) s
            let (res, s) := placeList v s.warp .write (cutsOf f.res (f.rows * recordBytes f.k)) s
            match cx.placedFail 2 (ownPages s win ++ res) with
            | some t => .trap t
            | none =>
              if s.filters.any f.overlaps then status s 3
              else if filterMax ≤ s.filters.length then status s 1
              else
                let pages := (res.zip (keysOf res)).map fun p => p.2 - p.1.1.toNat % 2 ^ 18
                status { s with nextId := s.nextId + 1, filters := s.filters ++ [{ f with resPages := pages }] } 0

/-! ## Consumption (R316) -/

/-- Row and offset in it of a byte of the window. -/
def FilterCtx.place (f : FilterCtx) (va : DWord) : Option (Nat × Nat) :=
  if f.wbase.toNat ≤ va.toNat then
    let d := va.toNat - f.wbase.toNat
    if d / f.rstride < f.rows && d % f.rstride < f.rlen * f.es then some (d / f.rstride, d % f.rstride) else none
  else none

def FilterCtx.row (f : FilterCtx) (r : Nat) : FilterRow := (f.state.find? (·.row == r)).getD ⟨r, [], false⟩
def FilterCtx.setRow (f : FilterCtx) (x : FilterRow) : FilterCtx :=
  { f with state := x :: f.state.filter (·.row != x.row) }

/-- Whether the split of a view and number knows that a context is armed: it issued the SAMP.ARM and has read its status,
or it has observed that status through G (R316). -/
def FilterCtx.knownTo (f : FilterCtx) (v : PathView) (split : Nat) : Bool :=
  f.read && ((f.armer == v.own && f.split == split) || f.pub.any fun n => decide (n ≤ v.gseen))

/-- Whether a drain is consumed by a context: always where its split knew the context to be armed, else by one free
choice for the whole drain (R316). -/
def consumes (op : DrainOp) (f : FilterCtx) : Bool :=
  op.armed.contains f.id || Config.choice 0 (choiceIx op.id f.id 59)

/-- The armed context that consumes drained bytes at an address. -/
def consumer (s : State) (op : DrainOp) (va : DWord) : Option (FilterCtx × Nat × Nat) :=
  s.filters.findSome? fun f =>
    match f.place va with
    | some (r, o) => if f.ctx = op.ctx && !(f.row r).done && consumes op f then some (f, r, o) else none
    | none => none

/-- Consume drained bytes: those that are stored, by their place among the bytes, and the state. Bytes past the row's last
element are not the filter's. None where no filter takes them. -/
def filterConsume (s : State) (op : DrainOp) (va : DWord) (bs : List Byte) : Option (Nat × State) :=
  match consumer s op va with
  | none => none
  | some (f, r, o) =>
    let x := f.row r
    let n := min bs.length (f.rlen * f.es - o)
    let f' := f.setRow { x with bytes := x.bytes ++ ((List.range n).map (o + ·)).zip (bs.take n) }
    some (if f.keep then 0 else n, { s with filters := s.filters.map fun g => if g.id = f.id then f' else g })

/-! ## Records (R317, R318) -/

/-- Element e of a row as F32. -/
def FilterCtx.elem (f : FilterCtx) (x : FilterRow) (e : Nat) : Nat :=
  let byte (k : Nat) : Nat := (((x.bytes.reverse.find? fun b => b.1 == f.es * e + k).map (·.2)).getD 0#8).toNat
  if f.efmt = 3#4 then byte 0 + byte 1 * 2 ^ 8 + byte 2 * 2 ^ 16 + byte 3 * 2 ^ 24
  else convWiden (fmt16 f.efmt) .f32 (byte 0 + byte 1 * 2 ^ 8)

/-- Sum and its range flag over the elements. -/
def filterSum (cref : Nat) (l : List Nat) : Nat × Bool :=
  l.foldl (fun (acc : Nat × Bool) x =>
    if isNan .f32 x then acc
    else match fval .f32 (fExpE false x cref) with
      | .fin false m e =>
        if (m : Int) * 2 ^ (e + 200).toNat < 2 ^ 231 then
          ((acc.1 + (if 0 ≤ e + 64 then m * 2 ^ (e + 64).toNat else roundShift 0 false m (-(e + 64)).toNat false)) % 2 ^ 128, acc.2)
        else (acc.1, true)
      | _ => (acc.1, true)) (0, false)

/-- Order of the shortlist: a NaN above every number, −0 equal to +0, equal keys by lower index. -/
def listKey (x : Nat) : Int := if isNan .f32 x then 2 ^ 40 else if x % 2 ^ 31 = 0 then 0 else fKey .f32 x
def listBefore (a b : Nat × Nat) : Bool := listKey b.2 < listKey a.2 || (listKey a.2 == listKey b.2 && decide (a.1 ≤ b.1))

/-- Insert into a list of at most k entries, greatest first. -/
def listInsert (x : Nat × Nat) : Nat → List (Nat × Nat) → List (Nat × Nat)
  | 0, _ => []
  | _ + 1, [] => [x]
  | k + 1, y :: t => if listBefore y x then y :: listInsert x k t else x :: (y :: t).take k

/-- A row's record. -/
def FilterCtx.record (f : FilterCtx) (x : FilterRow) : List Byte :=
  let l := (List.range f.rlen).map (f.elem x)
  let (sum, range) := filterSum f.cref.toNat l
  let nums := l.filter fun v => !isNan .f32 v
  let maxv := nums.foldl (fun m v => if fKey .f32 m < fKey .f32 v then v else m) 0xFF800000
  let top := (l.zipIdx.map fun p => (p.2, p.1)).foldl (fun acc p => listInsert p f.k acc) []
  let flags := (if range then 1 else 0) + (if nums.length < l.length then 2 else 0)
  let bs := toBytesLE 16 sum ++ toBytesLE 4 maxv ++ toBytesLE 4 f.rlen ++ toBytesLE 4 flags ++ toBytesLE 4 top.length
    ++ top.flatMap fun p => toBytesLE 4 p.1 ++ toBytesLE 4 p.2
  bs ++ List.replicate (recordBytes f.k - bs.length) 0#8

/-- Key of a byte of the result area. -/
def FilterCtx.resKey (f : FilterCtx) (o : Nat) : Nat :=
  let va := f.res.toNat + o
  f.resPages.getD (va / 2 ^ 18 - f.res.toNat / 2 ^ 18) 0 + va % 2 ^ 18

def FilterCtx.rowComplete (f : FilterCtx) (x : FilterRow) : Bool := !x.done && decide (f.rlen * f.es ≤ x.bytes.length)

/-- Whether the barrier object of a filter context belongs to a saved cluster. -/
def filterSaved (s : State) (id : Nat) : Bool := s.saved.any fun c => c.filterObjs.any fun o => o.1 == id

/-- Whether an epoch of a request is still open. -/
def epochOpen (s : State) (e : Nat × Nat) : Bool :=
  ((reqById s e.1).map fun r => r.epochs.any fun x => x.num == e.2 && x.state == 1#3).getD false

/-- A row's record is written and counted; after the last the context is free (R318). -/
def recordRow (s : State) (f : FilterCtx) (x : FilterRow) : State :=
  let recb := recordBytes f.k
  let (land, s) := newLanding s .b f.objs
  let keys := (List.range recb).map fun k => f.resKey (x.row * recb + k)
  let v := { PathView.start f.armer s.serial with epoch := f.epoch.filter (epochOpen s) }
  let s := writeBytes s v .b land keys (f.record x) false
  let f' := f.setRow { x with done := true }
  let all := (f'.state.filter (·.done)).length = f.rows
  let s := { s with filters :=
    if all then s.filters.filter (·.id != f.id) else s.filters.map fun g => if g.id = f.id then f' else g }
  barLandAll s f.objs recb

/-- FILTER_ROW_RECORD (R318): it waits while the object's cluster is saved. -/
def execFilterRowRecord (fctx row : Nat) (s : State) : Result :=
  match s.filters.find? (·.id == fctx) with
  | none => .next s
  | some f =>
    let x := f.row row
    if !f.rowComplete x || filterSaved s f.id then .next s else .next (recordRow s f x)

end Sys2Proof.Machine
end

