-- ==== Sys2Proof/Machine/Matrix.lean ====
section
/-! DEFINITION. The matrix path (R243 to R254, R304): the array's arithmetic (R53 to R57), the issue rules, the
matrix instructions, TMASK in both forms (R303 to R305), and the events that end loads, streams and drains. -/

namespace Sys2Proof.Machine

/-! ## Exact words (R53 to R57) -/

/-- The join of non-finite states (R55). -/
def NonFin.join : NonFin → NonFin → NonFin
  | .fin, b => b
  | a, .fin => a
  | .pinf, .pinf => .pinf
  | .ninf, .ninf => .ninf
  | _, _ => .nan

/-- An addend on the grid of an anchor (R54), with the state it joins (R55). -/
def fixOnGrid (anchor : Int) : FVal → BitVec 128 × NonFin
  | .nan => (0#128, .nan)
  | .inf neg => (0#128, if neg then .ninf else .pinf)
  | .fin neg mag exp =>
    let sh := anchor - 96 - exp
    let q : Nat := if 0 ≤ sh then roundShift 0 neg mag sh.toNat false else if sh ≤ -128 then 0 else mag <<< (-sh).toNat
    (BitVec.ofInt 128 (if neg then -(q : Int) else q), .fin)

/-- An addend enters a word (R54, R55). -/
def ExWord.add (x : ExWord) (anchor : Int) (p : FVal) : ExWord :=
  let (q, st) := fixOnGrid anchor p
  ⟨x.w + q, x.st.join st⟩

/-- A word rounded once into a format (R57). -/
def ExWord.drain (f : FloatFmt) (anchor : Int) (x : ExWord) : Nat :=
  match x.st with
  | .fin => narrow f 0 (.fin (decide (x.w.toInt < 0)) x.w.toInt.natAbs (anchor - 96))
  | .pinf => f.maxCode
  | .ninf => withSign f true f.maxCode
  | .nan => f.nanCode

/-- A row that nothing has written. -/
def AccRow.blank : AccRow := ⟨none, 0#16, List.replicate 128 ⟨0#128, .fin⟩⟩
def Core.row (c : Core) (r : Nat) : AccRow := Tab.getD c.rows r AccRow.blank
def AccRow.word (r : AccRow) (n : Nat) : ExWord := r.words.getD n ⟨0#128, .fin⟩

/-! ## Operands of the array (R243) -/

/-- Bytes of a weight column or an activation row. -/
def colBytes (fmt : FmtTag) : Nat := if fmt = 8#4 then 72 else if fmt = 4#4 || fmt = 5#4 then 256 else 128

/-- The values of a BX4 block of 18 bytes (R43, R44). -/
def blockVals (bs : List Byte) : List FVal :=
  (List.range 32).map fun k =>
    bx4Val ((bs.getD (k / 2) 0#8).toNat / 16 ^ (k % 2) % 16) (bs.getD 16 0#8, bs.getD 17 0#8)

/-- The 128 values of a column or row. -/
def elemVals (fmt : FmtTag) (bs : List Byte) : List FVal :=
  if fmt = 8#4 then (List.range 4).flatMap fun b => blockVals ((bs.drop (18 * b)).take 18)
  else if fmt = 4#4 || fmt = 5#4 then
    (List.range 128).map fun k => fval (fmt16 fmt) (ofBytesLE ((bs.drop (2 * k)).take 2))
  else bs.map fun b => fval (fmt8 fmt) b.toNat

/-- Allowed pairings of activation and weight formats. -/
def pairs (act weight : FmtTag) : Bool :=
  let e8 (t : FmtTag) : Bool := t == 6#4 || t == 7#4
  (e8 act && e8 weight) || (act == weight && (act == 4#4 || act == 5#4 || act == 8#4))

/-- One row step (R243, R54). -/
def stepRow (r : AccRow) (bad : Bool) (x : List FVal) (cols : List (List FVal)) (badCols : List Nat) : AccRow :=
  { r with words := r.words.zipIdx.map fun p =>
      let y := (x.zip (cols.getD p.2 [])).foldl (fun y q => y.add r.anchor.toInt (mulVal q.1 q.2)) p.1
      if bad || badCols.contains p.2 then { y with st := .nan } else y }

/-- Row steps of a stream, `n` of them (R251). -/
def streamRows (t : Team) (cols : List (List FVal)) (badCols : List Nat) : Nat → StreamOp → State → StreamOp × State
  | 0, op, s => (op, s)
  | n + 1, op, s =>
    let keys := keysFrom (spKey t.coreIx (t.base + op.off.toNat)) (colBytes op.fmt)
    let x := elemVals op.fmt (readBytes s op.view (if op.follow.isSome then .c else .m) 0 keys)
    let bad := anyPoisoned s keys
    let s := modCore s t.coreIx fun c =>
      { c with rows := Tab.put c.rows op.row (stepRow (c.row op.row) bad x cols badCols) }
    streamRows t cols badCols n { op with off := op.off + op.stride, row := op.row + 1, left := op.left - 1 } s

/-- Row steps of a team's stream on its core's active plane. -/
def runStream (s : State) (t : Team) (n : Nat) (op : StreamOp) : StreamOp × State :=
  let c := Tab.getD s.cores t.coreIx Core.init
  streamRows t (c.active.cols.map (elemVals c.active.fmt)) c.active.bad n op s

/-! ## Ownership and issue (R244, R245) -/

/-- Whether a row is owned by a warp of another cluster. -/
def rowForeign (s : State) (w : Warp) (r : Nat) : Bool :=
  match ((Tab.getD s.cores w.coreIx Core.init).row r).owner with
  | some o => (match warpById s o with | some x => !sameCluster x w | none => false)
  | none => false

/-- Whether a row is owned by a warp of the team. -/
def rowMine (s : State) (w : Warp) (r : Nat) : Bool :=
  match ((Tab.getD s.cores w.coreIx Core.init).row r).owner with
  | some o => (match warpById s o with | some x => x.team == w.team | none => false)
  | none => false

/-- Whether the planes are owned by another cluster's team. -/
def planesForeign (s : State) (w : Warp) : Bool :=
  match (Tab.getD s.cores w.coreIx Core.init).planeOwner with | some t => t != w.team | none => false

/-- Rows of a word (R247). -/
def Cx.rows (cx : Cx) : List Nat := (List.range (cx.x 13 7 + 1)).map (cx.x 6 0 + ·)

/-- PROT of the first row that a test refuses: no record, the row number in the trap save areas (R244). -/
def Cx.rowProt (cx : Cx) (bad : Nat → Bool) : Option TrapInfo :=
  (cx.rows.find? bad).map fun r => cx.nameAll Code.prot 0 (BitVec.ofNat 64 r) []

/-- PROT of the planes. -/
def Cx.planeProt (cx : Cx) : Option TrapInfo :=
  if planesForeign cx.s cx.s.warp then some (cx.nameAll Code.prot 0 0x10000#64 []) else none

/-- Whether [off + k * stride, … + n) for k below `count` all lie in the team's range. -/
def insideTeam (t : Team) (off stride : Int) (count n : Nat) : Bool :=
  let last := off + stride * ((count : Int) - 1)
  decide (0 ≤ off) && decide (0 ≤ last) && decide (off + n ≤ t.total) && decide (last + n ≤ t.total)

/-- A matrix word: it stalls while it cannot issue, then meets its checks, then acts. -/
def matrixWord (i : Instr) (o : LaneOpts) (stall : Team → Bool) (check : Cx → Option TrapInfo) (act : Cx → LaneRes) :
    State → Result :=
  laneWord i { o with deaths := some lowDeaths } fun cx =>
    if stall cx.team then .hold cx.s
    else match check cx with
      | some t => .trap t
      | none => act cx

def slotsBusy (t : Team) : Bool := decide (2 ≤ t.slots.length)
def slotsUsed (t : Team) : Bool := !t.slots.isEmpty

/-- Offset and stride operands. -/
def Cx.offA (cx : Cx) : Int := (cx.low cx.a).toInt
def Cx.strideB (cx : Cx) : Int := (cx.low cx.b).toInt

/-- ALIGN of 16-bit operands, then BOUNDS (R248, R251). -/
def Cx.tileCheck (cx : Cx) (count : Nat) : Option TrapInfo :=
  let two := cx.w.fmt == 4#4 || cx.w.fmt == 5#4
  if two && (cx.offA % 2 != 0 || cx.strideB % 2 != 0) then some (cx.nameAll Code.align 1 (BitVec.ofInt 64 cx.offA) [])
  else if !insideTeam cx.team cx.offA cx.strideB count (colBytes cx.w.fmt) then
    some (cx.nameAll Code.bounds 1 (BitVec.ofInt 64 cx.offA) [])
  else none

/-! ## The instructions -/

/-- MX.LOADW (R248): at issue. -/
def execMxLoadw (w : Strip) : State → Result :=
  matrixWord (.mxLoadw w) {} (fun t => t.loader.isSome) (fun cx => (cx.tileCheck 128).or cx.planeProt) fun cx =>
    let op : LoadOp := ⟨w.fmt, cx.offA.toNat, cx.strideB, cx.view⟩
    let s := modTeam cx.s cx.s.warp.team fun t => { t with shadowFmt := w.fmt, loader := some op }
    .done { s := modCore s s.warp.coreIx fun c => { c with planeOwner := c.planeOwner.or (some s.warp.team) } }

/-- The bytes of the shadow plane that a load brings, and the columns among them that are poisoned. -/
def loadPlane (s : State) (t : Team) (op : LoadOp) : Plane :=
  let keys (n : Nat) : List Nat := keysFrom (spKey t.coreIx (t.base + ((op.off : Int) + n * op.stride).toNat)) (colBytes op.fmt)
  { fmt := op.fmt
    cols := (List.range 128).map fun n => readBytes s op.view .m 0 (keys n)
    bad := (List.range 128).filter fun n => anyPoisoned s (keys n) }

/-- LOADER_DONE (R248). -/
def execLoaderDone (team : Nat) (s : State) : Result :=
  match teamById s team with
  | none => .next s
  | some t =>
    match t.loader with
    | none => .next s
    | some op =>
      let p := loadPlane s t op
      .next (modCore (modTeam s team fun t => { t with loader := none }) t.coreIx fun c => { c with shadow := p })

/-- MX.SWAP (R249). -/
def execMxSwap (w : Strip) : State → Result :=
  matrixWord (.mxSwap w) {} (fun t => t.loader.isSome || slotsUsed t) Cx.planeProt fun cx =>
    let s := modCore cx.s cx.s.warp.coreIx fun c => { c with active := c.shadow, shadow := c.active }
    .done { s := modTeam s s.warp.team fun t => { t with activeFmt := t.shadowFmt, shadowFmt := t.activeFmt } }

/-- Rewrite rows of the issuing warp's core. -/
def Cx.mapRows (cx : Cx) (f : Nat → AccRow → AccRow) : State :=
  modCore cx.s cx.s.warp.coreIx fun c =>
    { c with rows := cx.rows.foldl (fun l r => Tab.put l r (f r (c.row r))) c.rows }

/-- MX.CLEAR (R250). -/
def execMxClear (w : Strip) : State → Result :=
  matrixWord (.mxClear w) {} slotsUsed (fun cx => cx.rowProt (rowForeign cx.s cx.s.warp)) fun cx =>
    .done { s := cx.mapRows fun _ _ => { AccRow.blank with
      owner := some cx.s.warp.id, anchor := (cx.low cx.b).setWidth 16 } }

/-- MX.CLEAR with REL (R250): rows of the team are released; no row is cleared. -/
def execMxClearRel (w : Strip) : State → Result :=
  matrixWord (.mxClearRel w) {} slotsUsed (fun _ => none) fun cx =>
    .done { s := cx.mapRows fun r x => if rowMine cx.s cx.s.warp r then { x with owner := none } else x }

/-- A stream operation of a word. -/
def Cx.stream (cx : Cx) (follow : Option Nat) : StreamOp where
  state := .running
  fmt := cx.w.fmt
  off := cx.offA
  stride := cx.strideB
  row := cx.x 6 0
  left := cx.x 13 7 + 1
  warp := cx.s.warp.id
  view := cx.view
  follow := follow

/-- Put a stream into a slot: it runs unless an earlier one does. -/
def addStream (t : Team) (op : StreamOp) : Team :=
  let busy := t.slots.any fun x => x.state == .running
  { t with slots := t.slots ++ [{ op with state := if busy then .waiting else .running }] }

/-- MX.STREAM (R251): at issue. -/
def execMxStream (w : Strip) : State → Result :=
  matrixWord (.mxStream w) { badFormat := fun cx => !slotsBusy cx.team && !pairs w.fmt cx.team.activeFmt } slotsBusy
    (fun cx => ((cx.tileCheck (cx.x 13 7 + 1)).or cx.planeProt).or (cx.rowProt fun r => !rowMine cx.s cx.s.warp r))
    fun cx => .done { s := modTeam cx.s cx.s.warp.team fun t => addStream t (cx.stream none) }

/-- The first stream of a team that can run, and the other slots. -/
def nextStream : List StreamOp → Option (StreamOp × List StreamOp)
  | [] => none
  | x :: t => if x.state != .reserved then some (x, t) else (nextStream t).map fun p => (p.1, x :: p.2)

/-- The stream after the one that ended starts. -/
def startNext : List StreamOp → List StreamOp
  | [] => []
  | x :: t => if x.state == .waiting then { x with state := .running } :: t else x :: startNext t

/-- STREAM_DONE (R251). -/
def execStreamDone (team : Nat) (s : State) : Result :=
  match teamById s team with
  | none => .next s
  | some t =>
    match nextStream t.slots with
    | none => .next s
    | some (op, rest) =>
      let (_, s) := runStream s t op.left op
      .next (modTeam s team fun t => { t with slots := startNext rest })

/-- Registers that one row fills when it drains (R252). -/
def drainPer (fmt : FmtTag) : Nat := if fmt = 3#4 then 4 else if fmt = 9#4 then 16 else 2
def drainFmt (fmt : FmtTag) : FloatFmt := if fmt = 3#4 then .f32 else fmt16 fmt

/-- Lane i of register k of a drained row. -/
def drainLane (fmt : FmtTag) (r : AccRow) (k i : Nat) : Word :=
  let word (c : Nat) : Nat := (r.word c).drain (drainFmt fmt) r.anchor.toInt
  if fmt = 9#4 then BitVec.ofNat 32 ((r.word (k / 4 * 32 + i)).w.toNat / 2 ^ (32 * (k % 4)))
  else if fmt = 3#4 then BitVec.ofNat 32 (word (32 * k + i))
  else pack2 (word (64 * k + 2 * i)) (word (64 * k + 2 * i + 1))

/-- A word that is not finite, drained in exact form, sets NF (R245, R252). -/
def Cx.noteNf (cx : Cx) (s : State) (cols : List Nat) (teams : List Nat) : State :=
  let c := Tab.getD s.cores s.warp.coreIx Core.init
  if cx.w.fmt = 9#4 && cx.rows.any fun r => cols.any fun n => ((c.row r).word n).st != .fin then
    teams.foldl (fun s t => modTeam s t fun t => { t with nf := true }) s
  else s

/-- The team of the warp, and its other copy where the action is performed once for both (R333). -/
def Cx.bothTeams (cx : Cx) : List Nat :=
  cx.team.id :: (if cx.s.warp.rg.isSome then cx.team.partner.toList else [])

/-- MX.DRAIN to registers (R252). -/
def execMxDrainReg (w : Strip) : State → Result :=
  matrixWord (.mxDrainReg w) {} slotsUsed (fun cx => cx.rowProt (rowForeign cx.s cx.s.warp)) fun cx =>
    let per := drainPer w.fmt
    let c := Tab.getD cx.s.cores cx.s.warp.coreIx Core.init
    let regs := cx.rows.zipIdx.flatMap fun p => (List.range per).map fun k =>
      mkWrite (cx.d + per * p.2 + k) (.lanes (laneIds.map fun i => drainLane w.fmt (c.row p.1) k i)) cx.p w.fmt
    .done { s := cx.noteNf cx.s (List.range 128) [cx.team.id], regs := regs, var := true }

/-- Element size of a drain to memory (R253). -/
def drainSize (fmt : FmtTag) : Nat := if fmt = 9#4 then 16 else if fmt = 3#4 then 4 else 2

/-- The packed operand: object offset and the columns. -/
def Cx.drainObj (cx : Cx) : Nat := 16 * fieldNat (cx.low cx.c) 14 0
def Cx.drainCols (cx : Cx) : List Nat :=
  let col := fieldNat (cx.low cx.c) 21 15
  (List.range (min (col + fieldNat (cx.low cx.c) 28 22 + 1) 128 - col)).map (col + ·)

/-- Row, column and destination of every word of a drain. -/
def Cx.drainDsts (cx : Cx) : List (Nat × Nat × DWord) :=
  let ea := cx.pairA cx.lane0
  let es := drainSize cx.w.fmt
  cx.rows.zipIdx.flatMap fun p => cx.drainCols.zipIdx.map fun q =>
    (p.1, q.1, ea + BitVec.ofInt 64 (cx.strideB * p.2) + BitVec.ofNat 64 (q.2 * es))

/-- The object at a team offset with its twin. -/
def teamObjects (s : State) (w : Warp) (off : Nat) (key : Nat) : List Nat :=
  key :: (partnerObject s w (teamById s w.team) off).toList

/-- The bytes of a drained word. -/
def drainBytes (fmt : FmtTag) (r : AccRow) (n : Nat) : List Byte :=
  if fmt = 9#4 then toBytesLE 16 (r.word n).w.toNat
  else toBytesLE (drainSize fmt) ((r.word n).drain (drainFmt fmt) r.anchor.toInt)

/-- The items of a drain at placed destinations. -/
def Cx.drainItems (cx : Cx) (s : State) (l : List ((Nat × Nat × DWord) × Nat)) : List DrainItem :=
  let c := Tab.getD s.cores s.warp.coreIx Core.init
  l.map fun p =>
    let keys := keysFrom p.2 (drainSize cx.w.fmt)
    ⟨p.1.2.2, keys, twinKeys s s.warp keys, drainBytes cx.w.fmt (c.row p.1.1) p.1.2.1, cx.xb 14⟩

/-- A member's engine writes outside the speculative windows (R276). -/
def Cx.engineEpoch (cx : Cx) (l : List (DWord × Nat)) : Option TrapInfo :=
  (l.find? fun p => epochOutside cx.s cx.s.warp p.1 p.2).map fun p => cx.nameAll Code.epochwin 2 p.1 []

/-- Keys of paged bytes that an epoch store would version. -/
def pagedKeys (ks : List Nat) : List Nat := ks.filter (· < spBase)

/-- MX.DRAIN to memory (R253). -/
def execMxDrainMem (w : Strip) : State → Result :=
  matrixWord (.mxDrainMem w) {} slotsUsed (fun _ => none) fun cx =>
    let es := drainSize w.fmt
    let ea := cx.pairA cx.lane0
    let dsts := cx.drainDsts
    let accs := dsts.map fun d => (d.2.2, es)
    match cx.engineEpoch accs with
    | some t => .trap t
    | none =>
      if ea.toNat % es ≠ 0 || cx.strideB % es ≠ 0 then .trap (cx.nameAll Code.align 2 ea [])
      else
        let (l, s) := placeList cx.view cx.s.warp .write accs cx.s
        match objKey (some cx.team) cx.drainObj, failsWith l .bounds with
        | .error _, _ => .trap (cx.nameAll Code.bounds 2 (BitVec.ofNat 64 cx.drainObj) [])
        | .ok _, va :: _ => .trap (cx.nameAll Code.bounds 2 va [])
        | .ok obj, [] =>
          match (cx.rowProt (rowForeign cx.s cx.s.warp)).or (cx.placedFail 2 l) with
          | some t => .trap t
          | none =>
            let items := cx.drainItems s (dsts.zip (keysOf l))
            match epochRoom s cx.view (pagedKeys (items.flatMap (·.dst))) with
            | .stall => .hold cx.s
            | .full => .trap (cx.nameAll Code.epochfull 2 ea [])
            | .ok =>
              let op : DrainOp := {
                id := s.nextId, core := s.warp.coreIx, warp := s.warp.id
                objs := teamObjects s s.warp cx.drainObj obj
                items := items, begun := false, view := cx.view, ctx := s.warp.ctx
                armed := (s.filters.filter (·.knownTo cx.view cx.sp.id)).map (·.id) }
              .done { s := cx.noteNf { s with nextId := s.nextId + 1, drains := s.drains ++ [op] } cx.drainCols cx.bothTeams }

/-- One drained item lands at its destination (R253). -/
def landItem (s : State) (op : DrainOp) (land : Nat) (x : DrainItem) : State :=
  let scratch := x.dst.any fun k => spBase ≤ k
  let v := if scratch then { op.view with epoch := none } else op.view
  if x.add then
    let old := ofBytesLE (x.dst.map (standingByte s v))
    let new := toBytesLE 16 (old + ofBytesLE x.bytes)
    sumBytes (sumBytes s v land x.dst new (anyPoisoned s x.dst)) v land x.twin new (anyPoisoned s x.twin)
  else
    match (if x.bytes.length = 16 then none else filterConsume s op x.addr x.bytes) with
    | some (n, s) => if n = x.bytes.length then s else writeBytes s v .m land (x.dst.drop n) (x.bytes.drop n) false
    | none => writeBytes (writeBytes s v .m land x.dst x.bytes false) v .m land x.twin x.bytes false

/-- DRAIN_BYTES_LAND (R253): one item of a drain, any of those left, lands and is counted. -/
def execDrainBytesLand (op : Nat) (s : State) : Result :=
  match s.drains.find? (·.id == op) with
  | none => .next s
  | some d =>
    let ix := if d.items.length ≤ 1 then 0 else (Config.free s.draws).toNat % d.items.length
    match d.items[ix]? with
    | none => .next { s with drains := s.drains.filter (·.id != op) }
    | some x =>
      let (land, s) := newLanding s .m d.objs
      let s := landItem s d land x
      let left := d.items.eraseIdx ix
      let s := { s with drains :=
        if left.isEmpty then s.drains.filter (·.id != op)
        else s.drains.map fun y => if y.id = op then { y with items := left, begun := true } else y }
      .next (barLandAll s d.objs x.bytes.length)

/-- Everything left of a drain lands (R351). -/
def landDrain (s : State) (d : DrainOp) : State :=
  let (land, s) := newLanding s .m d.objs
  let s := d.items.foldl (fun s x => barLandAll (landItem s d land x) d.objs x.bytes.length) s
  { s with drains := s.drains.filter (·.id != d.id) }

/-- MX.STAT (R254). -/
def execMxStat (w : Strip) : State → Result :=
  laneWord (.mxStat w) {} fun cx =>
    let t := cx.team
    let c := Tab.getD cx.s.cores cx.s.warp.coreIx Core.init
    let b (x : Bool) : Nat := if x then 1 else 0
    if cx.x 1 0 = 0 then
      let v := b t.loader.isSome + 2 * min t.slots.length 2 + 2 ^ 3 * t.activeFmt.toNat + 2 ^ 7 * t.shadowFmt.toNat
        + 2 ^ 11 * b (c.planeOwner == some t.id) + 2 ^ 12 * b t.nf + 2 ^ 13 * b t.fd + 2 ^ 14 * b t.cf
      let s := if cx.xb 9 then modTeam cx.s t.id fun t => { t with nf := false, fd := false, cf := false } else cx.s
      .done { s := s, regs := [mkWrite cx.d (.uniform (BitVec.ofNat 32 v)) cx.p 2#4] }
    else
      let r := cx.x 8 2
      cx.putU 2#4 (if rowMine cx.s cx.s.warp r then (c.row r).anchor.signExtend 32 else 0#32)

/-! ## TMASK (R303 to R305) -/

/-- ALLOWED (R303). -/
def allowed (v : DWord) (l p : Nat) : Bool := decide (p < l) || (decide (p < l + 64) && v.getLsbD (p - l))

/-- Lane j of an operand read as a pattern read, whatever P is: a dead lane reads 0 (R79, R304). -/
def Cx.laneRead (cx : Cx) (f : SrcField) (o : Operand) (j : Nat) : Word :=
  if f.pat = 0#3 && cx.s.warp.dead.has j then 0#32 else o.word j

/-- TMASK in accumulator form (R304): vectors come from lanes 0 to NROW − 1, patterns applied. -/
def execTmaskAcc (w : Strip) : State → Result :=
  matrixWord (.tmaskAcc w) {} slotsUsed (fun cx => cx.rowProt fun r => !rowMine cx.s cx.s.warp r) fun cx =>
    let l := (cx.low cx.b).toNat
    let k0 := (cx.low cx.c).toNat
    .done { s := cx.mapRows fun r x =>
      let j := r - cx.x 6 0
      let v := pair64 (cx.laneRead w.a cx.a j) (cx.laneRead w.a (cx.srcA 1) j)
      { x with words := x.words.zipIdx.map fun p =>
          if allowed v l ((k0 + p.2) % 2 ^ 32) then p.1 else { p.1 with st := p.1.st.join .ninf } } }

/-- TMASK in register form (R305). -/
def execTmaskReg (w : Strip) : State → Result :=
  laneWord (.tmaskReg w) {} fun cx =>
    let d := cx.srcD 0
    let u := cx.allU && (cx.srcA 1).shape == 0 && d.shape == 0
    let f (i : Nat) : Word :=
      if allowed (cx.pairA i) (cx.b.word i).toNat (cx.c.word i).toNat then d.word i else 0xFF800000#32
    .done { s := cx.s, regs := [mkWrite cx.d (cx.mapLanes u f) cx.p 3#4] }

end Sys2Proof.Machine
end

