-- ==== Sys2Proof/Machine/System.lean ====
section
/-! DEFINITION. System instructions (R228 to R234), undefined lane words (R85), and the events by which a warp takes a
trap raised elsewhere (R30, R225, R234), enters its handler or resumes after a service (R226, R241). -/

namespace Sys2Proof.Machine

/-! ## CSRR, CSRW (R230) -/

def csrNum (w : Strip) : Nat := w.imm16.toNat

/-- ILLEGAL of CSRR: an unlisted or unreadable number, or a W wider than the register. -/
def csrrIllegal (w : Strip) : Bool :=
  match csrInfo (csrNum w) with
  | some i => !i.laneR || (Form.xb w 0 && decide (i.width ≤ 32))
  | none => true

/-- CSRR (R230): one value to every lane of P. -/
def execCsrr (w : Strip) : State → Result :=
  laneWord (.csrr w) { illegal := fun _ _ w => csrrIllegal w } fun cx =>
    let v := csrGet cx.s cx.s.warp cx.sp.ts (csrNum w)
    let var := 0x810 ≤ csrNum w && csrNum w ≤ 0x817
    .done {
      s := cx.s, var := var
      regs := if cx.xb 0 then
          [mkWrite cx.d (.uniform (lo32 v)) cx.p 0xA#4, mkWrite (cx.d + 1) (.uniform (hi32 v)) cx.p 0xA#4]
        else [mkWrite cx.d (.uniform (lo32 v)) cx.p 2#4] }

/-- ILLEGAL of CSRW that does not depend on the value. -/
def csrwIllegal (s : State) (sp : Split) (w : Strip) : Bool :=
  match csrInfo (csrNum w) with
  | some i => !i.laneW || (Form.xb w 0 && decide (i.width ≤ 32)) || (csrPerSplit (csrNum w) && sp.ts.isNone)
      || (s.warp.rg.isSome && decide (0x810 ≤ csrNum w) && decide (csrNum w ≤ 0x817))
  | none => true

/-- CSRW (R230): from the lowest lane of P. -/
def execCsrw (w : Strip) : State → Result :=
  laneWord (.csrw w) { illegal := csrwIllegal, deaths := some lowDeaths } fun cx =>
    let l := cx.lane0
    let v : DWord := if cx.xb 0 then cx.pairA l else zext64 (cx.a.word l)
    if !csrAdmits cx.s.warp cx.sp.ts (csrNum w) v then .trap (wholeTrap Code.illegal cx.sp.mask)
    else
      match csrPut cx.s cx.view cx.sp.ts (csrNum w) v with
      | (none, s) => .done { s := s }
      | (some (code, va), s) =>
        .hold (takeTrap s (if code = Code.illegal then wholeTrap code cx.sp.mask
          else laneTrap code 2 0#32 ((LaneMask.lanes cx.p).map fun i => (i, va))))

/-! ## TRAP, TRET (R232, R228) -/

/-- TRAP (R232). -/
def execTrap (w : Strip) : State → Result :=
  laneWord (.trap w) { always := true } fun cx =>
    .trap { wholeTrap Code.software cx.sp.mask with detail := w.imm16 }

/-- What a skipped word does to the signature, as though it had retired (R323), with its operation code. -/
def skippedSig (i : Option Instr) : SigKind × BitVec 10 :=
  match i with
  | some (.undefinedLaneOpcode op _) => (.absorb, op)
  | some (.sigChk _) => (.seed, 0x380#10)
  | some i =>
    match laneForm i with
    | some (f, _) => (sigKind f.op, f.op)
    | none => (.keep, 0#10)
  | none => (.keep, 0#10)

/-- The word at a lane address as a warp fetches it. -/
def wordAt (s : State) (w : Warp) (pc : DWord) : Option Instr :=
  match (fetchLane s w pc).1 with | .ok i => some i | .error _ => none

/-- Whether the splits of a handler that have executed TRET hold every alive lane of TLANES, the executing one
included. -/
def returnDone (cx : Cx) (k : Nat) : Bool := cx.s.warp.allReturned k cx.sp.mask

/-- The splits after a TRET whose siblings have not all returned: this one waits, the oldest ready one takes its slot. -/
def tretWaits (cx : Cx) (skip : Option (SigKind × BitVec 10)) (w : Warp) : Warp :=
  let sp := { cx.sp with wait := .tret skip, only := none, issued := cx.s.draws }
  let w := w.setSlot cx.s.slotB none
  { w with stack := w.stack ++ [StackEntry.waiting sp] }

/-- TRET (R228). -/
def execTret (w : Strip) : State → Result :=
  laneWord (.tret w)
    { always := true
      illegal := fun _ sp _ => sp.ts.isNone
      early := fun cx => match cx.sp.ts with
        | some k => waitStack cx (returnDone cx k) ((tretWaits cx none cx.s.warp).rotateIn cx.s.slotB cx.s.cycle)
        | none => none }
    fun cx =>
      match cx.sp.ts with
      | none => .trap (wholeTrap Code.illegal cx.sp.mask)
      | some k =>
        if !cx.s.warp.pending.isEmpty then .hold (modWarp cx.s fun w => { w with parked := true })
        else
          let skip := if cx.xb 0 then some (skippedSig (wordAt cx.s cx.s.warp (cx.s.warp.ts k).tpc)) else none
          let s := modWarp cx.s (tretWaits cx skip)
          if returnDone cx k then .moved (finishReturn s k skip)
          else .moved (modWarp s fun w => w.rotateIn cx.s.slotB cx.s.cycle)

/-! ## PREEMPT.OFF, PREEMPT.ON (R234, R235) -/

/-- Whether a pre-emption or a test of the warp's cluster has been requested. -/
def preemptDue (s : State) (hw : Nat) : Bool := s.preemptAsked.contains hw || s.testAsked.contains hw

/-- PREEMPT.OFF (R234): held back once a pre-emption is requested and PD is 0 (R235). -/
def execPreemptOff (w : Strip) : State → Result :=
  laneWord (.preemptOff w) { always := true, illegal := fun s _ _ => s.warp.pd == 15 } fun cx =>
    if cx.s.warp.pd = 0 && preemptDue cx.s cx.s.warp.hw then .hold cx.s
    else .done { s := modWarp cx.s fun w => { w with
      pd := w.pd + 1, pdSince := if w.pd = 0 then cx.s.cycle else w.pdSince } }

/-- PREEMPT.ON (R234). -/
def execPreemptOn (w : Strip) : State → Result :=
  laneWord (.preemptOn w) { always := true } fun cx => .done { s := modWarp cx.s fun w => { w with pd := w.pd - 1 } }

/-! ## Undefined lane words (R85) -/

/-- UNDEFINED_LANE_OPCODE (R85): ILLEGAL, whatever its guard and mask. -/
def execUndefinedLaneOpcode (_op : BitVec 10) (_w : Strip) (s : State) : Result :=
  match s.split? with
  | none => .fault .noSplit
  | some sp => .next (takeTrap s (wholeTrap Code.illegal sp.mask))

/-! ## Traps raised outside the split's own word -/

/-- A raised trap as the split of these lanes takes it: a SOFTERR names the lane that differed (R328). -/
def Raised.trap (r : Raised) (mask : LaneMask) : TrapInfo :=
  let m := orMask (r.lanes.getD mask &&& mask) mask
  { wholeTrap r.code m with
    detail := if r.code = Code.softerr then 0#16 else r.detail
    lane := if r.code = Code.softerr then some r.detail.toNat else none
    addrs := (LaneMask.lanes m).map fun i => (i, r.info) }

/-- TRAP_ENTRY (R226): a trap that a full fault queue held goes on posting (R239); otherwise the first trap raised in the
split of the issuing slot is taken at this boundary, results being awaited first (R76). -/
def execTrapEntry (s : State) : Result :=
  match s.split? with
  | none => .next s
  | some sp =>
    match sp.wait, sp.raised with
    | .posting t done, _ => .next (postTrap s sp t done)
    | _, [] => .next s
    | _, r :: rest =>
      if !s.warp.pending.isEmpty then .next (modWarp s fun w => { w with parked := true })
      else
        let s := if r.code = Code.nopreempt then modWarp s fun w => { w with pd := 0 } else s
        .next (takeTrap (s.setSplit (some { sp with wait := .none, raised := rest })) (r.trap sp.mask))

/-- The split that has gone longest without retiring a word, among all of the warp: resident, stacked or waiting (R30). -/
def leastRecent (w : Warp) : Option Split :=
  w.splits.foldl (fun o sp => match o with
    | some x => if sp.issued < x.issued then some sp else some x
    | none => some sp) none

/-- Take a split off the stack. -/
def dropStacked (sp : Split) : List StackEntry → List StackEntry
  | [] => []
  | .ready x :: t => if x = sp then t else .ready x :: dropStacked sp t
  | .waiting x :: t => if x = sp then t else .waiting x :: dropStacked sp t
  | e :: t => e :: dropStacked sp t

/-- Raise a trap in a split of the issuing warp. A stacked one is first rotated into a slot: it displaces the resident
split that has held its slot longest (R225). -/
def raiseSplit (s : State) (sp : Split) (r : Raised) : State :=
  let hit := { sp with raised := sp.raised ++ [r] }
  if s.warp.slotA == some sp then modWarp s fun w => { w with slotA := some hit }
  else if s.warp.slotB == some sp then modWarp s fun w => { w with slotB := some hit }
  else
    let b : Bool := match s.warp.slotA, s.warp.slotB with
      | none, _ => false
      | _, none => true
      | some a, some c => decide (c.entered < a.entered)
    let old := s.warp.slot? b
    let w := { s.warp with stack := dropStacked sp s.warp.stack }
    let w := w.setSlot b (some { hit with entered := s.cycle, wait := .none })
    let w := match old with | some o => w.pushReady { o with entered := s.cycle } | none => w
    { s with warp := w }

/-- Whether a trap of this code is raised in a split of the warp. -/
def Warp.hasRaised (w : Warp) (code : BitVec 8) : Bool := w.splits.any fun sp => sp.raised.any fun r => r.code == code

/-- Raise a trap in the split that issued least recently, unless one of its code is already raised. -/
def raiseLeast (s : State) (code : BitVec 8) : State :=
  if s.warp.hasRaised code then s
  else match leastRecent s.warp with
    | none => s
    | some sp => raiseSplit s sp ⟨code, none, 0#16, 0#64⟩

/-- WATCHDOG_EXPIRE (R30): no split has retired a lane word for 2^k cycles; the record lists every split. -/
def execWatchdogExpire (s : State) : Result :=
  let k := s.warp.wdog.toNat
  if s.warp.lstarted && s.warp.ended.isNone && k != 0 && decide (s.warp.watch + 2 ^ k ≤ s.cycle) then
    let r : ProgressRec := ⟨s.warp.grid, whereWord s.warp, s.warp.splits.map fun sp => (sp.pc, sp.mask)⟩
    let s := if s.warp.hasRaised Code.progress then s else { s with progress := s.progress ++ [r] }
    .next (modWarp (raiseLeast s Code.progress) fun w => { w with watch := s.cycle })
  else .next s

/-- The cap of a PREEMPT.OFF section in cycles (R234). -/
def preemptCap : Nat := 1200000

/-- NOPREEMPT_CAP (R234). -/
def execNopreemptCap (s : State) : Result :=
  if s.warp.pd != 0 && s.warp.ended.isNone && decide (s.warp.pdSince + preemptCap ≤ s.cycle) then
    .next (raiseLeast s Code.nopreempt)
  else .next s

/-! ## Hardware service of a page (R241) -/

/-- Status words of a service that are 0: not answered. -/
def unanswered (s : State) (keys : List Nat) : Bool :=
  keys.any fun k => standingNat s k 4 == 0
def refusedAny (s : State) (keys : List Nat) : Bool :=
  keys.any fun k => standingNat s k 4 == 2

/-- PAGE_HW_SERVICE_END (R241): a refused page ends the warp with PAGE; otherwise the word re-executes for its replay
lanes, as after FENCE.X G, T (R239). -/
def serviceEnd (s : State) (b : Bool) : State :=
  match s.warp.slot? b with
  | some sp =>
    match sp.wait with
    | .service keys =>
      if unanswered s keys then s
      else if refusedAny s keys then endAbnormal s Code.page sp.pc
      else modWarp s fun w => w.setSlot b (some { sp with wait := .none, view := sp.view.setHor .t s.serial s.serial })
    | _ => s
  | none => s

def execPageHwServiceEnd (s : State) : Result := .next (serviceEnd (serviceEnd s false) true)

end Sys2Proof.Machine
end

