-- ==== Sys2Proof/Machine/Copy.lean ====
section
/-! DEFINITION. The copy engines (R255 to R258): tensor walk records, CP.TILE with its follow-on, CP.CMD, and the
events by which copied bytes land or meet a fabric error. -/

namespace Sys2Proof.Machine

/-! ## Walk records (R255) -/

/-- A dimension entry. -/
structure WalkDim where
  extent : Nat
  box : Nat
  step : Nat
  pitch : Int
deriving DecidableEq, Repr

/-- A tensor walk record. -/
structure Walk where
  base : DWord
  fmt : Nat
  edge : Nat
  fill : Nat
  dims : List WalkDim
deriving DecidableEq, Repr

/-- Bytes of one element, or of one BX4 block; 0 for a reserved format. -/
def walkSize (fmt : Nat) : Nat :=
  if fmt ≤ 3 then 4 else if fmt ≤ 5 then 2 else if fmt ≤ 7 then 1 else if fmt = 8 then 18 else 0
def Walk.size (r : Walk) : Nat := walkSize r.fmt
def Walk.bx4 (r : Walk) : Bool := r.fmt == 8

/-- The record in 96 bytes; none where it traps FORMAT. -/
def parseWalk (bs : List Byte) : Option Walk :=
  let f (o n : Nat) : Nat := ofBytesLE ((bs.drop o).take n)
  let nd := f 9 1
  let dims := (List.range (min nd 5)).map fun d =>
    (⟨f (16 + 16 * d) 4, f (20 + 16 * d) 2, f (22 + 16 * d) 2, (BitVec.ofNat 64 (f (24 + 16 * d) 8)).toInt⟩ : WalkDim)
  let ok := walkSize (f 8 1) != 0 && decide (1 ≤ nd ∧ nd ≤ 5) && decide (f 10 1 ≤ 2) && f 11 1 == 0
    && dims.all (fun x => decide (1 ≤ x.box ∧ x.box ≤ 256 ∧ 1 ≤ x.step ∧ x.step ≤ 255))
    && (dims.head?.map fun x => x.pitch == (walkSize (f 8 1) : Int)).getD false
  if ok then some ⟨BitVec.ofNat 64 (f 0 8), f 8 1, f 10 1, f 12 4, dims⟩ else none

/-- BX4: whole blocks along dimension 0 (R255). -/
def Walk.aligned (r : Walk) (crd : List Int) : Bool :=
  !r.bx4 || (match r.dims, crd with
    | d :: _, c :: _ => d.step == 1 && d.box % 32 == 0 && c % 32 == 0
    | _, _ => false)

/-- Box positions along each dimension, in elements or blocks. -/
def Walk.counts (r : Walk) : List Nat :=
  match r.dims with
  | d :: t => (if r.bx4 then d.box / 32 else d.box) :: t.map (·.box)
  | [] => []

/-- Bytes of the tile. -/
def Walk.tileBytes (r : Walk) : Nat := r.counts.foldl (· * ·) r.size

/-- Every box position, dimension 0 fastest. -/
def boxPositions : List Nat → List (List Nat)
  | [] => [[]]
  | n :: t => (boxPositions t).flatMap fun rest => (List.range n).map fun k => k :: rest

/-- Coordinates of a box position: along dimension 0 a BX4 position stands for 32 elements. -/
def Walk.coords (r : Walk) (crd : List Int) (t : List Nat) : List Int :=
  (r.dims.zip (crd.zip t)).zipIdx.map fun p =>
    let (d, c, k) := p.1
    c + (if r.bx4 && p.2 == 0 then 32 * (k : Int) else (k : Int) * d.step)

def Walk.inside (r : Walk) (e : List Int) : Bool :=
  (r.dims.zip e).all fun p => decide (0 ≤ p.2) && decide (p.2 < p.1.extent)

/-- Coordinates clamped into the tensor; a BX4 position clamps to a whole block. -/
def Walk.clamp (r : Walk) (e : List Int) : List Int :=
  (r.dims.zip e).zipIdx.map fun p =>
    let c := max 0 (min p.1.2 ((p.1.1.extent : Int) - 1))
    if r.bx4 && p.2 == 0 then c / 32 * 32 else c

/-- Address of an element. -/
def Walk.addr (r : Walk) (e : List Int) : DWord :=
  r.base + BitVec.ofInt 64 ((r.dims.zip e).zipIdx.foldl (fun n p =>
    n + (if r.bx4 && p.2 == 0 then p.1.2 / 32 else p.1.2) * p.1.1.pitch) 0)

/-- One element of value zero, or of the fill pattern. -/
def Walk.constBytes (r : Walk) : List Byte :=
  if r.bx4 then
    if r.edge = 2 then List.replicate 16 (BitVec.ofNat 8 (r.fill % 16 * 17)) ++ [BitVec.ofNat 8 (r.fill / 2 ^ 8), BitVec.ofNat 8 (r.fill / 2 ^ 16)]
    else List.replicate 16 0#8 ++ [0x7F#8, 0#8]
  else toBytesLE r.size (if r.edge = 2 then r.fill else 0)

/-- What fills or takes a box position: an address of the tensor, or a constant; none for a skipped store. -/
inductive BoxCell where
  | mem (va : DWord)
  | const (bs : List Byte)
  | skip
deriving DecidableEq, Repr

def Walk.cell (r : Walk) (store : Bool) (crd : List Int) (t : List Nat) : BoxCell :=
  let e := r.coords crd t
  if r.inside e then .mem (r.addr e)
  else if store then .skip
  else if r.edge = 1 then .mem (r.addr (r.clamp e))
  else .const r.constBytes

/-! ## CP.TILE (R256) -/

/-- The team offset of the follow-on's command record. -/
def Cx.follow (cx : Cx) : Nat := cx.x 14 1

/-- The coordinate registers, read under B's pattern. -/
def Cx.coordReg (cx : Cx) (d : Nat) : Operand := cx.srcB d

/-- A staged command (R257). -/
def parseCmd (bs : List Byte) (warp : Nat) (view : PathView) (copy : Nat) : Option StreamOp :=
  let f (o n : Nat) : Nat := ofBytesLE ((bs.drop o).take n)
  if f 11 1 = 1 then
    some ⟨.reserved, BitVec.ofNat 4 (f 10 1), (BitVec.ofNat 32 (f 0 4)).toInt, (BitVec.ofNat 32 (f 4 4)).toInt, f 8 1 % 128,
      f 9 1 % 128 + 1, warp, view, some copy⟩
  else none

/-- Where the record stands: ALIGN, the window checks, or its bytes. -/
def Cx.walkRecord (cx : Cx) (s : State) : Except TrapInfo (List Byte) × State :=
  let a := cx.pairA cx.lane0
  if a.toNat % 16 ≠ 0 then (.error (cx.nameAll Code.align 1 a []), s)
  else
    let (r, s) := placeSpan s cx.view cx.s.warp .read a 96
    match r with
    | .error (e, va) => (.error (cx.nameAll e.trap 1 va [va]), s)
    | .ok ks => (.ok (readBytes s cx.view .g cx.lane0 ks), s)

/-- BUDGET and FORMAT of the coordinate registers and the record, then ALIGN and BOUNDS (R255, R256). -/
def Cx.copyCheck (cx : Cx) (r : Option Walk) (ndim : Nat) (crd : List Int) (tile bar : Nat) : Option TrapInfo :=
  let regs := (List.range ndim).map fun d => cx.w.b.code.toNat + d
  if !regs.all (inAlloc cx.s.warp.units) then some (wholeTrap Code.budget cx.p)
  else match r with
    | none => some (wholeTrap Code.format cx.sp.mask)
    | some r =>
      if !(List.range ndim).all fun d => TagSet.int.accepts 0#4 (cx.coordReg d).tag then some (wholeTrap Code.format cx.sp.mask)
      else if !r.aligned crd then some (cx.nameAll Code.align 1 (BitVec.ofInt 64 (crd.headD 0)) [])
      else if !decide (tile + r.tileBytes ≤ cx.team.total) then some (cx.nameAll Code.bounds 2 (BitVec.ofNat 64 tile) [])
      else if !decide (bar + 16 ≤ cx.team.total) then some (cx.nameAll Code.bounds 2 (BitVec.ofNat 64 bar) [])
      else if cx.follow ≠ 0 && !decide (32 * cx.follow + 32 ≤ cx.team.total) then
        some (cx.nameAll Code.bounds 1 (BitVec.ofNat 64 (32 * cx.follow)) [])
      else none

/-- The elements of a copy, its tensor cells placed: the keys are those of their pieces in order, an element that straddles
two pages having two. -/
def copyElems (store : Bool) (size : Nat) (twin : List Nat → List Nat) (tileKey : Nat) :
    List BoxCell → Nat → List Nat → List CopyElem
  | [], _, _ => []
  | .mem va :: t, n, ks =>
    let tile := keysFrom (tileKey + n) size
    let cuts := (cutsOf va size).length
    let cell := windowKeys va size (ks.take cuts)
    (if store then ⟨.keys tile, cell, [], size⟩ else ⟨.keys cell, tile, twin tile, size⟩)
      :: copyElems store size twin tileKey t (n + size) (ks.drop cuts)
  | .const bs :: t, n, ks =>
    let tile := keysFrom (tileKey + n) size
    ⟨.bytes bs, tile, twin tile, size⟩ :: copyElems store size twin tileKey t (n + size) ks
  | .skip :: t, n, ks => ⟨.bytes [], [], [], size⟩ :: copyElems store size twin tileKey t (n + size) ks

/-- Reserve a slot for the follow-on, in both copies of a redundant group; FD where the record is not valid (R257). -/
def reserveFollow (s : State) (teams : List Nat) (o : Option StreamOp) : State :=
  teams.foldl (fun s t => modTeam s t fun t =>
    match o with
    | some op => { t with slots := t.slots ++ [op] }
    | none => { t with fd := true }) s

/-- What a copy knows: only its writes to the tensor can be epoch stores (R276). -/
def copyView (store : Bool) (v : PathView) : PathView := if store then v else { v with epoch := none }

/-- CP.TILE with its record read. -/
def Cx.copyTile (cx : Cx) (s : State) (bs : List Byte) : LaneRes :=
  let c := cx.low cx.c
  let tile := 16 * fieldNat c 14 0
  let bar := 16 * fieldNat c 30 16
  let store := cx.xb 0
  let ndim := min ((bs.getD 9 0#8).toNat) 5
  let crd := (List.range ndim).map fun d => (cx.low (cx.coordReg d)).toInt
  match cx.copyCheck (parseWalk bs) ndim crd tile bar, parseWalk bs with
  | some t, _ => .trap t
  | none, none => .trap (wholeTrap Code.format cx.sp.mask)
  | none, some r =>
    let cells := (boxPositions r.counts).map (r.cell store crd)
    let accs := cells.filterMap fun x => match x with | .mem va => some (va, r.size) | _ => none
    match (if store then cx.engineEpoch accs else none) with
    | some t => .trap t
    | none =>
      let pieces := accs.flatMap fun p => cutsOf p.1 p.2
      let (l, s) := placeList cx.view s.warp (if store then .write else .read) pieces s
      match cx.placedFail (if store then 2 else 1) l with
      | some t => .trap t
      | none =>
        let base := spKey s.warp.coreIx cx.team.base
        let elems := copyElems store r.size (twinKeys s s.warp) (base + tile) cells 0 (keysOf l)
        match (if store then epochRoom s cx.view (pagedKeys (elems.flatMap (·.dst))) else .ok) with
        | .stall => .hold cx.s
        | .full => .trap (cx.nameAll Code.epochfull 2 r.base [])
        | .ok =>
          let id := s.nextId
          let cmd := readBytes s cx.view .g cx.lane0 (keysFrom (base + 32 * cx.follow) 32)
          let follow := if cx.follow = 0 then none else parseCmd cmd s.warp.id cx.view id
          let op : CopyOp := {
            id := id
            core := s.warp.coreIx, engine := s.warp.slot % 2, warp := s.warp.id, split := cx.sp.id, mask := cx.sp.mask
            team := s.warp.team, objs := teamObjects s s.warp bar (base + bar)
            elems := elems, begun := false, follow := follow
            view := copyView store cx.view }
          let s := { s with nextId := id + 1, copies := s.copies ++ [op] }
          .done { s := if cx.follow = 0 then s else reserveFollow s cx.bothTeams follow }

/-- Lanes that die at a poisoned operand or coordinate. -/
def coordDeaths (cx : Cx) : LaneMask :=
  let ndim := match (cx.walkRecord cx.s).1 with | .ok bs => min ((bs.getD 9 0#8).toNat) 5 | .error _ => 0
  lowPrefix cx.p ((List.range ndim).foldl (fun m d => m ||| (cx.coordReg d).poison) (genericDeaths cx))

/-- CP.TILE (R256): with a follow-on it issues only while a slot is free (R245). -/
def execCpTile (w : Strip) : State → Result :=
  laneWord (.cpTile w) { deaths := some coordDeaths } fun cx =>
      if cx.follow ≠ 0 && slotsBusy cx.team then .hold cx.s
      else
        let (r, s) := cx.walkRecord cx.s
        match r with
        | .error t => .trap t
        | .ok bs => cx.copyTile s bs

/-! ## CP.CMD (R257) -/

/-- CP.CMD (R257): the record is a G store of the split. -/
def execCpCmd (w : Strip) : State → Result :=
  laneWord (.cpCmd w) { deaths := some lowDeaths } fun cx =>
    let c := (cx.low cx.c).toNat
    match cx.tileCheck (cx.x 13 7 + 1) with
    | some t => .trap t
    | none =>
      if c = 0 || c % 32 ≠ 0 || !decide (c + 32 ≤ cx.team.total) then
        .trap (cx.nameAll Code.bounds 2 (BitVec.ofNat 64 c) [])
      else
        let bs := toBytesLE 4 (cx.low cx.a).toNat ++ toBytesLE 4 (cx.low cx.b).toNat ++ toBytesLE 1 (cx.x 6 0)
          ++ toBytesLE 1 (cx.x 13 7) ++ toBytesLE 1 w.fmt.toNat ++ toBytesLE 1 1
          ++ toBytesLE 4 (whereWord cx.s.warp).toNat ++ toBytesLE 16 0
        let core := cx.s.warp.coreIx
        let v := { cx.view with epoch := none }
        .done { s := seeSplit (gStore cx.s v core (spKey core (cx.team.base + c)) bs false) }

/-! ## Landing (R256 to R258) -/

/-- Whether a copy is the oldest of its engine. -/
def copyFront (s : State) (op : CopyOp) : Bool :=
  ((s.copies.find? fun c => c.core == op.core && c.engine == op.engine).map (·.id)) == some op.id

/-- One element lands. -/
def landElem (s : State) (op : CopyOp) (land : Nat) (x : CopyElem) : State :=
  if x.dst.isEmpty then s
  else
    let bs := match x.src with | .keys ks => readBytes s op.view .c 0 ks | .bytes b => b
    let bad := match x.src with | .keys ks => anyPoisoned s ks | .bytes _ => false
    writeBytes (writeBytes s op.view .c land x.dst bs bad) { op.view with epoch := none } .c land x.twin bs bad

/-- A follow-on is placed in its reserved slot, or dropped where its format does not pair (R257). -/
def fireFollow (s : State) (teams : List Nat) (copy : Nat) : State :=
  teams.foldl (fun s id => modTeam s id fun t =>
    match t.slots.find? (fun x => x.state == .reserved && x.follow == some copy) with
    | none => t
    | some op =>
      let t := { t with slots := t.slots.filter fun x => !(x.state == .reserved && x.follow == some copy) }
      if pairs op.fmt t.activeFmt then addStream t op else { t with fd := true }) s

/-- The teams a copy serves: the issuing one and its other copy. -/
def copyTeams (s : State) (op : CopyOp) : List Nat :=
  op.team :: (((warpById s op.warp).bind (·.rg)).bind fun _ => (teamById s op.team).bind (·.partner)).toList

/-- Elements leave a copy; after the last the follow-on fires. -/
def dropElems (s : State) (op : CopyOp) (left : List CopyElem) : State :=
  if left.isEmpty then
    let s := { s with copies := s.copies.filter (·.id != op.id) }
    if op.follow.isSome then fireFollow s (copyTeams s op) op.id else s
  else { s with copies := s.copies.map fun x => if x.id = op.id then { x with elems := left, begun := true } else x }

/-- n elements of a copy from the start-th of those left land; with the last one the follow-on is placed before the
decrement (R257). -/
def landCopy (s : State) (c : CopyOp) (start n : Nat) : State :=
  let now := (c.elems.drop start).take n
  let (land, s) := newLanding s .c c.objs
  let s := now.foldl (fun s x => landElem s c land x) s
  let s := dropElems s c (c.elems.take start ++ (c.elems.drop start).drop n)
  barLandAll s c.objs (now.foldl (fun k x => k + x.size) 0)

/-- COPY_BYTES_LAND (R256): in the order of its engine. -/
def execCopyBytesLand (op start n : Nat) (s : State) : Result :=
  match s.copies.find? (·.id == op) with
  | none => .next s
  | some c => if copyFront s c then .next (landCopy s c start n) else .next s

/-- The oldest split of a warp. -/
def oldestSplit (w : Warp) : Option Split :=
  w.splits.foldl (fun o sp => match o with
    | some x => if sp.id < x.id then some sp else some x
    | none => some sp) none

/-- The split of a warp that issued a word under this mask as number `id`: that split, or the older one that it has merged
into, or the warp's oldest split where it has ended (R328). -/
def issuerOf (w : Warp) (id : Nat) (mask : LaneMask) : Option Split :=
  (w.splits.find? (·.id == id)).or
    ((w.splits.find? fun sp => decide (sp.id < id) && sp.mask &&& mask != 0#32).or (oldestSplit w))

/-- Raise a trap in the split of a warp that issued a word, at its next boundary. -/
def raiseIn (s : State) (warp id : Nat) (mask : LaneMask) (r : Raised) : State :=
  onWarp s warp fun s =>
    match issuerOf s.warp id mask with
    | none => s
    | some sp => raiseSplit s sp r

/-- COPY_FABRIC_ERROR (R256): the bytes stay uncounted, CF is set, and FABRIC is raised in the issuing split. -/
def execCopyFabricError (op start n : Nat) (s : State) : Result :=
  match s.copies.find? (·.id == op) with
  | none => .next s
  | some c =>
    if !copyFront s c then .next s
    else
      let s := (copyTeams s c).foldl (fun s t => modTeam s t fun t => { t with cf := true }) s
      let s := dropElems s c (c.elems.take start ++ (c.elems.drop start).drop n)
      .next (raiseIn s c.warp c.split c.mask ⟨Code.fabric, none, 0#16, 0#64⟩)

end Sys2Proof.Machine
end

