-- ==== Sys2Proof/Machine/Cross.lean ====
section
/-! DEFINITION. The cross-lane instructions (R163 to R169). -/

namespace Sys2Proof.Machine

/-! ## SHFL (R164) -/

/-- The warp of a number in the issuing warp's team that has not ended. -/
def teamWarp (s : State) (n : Nat) : Option Warp :=
  (allWarps s).find? fun x => x.team == s.warp.team && x.index == n && x.ended.isNone

/-- The partner that holds the register SHFL T = 1 names. -/
def shflPartner (s : State) (w : Strip) : Option Warp :=
  (teamWarp s (Form.xf w 3 0)).filter fun x => inAlloc x.units w.a.code.toNat

/-- The lane that SHFL reads for lane i (R164). -/
def Cx.shflLane (cx : Cx) (i : Nat) : Nat := (cx.b.word i).toNat % 32

/-- The partner register's lane that lane i reads; none where it reads 0. -/
def partnerLane (x : Warp) (j : Nat) : Option Nat := if x.dead.has j then none else some j

/-- The result of SHFL T = 1: read from the partner as it stands when the word issues. -/
def shflRemote (cx : Cx) (x : Warp) : LaneRes :=
  let o := readReg cx.s.draws x cx.w.a.code.toNat
  let src (i : Nat) := partnerLane x (cx.shflLane i)
  let wr : RegWrite := {
    n := cx.d
    val := .lanes (laneIds.map fun i => ((src i).map o.word).getD 0#32)
    mask := cx.p
    tag := o.tag
    side := if o.side.isEmpty then [] else laneIds.map fun i => ((src i).map fun j => o.side.getD j sideZero).getD sideZero
    poison := 0#32 }
  .done { s := cx.s, regs := [wr], var := x.slot / 8 != cx.s.warp.slot / 8 }

/-- SHFL within the warp. -/
def shflLocal (cx : Cx) : LaneRes :=
  let dead := cx.s.warp.dead
  let f (i : Nat) : Word := if dead.has (cx.shflLane i) then 0#32 else cx.a.word (cx.shflLane i)
  .done { s := cx.s, regs := [mkWrite cx.d (cx.mapLanes (cx.allU && dead == 0#32) f) cx.p cx.a.tag] }

/-- The lanes of P that SHFL makes consume poison (R329). -/
def shflDeaths (cx : Cx) : LaneMask :=
  let remote := Form.xb cx.w 4
  let src : LaneMask :=
    if remote then ((shflPartner cx.s cx.w).map fun x => (x.reg cx.w.a.code.toNat).poison &&& ~~~ x.dead).getD 0#32
    else cx.a.poison &&& ~~~ cx.s.warp.dead
  cx.p &&& (cx.b.poison ||| LaneMask.ofPred fun i => src.has (cx.shflLane i))

/-- Whether the partner's register carries a tag that A does not accept: BX4 or a reserved one (R36, R163). -/
def shflBadTag (cx : Cx) : Bool :=
  Form.xb cx.w 4 && (shflPartner cx.s cx.w).any fun x => !TagSet.notBx4.accepts cx.w.fmt (x.reg cx.w.a.code.toNat).tag

/-- SHFL (R164). -/
def execShfl (w : Strip) : State → Result :=
  laneWord (.shfl w) { badFormat := shflBadTag, deaths := some shflDeaths } fun cx =>
    if cx.xb 4 then
      match shflPartner cx.s w with
      | some x => shflRemote cx x
      | none => .done { s := cx.s, regs := [mkWrite cx.d (.lanes (List.replicate 32 0#32)) cx.p 0#4] }
    else shflLocal cx

/-! ## VOTE, ELECT and ALIVE (R165) -/

/-- VOTE's value over the contributing lanes. -/
def voteValue (mode : Nat) (c : LaneMask) (t : Nat → Bool) : Word :=
  let l := LaneMask.lanes c
  let bit (b : Bool) : Word := if b then 1#32 else 0#32
  match mode with
  | 0 => bit (l.any t)
  | 1 => bit (l.all t)
  | 2 => LaneMask.ofPred fun i => c.has i && t i
  | _ => bit (l.all t || l.all fun i => !t i)

/-- VOTE (R165). -/
def execVote (w : Strip) : State → Result := laneWord (.vote w) {} fun cx =>
  cx.putU 2#4 (voteValue (cx.x 7 6) cx.p fun i => cx.s.warp.predLane (cx.x 5 3) i)

/-- ELECT (R165). -/
def execElect (w : Strip) : State → Result := laneWord (.elect w) {} fun cx =>
  let first := cx.lane0
  .done {
    s := cx.s
    regs := if cx.xb 3 then [mkWrite cx.d (.uniform (BitVec.ofNat 32 first)) cx.p 2#4] else []
    preds := [⟨cx.x 2 0, LaneMask.ofPred (· == first), cx.p⟩] }

/-- ALIVE (R165). -/
def execAlive (w : Strip) : State → Result := laneWord (.alive w) {} fun cx =>
  cx.putU 2#4 (if cx.xb 0 then cx.p else cx.s.warp.alive)

/-! ## REDX and SCAN (R166) -/

/-- One combination. -/
def redOp (opr rm : Nat) (x y : Word) : Word :=
  match opr with
  | 0 => x + y
  | 1 => if y.slt x then y else x
  | 2 => if x.slt y then y else x
  | 3 => if y.ult x then y else x
  | 4 => if x.ult y then y else x
  | 5 => x &&& y
  | 6 => x ||| y
  | 7 => x ^^^ y
  | 8 => BitVec.ofNat 32 (fAdd .f32 rm false x.toNat y.toNat)
  | 9 => BitVec.ofNat 32 (fMinOf .f32 x.toNat y.toNat)
  | _ => BitVec.ofNat 32 (fMaxOf .f32 x.toNat y.toNat)

/-- The identity of an operation, for an exclusive prefix that is absent. -/
def redIdentity (opr : Nat) : Word :=
  match opr with
  | 1 => 0x7FFFFFFF#32
  | 2 => 0x80000000#32
  | 3 => 0xFFFFFFFF#32
  | 5 => 0xFFFFFFFF#32
  | 8 => 0x80000000#32
  | 9 => 0x7F800000#32
  | 10 => 0xFF800000#32
  | _ => 0#32

/-- COMBINE of two values, either of them absent. -/
def combine (f : Word → Word → Word) : Option Word → Option Word → Option Word
  | none, y => y
  | x, none => x
  | some x, some y => some (f x y)

/-- One level of the reduction tree. -/
def treeLevel (f : Word → Word → Word) : List (Option Word) → List (Option Word)
  | x :: y :: t => combine f x y :: treeLevel f t
  | l => l

/-- The tree of h levels over a group. -/
def treeRed (f : Word → Word → Word) : Nat → List (Option Word) → Option Word
  | 0, l => l.headD none
  | h + 1, l => treeRed f h (treeLevel f l)

/-- Group size for GS. -/
def groupSize (gs : Nat) : Nat := 32 / 2 ^ gs
/-- The lanes of lane i's group. -/
def groupOf (size i : Nat) : List Nat := (List.range size).map (i / size * size + ·)
/-- a[i] when lane i contributes, ABSENT otherwise. -/
def Cx.contrib (cx : Cx) (i : Nat) : Option Word := if cx.p.has i then some (cx.a.word i) else none

/-- Whether lane i's group holds a dead lane, or one that has exited, which counts as dead here (R169, R362). -/
def Cx.groupDead (cx : Cx) (size i : Nat) : Bool := (groupOf size i).any fun j => !cx.s.warp.alive.has j

/-- REDX (R166): U where one group covers the warp under a full mask. -/
def execRedx (w : Strip) : State → Result := laneWord (.redx w) {} fun cx =>
  let size := groupSize (cx.x 8 7)
  let f := redOp (cx.x 6 3) w.rm.toNat
  let val (i : Nat) : Word := (treeRed f (5 - cx.x 8 7) ((groupOf size i).map cx.contrib)).getD 0#32
  .done {
    s := cx.s
    regs := [mkWrite cx.d (if cx.full && (size == 32 || (cx.allU && cx.s.warp.alive == 0xFFFFFFFF#32))
      then .uniform (val cx.lane0) else .lanes (laneIds.map val)) cx.p w.fmt]
    preds := [⟨cx.x 2 0, LaneMask.ofPred (cx.groupDead size), cx.p⟩] }

/-- The prefix of lane i in its group. -/
def Cx.scanLane (cx : Cx) (size : Nat) (excl : Bool) (f : Word → Word → Word) (i : Nat) : Option Word :=
  ((groupOf size i).filter fun j => if excl then decide (j < i) else decide (j ≤ i)).foldl
    (fun acc j => combine f acc (cx.contrib j)) none

/-- SCAN (R166). -/
def execScan (w : Strip) : State → Result := laneWord (.scan w) {} fun cx =>
  let size := groupSize (cx.x 8 7)
  let f := redOp (cx.x 6 3) w.rm.toNat
  .done {
    s := cx.s
    regs := [mkWrite cx.d (.lanes (laneIds.map fun i =>
      (cx.scanLane size (cx.xb 9) f i).getD (redIdentity (cx.x 6 3)))) cx.p w.fmt]
    preds := [⟨cx.x 2 0, LaneMask.ofPred (cx.groupDead size), cx.p⟩] }

/-! ## MATCH (R167) -/

/-- MATCH (R167). -/
def execMatchLanes (w : Strip) : State → Result := laneWord (.matchLanes w) {} fun cx =>
  let same (i : Nat) : LaneMask := LaneMask.ofPred fun j => cx.p.has j && cx.a.word j == cx.a.word i
  .done {
    s := cx.s
    regs := [mkWrite cx.d (cx.mapLanes cx.allU same) cx.p 2#4]
    preds := [⟨cx.x 2 0, LaneMask.ofPred fun i => same i == cx.p, cx.p⟩] }

/-! ## CMPR (R168) -/

/-- The rank key of a value: greater ranks first. -/
def rankKey (fmt : FmtTag) (x : Word) : Nat :=
  if fmt = 3#4 then (if isNan .f32 x.toNat then 2 ^ 32 else x.toNat % 2 ^ 31)
  else if fmt = 1#4 then x.toInt.natAbs
  else x.toNat

/-- Insert a lane after those of keys no smaller. -/
def rankInsert (key : Nat → Nat) (j : Nat) : List Nat → List Nat
  | [] => [j]
  | k :: t => if key k < key j then j :: k :: t else k :: rankInsert key j t

/-- Lanes by key, greatest first, equal keys by lower lane first. -/
def ranked (key : Nat → Nat) (l : List Nat) : List Nat := l.foldl (fun acc j => rankInsert key j acc) []

/-- The leader that lane i receives: the lane ranked as i stands among the lanes of P of its group. -/
def Cx.leader (cx : Cx) (size k i : Nat) : Option Nat :=
  let q := (groupOf size i).filter cx.p.has
  let r := q.findIdx (· == i)
  if r < k then (ranked (fun j => rankKey cx.w.fmt (cx.a.word j)) q)[r]? else none

/-- CMPR (R168). -/
def execCmpr (w : Strip) : State → Result := laneWord (.cmpr w) {} fun cx =>
  let size := groupSize (cx.x 4 3)
  let lead := cx.leader size (cx.x 10 5)
  let vals := mkWrite cx.d (.lanes (laneIds.map fun i => ((lead i).map cx.a.word).getD 0#32)) cx.p w.fmt
  let ixs := mkWrite (cx.d + 1) (.lanes (laneIds.map fun i => BitVec.ofNat 32 ((lead i).getD 0))) cx.p 2#4
  .done {
    s := cx.s
    regs := if cx.xb 11 then [vals, ixs] else [vals]
    preds := [⟨cx.x 2 0, LaneMask.ofPred fun i => (lead i).isSome, cx.p⟩] }

end Sys2Proof.Machine
end

