-- ==== Sys2Proof/Machine/Salvage.lean ====
section
/-! DEFINITION. Salvage (R261 to R274): fragments, their names, the catalogue and the cistern. -/

namespace Sys2Proof.Machine

/-! ## Names (R264) -/

/-- The window, register and opening items of the sponge. -/
def openItem (salt : List Byte) (rid : BitVec 16) (digest : List Byte) (m : LaneMask) : List Byte :=
  [0x4B#8, 0x34#8, 0x2D#8, 0x46#8, 0x52#8, 0x41#8, 0x47#8, 0x2D#8, 0x4E#8, 0x41#8, 0x4D#8, 0x45#8]
    ++ salt ++ toBytesLE 2 rid.toNat ++ digest ++ toBytesLE 4 m.toNat

def sideBytes (l : List (Byte × Byte)) : List Byte :=
  (List.range 8).flatMap fun b => let p := l.getD b sideZero; [p.1, p.2]

def regItem (n : Nat) (r : LaneReg) (m : LaneMask) : List Byte :=
  [0x01#8, BitVec.ofNat 8 n, r.tag.setWidth 8, BitVec.ofNat 8 r.val.shape]
    ++ (laneIds.flatMap fun i => toBytesLE 4 (if m.has i then (r.val.word i).toNat else 0))
    ++ (if r.tag = 8#4 then sideBytes r.side else [])

def windowItem (bs : List Byte) : List Byte := 0x02#8 :: toBytesLE 4 bs.length ++ bs

/-- The first 128 bits of SHAKE256 over the sponge. -/
def fragName (sponge : List Byte) : BitVec 128 := BitVec.ofNat 128 (ofBytesLE (shake256 16 sponge))

/-! ## Domains and regions -/

/-- The domain of a warp's request, where it carries an open one (R261). -/
def warpDomain (s : State) (w : Warp) : Option (Nat × Domain) :=
  match (reqById s w.req).bind (·.dom) with
  | none => none
  | some d =>
    match Tab.find? s.domains d with
    | some x => if x.isOpen then some (d, x) else none
    | none => none

/-- The domain an open fragment was opened in, unless it has been closed since. -/
def fragDomain (s : State) (fr : Frag) : Option Domain :=
  match Tab.find? s.domains fr.dom with
  | some d => if d.isOpen && d.gen == fr.gen then some d else none
  | none => none

def modDomain (s : State) (d : Nat) (f : Domain → Domain) : State :=
  match Tab.find? s.domains d with
  | some x => { s with domains := Tab.put s.domains d (f x) }
  | none => s

/-- A catalogue entry's place in the domain. -/
def Domain.entry (d : Domain) (name : BitVec 128) : Option CatEntry := d.entries.find? (·.name == name)
def Domain.setEntry (d : Domain) (e : CatEntry) : Domain := { d with entries := e :: d.entries.filter (·.name != e.name) }
def Domain.free (d : Domain) (name : BitVec 128) : Domain := { d with entries := d.entries.filter (·.name != name) }

/-- The warp holds exactly one split (R263). -/
def oneSplit (w : Warp) : Bool := w.splits.length == 1

/-! ## Shared steps -/

def modFrag (s : State) (f : Frag → Frag) : State := modWarp s fun w => { w with frag := w.frag.map f }
def closeFrag (s : State) : State := modWarp s fun w => { w with frag := none }

/-- The context of a word before its checks: what its ILLEGAL conditions on operands look at. -/
def rawCx (i : Instr) (s : State) (sp : Split) (w : Strip) : Option Cx :=
  (laneForm i).map fun f => readCx s w f.1 sp (takingPart s.warp sp f.1 w)

/-- A fragment word: ILLEGAL unless the warp holds one split, and by its own condition while a fragment is open. -/
def fragWord (i : Instr) (illegal : Cx → Frag → Bool) (early : Cx → Option TrapInfo) (deaths : Cx → LaneMask)
    (body : Cx → Frag → LaneRes) (closed : Cx → LaneRes) : State → Result :=
  laneWord i
    { illegal := fun s sp w => !oneSplit s.warp ||
        (match s.warp.frag, rawCx i s sp w with | some fr, some cx => illegal cx fr | _, _ => false)
      early := early, deaths := some deaths }
    fun cx => match cx.s.warp.frag with | some fr => body cx fr | none => closed cx

def noDeaths (_ : Cx) : LaneMask := 0#32

/-- A status result, U under a full mask. -/
def Cx.status (cx : Cx) (s : State) (n : Nat) : LaneRes :=
  .done { s := s, regs := [mkWrite cx.d (.uniform (BitVec.ofNat 32 n)) cx.p 2#4], var := true }

/-- The registers of FRAG.IN and FRAG.OUT: A, then B, C and D. -/
def namedRegs (w : Strip) : List Nat :=
  ([w.a.code.toNat, w.b.code.toNat, w.c.code.toNat, w.d.toNat]).take (Form.xf w 1 0 + 1)

/-! ## Opening and absorbing -/

/-- The lanes of M that carry poison in a register. -/
def poisonedIn (w : Warp) (m : LaneMask) (n : Nat) : Bool := (w.reg n).poison &&& m != 0#32

/-- ILLEGAL of FRAG.OPEN (R261, R263, R268). -/
def openIllegal (s : State) (sp : Split) (w : Strip) : Bool :=
  !oneSplit s.warp || (warpDomain s s.warp).isNone || s.warp.frag.isSome
    || (match fragRegion s s.warp w.imm16 with
      | some r => !(decide (r.lstart.toNat ≤ sp.pc.toNat) && decide (sp.pc.toNat < r.lend.toNat))
      | none => true)

/-- FRAG.OPEN (R268). -/
def execFragOpen (w : Strip) : State → Result :=
  laneWord (.fragOpen w) { illegal := openIllegal } fun cx =>
    match warpDomain cx.s cx.s.warp, fragRegion cx.s cx.s.warp w.imm16 with
    | some (dn, d), some r =>
      let m := cx.sp.mask
      .done { s := modWarp cx.s fun x => { x with frag := some {
        rid := w.imm16, dom := dn, gen := d.gen, mask := m, sponge := openItem d.salt w.imm16 r.digest m, regsIn := 0
        window := none, claimed := false, settled := false, reservation := none, outs := [], outWin := none
        written := [], cleanR := [], cleanP := [], poisoned := false } } }
    | _, _ => .trap (wholeTrap Code.illegal cx.sp.mask)

/-- FRAG.IN (R269). -/
def execFragIn (w : Strip) : State → Result :=
  fragWord (.fragIn w) (fun _ fr => decide (64 < fr.regsIn + (namedRegs w).length) || fr.claimed) (fun _ => none) noDeaths
    (fun cx fr =>
      let regs := namedRegs w
      let x := cx.s.warp
      .done { s := modFrag cx.s fun f => { f with
        sponge := f.sponge ++ regs.flatMap fun n => regItem n (x.reg n) fr.mask
        regsIn := f.regsIn + regs.length
        cleanR := f.cleanR ++ regs.filter fun n => !f.cleanR.contains n
        poisoned := f.poisoned || regs.any (poisonedIn x fr.mask) } })
    (fun cx => .done { s := cx.s })

/-- Base and length of FRAG.INM and of FRAG.OUT's window form. -/
def Cx.winBase (cx : Cx) : DWord := cx.pairA cx.lane0
def Cx.winLen (cx : Cx) : Nat := (cx.low cx.b).toNat

/-- Whether the window of FRAG.INM leaves paged space or meets a speculative window (R270). -/
def inmImpure (s : State) (base : DWord) (len : Nat) : Bool :=
  decide (2 ^ 56 < base.toNat + len) ||
    ((reqById s s.warp.req).map fun r => r.windows.any fun (b, l) =>
      decide (b.toNat < base.toNat + len) && decide (base.toNat < b.toNat + l)).getD false

/-- FRAG.INM (R270). -/
def execFragInm (w : Strip) : State → Result :=
  fragWord (.fragInm w)
    (fun cx fr => cx.winBase.toNat % 4 ≠ 0 || cx.winLen % 4 ≠ 0 || cx.winLen = 0 || decide (2 ^ 20 < cx.winLen)
      || fr.window.isSome || fr.claimed)
    (fun cx => if cx.s.warp.frag.isSome && inmImpure cx.s cx.winBase cx.winLen then
        some (wholeTrap Code.impure cx.sp.mask) else none)
    lowDeaths
    (fun cx _ =>
      let base := cx.winBase
      let len := cx.winLen
      let (l, s) := placeList cx.view cx.s.warp .read (cutsOf base len) cx.s
      match cx.placedFail 1 l with
      | some t => .trap t
      | none =>
        let pages := keysOf l
        let keys := windowKeys base len pages
        let (bs, s) := cx.loadKeys s keys
        let bad := anyPoisoned s keys
        .done { s := modFrag s fun f => { f with
          sponge := f.sponge ++ windowItem bs
          window := some (base, len, s.serial, pages)
          poisoned := f.poisoned || bad } })
    (fun cx => .done { s := cx.s })

/-! ## Claims (R271, R272) -/

/-- HDISP's target. -/
def Cx.hitTarget (cx : Cx) : DWord := cx.next + 12#64 * cx.w.disp57.signExtend 64

/-- A stored register as it is copied in: the lanes of M (R271). -/
def storedWrite (m : LaneMask) (r : StoredReg) : RegWrite :=
  let val : WriteVal := match r.reg.val with
    | .u v => .uniform v
    | .a b st => .affine b st
    | .g ws => .lanes ws
  ⟨r.n, val, m, r.reg.tag, laneIds.map fun i => r.reg.side.getD (i / 4) sideZero, 0#32⟩

/-- Store bytes as G stores of the split at placed pages. -/
def storeWindow (s : State) (v : PathView) (core : Nat) (va : DWord) (pages : List Nat) (bs : List Byte) : State :=
  gWrites s v core (windowKeys va bs.length pages) bs false

/-- A HIT (R271): its window stores, its registers, and the branch when the result returns. -/
def Cx.hit (cx : Cx) (e : CatEntry) : LaneRes :=
  let m := (cx.s.warp.frag.map (·.mask)).getD 0#32 &&& cx.s.warp.alive
  let regs := e.regs.map (storedWrite m) ++ [mkWrite cx.d (.uniform 1#32) cx.p 2#4]
  let finish (s : State) : LaneRes :=
    .done { s := closeFrag s, regs := regs, var := true, branch := some cx.hitTarget, holds := true }
  if !(e.regs.all fun r => inAlloc cx.s.warp.units r.n) then .trap (wholeTrap Code.budget cx.p)
  else if !cx.xb 0 || e.window.isEmpty then finish cx.s
  else
    let a := cx.pairA cx.lane0
    let n := e.window.length
    if epochOutside cx.s cx.s.warp a n then .trap (cx.nameAll Code.epochwin 2 a [])
    else
      let (l, s) := placeList cx.view cx.s.warp .write (cutsOf a n) cx.s
      match cx.placedFail 2 l with
      | some t => .trap t
      | none =>
        let v := storeView cx.view a
        match epochRoom s v (windowKeys a n (keysOf l)) with
        | .stall => .hold cx.s
        | .full => .trap (cx.nameAll Code.epochfull 2 a [])
        | .ok =>
          if s.warp.rg.isSome then
            let cells := (windowKeys a n (keysOf l)).zip e.window
            finish (commitEntry s s.warp ⟨s.warp.id, false, cx.sp.pc, cx.sp.mask, 0, cells, [], true⟩)
          else finish (storeWindow s v s.warp.coreIx a (keysOf l) e.window)

/-- A claim's status result, which holds the split until it returns. -/
def Cx.claim (cx : Cx) (s : State) (n : Nat) : LaneRes :=
  .done { s := s, regs := [mkWrite cx.d (.uniform (BitVec.ofNat 32 n)) cx.p 2#4], var := true, holds := true }

/-- A claim of the name by the executing warp. -/
def Cx.claimIn (cx : Cx) (fr : Frag) (d : Domain) : LaneRes :=
  let name := fragName fr.sponge
  let id := cx.s.warp.id
  let s := modFrag cx.s fun f => { f with claimed := true }
  let take (n : Nat) : LaneRes :=
    cx.claim (modDomain (modFrag s fun f => { f with settled := true, reservation := some name }) fr.dom
      fun d => d.setEntry ⟨name, .open_, some id, [], []⟩) n
  match d.entry name with
  | some e => (match e.state with
    | .complete => cx.hit e
    | .orphan => take 3
    | .open_ => cx.claim s 2)
  | none => if d.size ≤ d.entries.length then cx.claim s 4 else take 0

/-- FRAG.CLAIM (R271). -/
def execFragClaim (w : Strip) : State → Result :=
  fragWord (.fragClaim w) (fun _ fr => fr.settled) (fun _ => none) lowDeaths
    (fun cx fr => match fragDomain cx.s fr with
      | some d => cx.claimIn fr d
      | none => cx.claim (closeFrag cx.s) 5)
    (fun cx => cx.claim cx.s 5)

/-! ## Outputs and sealing (R273) -/

/-- FRAG.OUT, register form (R273). -/
def execFragOut (w : Strip) : State → Result :=
  fragWord (.fragOut w) (fun _ fr => decide (64 < (fr.outs ++ namedRegs w).eraseDups.length)) (fun _ => none) noDeaths
    (fun cx _ => .done { s := modFrag cx.s fun f => { f with outs := (f.outs ++ namedRegs w).eraseDups } })
    (fun cx => .done { s := cx.s })

/-- FRAG.OUT, window form (R273). -/
def execFragOutWin (w : Strip) : State → Result :=
  fragWord (.fragOutWin w)
    (fun cx fr => cx.winBase.toNat % 4 ≠ 0 || cx.winLen % 4 ≠ 0 || cx.winLen < 4 || decide (65536 < cx.winLen)
      || fr.outWin.isSome)
    (fun _ => none) lowDeaths
    (fun cx _ => .done { s := modFrag cx.s fun f => { f with outWin := some (cx.winBase, cx.winLen), written := [] } })
    (fun cx => .done { s := cx.s })

/-- Whether a store took its place in the generic order after a serial at one of these keys (R270). -/
def windowStored (s : State) (since : Nat) (keys : List Nat) : Bool :=
  let hs := keys.map (home s)
  s.hist.any fun r => hs.contains r.key &&
    (if r.path = .g then decide (since < r.serial) else (r.fenced.map fun n => decide (since < n)).getD false)

def fragWindowStored (s : State) (fr : Frag) : Bool :=
  match fr.window with
  | some (b, len, since, pages) => windowStored s since (windowKeys b len pages)
  | none => false

/-- Bytes that a sealed entry takes in the cistern (log 21). -/
def sealBytes (regs : List StoredReg) (window : List Byte) : Nat :=
  128 * regs.length + window.length

/-- Whether the warp still owns the reservation it holds. -/
def ownsEntry (d : Domain) (name : BitVec 128) (id : Nat) : Bool :=
  (d.entry name).any fun e => e.state == .open_ && e.owner == some id

/-- A refusal sets the entry FREE and closes the fragment. -/
def Cx.refuse (cx : Cx) (s : State) (fr : Frag) (name : BitVec 128) (n : Nat) : LaneRes :=
  cx.status (closeFrag (modDomain s fr.dom (·.free name))) n

/-- The seal proper, its outputs clean and its window's bytes at hand (R273). -/
def Cx.sealEntry (cx : Cx) (s : State) (fr : Frag) (d : Domain) (name : BitVec 128) (window : List Byte) (bad : Bool) :
    LaneRes :=
  let w := s.warp
  let regs := fr.outs.map fun n => (⟨n, w.reg n⟩ : StoredReg)
  if fr.poisoned || bad || fr.outs.any (poisonedIn w fr.mask) then cx.refuse s fr name 2
  else if fr.mask &&& ~~~ w.alive != 0#32 then cx.refuse s fr name 3
  else if fragWindowStored s fr then cx.refuse s fr name 4
  else if (fr.outWin.map fun (_, n) => decide (fr.written.length < n)).getD false then cx.refuse s fr name 5
  else if d.cistern < d.used + sealBytes regs window then cx.refuse s fr name 6
  else
    let s := modDomain s fr.dom fun d =>
      { d.setEntry ⟨name, .complete, none, regs, window⟩ with used := d.used + sealBytes regs window }
    let s := modGrid s w.grid fun g =>
      let n := ((g.sealed.find? (·.1 == fr.rid)).map (·.2)).getD 0
      { g with sealed := (fr.rid, n + 1) :: g.sealed.filter (·.1 != fr.rid) }
    cx.status (closeFrag s) 0

/-- FRAG.SEAL (R273). -/
def execFragSeal (w : Strip) : State → Result :=
  fragWord (.fragSeal w) (fun _ _ => false) (fun _ => none) noDeaths
    (fun cx fr =>
      match fr.reservation with
      | none => cx.status (closeFrag cx.s) 1
      | some name =>
        if fr.outs.any fun n => cx.s.warp.pending.any fun p => p.regs.any fun x => x.n == n then
          .hold (modWarp cx.s fun w => { w with parked := true })
        else if cx.sp.ts.isNone && !fr.outs.all fr.cleanR.contains then .trap (wholeTrap Code.impure cx.sp.mask)
        else match fragDomain cx.s fr with
          | none => cx.status (closeFrag cx.s) 7
          | some d =>
            if !ownsEntry d name (leadId cx.s.warp) then cx.status (closeFrag cx.s) 7
            else match fr.outWin with
              | none => cx.sealEntry cx.s fr d name [] false
              | some (b, n) =>
                let (l, s) := placeList cx.view cx.s.warp .read (cutsOf b n) cx.s
                match cx.placedFail 1 l with
                | some t => .trap t
                | none =>
                  let keys := windowKeys b n (keysOf l)
                  cx.sealEntry s fr d name (readBytes s cx.view .g cx.lane0 keys) (anyPoisoned s keys))
    (fun cx => cx.status cx.s 7)

/-- Free a reservation that a warp still owns. -/
def freeOwned (s : State) (id dom : Nat) (name : BitVec 128) : State :=
  modDomain s dom fun d => if ownsEntry d name id then d.free name else d

/-- FRAG.DROP (R274). In a redundant group the entry is freed at the next commit point: a rollback returns the copies into
the fragment with the reservation still OPEN (log 55). -/
def execFragDrop (w : Strip) : State → Result :=
  fragWord (.fragDrop w) (fun _ _ => false) (fun _ => none) noDeaths
    (fun cx fr =>
      let s := match fr.reservation with
        | some name =>
          if cx.s.warp.rg.isSome then
            modWarp cx.s fun w => { w with rg := w.rg.map fun g => { g with drops := g.drops ++ [(fr.dom, name)] } }
          else freeOwned cx.s cx.s.warp.id fr.dom name
        | none => cx.s
      .done { s := closeFrag s })
    (fun cx => .done { s := cx.s })

/-- FRAG.NAME (R274). -/
def execFragName (w : Strip) : State → Result :=
  laneWord (.fragName w) {} fun cx =>
    let name := match cx.s.warp.frag with | some fr => fragName fr.sponge | none => 0#128
    .done { s := cx.s, regs := (List.range 4).map fun k =>
      mkWrite (cx.d + k) (.uniform (name.extractLsb' (32 * k) 32)) cx.p 0#4 }

end Sys2Proof.Machine
end

