-- ==== Sys2Proof/Machine/Epoch.lean ====
section
/-! DEFINITION. Epochs (R275 to R280): the SPEC instructions, the commit point, squashes and the cancelling of warps. -/

namespace Sys2Proof.Machine

def modReq (s : State) (id : Nat) (f : Request → Request) : State :=
  { s with requests := s.requests.map fun r => if r.id = id then f r else r }

def Request.epoch (r : Request) (n : Nat) : Option EpochRec := r.epochs.find? (·.num == n)
def Request.openCount (r : Request) : Nat := (r.epochs.filter (·.state == 1#3)).length
def Request.youngest (r : Request) : Nat := r.epochs.foldl (fun m e => max m e.num) 0

/-- The state of an epoch: 0 none, 1 open, 2 committed, 3 squashed. -/
def Request.stateOf (r : Request) (n : Nat) : BitVec 3 := ((r.epoch n).map (·.state)).getD 0#3

/-- Open epochs of one chain at most (R275). -/
def epochMax : Nat := 16

/-- A request with no epoch: what a warp without one reads. -/
def Request.none : Request := ⟨0, 0, 0#64, Option.none, [], [], 0#64, false, [], 0, false, 0⟩
def Cx.req (cx : Cx) : Request := (reqById cx.s cx.s.warp.req).getD Request.none
/-- The epoch number a word names. -/
def Cx.epochNum (cx : Cx) : Nat := (cx.low cx.a).toNat

/-- Make the warp a member of an epoch, or of none. -/
def joinEpoch (s : State) (e : Option Nat) : State := modWarp s fun w => { w with epoch := e }

/-- An epoch instruction. -/
def specWord (i : Instr) (body : Cx → LaneRes) : State → Result := laneWord i { deaths := some lowDeaths } body

/-- Whether every epoch store that a warp has issued is performed: drains and copies are left. -/
def storesDone (s : State) (id : Nat) : Bool :=
  s.drains.all (fun d => d.warp != id || d.view.epoch.isNone) && s.copies.all fun c => c.warp != id || c.view.epoch.isNone

/-- SPEC.OPEN (R279). -/
def execSpecOpen (w : Strip) : State → Result := specWord (.specOpen w) fun cx =>
  let a := cx.epochNum
  let r := cx.req
  if !storesDone cx.s cx.s.warp.id then .hold cx.s
  else if a = 0 then cx.status (joinEpoch cx.s none) 0
  else match r.stateOf a with
    | 1#3 => cx.status (joinEpoch cx.s (some a)) 0
    | 0#3 =>
      if a ≤ r.youngest || 65535 < a then cx.status cx.s 2
      else if epochMax ≤ r.openCount then cx.status cx.s 1
      else
        let s := modReq cx.s r.id fun r => { r with epochs := r.epochs ++ [⟨a, 1#3, false⟩] }
        cx.status (joinEpoch s (some a)) 0
    | _ => cx.status cx.s 3

/-- SPEC.COMMIT (R279): of an open epoch the status waits for its fate. -/
def execSpecCommit (w : Strip) : State → Result := specWord (.specCommit w) fun cx =>
  let a := cx.epochNum
  let r := cx.req
  match r.stateOf a with
  | 0#3 => cx.status cx.s 2
  | 1#3 =>
    .done {
      s := modReq cx.s r.id fun r => { r with epochs := r.epochs.map fun e => if e.num = a then { e with asked := true } else e }
      regs := [mkWrite cx.d (.uniform 0#32) cx.p 2#4]
      var := true
      epoch := some (r.id, a) }
  | 2#3 => cx.status cx.s 0
  | _ => cx.status cx.s 1

/-- Cancel every member of epochs from a on: at its next boundary, or where it is saved. -/
def cancelFrom (req a : Nat) (w : Warp) : Warp :=
  if w.req = req && w.ended.isNone && (w.epoch.map fun e => decide (a ≤ e)).getD false then { w with cancelled := true } else w

/-- A drain of a squashed epoch: what it has not written to paged space it never writes. -/
def DrainOp.discard (req a : Nat) (d : DrainOp) : DrainOp :=
  if (d.view.epoch.map fun e => e.1 == req && decide (a ≤ e.2)).getD false then
    { d with items := d.items.map fun x => { x with dst := x.dst.filter (spBase ≤ ·), twin := x.twin.filter (spBase ≤ ·) } }
  else d

/-- A copy likewise. -/
def CopyOp.discard (req a : Nat) (c : CopyOp) : CopyOp :=
  if (c.view.epoch.map fun e => e.1 == req && decide (a ≤ e.2)).getD false then
    { c with elems := c.elems.map fun x => { x with dst := x.dst.filter (spBase ≤ ·), twin := x.twin.filter (spBase ≤ ·) } }
  else c

/-- Squash an epoch and every younger open one of the chain (R279, R280). -/
def squashFrom (s : State) (req a : Nat) : State :=
  let s := modReq s req fun r =>
    { r with epochs := r.epochs.map fun e => if a ≤ e.num && e.state = 1#3 then { e with state := 3#3 } else e }
  { s with
    versions := s.versions.filter fun x => !(x.req == req && decide (a ≤ x.epoch))
    drains := s.drains.map (·.discard req a)
    copies := s.copies.map (·.discard req a)
    warp := cancelFrom req a s.warp
    others := s.others.map (cancelFrom req a)
    saved := s.saved.map fun c => { c with warps := c.warps.map (cancelFrom req a) } }

/-- SPEC.SQUASH (R279). -/
def execSpecSquash (w : Strip) : State → Result := specWord (.specSquash w) fun cx =>
  let a := cx.epochNum
  let r := cx.req
  match r.stateOf a with
  | 0#3 => cx.status cx.s 2
  | 1#3 => cx.status (squashFrom cx.s r.id a) 0
  | 2#3 => cx.status cx.s 1
  | _ => cx.status cx.s 0

/-- SPEC.STAT (R279). -/
def execSpecStat (w : Strip) : State → Result := specWord (.specStat w) fun cx =>
  let a := cx.epochNum
  let r := cx.req
  let member := if cx.s.warp.epoch == some a then 8 else 0
  cx.status cx.s ((r.stateOf a).toNat + member + 16 * r.openCount)

/-! ## The commit point -/

/-- Whether any warp is still a member of an epoch: resident or saved. -/
def hasMember (s : State) (req e : Nat) : Bool :=
  let m (w : Warp) : Bool := w.req == req && w.epoch == some e && w.ended.isNone
  (allWarps s).any m || s.saved.any fun c => c.warps.any m

/-- Whether a drain or a copy that stores for an epoch is left: of a member that ended. -/
def hasStores (s : State) (req e : Nat) : Bool :=
  s.drains.any (fun d => d.view.epoch == some (req, e)) || s.copies.any fun c => c.view.epoch == some (req, e)

/-- Whether the commit point of an epoch has come. -/
def commitReady (s : State) (r : Request) (e : EpochRec) : Bool :=
  e.asked && e.state == 1#3 && !hasMember s r.id e.num && !hasStores s r.id e.num
    && r.epochs.all fun x => !decide (x.num < e.num) || x.state == 2#3

/-- The stores of an epoch become committed data, at one place in the generic order (R277, R279). -/
def commitVersions (s : State) (req e : Nat) : State :=
  let mine := s.versions.filter fun x => x.req == req && x.epoch == e
  let s := { s with versions := s.versions.filter fun x => !(x.req == req && x.epoch == e) }
  let away := ((mine.filter fun x => homedAway s x.record.key).map fun x => (x.record.group, x.record.key / 2 ^ 39)).eraseDups
  let s := away.foldl (fun s p => countChip s p.2) s
  mine.reverse.foldl (fun s x => writeCommitted s (PathView.start x.record.writer s.serial) .g 0 x.record.group x.record.key x.byte) s

/-- EPOCH_COMMIT_POINT (R279). -/
def execEpochCommitPoint (req epoch : Nat) (s : State) : Result :=
  match reqById s req with
  | none => .next s
  | some r =>
    match r.epoch epoch with
    | some e =>
      if commitReady s r e then
        .next (commitVersions (modReq s req fun r =>
          { r with epochs := r.epochs.map fun x => if x.num = epoch then { x with state := 2#3 } else x }) req epoch)
      else .next s
    | none => .next s

/-- WARP_CANCEL (R279): at its next boundary a cancelled warp ends with status 3. -/
def execWarpCancel (s : State) : Result :=
  if s.warp.cancelled && s.warp.ended.isNone then .next (endWarp s s.warp.id 3#8 0#8 s.warp.anyPc) else .next s

end Sys2Proof.Machine
end

