-- ==== Sys2Proof/Machine/Queue.lean ====
section
/-! DEFINITION. Cluster queues (R281 to R287): the queue of a cluster, its push, pop and refill, the bytes it keeps in
memory, and Q.PUSH, Q.POP and Q.STAT. -/

namespace Sys2Proof.Machine

/-! ## Queues -/

def CQueue.empty : CQueue := ⟨[], [], 0#32, 0#32⟩
/-- Entries of the hardware part (R281). -/
def hwMax : Nat := 32
/-- Key of queue q of package cluster hw for a context. The hardware holds the queues of the context on the package and
keeps those of the others in their blocks (R281); here each stands in the state. -/
def queueKey (ctx hw q : Nat) : Nat := ctx * 1280 + hw * 8 + q
def queueAt (s : State) (ctx hw q : Nat) : CQueue := Tab.getD s.cqueues (queueKey ctx hw q) CQueue.empty
def setQueue (s : State) (ctx hw q : Nat) (c : CQueue) : State := { s with cqueues := Tab.put s.cqueues (queueKey ctx hw q) c }

/-- The entries of a queue, oldest first (R282). -/
def CQueue.all (c : CQueue) : List CqEntry := c.hwPart ++ c.well
/-- Room for n more entries under a well of this size (R281). -/
def CQueue.room (c : CQueue) (well n : Nat) : Bool := decide (c.all.length + n ≤ hwMax + well)
/-- A push stands in the well unless the well is empty and the hardware part has room (R282). -/
def CQueue.spills (c : CQueue) : Bool := !(c.well.isEmpty && decide (c.hwPart.length < hwMax))
def CQueue.push (c : CQueue) (e : CqEntry) : CQueue :=
  if c.spills then { c with well := c.well ++ [e], tail := c.tail + 1#32 }
  else { c with hwPart := c.hwPart ++ [e], tail := c.tail + 1#32 }
/-- The oldest well entry moves into the hardware part while it has room (R282). -/
def CQueue.refill (c : CQueue) : CQueue :=
  match c.well with
  | e :: t => if c.hwPart.length < hwMax then { c with hwPart := c.hwPart ++ [e], well := t } else c
  | [] => c
/-- A push into a full well waits for the refill in flight, which makes room in it (R281, R282). -/
def CQueue.makeRoom (c : CQueue) (well : Nat) : CQueue := if well ≤ c.well.length then c.refill else c
/-- Without its n oldest entries; a pop waits for refills in flight, so those of the well count (R282). -/
def CQueue.drop (c : CQueue) (n : Nat) : CQueue :=
  { c with hwPart := c.hwPart.drop n, well := c.well.drop (n - c.hwPart.length), head := c.head + BitVec.ofNat 32 n }

/-! ## Where a queue is declared -/

def imageAt (s : State) (n : Nat) : Option Image := Tab.find? s.images n
def Image.queue (m : Image) (q : Nat) : Option QueueDecl := m.queues.find? (·.qnum == q)
/-- Whether a queue is a ladder rung's queue. -/
def Image.isRung (m : Image) (q : Nat) : Bool := m.ladders.any fun l => l.rungs.any (·.qnum == q)
/-- Bytes of one cluster's queue block (R281). -/
def blockBytes (well : Nat) : Nat := ceilDiv (1216 + 36 * well) 256 * 256
/-- Address of cluster hw's block. -/
def QueueDecl.block (d : QueueDecl) (hw : Nat) : DWord := d.waddr + BitVec.ofNat 64 (hw * blockBytes d.well)

/-! ## The well in memory (R281) -/

/-- What the queue hardware knows: everything generic. -/
def blockView (s : State) : PathView := (PathView.start 0 s.serial).setHor .t s.serial s.serial

/-- The pieces of a queue block's bytes, page by page. -/
def blockPlace (s : State) (ctx core : Nat) (kind : AccKind) (va : DWord) (n : Nat) :
    List (DWord × Nat × Except AccErr Nat) × State :=
  placeCuts (fun va _ s => placePaged s (blockView s) core ctx kind va) (cutsOf va n) s

/-- Write bytes of a queue block as the hardware does: on the generic order, where the address is mapped. -/
def blockWrite (s : State) (ctx core : Nat) (va : DWord) (bs : List Byte) : State :=
  let (l, s) := blockPlace s ctx core .write va bs.length
  let at_ (a : DWord) : List Byte := bs.drop (a - va).toNat
  l.foldl (fun s p => match p.2.2 with
    | .ok k => writeBytes s (PathView.start 0 s.serial) .g 0 (keysFrom k p.2.1) ((at_ p.1).take p.2.1) false
    | .error _ => s) s

/-- Read bytes of a queue block; none where a page of it cannot be read. -/
def blockRead (s : State) (ctx core : Nat) (va : DWord) (n : Nat) : Option (List Byte) × State :=
  let (l, s) := blockPlace s ctx core .read va n
  (if (cutsFail l).isNone then some (readBytes s (blockView s) .g 0 (cutKeys l)) else none, s)

/-- A spilled entry's record and label in the ring. -/
def wellWrite (s : State) (ctx core hw : Nat) (d : QueueDecl) (pos : Nat) (e : CqEntry) : State :=
  let b := d.block hw
  let s := blockWrite s ctx core (b + BitVec.ofNat 64 (1216 + 32 * (pos % d.well))) (wordsBytes e.words)
  blockWrite s ctx core (b + BitVec.ofNat 64 (1216 + 32 * d.well + 4 * (pos % d.well))) (toBytesLE 4 e.label.toNat)

/-- Bytes 0 to 1,215 of a block: the counts and the hardware part (R281). -/
def CQueue.save (c : CQueue) : List Byte :=
  let slots := (c.hwPart.flatMap fun e => (wordsBytes e.words ++ List.replicate 32 0#8).take 32 ++ toBytesLE 4 e.label.toNat)
  toBytesLE 4 c.head.toNat ++ toBytesLE 4 c.tail.toNat ++ [BitVec.ofNat 8 c.hwPart.length] ++ List.replicate 55 0#8
    ++ (slots ++ List.replicate 1152 0#8).take 1152

/-- Bytes 0 to 1,215 read back (R281): HEAD, TAIL and the hardware part. When an entry entered, and which of its words
are poisoned, is not among the bytes: it stays as it was. -/
def CQueue.load (c : CQueue) (bs : List Byte) : CQueue :=
  let f (o n : Nat) : Nat := ofBytesLE ((bs.drop o).take n)
  let entry (k : Nat) : CqEntry :=
    let old := c.hwPart.getD k ⟨[], 0#32, 0, []⟩
    ⟨(List.range 8).map fun j => BitVec.ofNat 32 (f (64 + 36 * k + 4 * j) 4), BitVec.ofNat 32 (f (64 + 36 * k + 32) 4),
      old.entered, old.bad⟩
  { c with head := BitVec.ofNat 32 (f 0 4), tail := BitVec.ofNat 32 (f 4 4), hwPart := (List.range (min (f 8 1) hwMax)).map entry }

/-- Do something to every queue of a context that an image of it declares. -/
def onQueues (s : State) (ctx : Nat) (f : State → Nat → QueueDecl → State) : State :=
  (s.images.filter fun m => m.2.ctx == ctx).foldl (fun s m =>
    ((s.cqueues.map (·.1)).filter fun k => k / 1280 == ctx).foldl (fun s key =>
      match m.2.queue (key % 8) with | some d => f s (key % 1280 / 8) d | none => s) s) s

/-- The queue blocks of a context are written when its request ends and when the context leaves the package (R281). -/
def saveBlocks (s : State) (ctx : Nat) : State :=
  onQueues s ctx fun s hw d => blockWrite s ctx (hw * 4) (d.block hw) (queueAt s ctx hw d.qnum).save

/-- They are read back when the context returns (R281). -/
def loadBlocks (s : State) (ctx : Nat) : State :=
  onQueues s ctx fun s hw d =>
    match blockRead s ctx (hw * 4) (d.block hw) 1216 with
    | (some bs, s) => setQueue s ctx hw d.qnum ((queueAt s ctx hw d.qnum).load bs)
    | (none, s) => s

/-- Whether a team of a context is resident. -/
def onPackage (s : State) (ctx : Nat) : Bool :=
  s.teams.any fun t => ((gridById s t.grid).map fun g => g.ctx == ctx).getD false

/-- A context without a resident team leaves the package: its queue blocks are written. -/
def leaveContext (s : State) (ctx : Nat) : State :=
  if onPackage s ctx then s else { saveBlocks s ctx with away := s.away.filter (· != ctx) ++ [ctx] }

/-- A context that left returns. -/
def returnContext (s : State) (ctx : Nat) : State :=
  if s.away.contains ctx then { loadBlocks s ctx with away := s.away.filter (· != ctx) } else s

/-! ## Batches (R283) -/

/-- Push one entry of a context's queue. -/
def pushEntry (s : State) (ctx core hw : Nat) (d : QueueDecl) (e : CqEntry) : State :=
  let c := (queueAt s ctx hw d.qnum).makeRoom d.well
  let s := setQueue s ctx hw d.qnum (c.push e)
  if c.spills then wellWrite s ctx core hw d c.tail.toNat e else s

/-- Push a batch in order. -/
def pushBatch (s : State) (ctx core hw : Nat) (d : QueueDecl) (l : List CqEntry) : State :=
  l.foldl (fun s e => pushEntry s ctx core hw d e) s

/-- The eight words of lane i from the range that A names. -/
def Cx.record (cx : Cx) (i : Nat) : List Word := (List.range 8).map fun k => (cx.srcA k).word i

/-- The split waits until the queue moves (R283). -/
def Cx.waitQueue (cx : Cx) : LaneRes := .hold (cx.s.setSplit (some { cx.sp with wait := .queue }))

/-! ## The ladder of a warp (R294, R298) -/

def ladderKey (home lnum : Nat) : Nat := home * 4 + lnum
def ladderAt (s : State) (home lnum : Nat) : Option Ladder := Tab.find? s.ladders (ladderKey home lnum)
def Image.ladder (m : Image) (lnum : Nat) : Option LadderDecl := m.ladders.find? (·.lnum == lnum)
/-- The warp's ladder with its slot. -/
def warpLadder (s : State) (w : Warp) : Option (Nat × Nat × Nat × Ladder) :=
  w.ladder.bind fun (home, lnum, rung) => (ladderAt s home lnum).map (home, lnum, rung, ·)

/-- Registers that LAD.RES reads: RSIZE / 4 from A. -/
def resRegs (s : State) (a : Nat) : List Nat :=
  match warpLadder s s.warp with
  | some (_, lnum, _, l) =>
    let n := (((imageAt s l.image).bind (·.ladder lnum)).map (·.rsize)).getD 4 / 4
    (List.range n).map (a + ·)
  | none => [a]

/-! ## The instructions (R284 to R287) -/

/-- The cluster a queue word names: B of the lowest lane under REM, else the warp's own. -/
def Cx.qCluster (cx : Cx) : Nat := if cx.xb 3 then (cx.low cx.b).toNat else cx.s.warp.hw

/-- Lanes that consume poison: per lane in the range of A, by the lowest lane in B (R284). -/
def queueDeaths (cx : Cx) : LaneMask :=
  let a := if cx.f.a.used then (List.range cx.f.a.span).foldl (fun m k => m ||| (cx.srcA k).poison) 0#32 else 0#32
  let p := cx.p &&& ~~~ a
  (cx.p &&& a) ||| (if cx.f.b.used then lowPrefix p cx.b.poison else 0#32)

/-- ILLEGAL: the image declares no queue of this number. -/
def noQueue (s : State) (_ : Split) (w : Strip) : Bool :=
  ((imageAt s s.warp.image).bind fun m => m.queue (Form.xf w 2 0)).isNone

/-- A queue word: ILLEGAL without a .queue record; PROT for a cluster above 159 and, where `rung` says so, for a rung's
queue. -/
def queueWord (i : Instr) (rung : Bool) (body : Cx → QueueDecl → Nat → LaneRes) : State → Result :=
  laneWord i
    { illegal := noQueue, deaths := some queueDeaths }
    fun cx =>
      match imageAt cx.s cx.s.warp.image with
      | none => .trap (wholeTrap Code.illegal cx.sp.mask)
      | some m =>
        match m.queue (cx.x 2 0) with
        | none => .trap (wholeTrap Code.illegal cx.sp.mask)
        | some d =>
          if 159 < cx.qCluster || (rung && m.isRung d.qnum) then
            .trap (cx.nameAll Code.prot 0 (BitVec.ofNat 64 cx.qCluster) [])
          else body cx d cx.qCluster

/-- Q.PUSH (R285). -/
def execQPush (w : Strip) : State → Result :=
  queueWord (.qPush w) true fun cx d hw =>
    let lanes := LaneMask.lanes cx.p
    if !(queueAt cx.s cx.s.warp.ctx hw d.qnum).room d.well lanes.length then cx.waitQueue
    else
      let batch := lanes.map fun i => (⟨cx.record i, 0#32, cx.s.cycle, []⟩ : CqEntry)
      .done { s := seeSplit (publish (pushBatch cx.s cx.s.warp.ctx cx.s.warp.coreIx hw d batch) cx.view) }

/-- The first n lanes of P. -/
def Cx.firstLanes (cx : Cx) (n : Nat) : List Nat := (LaneMask.lanes cx.p).take n

/-- Q.POP (R286). -/
def execQPop (w : Strip) : State → Result :=
  queueWord (.qPop w) true fun cx d hw =>
    let c := queueAt cx.s cx.s.warp.ctx hw d.qnum
    let want := (LaneMask.lanes cx.p).length
    let n := min want c.all.length
    if !cx.xb 4 && decide (n < want) then cx.waitQueue
    else if n = 0 then .trap (wholeTrap Code.queue cx.sp.mask)
    else
      let lanes := cx.firstLanes n
      let mask := LaneMask.ofPred lanes.contains
      let ent (i : Nat) : CqEntry := c.all.getD (lanes.idxOf i) ⟨[], 0#32, 0, []⟩
      let word (k i : Nat) : Word := (ent i).words.getD k 0#32
      let reg (k : Nat) : RegWrite := { mkWrite (cx.d + k) (.lanes (laneIds.map (word k))) mask w.fmt with
        poison := LaneMask.ofPred fun i => lanes.contains i && (ent i).bad.contains k }
      .done {
        s := seeSplit (setQueue cx.s cx.s.warp.ctx hw d.qnum (c.drop n))
        regs := (List.range 8).map reg
        preds := [⟨cx.x 7 5, mask, cx.p⟩]
        var := true }

/-- Q.STAT (R287). -/
def execQStat (w : Strip) : State → Result :=
  queueWord (.qStat w) false fun cx d hw =>
    let c := queueAt cx.s cx.s.warp.ctx hw d.qnum
    let n := match cx.x 5 4 with | 0 => c.hwPart.length | 1 => c.well.length | _ => hwMax + d.well
    .done { s := cx.s, regs := [mkWrite cx.d (.uniform (BitVec.ofNat 32 n)) cx.p 2#4], var := true }

/-- QUEUE_REFILL (R282): of whichever context. -/
def execQueueRefill (hw q : Nat) (s : State) : Result :=
  .next { s with cqueues := s.cqueues.map fun p => if p.1 % 1280 = hw * 8 + q then (p.1, p.2.refill) else p }

end Sys2Proof.Machine
end

