-- ==== Sys2Proof/Machine/Place.lean ====
section
/-! DEFINITION. Placing clusters (R11, R12, R341) and starting their warps (R16, R31, R73, R103, R146, R183, R231, R293,
R295, R320, R331, R334). -/

namespace Sys2Proof.Machine

/-! ## What is free -/

/-- Package clusters and cores of a package (R1). -/
def clusterCount : Nat := 160

def coreAt (s : State) (ix : Nat) : Core := Tab.getD s.cores ix Core.init

/-- Cores of a package cluster that are not retired, ascending (R11). -/
def liveCores (s : State) (hw : Nat) : List Nat := [0, 1, 2, 3].filter fun c => (coreAt s (hw * 4 + c)).wear != .retired

/-- Warps that hold a slot of a core: those of clusters that have not ended (R13). -/
def seatsUsed (s : State) (hw core : Nat) : List (Nat × Nat) :=
  ((allWarps s).filter fun w => w.hw == hw && w.core == core && (teamById s w.team).isSome).map fun w => (w.slot, w.units)

/-- Scratchpad ranges in use on a core, stack areas included (R12). -/
def rangesUsed (s : State) (hw core : Nat) : List (Nat × Nat) :=
  (s.teams.filter fun t => t.hw == hw && t.core == core).map fun t => (t.base, t.total + 2048 * t.warps)

/-- Registers per lane allocated on a partition. -/
def regsUsed (used : List (Nat × Nat)) (part : Nat) : Nat :=
  (used.filter fun u => u.1 / 8 == part).foldl (fun n u => n + 8 * u.2) 0

/-- Free slots of a partition, ascending. -/
def freeSlots (used : List (Nat × Nat)) (part : Nat) : List Nat :=
  ((List.range 8).map (8 * part + ·)).filter fun k => !used.any fun u => u.1 == k

/-- The partition with the most free slots, the lower on a tie (R11). -/
def bestPart (used : List (Nat × Nat)) : Nat :=
  [1, 2, 3].foldl (fun b p => if (freeSlots used b).length < (freeSlots used p).length then p else b) 0

/-- Slots for n warps of u units in ascending warp order (R11, R12). -/
def placeWarps (u : Nat) : Nat → List (Nat × Nat) → Option (List Nat)
  | 0, _ => some []
  | n + 1, used =>
    let p := bestPart used
    match freeSlots used p with
    | [] => none
    | k :: _ =>
      if 1024 < regsUsed used p + 8 * u then none
      else (placeWarps u n ((k, u) :: used)).map (k :: ·)

/-- The lowest free range of n bytes in 512 KiB: offset 0 or the end of a range in use. -/
def placeRange (used : List (Nat × Nat)) (n : Nat) : Option Nat :=
  let free (b : Nat) : Bool :=
    decide (b + n ≤ 2 ^ 19) && used.all fun r => decide (b + n ≤ r.1) || decide (r.1 + r.2 ≤ b)
  ((0 :: used.map fun r => r.1 + r.2).filter free).foldl (fun o b => some (min b (o.getD b))) none

/-- Where one team goes: core in its cluster, scratchpad offset, slots. -/
structure Spot where
  core : Nat
  base : Nat
  slots : List Nat
deriving DecidableEq, Repr

/-- A team of a kernel on a core with this use. -/
def placeTeam (k : Kernel) (core : Nat) (used ranges : List (Nat × Nat)) : Option Spot :=
  match placeWarps k.units k.warps used, placeRange ranges (k.scr + 2048 * k.warps) with
  | some l, some b => some ⟨core, b, l⟩
  | _, _ => none

/-- Cores that a cluster of the kernel takes: two to a team in a redundant group (R331). -/
def coresNeeded (k : Kernel) (redundant : Bool) : Nat := if redundant then 2 * k.teams else k.teams

/-- Whether the shape fits an empty cluster (R12, R331). -/
def canFit (k : Kernel) (redundant : Bool) : Bool :=
  decide (coresNeeded k redundant ≤ 4) && (placeTeam k 0 [] []).isSome

/-- The first n results, if all are there. -/
def allSome {α : Type} : List (Option α) → Option (List α)
  | [] => some []
  | some a :: t => (allSome t).map (a :: ·)
  | none :: _ => none

/-- A cluster's spots on a package cluster, in order of cores (R11, R12). -/
def placeCluster (s : State) (hw : Nat) (k : Kernel) (redundant : Bool) : Option (List Spot) :=
  let n := coresNeeded k redundant
  let cores := (liveCores s hw).take n
  if cores.length < n then none
  else allSome (cores.map fun c => placeTeam k c (seatsUsed s hw c) (rangesUsed s hw c))

/-- States in which a core takes a new cluster (R340, R341). -/
def WearState.takes : WearState → Bool
  | .healthy | .derated | .unknown => true
  | _ => false

/-- Whether a formed rung group of a ladder homed on the cluster waits for room (R295). -/
def groupWaiting (s : State) (hw : Nat) : Bool :=
  [0, 1, 2, 3].any fun l => ((Tab.find? s.ladders (hw * 4 + l)).map fun x => !x.groups.isEmpty).getD false

/-- Whether a cluster can take the shape for a grid that is no rung group of it (R341). One whose pre-emption or test
is requested takes nothing. -/
def eligible (s : State) (k : Kernel) (redundant : Bool) (hw : Nat) : Bool :=
  match placeCluster s hw k redundant with
  | some l => l.all (fun x => (coreAt s (hw * 4 + x.core)).wear.takes) && !groupWaiting s hw
      && !(s.preemptAsked.contains hw || s.testAsked.contains hw)
  | none => false

/-- Summed WU of the cores that a new cluster would use. -/
def wuSum (s : State) (k : Kernel) (redundant : Bool) (hw : Nat) : Nat :=
  (((liveCores s hw).take (coresNeeded k redundant)).map fun c => (coreAt s (hw * 4 + c)).wu).foldl (· + ·) 0

/-- 1% of rated life (R341). -/
def wuMargin : Nat := 2209032000

/-- The lowest-indexed of these clusters that none of them beats (R341). -/
def leastWorn (s : State) (k : Kernel) (redundant : Bool) (l : List Nat) : Option Nat :=
  l.find? fun b => !l.any fun a => decide (wuSum s k redundant a + wuMargin < wuSum s k redundant b)

/-- Where the launch unit places a cluster. -/
def chooseCluster (s : State) (k : Kernel) (redundant : Bool) : Option Nat :=
  leastWorn s k redundant ((List.range clusterCount).filter (eligible s k redundant))

/-- Whether the package's second-level mode is the context's (R188). -/
def modeFits (s : State) (ctx : Nat) : Bool :=
  match Tab.find? s.contexts ctx with | some c => c.priv == s.l2Private | none => true

/-! ## Starting a cluster -/

def Grid.kern (s : State) (g : Grid) : Option (Image × Kernel) :=
  (imageAt s g.image).bind fun m => (m.kernels[g.kernel]?).map (m, ·)

/-- The iterations of team r (R293). -/
def evenRange (tiles iters teams r : Nat) : Nat × Nat := (r * (tiles * iters) / teams, (r + 1) * (tiles * iters) / teams)

/-! ## Accesses of the launch unit -/

/-- Knowledge of a unit outside the streams: everything generic, and G writes on the path of tables. -/
def unitView (s : State) : PathView := (PathView.start 0 s.serial).setHor .t s.serial s.serial

/-- Key of a unit's access to a context's memory, on the first core's translation cache. -/
def unitPlace (s : State) (ctx : Nat) (kind : AccKind) (va : DWord) : Option Nat × State :=
  if 2 ^ 56 ≤ va.toNat then (none, s)
  else match placePaged s (unitView s) 0 ctx kind va with
    | (.ok k, s) => (some k, s)
    | (.error _, s) => (none, s)

/-- Keys of n bytes of a context's memory, page by page; none where a page refuses the access. -/
def unitSpan (s : State) (ctx : Nat) (kind : AccKind) (va : DWord) (n : Nat) : Option (List Nat) × State :=
  let (l, s) := placeCuts (fun va _ s => match unitPlace s ctx kind va with
    | (some k, s) => (.ok k, s)
    | (none, s) => (.error .page, s)) (cutsOf va n) s
  (if (cutsFail l).isNone then some (cutKeys l) else none, s)

/-- n bytes of a context's memory as a unit reads them on the generic order; none where an address is not readable. -/
def unitRead (s : State) (ctx : Nat) (va : DWord) (n : Nat) : Option (List Byte) × State :=
  match unitSpan s ctx .read va n with
  | (some ks, s) => (some (readBytes s (unitView s) .g 0 ks), s)
  | (none, s) => (none, s)

/-- The access entry of a trap vector, its entry 0; 0 where there is none or it cannot be read (R146, R226). -/
def accessHandler (s : State) (ctx : Nat) (tvec : DWord) : DWord × State :=
  if tvec = 0#64 then (0#64, s)
  else match unitRead s ctx tvec 8 with
    | (some bs, s) => (BitVec.ofNat 64 (ofBytesLE bs % 2 ^ 57), s)
    | (none, s) => (0#64, s)

/-! ## New warps and teams -/

/-- Where a new warp stands. -/
structure Seat where
  id : Nat
  team : Nat
  teamIx : Nat
  index : Nat
  spot : Spot
  slot : Nat
deriving DecidableEq, Repr

/-- What an EVEN launch gives a team in s4 and s5; 0 otherwise (R73, R293). -/
def evenStart (g : Grid) (even : Option (Nat × Nat)) (k : Kernel) (cluster teamIx : Nat) : Nat × Nat :=
  match even with
  | some (t, i) => evenRange t i (g.lr.nclust * k.teams) (cluster * k.teams + teamIx)
  | none => (0, 0)

/-- The frame and index that a rung group gives to lane j of warp w (R295). -/
def RungGrid.item (r : RungGrid) (w j : Nat) : Option Held :=
  (r.group.items[32 * w + j]?).map fun e => ⟨e.label.toNat, e.words, e.bad, true⟩

/-- s0 to s31 at launch (R73, R181, R293). -/
def launchRegs (args : DWord) (base : Nat) (ev : Nat × Nat) : Vector DWord 32 :=
  ((((Vector.replicate 32 0#64).set 2 args).set 3 (BitVec.ofNat 64 (2 ^ 56 + base))).set 4 (BitVec.ofNat 64 ev.1)).set 5
    (BitVec.ofNat 64 ev.2)

/-- A new warp (R16, R31, R72, R73, R146, R231, R320). -/
def newWarp (g : Grid) (m : Image) (k : Kernel) (hw cluster : Nat) (even : Option (Nat × Nat)) (x : Seat)
    (rg : Option RgCopy) (entry : DWord) (cycle : Nat) : Warp :=
  let core := hw * 4 + x.spot.core
  let place := core * 32 + x.slot
  { Warp.blank with
    id := x.id, grid := g.id, cluster := cluster, team := x.team, index := x.index, teamIx := x.teamIx, hw := hw
    core := x.spot.core, slot := x.slot, units := k.units, ctx := g.ctx, req := g.req, image := g.image
    s := launchRegs g.lr.args x.spot.base (evenStart g even k cluster x.teamIx)
    apc := k.entry, acc := .ready, aview := launchView (2 * x.id + 1) g.since
    alive := match g.rung with
      | some r => LaneMask.ofPred fun j => (r.item x.index j).isSome
      | none => 0xFFFFFFFF#32
    atvec := entry, tvec := g.lr.tvec, faultq := g.lr.faultq, wdog := BitVec.ofNat 6 k.wdog
    spillbase := m.spill + BitVec.ofNat 64 (36864 * place)
    ltsave := m.ltsave + BitVec.ofNat 64 (8192 * place)
    rgbase := m.rgbase + BitVec.ofNat 64 (2 ^ 20 * core)
    sigtab := m.sigtab, sigcnt := BitVec.ofNat 32 m.sigcnt
    watch := cycle
    items := match g.rung with
      | some r => laneIds.map (r.item x.index)
      | none => List.replicate 32 none
    ladder := g.rung.map fun r => (r.home, r.lnum, r.group.rung)
    rg := rg
    ended := none }

/-- A new team (R181, R183, R245). -/
def newTeam (id : Nat) (g : Grid) (k : Kernel) (hw cluster teamIx : Nat) (x : Spot) (partner : Option (Nat × Bool)) : Team where
  id := id
  grid := g.id
  cluster := cluster
  teamIx := teamIx
  hw := hw
  core := x.core
  warps := k.warps
  base := x.base
  total := k.scr
  spmap := Vector.replicate 8 0#64
  activeFmt := 0#4
  shadowFmt := 0#4
  loader := none
  slots := []
  nf := false
  fd := false
  cf := false
  trailing := (partner.map (·.2)).getD false
  partner := partner.map (·.1)
  held := []
  fwd := []

/-- Build the declared barrier objects of a team (R103): phase 0, nothing counted before. -/
def buildBars (s : State) (core base : Nat) (k : Kernel) : State :=
  k.bars.foldl (fun s b =>
    let key := spKey core (base + b.off)
    let o : BarObj := ⟨BitVec.ofNat 32 b.reload, BitVec.ofNat 32 b.reload, b.arrive, b.arrive, 0#32⟩
    let s := writeBytes s (PathView.start 0 s.serial) .g 0 (keysFrom key 16) o.bytes false
    { s with
      barSeen := Tab.del s.barSeen key
      landings := s.landings.map fun l => { l with objs := l.objs.filter (· != key) } }) s

/-- A redundant copy's side at launch (R331, R334). -/
def newCopy (trailing : Bool) (partner : Nat) : RgCopy :=
  ⟨trailing, partner, 0, 0, 0, 0, false, [], none, 0, none, none, 0#32, none, 0, [], []⟩

/-- One team with its warps: `first` is the number of its first warp, and for a redundant group the first warp of the
other copy. -/
def startTeam (s : State) (g : Grid) (m : Image) (k : Kernel) (hw cluster teamIx : Nat) (even : Option (Nat × Nat))
    (x : Spot) (entry : DWord) (team first : Nat) (other : Option (Nat × Nat × Bool)) : State :=
  let t := newTeam team g k hw cluster teamIx x (other.map fun o => (o.1, o.2.2))
  let ws := x.slots.zipIdx.map fun p =>
    newWarp g m k hw cluster even ⟨first + p.2, team, teamIx, p.2, x, p.1⟩
      (other.map fun o => newCopy o.2.2 (o.2.1 + p.2)) entry s.cycle
  let s := buildBars s (hw * 4 + x.core) x.base k
  let s := if other.isSome then ws.foldl writeCheckpoint s else s
  { s with
    teams := s.teams ++ [t]
    others := s.others ++ ws
    checkpoints := s.checkpoints ++ (if other.isSome then ws else [])
    grids := s.grids.map fun y => if y.id = g.id then
      { y with
        members := y.members ++ ws.map (·.id)
        live := y.live + (if t.trailing then 0 else ws.length) }
      else y }

/-- The teams of a cluster, one core each. -/
def startPlain (g : Grid) (m : Image) (k : Kernel) (hw cluster : Nat) (even : Option (Nat × Nat)) (entry : DWord) :
    List Spot → Nat → State → State
  | [], _, s => s
  | x :: t, i, s =>
    let s' := startTeam { s with nextId := s.nextId + 1 + k.warps } g m k hw cluster i even x entry s.nextId (s.nextId + 1) none
    startPlain g m k hw cluster even entry t (i + 1) s'

/-- The teams of a cluster, each with its trailing copy on the next core (R331). -/
def startPairs (g : Grid) (m : Image) (k : Kernel) (hw cluster : Nat) (even : Option (Nat × Nat)) (entry : DWord) :
    List Spot → Nat → State → State
  | a :: b :: t, i, s =>
    let n := s.nextId
    let s' := { s with nextId := n + 2 + 2 * k.warps }
    let s' := startTeam s' g m k hw cluster i even a entry n (n + 2) (some (n + 1, n + 2 + k.warps, false))
    let s' := startTeam s' g m k hw cluster i even b entry (n + 1) (n + 2 + k.warps) (some (n, n + 2, true))
    startPairs g m k hw cluster even entry t (i + 1) s'
  | _, _, s => s

/-- Start the grid's next cluster on a package cluster. The clusters of a grid start in ascending order: DESIGN CHOICE
(log 94). -/
def startCluster (s : State) (g : Grid) (m : Image) (k : Kernel) (redundant : Bool) (even : Option (Nat × Nat)) (hw : Nat)
    (l : List Spot) : State :=
  let c := g.started
  let (entry, s) := accessHandler s g.ctx g.lr.tvec
  let s := if redundant then startPairs g m k hw c even entry l 0 s else startPlain g m k hw c even entry l 0 s
  modGrid s g.id fun g => { g with started := c + 1, ran := if g.ran.contains hw then g.ran else g.ran ++ [hw] }

/-- Whether a context's teams run as redundant groups (R331). -/
def isRedundant (s : State) (ctx : Nat) : Bool := ((Tab.find? s.contexts ctx).map (·.redundant)).getD false

/-- Place and start one cluster of a grid, where some package cluster can take it. -/
def startNextCluster (s : State) (gid : Nat) (even : Option (Nat × Nat)) : Option State :=
  match gridById s gid with
  | none => none
  | some g =>
    match g.kern s with
    | none => none
    | some (m, k) =>
      let red := isRedundant s g.ctx
      match chooseCluster s k red with
      | none => none
      | some hw => (placeCluster s hw k red).map (startCluster s g m k red even hw)

/-- Start n clusters of a grid together, or none (R293). -/
def startAll (gid : Nat) (even : Option (Nat × Nat)) : Nat → State → Option State
  | 0, s => some s
  | n + 1, s => (startNextCluster s gid even).bind (startAll gid even n)

/-- More clusters than a package has warp slots for can never be resident at once. -/
def maxResident : Nat := clusterCount * 4 * 32

/-- Whether NCLUST clusters can be resident at once in a package that runs nothing else (R293). -/
def evenCanFit (s : State) (g : Grid) : Bool :=
  decide (g.lr.nclust ≤ maxResident) &&
    (startAll g.id none g.lr.nclust
      { s with warp := Warp.blank, others := [], teams := [], ladders := [], preemptAsked := [], testAsked := [] }).isSome

end Sys2Proof.Machine
end

