-- ==== Sys2Proof/Machine/Record.lean ====
section
/-! DEFINITION. Completion records (R242), and what they wait for: the order that a record's reader may rely on
(R197, R291). -/

namespace Sys2Proof.Machine

/-! ## Accesses of the launch unit and the hosts -/

/-- Write bytes page by page; parts that cannot be written are left out. Keys of the parts that were. -/
def unitWrite (ctx : Nat) : Nat → List Byte → DWord → State → List Nat × State
  | 0, _, _, s => ([], s)
  | n + 1, bs, va, s =>
    if bs.isEmpty then ([], s)
    else
      let room := 2 ^ 18 - va.toNat % 2 ^ 18
      let now := bs.take room
      let (k, s) := unitPlace s ctx .write va
      let s := match k with
        | some k => writeBytes s (PathView.start 0 s.serial) .g 0 (keysFrom k now.length) now false
        | none => s
      let (ks, s) := unitWrite ctx n (bs.drop room) (va + BitVec.ofNat 64 room) s
      (k.toList ++ ks, s)

/-! ## The bytes (R242) -/

def b1 (n : Nat) : List Byte := toBytesLE 1 n
def b2 (n : Nat) : List Byte := toBytesLE 2 n
def b4 (n : Nat) : List Byte := toBytesLE 4 n
def b8 (n : Nat) : List Byte := toBytesLE 8 n

def WarpLine.bytes (l : WarpLine) : List Byte :=
  b4 l.cluster ++ b1 l.warp ++ b1 l.status.toNat ++ b1 l.code.toNat ++ b1 0 ++ b8 l.retired ++ b8 l.pc.toNat

/-- Final state of an epoch: 1 committed, 2 squashed, 3 open at the end. -/
def epochFinal (st : BitVec 3) : Nat := match st with | 2#3 => 1 | 3#3 => 2 | _ => 3

def LadderLine.bytes (l : LadderLine) : List Byte :=
  b1 l.lnum ++ b1 l.home ++ b2 0 ++ b4 l.items ++ b4 l.resolved ++ b4 l.escalated

/-- One queue's line on one cluster. -/
def queueLine (s : State) (ctx hw q : Nat) : List Byte :=
  let c := queueAt s ctx hw q
  b1 q ++ b1 hw ++ b2 0 ++ b4 c.head.toNat ++ b4 c.tail.toNat ++ b4 c.well.length

/-- What a record holds. -/
structure RecordData where
  kind : Nat
  status : BitVec 8
  code : BitVec 8
  id : Nat
  wear : Nat
  warps : List WarpLine
  epochs : List EpochRec
  regions : List (BitVec 16 × Nat)
  queues : List (List Byte)
  ladders : List LadderLine
  peers : List (Nat × Nat)
deriving DecidableEq, Repr

/-- The record from byte 4 on. -/
def RecordData.body (r : RecordData) : List Byte :=
  b1 r.kind ++ b1 r.status.toNat ++ b1 r.code.toNat ++ b1 0 ++ b8 r.id
    ++ b4 r.warps.length ++ b2 r.epochs.length ++ b2 r.regions.length
    ++ b1 r.queues.length ++ b1 r.ladders.length ++ b2 r.peers.length ++ b4 0
    ++ b8 r.wear ++ List.replicate 24 0#8
    ++ r.warps.flatMap WarpLine.bytes
    ++ (r.epochs.flatMap fun e => b2 e.num ++ b1 (epochFinal e.state) ++ b1 0)
    ++ (r.regions.flatMap fun p => b2 p.1.toNat ++ b2 0 ++ b4 p.2)
    ++ r.queues.flatten
    ++ r.ladders.flatMap LadderLine.bytes
    ++ (r.peers.flatMap fun p => b2 p.1 ++ List.replicate 6 0#8 ++ b8 p.2)

/-- Write a record: its bytes first, then MAGIC (R242). It follows the writes of these warps and of the units that act for
them (R197). -/
def writeRecord (s : State) (ctx : Nat) (va : DWord) (ws : List Nat) (r : RecordData) : State :=
  let body := r.body
  let (_, s) := unitWrite ctx (body.length / 2 ^ 18 + 2) body (va + 4#64) s
  let (ks, s) := unitWrite ctx 2 (b4 magicWord) va s
  { s with crecs := s.crecs ++ ks.map fun k => (k, s.serial, 0 :: ws) }

/-- The peers of a record: chips written to, each with the number of the last write applied there (R199). -/
def peerLines (s : State) : List (Nat × Nat) := s.sent.map fun p => (p.1, s.incarnation * 2 ^ 48 + p.2)

/-- The queue lines of a grid: every queue its image declares on every cluster it ran on. -/
def queueLines (s : State) (g : Grid) : List (List Byte) :=
  match imageAt s g.image with
  | some m => m.queues.flatMap fun d => g.ran.map fun hw => queueLine s g.ctx hw d.qnum
  | none => []

/-- A grid's record (kind 1), or its task's (kind 2) with the lines of its rung groups. -/
def gridRecord (s : State) (g : Grid) (task : Bool) : RecordData where
  kind := if task then 2 else 1
  status := if g.status = 0#8 && task then ((g.rungLines.find? (·.status != 0#8)).map (·.status)).getD 0#8 else g.status
  code := if g.code = 0#8 && task then ((g.rungLines.find? (·.code != 0#8)).map (·.code)).getD 0#8 else g.code
  id := if task then g.task else g.id
  wear := g.wear
  warps := g.lines ++ (if task then g.rungLines else [])
  epochs := ((reqById s g.req).map (·.epochs)).getD []
  regions := g.sealed
  queues := queueLines s g
  ladders := g.ladders
  peers := peerLines s

/-- The record of a task, or of a grid, that was refused at launch. -/
def refusedRecord (kind id : Nat) : RecordData := ⟨kind, 2#8, 0#8, id, 0, [], [], [], [], [], []⟩

/-! ## The end of a request (R280, R290) -/

/-- The first task, in sequence order, that did not end with status 0. -/
def firstFailure (l : List (Nat × BitVec 8 × BitVec 8)) : BitVec 8 × BitVec 8 :=
  let bad := l.filter fun r => r.2.1 != 0#8
  match bad.foldl (fun (o : Option (Nat × BitVec 8 × BitVec 8)) r => match o with
    | some x => if r.1 < x.1 then some r else some x
    | none => some r) none with
  | some r => r.2
  | none => (0#8, 0#8)

/-- The warps of grids. -/
def membersOf (s : State) (sel : Grid → Bool) : List Nat := (s.grids.filter sel).flatMap (·.members)

/-- A request's record. -/
def requestRecord (s : State) (r : Request) : RecordData :=
  let f := firstFailure r.results
  ⟨3, f.1, f.2, r.id, r.wear, [], r.epochs, [], [], [], peerLines s⟩

/-- Whether a request has seen its last task and none of its tasks is left. -/
def requestDone (s : State) (r : Request) : Bool :=
  !r.ended && r.lastSeen && !(s.tasks.any (·.req == r.id)) && !(s.submitted.any (·.req == some r.id))

/-- The request ends: open epochs are squashed, the record is written. -/
def endRequest (s : State) (r : Request) : State :=
  let s := match oldestOpen r with | some a => squashFrom s r.id a | none => s
  let s := saveBlocks s r.ctx
  let s := writeRecord s r.ctx r.crec (membersOf s fun g => g.req == r.id) (requestRecord s r)
  modReq s r.id fun r => { r with ended := true }

def settleRequest (s : State) (id : Nat) : State :=
  match reqById s id with
  | some r => if requestDone s r then endRequest s r else s
  | none => s

/-- A task ends with a status and a code: it leaves its matcher. -/
def endTask (s : State) (seq req : Nat) (status code : BitVec 8) : State :=
  let s := { s with tasks := s.tasks.filter (·.seq != seq) }
  settleRequest (modReq s req fun r => { r with results := r.results ++ [(seq, status, code)] }) req

end Sys2Proof.Machine
end

