-- ==== Sys2Proof/Machine/Launch.lean ====
section
/-! DEFINITION. Tasks, requests and grids (R9, R10, R109, R288 to R293): LAUNCH, acceptance by a matcher, the launch of
a task's grid, the start of its clusters, its end; and the return of variable-latency results (R74 to R76). -/

namespace Sys2Proof.Machine

/-! ## Records -/

/-- A field of n bytes. -/
def field (bs : List Byte) (o n : Nat) : Nat := ofBytesLE ((bs.drop o).take n)

/-- A task record as read (R289). -/
structure TaskRec where
  lrec : DWord
  crec : DWord
  reqrec : DWord
  last : Bool
  reads : List (DWord × Nat)
  writes : List (DWord × Nat)
deriving DecidableEq, Repr

/-- Regions of a list of four. -/
def regionList (bs : List Byte) (o n : Nat) : List (DWord × Nat) :=
  (List.range n).map fun k => (BitVec.ofNat 64 (field bs (o + 16 * k) 8), field bs (o + 16 * k + 8) 4)

/-- A task record within its limits. -/
def parseTask (bs : List Byte) : Option TaskRec :=
  let clean := (List.range 8).all fun k => field bs (32 + 16 * k + 12) 4 == 0
  if field bs 24 4 < 2 && decide (field bs 28 1 ≤ 4) && decide (field bs 29 1 ≤ 4) && field bs 30 2 == 0 && clean then
    some { lrec := BitVec.ofNat 64 (field bs 0 8), crec := BitVec.ofNat 64 (field bs 8 8)
           reqrec := BitVec.ofNat 64 (field bs 16 8), last := field bs 24 4 == 1
           reads := regionList bs 32 (field bs 28 1), writes := regionList bs 96 (field bs 29 1) }
  else none

/-- A request record within its limits (R261, R275, R290). -/
def parseRequest (bs : List Byte) (id ctx : Nat) (addr : DWord) : Option Request :=
  let dom := field bs 0 2
  let n := field bs 2 1
  let wins := (List.range n).map fun k => (BitVec.ofNat 64 (field bs (16 + 16 * k) 8), field bs (24 + 16 * k) 8)
  if (decide (dom < 256) || dom == 0xFFFF) && decide (n ≤ 8) && field bs 3 5 == 0
      && wins.all fun (b, l) => b.toNat % 2 ^ 18 == 0 && l % 2 ^ 18 == 0 then
    some { id := id, ctx := ctx, addr := addr, dom := if dom = 0xFFFF then none else some dom, windows := wins
           epochs := [], crec := BitVec.ofNat 64 (field bs 8 8), lastSeen := false, results := [], running := 0
           ended := false, wear := 0 }
  else none

/-- FAULTQ of a launch record: 0, or a base with a count of 4 to 20 (R109). -/
def faultqOk (q : Nat) : Bool := q == 0 || (decide (4 ≤ q % 256 ∧ q % 256 ≤ 20) && decide (q < 2 ^ 57))

/-- A launch record within its limits (R109). -/
def parseLaunch (bs : List Byte) : Option LaunchRec :=
  if decide (1 ≤ field bs 8 4) && decide (field bs 12 4 ≤ 65536) && decide (field bs 24 4 < 2) && field bs 28 4 == 0
      && field bs 32 8 % 256 == 0 && field bs 48 8 % 64 == 0 && field bs 56 8 == 0 && faultqOk (field bs 40 8) then
    some { kaddr := BitVec.ofNat 64 (field bs 0 8), nclust := field bs 8 4, argsz := field bs 12 4
           args := BitVec.ofNat 64 (field bs 16 8), even := field bs 24 4 == 1, tvec := BitVec.ofNat 64 (field bs 32 8)
           faultq := BitVec.ofNat 64 (field bs 40 8), grec := BitVec.ofNat 64 (field bs 48 8) }
  else none

/-! ## LAUNCH (R292) -/

/-- LAUNCH (R292). -/
def execLaunch (w : Strip) : State → Result :=
  laneWord (.launch w) { deaths := some lowDeaths } fun cx =>
    let a := cx.pairA cx.lane0
    if a.toNat % 32 ≠ 0 then .trap (cx.nameAll Code.align 1 a [])
    else
      let (l, s) := placeList cx.view cx.s.warp .read (cutsOf a 160) cx.s
      match cx.placedFail 1 l with
      | some t => .trap t
      | none =>
        let (bs, s) := cx.loadKeys s (windowKeys a 160 (keysOf l))
        let id := s.nextId
        let x : Submission := { id := id, ctx := s.warp.ctx, window := none, req := some s.warp.req, bytes := bs, warp := some s.warp.id }
        .done {
          s := { s with nextId := id + 1, submitted := s.submitted ++ [x] }
          regs := [mkWrite cx.d (.uniform 0#32) cx.p 2#4]
          var := true
          sub := some id }

/-! ## Acceptance (R289 to R291) -/

/-- The sequence number reaches the LAUNCH that submitted the task. -/
def fillSub (id : Nat) (v : Word) (w : Warp) : Warp :=
  let f (p : Pending) : Pending :=
    if p.sub = some id then { p with sub := none, regs := p.regs.map fun x =>
      { x with val := match x.val with | .uniform _ => .uniform v | _ => .lanes (List.replicate 32 v) } } else p
  { w with pending := w.pending.map f, rg := w.rg.map fun g => { g with mail := g.mail.map f } }

def deliverSub (s : State) (id : Nat) (v : Word) : State :=
  { s with
    warp := fillSub id v s.warp
    others := s.others.map (fillSub id v)
    checkpoints := s.checkpoints.map (fillSub id v)
    saved := s.saved.map fun c => { c with warps := c.warps.map (fillSub id v) } }

/-- A window's record leaves its queue. -/
def leaveWindow (s : State) (w : Option (HostPort × Nat)) : State :=
  let f (n : Nat) (p : Port) : Port :=
    match Tab.find? p.windows n with
    | some x => { p with windows := Tab.put p.windows n { x with queued := x.queued - 1 } }
    | none => p
  match w with
  | some (.a, n) => { s with portA := f n s.portA }
  | some (.b, n) => { s with portB := f n s.portB }
  | none => s

/-- A refused record: status 2 in its completion record (R289). It has no sequence number, so the identifier and a
LAUNCH's result are free values. -/
def refuseTask (s : State) (x : Submission) : State :=
  let v := Config.free s.draws
  let s := writeRecord s x.ctx (BitVec.ofNat 64 (field x.bytes 8 8)) [] (refusedRecord 2 (lo32 v).toNat)
  deliverSub (leaveWindow s x.window) x.id (lo32 v)

/-- Tasks in flight in the matcher of a die. -/
def inFlight (s : State) (die : Nat) : Nat := (s.tasks.filter (·.die == die)).length
/-- Capacity of a matcher. -/
def matcherMax : Nat := 256
/-- The die with the fewest tasks, the lower on a tie (R291). -/
def leastDie (s : State) : Nat := [1, 2, 3].foldl (fun b d => if inFlight s d < inFlight s b then d else b) 0

/-- The request of a submission: the launching warp's, one open under that address, or a new one (R290). -/
def requestOf (s : State) (x : Submission) (t : TaskRec) : Option Nat × State :=
  match x.req with
  | some r => (some r, s)
  | none =>
    match s.requests.find? fun r => r.ctx == x.ctx && r.addr == t.reqrec && !r.ended with
    | some r => (some r.id, s)
    | none =>
      match unitRead s x.ctx t.reqrec 144 with
      | (none, s) => (none, s)
      | (some bs, s) =>
        match parseRequest bs s.nextReq x.ctx t.reqrec with
        | none => (none, s)
        | some r => (some r.id, { s with nextReq := (s.nextReq + 1) % 2 ^ 32, requests := s.requests ++ [r] })

/-- Enter a task into the matcher (R291). -/
def enterTask (s : State) (x : Submission) (t : TaskRec) (req : Nat) : State :=
  let seq := s.nextSeq
  let k : Task := ⟨seq, leastDie s, x.ctx, req, t.lrec, t.crec, t.reads, t.writes, false⟩
  let s := { s with nextSeq := (seq + 1) % 2 ^ 32, tasks := s.tasks ++ [k] }
  let s := if x.req.isNone && t.last then modReq s req fun r => { r with lastSeen := true } else s
  deliverSub (leaveWindow s x.window) x.id (BitVec.ofNat 32 seq)

/-- TASK_ACCEPT (R289 to R291): the oldest submission is accepted, refused, or waits for room. -/
def execTaskAccept (s : State) : Result :=
  match s.submitted with
  | [] => .next s
  | x :: rest =>
    if matcherMax ≤ inFlight s (leastDie s) then .next s
    else
      let s' := { s with submitted := rest }
      match parseTask x.bytes with
      | none => .next (refuseTask s' x)
      | some t =>
        match requestOf s' x t with
        | (some r, s') => .next (enterTask s' x t r)
        | (none, s') => .next (refuseTask s' x)

/-! ## Launch of a task's grid (R109, R291, R293) -/

/-- Whether two byte ranges share a byte; an empty one shares none. -/
def rangesMeet (a b : DWord × Nat) : Bool := decide (max a.1.toNat b.1.toNat < min (a.1.toNat + a.2) (b.1.toNat + b.2))
def regionsMeet (a b : List (DWord × Nat)) : Bool := a.any fun x => b.any (rangesMeet x)

/-- Whether a later task depends on an earlier one (R291). -/
def depends (y x : Task) : Bool := regionsMeet x.writes y.reads || regionsMeet x.reads y.writes || regionsMeet x.writes y.writes

/-- The tasks accepted before a task, in their order. -/
def before (s : State) (t : Task) : List Task := s.tasks.takeWhile fun x => x.seq != t.seq
def after (s : State) (t : Task) : List Task := (s.tasks.dropWhile fun x => x.seq != t.seq).drop 1

/-- A grid before its first cluster starts. -/
def newGrid (s : State) (ctx req task image kernel : Nat) (lr : LaunchRec) (work : Option (Nat × Nat))
    (rung : Option RungGrid) : Grid where
  id := s.nextGrid
  ctx := ctx
  req := req
  task := task
  image := image
  kernel := kernel
  lr := lr
  work := work
  started := 0
  code := 0#8
  status := 0#8
  lines := []
  live := 0
  sealed := []
  ran := []
  ladders := []
  rung := rung
  members := []
  rungLines := []
  since := s.serial
  faults := 0
  wear := 0
  ended := false

/-- Enter a grid under the package's next serial number. -/
def enterGrid (s : State) (g : Grid) : State := { s with nextGrid := (s.nextGrid + 1) % 2 ^ 32, grids := s.grids ++ [g] }

/-- The image and kernel of a context that an access entry names (R109). -/
def findKernel (s : State) (ctx : Nat) (kaddr : DWord) : Option (Nat × Nat × Kernel) :=
  s.images.findSome? fun p =>
    -- the loader places no image in a context of the other mode (R188)
    if p.2.ctx = ctx && ((Tab.find? s.contexts ctx).map (·.priv)).getD false == p.2.priv then
      (p.2.kernels.zipIdx.find? fun k => k.1.entry == kaddr).map fun k => (p.1, k.2, k.1)
    else none

/-- TILES, ITERS and FIXUP of an argument block (R293). -/
def readEven (s : State) (ctx : Nat) (args : DWord) : Option (Nat × Nat × DWord) × State :=
  match unitRead s ctx args 16 with
  | (some bs, s) =>
    let t := field bs 0 4
    let i := field bs 4 4
    (if t * i < 2 ^ 32 then some (t, i, BitVec.ofNat 64 (field bs 8 8)) else none, s)
  | (none, s) => (none, s)

/-- The FIXUP byte of a tile: how many teams' ranges meet it, 0 below 2. -/
def fixupByte (tiles iters teams tile : Nat) : Byte :=
  let n := ((List.range teams).filter fun r =>
    let e := evenRange tiles iters teams r
    decide (max e.1 (tile * iters) < min e.2 ((tile + 1) * iters))).length
  if n < 2 then 0#8 else BitVec.ofNat 8 n

def writeFixup (s : State) (ctx : Nat) (fixup : DWord) (tiles iters teams : Nat) : State :=
  (unitWrite ctx (tiles / 2 ^ 18 + 2) ((List.range tiles).map (fixupByte tiles iters teams)) fixup s).2

/-- A task whose grid is refused: status 2 in its record, and in the grid's where it names one (R109). -/
def refuseGrid (s : State) (t : Task) (grec : DWord) : State :=
  let s := if grec = 0#64 then s else writeRecord s t.ctx grec [] (refusedRecord 1 s.nextGrid)
  let s := writeRecord s t.ctx t.crec [] (refusedRecord 2 t.seq)
  endTask { s with nextGrid := (s.nextGrid + 1) % 2 ^ 32 } t.seq t.req 2#8 0#8

/-- Launch with the record read and the kernel found. -/
def launchGrid (s : State) (t : Task) (lr : LaunchRec) (image kernel : Nat) (k : Kernel) : State :=
  if !canFit k (isRedundant s t.ctx) then refuseGrid s t lr.grec
  else if lr.even then
    match readEven s t.ctx lr.args with
    | (none, s) => refuseGrid s t lr.grec
    | (some (tiles, iters, fixup), s) =>
      let g := newGrid s t.ctx t.req t.seq image kernel lr (some (tiles, iters)) none
      if evenCanFit (enterGrid s g) g then
        let s := writeFixup s t.ctx fixup tiles iters (lr.nclust * k.teams)
        enterGrid s { g with since := s.serial }
      else refuseGrid s t lr.grec
  else enterGrid s (newGrid s t.ctx t.req t.seq image kernel lr none none)

/-- TASK_LAUNCH (R291): a task launches once every task it depends on has written its record. -/
def execTaskLaunch (seq : Nat) (s : State) : Result :=
  match s.tasks.find? fun t => t.seq == seq && !t.launched with
  | none => .next s
  | some t =>
    if (before s t).any (depends t) then .next s
    else
      let s := { s with tasks := s.tasks.map fun x => if x.seq = seq then { x with launched := true } else x }
      match unitRead s t.ctx t.lrec 64 with
      | (none, s) => .next (refuseGrid s t 0#64)
      | (some bs, s) =>
        let grec : DWord := BitVec.ofNat 64 (field bs 48 8)
        if t.lrec.toNat % 64 ≠ 0 then .next (refuseGrid s t 0#64)
        else match parseLaunch bs with
          | none => .next (refuseGrid s t grec)
          | some lr =>
            match findKernel s t.ctx lr.kaddr with
            | none => .next (refuseGrid s t grec)
            | some (m, n, k) => .next (launchGrid s t lr m n k)

/-- CLUSTER_START (R12, R341): the grid's next cluster starts where one can take it; a LAUNCH.EVEN grid starts all of
its clusters together (R293). -/
def execClusterStart (grid : Nat) (s : State) : Result :=
  match gridById s grid with
  | none => .next s
  | some g =>
    if g.ended || g.rung.isSome || decide (g.lr.nclust ≤ g.started) || !modeFits s g.ctx then .next s
    else .next (((startAll grid g.work (if g.lr.even then g.lr.nclust else 1) s).map fun t => returnContext t g.ctx).getD s)

/-! ## The end of a grid (R242) -/

/-- Whether nothing of a grid is left: clusters, warps, saved warps, engine operations, ladders, rung groups. -/
def gridDone (s : State) (g : Grid) : Bool :=
  !g.ended && decide (g.lr.nclust ≤ g.started) && g.live == 0
    && !((allWarps s).any fun w => w.grid == g.id && w.ended.isNone)
    && !(s.saved.any fun c => c.warps.any fun w => w.grid == g.id)
    && !(s.drains.any fun d => g.members.contains d.warp) && !(s.copies.any fun c => g.members.contains c.warp)
    && !(s.ladders.any fun l => l.2.grid == g.id)
    && !(s.filters.any fun f => f.grid == g.id && f.state.any f.rowComplete)
    && !(s.grids.any fun x => !x.ended && (x.rung.map fun r => r.opener == g.id).getD false)

/-- A grid's writes on the engine paths take their place in the generic order, as a dependent task must see them
(R291). -/
def fenceGrid (s : State) (g : Grid) : State :=
  fenceAll s fun r => r.path != .g && r.fenced.isNone && g.members.contains (r.writer / 2)

/-- The records a grid leaves: its own where it names one, its task's. -/
def writeGridRecords (s : State) (g : Grid) (crec : DWord) : State :=
  let s := if g.lr.grec = 0#64 then s else writeRecord s g.ctx g.lr.grec g.members (gridRecord s g false)
  writeRecord s g.ctx crec (membersOf s fun h => h.task == g.task) (gridRecord s g true)

/-- The lines, warps and ladders of a rung group pass to the opener's grid (R109, R296). -/
def endRungGrid (s : State) (g : Grid) (opener : Nat) : State :=
  modGrid { s with grids := s.grids.filter (·.id != g.id) } opener fun o =>
    { o with
      rungLines := o.rungLines ++ g.lines ++ g.rungLines, members := o.members ++ g.members, wear := o.wear + g.wear
      ladders := o.ladders ++ g.ladders }

/-- GRID_END (R242, R290, R291). -/
def execGridEnd (grid : Nat) (s : State) : Result :=
  match gridById s grid with
  | none => .next s
  | some g =>
    if !gridDone s g then .next s
    else
    -- a grid that ends frees its filter contexts (R318)
    let s := { s with filters := s.filters.filter (·.grid != grid) }
    match g.rung with
      | some r => .next (endRungGrid s g r.opener)
      | none =>
        match s.tasks.find? (·.seq == g.task) with
        | none => .next (modGrid s grid fun g => { g with ended := true })
        | some t =>
          let s := if (after s t).any (depends · t) then fenceGrid s g else s
          let s := writeGridRecords s g t.crec
          let r := gridRecord s g true
          .next (endTask (modGrid s grid fun g => { g with ended := true }) t.seq t.req r.status r.code)

/-! ## Variable-latency results (R74 to R76) -/

/-- What the fate of an awaited epoch makes of a result: none while it is open (R279). -/
def epochFate (s : State) (p : Pending) : Option Pending :=
  match p.epoch with
  | none => some p
  | some (q, e) =>
    let st := match reqById s q with | some r => r.stateOf e | none => 3#3
    if st = 1#3 then none
    else
      let v : Word := if st = 2#3 then 0#32 else 1#32
      some { p with epoch := none, regs := p.regs.map fun x =>
        { x with val := match x.val with | .uniform _ => .uniform v | _ => .lanes (List.replicate 32 v) } }

/-- Lanes of a register written again since the result's issue, in which the later value stays (R75). -/
def keptLanes (draws : Nat) (p : Pending) (x : RegWrite) : LaneMask :=
  let again : LaneMask := p.again.foldl (fun m o => if o.1 = x.n then m ||| o.2 else m) 0#32
  LaneMask.ofPred fun i => again.has i && Config.choice draws (x.n * 64 + i + 32)

/-- One register of a returning result. -/
def returnReg (draws : Nat) (p : Pending) (w : Warp) (x : RegWrite) : Warp :=
  let keep := keptLanes draws p x
  if keep = 0#32 then
    w.writeLane (if w.alive &&& ~~~ x.mask = 0#32 && x.val != .lanes (laneIds.map x.val.word) then { x with mask := w.alive } else x)
  else if x.mask &&& ~~~ keep = 0#32 then w
  else w.writeLane { x with val := .lanes (laneIds.map x.val.word), mask := x.mask &&& ~~~ keep }

/-- A result has returned before one issued later on the same register: either may stand in the lanes of both (R75). -/
def returnedBefore (p later : Pending) : Pending :=
  { later with again := p.regs.foldl (fun l x => if later.regs.any (fun y => y.n == x.n) then (x.n, x.mask) :: l else l) later.again }

/-- The split that a result holds goes on, at the branch target of a HIT (R271). -/
def releaseHold (p : Pending) (w : Warp) : Warp :=
  match p.holds with
  | some b => w.setSlot b ((w.slot? b).map fun sp =>
      if sp.wait = .claim then { sp with wait := .none, pc := p.branch.getD sp.pc } else sp)
  | none => w

/-- VARLAT_RESULT_WRITE (R74, R75): the k-th outstanding result of the issuing warp is written; the last one ends a
park. -/
def execVarlatResultWrite (k : Nat) (s : State) : Result :=
  match s.warp.pending[k]? with
  | none => .next s
  | some p =>
    if p.sub.isSome then .next s
    else match epochFate s p with
      | none => .next s
      | some p =>
        .next (modWarp s fun w =>
          let w := p.preds.foldl (fun w x => w.writePred x) (p.regs.foldl (returnReg s.draws p) w)
          let w := { releaseHold p w with pending := w.pending.take k ++ (w.pending.drop (k + 1)).map (returnedBefore p) }
          { w with parked := w.parked && !w.pending.isEmpty })

end Sys2Proof.Machine
end

