-- ==== Sys2Proof/Machine/Kv.lean ====
section
/-! DEFINITION. Staging and committing draft rows: KV.STAGE and KV.COMMIT (R309 to R313). -/

namespace Sys2Proof.Machine

/-! ## The staging area (R309) -/

/-- Address of a slot's header. -/
def SeqDesc.slot (d : SeqDesc) (k : Nat) : DWord := d.stg + BitVec.ofNat 64 (k * (d.rowb + 128))
/-- Address of a slot's row. -/
def SeqDesc.row (d : SeqDesc) (k : Nat) : DWord := d.slot k + 128#64

/-- Addresses and lengths that lie outside every speculative window of a member's request (R313). -/
def Cx.outside (cx : Cx) (l : List (DWord × Nat)) : Option TrapInfo :=
  (l.find? fun x => x.2 != 0 && epochOutside cx.s cx.s.warp x.1 x.2).map fun x => cx.nameAll Code.epochwin 2 x.1 []

/-- A descriptor as a G load of the split sees it: the trap that stops the word, or the descriptor. -/
def Cx.descriptor (cx : Cx) (seq : Nat) (posts : DWord → List Post) (s : State) :
    Except TrapInfo (SeqDesc × DWord) × State :=
  match Tab.find? s.contexts s.warp.ctx with
  | none => (.error (cx.nameAll Code.prot 4 0#64 []), s)
  | some c =>
    let da := seqAddr c seq
    let prot : TrapInfo := { cx.nameAll Code.prot 4 da [] with posts := posts da }
    if c.nseq ≤ seq then (.error prot, s)
    else
      match cx.outside [(da, 64)] with
      | some t => (.error t, s)
      | none =>
        match placeSpan s cx.view s.warp .read da 64 with
        | (.error e, s) => (.error (cx.nameAll e.1.trap 1 e.2 [e.2]), s)
        | (.ok ks, s) =>
          let (bs, s) := cx.loadKeys s ks
          let d := parseSeq bs
          (if d.valid then .ok (d, da) else .error prot, s)

/-- The pages that a sequence's block table maps: its ring (R307). An entry that holds no block, or that cannot be read,
names none (log 98). -/
def Cx.ring (cx : Cx) (d : SeqDesc) (s : State) : List (DWord × Nat) × State :=
  (List.range d.nblk).foldl (fun (acc : List (DWord × Nat) × State) k =>
    match tableRead acc.2 cx.view cx.s.warp cx.lane0 (d.btab + BitVec.ofNat 64 (16 * k)) 16 with
    | (.ok (es, _), s) =>
      let e := ofBytesLE es
      (if e.testBit 96 then acc.1 ++ [(BitVec.ofNat 64 (e / 2 ^ 18 % 2 ^ 39 * 2 ^ 18), 2 ^ 18)] else acc.1, s)
    | (.error _, s) => (acc.1, s)) ([], s)

/-- A member's staging area and ring lie in the windows of its request (R313). -/
def Cx.specAreas (cx : Cx) (d : SeqDesc) (s : State) : Option TrapInfo × State :=
  if s.warp.epoch.isNone then (none, s)
  else
    let (ring, s) := cx.ring d s
    (cx.outside ((d.stg, d.nslot * (d.rowb + 128)) :: ring), s)

/-- Place every page of ranges; their keys in order, or the trap that names all of P. -/
def Cx.placeRanges (cx : Cx) (kind : AccKind) (l : List (DWord × Nat)) (s : State) :
    Except TrapInfo (List (List Nat)) × State :=
  let (p, s) := placeList cx.view s.warp kind (l.flatMap fun x => cutsOf x.1 x.2) s
  match cx.placedFail kind.code p with
  | some t => (.error t, s)
  | none =>
    let rec cut : List (DWord × Nat) → List Nat → List (List Nat)
      | [], _ => []
      | x :: t, ks =>
        let n := (cutsOf x.1 x.2).length
        windowKeys x.1 x.2 (ks.take n) :: cut t (ks.drop n)
    (.ok (cut l (keysOf p)), s)

/-- A store of the split at placed keys. -/
def Cx.storeKeys (cx : Cx) (s : State) (va : DWord) (ks : List Nat) (bs : List Byte) (bad : Bool) : State :=
  let v := storeView cx.view va
  let s := publish (writeBytes s v .g 0 ks bs bad) v
  match ks with
  | k :: _ => stampStore s s.warp.coreIx k
  | [] => s

/-! ## KV.STAGE (R311) -/

/-- Lanes that consume poison: per lane in the data, by the lowest lane in the other operands. -/
def stageDeaths (cx : Cx) : LaneMask :=
  let data := cx.p &&& (List.range cx.f.c.span).foldl (fun m k => m ||| (cx.srcC k).poison) 0#32
  data ||| lowPrefix (cx.p &&& ~~~ data) (cx.a.poison ||| cx.b.poison ||| (cx.srcD 0).poison)

/-- Store the chunk's rows: register t's lane i to 4 bytes at 128t + 4i, then TOKEN and STATE. -/
def Cx.stageStore (cx : Cx) (n : Nat) (va : DWord) (row : List Nat) (hdr : DWord) (hks : List Nat) (s : State) : State :=
  let words := (List.range n).flatMap fun t => (LaneMask.lanes cx.p).map fun i => (t, i)
  let s := words.foldl (fun s (t, i) =>
    cx.storeKeys s va ((row.drop (128 * t + 4 * i)).take 4) (toBytesLE 4 ((cx.srcC t).word i).toNat) false) s
  let s := cx.storeKeys s hdr (hks.take 4) (toBytesLE 4 (cx.low (cx.srcD 0)).toNat) false
  cx.storeKeys s hdr ((hks.drop 4).take 1) [1#8] false

/-- KV.STAGE with a valid descriptor. -/
def Cx.stageBody (cx : Cx) (d : SeqDesc) (s : State) : LaneRes :=
  let k := (cx.low cx.b).toNat
  let n := cx.x 2 0 + 1
  let o := 128 * cx.x 14 3
  if d.nslot ≤ k || d.rowb < o + 128 * n then .trap (cx.nameAll Code.prot 2 (d.slot k) [])
  else
    let va := d.row k + BitVec.ofNat 64 o
    let ranges := [(va, 128 * n), (d.slot k, 5)]
    match cx.placeRanges .write ranges s with
    | (.error t, _) => .trap t
    | (.ok ks, s) =>
      let row := ks.getD 0 []
      let hdr := ks.getD 1 []
      match epochRoom s cx.view (row ++ hdr) with
      | .stall => .hold cx.s
      | .full => .trap (cx.nameAll Code.epochfull 2 va [])
      | .ok => .done { s := seeSplit (cx.stageStore n va row (d.slot k) hdr s) }

/-- KV.STAGE (R311). -/
def execKvStage (w : Strip) : State → Result :=
  laneWord (.kvStage w) { deaths := some stageDeaths } fun cx =>
    match cx.descriptor (cx.low cx.a).toNat (fun _ => []) cx.s with
    | (.error t, _) => .trap t
    | (.ok (d, _), s) =>
      match cx.specAreas d s with
      | (some t, _) => .trap t
      | (none, s) => cx.stageBody d s

/-! ## KV.COMMIT (R312) -/

/-- Slot of the run's j-th draft: a dead lane reads 0 (R79). -/
def Cx.slotOf (cx : Cx) (j : Nat) : Nat := (cx.laneRead cx.w.c cx.c j).toNat

/-- Run length and limit. -/
def Cx.runLen (cx : Cx) : Nat := (cx.low cx.b).toNat % 256
def Cx.runLimit (cx : Cx) : Nat := (cx.low cx.b).toNat / 256 % 256

/-- Lanes that consume poison: every lane reads the slot list, the lowest one the other operands. -/
def commitDeaths (cx : Cx) : LaneMask :=
  if (List.range (min cx.runLen 32)).any fun j => !cx.s.warp.dead.has j && cx.c.poison.has j then cx.p
  else lowPrefix cx.p (cx.a.poison ||| cx.b.poison)

/-- A slot's TOKEN and STATE, read as G loads of the split. -/
def Cx.header (cx : Cx) (d : SeqDesc) (t : Nat) (s : State) : Except TrapInfo (Nat × Nat) × State :=
  let va := d.slot t
  match placeSpan s cx.view s.warp .read va 5 with
  | (.error e, s) => (.error (cx.nameAll e.1.trap 1 e.2 [e.2]), s)
  | (.ok ks, s) =>
    let (bs, s) := cx.loadKeys s ks
    (.ok (field bs 0 4, field bs 4 1), s)

/-- Walk the run: the accepted slots in order and why it stopped. -/
def Cx.walkRun (cx : Cx) (d : SeqDesc) (m : Nat) : List Nat → List Nat → State → Except TrapInfo (List Nat × Nat) × State
  | [], acc, s => (.ok (acc, 0), s)
  | j :: rest, acc, s =>
    let t := cx.slotOf j
    if d.nslot ≤ t then (.ok (acc, 3), s)
    else
      match cx.header d t s with
      | (.error e, s) => (.error e, s)
      | (.ok (token, state), s) =>
        if state ≠ 1 then (.ok (acc, 3), s)
        else
          let acc := acc ++ [t]
          if (d.stops.take d.nstop).contains (BitVec.ofNat 32 token) then (.ok (acc, 1), s)
          else if m ≠ 0 && acc.length = m then (.ok (acc, 2), s)
          else cx.walkRun d m rest acc s

/-- Translate the targets LEN to LEN + k − 1 on path T: their addresses, or the trap. -/
def Cx.targets (cx : Cx) (seq len k : Nat) (s : State) : Except TrapInfo (List DWord) × State :=
  let (l, s) := kvLanes cx.view cx.s.warp ((List.range k).map fun u => (cx.lane0, seq, len + u)) [] s
  let un := xlatUnmapped l
  match xlatTrap true l with
  | none => (.ok (l.filterMap fun r => match r.2 with | .addr a _ _ _ => some a | _ => none), s)
  | some t =>
    let at_ := ((t.addrs.head?).map (·.2)).getD 0#64
    (.error { cx.nameAll t.code 4 at_ [] with posts := if un.isEmpty then pagePosts t.code [at_] else t.posts }, s)

/-- A row's words with their poison marks. -/
def rowWords (s : State) (n : Nat) (ks : List Nat) (bs : List Byte) : List (List Byte × Bool) :=
  (List.range n).map fun j => ((bs.drop (4 * j)).take 4, anyPoisoned s ((ks.drop (4 * j)).take 4))

/-- Read the rows of a run, in order. -/
def Cx.readRows (cx : Cx) (n : Nat) : List (List Nat) → State → List (List (List Byte × Bool)) × State
  | [], s => ([], s)
  | ks :: t, s =>
    let (bs, s) := cx.loadKeys s ks
    let (l, s) := cx.readRows n t s
    (rowWords s n ks bs :: l, s)

/-- Write a row word by word; a poisoned word stays poisoned. -/
def Cx.writeRow (cx : Cx) (va : DWord) : List Nat → List (List Byte × Bool) → State → State
  | _, [], s => s
  | dst, (bs, bad) :: t, s => cx.writeRow va (dst.drop 4) t (cx.storeKeys s va (dst.take 4) bs bad)

/-- The accesses of a commit, in the order of the rule: the row reads, then the ring rows, LEN, the cleared headers. -/
def Cx.commitStore (cx : Cx) (d : SeqDesc) (da : DWord) (ring : List DWord) (src dst : List (List Nat)) (len : List Nat)
    (hdrs : List (List Nat)) (k : Nat) (s : State) : State :=
  let (rows, s) := cx.readRows (d.rowb / 4) src s
  let s := (ring.zip (rows.zip dst)).foldl (fun s x => cx.writeRow x.1 x.2.2 x.2.1 s) s
  let s := cx.storeKeys s da len (toBytesLE 4 (d.len + k)) false
  seeSplit (hdrs.foldl (fun s ks => cx.storeKeys s d.stg ks [0#8] false) s)

/-- KV.COMMIT with the run walked and its targets translated. -/
def Cx.commitBody (cx : Cx) (d : SeqDesc) (da : DWord) (list : List Nat) (why : Nat) (ring : List DWord) (s : State) :
    LaneRes :=
  let k := list.length
  let dsts := ring.map (·, d.rowb)
  let lens := [(da + 16#64, 4)]
  let hdrs := (List.range d.nslot).map fun t => (d.slot t + 4#64, 1)
  match cx.placeRanges .read (list.map fun t => (d.row t, d.rowb)) s with
  | (.error t, _) => .trap t
  | (.ok src, s) =>
    match cx.placeRanges .write (dsts ++ lens ++ hdrs) s with
    | (.error t, _) => .trap t
    | (.ok ks, s) =>
      match epochRoom s cx.view ks.flatten with
      | .stall => .hold cx.s
      | .full => .trap (cx.nameAll Code.epochfull 2 da [])
      | .ok =>
        cx.status (cx.commitStore d da ring src (ks.take k) (ks.getD k []) (ks.drop (k + 1)) k s) (k + why * 256)

/-- The run of a commit, its targets and its writes. -/
def Cx.commitRun (cx : Cx) (seq : Nat) (d : SeqDesc) (da : DWord) (s : State) : LaneRes :=
  if 32 < cx.runLen || d.nslot < cx.runLen then cx.status s (4 * 256)
  else
    match cx.walkRun d cx.runLimit (List.range cx.runLen) [] s with
    | (.error t, _) => .trap t
    | (.ok (list, why), s) =>
      match cx.targets seq d.len list.length s with
      | (.error t, _) => .trap t
      | (.ok ring, s) => cx.commitBody d da list why ring s

/-- KV.COMMIT (R312). -/
def execKvCommit (w : Strip) : State → Result :=
  laneWord (.kvCommit w) { deaths := some commitDeaths } fun cx =>
    let seq := (cx.low cx.a).toNat
    match cx.descriptor seq (fun da => [⟨3, da, some (seq, none)⟩]) cx.s with
    | (.error t, _) => .trap t
    | (.ok (d, da), s) =>
      match cx.specAreas d s with
      | (some t, _) => .trap t
      | (none, s) => cx.commitRun seq d da s

end Sys2Proof.Machine
end

