-- ==== Sys2Proof/Machine/Ladder.lean ====
section
/-! DEFINITION. Ladders (R294 to R300): the slot, its items, the groups of each rung and their launch, and the ladder
instructions. -/

namespace Sys2Proof.Machine

/-! ## Slots and rungs -/

def modLadder (s : State) (home lnum : Nat) (f : Ladder → Ladder) : State :=
  match ladderAt s home lnum with
  | some l => { s with ladders := Tab.put s.ladders (ladderKey home lnum) (f l) }
  | none => s

/-- A rung's kernel. -/
def Image.rungKernel (m : Image) (r : Rung) : Option (Nat × Kernel) :=
  (m.kernels.zipIdx.find? fun k => k.1.entry == r.kentry).map fun k => (k.2, k.1)
/-- Items of a full group: G (R295). -/
def groupCap (r : Rung) (k : Kernel) : Nat := if r.team then 32 * k.warps else 32

/-- The declaration of an open ladder's rung, its kernel and its queue. -/
def rungOf (s : State) (l : Ladder) (lnum rung : Nat) : Option (Rung × Nat × Kernel × QueueDecl) :=
  match imageAt s l.image with
  | none => none
  | some m =>
    match (m.ladder lnum).bind fun d => d.rungs[rung]? with
    | none => none
    | some r =>
      match m.rungKernel r, m.queue r.qnum with
      | some (n, k), some q => some (r, n, k, q)
      | _, _ => none

def rungCount (s : State) (l : Ladder) (lnum : Nat) : Nat :=
  (((imageAt s l.image).bind (·.ladder lnum)).map (·.rungs.length)).getD 0

/-- Resolved items, dropped ones included (R296). -/
def Ladder.resolved (l : Ladder) : Nat := (l.items.filter fun x => x == .resolved || x == .dropped).length

/-! ## Groups (R295) -/

/-- Take the oldest n waiting items of a rung into a group. -/
def formGroup (s : State) (home lnum rung n : Nat) (q : QueueDecl) (ctx : Nat) : State :=
  let c := queueAt s ctx home q.qnum
  let now := c.all.take n
  let s := setQueue s ctx home q.qnum (c.drop n)
  modLadder s home lnum fun l => { l with
    groups := l.groups ++ [⟨rung, now⟩]
    items := now.foldl (fun xs e => xs.set e.label.toNat .held) l.items }

/-- Form full groups of a rung while its queue holds enough items. -/
def formFull (home lnum rung : Nat) : Nat → State → State
  | 0, s => s
  | fuel + 1, s =>
    match ladderAt s home lnum with
    | none => s
    | some l =>
      match rungOf s l lnum rung with
      | none => s
      | some (r, _, k, q) =>
        let g := groupCap r k
        if 0 < g && g ≤ (queueAt s l.ctx home q.qnum).all.length then
          formFull home lnum rung fuel (formGroup s home lnum rung g q l.ctx)
        else s

/-- Whenever a rung's queue has been pushed to, its full groups form. -/
def afterPush (s : State) (home lnum rung n : Nat) : State := formFull home lnum rung (n / 32 + 2) s

/-- LADDER_ITEM_ENTRY (R294): the next item enters rung 0's queue with its frame, as room allows. A frame that cannot
be read gives free values. -/
def execLadderItemEntry (hw lnum : Nat) (s : State) : Result :=
  match ladderAt s hw lnum with
  | none => .next s
  | some l =>
    match rungOf s l lnum 0 with
    | none => .next s
    | some (_, _, _, q) =>
      if l.n ≤ l.entered || !(queueAt s l.ctx hw q.qnum).room q.well 1 then .next s
      else
        let va := l.frames + BitVec.ofNat 64 (32 * l.entered)
        let (ks, s) := unitSpan s l.ctx .read va 32
        let word (ks : List Nat) (j : Nat) : List Nat := (ks.drop (4 * j)).take 4
        let e : CqEntry := match ks with
          | some ks => ⟨(List.range 8).map fun j => BitVec.ofNat 32 (ofBytesLE (readBytes s (unitView s) .g 0 (word ks j))),
              BitVec.ofNat 32 l.entered, s.cycle, (List.range 8).filter fun j => anyPoisoned s (word ks j)⟩
          | none => ⟨(List.range 8).map fun j => lo32 (Config.free (s.draws * 8 + j)), BitVec.ofNat 32 l.entered, s.cycle, []⟩
        let s := pushEntry s l.ctx (hw * 4) hw q e
        .next (afterPush (modLadder s hw lnum fun l => { l with entered := l.entered + 1 }) hw lnum 0 1)

/-- STARVE_EXPIRE (R295): once the oldest waiting item has waited STARVE cycles every waiting item forms a group. -/
def execStarveExpire (hw lnum rung : Nat) (s : State) : Result :=
  match ladderAt s hw lnum with
  | none => .next s
  | some l =>
    match rungOf s l lnum rung with
    | none => .next s
    | some (r, _, _, q) =>
      match (queueAt s l.ctx hw q.qnum).all with
      | [] => .next s
      | e :: t =>
        if e.entered + r.starve ≤ s.cycle then .next (formGroup s hw lnum rung (t.length + 1) q l.ctx) else .next s

/-- A deadline of the oldest waiting item of a rung: cycle, home, slot, rung. -/
abbrev Starve := Nat × Nat × Nat × Nat

/-- The deadlines of the rungs of an open ladder. -/
def starveOf (s : State) (key : Nat) (l : Ladder) : List Starve :=
  (List.range (rungCount s l (key % 4))).filterMap fun r =>
    (rungOf s l (key % 4) r).bind fun x =>
      ((queueAt s l.ctx (key / 4) x.2.2.2.qnum).all.head?).map fun e => (e.entered + x.1.starve, key / 4, key % 4, r)

/-- The earliest deadline by a cycle: no item waits longer than STARVE before its group forms (R301). -/
def starveBy (s : State) (cycle : Nat) : Option Starve :=
  ((s.ladders.flatMap fun l => starveOf s l.1 l.2).filter fun x => decide (x.1 ≤ cycle)).foldl (fun o x => match o with
    | some y => if x.1 < y.1 then some x else some y
    | none => some x) none

/-- The formed groups of a home cluster: ladder slot and group. -/
def waitingGroups (s : State) (hw : Nat) : List (Nat × Group) :=
  [0, 1, 2, 3].flatMap fun n => ((ladderAt s hw n).map fun l => l.groups.map (n, ·)).getD []

/-- The group that launches first: the highest rung, and within a rung the one formed first (R295). -/
def firstGroup (l : List (Nat × Group)) : Option (Nat × Group) :=
  l.foldl (fun o x => match o with
    | some y => if y.2.rung < x.2.rung then some x else some y
    | none => some x) none

/-- The launch record that a rung group runs under (R109, R294). -/
def rungLaunch (l : Ladder) (opener : Grid) (k : Kernel) : LaunchRec :=
  ⟨k.entry, 1, 0, l.frames, false, opener.lr.tvec, opener.lr.faultq, 0#64⟩

/-- Whether the home cluster can take a rung group (R12, R340). -/
def homeTakes (s : State) (hw : Nat) (k : Kernel) (redundant : Bool) : Option (List Spot) :=
  match placeCluster s hw k redundant with
  | some x => if x.all (fun p => (coreAt s (hw * 4 + p.core)).wear.takes) && !(s.preemptAsked.contains hw || s.testAsked.contains hw)
      then some x else none
  | none => none

/-- Launch one group at its home. -/
def launchGroup (s : State) (hw lnum : Nat) (g : Group) (l : Ladder) (opener : Grid) (kn : Nat) (m : Image) (k : Kernel)
    (spots : List Spot) : State :=
  let gr := newGrid s l.ctx opener.req opener.task l.image kn (rungLaunch l opener k) none (some ⟨opener.id, hw, lnum, g⟩)
  let s := modLadder (enterGrid s gr) hw lnum fun l => { l with groups := l.groups.erase g }
  returnContext (startCluster s gr m k (isRedundant s l.ctx) none hw spots) l.ctx

/-- GROUP_LAUNCH (R295). -/
def execGroupLaunch (hw : Nat) (s : State) : Result :=
  match firstGroup (waitingGroups s hw) with
  | none => .next s
  | some (lnum, g) =>
    match ladderAt s hw lnum with
    | none => .next s
    | some l =>
      match rungOf s l lnum g.rung, gridById s l.grid, imageAt s l.image with
      | some (_, kn, k, _), some opener, some m =>
        match homeTakes s hw k (isRedundant s l.ctx) with
        | some spots => .next (if modeFits s l.ctx then launchGroup s hw lnum g l opener kn m k spots else s)
        | none => .next s
      | _, _, _ => .next s

/-! ## Completion (R296) -/

/-- Whether a scratchpad key lies in the range of a resident team of a grid. -/
def keyResident (s : State) (grid key : Nat) : Bool :=
  s.teams.any fun t => t.grid == grid && decide (spKey t.coreIx t.base ≤ key) && decide (key < spKey t.coreIx (t.base + t.total))

/-- Whether the objects of a ladder belong to a saved cluster. -/
def ladderSaved (s : State) (home lnum : Nat) : Bool :=
  s.saved.any fun c => c.ladderObjs.any fun o => o.1 == ladderKey home lnum

/-- LADDER_COMPLETE (R296): one arrival on the opener's object, and the slot returns to FREE. -/
def execLadderComplete (hw lnum : Nat) (s : State) : Result :=
  match ladderAt s hw lnum with
  | none => .next s
  | some l =>
    if l.entered < l.n || l.resolved < l.n || ladderSaved s hw lnum then .next s
    else
      let objs := l.objs.filter (keyResident s l.grid)
      let s := objs.foldl (fun s k => barUpdate (noteArrival s (unitView s) k) (unitView s) none k fun o => o.arrive 1) s
      let s := { s with ladders := Tab.del s.ladders (ladderKey hw lnum) }
      .next (modGrid s l.grid fun g => { g with ladders := g.ladders ++ [⟨lnum, hw, l.n, l.resolved, l.escalated⟩] })

/-! ## LAD.DONE (R294, R300) -/

/-- Whether a rung's kernel is one team that fits one core. -/
def rungFits (s : State) (ctx : Nat) (m : Image) (r : Rung) : Bool :=
  match m.rungKernel r with
  | some (_, k) => k.teams == 1 && canFit k (isRedundant s ctx)
  | none => false

/-- The status of an open (R294): the first that applies in the order of the rule. -/
def openStatus (s : State) (w : Warp) (lnum b : Nat) : Nat :=
  match (imageAt s w.image).bind fun m => (m.ladder lnum).map (m, ·) with
  | none => 4
  | some (m, d) =>
    if (ladderAt s w.hw lnum).isSome then 1
    else if b = 0 || d.maxItems < b then 2
    else if !d.rungs.all (rungFits s w.ctx m) then 3
    else 0

/-- LAD.DONE, open (R294). -/
def execLadDoneOpen (w : Strip) : State → Result :=
  laneWord (.ladDoneOpen w) { deaths := some lowDeaths } fun cx =>
    let s := cx.s
    let lnum := cx.x 2 1
    let off := 16 * cx.x 14 3
    match objKey (some cx.team) off with
    | .error e => .trap (cx.nameAll e.trap 2 (BitVec.ofNat 64 off) [])
    | .ok key =>
      let n := (cx.low cx.b).toNat
      let st := openStatus s s.warp lnum n
      let l : Ladder := {
        n := n, res := cx.pairA cx.lane0, frames := cx.pairC cx.lane0
        objs := key :: (partnerObject s s.warp (some cx.team) off).toList
        grid := s.warp.grid, ctx := s.warp.ctx, image := s.warp.image, entered := 0
        items := List.replicate n (.waiting 0), groups := [], escalated := 0 }
      let s := if st = 0 then { s with ladders := Tab.put s.ladders (ladderKey s.warp.hw lnum) l } else s
      cx.status s st

/-- LAD.DONE, test (R300). -/
def execLadDoneTest (w : Strip) : State → Result :=
  laneWord (.ladDoneTest w) {} fun cx =>
    let (n, all) := match ladderAt cx.s cx.s.warp.hw (cx.x 2 1) with
      | some l => (l.resolved, l.resolved == l.n)
      | none => (0, false)
    .done {
      s := cx.s
      regs := [mkWrite cx.d (.uniform (BitVec.ofNat 32 n)) cx.p 2#4]
      preds := [⟨cx.x 5 3, if all then cx.p else 0#32, cx.p⟩]
      var := true }

/-! ## Items (R297 to R299) -/

/-- The lane's HELD item. -/
def Warp.held (w : Warp) (i : Nat) : Option Held := (w.items.getD i none).filter (·.live)

/-- ILLEGAL of LAD.RES: the warp holds no ladder items. -/
def noItems (w : Warp) : Bool := w.items.all (·.isNone)

/-- ILLEGAL of LAD.ESC: no items, or the last rung. -/
def escIllegal (s : State) (_ : Split) (_ : Strip) : Bool :=
  noItems s.warp || (match warpLadder s s.warp with
    | some (_, lnum, rung, l) => decide (rungCount s l lnum ≤ rung + 1)
    | none => false)

/-- PROT naming the lanes whose item is not HELD. -/
def Cx.notHeld (cx : Cx) : Option TrapInfo :=
  let bad := (LaneMask.lanes cx.p).filter fun i => (cx.s.warp.held i).isNone
  if bad.isEmpty then none
  else some { wholeTrap Code.prot (LaneMask.ofPred bad.contains) with addrs := bad.map (·, 0#64) }

def Cx.index (cx : Cx) (i : Nat) : Nat := ((cx.s.warp.held i).map (·.index)).getD 0

/-- LAD.ESC (R297). -/
def execLadEsc (w : Strip) : State → Result :=
  laneWord (.ladEsc w) { illegal := escIllegal, deaths := some queueDeaths } fun cx =>
    match cx.notHeld, warpLadder cx.s cx.s.warp with
    | some t, _ => .trap t
    | none, none => .trap (wholeTrap Code.illegal cx.sp.mask)
    | none, some (home, lnum, rung, l) =>
      match rungOf cx.s l lnum (rung + 1) with
      | none => .trap (wholeTrap Code.illegal cx.sp.mask)
      | some (_, _, _, q) =>
        let lanes := LaneMask.lanes cx.p
        if !(queueAt cx.s l.ctx home q.qnum).room q.well lanes.length then cx.waitQueue
        else
          let batch := lanes.map fun i => (⟨cx.record i, BitVec.ofNat 32 (cx.index i), cx.s.cycle, []⟩ : CqEntry)
          let s := pushBatch cx.s l.ctx (home * 4) home q batch
          let s := lanes.foldl (fun s i => setItem s home lnum (cx.index i) (.waiting (rung + 1))) s
          let s := modLadder s home lnum fun l => { l with escalated := l.escalated + lanes.length }
          let s := modWarp s fun w => w.loseItems cx.p
          .done { s := seeSplit (afterPush (publish s cx.view) home lnum (rung + 1) lanes.length) }

/-- ILLEGAL of LAD.RES: no items, or a range past v247. -/
def resIllegal (s : State) (_ : Split) (w : Strip) : Bool :=
  noItems s.warp || (resRegs s w.a.code.toNat).any fun n => decide (247 < n)

def Cx.resRegs (cx : Cx) : List Nat := Machine.resRegs cx.s cx.w.a.code.toNat

/-- BUDGET of the range. -/
def resBudget (cx : Cx) : LaneMask := if cx.resRegs.all (inAlloc cx.s.warp.units) then 0#32 else orMask cx.p cx.sp.mask
/-- FORMAT of the range. -/
def resFormat (cx : Cx) : Bool := !cx.resRegs.all fun n => TagSet.notBx4.accepts 0#4 (cx.s.warp.reg n).tag
def resDeaths (cx : Cx) : LaneMask := cx.p &&& cx.resRegs.foldl (fun m n => m ||| (cx.s.warp.reg n).poison) 0#32

/-- The stores of LAD.RES: one per lane and word. -/
def Cx.resAccs (cx : Cx) (l : Ladder) : List LaneAcc :=
  let n := cx.resRegs.length
  (LaneMask.lanes cx.p).flatMap fun i => (List.range n).map fun k =>
    ⟨i, l.res + BitVec.ofNat 64 (cx.index i * (4 * n) + 4 * k), true⟩

/-- Perform the stores of lanes all of whose words are placed. -/
def Cx.resStore (cx : Cx) (l : Ladder) : List (LaneAcc × Nat) → State → State
  | [], s => s
  | (x, k) :: t, s =>
    let n := cx.resRegs.length
    let word := ((x.ea - l.res).toNat - cx.index x.lane * (4 * n)) / 4
    let v := (readReg cx.s.draws cx.s.warp (cx.resRegs.getD word 0)).word x.lane
    cx.resStore l t (gStore s (storeView cx.view x.ea) cx.s.warp.coreIx k (toBytesLE 4 v.toNat) false)

/-- LAD.RES with every condition but those of its stores met. -/
def Cx.resBody (cx : Cx) (home lnum : Nat) (l : Ladder) : LaneRes :=
  let accs := cx.resAccs l
  match preCheck cx.s cx.s.warp 4 true false accs with
  | some t => .trap t
  | none =>
    let (placed, s) := placeLanes cx.view cx.s.warp .write 4 accs cx.s
    let trap := placedTrap true placed
    let bad : LaneMask := (trap.map (·.replay)).getD 0#32
    let ok := (placedOk placed).filter fun p => !bad.has p.1.lane
    match epochRoom s cx.view (accKeys 4 (ok.filter fun p => regionOf p.1.ea == .paged)) with
    | .stall => .hold cx.s
    | .full => .trap (fullTrap cx.sp.mask placed)
    | .ok =>
      let s := afterStores (cx.resStore l ok s) ok
      let done := (LaneMask.lanes cx.p).filter fun i => !bad.has i
      let s := done.foldl (fun s i => setItem s home lnum (cx.index i) .resolved) s
      let s := modWarp s fun w => w.loseItems (cx.p &&& ~~~ bad)
      withTrap { s := markWritten s cx.sp 4 (ok.map (·.1)) } trap

/-- LAD.RES (R298). -/
def execLadRes (w : Strip) : State → Result :=
  laneWord (.ladRes w)
    { illegal := resIllegal, budget := resBudget, badFormat := resFormat, reads := Cx.resRegs, deaths := some resDeaths }
    fun cx =>
      match cx.notHeld, warpLadder cx.s cx.s.warp with
      | some t, _ => .trap t
      | none, none => .trap (wholeTrap Code.illegal cx.sp.mask)
      | none, some (home, lnum, _, l) => cx.resBody home lnum l

/-- LAD.ITEM (R299). -/
def execLadItem (w : Strip) : State → Result :=
  laneWord (.ladItem w) {} fun cx =>
    let held (i : Nat) : Option Held := cx.s.warp.held i
    let mask := LaneMask.ofPred fun i => cx.p.has i && (held i).isSome
    let frame (k : Nat) : RegWrite :=
      { mkWrite (cx.d + k) (.lanes (laneIds.map fun i => ((held i).map fun h => h.frame.getD k 0#32).getD 0#32)) mask w.fmt with
        poison := LaneMask.ofPred fun i => ((held i).map fun h => h.bad.contains k).getD false }
    let ix := mkWrite cx.d (.lanes (laneIds.map fun i => BitVec.ofNat 32 (cx.index i))) mask w.fmt
    .done { s := cx.s, regs := if cx.xb 0 then (List.range 8).map frame else [ix] }

end Sys2Proof.Machine
end

