-- ==== Sys2Proof/Machine/Redundant.lean ====
section
/-! DEFINITION. Redundant groups (R331 to R338): the commit point at which both copies stand, the return to a checkpoint
after a mismatch, the injected fault, RG.CKPT and RG.STAT. -/

namespace Sys2Proof.Machine

/-! ## RG.CKPT, RG.STAT -/

/-- RG.CKPT (R334): a commit point with no action; no operation outside a group (R338). -/
def execRgCkpt (w : Strip) : State → Result :=
  laneWord (.rgCkpt w) { always := true } fun cx => .done { s := cx.s }

/-- Lane instructions by which the leading warp of a group stands ahead. -/
def leadOf (s : State) (w : Warp) : Nat := (((leadWarp s w).rg).map (·.lead)).getD 0

/-- The value of RG.STAT (R338). -/
def rgStatus (s : State) (w : Warp) (sel : Nat) : Nat :=
  match w.rg with
  | none => 0
  | some g =>
    if sel = 1 then leadOf s w
    else
      1 + (if g.trailing then 2 else 0) + min g.mismatches 3 * 2 ^ 2
        + ((leadTeam s w).map fun t => t.held.length).getD 0 * 2 ^ 4 + min g.rollbacks 65535 * 2 ^ 16

/-- RG.STAT (R338). -/
def execRgStat (w : Strip) : State → Result :=
  laneWord (.rgStat w) {} fun cx => cx.putU 2#4 (BitVec.ofNat 32 (rgStatus cx.s cx.s.warp (cx.x 1 0)))

/-! ## RGINJ (R336) -/

/-- A register with one bit of one lane inverted. -/
def flipBit (r : LaneReg) (lane bit : Nat) : LaneReg :=
  { r with val := .g (laneIds.map fun i =>
      if i = lane then r.val.word i ^^^ BitVec.twoPow 32 bit else r.val.word i) }

/-- RGINJ_FIRE (R336): after the N-th word retired since arming, the fault strikes and ARM clears. -/
def execRginjFire (s : State) : Result :=
  match s.warp.rg with
  | none => .next s
  | some g =>
    match g.inject with
    | none => .next s
    | some (n, lane, bit) =>
      if !g.trailing || n ≠ g.injCount then .next s
      else .next (modWarp s fun w => { w with
        rginj := w.rginj &&& ~~~ (1#64 <<< 30)
        rg := some { g with inject := none }
        regs := match g.lastD with
          | some d => Tab.put w.regs d (flipBit (w.reg d) lane bit)
          | none => w.regs })

/-! ## The pair -/

/-- The warps of a pair: leading, trailing. -/
structure Pair where
  lead : Warp
  trail : Warp

def pairOf (s : State) : Option Pair :=
  match s.warp.rg with
  | none => none
  | some g =>
    match warpById s g.partner with
    | none => none
    | some o => some (if g.trailing then ⟨o, s.warp⟩ else ⟨s.warp, o⟩)

def Pair.ids (p : Pair) : List Nat := [p.lead.id, p.trail.id]
def Warp.ending (w : Warp) : Option (BitVec 8 × DWord) := w.rg.bind (·.ending)

/-- Drop what the leading team holds of a warp. -/
def dropHeld (s : State) (id : Nat) : State :=
  { s with teams := s.teams.map fun t => { t with
    held := t.held.filter fun e => e.warp != id
    fwd := t.fwd.filter fun e => e.warp != id } }

/-! ## Return to the checkpoint (R335, R337) -/

/-- Whether a copy's word of the last commit point is still before it where the partner has passed it: the copy goes back
before that word and takes what the action delivered again, so that both stand after the word (R335). -/
def owesWord (s : State) (w : Warp) : Bool :=
  w.grantedNow && !((w.rg.bind fun g => warpById s g.partner).map Warp.grantedNow).getD false

/-- A copy's warp at its checkpoint: what the group counts goes on, the fault injection is neither re-armed nor
recounted (R336); `owes` where it has the word of the commit point before it. -/
def restoreCopy (c w : Warp) (mismatch owes : Bool) (cycle : Nat) : Warp :=
  { c with
    hw := w.hw, core := w.core, slot := w.slot, rginj := w.rginj, watch := cycle, cancelled := w.cancelled
    rg := c.rg.map fun g =>
      match w.rg with
      | none => g
      | some h => { g with
          mismatches := h.mismatches + (if mismatch then 1 else 0)
          rollbacks := min 65535 (h.rollbacks + 1)
          lead := 0, ending := none, killed := 0#32, drops := []
          mail := if owes then h.mail else [], trace := if owes then h.trace else []
          granted := owes, grant := if owes then h.grant else none
          inject := h.inject, injCount := h.injCount } }

/-- Return one copy. -/
def returnCopy (s : State) (mismatch owes : Bool) (id : Nat) : State :=
  match s.checkpoints.find? fun c => c.id == id with
  | none => s
  | some c => modWarpId s id fun w => if w.ended.isSome then w else restoreCopy c w mismatch owes s.cycle

/-- Both copies return to their last checkpoint, held entries discarded. -/
def returnPair (s : State) (p : Pair) (mismatch : Bool) : State :=
  let t := dropHeld s p.lead.id
  returnCopy (returnCopy t mismatch (owesWord s p.lead) p.lead.id) mismatch (owesWord s p.trail) p.trail.id

/-- Lanes leave the names of words that a copy keeps. -/
def dropNames (m : LaneMask) (w : Warp) : Warp :=
  { w with rg := w.rg.map fun g => { g with
      trace := g.trace.map fun x => (x.1, x.2 &&& ~~~ m), grant := g.grant.map fun x => (x.1, x.2.1, x.2.2 &&& ~~~ m) } }

/-- Lanes that died in one copy die in both, in their checkpoints as well. -/
def killPair (s : State) (p : Pair) (m : LaneMask) : State :=
  if m = 0#32 then s
  else p.ids.foldl (fun s id =>
    onWarp s id fun s =>
      let s := modWarp (killLanes s m s.warp.anyPc) (dropNames m)
      { s with checkpoints := s.checkpoints.map fun c => if c.id = id then s.warp else c }) s

/-- The split at the checkpoint's resume point: the one that issued last. -/
def latestSplit (w : Warp) : Option Split :=
  w.splits.foldl (fun o sp => match o with
    | some x => if x.issued < sp.issued then some sp else some x
    | none => some sp) none

/-- RGMISMATCH at the resume point of both copies; a copy without a split ends with it. -/
def raiseMismatch (s : State) (p : Pair) : State :=
  p.ids.foldl (fun s id =>
    onWarp s id fun s =>
      match latestSplit s.warp with
      | none => endWarp s id 1#8 Code.rgmismatch s.warp.apc
      | some sp => raiseSplit s sp ⟨Code.rgmismatch, none, 0#16, 0#64⟩) s

/-- A mismatch (R335): the third from one checkpoint also traps. -/
def rollback (s : State) (p : Pair) : State :=
  let killed (w : Warp) : LaneMask := (w.rg.map (·.killed)).getD 0#32
  let n := ((p.lead.rg.map (·.mismatches)).getD 0) + 1
  let s := killPair (returnPair s p true) p (killed p.lead ||| killed p.trail)
  if 3 ≤ n then raiseMismatch s p else s

/-! ## Commit (R333) -/

/-- The reservations that a copy has dropped since the last commit point are freed (R274). -/
def commitDrops (s : State) (w : Warp) : State :=
  let l := (w.rg.map (·.drops)).getD []
  if l.isEmpty then s
  else modWarpId (l.foldl (fun s d => freeOwned s w.id d.1 d.2) s) w.id fun w =>
    { w with rg := w.rg.map fun g => { g with drops := [] } }

/-- Commit every held entry of a warp in program order, and what it dropped. -/
def commitHeld (s : State) (w : Warp) : State :=
  let l := ((leadTeam s w).map fun t => t.held.filter fun e => e.warp == w.id).getD []
  commitDrops (dropHeld (l.foldl (fun s e => commitEntry s w e) s) w.id) w

/-- Whether every held entry agreed, and every forwarded load was taken. -/
def allAgreed (s : State) (w : Warp) : Bool :=
  match leadTeam s w with
  | none => true
  | some t => t.held.all (fun e => e.warp != w.id || e.agreed) && t.fwd.all fun e => e.warp != w.id

/-- Where the leading copy stands at a commit point: stream, address, mask. -/
def standsAt (w : Warp) : Option (Bool × DWord × LaneMask) :=
  if w.acc = .commit then some (true, w.apc, 0#32)
  else
    let at_ (o : Option Split) : Option (Bool × DWord × LaneMask) :=
      (o.filter fun sp => sp.wait == .commit).map fun sp => (false, sp.pc, sp.mask)
    (at_ w.slotA).or (at_ w.slotB)

/-- The slot of a copy's split at a word. -/
def slotAt (w : Warp) (pc : DWord) (m : LaneMask) : Option Bool :=
  let here (o : Option Split) : Bool := (o.map fun sp => sp.pc == pc && sp.mask == m).getD false
  if here w.slotA then some false else if here w.slotB then some true else none

/-- Whether the trailing copy stands at the same word, having done all that the leading one has (R333, R334). -/
def caughtUp (p : Pair) (x : Bool × DWord × LaneMask) : Bool :=
  match p.lead.rg, p.trail.rg with
  | some g, some h =>
    h.trace.isEmpty && h.accWords == g.accWords && !g.granted && !h.granted && h.ending.isNone
      && (if x.1 then p.trail.apc == x.2.1 else (slotAt p.trail x.2.1 x.2.2).isSome)
  | _, _ => false

/-- A copy's context at a lane word, as the word would issue there. -/
def copyCx (s : State) (id : Nat) (pc : DWord) (m : LaneMask) : Option (Instr × Cx) :=
  let s := focusWarp s id
  match slotAt s.warp pc m with
  | none => none
  | some b =>
    let s := { s with slotB := b }
    match s.split?, fetchLane s s.warp pc with
    | some sp, (.ok i, s) =>
      (laneForm i).map fun fw => (i, readCx s fw.2 fw.1 sp (takingPart s.warp sp fw.1 fw.2))
    | _, _ => none

/-- Registers that a word reads beside those its fields name. -/
def rangeRegs (i : Instr) (cx : Cx) : List Nat :=
  match i with
  | .ladRes w => resRegs cx.s w.a.code.toNat
  | _ => if cx.f.dRead == .unchecked then [] else Form.dstRegs cx.f cx.w

/-- The operand words of a commit point: P, and each source's words in the lanes of P, D and ranges among them. -/
def operandWords (i : Instr) (cx : Cx) : List Word :=
  let lanes (o : Operand) : List Word := (LaneMask.lanes cx.p).map o.word
  (rangeRegs i cx).flatMap (fun n => lanes (readReg cx.s.draws cx.s.warp n)) ++
  let of (g : SrcForm) (x : SrcField) : List Word :=
    if g.used then (List.range g.span).flatMap fun k => lanes (operand cx.s.draws cx.s.warp x k) else []
  cx.p :: (of cx.f.a cx.w.a ++ (if Form.useB cx.f cx.w then of cx.f.b cx.w.b else [])
    ++ (if cx.f.overlay then [] else of cx.f.c cx.w.c))

/-- The bytes that a copy's MX.DRAIN or CP.TILE with DIR = 1 would write (R333). -/
def wouldWrite (i : Instr) (cx : Cx) : List Byte :=
  match i with
  | .mxDrainMem w =>
    let c := Tab.getD cx.s.cores cx.s.warp.coreIx Core.init
    cx.rows.flatMap fun r => cx.drainCols.flatMap fun n => drainBytes w.fmt (c.row r) n
  | .cpTile _ =>
    if cx.xb 0 then
      match (cx.walkRecord cx.s).1 with
      | .ok bs =>
        let n := ((parseWalk bs).map (·.tileBytes)).getD 0
        let tile := 16 * fieldNat (cx.low cx.c) 14 0
        readBytes cx.s cx.view .c 0 (keysFrom (spKey cx.s.warp.coreIx (cx.team.base + tile)) n)
      | .error _ => []
    else []
  | _ => []

/-- Whether the copies agree on what a word would do. -/
def wordAgrees (s : State) (p : Pair) (x : Bool × DWord × LaneMask) : Bool :=
  if x.1 then true
  else match copyCx s p.lead.id x.2.1 x.2.2, copyCx s p.trail.id x.2.1 x.2.2 with
    | some (i, a), some (_, b) => operandWords i a == operandWords i b && wouldWrite i a == wouldWrite i b
    | _, _ => true

/-- Let a copy go past its commit point: checkpoint, then the grant of the word. -/
def grantCopy (s : State) (id : Nat) (x : Bool × DWord × LaneMask) : State :=
  let wake (o : Option Split) : Option Split :=
    o.map fun sp => if sp.wait = .commit then { sp with wait := .none } else sp
  onWarp s id fun s =>
    let s := modWarp s fun w => { w with
      slotA := wake w.slotA, slotB := wake w.slotB, acc := if w.acc = .commit then .ready else w.acc }
    modWarp (checkpoint s) fun w => { w with rg := w.rg.map fun g => { g with granted := true, grant := some x } }

/-- Both copies have met their end: normal, or the same trap at the same word (R333, R335). -/
def endPair (s : State) (p : Pair) (code : BitVec 8) (pc : DWord) : State :=
  let st : BitVec 8 := if code = 0#8 then 0#8 else 1#8
  p.ids.foldl (fun s id => endWarp s id st code pc) s

/-- Whether the trailing copy has met an abnormal end at a word that the leading one passed. -/
def trailBehind (p : Pair) (pc : DWord) : Bool :=
  match p.lead.rg, p.trail.rg with
  | some g, some h => h.trace.any (fun x => x.1 == pc) || (decide (h.accWords < g.accWords) && p.trail.apc == pc)
  | _, _ => false

/-- What the pair can do now: nothing, a mismatch, an end, or a commit. -/
inductive PairMove where
  | stay
  | back
  | finish (code : BitVec 8) (pc : DWord)
  | go (x : Bool × DWord × LaneMask)
deriving DecidableEq, Repr

def pairMove (s : State) (p : Pair) : PairMove :=
  match p.lead.ending, p.trail.ending with
  | some a, some b =>
    if a.1 = Code.noted || b.1 = Code.noted || a ≠ b || !allAgreed s p.lead then .back
    else .finish a.1 a.2
  | some a, none => if a.1 = Code.noted then .back else .stay
  | none, some b => if b.1 = Code.noted || (b.1 ≠ 0#8 && trailBehind p b.2) then .back else .stay
  | none, none =>
    match standsAt p.lead with
    | none => .stay
    | some x =>
      if !caughtUp p x then .stay
      else if allAgreed s p.lead && wordAgrees s p x then .go x
      else .back

/-- RG_COMMIT (R333, R335): the issuing warp's pair commits, ends together, or returns to its checkpoint. -/
def execRgCommit (s : State) : Result :=
  match pairOf s with
  | none => .next s
  | some p =>
    match pairMove s p with
    | .stay => .next s
    | .back => .next (rollback s p)
    | .finish code pc => .next (endPair (commitHeld s p.lead) p code pc)
    | .go x => .next (p.ids.foldl (fun s id => grantCopy s id x) (commitHeld s p.lead))

/-! ## Which words of a group may issue (R332 to R334) -/

/-- Whether a stream of the warp stands at a commit point. -/
def atCommit (w : Warp) : Bool := (standsAt w).isSome

/-- Whether the partner still has the word of the last commit point before it. -/
def partnerGranted (s : State) (w : Warp) : Bool :=
  ((w.rg.bind fun g => (warpById s g.partner).bind (·.rg)).map (·.granted)).getD false

/-- Whether the partner has met its end at this word. -/
def partnerEndsAt (s : State) (w : Warp) (pc : DWord) : Bool :=
  ((w.rg.bind fun g => (warpById s g.partner).bind Warp.ending).map fun e => e.1 != 0#8 && e.2 == pc).getD false

/-- Whether a copy's split may issue: not past a commit point, and a trailing copy after its partner. A trailing copy
meets its partner's end when its two streams have done all that the partner's did. -/
def groupLaneMay (s : State) (w : Warp) (sp : Split) : Bool :=
  match w.rg with
  | none => true
  | some g =>
    let other := (warpById s g.partner).bind (·.rg)
    let level := decide (g.accWords = (other.map (·.accWords)).getD 0)
    let last := (other.any fun h => h.ending.isSome) && decide (g.trace.length ≤ 1)
    let behind := !g.trailing || (g.trace.contains (sp.pc, sp.mask) && (!last || level))
      || (g.trace.isEmpty && level && partnerEndsAt s w sp.pc)
    g.ending.isNone && behind &&
      match g.grant with
      | some x => !x.1 && x.2.1 == sp.pc && x.2.2 == sp.mask
      | none => !atCommit w && (g.trailing || !partnerGranted s w)

/-- Whether a copy's access stream may issue. -/
def groupAccMay (s : State) (w : Warp) : Bool :=
  match w.rg with
  | none => true
  | some g =>
    let other := ((warpById s g.partner).bind (·.rg)).map (·.accWords)
    let behind := !g.trailing || decide (g.accWords < other.getD 0) || (g.trace.isEmpty && partnerEndsAt s w w.apc)
    g.ending.isNone && behind &&
      match g.grant with
      | some x => x.1
      | none => !atCommit w && (g.trailing || !partnerGranted s w)

end Sys2Proof.Machine
end

