-- ==== Sys2Proof/Machine/Reliab.lean ====
section
/-! DEFINITION. Signatures (R319 to R326), opportunistic replay (R327, R328), errors found in storage (R329), and wear:
the period, the states of a core, WEAR.RD, the lifetime record and the ends of power (R339 to R344). -/

namespace Sys2Proof.Machine

/-! ## SIG.CHK, SIG.RD (R324, R326) -/

/-- The signature of the .sig record of a word, searched in the warp's records in device memory (R102, R320). -/
def sigRecord (s : State) (v : PathView) (w : Warp) (pc : DWord) : Option Word :=
  (List.range w.sigcnt.toNat).findSome? fun i =>
    match (placeAccess s v w .read (w.sigtab + BitVec.ofNat 64 (16 * i)) 16).1 with
    | .ok k =>
      if readNat s v .g 0 k 8 = pc.toNat then some (BitVec.ofNat 32 (readNat s v .g 0 (k + 8) 4)) else none
    | .error _ => none

/-- The signature wanted at a check of nb bytes under a mask. -/
def sigWant (m : LaneMask) (nb : Nat) (value : Word) : Word :=
  crcAbsorb (sigSeed m) (List.replicate nb 0#8) ^^^ value

/-- The word's seed, and HOLD cleared where the warp holds one split. -/
def Cx.sigSeeded (cx : Cx) (s : State) : State :=
  let s := s.modSplit fun sp => { sp with sig := sigSeed sp.mask }
  modWarp s fun w =>
    if cx.s.warp.sigctl.getLsbD 0 && w.splits.length == 1 then { w with sigctl := w.sigctl &&& ~~~ 2#32 } else w

/-- One mismatch passed under HOLD, counted in SIGCTL[31:16], saturating. -/
def countHeld (c : Word) : Word :=
  if c.toNat / 2 ^ 16 = 65535 then c else c + 0x10000#32

/-- SIG.CHK (R324): in a handler it is no operation (R323). -/
def execSigChk (w : Strip) : State → Result :=
  laneWord (.sigChk w) { always := true } fun cx =>
    if cx.sp.ts.isSome then .done { s := cx.s }
    else if !cx.s.warp.sigctl.getLsbD 0 then .done { s := cx.sigSeeded cx.s }
    else
      match sigRecord cx.s cx.view cx.s.warp cx.sp.pc with
      -- no record gives a wanted value: what stands in its half is a free value (log 96)
      | none => .trap { wholeTrap Code.sigmismatch cx.sp.mask with
          addrs := (LaneMask.lanes cx.sp.mask).map fun i => (i, pair64 cx.sp.sig (lo32 (Config.free cx.s.draws))) }
      | some value =>
        let want := sigWant cx.sp.mask (cx.x 14 0) value
        if cx.sp.sig = want then .done { s := cx.sigSeeded cx.s }
        else if cx.s.warp.sigctl.getLsbD 1 then
          .done { s := cx.sigSeeded (modWarp cx.s fun w => { w with sigctl := countHeld w.sigctl }) }
        else .trap { wholeTrap Code.sigmismatch cx.sp.mask with
          addrs := (LaneMask.lanes cx.sp.mask).map fun i => (i, pair64 cx.sp.sig want) }

/-- SIG.RD (R326). -/
def execSigRd (w : Strip) : State → Result :=
  laneWord (.sigRd w) {} fun cx => cx.putU 2#4 cx.sp.sig

/-! ## Replay (R327, R328) -/

/-- The line of a warp that has ended shows the error. -/
def markLine (s : State) (e : ReplayEntry) : State :=
  let mark (l : WarpLine) : WarpLine :=
    if l.cluster = e.cluster && l.warp = e.line then { l with status := 1#8, code := Code.softerr } else l
  modGrid s e.grid fun g => { g with
    lines := g.lines.map mark
    status := if g.status = 0#8 then 1#8 else g.status
    code := if g.code = 0#8 then Code.softerr else g.code }

/-- SOFTERR in the split that issued an entry, or in its warp's line. -/
def softError (s : State) (e : ReplayEntry) (lane : Nat) : State :=
  match warpById s e.warp with
  | some w =>
    if w.ended.isSome then markLine s e
    else raiseIn s e.warp e.split e.mask ⟨Code.softerr, none, BitVec.ofNat 16 lane, e.addr⟩
  | none => markLine s e

/-! ## Errors in storage (R329) -/

/-- POISON_DETECT (R329): an error that cannot be corrected is found. -/
def execPoisonDetect (place : PoisonPlace) (s : State) : Result :=
  match place with
  | .memory key words => .next ((List.range words).foldl (fun s i => poisonWord s (key / 4 + i)) s)
  | .register n lane =>
    .next (modWarp s fun w =>
      { w with regs := Tab.put w.regs n { w.reg n with poison := (w.reg n).poison ||| BitVec.twoPow 32 lane } })
  | .queue q index lane =>
    let hit (e : QEntry) : QEntry := { e with poison := e.poison ||| BitVec.twoPow 32 (if e.vec then lane else 0) }
    .next (modWarp s fun w => { w with fq := w.fq.setIfInBounds q ((w.fq.getD q []).modify index hit) })
  | .backQueue k index lane =>
    let hit (e : BEntry) : BEntry := { e with poison := e.poison ||| (BitVec.twoPow 32 lane &&& e.mask) }
    .next (modWarp s fun w => { w with bq := w.bq.setIfInBounds k ((w.bq.getD k []).modify index hit) })
  | .clusterQueue ctx hw q index word =>
    let hit (e : CqEntry) : CqEntry := if word < 8 && !e.bad.contains word then { e with bad := word :: e.bad } else e
    let c := queueAt s ctx hw q
    let n := c.hwPart.length
    .next (setQueue s ctx hw q (if index < n then { c with hwPart := c.hwPart.modify index hit }
      else { c with well := c.well.modify (index - n) hit }))

/-! ## Wear (R339 to R342) -/

/-- Rated life (R340). -/
def ratedLife : Nat := 220903200000

/-- The table of R339: temperature class by activity class. -/
def wearTable : List (List Nat) := [[1, 3, 5, 7], [1, 4, 6, 8], [2, 5, 8, 10], [3, 7, 11, 14], [5, 10, 16, 20]]

/-- Lane instructions that a core can issue in 10 ms: 8 in each of 6,000,000 cycles (R339). -/
def periodCapacity : Nat := 48000000

/-- Activity class of a period in which a core issued n lane instructions: idle, low, mid, high. -/
def activityOf (n : Nat) : Nat :=
  if n = 0 then 0 else if 4 * n < periodCapacity then 1 else if 2 * n < periodCapacity then 2 else 3

/-- A period's advance of WU. -/
def wearAdvance (r : WearReading) (activity : Nat) : Nat :=
  let n := (wearTable.getD (min r.temp 4) []).getD activity 0
  if r.volt = 0 then (n + 1) / 2 else if r.volt = 1 then n else 2 * n

/-- Whether figures meet a row of thresholds: WU in hundredths of rated life. -/
def meets (c : Core) (percent drift emf : Nat) : Bool :=
  decide (ratedLife * percent ≤ c.wu * 100) || decide (drift ≤ c.drift) || decide (emf ≤ c.emf)

/-- The state that the thresholds lead to in one period (R340); a monitor that fails makes a core that is still healthy
unknown. -/
def wearNext (c : Core) (failed : Bool) : WearState :=
  let a := if c.wear = .healthy then (if meets c 90 60 85 then .derated else if failed then .unknown else .healthy) else c.wear
  let b := if (a = .derated || a = .unknown) && meets c 97 80 95 then .drained else a
  if b = .drained && meets c 100 100 100 then .marked else b

/-- Shares of an advance by instructions issued: each, and each context's, is its part rounded down or up, any (log 58),
and together they are the advance. `before` counts the instructions of the entries before. -/
def wearShares (off adv total : Nat) : Nat → Tab Nat → List (Nat × Nat)
  | _, [] => []
  | before, p :: t =>
    (p.1, (adv * (before + p.2) + off) / total - (adv * before + off) / total) :: wearShares off adv total (before + p.2) t

/-- Charge a share to its context and its grid (R342). -/
def chargeWear (s : State) (x : Nat × Nat) : State :=
  let ctx := x.1 / 2 ^ 32
  let s := match Tab.find? s.contexts ctx with
    | some c => { s with contexts := Tab.put s.contexts ctx { c with wear := c.wear + x.2 } }
    | none => s
  let s := match gridById s (x.1 % 2 ^ 32) with
    | some g => modReq s g.req fun r => { r with wear := r.wear + x.2 }
    | none => s
  modGrid s (x.1 % 2 ^ 32) fun g => { g with wear := g.wear + x.2 }

/-- WEAR_PERIOD (R339, R340, R342): 10 ms of a core end. -/
def execWearPeriod (core : Nat) (r : WearReading) (s : State) : Result :=
  if s.start = .off then .next s
  else
    let c := coreAt s core
    let total := c.issued.foldl (fun n p => n + p.2) 0
    let adv := wearAdvance r (activityOf total)
    let off := (Config.free s.draws).toNat % total
    let s := (if total = 0 then [] else wearShares off adv total 0 c.issued).foldl chargeWear s
    .next (modCore s core fun c =>
      let c := { c with wu := c.wu + adv, drift := r.drift, emf := r.emf, issued := [], sinceTest := c.sinceTest + 1 }
      { c with wear := wearNext c r.monitorFailed })

/-! ## WEAR.RD (R343) -/

def WearState.code : WearState → Nat
  | .healthy => 0
  | .derated => 1
  | .drained => 2
  | .marked | .retired => 3
  | .unknown => 4

/-- The figure of a selector, 64 bits. -/
def wearFigure (s : State) (w : Warp) (sel : Nat) : Nat :=
  let c := coreAt s w.coreIx
  match sel with
  | 0 => c.wu
  | 1 => ((Tab.find? s.contexts w.ctx).map (·.wear)).getD 0
  | 2 => c.wear.code + c.drift % 256 * 2 ^ 8 + c.emf % 256 * 2 ^ 16
  | 3 => ratedLife
  | _ => ((s.teams.filter fun t => t.grid == w.grid && t.cluster == w.cluster).map fun t => (coreAt s t.coreIx).wu).foldl (· + ·) 0

/-- WEAR.RD (R343). -/
def execWearRd (w : Strip) : State → Result :=
  laneWord (.wearRd w) {} fun cx =>
    let v : DWord := BitVec.ofNat 64 (wearFigure cx.s cx.s.warp (cx.x 2 0))
    .done {
      s := cx.s, var := true
      regs := [mkWrite cx.d (.uniform (lo32 v)) cx.p 2#4, mkWrite (cx.d + 1) (.uniform (hi32 v)) cx.p 2#4] }

/-! ## The lifetime record (R344) -/

/-- Wear periods in an hour. -/
def periodsPerHour : Nat := 360000

/-- The bytes of a record that its digest covers. -/
def LifeRecord.bytes (r : LifeRecord) : List Byte :=
  toBytesLE 8 r.generation ++ (r.lines.flatMap fun l =>
    toBytesLE 4 l.core ++ toBytesLE 8 l.wu ++ toBytesLE 4 l.drift ++ toBytesLE 4 l.emf ++ toBytesLE 4 l.wear.code
      ++ (l.calib.flatMap fun c => toBytesLE 8 c.toNat) ++ toBytesLE 4 l.hours) ++ [if r.rebuilt then 1#8 else 0#8]

/-- The digest over the rest of the record. -/
def LifeRecord.sum (r : LifeRecord) : List Byte := shake256 32 r.bytes
def LifeRecord.checks (r : LifeRecord) : Bool := r.digest == r.sum
/-- A record under its digest. -/
def LifeRecord.seal (r : LifeRecord) : LifeRecord := { r with digest := r.sum }

/-- Cores of a package. -/
def coreCount : Nat := 640

/-- A core's line. -/
def lifeLine (s : State) (k : Nat) : LifeLine :=
  let c := coreAt s k
  ⟨k, c.wu, c.drift, c.emf, c.wear, c.calib, c.sinceTest / periodsPerHour⟩

/-- The record of the package as it stands; the mark of a rebuilt record stays. -/
def lifeNow (s : State) : LifeRecord :=
  LifeRecord.seal {
    generation := (max s.lifeA.generation s.lifeB.generation + 1) % 2 ^ 64
    lines := (List.range coreCount).map (lifeLine s)
    digest := []
    rebuilt := s.lifeA.rebuilt }

/-- Both copies are written. -/
def writeLife (s : State) : State := let r := lifeNow s; { s with lifeA := r, lifeB := r }

/-- WEAR_RECORD_WRITE (R344). -/
def execWearRecordWrite (s : State) : Result := .next (if s.start = .ready then writeLife s else s)

/-- The most that 60 s in the worst class can bring (R344). -/
def lostWear : Nat := 240000

/-- The larger of two copies' values, field by field. -/
def largerLine (a b : LifeLine) : LifeLine :=
  let worse (x y : WearState) : WearState :=
    let rank (z : WearState) : Nat := match z with | .healthy => 0 | .unknown => 1 | .derated => 2 | .drained => 3 | .marked => 4 | .retired => 5
    if rank x < rank y then y else x
  { core := a.core, wu := max a.wu b.wu, drift := max a.drift b.drift, emf := max a.emf b.emf, wear := worse a.wear b.wear
    calib := (a.calib.zip b.calib).map (fun p => if p.1.toNat < p.2.toNat then p.2 else p.1), hours := max a.hours b.hours }

/-- The two copies joined where neither checks, marked rebuilt. -/
def rebuildLife (a b : LifeRecord) : LifeRecord :=
  let join (x : LifeLine) : LifeLine :=
    let y := match b.lines.find? (·.core == x.core) with | some y => largerLine x y | none => x
    { y with wu := y.wu + lostWear }
  LifeRecord.seal { generation := max a.generation b.generation, lines := a.lines.map join, digest := [], rebuilt := true }

/-- Whether a record has ever been written. -/
def LifeRecord.written (r : LifeRecord) : Bool := r.generation != 0 || !r.lines.isEmpty

/-- The record that a start loads. -/
def chooseLife (a b : LifeRecord) : Option LifeRecord :=
  if !a.written && !b.written then none
  else match a.checks && a.written, b.checks && b.written with
    | true, true => some (if a.generation < b.generation then b else a)
    | true, false => some a
    | false, true => some b
    | false, false => some (rebuildLife a b)

/-- The readings of a core's oscillators at its first start. -/
def firstCalib (draws k : Nat) : List (BitVec 64) := (List.range 4).map fun i => Config.free (draws * 4096 + 4 * k + i)

/-- The state of a core in a new start: drained and marked cores are retired (R357). -/
def startWear (w : WearState) : WearState := if w = .marked then .retired else w

/-- A core's line enters the core; a core that carries a mark of its own is retired all the same. -/
def loadLine (extra : Nat) (s : State) (l : LifeLine) : State :=
  modCore s l.core fun c => { c with
    wu := l.wu + extra, drift := l.drift, emf := l.emf
    wear := startWear (if c.wear = .marked then .marked else l.wear), calib := l.calib
    sinceTest := l.hours * periodsPerHour }

/-- Load the lifetime record (R344): after an end of power without a shutdown every core takes the worst case more. -/
def loadLife (s : State) : State :=
  let extra := if s.orderly then 0 else lostWear
  match chooseLife s.lifeA s.lifeB with
  | none => (List.range coreCount).foldl (fun s k => modCore s k fun c =>
      { c with wu := extra, wear := startWear c.wear, calib := firstCalib s.draws k }) s
  | some r =>
    let s := if r.rebuilt then { s with lifeA := r, lifeB := r } else s
    r.lines.foldl (loadLine extra) s

end Sys2Proof.Machine
end

