-- ==== Sys2Proof/Machine/Preempt.lean ====
section
/-! DEFINITION. Gang pre-emption and restore (R13, R124, R185, R235, R236, R259, R260, R337), and the in-field test of a
cluster (R346, R347). -/

namespace Sys2Proof.Machine

/-! ## What a pre-emption takes -/

/-- The next state of a move, or the state before it. -/
def moved (s : State) (r : Result) : State := match r with | .next t => t | _ => s

def liveOn (s : State) (hw : Nat) : List Warp := (allWarps s).filter fun w => w.hw == hw && w.ended.isNone

/-- A resident cluster: grid and index. -/
abbrev ClusterName := Nat × Nat

def clustersOn (s : State) (hw : Nat) : List ClusterName :=
  ((s.teams.filter fun t => t.hw == hw).map fun t => (t.grid, t.cluster)).eraseDups

def inCluster (c : ClusterName) (w : Warp) : Bool := w.grid == c.1 && w.cluster == c.2
def Team.ofCluster (c : ClusterName) (t : Team) : Bool := t.grid == c.1 && t.cluster == c.2

/-- Every warp has stopped: PD is 0 and its results have returned (R235). -/
def readyToSave (s : State) (hw : Nat) : Bool := (liveOn s hw).all fun w => w.pd == 0 && w.pending.isEmpty

/-! ## Engines (R235, R259) -/

/-- Land every copy of the cores of a cluster, engine by engine in order. -/
def finishCopies (hw : Nat) : Nat → State → State
  | 0, s => s
  | n + 1, s =>
    match s.copies.find? (fun c => c.core / 4 == hw && copyFront s c) with
    | none => s
    | some c => finishCopies hw n (moved s (execCopyBytesLand c.id 0 c.elems.length s))

/-- Land every drained item of the cores of a cluster. -/
def finishDrains (hw : Nat) : Nat → State → State
  | 0, s => s
  | n + 1, s =>
    match s.drains.find? (fun d => d.core / 4 == hw) with
    | none => s
    | some d => finishDrains hw n (moved s (execDrainBytesLand d.id s))

/-- Row steps that the running stream has taken when it stops: a multiple of 16, any but 0, or all. -/
def stopAfter (draws left : Nat) : Nat := min (16 * ((Config.free draws).toNat % ceilDiv left 16 + 1)) left

/-- The running stream of a team stops at its pre-emption point. -/
def stopStream (s : State) (t : Team) : State :=
  match t.slots.find? (·.state == .running) with
  | none => s
  | some op =>
    let (op', s) := runStream s t (stopAfter s.draws op.left) op
    modTeam s t.id fun t =>
      let rest := t.slots.filter (·.state != .running)
      { t with slots := if op'.left = 0 then rest else op' :: rest }

/-- A stream that no step has been taken of waits. -/
def unstart (op : StreamOp) : StreamOp := if op.state = .running then { op with state := .waiting } else op

/-- The matrix path and the copy engines of a cluster come to rest: a follow-on that fires by now is a waiting stream,
which does not start. -/
def quiesce (s : State) (hw : Nat) : State :=
  let s := (s.teams.filter fun t => t.hw == hw).foldl (fun s t =>
    let s := moved s (execLoaderDone t.id s)
    match teamById s t.id with | some t => stopStream s t | none => s) s
  let idle := (s.teams.filter fun t => t.hw == hw && t.slots.all (·.state != .running)).map (·.id)
  let s := finishCopies hw s.copies.length s
  let s := finishDrains hw (s.drains.foldl (fun n d => n + d.items.length + 1) 0) s
  idle.foldl (fun s id => modTeam s id fun t => { t with slots := t.slots.map unstart }) s

/-! ## Warps -/

/-- A copy of a redundant group is saved at its last checkpoint (R337). -/
def saveAtCheckpoint (s : State) (hw : Nat) : State :=
  ((liveOn s hw).filter fun w => w.rg.isSome && !w.trailing).foldl (fun s w =>
    match pairOf (focusWarp s w.id) with
    | some p => returnPair s p false
    | none => s) s

/-- Lanes that hold a poisoned word of a register or of a queue entry; a broadcast word is every lane's (R330, log 57). -/
def poisonedLanes (w : Warp) : LaneMask :=
  let entry (e : QEntry) : LaneMask := if e.vec || e.poison == 0#32 then e.poison else 0xFFFFFFFF#32
  (w.regs.foldl (fun m r => m ||| r.2.poison) 0#32
    ||| w.fq.toList.flatten.foldl (fun m e => m ||| entry e) 0#32
    ||| w.bq.toList.flatten.foldl (fun m e => m ||| e.poison) 0#32) &&& w.alive

/-- Poison kills the lanes that hold it, in both copies of a group (R330, R335). -/
def killPoisoned (s : State) (w : Warp) : State :=
  let m := poisonedLanes w ||| ((pairOf (focusWarp s w.id)).map fun p => poisonedLanes p.lead ||| poisonedLanes p.trail).getD 0#32
  let m := m &&& w.alive
  if m = 0#32 || w.ended.isSome then s else onWarp s w.id fun s => killLanes s m s.warp.anyPc

/-- Fragments close, poison kills, entries of replay queues go. -/
def settleWarps (s : State) (hw : Nat) : State :=
  let l := liveOn s hw
  let s := l.foldl (fun s w => closeFragment s w.id) s
  let s := l.foldl (fun s w => killPoisoned s ((warpById s w.id).getD w)) s
  [0, 1, 2, 3].foldl (fun s c => modCore s (hw * 4 + c) fun c =>
    { c with replay := c.replay.map fun q => q.filter fun e => !(l.any fun w => w.id == e.warp) }) s

/-! ## The save (R236, R259) -/

/-- First key and length of a team's scratchpad with its divergence stacks. -/
def Team.span (t : Team) : Nat × Nat := (spKey t.coreIx t.base, t.total + 2048 * t.warps)

/-- Offset in its core of a key that lies in the span of a team; the place of the team in a list. -/
def placeIn (teams : List Team) (k : Nat) : Option (Nat × Nat) :=
  (teams.zipIdx.find? fun p => decide (p.1.span.1 ≤ k) && decide (k < p.1.span.1 + p.1.span.2)).map fun p =>
    (p.2, k - spKey p.1.coreIx 0)

/-- Owned rows of a team with its place. -/
def savedRows (s : State) (ws : List Warp) (p : Team × Nat) : List (Nat × Nat × AccRow) :=
  let mine (r : AccRow) : Bool := ws.any fun w => w.team == p.1.id && r.owner == some w.id
  ((coreAt s p.1.coreIx).rows.filter fun r => mine r.2).map fun r => (p.2, r.1, r.2)

def savedPlanes (s : State) (p : Team × Nat) : List (Nat × Plane × Plane) :=
  let c := coreAt s p.1.coreIx
  if c.planeOwner = some p.1.id then [(p.2, c.active, c.shadow)] else []

/-- Everything of one cluster. -/
def saveOf (s : State) (c : ClusterName) (only : Option Nat) : Saved :=
  let teams := s.teams.filter (·.ofCluster c)
  let ws := (allWarps s).filter (inCluster c)
  let place (k : Nat) : Option (Nat × Nat) := placeIn teams k
  let objs (id : Nat) (l : List Nat) : List (Nat × Nat × Nat) := l.filterMap fun k => (place k).map fun p => (id, p.1, p.2)
  { id := s.nextId
    warps := ws.map (saveWarp s.cycle)
    teams := teams
    scratch := s.mem.filterMap fun b => (place b.1).map fun p => (p.1, p.2, b.2)
    badWords := s.poison.filterMap fun n => place (4 * n)
    rows := teams.zipIdx.flatMap (savedRows s ws)
    planes := teams.zipIdx.flatMap (savedPlanes s)
    only := only
    landObjs := s.landings.flatMap fun l => objs l.id l.objs
    filterObjs := s.filters.flatMap fun f => objs f.id f.objs
    ladderObjs := s.ladders.flatMap fun l => objs l.1 l.2.objs
    seen := s.barSeen.filterMap fun b => (place b.1).map fun p => (p.1, p.2, b.2.1, b.2.2)
    wearctx := ((ws.head?).map fun w => wearCtx s w.ctx).getD 0#64 }

/-- Rows and planes are released on the source core; the words stay. -/
def releaseMatrix (s : State) (c : Saved) : State :=
  c.teams.foldl (fun s t => modCore s t.coreIx fun k =>
    let free (r : AccRow) : AccRow := if c.warps.any (fun w => r.owner == some w.id) then { r with owner := none } else r
    { k with
      rows := k.rows.map fun r => (r.1, free r.2)
      planeOwner := if k.planeOwner = some t.id then none else k.planeOwner }) s

/-- The cluster leaves its cores. -/
def leaveCores (s : State) (c : ClusterName) (x : Saved) : State :=
  let gone (k : Nat) : Bool := (placeIn x.teams k).isSome
  let keep (l : List Nat) : List Nat := l.filter fun k => !gone k
  let landing (l : Landing) : Landing := { l with objs := keep l.objs }
  let filter (f : FilterCtx) : FilterCtx := { f with objs := keep f.objs }
  let ladder (l : Nat × Ladder) : Nat × Ladder := (l.1, { l.2 with objs := keep l.2.objs })
  let s := releaseMatrix s x
  let s := { s with
    saved := s.saved ++ [x]
    nextId := s.nextId + 1
    teams := s.teams.filter fun t => !t.ofCluster c
    mem := s.mem.filter fun b => !gone b.1
    poison := s.poison.filter fun n => !gone (4 * n)
    hist := s.hist.filter fun r => !gone r.key
    barSeen := s.barSeen.filter fun b => !gone b.1
    landings := s.landings.map landing
    filters := s.filters.map filter
    ladders := s.ladders.map ladder }
  if inCluster c s.warp then
    match s.others.filter (fun w => !inCluster c w) with
    | w :: rest => { s with warp := w, others := rest }
    | [] => { s with warp := Warp.blank, others := [] }
  else { s with others := s.others.filter fun w => !inCluster c w }

/-- A team's mappings are written back and released; its registers keep their values for the restore (R185). -/
def releaseMappings (s : State) (c : ClusterName) : State :=
  (s.teams.filter (·.ofCluster c)).foldl (fun s t => releaseGrans s fun g => g.team == t.id) s

/-! ## Restore (R13, R33, R260) -/

/-- Partition of a warp's slot. -/
def Warp.part (w : Warp) : Nat := w.slot / 8

/-- The slot that a saved warp takes: in its own partition, which WHERE reports (R13, log 39), the warps of a team in
ascending order into the free slots. -/
def slotFor (s : State) (hw : Nat) (c : Saved) (w : Warp) : Option Nat :=
  (freeSlots (seatsUsed s hw w.core) w.part)[(c.warps.filter fun x =>
    x.team == w.team && x.part == w.part && decide (x.index < w.index)).length]?

/-- Whether the warps of a save find slots and registers in their partitions (R12). -/
def seatsFree (s : State) (hw : Nat) (c : Saved) : Bool :=
  c.warps.all fun w => (slotFor s hw c w).isSome &&
    decide (regsUsed (seatsUsed s hw w.core ++ (c.warps.filter (·.core == w.core)).map fun x => (x.slot, x.units)) w.part ≤ 1024)

/-- Whether a team's scratchpad range is free. -/
def rangeFree (s : State) (hw : Nat) (t : Team) : Bool :=
  (rangesUsed s hw t.core).all fun r =>
    decide (t.base + t.span.2 ≤ r.1) || decide (r.1 + r.2 ≤ t.base)

/-- Whether no resident team owns the rows and planes that a save holds. -/
def matrixFree (s : State) (hw : Nat) (c : Saved) : Bool :=
  let core (i : Nat) : Core := coreAt s (hw * 4 + ((c.teams[i]?).map (·.core)).getD 0)
  (c.rows.all fun r => ((core r.1).row r.2.1).owner.isNone) && c.planes.all fun p => (core p.1).planeOwner.isNone

/-- Whether the warps of a save belong to a rung group homed on the cluster. -/
def rungHome (s : State) (hw : Nat) (c : Saved) : Bool :=
  c.warps.any fun w => (((gridById s w.grid).bind (·.rung)).map fun r => r.home == hw).getD false

/-- Whether the cores of a save are usable on a cluster. -/
def coresUsable (s : State) (hw : Nat) (c : Saved) : Bool :=
  c.teams.all fun t =>
    let w := (coreAt s (hw * 4 + t.core)).wear
    if c.only = some hw then w != .retired else w.takes

/-- Whether a cluster can take a save (R260). -/
def canRestore (s : State) (hw : Nat) (c : Saved) : Bool :=
  decide (hw < clusterCount) && (c.only.isNone || c.only == some hw)
    && !(s.preemptAsked.contains hw || s.testAsked.contains hw)
    && (c.warps.all fun w => modeFits s w.ctx) && coresUsable s hw c && c.teams.all (rangeFree s hw) && matrixFree s hw c
    && seatsFree s hw c
    && (!groupWaiting s hw || rungHome s hw c || c.only == some hw)

/-- A register after the restore: a released one reads as at launch (R33). -/
def restoreReg (r : LaneReg) : LaneReg := if r.released then LaneReg.launch else r

/-- A warp back in a slot. -/
def restoreWarp (s : State) (hw slot : Nat) (w : Warp) : Warp :=
  let enter (o : Option Split) : Option Split := o.map fun sp => { sp with entered := s.cycle }
  { w with
    hw := hw, slot := slot, regs := w.regs.map fun r => (r.1, restoreReg r.2)
    watch := s.cycle - w.watch, pdSince := s.cycle - w.pdSince, slotA := enter w.slotA, slotB := enter w.slotB }

def restoreTeamWarps (s : State) (hw : Nat) (c : Saved) (t : Team) : List Warp :=
  (c.warps.filter (·.team == t.id)).map fun w => restoreWarp s hw ((slotFor s hw c w).getD w.slot) w

/-- A stopped stream goes on; where none was, the first waiting one runs. -/
def restoreTeam (hw : Nat) (t : Team) : Team :=
  { t with hw := hw, slots := if t.slots.any (·.state == .running) then t.slots else startNext t.slots }

/-- First key of core offset 0 for the team at a place. -/
def coreKey (hw : Nat) (c : Saved) (i : Nat) : Nat := spKey (hw * 4 + ((c.teams[i]?).map (·.core)).getD 0) 0

/-- Names of objects at their new keys. -/
def rekey (hw : Nat) (c : Saved) (l : List (Nat × Nat × Nat)) (id : Nat) : List Nat :=
  (l.filter (·.1 == id)).map fun o => coreKey hw c o.2.1 + o.2.2

/-- Scratchpad bytes, their marks, and what names their objects. -/
def restoreScratch (s : State) (hw : Nat) (c : Saved) : State :=
  let teams := c.teams.map fun t => { t with hw := hw }
  let gone (k : Nat) : Bool := (placeIn teams k).isSome
  let landing (l : Landing) : Landing := { l with objs := l.objs ++ rekey hw c c.landObjs l.id }
  let filter (f : FilterCtx) : FilterCtx := { f with objs := f.objs ++ rekey hw c c.filterObjs f.id }
  let ladder (l : Nat × Ladder) : Nat × Ladder := (l.1, { l.2 with objs := l.2.objs ++ rekey hw c c.ladderObjs l.1 })
  { s with
    mem := c.scratch.foldl (fun m b => memPut m (coreKey hw c b.1 + b.2.1) b.2.2) (s.mem.filter fun b => !gone b.1)
    poison := (c.badWords.map fun b => (coreKey hw c b.1 + b.2) / 4) ++ s.poison.filter fun n => !gone (4 * n)
    hist := s.hist.filter fun r => !gone r.key
    barSeen := c.seen.foldl (fun t b => Tab.put t (coreKey hw c b.1 + b.2.1) b.2.2) (s.barSeen.filter fun b => !gone b.1)
    landings := s.landings.map landing
    filters := s.filters.map filter
    ladders := s.ladders.map ladder }

/-- Rows and planes with their owners. -/
def restoreMatrix (s : State) (hw : Nat) (c : Saved) : State :=
  let core (i : Nat) : Nat := hw * 4 + ((c.teams[i]?).map (·.core)).getD 0
  let s := c.rows.foldl (fun s r => modCore s (core r.1) fun k => { k with rows := Tab.put k.rows r.2.1 r.2.2 }) s
  c.planes.foldl (fun s p => modCore s (core p.1) fun k =>
    { k with active := p.2.1, shadow := p.2.2, planeOwner := (c.teams[p.1]?).map (·.id) }) s

/-- A mapping registered again, its range copied in whatever LD holds (R185). Where it cannot be registered by then, the
register stays with V = 0 and the restore goes on: DESIGN CHOICE (log 92). -/
def remap (w : Warp) (v : PathView) (s : State) (k : Nat) : State :=
  match teamById s w.team with
  | none => s
  | some t =>
    let x := t.spmap.getD k 0#64
    if x.getLsbD 63 then
      let s := modTeam s t.id fun t => { t with spmap := t.spmap.setIfInBounds k (x &&& ~~~ (1#64 <<< 63)) }
      match spmapPut s w v k (x ||| (1#64 <<< 4)) with
      | (none, s) => modTeam s t.id fun t => { t with spmap := t.spmap.setIfInBounds k x }
      | (some _, s) => s
    else s

/-- The context of a save's warps. -/
def Saved.ctx (x : Saved) : Nat := ((x.warps.head?).map (·.ctx)).getD 0

/-- Put a saved cluster onto a package cluster. -/
def restoreCluster (s : State) (hw : Nat) (c : Saved) : State :=
  let ws := c.teams.flatMap (restoreTeamWarps s hw c)
  let s := returnContext s c.ctx
  let s := restoreMatrix (restoreScratch s hw c) hw c
  let s := { s with
    saved := s.saved.filter (·.id != c.id)
    teams := s.teams ++ c.teams.map (restoreTeam hw)
    others := s.others ++ ws
    grids := s.grids.map fun g =>
      if c.teams.any (·.grid == g.id) && !g.ran.contains hw then { g with ran := g.ran ++ [hw] } else g }
  c.teams.foldl (fun s t =>
    match ws.find? (·.team == t.id) with
    | some w => (List.range 8).foldl (remap w (unitView s)) s
    | none => s) s

/-- CLUSTER_RESTORE (R260). -/
def execClusterRestore (save hw : Nat) (s : State) : Result :=
  match s.saved.find? (·.id == save) with
  | none => .next s
  | some c => .next (if canRestore s hw c then restoreCluster s hw c else s)

/-! ## In-field test (R346, R347) -/

/-- Wear periods after which a core falls due. -/
def testDue (c : Core) : Bool :=
  let h := if c.wear = .derated || c.wear = .unknown then 8 else 24
  decide (h * periodsPerHour ≤ c.sinceTest) && c.wear != .retired

/-- INFIELD_TEST (R346): a core falls due; its cluster is to be pre-empted. -/
def execInfieldTest (core : Nat) (s : State) : Result :=
  let hw := core / 4
  if s.start = .ready && testDue (coreAt s core) && !s.testAsked.contains hw then
    .next { s with testAsked := s.testAsked ++ [hw] }
  else .next s

/-- A core after its test. -/
def tested (passed : Bool) (c : Core) : Core :=
  if c.wear = .retired then c else { c with sinceTest := 0, wear := if passed then c.wear else .marked }

/-- INFIELD_TEST_DONE (R347): the test of every core but a retired one of a cluster that is empty ends, some having
failed; the gang may be restored. -/
def execInfieldTestDone (hw : Nat) (failed : List Nat) (s : State) : Result :=
  if !s.testAsked.contains hw || s.teams.any (fun t => t.hw == hw) then .next s
  else
    let passed := (liveCores s hw).all fun c => !failed.contains c
    let s := [0, 1, 2, 3].foldl (fun s c => modCore s (hw * 4 + c) (tested (!failed.contains c))) s
    let free (c : Saved) : Saved := if c.only = some hw && !passed then { c with only := none } else c
    .next { s with testAsked := s.testAsked.filter (· != hw), saved := s.saved.map free }

end Sys2Proof.Machine
end

