-- ==== Sys2Proof/Machine/Fabric.lean ====
section
/-! DEFINITION. Beyond the package: the times of cores and homes (R192), writes from other chips (R199), leases granted to
them (R198), the second-level mode (R187, R188), links (R353), failed chips (R200, R354), and grids that end because
a die or a chip is lost (R351, R354). -/

namespace Sys2Proof.Machine

/-! ## Times (R192) -/

/-- PTS_TICK (R192). -/
def execPtsTick (core : Nat) (s : State) : Result := .next (modCore s core fun c => { c with pts := c.pts + 1#48 })

/-- The home's own time: the latest of the package's cores. -/
def homeTime (s : State) : BitVec 48 :=
  match s.cores with
  | [] => 0#48
  | c :: l => l.foldl (fun t c => laterTime t c.2.pts) c.2.pts

/-- A time that lags by no more than 2^40. -/
def scrubTime (now t : BitVec 48) : BitVec 48 :=
  let lag := (now - t).toNat
  if 2 ^ 40 < lag && lag < 2 ^ 47 then now - BitVec.ofNat 48 (2 ^ 40) else t

/-- TIMESTAMP_SCRUB (R192). -/
def execTimestampScrub (line : Nat) (s : State) : Result :=
  match Tab.find? s.lineTimes line with
  | none => .next s
  | some (w, r) =>
    let now := homeTime s
    .next { s with lineTimes := Tab.put s.lineTimes line (scrubTime now w, scrubTime now r) }

/-! ## Writes and leases of other chips (R198, R199) -/

/-- The incarnation and the count of the last write applied from a chip. -/
def lastApplied (s : State) (src : Nat) : Nat × Nat := Tab.getD s.applied src (0, 0)

/-- The time of a core of another chip, which comes with its request (R192): a free value. -/
def remoteTime (s : State) : BitVec 48 := (Config.free s.draws).setWidth 48

/-- A write performed at the home for a core of another chip. -/
def homeWrite (s : State) (key : Nat) (bs : List Byte) : State :=
  stampHome (writeBytes s (PathView.start 0 s.serial) .g 0 (keysFrom key bs.length) bs false) (remoteTime s) key

/-- Whether a physical byte of the domain is homed on this chip: by its address, or registered at a scratchpad here
(R184, R198). -/
def homedHere (s : State) (key : Nat) : Bool :=
  decide (key < spBase) && (key / 2 ^ 39 == s.chip || decide (spBase ≤ home s key))

/-- Apply one write and record its number. -/
def applyRemote (s : State) (src inc n key : Nat) (bs : List Byte) : State :=
  { homeWrite s key bs with applied := Tab.put s.applied src (inc, n) }

/-- Held writes of a source that now follow without a gap. -/
def applyHeld (src inc : Nat) : Nat → State → State
  | 0, s => s
  | k + 1, s =>
    let n := (lastApplied s src).2 + 1
    match s.heldWrites.find? fun h => h.src == src && h.num == inc * 2 ^ 48 + n with
    | none => s
    | some h =>
      applyHeld src inc k (applyRemote { s with heldWrites := s.heldWrites.filter (· != h) } src inc n h.key h.bytes)

/-- A write of a source's present incarnation. -/
def takeRemote (s : State) (src inc n key : Nat) (bs : List Byte) : State :=
  let last := (lastApplied s src).2
  if n ≤ last then s
  else if n = last + 1 then applyHeld src inc s.heldWrites.length (applyRemote s src inc n key bs)
  else { s with heldWrites := s.heldWrites ++ [⟨src, inc * 2 ^ 48 + n, key, bs⟩] }

/-- REMOTE_WRITE_APPLY (R199): a write from another chip reaches its home, numbered by incarnation and count. -/
def execRemoteWriteApply (src num key : Nat) (bytes : List Byte) (s : State) : Result :=
  let inc := num / 2 ^ 48
  let n := num % 2 ^ 48
  if s.failedChips.contains src || !homedHere s key then .next s
  else if inc < (lastApplied s src).1 then .next s
  else if inc = (lastApplied s src).1 then .next (takeRemote s src inc n key bytes)
  else
    -- a new incarnation of the source
    let s := { s with applied := Tab.put s.applied src (inc, 0), heldWrites := s.heldWrites.filter (·.src != src) }
    .next (takeRemote s src inc n key bytes)

/-- REMOTE_LEASE_REQUEST (R198, R192): the home grants a lease; the requester's time comes with the request. -/
def execRemoteLeaseRequest (line chip : Nat) (s : State) : Result :=
  if s.failedChips.contains chip || !homedHere s (line * 128) then .next s
  else
    let line := home s (line * 128) / 128
    let pts := remoteTime s
    let (w, r) := Tab.getD s.lineTimes line (0#48, 0#48)
    let r' := laterTime r (laterTime (w + 64#48) (pts + 64#48))
    .next { s with
      lineTimes := Tab.put s.lineTimes line (w, r')
      remoteLeases := (line, chip, r') :: s.remoteLeases.filter fun x => !(x.1 == line && x.2.1 == chip) }

/-! ## The second-level mode (R188) -/

/-- Whether a context of this mode comes in: a grid of it has clusters to start, or a saved cluster is its (R188). -/
def incoming (s : State) (priv : Bool) : Bool :=
  let of (ctx : Nat) : Bool := ((Tab.find? s.contexts ctx).map (·.priv == priv)).getD false
  (s.grids.any fun g => !g.ended && decide (g.started < g.lr.nclust) && of g.ctx)
    || s.saved.any fun c => c.warps.any fun w => of w.ctx

/-- L2_MODE_CHANGE (R188): with no warp resident and no epoch open, the caches are emptied and the mode is set. -/
def execL2ModeChange (toPrivate : Bool) (s : State) : Result :=
  let resident := (allWarps s).any fun w => w.ended.isNone
  let open_ := s.requests.any fun r => r.epochs.any fun e => e.state == 1#3
  if resident || open_ || s.l2Private == toPrivate || !incoming s toPrivate then .next s
  else
    let empty (c : Core) : Core := { c with leases := [] }
    .next { s with l2Private := toPrivate, dieLeases := [], cores := s.cores.map fun c => (c.1, empty c.2) }

/-! ## Grids that are ended from outside (R351, R354) -/

/-- A saved warp ends: its line in the grid's record, its items dropped. -/
def endSaved (st : BitVec 8) (c : Saved) (s : State) (w : Warp) : State :=
  if w.ended.isSome || w.trailing then s
  else
    let s := dropItems s w w.alive
    let per := ((c.teams.find? (·.id == w.team)).map (·.warps)).getD 1
    modGrid s w.grid fun g => { g with
      lines := g.lines ++ [⟨w.cluster, w.teamIx * per + w.index, st, 0#8, w.retired, w.anyPc⟩]
      live := g.live - 1 }

/-- The saved clusters of a grid end. -/
def endSavedClusters (s : State) (gid : Nat) (st : BitVec 8) : State :=
  let mine (c : Saved) : Bool := c.warps.any fun w => w.grid == gid
  let s := (s.saved.filter mine).foldl (fun s c => c.warps.foldl (endSaved st c) s) s
  { s with saved := s.saved.filter fun c => !mine c }

/-- The bytes an element of a copy needs. -/
def CopyElem.needs (x : CopyElem) : List Nat := x.dst ++ match x.src with | .keys ks => ks | .bytes _ => []

/-- Copies, drains and filter writes of a grid are completed whole or discarded whole, either allowed: whole where a part has
landed, discarded where a byte cannot be reached any more. What is discarded decrements nothing (R351). -/
def settleEngines (s : State) (g : Grid) : State :=
  let whole (begun : Bool) (id : Nat) (ks : List Nat) : Bool := !ks.any (unreachable s) && (begun || Config.choice s.draws id)
  let mine (id : Nat) : Bool := g.members.contains id
  let s' := (s.drains.filter (mine ·.warp)).foldl (fun t d =>
    if whole d.begun d.id (d.items.flatMap (·.dst)) then landDrain t d
    else { t with drains := t.drains.filter (·.id != d.id) }) s
  let s' := (s.copies.filter (mine ·.warp)).foldl (fun t c =>
    if whole c.begun c.id (c.elems.flatMap CopyElem.needs) then landCopy t c 0 c.elems.length
    else { t with copies := t.copies.filter (·.id != c.id) }) s'
  let s' := (s'.filters.filter (·.grid == g.id)).foldl (fun t f =>
    if whole false (2 ^ 32 + f.id) f.resPages then
      (f.state.filter f.rowComplete).foldl (fun t x =>
        match t.filters.find? (·.id == f.id) with | some f => recordRow t f x | none => t) t
    else t) s'
  { s' with filters := s'.filters.filter (·.grid != g.id) }

/-- Every warp of a grid ends, resident or saved; no further cluster starts; its records show the status. -/
def cancelGrid (st : BitVec 8) (s : State) (gid : Nat) : State :=
  match gridById s gid with
  | none => s
  | some g =>
    if g.ended then s
    else
      let s := settleEngines s g
      let s := ((allWarps s).filter fun w => w.grid == gid && w.ended.isNone).foldl (fun s w => endWarp s w.id st 0#8 w.anyPc) s
      modGrid (endSavedClusters s gid st) gid fun g => { g with status := st, lr := { g.lr with nclust := g.started } }

/-! ## Failed chips (R200, R354) -/

/-- Whether an operation of an engine reaches a chip. -/
def reaches (chip : Nat) (ks : List Nat) : Bool := ks.any fun k => decide (k < spBase) && k / 2 ^ 39 == chip

/-- Warps with an outstanding access to a chip. -/
def waitingOn (s : State) (chip : Nat) : List Nat :=
  (s.drains.filter fun d => d.items.any fun x => reaches chip x.dst).map (·.warp)
    ++ (s.copies.filter fun c => c.elems.any fun x =>
        reaches chip x.dst || (match x.src with | .keys ks => reaches chip ks | .bytes _ => false)).map (·.warp)

/-- A task that has not launched ends with a status. -/
def endUnlaunched (st : BitVec 8) (s : State) (t : Task) : State :=
  let r : RecordData := ⟨2, st, 0#8, t.seq, 0, [], ((reqById s t.req).map (·.epochs)).getD [], [], [], [], peerLines s⟩
  endTask (writeRecord s t.ctx t.crec [] r) t.seq t.req st 0#8

/-- A request ends with a status: its grids and tasks end, and it takes no further task. -/
def abortRequest (st : BitVec 8) (s : State) (req : Nat) : State :=
  let s := modReq s req fun r => { r with lastSeen := true, results := (0, st, 0#8) :: r.results }
  let s := ((s.grids.filter fun g => g.req == req && !g.ended).map (·.id)).foldl (cancelGrid st) s
  let s := { s with submitted := s.submitted.filter fun x => x.req != some req }
  (s.tasks.filter fun t => t.req == req && !t.launched).foldl (endUnlaunched st) s

/-- The requests of warps. -/
def requestsOf (s : State) (ws : List Nat) : List Nat :=
  ((s.grids.filter fun g => ws.any g.members.contains).map (·.req)).eraseDups

/-- A peer chip is declared failed (R200, R354). -/
def declareFailed (s : State) (chip : Nat) : State :=
  if s.failedChips.contains chip || chip = s.chip then s
  else
    let hit := requestsOf s (waitingOn s chip)
    let there (line : Nat) : Bool := line * 128 / 2 ^ 39 == chip
    let drop (c : Core) : Core := { c with leases := c.leases.filter fun l => !there l.1 }
    let s := { s with
      failedChips := s.failedChips ++ [chip]
      heldWrites := s.heldWrites.filter (·.src != chip)
      dieLeases := s.dieLeases.filter fun l => !there l.2.1
      cores := s.cores.map fun c => (c.1, drop c.2) }
    hit.foldl (abortRequest 6#8) s

/-- ROUTE_LOSS_TIMEOUT (R354): every route to a peer has been down for 50 ms. -/
def execRouteLossTimeout (chip : Nat) (s : State) : Result :=
  if s.fabric.any fun p => p.2.up && p.2.partner == some chip then .next s else .next (declareFailed s chip)

/-! ## Links (R353) -/

/-- A fabric port; one that has not negotiated is down (log 3). -/
def portAt (t : Tab FabricPort) (n : Nat) : FabricPort := Tab.getD t n ⟨false, none, 0, false, false⟩

/-- The eight ports F(8g) to F(8g+7) are powered together, and only while one of them has a partner (R7, R353). -/
def powerGroup (t : Tab FabricPort) (g : Nat) : Tab FabricPort :=
  let ports := (List.range 8).map (8 * g + ·)
  let on := ports.any fun n => (portAt t n).partner.isSome
  ports.foldl (fun t n => Tab.put t n { portAt t n with powered := on }) t

/-- What a negotiation leaves (R353): the low-latency mode only at 200 Gb/s; a partner whose report does not verify
leaves the port down. -/
def linkPort (o : LinkOutcome) : FabricPort :=
  let ok := o.partner.isSome && o.attested && (o.rate == 800 || o.rate == 400 || o.rate == 200)
  ⟨ok, o.partner, if ok then o.rate else 0, ok && o.lowLatency && o.rate == 200, true⟩

/-- Fabric ports of a package: F0 to F127. -/
def fabricPorts : Nat := 128

/-- The latest incarnation of a chip that this one knows: by its report, or by its writes (R199, R353). -/
def knownIncarnation (s : State) (chip : Nat) : Nat := max (Tab.getD s.peers chip 0) (lastApplied s chip).1

/-- A chip joins the domain under an incarnation: one that was declared failed does so only under a new one (R354). -/
def joinChip (s : State) (chip inc : Nat) : State :=
  if s.failedChips.contains chip && decide (inc ≤ knownIncarnation s chip) then s
  else { s with failedChips := s.failedChips.filter (· != chip), peers := Tab.put s.peers chip inc }

/-- LINK_NEGOTIATE (R353): in the start's FABRIC state or when the package is ready. -/
def execLinkNegotiate (port : Nat) (o : LinkOutcome) (s : State) : Result :=
  if !(s.start = .fabric || s.start = .ready) || fabricPorts ≤ port then .next s
  else
    let p := linkPort o
    let s := { s with fabric := powerGroup (Tab.put s.fabric port p) (port / 8) }
    .next (match p.up, p.partner with
      | true, some c => joinChip s c o.incarnation
      | _, _ => s)

/-- FABRIC_LINK_LOSS (R353). -/
def execFabricLinkLoss (port : Nat) (s : State) : Result :=
  match Tab.find? s.fabric port with
  | none => .next s
  | some _ => .next { s with fabric := powerGroup (Tab.put s.fabric port ⟨false, none, 0, false, true⟩) (port / 8) }

end Sys2Proof.Machine
end

