-- ==== Sys2Proof/Machine/SaveArea.lean ====
section
/-! DEFINITION. The bytes of a cluster's save area (R236, R259), laid out from what a save holds, and the save that
writes them. -/

namespace Sys2Proof.Machine

/-- 2-bit states, 4 per byte. -/
def stateBits : NonFin → Nat
  | .fin => 0
  | .pinf => 1
  | .ninf => 2
  | .nan => 3

/-- One accumulator row: words, states, anchor. -/
def rowBytes (r : AccRow) : List Byte :=
  padTo 2048 (r.words.flatMap fun x => toBytesLE 16 x.w.toNat)
    ++ toBytesLE 32 ((r.words.zipIdx.take 128).foldl (fun n p => n + stateBits p.1.st * 4 ^ p.2) 0) ++ toBytesLE 2 r.anchor.toNat

/-- The accumulator part of a warp: the rows it owns. -/
def accumulatorPart (x : Saved) (w : Warp) : List Byte :=
  (x.rows.filter fun r => r.2.2.owner == some w.id).flatMap fun r => rowBytes r.2.2

/-! ## Teams -/

/-- Bytes of a range from rising listed offsets. -/
def layBytes : Nat → Nat → List (Nat × Byte) → List Byte
  | 0, _, _ => []
  | n + 1, o, [] => Memory.blank :: layBytes n (o + 1) []
  | n + 1, o, (k, b) :: t => if k = o then b :: layBytes n (o + 1) t else Memory.blank :: layBytes n (o + 1) ((k, b) :: t)

/-- A plane in its 32,768 bytes: the columns in ascending order (log 39). -/
def planeBytes (p : Plane) : List Byte := padTo 32768 p.cols.flatten

/-- The warps of a saved team, by index. -/
def Saved.warpsOf (x : Saved) (t : Team) : List Warp :=
  (List.range t.warps).filterMap fun i => x.warps.find? fun w => w.team == t.id && w.index == i

/-- The team part: SPMAP, planes, scratchpad range, divergence stack areas. -/
def teamPart (x : Saved) (t : Team) (place : Nat) : List Byte :=
  let planes := match x.planes.find? (·.1 == place) with
    | some p => planeBytes p.2.1 ++ planeBytes p.2.2
    | none => List.replicate 65536 0#8
  let cells := x.scratch.filterMap fun b => if b.1 = place ∧ t.base ≤ b.2.1 then some b.2 else none
  t.spmap.toList.flatMap (fun m => toBytesLE 8 m.toNat) ++ planes ++ layBytes t.total t.base cells
    ++ (x.warpsOf t).flatMap fun w => padTo 2048 (w.stack.flatMap (entryBytes w))

/-- A 16-byte stream record (R259). -/
def streamRecord (x : Saved) (o : StreamOp) : List Byte :=
  toBytesLE 4 (o.off % 2 ^ 32).toNat ++ toBytesLE 4 (o.stride % 2 ^ 32).toNat
    ++ [BitVec.ofNat 8 o.row, BitVec.ofNat 8 (o.left - 1), o.fmt.setWidth 8, if o.state = .running then 1#8 else 2#8,
        BitVec.ofNat 8 (((x.warps.find? (·.id == o.warp)).map (·.index)).getD 0), 0#8, 0#8, 0#8]

/-- The records of the team on core c of the cluster. -/
def coreRecords (x : Saved) (c : Nat) : List Byte :=
  padTo 32 (((x.teams.find? (·.core == c)).map (·.slots)).getD [] |>.flatMap (streamRecord x))

/-! ## The area -/

/-- The parts after the header, in the order of R236. -/
def Saved.parts (x : Saved) : List (List Byte) :=
  let ws := x.teams.flatMap x.warpsOf
  [ws.flatMap (warpBlock x.wearctx), ws.flatMap queuePart, ws.flatMap registerPart, ws.flatMap (accumulatorPart x),
   x.teams.zipIdx.flatMap fun t => teamPart x t.1 t.2]

/-- Offsets of parts that stand one after the other. -/
def offsetsFrom : Nat → List (List Byte) → List Nat
  | _, [] => []
  | n, p :: t => n :: offsetsFrom (n + p.length) t

/-- The 256 bytes of the header: eleven 32-bit words from offset 0 (log 39), then the stream records of R259. -/
def Saved.header (x : Saved) : List Byte :=
  let units := ((x.warps.head?).map (·.units)).getD 0
  let warps := ((x.teams.head?).map (·.warps)).getD 0
  let total := 256 + (x.parts.map (·.length)).sum
  padTo 128 (([0x5331344B, 1, x.teams.length, warps, units] ++ offsetsFrom 256 x.parts ++ [total]).flatMap (toBytesLE 4))
    ++ (List.range 4).flatMap (coreRecords x)

/-- The save area of a cluster (R236). -/
def Saved.area (x : Saved) : List Byte := x.header ++ x.parts.flatten

/-! ## The save -/

/-- First key of the area of a save: a 256-byte aligned place in the chip's memory, any (log 39). -/
def areaKey (s : State) (id : Nat) : Nat := hbmKey s.chip (256 * (Config.saveArea id % 2 ^ 30))

/-- The save area is written (R235). -/
def writeArea (s : State) (x : Saved) : State := putArea s (areaKey s x.id) x.area

/-- Save one cluster that still has a team. A context whose last cluster is saved leaves the package (R281). -/
def saveCluster (only : Option Nat) (s : State) (c : ClusterName) : State :=
  if (s.teams.any (·.ofCluster c)) then
    let s := releaseMappings s c
    let x := saveOf s c only
    leaveContext (writeArea (leaveCores s c x) x) x.ctx
  else s

end Sys2Proof.Machine
end

