-- ==== Sys2Proof/Machine/Start.lean ====
section
/-! DEFINITION. Start-up (R357), the ends of power (R344), the power window (R359) and the daily scrub (R355). -/

namespace Sys2Proof.Machine

/-! ## What an end of power, or of a start, leaves -/

/-- Keys of this package's memory and scratchpads. -/
def ownKey (s : State) (k : Nat) : Bool := spBase ≤ k || k / 2 ^ 39 == s.chip

/-- Everything in the package that is not in its nonvolatile store returns to its state before a start, and the cycles
count from 0 (R231); memory of other packages is theirs. `keep` says whether the package's own memory and scratchpads stay (R357: warm). -/
def afresh (s : State) (keep : Bool) : State :=
  let gone (k : Nat) : Bool := !keep && ownKey s k
  { State.reset with
    agenda := s.agenda, plan := s.plan, turn := s.turn, draws := s.draws, nextId := s.nextId
    cold := s.cold, failedStarts := s.failedStarts, incarnation := s.incarnation, chip := s.chip
    fwStore := s.fwStore, orderly := s.orderly
    mem := s.mem.filter fun b => !gone b.1
    poison := s.poison.filter fun n => !gone (4 * n)
    hist := s.hist.filter fun r => !gone r.key
    serial := s.serial
    -- a core marked for retirement, or retired, is so at every later start (R340, R357; log 58)
    cores := (s.cores.filter fun c => c.2.wear = .marked || c.2.wear = .retired).map fun c =>
      (c.1, { Core.init with wear := .marked })
    lifeA := s.lifeA, lifeB := s.lifeB }

/-! ## The states of a start (R357) -/

/-- SUPPLIES_UP (R357): from OFF, or a reset of a ready package with its supplies held: a warm start. -/
def execSuppliesUp (s : State) : Result :=
  if s.start = .off then .next { s with start := .fuse, cycle := 0 }
  else if s.start = .ready then .next { afresh s true with start := .fuse, cold := false }
  else .next s

/-- FUSE_READ (R357). -/
def execFuseRead (s : State) : Result := .next (if s.start = .fuse then { s with start := .rom } else s)

/-- A step of a start fails (R357): OFF, and RECOVERY after the third failed start. -/
def failStart (s : State) : State :=
  let n := s.failedStarts + 1
  { afresh s true with failedStarts := n, start := if 3 ≤ n then .recovery else .off }

/-- ROM_LOAD (R357): the newest image of the nonvolatile store. -/
def execRomLoad (s : State) : Result :=
  if s.start ≠ .rom then .next s
  else match s.fwStore with
    | image :: _ => .next { s with fwRunning := image, start := .fwchk }
    | [] => .next (failStart s)

/-- FW_VERIFY (R356, R357). -/
def execFwVerify (s : State) : Result :=
  if s.start ≠ .fwchk then .next s
  else .next (if Config.firmwareVerifies s.fwRunning then { s with start := .hbm } else failStart s)

/-- HBM_INIT (R357): a warm start whose settings fail their check continues as a cold start. -/
def execHbmInit (settingsCheck : Bool) (s : State) : Result :=
  .next (if s.start = .hbm then { s with start := .wear, cold := s.cold || !settingsCheck } else s)

/-- WEAR_LOAD (R344, R357). -/
def execWearLoad (s : State) : Result :=
  .next (if s.start = .wear then
    { loadLife s with start := .fabric, incarnation := (s.incarnation + 1) % 2 ^ 16 } else s)

/-- FABRIC_BRINGUP (R353, R357). -/
def execFabricBringup (s : State) : Result := .next (if s.start = .fabric then { s with start := .scan } else s)

/-- A core that fails a self-test (R340, R347). -/
def markCore (s : State) (core : Nat) : State :=
  modCore s core fun c => if c.wear = .retired then c else { c with wear := .marked }

/-- SCAN_SELF_TEST (R357): skipped in a warm start. -/
def execScanSelfTest (failing : List Nat) (s : State) : Result :=
  if s.start ≠ .scan then .next s
  else
    let s := if s.cold then (failing.filter fun c => decide (c < coreCount)).foldl markCore s else s
    .next { s with start := .clear }

/-- All memory and every scratchpad of the package written to zero. -/
def clearMemory (s : State) : State :=
  { s with
    mem := s.mem.filter fun b => !ownKey s b.1
    poison := s.poison.filter fun n => !ownKey s (4 * n)
    hist := s.hist.filter fun r => !ownKey s r.key }

/-- MEMORY_CLEAR (R357): skipped in a warm start; the package is ready. -/
def execMemoryClear (s : State) : Result :=
  if s.start ≠ .clear then .next s
  else .next { (if s.cold then clearMemory s else s) with start := .ready, failedStarts := 0, cold := false, orderly := true }

/-- START_FAIL (R357): a step of a start fails. -/
def execStartFail (s : State) : Result :=
  match s.start with
  | .off | .ready | .recovery => .next s
  | _ => .next (failStart s)

/-! ## Ends of power (R344) -/

/-- POWER_LOSS (R344): the next start is cold, and charges what may have been lost. -/
def execPowerLoss (s : State) : Result :=
  .next { afresh s false with start := .off, cold := true, orderly := s.orderly && s.start == .off }

/-- ORDERLY_SHUTDOWN (R344): the lifetime record is written to both copies. -/
def execOrderlyShutdown (s : State) : Result :=
  if s.start = .ready then .next { afresh (writeLife s) false with start := .off, cold := true, orderly := true }
  else .next s

/-! ## Power and scrubbing -/

/-- POWER_WINDOW (R359): every core is derated in the window after one above 3,200 W, until one below 3,050 W. -/
def execPowerWindow (milliwatts : Nat) (s : State) : Result :=
  .next (if 3200000 < milliwatts then { s with powerDerated := true }
    else if milliwatts < 3050000 then { s with powerDerated := false } else s)

/-- HBM_SCRUB (R355): a stack's daily scrub is complete; every poison mark stays. -/
def execHbmScrub (stack : Nat) (s : State) : Result :=
  if stack < 8 then .next { s with scrubs := Tab.put s.scrubs stack s.cycle } else .next s

end Sys2Proof.Machine
end

