-- ==== Sys2Proof/Machine/Host.lean ====
section
/-! DEFINITION. The host ports (R348 to R352): registers, task submission (R288), semaphores, DMA on path H (R194, R197), and
the commands of the mailboxes (R350, R351, R354, R356). -/

namespace Sys2Proof.Machine

/-! ## Ports and mailboxes -/

def portOf (s : State) : HostPort → Port
  | .a => s.portA
  | .b => s.portB

def modPort (s : State) (p : HostPort) (f : Port → Port) : State :=
  match p with
  | .a => { s with portA := f s.portA }
  | .b => { s with portB := f s.portB }

/-- Virtual functions of a port (R348). -/
def vfCount : Nat := 16

/-- Whether an access came through a virtual function. -/
def viaVf (c : Cmd) : Bool := c.fn != 0

def boxAt (p : Port) (fn : Nat) : Mailbox := Tab.getD p.boxes fn Mailbox.init

def boxOf (s : State) (c : Cmd) : Mailbox := boxAt (portOf s c.port) c.fn

def modBox (s : State) (c : Cmd) (f : Mailbox → Mailbox) : State :=
  modPort s c.port fun p => { p with boxes := Tab.put p.boxes c.fn (f (boxAt p c.fn)) }

/-- Store bytes into a list at an offset, the list being zero beyond its end. -/
def poke (l : List Byte) (size off : Nat) (bs : List Byte) : List Byte :=
  (List.range size).map fun k =>
    if off ≤ k && k < off + bs.length then bs.getD (k - off) 0#8 else l.getD k 0#8

/-- STATUS stands in bytes 4 to 7 of the command record (R350). -/
def Mailbox.report (m : Mailbox) (status : Word) : Mailbox :=
  { m with status := status, record := poke m.record 64 4 (toBytesLE 4 status.toNat) }

/-- A result stands in bytes 56 to 63 of the record (log 65). -/
def Mailbox.answer (m : Mailbox) (result : DWord) : Mailbox :=
  { m with result := result, record := poke m.record 64 56 (toBytesLE 8 result.toNat) }

/-- STATUS is written last, then vector 0 is signalled. -/
def Mailbox.finish (m : Mailbox) (status : Word) : Mailbox := { m.report status with signals := m.signals + 1 }

def endCmd (s : State) (c : Cmd) (status : Nat) : State := modBox s c (·.finish (BitVec.ofNat 32 status))

/-- A command done with a result. -/
def endWith (s : State) (c : Cmd) (result : DWord) : State := endCmd (modBox s c (·.answer result)) c 0

/-! ## Task submission (R288) -/

/-- Size of a task record. -/
def taskBytes : Nat := 160

/-- Records that a window's queue takes. -/
def windowMax : Nat := 64

/-- The number of a function's window. -/
def windowKey (fn win : Nat) : Nat := 8 * fn + win

def windowAt (p : Port) (key : Nat) : TaskWindow := Tab.getD p.windows key ⟨[], 0, false⟩

/-- Every H write so far takes its place in the generic order (R197). -/
def fenceHost (s : State) : State := fenceAll s fun r => r.path == .h && r.fenced.isNone

/-- The record as it stands enters its window's queue, or is dropped where FREE is 0. A virtual function's windows belong
to its context, those of the physical function to the context that BAR2 is a window on (log 65). -/
def submitRecord (c : Cmd) (win : Nat) (s : State) : State :=
  let key := windowKey c.fn win
  let p := portOf s c.port
  let w := windowAt p key
  let put (w : TaskWindow) (s : State) : State := modPort s c.port fun p => { p with windows := Tab.put p.windows key w }
  if windowMax ≤ w.queued then put { w with dropped := true } s
  else
    let s := fenceHost s
    let x : Submission := {
      id := s.nextId, ctx := if viaVf c then c.ctx else p.bar2Ctx, window := some (c.port, key), req := none
      bytes := poke w.record taskBytes taskBytes [], warp := none }
    { put { w with queued := w.queued + 1 } s with nextId := s.nextId + 1, submitted := s.submitted ++ [x] }

/-- TASK_SUBMIT (R288): a write to SUBMIT, once the package is ready (R357). -/
def execTaskSubmit (c : Cmd) (win : BitVec 3) (s : State) : Result :=
  .next (if s.start = .ready && decide (c.fn ≤ vfCount) then submitRecord c win.toNat s else s)

/-! ## Semaphores (R352) -/

/-- The word of a semaphore held by a port. -/
def heldBy : HostPort → Word
  | .a => 0x80000001#32
  | .b => 0x80000002#32

/-- Whether a port holds a semaphore of IOD0. -/
def holds (s : State) (p : HostPort) (n : Nat) : Bool := s.sems0.getD n 0#32 == heldBy p

def semList (s : State) (iod : Bool) : Vector Word 16 := if iod then s.sems1 else s.sems0
def setSems (s : State) (iod : Bool) (l : Vector Word 16) : State := if iod then { s with sems1 := l } else { s with sems0 := l }

/-- A free semaphore is taken for the writing port. -/
def acquireSem (port : HostPort) (iod : Bool) (n : BitVec 4) (s : State) : State :=
  let l := semList s iod
  if l[n.toNat]'n.isLt = 0#32 then setSems s iod (l.set n.toNat (heldBy port) n.isLt) else s

/-- A semaphore is released by its owner alone. -/
def releaseSem (port : HostPort) (iod : Bool) (n : BitVec 4) (s : State) : State :=
  let l := semList s iod
  if l[n.toNat]'n.isLt = heldBy port then setSems s iod (l.set n.toNat 0#32 n.isLt) else s

/-- Whether a port presents its semaphores: not without power, and not in RECOVERY (R358). -/
def semsShown (s : State) : Bool := s.start != .off && s.start != .recovery

/-- SEM_ACQUIRE (R352). -/
def execSemAcquire (port : HostPort) (iod : Bool) (n : BitVec 4) (s : State) : Result :=
  .next (if semsShown s then acquireSem port iod n s else s)

/-- SEM_RELEASE (R352). -/
def execSemRelease (port : HostPort) (iod : Bool) (n : BitVec 4) (s : State) : Result :=
  .next (if semsShown s then releaseSem port iod n s else s)

/-- HOST_LINK_DOWN (R352): where the port's link goes down, or its function is reset, its semaphores are released. No rule
gives either a further effect. -/
def execHostLinkDown (loss : PortLoss) (s : State) : Result :=
  let free (x : Word) : Word := if x = heldBy loss.port then 0#32 else x
  .next { s with sems0 := s.sems0.map free, sems1 := s.sems1.map free }

/-! ## Reads of registers (R349, R288, R350) -/

/-- First offsets in BAR0: of the physical function, or of a virtual one. -/
def windowsBase (fn : Nat) : Nat := if fn = 0 then 0x10000 else 0
def mailboxBase (fn : Nat) : Nat := if fn = 0 then 0x20000 else 0x1000

/-- Part number. -/
def partNumber : Nat := 4512

/-- The identity registers, four words (log 65). -/
def identity (s : State) : List Byte :=
  toBytesLE 4 partNumber ++ toBytesLE 4 s.chip ++ toBytesLE 4 s.incarnation ++ toBytesLE 4 (Config.firmwareVersion s.fwRunning)

/-- A window as it reads: record, SUBMIT, FREE, STATUS. -/
def TaskWindow.bytes (w : TaskWindow) : List Byte :=
  poke w.record taskBytes taskBytes [] ++ List.replicate 8 0#8 ++ toBytesLE 4 (windowMax - w.queued)
    ++ toBytesLE 4 (if w.dropped then 1 else 0)

/-- One byte of BAR0 of a function; in RECOVERY only the identity and the mailbox are presented (R358). -/
def regByte (s : State) (port : HostPort) (fn off : Nat) : Byte :=
  let p := portOf s port
  let wb := windowsBase fn
  let mb := mailboxBase fn
  if mb ≤ off && off < mb + 64 then (poke (boxAt p fn).record 64 64 []).getD (off - mb) 0#8
  else if fn = 0 && off < 0x10000 then (identity s).getD off 0#8
  else if s.start ≠ .ready then 0#8
  else if wb ≤ off && off < wb + 256 * 8 then
    (windowAt p (windowKey fn ((off - wb) / 256))).bytes.getD ((off - wb) % 256) 0#8
  else if fn = 0 && 0x30000 ≤ off && off < 0x30080 then
    let n := BitVec.ofNat 4 ((off - 0x30000) / 4)
    (toBytesLE 4 ((semList s (0x30040 ≤ off))[n.toNat]'n.isLt).toNat).getD (off % 4) 0#8
  else if fn = 0 then Tab.getD p.regs off 0#8
  else 0#8

/-! ## DMA on path H (R194, R195, R197, R348) -/

/-- What a host knows: after a completion record it has read, every write of its grid, task or request on every path
(R197). -/
def hostView (s : State) : PathView :=
  { PathView.start 0 0 with
    hor := s.hostSeen.flatMap fun c => c.2.flatMap fun w => [(.h, some (2 * w), c.1), (.h, some (2 * w + 1), c.1)]
    crossed := (landingsOf s s.hostSeen).map (·, .h) }

/-- Size of BAR2. -/
def bar2Size : Nat := 2 ^ 36

/-- Bytes of BAR2, page by page; none where an address cannot be read. -/
def hostRead (ctx : Nat) : Nat → DWord → Nat → State → Option (List Byte × List Nat) × State
  | 0, _, _, s => (some ([], []), s)
  | k + 1, va, n, s =>
    if n = 0 then (some ([], []), s)
    else
      let now := min n (2 ^ 18 - va.toNat % 2 ^ 18)
      match unitPlace s ctx .read va with
      | (none, s) => (none, s)
      | (some key, s) =>
        let keys := keysFrom key now
        let bs := readBytes s (hostView s) .h 0 keys
        match hostRead ctx k (va + BitVec.ofNat 64 now) (n - now) s with
        | (some (rest, ks), s) => (some (bs ++ rest, keys ++ ks), s)
        | (none, s) => (none, s)

/-- Whether a virtual address of a context is constant memory of an image of which a grid is left, which the host may not
write (R210). -/
def constInUse (s : State) (ctx va : Nat) : Bool :=
  s.images.any fun m => m.2.ctx == ctx && decide (m.2.constLo.toNat ≤ va) && decide (va < m.2.constHi.toNat)
    && s.grids.any fun g => g.image == m.1 && !g.ended

/-- Mark the writes since a serial of these keys as made in breach: a lane may see each of them or not (R210). -/
def markBreach (s : State) (since : Nat) (ks : List Nat) : State :=
  if ks.isEmpty then s
  else { s with hist := s.hist.map fun r => if since < r.serial && ks.contains r.key then { r with breach := true } else r }

/-- Write bytes of one page on path H. -/
def hostStore (s : State) (ctx : Nat) (va : DWord) (key : Nat) (bs : List Byte) : State :=
  let (land, s) := newLanding s .h []
  let bad := (List.range bs.length).filter fun i => constInUse s ctx (va.toNat + i)
  markBreach (writeBytes s (hostView s) .h land (keysFrom key bs.length) bs false) s.serial
    (bad.map fun i => home s (key + i))

/-- Write bytes on path H; parts that cannot be written are left out. -/
def hostWrite (ctx : Nat) : Nat → List Byte → DWord → State → State
  | 0, _, _, s => s
  | k + 1, bs, va, s =>
    if bs.isEmpty then s
    else
      let room := 2 ^ 18 - va.toNat % 2 ^ 18
      let next := hostWrite ctx k (bs.drop room) (va + BitVec.ofNat 64 room)
      match unitPlace s ctx .write va with
      | (none, s) => next s
      | (some key, s) => next (hostStore s ctx va key (bs.take room))

/-- Size of BAR0 of a function (R349). -/
def bar0Size (fn : Nat) : Nat := if fn = 0 then 2 ^ 20 else 2 ^ 16

/-- The data that a host access returns. -/
def returnData (s : State) (port : HostPort) (bs : List Byte) : State := modPort s port fun p => { p with data := bs }

/-- HOST_DMA (R348, R349, R358): a read or write of device memory through BAR2, once the package is ready, or a read of a
function's registers. -/
def execHostDma (port : HostPort) (off : Nat) (op : DmaOp) (s : State) : Result :=
  let p := portOf s port
  let va := p.bar2 + BitVec.ofNat 64 off
  let open_ := s.start = .ready && decide (off < bar2Size)
  .next (match op with
    | .write bs =>
      let bs := bs.take (bar2Size - off)
      if open_ then hostWrite p.bar2Ctx (bs.length / 2 ^ 18 + 2) bs va s else s
    | .read len =>
      if !open_ then s
      else
        let len := min len (bar2Size - off)
        match hostRead p.bar2Ctx (len / 2 ^ 18 + 2) va len s with
        | (some (bs, ks), s) => returnData { s with hostSeen := s.hostSeen ++ recordsRead s ks bs } port bs
        | (none, s) => returnData s port []
    | .regs fn len =>
      if (s.start = .ready || s.start = .recovery) && decide (fn ≤ vfCount) then
        returnData s port ((List.range (min len (bar0Size fn - off))).map fun i => regByte s port fn (off + i))
      else s)

/-! ## Contexts -/

/-- The lowest number that names no context. -/
def freeContext (s : State) : Nat :=
  (List.range (s.contexts.length + 1)).foldl (fun n k => if n = k && (Tab.find? s.contexts k).isSome then k + 1 else n) 0

/-- Operands of CTX.CREATE that the rules admit (R231, R237). -/
def ctxOperandsOk (o : CtxOperands) : Bool :=
  decide (1 ≤ o.n ∧ o.n ≤ 25) && o.root % 2 ^ 10 == 0 && decide (o.root < 2 ^ 39)
    && decide (o.seqbase.toNat < 2 ^ 57) && decide (o.tvec.toNat < 2 ^ 57) && o.tvec.toNat % 256 == 0

/-- CTX.CREATE (R350): the result is the context's number. -/
def doCtxCreate (c : Cmd) (o : CtxOperands) (s : State) : State :=
  if !ctxOperandsOk o then endCmd s c 1
  else
    let n := freeContext s
    let x : Context := ⟨o.root, o.n, o.seqbase, o.nseq, o.tvec, o.redundant, o.priv, 0⟩
    endWith { s with contexts := Tab.put s.contexts n x } c (BitVec.ofNat 64 n)

/-- Whether a grid of a context is resident. -/
def contextBusy (s : State) (ctx : Nat) : Bool :=
  (allWarps s).any (fun w => w.ctx == ctx && w.ended.isNone) || s.saved.any (fun x => x.warps.any fun w => w.ctx == ctx)

/-- CTX.DESTROY (R350): refused with 3 while a grid of it is resident. -/
def doCtxDestroy (c : Cmd) (ctx : Nat) (s : State) : State :=
  if (Tab.find? s.contexts ctx).isNone then endCmd s c 1
  else if contextBusy s ctx then endCmd s c 3
  else endCmd { s with
    contexts := Tab.del s.contexts ctx
    images := s.images.filter fun m => m.2.ctx != ctx
    cqueues := s.cqueues.filter fun q => q.1 / 1280 != ctx
    tlb := s.tlb.filter fun t => t.ctx != ctx } c 0

/-! ## Salvage domains (R261, R272) -/

/-- Limits of a domain's sizes (R261). -/
def domainSizes (cistern catalogue : Nat) : Bool :=
  cistern % 2 ^ 25 == 0 && decide (0 < cistern) && decide (cistern ≤ 2 ^ 37)
    && [12, 13, 14, 15, 16, 17, 18, 19, 20, 21, 22, 23, 24].any fun k => catalogue == 2 ^ k

/-- DOM.OPEN (R261, R350). -/
def doDomOpen (c : Cmd) (dom : BitVec 16) (salt : DWord) (cistern catalogue : Nat) (s : State) : State :=
  let old := Tab.find? s.domains dom.toNat
  if 256 ≤ dom.toNat || !domainSizes cistern catalogue then endCmd s c 1
  else if (old.map (·.isOpen)).getD false then endCmd s c 3
  else match unitRead s c.ctx salt 32 with
    | (none, s) => endCmd s c 1
    | (some bs, s) =>
      let d : Domain := ⟨true, ((old.map (·.gen)).getD 0) + 1, bs, cistern, 0, catalogue, []⟩
      endCmd { s with domains := Tab.put s.domains dom.toNat d } c 0

/-- Empty a domain's catalogue; its cistern is free again. -/
def emptyDomain (s : State) (dom : Nat) (isOpen : Bool) : State :=
  modDomain s dom fun d => { d with isOpen := isOpen, entries := [], used := 0 }

/-- A command on an open domain: its catalogue is emptied. -/
def domCommand (c : Cmd) (dom : BitVec 16) (isOpen : Bool) (s : State) : State :=
  if ((Tab.find? s.domains dom.toNat).map (·.isOpen)).getD false then endCmd (emptyDomain s dom.toNat isOpen) c 0
  else endCmd s c 1

/-- DOM.CLEAR (R350). -/
def doDomClear (c : Cmd) (dom : BitVec 16) (s : State) : State := domCommand c dom true s

/-- DOM.CLOSE (R350). -/
def doDomClose (c : Cmd) (dom : BitVec 16) (s : State) : State := domCommand c dom false s

/-! ## PREEMPT, INVAL, PEERSEQ, PEERFAIL, WINDOW (R350) -/

/-- PREEMPT (R350): STATUS reads as running until the save is written. -/
def doPreempt (c : Cmd) (hw : Nat) (s : State) : State :=
  if clusterCount ≤ hw then endCmd s c 1
  else
    let s := modBox s c fun m => { m.report 0xFFFFFFFF#32 with busy := some hw }
    { s with preemptAsked := if s.preemptAsked.contains hw then s.preemptAsked else s.preemptAsked ++ [hw] }

/-- INVAL (R240, R350). -/
def doInval (c : Cmd) (va : DWord) (s : State) : State :=
  endCmd (dropPage s c.ctx va) c 0

/-- PEERSEQ (R199, R350). -/
def doPeerseq (c : Cmd) (chip : Nat) (s : State) : State :=
  let (i, n) := lastApplied s chip
  endWith s c (BitVec.ofNat 64 (i * 2 ^ 48 + n))

/-- PEERFAIL (R354). -/
def doPeerfail (c : Cmd) (chip : Nat) (s : State) : State :=
  endCmd (declareFailed s chip) c 0

/-- WINDOW (R350). -/
def doWindow (c : Cmd) (base : DWord) (s : State) : State :=
  if base.toNat % bar2Size ≠ 0 || 2 ^ 56 ≤ base.toNat || (Tab.find? s.contexts c.ctx).isNone then endCmd s c 1
  else endCmd (modPort s c.port fun p => { p with bar2 := base, bar2Ctx := c.ctx }) c 0

/-- UNLISTED_COMMAND_CODE (R350): STATUS 1. -/
def doUnlisted (c : Cmd) (_code : Word) (s : State) : State :=
  endCmd s c 1

/-! ## Firmware and attestation (R356) -/

/-- The bytes of an image: in RECOVERY, without contexts, the address is physical. -/
def imageBytes (s : State) (ctx : Nat) (addr : DWord) (len : Nat) : Option (List Byte) × State :=
  if s.start = .recovery then
    (some ((keysFrom (hbmKey s.chip addr.toNat) len).map (memGet s.mem)), s)
  else unitRead s ctx addr len

/-- FW.UPDATE (R356): a verified image enters the nonvolatile store; in RECOVERY it also ends that state (R357). -/
def doFwUpdate (c : Cmd) (addr : DWord) (len : Nat) (s : State) : State :=
  match imageBytes s c.ctx addr len with
  | (none, s) => endCmd s c 1
  | (some image, s) =>
    if Config.firmwareVerifies image then
      let s := endCmd { s with fwStore := image :: s.fwStore } c 0
      if s.start = .recovery then { s with start := .off, failedStarts := 0, cold := true } else s
    else endCmd s c 4

/-- The content of a report: nonce, measurements, incarnation. -/
def reportBody (s : State) (nonce : List Byte) : List Byte :=
  nonce ++ shake256 32 Config.fuses ++ shake256 32 Config.rom ++ shake256 32 s.fwRunning
    ++ shake256 32 (toBytesLE 8 (max s.lifeA.generation s.lifeB.generation)) ++ toBytesLE 2 s.incarnation

/-- ATTEST (R356): the report and its signature are written at the address; in RECOVERY a physical one. -/
def doAttest (c : Cmd) (nonce : List Byte) (addr : DWord) (s : State) : State :=
  if nonce.length ≠ 32 then endCmd s c 1
  else
    let body := reportBody s nonce
    let bs := body ++ Config.attestSignature body
    endCmd (if s.start = .recovery then
        writeBytes s (PathView.start 0 s.serial) .g 0 (keysFrom (hbmKey s.chip addr.toNat) bs.length) bs false
      else (unitWrite c.ctx (bs.length / 2 ^ 18 + 2) bs addr s).2) c 0

/-! ## DIE.RESET (R351) -/

def onDie (die hw : Nat) : Bool := hw / 40 == die

/-- Grids with a warp on the die. -/
def gridsOnDie (s : State) (die : Nat) : List Nat :=
  (((allWarps s).filter fun w => onDie die w.hw && w.ended.isNone).map (·.grid)).eraseDups

/-- Items of the ladders homed on the die are dropped. -/
def dropDieItems (s : State) (die : Nat) : State :=
  let st (x : ItemState) : ItemState := match x with | .resolved => .resolved | _ => .dropped
  let l (p : Nat × Ladder) : Nat × Ladder :=
    if onDie die (p.1 / 4) then (p.1, { p.2 with items := p.2.items.map st, groups := [] }) else p
  { s with ladders := s.ladders.map l }

/-- The hardware part of each queue of the die's clusters is written to its block. -/
def saveDieQueues (s : State) (die : Nat) : State :=
  ((s.cqueues.map (·.1)).filter fun k => onDie die (k % 1280 / 8)).foldl (fun s key =>
    let ctx := key / 1280
    let hw := key % 1280 / 8
    match s.images.findSome? fun m => if m.2.ctx = ctx then m.2.queue (key % 8) else none with
    | some d => blockWrite s ctx (hw * 4) (d.block hw) (queueAt s ctx hw (key % 8)).save
    | none => s) s

/-- Epochs that held a version in the die's slices are squashed; the versions are discarded. -/
def squashDie (s : State) (die : Nat) : State :=
  let mine := s.versions.filter fun x => versionDie s x.record.writer x.record.key == (s.chip, die)
  ((mine.map fun x => (x.req, x.epoch)).eraseDups).foldl (fun s e => squashFrom s e.1 e.2) s

/-- Scratchpads, accumulator stores, planes, and the caches of the die's cores are cleared. -/
def clearDie (s : State) (die : Nat) : State :=
  let mine (k : Nat) : Bool := decide (spBase ≤ k) && onDie die ((k - spBase) / 2 ^ 19 / 4)
  let blank : Plane := ⟨0#4, [], []⟩
  let core (c : Nat × Core) : Nat × Core :=
    if onDie die (c.1 / 4) then
      (c.1, { c.2 with rows := [], active := blank, shadow := blank, planeOwner := none, replay := [[], [], [], []], leases := [] })
    else c
  { s with
    mem := s.mem.filter fun b => !mine b.1
    poison := s.poison.filter fun n => !mine (4 * n)
    hist := s.hist.filter fun r => !mine r.key
    cores := s.cores.map core
    tlb := s.tlb.filter fun t => !onDie die (t.core / 4)
    dieLeases := s.dieLeases.filter (·.1 != die) }

/-- An event that the package raises at once. -/
def atOnce (e : State → Result) (s : State) : State := match e s with | .next t => t | _ => s

/-- The records of a grid that has ended are written, its complete ladders first. -/
def finishGrid (s : State) (gid : Nat) : State :=
  let mine := s.ladders.filter (·.2.grid == gid)
  atOnce (execGridEnd gid) (mine.foldl (fun s l => atOnce (execLadderComplete (l.1 / 4) (l.1 % 4)) s) s)

/-- The die is reset: the steps of R351 in order. -/
def resetDie (s : State) (die : Nat) (failing : List Nat) : State :=
  let gone := gridsOnDie s die
  let s := gone.foldl (cancelGrid 4#8) s
  let s := saveDieQueues (dropDieItems s die) die
  let s := clearDie (squashDie (gone.foldl finishGrid s) die) die
  (failing.filter fun c => onDie die (c / 4) && decide (c < coreCount)).foldl markCore s

/-- DIE.RESET (R351): the cores that fail the self-test come with the event. -/
def doDieReset (c : Cmd) (die : BitVec 2) (failing : List Nat) (s : State) : State :=
  endCmd (resetDie s die.toNat failing) c 0

/-! ## The commands of a mailbox, one after another (R350) -/

/-- Whether a command is marked VF. -/
def HostCmd.vf : HostCmd → Bool
  | .preempt _ | .inval _ | .peerseq _ | .attest _ _ | .window _ | .unlisted _ => true
  | _ => false

/-- The semaphore of IOD0 that a command needs. -/
def HostCmd.sem : HostCmd → Option Nat
  | .ctxCreate _ | .ctxDestroy _ => some 6
  | .domOpen _ _ _ _ | .domClear _ | .domClose _ => some 5
  | .peerfail _ => some 7
  | .dieReset die _ => some die.toNat
  | .fwUpdate _ _ => some 4
  | _ => none

/-- Commands that RECOVERY accepts (R358). -/
def HostCmd.recovers : HostCmd → Bool
  | .fwUpdate _ _ | .attest _ _ => true
  | _ => false

/-- What a command does. -/
def HostCmd.act (c : Cmd) : HostCmd → State → State
  | .ctxCreate o, s => doCtxCreate c o s
  | .ctxDestroy ctx, s => doCtxDestroy c ctx s
  | .domOpen dom salt ci ca, s => doDomOpen c dom salt ci ca s
  | .domClear dom, s => doDomClear c dom s
  | .domClose dom, s => doDomClose c dom s
  | .preempt hw, s => doPreempt c hw s
  | .inval va, s => doInval c va s
  | .peerseq chip, s => doPeerseq c chip s
  | .peerfail chip, s => doPeerfail c chip s
  | .dieReset die failing, s => doDieReset c die failing s
  | .fwUpdate addr len, s => doFwUpdate c addr len s
  | .attest nonce addr, s => doAttest c nonce addr s
  | .window base, s => doWindow c base s
  | .unlisted code, s => doUnlisted c code s

/-- A command starts: its function, then its semaphore. -/
def startCmd (c : Cmd) (k : HostCmd) (s : State) : State :=
  if viaVf c && !k.vf then endCmd s c 1
  else match k.sem with
    | some n => if holds s c.port n then k.act c s else endCmd s c 2
    | none => k.act c s

/-- A write of DOORBELL (R350, R358): the ports are up in READY, and in RECOVERY for two commands; a command waits while
another of its mailbox runs. -/
def command (c : Cmd) (k : HostCmd) (s : State) : Result :=
  if vfCount < c.fn then .next s
  else if s.start = .recovery then .next (if k.recovers && (k.vf || !viaVf c) then k.act c s else endCmd s c 1)
  else if s.start ≠ .ready then .next s
  else if (boxOf s c).busy.isSome then .next (modBox s c fun m => { m with waiting := m.waiting ++ [(c, k)] })
  else .next (startCmd c k s)

/-- CTX.CREATE (R350). -/
def execCtxCreate (c : Cmd) (o : CtxOperands) : State → Result := command c (.ctxCreate o)
/-- CTX.DESTROY (R350). -/
def execCtxDestroy (c : Cmd) (ctx : Nat) : State → Result := command c (.ctxDestroy ctx)
/-- DOM.OPEN (R350). -/
def execDomOpen (c : Cmd) (dom : BitVec 16) (salt : DWord) (cistern catalogue : Nat) : State → Result :=
  command c (.domOpen dom salt cistern catalogue)
/-- DOM.CLEAR (R350). -/
def execDomClear (c : Cmd) (dom : BitVec 16) : State → Result := command c (.domClear dom)
/-- DOM.CLOSE (R350). -/
def execDomClose (c : Cmd) (dom : BitVec 16) : State → Result := command c (.domClose dom)
/-- PREEMPT (R350). -/
def execPreempt (c : Cmd) (hw : Nat) : State → Result := command c (.preempt hw)
/-- INVAL (R350). -/
def execInval (c : Cmd) (va : DWord) : State → Result := command c (.inval va)
/-- PEERSEQ (R350). -/
def execPeerseq (c : Cmd) (chip : Nat) : State → Result := command c (.peerseq chip)
/-- PEERFAIL (R354). -/
def execPeerfail (c : Cmd) (chip : Nat) : State → Result := command c (.peerfail chip)
/-- DIE.RESET (R351). -/
def execDieReset (c : Cmd) (die : BitVec 2) (failing : List Nat) : State → Result := command c (.dieReset die failing)
/-- FW.UPDATE (R356). -/
def execFwUpdate (c : Cmd) (addr : DWord) (len : Nat) : State → Result := command c (.fwUpdate addr len)
/-- ATTEST (R356). -/
def execAttest (c : Cmd) (nonce : List Byte) (addr : DWord) : State → Result := command c (.attest nonce addr)
/-- WINDOW (R350). -/
def execWindow (c : Cmd) (base : DWord) : State → Result := command c (.window base)
/-- UNLISTED_COMMAND_CODE (R350). -/
def execUnlistedCommandCode (c : Cmd) (code : Word) : State → Result := command c (.unlisted code)

/-! ## Writes of registers (R349, R350) -/

/-- The command in a record (R350), its operands in the order of the table from byte 8, each aligned to its size (log 65).
An operand that no command form holds is a bad one: STATUS 1, as for a code not listed. The cores of a die that fail their
self-test are a free choice. -/
def decodeCmd (draws : Nat) (r : List Byte) : HostCmd :=
  let code := BitVec.ofNat 32 (field r 0 4)
  let n (off : Nat) : Nat := field r off 4
  let a (off : Nat) : DWord := BitVec.ofNat 64 (field r off 8)
  let dom := BitVec.ofNat 16 (n 8)
  if code = 0x01#32 then
    .ctxCreate ⟨field r 8 8, n 16, a 24, n 32, a 40, (field r 48 1).testBit 0, (field r 48 1).testBit 1⟩
  else if code = 0x02#32 then .ctxDestroy (n 8)
  else if code = 0x03#32 && decide (n 8 < 2 ^ 16) then .domOpen dom (a 16) (field r 24 8) (field r 32 8)
  else if code = 0x04#32 && decide (n 8 < 2 ^ 16) && field r 12 1 == 0 then .domClear dom
  else if code = 0x04#32 && decide (n 8 < 2 ^ 16) && field r 12 1 == 1 then .domClose dom
  else if code = 0x05#32 then .preempt (n 8)
  else if code = 0x06#32 then .inval (a 8)
  else if code = 0x07#32 then .peerseq (n 8)
  else if code = 0x08#32 then .peerfail (n 8)
  else if code = 0x09#32 && decide (n 8 < 4) then
    .dieReset (BitVec.ofNat 2 (n 8)) ((List.range coreCount).filter (Config.choice draws))
  else if code = 0x0A#32 then .fwUpdate (a 8) (field r 16 8)
  else if code = 0x0B#32 then .attest ((r.drop 8).take 32) (a 40)
  else if code = 0x0C#32 then .window (a 8)
  else .unlisted code

/-- A write of the command record; one that reaches DOORBELL starts the command in it. -/
def writeMailbox (c : Cmd) (off : Nat) (bs : List Byte) (s : State) : Result :=
  let s := if off < 64 then modBox s c fun m => { m with record := poke m.record 64 off bs } else s
  if off ≤ 64 && 64 < off + bs.length then command c (decodeCmd s.draws (boxOf s c).record) s else .next s

/-- A write of a window: its record keeps what is written, SUBMIT submits it, FREE and STATUS are read-only. -/
def writeWindow (c : Cmd) (win off : Nat) (bs : List Byte) (s : State) : State :=
  let key := windowKey c.fn win
  let s := modPort s c.port fun p =>
    let w := windowAt p key
    { p with windows := Tab.put p.windows key { w with record := poke w.record taskBytes off bs } }
  if off < 168 && 160 < off + bs.length then submitRecord c win s else s

/-- A write of a semaphore word acts by its bit 0 (R352). -/
def writeSem (port : HostPort) (off : Nat) (bs : List Byte) (s : State) : State :=
  let n := BitVec.ofNat 4 (off / 4)
  match off % 4, bs with
  | 0, b :: _ => if b.getLsbD 0 then acquireSem port (0x40 ≤ off) n s else releaseSem port (0x40 ≤ off) n s
  | _, _ => s

/-- HOST_REG_WRITE (R349, R358): a write within one structure of a function's BAR0. The identity registers are read-only. -/
def execHostRegWrite (c : Cmd) (off : Nat) (bytes : List Byte) (s : State) : Result :=
  let wb := windowsBase c.fn
  let mb := mailboxBase c.fn
  if vfCount < c.fn || !(s.start = .ready || s.start = .recovery) || bar0Size c.fn ≤ off then .next s
  else if mb ≤ off && off ≤ mb + 64 then writeMailbox c (off - mb) bytes s
  else if s.start = .recovery then .next s
  else if wb ≤ off && off < wb + 256 * 8 then .next (writeWindow c ((off - wb) / 256) ((off - wb) % 256) bytes s)
  else if c.fn ≠ 0 || off < 0x10000 then .next s
  else if 0x30000 ≤ off && off < 0x30080 then .next (writeSem c.port (off - 0x30000) bytes s)
  else .next (modPort s c.port fun p =>
    { p with regs := bytes.zipIdx.foldl (fun t b => Tab.put t (off + b.2) b.1) p.regs })

/-! ## The end of a pre-emption (R235) -/

/-- The commands that waited in a mailbox run until one of them runs on; the others wait again. -/
def runWaiting : List (Cmd × HostCmd) → State → State
  | [], s => s
  | (c, k) :: t, s =>
    if (boxOf s c).busy.isSome then modBox (runWaiting t s) c fun m => { m with waiting := (c, k) :: m.waiting }
    else runWaiting t (startCmd c k s)

/-- A mailbox whose PREEMPT ends: STATUS 0, then vector 0. -/
def endPreempt (hw : Nat) (m : Mailbox) : Mailbox × List (Cmd × HostCmd) :=
  if m.busy = some hw then ({ m.finish 0#32 with busy := none, waiting := [] }, m.waiting) else (m, [])

def endPreemptPort (hw : Nat) (p : Port) : Port × List (Cmd × HostCmd) :=
  let l := p.boxes.map fun b => (b.1, endPreempt hw b.2)
  ({ p with boxes := l.map fun b => (b.1, b.2.1) }, l.flatMap fun b => b.2.2)

/-- The commands that waited for the save end, and those after them follow. -/
def finishPreempts (s : State) (hw : Nat) : State :=
  let (a, la) := endPreemptPort hw s.portA
  let (b, lb) := endPreemptPort hw s.portB
  runWaiting (la ++ lb) { s with portA := a, portB := b, preemptAsked := s.preemptAsked.filter (· != hw) }

/-- Whether other work waits that a cluster could take: clusters to start, saves to restore, rung groups (log 60). -/
def otherWork (s : State) (hw : Nat) : Bool :=
  s.grids.any (fun g => !g.ended && g.rung.isNone && decide (g.started < g.lr.nclust)) || !s.saved.isEmpty || groupWaiting s hw

/-- Whether the scheduler may ask for a cluster. -/
def mayAsk (s : State) (hw : Nat) : Bool := !preemptDue s hw && s.teams.any (fun t => t.hw == hw) && otherWork s hw

/-- GANG_PREEMPTION (R235, R337): the clusters of a package cluster are saved once every warp has stopped; where none is
asked for, the scheduler asks for other work. -/
def execGangPreemption (hw : Nat) (s : State) : Result :=
  if mayAsk s hw then .next { s with preemptAsked := s.preemptAsked ++ [hw] }
  else if !preemptDue s hw || !readyToSave s hw then .next s
  else
    let only := if s.testAsked.contains hw then some hw else none
    let s := settleWarps (saveAtCheckpoint (quiesce s hw) hw) hw
    .next (finishPreempts ((clustersOn s hw).foldl (saveCluster only) s) hw)

end Sys2Proof.Machine
end

