-- ==== Sys2Proof/Machine/Replay.lean ====
section
/-! DEFINITION. Opportunistic replay (R327, R328): an entry's word computed again, one lane at a time. -/

namespace Sys2Proof.Machine

/-- The meaning of a word that replay may compute again, with its strip. -/
def replayMeaning : Instr → Option ((Strip → State → Result) × Strip)
  | .iadd w => some (execIadd, w)
  | .isub w => some (execIsub, w)
  | .imul w => some (execImul, w)
  | .imulh w => some (execImulh, w)
  | .imulhn w => some (execImulhn, w)
  | .imad w => some (execImad, w)
  | .imin w => some (execImin, w)
  | .imax w => some (execImax, w)
  | .iminn w => some (execIminn, w)
  | .imaxn w => some (execImaxn, w)
  | .iabs w => some (execIabs, w)
  | .ineg w => some (execIneg, w)
  | .iand w => some (execIand, w)
  | .ior w => some (execIor, w)
  | .ixor w => some (execIxor, w)
  | .inot w => some (execInot, w)
  | .ishl w => some (execIshl, w)
  | .ishr w => some (execIshr, w)
  | .isra w => some (execIsra, w)
  | .irot w => some (execIrot, w)
  | .iclz w => some (execIclz, w)
  | .ipopc w => some (execIpopc, w)
  | .ibrev w => some (execIbrev, w)
  | .ibfx w => some (execIbfx, w)
  | .ibfi w => some (execIbfi, w)
  | .isel w => some (execIsel, w)
  | .movi w => some (execMovi, w)
  | .mov w => some (execMov, w)
  | .laneid w => some (execLaneid, w)
  | .idiv w => some (execIdiv, w)
  | .idivn w => some (execIdivn, w)
  | .irem w => some (execIrem, w)
  | .iremn w => some (execIremn, w)
  | .fadd w => some (execFadd, w)
  | .fsub w => some (execFsub, w)
  | .fmul w => some (execFmul, w)
  | .fma w => some (execFma, w)
  | .fmin w => some (execFmin, w)
  | .fmax w => some (execFmax, w)
  | .fabs w => some (execFabs, w)
  | .fneg w => some (execFneg, w)
  | .frcp w => some (execFrcp, w)
  | .frsq w => some (execFrsq, w)
  | .fsqrt w => some (execFsqrt, w)
  | .fdiv w => some (execFdiv, w)
  | .fexp2 w => some (execFexp2, w)
  | .flog2 w => some (execFlog2, w)
  | .frint w => some (execFrint, w)
  | .twosum w => some (execTwosum, w)
  | .fastsum w => some (execFastsum, w)
  | .fclass w => some (execFclass, w)
  | .fscale w => some (execFscale, w)
  | .hadd2 w => some (execHadd2, w)
  | .hmul2 w => some (execHmul2, w)
  | .hfma2 w => some (execHfma2, w)
  | .dot4e w => some (execDot4e, w)
  | .fexpe w => some (execFexpe, w)
  | .cvt w => some (execCvt, w)
  | .cvtPk w => some (execCvtPk, w)
  | .cvtUpk w => some (execCvtUpk, w)
  | .qbx4 w => some (execQbx4, w)
  | .dqbx4 w => some (execDqbx4, w)
  | .tag w => some (execTag, w)
  | .tagr w => some (execTagr, w)
  | .shape w => some (execShape, w)
  | _ => none

/-- The word with its operands in registers of their own, without a guard: A from v0, B from v8, C from v16, D v40. -/
def replayStrip (f : LaneForm) (w : Strip) : Strip :=
  { w with
    sw := false, pm := 7#3, lr := 0#3
    d := if f.dUsed then 40#8 else w.d
    a := if f.a.used then ⟨0#8, 0#3, 0#5⟩ else w.a
    b := if Form.useB f w then ⟨8#8, 0#3, 0#5⟩ else w.b
    c := if f.c.used && !f.overlay then ⟨16#8, 0#3, 0#5⟩ else w.c }

/-- The registers of the operands. -/
def ReplayEntry.regs (e : ReplayEntry) : Tab LaneReg :=
  let place (n : Nat) (l : List LaneReg) : Tab LaneReg := l.zipIdx.map fun p => (n + p.2, p.1)
  place 0 e.a ++ place 8 e.b ++ place 16 e.c

/-- A warp that holds an entry's operands and stands at its word. -/
def ReplayEntry.warpOf (e : ReplayEntry) : Warp :=
  { Warp.blank with
    ended := none, units := 31, alive := 0xFFFFFFFF#32, regs := e.regs, preds := e.preds, sigctl := 0#32
    slotA := some {
      id := 0, pc := e.addr, mask := e.mask, sig := 0#32, join := none, ts := none, wait := .none
      only := none, entered := 0, issued := 0, view := PathView.start 0 0 } }

/-- The result words of one lane, the word computed again on the recorded operands. -/
def ReplayEntry.again (e : ReplayEntry) (s : State) (lane : Nat) : Option (List Word) :=
  match replayMeaning e.word, laneForm e.word with
  | some (f, w), some (form, _) =>
    match f (replayStrip form w) { s with slotB := false, warp := e.warpOf, others := [] } with
    | .next t => some ((List.range form.dSpan).map fun k => (t.warp.reg (40 + k)).val.word lane)
    | _ => none
  | _, _ => none

/-- The recorded result words of one lane. -/
def ReplayEntry.recorded (e : ReplayEntry) (lane : Nat) : List Word := e.results.map fun x => x.val.word lane

/-- REPLAY_REEXECUTE (R327, R328): spare capacity, of another lane, computes one lane of an entry again; `run.flip` is the error
that strikes the computation, 0 where none does. -/
def execReplayReexecute (core part idx : Nat) (run : SpareRun) (s : State) : Result :=
  let q := (coreAt s core).replay.getD part []
  match q[idx]? with
  | none => .next s
  | some e =>
    let lane := run.lane
    if !e.left.has lane || run.spare = lane then .next s
    else
      let left := e.left &&& ~~~ BitVec.twoPow 32 lane
      let q' := if left = 0#32 then q.eraseIdx idx else q.set idx { e with left := left }
      let differs : Bool := match e.again s lane with
        | some ws => (ws.zipIdx.map fun p => p.1 ^^^ run.flip.getD p.2 0#32) != e.recorded lane
        | none => false
      let s := modCore s core fun c => { c with replay := c.replay.set part q' }
      .next (if differs then softError s e lane else s)

end Sys2Proof.Machine
end

