-- ==== Sys2Proof/Machine/Dispatch.lean ====
section
/-! DEFINITION. The dispatch: one arm per constructor of Instr, each one direct call of its meaning. -/

namespace Sys2Proof.Machine

/-- One move of the machine. -/
def exec (i : Instr) (s : State) : Host.Outcome State Fault Refusal :=
  match i with
  | .addi d a imm => Sys2Proof.Machine.execAddi d a imm s
  | .andi d a imm => Sys2Proof.Machine.execAndi d a imm s
  | .ori d a imm => Sys2Proof.Machine.execOri d a imm s
  | .xori d a imm => Sys2Proof.Machine.execXori d a imm s
  | .slti d a imm => Sys2Proof.Machine.execSlti d a imm s
  | .lui d imm => Sys2Proof.Machine.execLui d imm s
  | .shli d a n => Sys2Proof.Machine.execShli d a n s
  | .shri d a n => Sys2Proof.Machine.execShri d a n s
  | .srai d a n => Sys2Proof.Machine.execSrai d a n s
  | .add d a b => Sys2Proof.Machine.execAdd d a b s
  | .sub d a b => Sys2Proof.Machine.execSub d a b s
  | .mul d a b => Sys2Proof.Machine.execMul d a b s
  | .mulh d a b => Sys2Proof.Machine.execMulh d a b s
  | .and d a b => Sys2Proof.Machine.execAnd d a b s
  | .or d a b => Sys2Proof.Machine.execOr d a b s
  | .xor d a b => Sys2Proof.Machine.execXor d a b s
  | .shl d a b => Sys2Proof.Machine.execShl d a b s
  | .shr d a b => Sys2Proof.Machine.execShr d a b s
  | .sra d a b => Sys2Proof.Machine.execSra d a b s
  | .slt d a b => Sys2Proof.Machine.execSlt d a b s
  | .sltn d a b => Sys2Proof.Machine.execSltn d a b s
  | .min d a b => Sys2Proof.Machine.execMin d a b s
  | .max d a b => Sys2Proof.Machine.execMax d a b s
  | .minn d a b => Sys2Proof.Machine.execMinn d a b s
  | .maxn d a b => Sys2Proof.Machine.execMaxn d a b s
  | .lds d a imm => Sys2Proof.Machine.execLds d a imm s
  | .ldsw d a imm => Sys2Proof.Machine.execLdsw d a imm s
  | .sts d a imm => Sys2Proof.Machine.execSts d a imm s
  | .stsw d a imm => Sys2Proof.Machine.execStsw d a imm s
  | .ldq a q stride => Sys2Proof.Machine.execLdq a q stride s
  | .qpush a q hi => Sys2Proof.Machine.execQpush a q hi s
  | .qpopW d bq lane peek => Sys2Proof.Machine.execQpopW d bq lane peek s
  | .qpopD d bq lane peek => Sys2Proof.Machine.execQpopD d bq lane peek s
  | .qpopM d bq peek => Sys2Proof.Machine.execQpopM d bq peek s
  | .xlats d a imm => Sys2Proof.Machine.execXlats d a imm s
  | .xlatq a q stride => Sys2Proof.Machine.execXlatq a q stride s
  | .prefsL1 a imm => Sys2Proof.Machine.execPrefsL1 a imm s
  | .prefsL2 a imm => Sys2Proof.Machine.execPrefsL2 a imm s
  | .csrrs d csr => Sys2Proof.Machine.execCsrrs d csr s
  | .csrws a csr => Sys2Proof.Machine.execCsrws a csr s
  | .j off => Sys2Proof.Machine.execJ off s
  | .jal off => Sys2Proof.Machine.execJal off s
  | .jr d a imm => Sys2Proof.Machine.execJr d a imm s
  | .beq a b off => Sys2Proof.Machine.execBeq a b off s
  | .bne a b off => Sys2Proof.Machine.execBne a b off s
  | .blt a b off => Sys2Proof.Machine.execBlt a b off s
  | .bge a b off => Sys2Proof.Machine.execBge a b off s
  | .bltn a b off => Sys2Proof.Machine.execBltn a b off s
  | .bgen a b off => Sys2Proof.Machine.execBgen a b off s
  | .lstart a => Sys2Proof.Machine.execLstart a s
  | .lwait a imm => Sys2Proof.Machine.execLwait a imm s
  | .traps a imm => Sys2Proof.Machine.execTraps a imm s
  | .yields imm => Sys2Proof.Machine.execYields imm s
  | .tramps off => Sys2Proof.Machine.execTramps off s
  | .nop w => Sys2Proof.Machine.execNop w s
  | .iadd w => Sys2Proof.Machine.execIadd w s
  | .isub w => Sys2Proof.Machine.execIsub w s
  | .imul w => Sys2Proof.Machine.execImul w s
  | .imulh w => Sys2Proof.Machine.execImulh w s
  | .imulhn w => Sys2Proof.Machine.execImulhn w s
  | .imad w => Sys2Proof.Machine.execImad w s
  | .imin w => Sys2Proof.Machine.execImin w s
  | .imax w => Sys2Proof.Machine.execImax w s
  | .iminn w => Sys2Proof.Machine.execIminn w s
  | .imaxn w => Sys2Proof.Machine.execImaxn w s
  | .iabs w => Sys2Proof.Machine.execIabs w s
  | .ineg w => Sys2Proof.Machine.execIneg w s
  | .iand w => Sys2Proof.Machine.execIand w s
  | .ior w => Sys2Proof.Machine.execIor w s
  | .ixor w => Sys2Proof.Machine.execIxor w s
  | .inot w => Sys2Proof.Machine.execInot w s
  | .ishl w => Sys2Proof.Machine.execIshl w s
  | .ishr w => Sys2Proof.Machine.execIshr w s
  | .isra w => Sys2Proof.Machine.execIsra w s
  | .irot w => Sys2Proof.Machine.execIrot w s
  | .iclz w => Sys2Proof.Machine.execIclz w s
  | .ipopc w => Sys2Proof.Machine.execIpopc w s
  | .ibrev w => Sys2Proof.Machine.execIbrev w s
  | .ibfx w => Sys2Proof.Machine.execIbfx w s
  | .ibfi w => Sys2Proof.Machine.execIbfi w s
  | .idiv w => Sys2Proof.Machine.execIdiv w s
  | .idivn w => Sys2Proof.Machine.execIdivn w s
  | .irem w => Sys2Proof.Machine.execIrem w s
  | .iremn w => Sys2Proof.Machine.execIremn w s
  | .icmp w => Sys2Proof.Machine.execIcmp w s
  | .isel w => Sys2Proof.Machine.execIsel w s
  | .movi w => Sys2Proof.Machine.execMovi w s
  | .mov w => Sys2Proof.Machine.execMov w s
  | .movx w => Sys2Proof.Machine.execMovx w s
  | .movxd w => Sys2Proof.Machine.execMovxd w s
  | .laneid w => Sys2Proof.Machine.execLaneid w s
  | .fadd w => Sys2Proof.Machine.execFadd w s
  | .fsub w => Sys2Proof.Machine.execFsub w s
  | .fmul w => Sys2Proof.Machine.execFmul w s
  | .fma w => Sys2Proof.Machine.execFma w s
  | .fmin w => Sys2Proof.Machine.execFmin w s
  | .fmax w => Sys2Proof.Machine.execFmax w s
  | .fabs w => Sys2Proof.Machine.execFabs w s
  | .fneg w => Sys2Proof.Machine.execFneg w s
  | .fcmp w => Sys2Proof.Machine.execFcmp w s
  | .frcp w => Sys2Proof.Machine.execFrcp w s
  | .frsq w => Sys2Proof.Machine.execFrsq w s
  | .fsqrt w => Sys2Proof.Machine.execFsqrt w s
  | .fdiv w => Sys2Proof.Machine.execFdiv w s
  | .fexp2 w => Sys2Proof.Machine.execFexp2 w s
  | .flog2 w => Sys2Proof.Machine.execFlog2 w s
  | .frint w => Sys2Proof.Machine.execFrint w s
  | .twosum w => Sys2Proof.Machine.execTwosum w s
  | .fastsum w => Sys2Proof.Machine.execFastsum w s
  | .fclass w => Sys2Proof.Machine.execFclass w s
  | .fscale w => Sys2Proof.Machine.execFscale w s
  | .hadd2 w => Sys2Proof.Machine.execHadd2 w s
  | .hmul2 w => Sys2Proof.Machine.execHmul2 w s
  | .hfma2 w => Sys2Proof.Machine.execHfma2 w s
  | .dot4e w => Sys2Proof.Machine.execDot4e w s
  | .fexpe w => Sys2Proof.Machine.execFexpe w s
  | .cvt w => Sys2Proof.Machine.execCvt w s
  | .cvtPk w => Sys2Proof.Machine.execCvtPk w s
  | .cvtUpk w => Sys2Proof.Machine.execCvtUpk w s
  | .qbx4 w => Sys2Proof.Machine.execQbx4 w s
  | .dqbx4 w => Sys2Proof.Machine.execDqbx4 w s
  | .tag w => Sys2Proof.Machine.execTag w s
  | .tagr w => Sys2Proof.Machine.execTagr w s
  | .shape w => Sys2Proof.Machine.execShape w s
  | .shfl w => Sys2Proof.Machine.execShfl w s
  | .vote w => Sys2Proof.Machine.execVote w s
  | .redx w => Sys2Proof.Machine.execRedx w s
  | .scan w => Sys2Proof.Machine.execScan w s
  | .matchLanes w => Sys2Proof.Machine.execMatchLanes w s
  | .cmpr w => Sys2Proof.Machine.execCmpr w s
  | .elect w => Sys2Proof.Machine.execElect w s
  | .alive w => Sys2Proof.Machine.execAlive w s
  | .bra w => Sys2Proof.Machine.execBra w s
  | .brx w => Sys2Proof.Machine.execBrx w s
  | .call w => Sys2Proof.Machine.execCall w s
  | .callx w => Sys2Proof.Machine.execCallx w s
  | .ret w => Sys2Proof.Machine.execRet w s
  | .reconv w => Sys2Proof.Machine.execReconv w s
  | .entry w => Sys2Proof.Machine.execEntry w s
  | .exit w => Sys2Proof.Machine.execExit w s
  | .yield w => Sys2Proof.Machine.execYield w s
  | .pset w => Sys2Proof.Machine.execPset w s
  | .pmov w => Sys2Proof.Machine.execPmov w s
  | .lmark w => Sys2Proof.Machine.execLmark w s
  | .launch w => Sys2Proof.Machine.execLaunch w s
  | .preemptOff w => Sys2Proof.Machine.execPreemptOff w s
  | .preemptOn w => Sys2Proof.Machine.execPreemptOn w s
  | .ld w => Sys2Proof.Machine.execLd w s
  | .st w => Sys2Proof.Machine.execSt w s
  | .ldP w => Sys2Proof.Machine.execLdP w s
  | .stP w => Sys2Proof.Machine.execStP w s
  | .stCl w => Sys2Proof.Machine.execStCl w s
  | .ldCl w => Sys2Proof.Machine.execLdCl w s
  | .ldC w => Sys2Proof.Machine.execLdC w s
  | .atom w => Sys2Proof.Machine.execAtom w s
  | .red w => Sys2Proof.Machine.execRed w s
  | .cas w => Sys2Proof.Machine.execCas w s
  | .fence w => Sys2Proof.Machine.execFence w s
  | .fenceX w => Sys2Proof.Machine.execFenceX w s
  | .barInit w => Sys2Proof.Machine.execBarInit w s
  | .barArrive w => Sys2Proof.Machine.execBarArrive w s
  | .barExpect w => Sys2Proof.Machine.execBarExpect w s
  | .barWait w => Sys2Proof.Machine.execBarWait w s
  | .barTest w => Sys2Proof.Machine.execBarTest w s
  | .xlat w => Sys2Proof.Machine.execXlat w s
  | .xlatRp w => Sys2Proof.Machine.execXlatRp w s
  | .prefetch w => Sys2Proof.Machine.execPrefetch w s
  | .mxLoadw w => Sys2Proof.Machine.execMxLoadw w s
  | .mxSwap w => Sys2Proof.Machine.execMxSwap w s
  | .mxClear w => Sys2Proof.Machine.execMxClear w s
  | .mxClearRel w => Sys2Proof.Machine.execMxClearRel w s
  | .mxStream w => Sys2Proof.Machine.execMxStream w s
  | .mxDrainReg w => Sys2Proof.Machine.execMxDrainReg w s
  | .mxDrainMem w => Sys2Proof.Machine.execMxDrainMem w s
  | .mxStat w => Sys2Proof.Machine.execMxStat w s
  | .cpTile w => Sys2Proof.Machine.execCpTile w s
  | .cpCmd w => Sys2Proof.Machine.execCpCmd w s
  | .tmaskAcc w => Sys2Proof.Machine.execTmaskAcc w s
  | .tmaskReg w => Sys2Proof.Machine.execTmaskReg w s
  | .sampArm w => Sys2Proof.Machine.execSampArm w s
  | .fragOpen w => Sys2Proof.Machine.execFragOpen w s
  | .fragIn w => Sys2Proof.Machine.execFragIn w s
  | .fragInm w => Sys2Proof.Machine.execFragInm w s
  | .fragClaim w => Sys2Proof.Machine.execFragClaim w s
  | .fragOut w => Sys2Proof.Machine.execFragOut w s
  | .fragOutWin w => Sys2Proof.Machine.execFragOutWin w s
  | .fragSeal w => Sys2Proof.Machine.execFragSeal w s
  | .fragDrop w => Sys2Proof.Machine.execFragDrop w s
  | .fragName w => Sys2Proof.Machine.execFragName w s
  | .specOpen w => Sys2Proof.Machine.execSpecOpen w s
  | .specCommit w => Sys2Proof.Machine.execSpecCommit w s
  | .specSquash w => Sys2Proof.Machine.execSpecSquash w s
  | .specStat w => Sys2Proof.Machine.execSpecStat w s
  | .kvStage w => Sys2Proof.Machine.execKvStage w s
  | .kvCommit w => Sys2Proof.Machine.execKvCommit w s
  | .qPush w => Sys2Proof.Machine.execQPush w s
  | .qPop w => Sys2Proof.Machine.execQPop w s
  | .qStat w => Sys2Proof.Machine.execQStat w s
  | .ladDoneOpen w => Sys2Proof.Machine.execLadDoneOpen w s
  | .ladDoneTest w => Sys2Proof.Machine.execLadDoneTest w s
  | .ladEsc w => Sys2Proof.Machine.execLadEsc w s
  | .ladRes w => Sys2Proof.Machine.execLadRes w s
  | .ladItem w => Sys2Proof.Machine.execLadItem w s
  | .sigChk w => Sys2Proof.Machine.execSigChk w s
  | .sigRd w => Sys2Proof.Machine.execSigRd w s
  | .rgCkpt w => Sys2Proof.Machine.execRgCkpt w s
  | .rgStat w => Sys2Proof.Machine.execRgStat w s
  | .wearRd w => Sys2Proof.Machine.execWearRd w s
  | .csrr w => Sys2Proof.Machine.execCsrr w s
  | .csrw w => Sys2Proof.Machine.execCsrw w s
  | .trap w => Sys2Proof.Machine.execTrap w s
  | .tret w => Sys2Proof.Machine.execTret w s
  | .tramp slot w => Sys2Proof.Machine.execTramp slot w s
  | .undefinedAccessWord w => Sys2Proof.Machine.execUndefinedAccessWord w s
  | .undefinedLaneOpcode op w => Sys2Proof.Machine.execUndefinedLaneOpcode op w s
  | .spmapWrite k v => Sys2Proof.Machine.execSpmapWrite k v s
  | .invpgWrite va => Sys2Proof.Machine.execInvpgWrite va s
  | .rginjWrite v => Sys2Proof.Machine.execRginjWrite v s
  | .varlatResultWrite k => Sys2Proof.Machine.execVarlatResultWrite k s
  | .clusterStart grid => Sys2Proof.Machine.execClusterStart grid s
  | .gangPreemption hw => Sys2Proof.Machine.execGangPreemption hw s
  | .clusterRestore save hw => Sys2Proof.Machine.execClusterRestore save hw s
  | .taskLaunch seq => Sys2Proof.Machine.execTaskLaunch seq s
  | .gridEnd grid => Sys2Proof.Machine.execGridEnd grid s
  | .epochCommitPoint req epoch => Sys2Proof.Machine.execEpochCommitPoint req epoch s
  | .loaderDone team => Sys2Proof.Machine.execLoaderDone team s
  | .streamDone team => Sys2Proof.Machine.execStreamDone team s
  | .drainBytesLand op => Sys2Proof.Machine.execDrainBytesLand op s
  | .filterRowRecord fctx row => Sys2Proof.Machine.execFilterRowRecord fctx row s
  | .copyBytesLand op start n => Sys2Proof.Machine.execCopyBytesLand op start n s
  | .queueRefill hw q => Sys2Proof.Machine.execQueueRefill hw q s
  | .ladderItemEntry hw lnum => Sys2Proof.Machine.execLadderItemEntry hw lnum s
  | .starveExpire hw lnum rung => Sys2Proof.Machine.execStarveExpire hw lnum rung s
  | .groupLaunch hw => Sys2Proof.Machine.execGroupLaunch hw s
  | .ladderComplete hw lnum => Sys2Proof.Machine.execLadderComplete hw lnum s
  | .replayReexecute core part idx run => Sys2Proof.Machine.execReplayReexecute core part idx run s
  | .ptsTick core => Sys2Proof.Machine.execPtsTick core s
  | .nops => Sys2Proof.Machine.execNops s
  | .halts => Sys2Proof.Machine.execHalts s
  | .yieldsExpire => Sys2Proof.Machine.execYieldsExpire s
  | .rginjFire => Sys2Proof.Machine.execRginjFire s
  | .trapEntry => Sys2Proof.Machine.execTrapEntry s
  | .pageHwServiceEnd => Sys2Proof.Machine.execPageHwServiceEnd s
  | .lmarkRetire => Sys2Proof.Machine.execLmarkRetire s
  | .lwaitComplete => Sys2Proof.Machine.execLwaitComplete s
  | .barWaitReturn => Sys2Proof.Machine.execBarWaitReturn s
  | .queueStallEnd => Sys2Proof.Machine.execQueueStallEnd s
  | .quantumRotation => Sys2Proof.Machine.execQuantumRotation s
  | .watchdogExpire => Sys2Proof.Machine.execWatchdogExpire s
  | .nopreemptCap => Sys2Proof.Machine.execNopreemptCap s
  | .warpCancel => Sys2Proof.Machine.execWarpCancel s
  | .taskAccept => Sys2Proof.Machine.execTaskAccept s
  | .rgCommit => Sys2Proof.Machine.execRgCommit s
  | .wearRecordWrite => Sys2Proof.Machine.execWearRecordWrite s
  | .suppliesUp => Sys2Proof.Machine.execSuppliesUp s
  | .fuseRead => Sys2Proof.Machine.execFuseRead s
  | .romLoad => Sys2Proof.Machine.execRomLoad s
  | .fwVerify => Sys2Proof.Machine.execFwVerify s
  | .wearLoad => Sys2Proof.Machine.execWearLoad s
  | .fabricBringup => Sys2Proof.Machine.execFabricBringup s
  | .memoryClear => Sys2Proof.Machine.execMemoryClear s
  | .startFail => Sys2Proof.Machine.execStartFail s
  | .powerLoss => Sys2Proof.Machine.execPowerLoss s
  | .orderlyShutdown => Sys2Proof.Machine.execOrderlyShutdown s
  | .copyFabricError op start n => Sys2Proof.Machine.execCopyFabricError op start n s
  | .poisonDetect place => Sys2Proof.Machine.execPoisonDetect place s
  | .timestampScrub line => Sys2Proof.Machine.execTimestampScrub line s
  | .remoteWriteApply src num key bytes => Sys2Proof.Machine.execRemoteWriteApply src num key bytes s
  | .l2ModeChange toPrivate => Sys2Proof.Machine.execL2ModeChange toPrivate s
  | .wearPeriod core r => Sys2Proof.Machine.execWearPeriod core r s
  | .infieldTest core => Sys2Proof.Machine.execInfieldTest core s
  | .infieldTestDone hw failed => Sys2Proof.Machine.execInfieldTestDone hw failed s
  | .powerWindow milliwatts => Sys2Proof.Machine.execPowerWindow milliwatts s
  | .hbmScrub stack => Sys2Proof.Machine.execHbmScrub stack s
  | .taskSubmit c win => Sys2Proof.Machine.execTaskSubmit c win s
  | .semAcquire port iod n => Sys2Proof.Machine.execSemAcquire port iod n s
  | .semRelease port iod n => Sys2Proof.Machine.execSemRelease port iod n s
  | .hostRegWrite c off bytes => Sys2Proof.Machine.execHostRegWrite c off bytes s
  | .hostDma port off op => Sys2Proof.Machine.execHostDma port off op s
  | .hostLinkDown loss => Sys2Proof.Machine.execHostLinkDown loss s
  | .ctxCreate c o => Sys2Proof.Machine.execCtxCreate c o s
  | .ctxDestroy c ctx => Sys2Proof.Machine.execCtxDestroy c ctx s
  | .domOpen c dom salt cistern catalogue => Sys2Proof.Machine.execDomOpen c dom salt cistern catalogue s
  | .domClear c dom => Sys2Proof.Machine.execDomClear c dom s
  | .domClose c dom => Sys2Proof.Machine.execDomClose c dom s
  | .preempt c hw => Sys2Proof.Machine.execPreempt c hw s
  | .inval c va => Sys2Proof.Machine.execInval c va s
  | .peerseq c chip => Sys2Proof.Machine.execPeerseq c chip s
  | .peerfail c chip => Sys2Proof.Machine.execPeerfail c chip s
  | .routeLossTimeout chip => Sys2Proof.Machine.execRouteLossTimeout chip s
  | .dieReset c die failing => Sys2Proof.Machine.execDieReset c die failing s
  | .fwUpdate c addr len => Sys2Proof.Machine.execFwUpdate c addr len s
  | .attest c nonce addr => Sys2Proof.Machine.execAttest c nonce addr s
  | .window c base => Sys2Proof.Machine.execWindow c base s
  | .linkNegotiate port o => Sys2Proof.Machine.execLinkNegotiate port o s
  | .hbmInit settingsCheck => Sys2Proof.Machine.execHbmInit settingsCheck s
  | .scanSelfTest failing => Sys2Proof.Machine.execScanSelfTest failing s
  | .unlistedCommandCode c code => Sys2Proof.Machine.execUnlistedCommandCode c code s
  | .remoteLeaseRequest line chip => Sys2Proof.Machine.execRemoteLeaseRequest line chip s
  | .fabricLinkLoss port => Sys2Proof.Machine.execFabricLinkLoss port s

end Sys2Proof.Machine
end

