-- ==== Sys2Proof/Machine/Sched.lean ====
section
/-! DEFINITION. Which agent moves, and what it runs (log 4): the access stream of the issuing warp (R17), its two lane
slots (R23, R28, R29, R82), or one event that the machine raises by itself. Everything that comes from outside stands in
the agenda and goes first. And a state in which a given instruction is fetched next. -/

namespace Sys2Proof.Machine

/-! ## Readiness -/

/-- Whether a warp has been stopped for a pre-emption or a test (R235). -/
def stopped (s : State) (w : Warp) : Bool := preemptDue s w.hw && w.pd == 0

/-- Whether a warp may issue at all. -/
def warpMay (s : State) (w : Warp) : Bool := w.ended.isNone && !w.cancelled && !stopped s w

/-- Whether a warp's access stream has a ready instruction (R17, R22, R124). -/
def accessWaits (s : State) (w : Warp) : Bool := warpMay s w && w.acc == .ready && groupAccMay s w

/-- How many slots of its core the pump passes before a warp, beginning after the last warp served. -/
def pumpDistance (s : State) (w : Warp) : Nat := (w.slot + 31 - (Tab.getD s.cores w.coreIx Core.init).served) % 32

/-- Whether the pump serves the issuing warp's access stream next: in round-robin order of the core's slots (R17,
log 90). -/
def accessReady (s : State) : Bool :=
  accessWaits s s.warp && !(s.others.any fun w =>
    w.coreIx == s.warp.coreIx && decide (pumpDistance s w < pumpDistance s s.warp) && accessWaits s w)

/-- The split that would issue from a slot (R29, R75). -/
def readySplit (s : State) (b : Bool) : Option Split :=
  (s.warp.slot? b).filter fun sp =>
    warpMay s s.warp && !s.warp.parked && sp.wait == .none && groupLaneMay s s.warp sp

/-- Whether a trap raised elsewhere is due in a slot at this boundary (R225). -/
def trapDue (s : State) (b : Bool) : Bool :=
  warpMay s s.warp && !s.warp.parked
    && ((s.warp.slot? b).map fun sp => (!sp.raised.isEmpty || sp.posting) && groupLaneMay s s.warp { sp with wait := .none }).getD
      false

/-! ## Fetch -/

/-- A move: an instruction to execute, or a state already reached. -/
abbrev Move := Option Instr × State

/-- The access stream fetches (R62, R122): ALIGN, then the conditions of the fetch. -/
def accessMove (s : State) : Move :=
  if !accessReady s then (none, s)
  else
    let s := modCore s s.warp.coreIx fun c => { c with served := s.warp.slot }
    let pc := s.warp.apc
    if pc.toNat % 4 ≠ 0 then (none, accessTrap s Code.align 0 0#16 pc)
    else
      match fetchAccess s s.warp pc with
      | (.ok i, s) => (some i, s)
      | (.error e, s) => (none, accessTrap s e.trap 0 0#16 pc)

/-- The trap of a word that cannot be fetched: the whole split, access kind 3 (R227). -/
def fetchTrap (code : BitVec 8) (sp : Split) : TrapInfo :=
  laneTrap code 3 0#32 ((LaneMask.lanes sp.mask).map fun i => (i, sp.pc))

/-- A slot fetches, a raised trap going first. -/
def laneMove (b : Bool) (s : State) : Move :=
  let s := { s with slotB := b }
  if trapDue s b then (some .trapEntry, s)
  else
    match readySplit s b with
    | none => (none, s)
    | some sp =>
      if sp.pc.toNat % 4 ≠ 0 then (none, takeTrap s (fetchTrap Code.align sp))
      else
        match fetchLane s s.warp sp.pc with
        | (.ok i, s) => (some i, s)
        | (.error e, s) => (none, takeTrap s (fetchTrap e.trap sp))

/-! ## Events of the machine itself -/

/-- An event where a condition holds. -/
def when (b : Bool) (i : Instr) : List Instr := if b then [i] else []

/-- Results of a warp that can return. -/
def resultEvents (s : State) : List Instr :=
  s.warp.pending.zipIdx.flatMap fun p =>
    when (p.1.sub.isNone && (epochFate s p.1).isSome) (.varlatResultWrite p.2)

/-- Whether the split of a slot waits for a service that has been answered. -/
def serviceDone (s : State) (b : Bool) : Bool :=
  slotWaits s b fun w => match w with | .service keys => !unanswered s keys | _ => false

/-- Events of the issuing warp. -/
def warpEvents (s : State) : List Instr :=
  let w := s.warp
  if w.ended.isSome then []
  else
    let queued := w.acc == .queue || slotWaits s false (· == .queue) || slotWaits s true (· == .queue)
    resultEvents s
      ++ when w.cancelled .warpCancel
      ++ when (match w.acc with | .lwait n => reached w.lm n | _ => false) .lwaitComplete
      ++ when (match w.acc with | .yieldUntil c => decide (c ≤ s.cycle) | _ => false) .yieldsExpire
      ++ when queued .queueStallEnd
      ++ when (slotWaits s false (barReady s) || slotWaits s true (barReady s)) .barWaitReturn
      ++ when (lmarkReady w && (slotWaits s false (· == .lmark) || slotWaits s true (· == .lmark))) .lmarkRetire
      ++ when (serviceDone s false || serviceDone s true) .pageHwServiceEnd
      ++ when (quantumDue s w.slotA || quantumDue s w.slotB) .quantumRotation
      ++ when (w.lstarted && w.wdog != 0#6 && decide (w.watch + 2 ^ w.wdog.toNat ≤ s.cycle)) .watchdogExpire
      ++ when (w.pd != 0 && decide (w.pdSince + preemptCap ≤ s.cycle)) .nopreemptCap
      ++ when (match pairOf s with | some p => pairMove s p != .stay | none => false) .rgCommit

/-- Events of the engines. -/
def engineEvents (s : State) : List Instr :=
  s.teams.flatMap (fun t => when t.loader.isSome (.loaderDone t.id) ++ when (nextStream t.slots).isSome (.streamDone t.id))
    ++ s.drains.map (fun d => .drainBytesLand d.id)
    ++ (s.copies.filter (copyFront s)).map (fun c => .copyBytesLand c.id 0 c.elems.length)
    ++ s.filters.flatMap (fun f => if filterSaved s f.id then [] else
        (f.state.filter f.rowComplete).map fun x => .filterRowRecord f.id x.row)

/-- Package clusters that something waits for or lives on. -/
def homes (s : State) : List Nat := (s.ladders.map fun l => l.1 / 4).eraseDups

/-- Events of queues and ladders. -/
def ladderEvents (s : State) : List Instr :=
  (s.cqueues.filter fun q => !q.2.well.isEmpty).map (fun q => .queueRefill (q.1 % 1280 / 8) (q.1 % 8))
    ++ s.ladders.flatMap (fun l =>
        when (decide (l.2.entered < l.2.n)) (.ladderItemEntry (l.1 / 4) (l.1 % 4))
          ++ when (decide (l.2.n ≤ l.2.entered)) (.ladderComplete (l.1 / 4) (l.1 % 4)))
    ++ (homes s).flatMap (fun hw => when (groupWaiting s hw) (.groupLaunch hw))

/-- Events of tasks, grids, epochs, pre-emption and restore. -/
def workEvents (s : State) : List Instr :=
  when (!s.submitted.isEmpty) .taskAccept
    ++ (s.tasks.filter fun t => !t.launched && !(before s t).any (depends t)).map (fun t => .taskLaunch t.seq)
    ++ (s.grids.filter fun g => !g.ended && g.rung.isNone && decide (g.started < g.lr.nclust)).map (fun g => .clusterStart g.id)
    ++ (s.grids.filter (gridDone s)).map (fun g => .gridEnd g.id)
    ++ s.requests.flatMap (fun r => (r.epochs.filter (commitReady s r)).map fun e => .epochCommitPoint r.id e.num)
    ++ (((s.preemptAsked ++ s.testAsked).eraseDups.filter (readyToSave s)) ++ (s.teams.map (·.hw)).eraseDups.filter (mayAsk s)).map
        (fun hw => .gangPreemption hw)
    ++ s.saved.flatMap (fun c => ((List.range clusterCount).filter fun hw => canRestore s hw c).map fun hw => .clusterRestore c.id hw)

/-- The step of a start that the package takes by itself (R357). -/
def startEvents (s : State) : List Instr :=
  match s.start with
  | .fuse => [.fuseRead]
  | .rom => [.romLoad]
  | .fwchk => [.fwVerify]
  | .wear => [.wearLoad]
  | .clear => [.memoryClear]
  | _ => []

/-- Every event that the machine may raise now. -/
def events (s : State) : List Instr := startEvents s ++ warpEvents s ++ engineEvents s ++ ladderEvents s ++ workEvents s

/-- One of them, any. -/
def eventMove (s : State) : Move :=
  match events s with
  | [] => (none, s)
  | [i] => (some i, s)
  | i :: l => ((i :: l)[(Config.free s.draws).toNat % (l.length + 1)]?, s)

/-! ## Turns -/

/-- The agent that moves next, where no plan says otherwise. -/
def Turn.succ : Turn → Turn
  | .access => .laneA
  | .laneA => .laneB
  | .laneB => .event
  | .event => .access

/-- What an agent's turn brings. -/
def turnMove (t : Turn) (s : State) : Move :=
  match t with
  | .access => accessMove s
  | .laneA => laneMove false s
  | .laneB => laneMove true s
  | .event => eventMove s

/-- The next warp in turn issues. -/
def rotate (s : State) : State :=
  match s.others with
  | [] => s
  | w :: rest => { s with warp := w, others := rest ++ [s.warp] }

/-- A stream that met a stall was not ready after all: the pump has not served it (R17). -/
def notServed (cores : Tab Core) (id : Nat) (s : State) : State :=
  match warpById s id with
  | some w =>
    if w.acc = .queue || w.acc = .commit then
      modCore s w.coreIx fun c => { c with served := (Tab.getD cores w.coreIx Core.init).served }
    else s
  | none => s

/-- What follows a move: the pump has served the warp (R142), or the next warp's turn comes. `cores` are those before
the move. -/
def afterMove (cores : Tab Core) (t : Turn) (id : Nat) (s : State) : State :=
  match t with
  | .access => pumpServed (notServed cores id s) id
  | .event => rotate s
  | _ => s

/-- Times 64 cycles that pass from a cycle to another. -/
def ticksIn (a b : Nat) : Nat := b / 64 - a / 64

/-- A core's time advances by 1 every 64 cycles (R192): the last advance of a turn is a move of its own. -/
def ticks (a b : Nat) (cores : Tab Core) : List Instr :=
  if ticksIn a b = 0 then [] else cores.map fun c => .ptsTick c.1

/-- The advances before the last one of a turn. -/
def earlierTicks (a b : Nat) (cores : Tab Core) : Tab Core :=
  cores.map fun c => (c.1, { c.2 with pts := c.2.pts + BitVec.ofNat 48 (ticksIn a b - 1) })

/-- Time passes to a cycle. -/
def passTo (c : Nat) (s : State) : State :=
  { s with draws := s.draws + 1, cycle := c, agenda := ticks s.cycle c s.cores, cores := earlierTicks s.cycle c s.cores }

/-- A turn of n cycles begins. -/
def beginTurn (t : Turn) (n : Nat) (s : State) : State := { passTo (s.cycle + n) s with turn := t.succ }

/-- What moves: an input or a due event, else the plan's agent, else the agent in turn. -/
structure Choice where
  turn : Turn
  move : Move

/-- An agent's turn. -/
def agentChoice (t : Turn) (n : Nat) (s : State) : Choice := ⟨t, turnMove t (beginTurn t n s)⟩

/-- The next agent of a machine with an empty agenda. -/
def choose (s : State) : Choice :=
  match s.plan with
  | (w, t, n) :: rest => agentChoice t n (focusWarp { s with plan := rest } w)
  | [] => agentChoice s.turn 1 s

/-- Run a chosen move. -/
def runMove (cores : Tab Core) (c : Choice) : Result :=
  let id := c.move.2.warp.id
  match c.move.1 with
  | none => .next (afterMove cores c.turn id c.move.2)
  | some i =>
    match exec i c.move.2 with
    | .next t => .next (afterMove cores c.turn id t)
    | r => r

/-- Cycles of the next turn. -/
def turnCycles (s : State) : Nat := match s.plan with | (_, _, n) :: _ => n | [] => 1

/-- One move of the machine: an input or a tick; a ladder's group whose oldest item has waited STARVE cycles, at that
cycle (R301); the chosen agent. -/
def nextMove (s : State) : Result :=
  match s.agenda with
  | i :: rest => exec i { s with agenda := rest, draws := s.draws + 1 }
  | [] =>
    match starveBy s (s.cycle + turnCycles s) with
    | some (c, hw, lnum, rung) => exec (.starveExpire hw lnum rung) (passTo (max c s.cycle) s)
    | none => runMove s.cores (choose s)

/-! ## A state that fetches a given instruction -/

/-- Where the instruction stands, and the table that maps it. -/
def probeVa : Nat := 0x100000
def probeRoot : Nat := 0x200000
/-- A leaf of 4 GiB at physical 0 of this chip: X, W, RD, LEAF, V. -/
def probeLeaf (chip : Nat) : Nat := chip * 2 ^ 51 + 0x1F

/-- A resident warp about to fetch at the probe address: an access word, or a lane word in slot A. -/
def probeWarp (lane : Bool) : Warp :=
  let pc : DWord := BitVec.ofNat 64 probeVa
  let sp : Split := {
    id := 0, pc := pc, mask := 0xFFFFFFFF#32, sig := 0#32, join := none, ts := none, wait := .none, only := none
    entered := 0, issued := 0, view := PathView.start 2 0 }
  { Warp.blank with
    id := 1, ended := none, apc := pc, acc := if lane then .halted else .ready
    lstarted := lane, slotA := if lane then some sp else none }

/-- The state in which an instruction of these bits is the next that step runs. -/
def probeState (s : State) (nbits w : Nat) : State :=
  let lane := decide (32 < nbits)
  let bytes := toBytesLE (if lane then 12 else 4) w
  { s with
    agenda := [], plan := [], turn := if lane then .laneA else .access, slotB := false
    start := .ready, preemptAsked := [], testAsked := [], failedChips := []
    warp := probeWarp lane, others := []
    contexts := Tab.put s.contexts 0 ⟨probeRoot, 1, 0#64, 0, 0#64, false, false, 0⟩
    tlb := [], mapped := [], hist := []
    mem := memPutList (memPutList s.mem (hbmKey s.chip probeRoot) (toBytesLE 8 (probeLeaf s.chip)))
      (hbmKey s.chip probeVa) bytes }

end Sys2Proof.Machine
end

