-- ==== Sys2Proof/Machine/Step.lean ====
section
/-! DEFINITION. One step of the machine. -/

namespace Sys2Proof.Machine

/-- One step (log 4). -/
def step (s : State) : Host.Outcome State Fault Refusal := nextMove s

/-- A state in which the instruction of these bits is the next that step fetches and runs. -/
def State.withFetchWord (s : State) (nbits w : Nat) : State := probeState s nbits w

end Sys2Proof.Machine
end

