-- ==== Sys2Proof/Safety.lean ====
section
/-! DEFINITION. The terms in which claims are stated: when a word issues with nothing to stop it, what an instruction
leaves alone, and the results that the spec gives the compute words, written over integers where the spec does. -/

namespace Sys2Proof.Machine

/-! ## What is left alone -/

/-- Every byte of memory reads as before. -/
def SameMemory (s t : State) : Prop := ∀ k, memGet t.mem k = memGet s.mem k

/-- Every byte outside these keys reads as before. -/
def SameMemoryBut (ks : List Nat) (s t : State) : Prop := ∀ k, k ∉ ks → memGet t.mem k = memGet s.mem k

/-- The keys of a redundant copy's checkpoint area where the word that issues is its last commit point: they are written
when that word completes (R333, R334). No keys otherwise. -/
def checkpointKeys (s : State) : List Nat :=
  if s.warp.grantedNow then (checkpointPlaces s s.warp).1.flatMap fun p =>
    match p.2.2 with
    | .ok k => keysFrom k p.2.1
    | .error _ => []
  else []

/-- Memory after a word that stores nothing of its own: only a checkpoint that follows the word may have written, in its
area alone. -/
def CheckpointAlone (s t : State) : Prop :=
  SameMemoryBut (checkpointKeys s) s t ∧
    (s.warp.grantedNow = false → t.mem = s.mem ∧ t.hist = s.hist ∧ t.poison = s.poison)

/-- An access word changed scalar registers, the access program counter and readiness of its own warp, and what a
redundant group counts of the word and checkpoints after it, and nothing else. -/
def AccessOnly (s t : State) : Prop :=
  t = { s with
    warp := { s.warp with s := t.warp.s, apc := t.warp.apc, acc := t.warp.acc, rg := t.warp.rg }
    checkpoints := t.checkpoints, mem := t.mem, hist := t.hist, poison := t.poison, tlb := t.tlb } ∧
  CheckpointAlone s t ∧ (s.warp.grantedNow = false → t.tlb = s.tlb)

/-- A core changed its logical time and lease copies at most (R192). -/
def TimesOnly (c d : Core) : Prop := d = { c with pts := d.pts, leases := d.leases }

/-- An access that only reads changed, beside what AccessOnly names, what its stream has observed (R195), the translation
cache and the times of lines, cores and slices (R187, R192, R238). -/
def LoadOnly (s t : State) : Prop :=
  t = { s with
    warp := { s.warp with s := t.warp.s, apc := t.warp.apc, acc := t.warp.acc, aview := t.warp.aview, rg := t.warp.rg }
    checkpoints := t.checkpoints, tlb := t.tlb, lineTimes := t.lineTimes, dieLeases := t.dieLeases, cores := t.cores
    mem := t.mem, hist := t.hist, poison := t.poison } ∧
  CheckpointAlone s t ∧ ∀ n, TimesOnly (Tab.getD s.cores n Core.init) (Tab.getD t.cores n Core.init)

/-- The logit-filter contexts without the model's own marks of who knows of them (R316). -/
def bareFilters (s : State) : List FilterCtx := s.filters.map fun f => { f with read := false, pub := none }

/-- A store of the access stream changed memory, what records its bytes' writes and who knows of them, poison marks and
times, and in its warp the access program counter, readiness and what the stream has observed alone. -/
def StoreOnly (s t : State) : Prop :=
  t = { s with
    warp := { s.warp with apc := t.warp.apc, acc := t.warp.acc, aview := t.warp.aview }
    mem := t.mem, hist := t.hist, serial := t.serial, spDirty := t.spDirty, poison := t.poison, tlb := t.tlb
    lineTimes := t.lineTimes, cores := t.cores, sent := t.sent, tfences := t.tfences, filters := t.filters } ∧
  bareFilters t = bareFilters s ∧
  ∀ n, TimesOnly (Tab.getD s.cores n Core.init) (Tab.getD t.cores n Core.init)

/-- Scalar registers after a write of sD: s0 reads 0 and discards writes (R73). -/
def scalarAfter (w : Warp) (d : Reg) (v : DWord) (r : Reg) : DWord := if r = d ∧ d ≠ 0#5 then v else w.sget r

/-! ## Access arithmetic (R125, R126), over integers -/

/-- sD and its new value, read off the tables of R125 and R126; `r` are the scalar registers as read. -/
def accessResult (r : Reg → DWord) : Instr → Option (Reg × DWord)
  | .addi d a imm => some (d, BitVec.ofInt 64 ((r a).toInt + imm.toInt))
  | .andi d a imm => some (d, r a &&& BitVec.ofNat 64 imm.toNat)
  | .ori d a imm => some (d, r a ||| BitVec.ofNat 64 imm.toNat)
  | .xori d a imm => some (d, r a ^^^ BitVec.ofNat 64 imm.toNat)
  | .slti d a imm => some (d, if (r a).toInt < imm.toInt then 1#64 else 0#64)
  | .lui d imm => some (d, BitVec.ofInt 64 (imm.toInt * 2 ^ 16))
  | .shli d a n => some (d, BitVec.ofNat 64 ((r a).toNat * 2 ^ n.toNat))
  | .shri d a n => some (d, BitVec.ofNat 64 ((r a).toNat / 2 ^ n.toNat))
  | .srai d a n => some (d, BitVec.ofInt 64 ((r a).toInt / 2 ^ n.toNat))
  | .add d a b => some (d, BitVec.ofInt 64 ((r a).toInt + (r b).toInt))
  | .sub d a b => some (d, BitVec.ofInt 64 ((r a).toInt - (r b).toInt))
  | .mul d a b => some (d, BitVec.ofInt 64 ((r a).toInt * (r b).toInt))
  | .mulh d a b => some (d, BitVec.ofInt 64 ((r a).toInt * (r b).toInt / 2 ^ 64))
  | .and d a b => some (d, r a &&& r b)
  | .or d a b => some (d, r a ||| r b)
  | .xor d a b => some (d, r a ^^^ r b)
  | .shl d a b => some (d, BitVec.ofNat 64 ((r a).toNat * 2 ^ ((r b).toNat % 64)))
  | .shr d a b => some (d, BitVec.ofNat 64 ((r a).toNat / 2 ^ ((r b).toNat % 64)))
  | .sra d a b => some (d, BitVec.ofInt 64 ((r a).toInt / 2 ^ ((r b).toNat % 64)))
  | .slt d a b => some (d, if (r a).toInt < (r b).toInt then 1#64 else 0#64)
  | .sltn d a b => some (d, if (r a).toNat < (r b).toNat then 1#64 else 0#64)
  | .min d a b => some (d, BitVec.ofInt 64 (Min.min (r a).toInt (r b).toInt))
  | .max d a b => some (d, BitVec.ofInt 64 (Max.max (r a).toInt (r b).toInt))
  | .minn d a b => some (d, BitVec.ofNat 64 (Min.min (r a).toNat (r b).toNat))
  | .maxn d a b => some (d, BitVec.ofNat 64 (Max.max (r a).toNat (r b).toNat))
  | _ => none

/-- The branches with their conditions (R127); `r` are the scalar registers as read. -/
def branches (r : Reg → DWord) (a b : Reg) (off : BitVec 16) (i : Instr) (taken : Bool) : Prop :=
  i = .beq a b off ∧ taken = decide (r a = r b) ∨ i = .bne a b off ∧ taken = decide (r a ≠ r b) ∨
    i = .blt a b off ∧ taken = decide ((r a).toInt < (r b).toInt) ∨
    i = .bge a b off ∧ taken = decide ((r b).toInt ≤ (r a).toInt) ∨
    i = .bltn a b off ∧ taken = decide ((r a).toNat < (r b).toNat) ∨
    i = .bgen a b off ∧ taken = decide ((r b).toNat ≤ (r a).toNat)

/-! ## A lane word that issues -/

/-- What a lane word of this form sees when it issues: the context of its body. -/
def cxOf (s : State) (f : LaneForm) (w : Strip) (sp : Split) : Cx := readCx s w f sp (takingPart s.warp sp f w)

/-- Inside an open fragment and outside a handler the word is pure, names no queue and, unless exempt, reads clean
registers and predicates alone (R265, R266). -/
def PureHere (i : Instr) (f : LaneForm) (w : Strip) (fr : Frag) : Prop :=
  f.pure = true ∧ namedQueues f w = [] ∧ (f.exempt = true ∨ readsClean fr i f w = true)

/-- A lane word issues: a split stands in the selected slot, the word is legal (R69), its registers lie in the
allocation (R71), its queues have entries and room (R19, R20), its tags are accepted where some lane takes part (R36),
it may stand in the open fragment, if any, and its warp is no redundant copy. -/
structure LaneReady (i : Instr) (f : LaneForm) (w : Strip) (sp : Split) (s : State) : Prop where
  split : s.split? = some sp
  form : laneForm i = some (f, w)
  legal : formLegal f w = true
  inside : (Form.readRegs f w ++ Form.dstRegs f w).all (inAlloc s.warp.units) = true
  fed : (namedQueues f w).any (fun q => (s.warp.fq.getD q []).isEmpty) = false
  room : backFull s.warp f w (takingPart s.warp sp f w) = false
  tags : takingPart s.warp sp f w = 0#32 ∨ w.fmt.toNat < 11 ∧ tagsOk s.draws s.warp f w = true
  pure : ∀ fr, s.warp.frag = some fr → readsPending s.warp f w = false ∧ (sp.ts.isSome = true ∨ PureHere i f w fr)
  single : s.warp.rg = none

/-- No lane of P reads a poisoned word as an operand (R329). -/
def Unpoisoned (cx : Cx) : Prop := genericDeaths cx = 0#32

/-! ## What a retired lane word leaves -/

/-- A lane register holds the words, tag, metadata and poison marks that it held. -/
def SameReg (s t : State) (n : Nat) : Prop :=
  (t.warp.reg n).val = (s.warp.reg n).val ∧ (t.warp.reg n).tag = (s.warp.reg n).tag ∧
    (t.warp.reg n).side = (s.warp.reg n).side ∧ (t.warp.reg n).poison = (s.warp.reg n).poison

/-- A lane word retired (R82): its split goes on at `next`, the other slot and everything outside its warp stay, but for
what its core counts and which words have read a filter's status (R316); in the warp registers, predicates, queues,
outstanding results and clean bits may have changed. -/
def LaneRetired (cx : Cx) (next : DWord) (s t : State) : Prop :=
  (∃ sp sig, s.split? = some sp ∧
    t.split? = some { sp with pc := next, sig := sig, only := none, wait := .none, issued := s.draws }) ∧
  t.warp.slot? (!s.slotB) = s.warp.slot? (!s.slotB) ∧
  t.warp.fq = (popQueues s.warp (namedQueues cx.f cx.w)).fq ∧
  t = { s with
    warp := { s.warp with
      slotA := t.warp.slotA, slotB := t.warp.slotB, regs := t.warp.regs, preds := t.warp.preds, fq := t.warp.fq
      bq := t.warp.bq, pending := t.warp.pending, parked := t.warp.parked, frag := t.warp.frag
      retired := s.warp.retired + 1, watch := s.cycle }
    cores := t.cores, filters := t.filters } ∧
  bareFilters t = bareFilters s ∧ SameMemory s t

/-- One register that a word writes: the lanes it writes, their words, the tag, and what travels with a moved value. -/
structure Wrote where
  n : Nat
  mask : LaneMask
  tag : FmtTag
  word : Nat → Word
  poison : LaneMask := 0#32
  side : List (Byte × Byte) := []

/-- The register after the write: the words of the mask's lanes, the old words in the other alive lanes (R32), the tag
(R147), the poison marks (R329) and the metadata of a BX4 result alone (R45). -/
def RegAfter (x : Wrote) (s t : State) : Prop :=
  (∀ k, k < 32 → x.mask.has k = true → (t.warp.reg x.n).val.word k = x.word k) ∧
  (∀ k, k < 32 → s.warp.alive.has k = true → x.mask.has k = false →
    (t.warp.reg x.n).val.word k = (s.warp.reg x.n).val.word k) ∧
  (t.warp.reg x.n).tag = x.tag ∧
  (t.warp.reg x.n).poison = ((s.warp.reg x.n).poison &&& ~~~x.mask) ||| (x.poison &&& x.mask) ∧
  (t.warp.reg x.n).side = if x.tag = 8#4 then blockSides (s.warp.reg x.n).side x.mask x.side else (s.warp.reg x.n).side

/-- The back queues after pushes of these results: 0 in the lanes outside a mask (R20); discarded after HALTS (R141). -/
def backAfter (s : State) (l : List Wrote) : Vector (List BEntry) 2 :=
  if s.warp.acc = .halted then s.warp.bq
  else (l.filter fun x => decide (248 ≤ x.n)).foldl (fun bq x => bq.setIfInBounds (x.n - 248) (bq.getD (x.n - 248) [] ++
    [⟨laneIds.map fun k => if x.mask.has k then x.word k else 0#32, x.mask, x.tag, x.poison &&& x.mask⟩])) s.warp.bq

/-- The results of a word, written when it retires: these registers and back-queue entries, and these predicates in these
lanes; no other register and no other predicate changes. -/
def LaneWritten (l : List Wrote) (ps : List PredWrite) (s t : State) : Prop :=
  (∀ x ∈ l, x.n < 248 → RegAfter x s t) ∧
  (∀ n, (∀ x ∈ l, x.n ≠ n ∨ 248 ≤ n) → SameReg s t n) ∧
  t.warp.bq = backAfter s l ∧
  (∀ p ∈ ps, ∀ k, k < 32 → t.warp.predLane p.k k =
    if p.k = 7 then true else if p.mask.has k then p.bits.has k else s.warp.predLane p.k k) ∧
  (∀ n k, n < 7 → (∀ p ∈ ps, p.k ≠ n) → t.warp.predLane n k = s.warp.predLane n k)

/-- A register write as the claims describe it: the words of its mask's lanes count. -/
def Wrote.of (y : Wrote) (x : RegWrite) : Prop :=
  x.n = y.n ∧ x.mask = y.mask ∧ x.tag = y.tag ∧ x.poison = y.poison ∧ x.side = y.side ∧
    ∀ k, k < 32 → x.mask.has k = true → x.val.word k = y.word k

/-- The results of a variable-latency word (R74, R75): no register and no predicate has changed; the results are
outstanding, later writes of their registers for the older outstanding ones, but for entries of back queues. -/
def LanePromised (l : List Wrote) (ps : List PredWrite) (s t : State) : Prop :=
  (∀ n, SameReg s t n) ∧ t.warp.preds = s.warp.preds ∧ t.warp.bq = backAfter s l ∧
  (if (l.filter fun x => decide (x.n < 248)) = [] ∧ ps = [] then t.warp.pending = s.warp.pending
   else ∃ p, t.warp.pending = (s.warp.promise p).pending ∧ p.preds = ps ∧ p.again = [] ∧
     List.Forall₂ Wrote.of (l.filter fun x => decide (x.n < 248)) p.regs)

/-- The results of a word that is not variable-latency by itself: written when it retires, and outstanding where it named
a queue, which it has then popped (R19, R74, R75). -/
def LaneResults (l : List Wrote) (ps : List PredWrite) (s t : State) : Prop :=
  (t.warp.fq = s.warp.fq → LaneWritten l ps s t) ∧ (t.warp.fq ≠ s.warp.fq → LanePromised l ps s t)

/-- One result in the lanes of P. -/
def LaneResult (cx : Cx) (tag : FmtTag) (g : Nat → Word) (s t : State) : Prop :=
  LaneResults [{ n := cx.d, mask := cx.p, tag := tag, word := g }] [] s t

/-- No register that the word reads has an outstanding result, so every source reads as it stands (R75). -/
def Settled (s : State) (f : LaneForm) (w : Strip) : Prop := readsPending s.warp f w = false

/-- A lane word that issues and runs its body in some lane, on operands that nothing outstanding writes and that carry
no poison. -/
structure LaneRuns (i : Instr) (f : LaneForm) (w : Strip) (sp : Split) (s : State) : Prop extends LaneReady i f w sp s where
  clean : Unpoisoned (cxOf s f w sp)
  settled : Settled s f w
  some : (cxOf s f w sp).p ≠ 0#32

/-! ## The compute words, as the tables of the spec give them -/

/-- A lane word's constructor and its result in lane k. -/
abbrev LaneRow := (Strip → Instr) × (Cx → Nat → Word)

/-- A result from lane k's words of A, B and C. -/
def byWords (g : Strip → Word → Word → Word → Word) (cx : Cx) (k : Nat) : Word :=
  g cx.w (cx.a.word k) (cx.b.word k) (cx.c.word k)

/-- A float result from the codes of A, B and C, with RM and SAT. -/
def byCodes (g : Nat → Bool → Nat → Nat → Nat → Nat) : Cx → Nat → Word :=
  byWords fun w a b c => BitVec.ofNat 32 (g w.rm.toNat w.sat a.toNat b.toNat c.toNat)

/-- A packed result, element by element in the format of FMT (R41, R156). -/
def byHalves (g : FloatFmt → Nat → Bool → Nat → Nat → Nat → Nat) : Cx → Nat → Word := byWords fun w a b c =>
  let e (v : Word) (j : Nat) : Nat := v.toNat / 2 ^ (16 * j) % 2 ^ 16
  let r (j : Nat) : Nat := g (if w.fmt = 4#4 then .bf16 else .f16) w.rm.toNat w.sat (e a j) (e b j) (e c j)
  BitVec.ofNat 16 (r 1) ++ BitVec.ofNat 16 (r 0)

/-- A word as an integer, signed under I32 (R149). -/
def num (w : Strip) (v : Word) : Int := if w.fmt = 1#4 then v.toInt else v.toNat

/-- An exact result modulo 2^32, or clamped to the range of FMT under SAT (R149). -/
def narrowed (w : Strip) (z : Int) : Word :=
  BitVec.ofInt 32 (if w.sat then
    (if w.fmt = 1#4 then max (-2147483648) (min 2147483647 z) else max 0 (min 4294967295 z)) else z)

/-- The integer words of R150 with one result. -/
def integerRows : List LaneRow := [
  (.iadd, byWords fun w a b _ => narrowed w (num w a + num w b)),
  (.isub, byWords fun w a b _ => narrowed w (num w a - num w b)),
  (.imul, byWords fun w a b _ => narrowed w (num w a * num w b)),
  (.imulh, byWords fun _ a b _ => BitVec.ofInt 32 (a.toInt * b.toInt / 2 ^ 32)),
  (.imulhn, byWords fun _ a b _ => BitVec.ofNat 32 (a.toNat * b.toNat / 2 ^ 32)),
  (.imad, byWords fun w a b c => narrowed w (num w a * num w b + num w c)),
  (.imin, byWords fun _ a b _ => BitVec.ofInt 32 (min a.toInt b.toInt)),
  (.imax, byWords fun _ a b _ => BitVec.ofInt 32 (max a.toInt b.toInt)),
  (.iminn, byWords fun _ a b _ => BitVec.ofNat 32 (min a.toNat b.toNat)),
  (.imaxn, byWords fun _ a b _ => BitVec.ofNat 32 (max a.toNat b.toNat)),
  (.iabs, byWords fun w a _ _ => narrowed w (num w a).natAbs),
  (.ineg, byWords fun w a _ _ => narrowed w (-num w a)),
  (.iand, byWords fun _ a b _ => a &&& b),
  (.ior, byWords fun _ a b _ => a ||| b),
  (.ixor, byWords fun _ a b _ => a ^^^ b),
  (.inot, byWords fun _ a _ _ => ~~~a),
  (.ishl, byWords fun _ a b _ => BitVec.ofNat 32 (a.toNat * 2 ^ (b.toNat % 256))),
  (.ishr, byWords fun _ a b _ => BitVec.ofNat 32 (a.toNat / 2 ^ (b.toNat % 256))),
  (.isra, byWords fun _ a b _ => BitVec.ofInt 32 (a.toInt / 2 ^ (b.toNat % 256))),
  (.irot, byWords fun _ a b _ => a.rotateLeft (b.toNat % 32)),
  (.iclz, byWords fun _ a _ _ => BitVec.ofNat 32 ((List.range 32).takeWhile fun j => !a.getLsbD (31 - j)).length),
  (.ipopc, byWords fun _ a _ _ => BitVec.ofNat 32 ((List.range 32).countP fun j => a.getLsbD j)),
  (.ibrev, byWords fun _ a _ _ => BitVec.ofBoolListBE ((List.range 32).map fun j => a.getLsbD j)),
  (.ibfx, byWords fun w a b _ =>
    let pos := b.toNat % 32
    let k := min (pos + min (b.toNat / 256 % 64) 32) 32 - pos
    if w.fmt = 1#4 then BitVec.ofInt 32 ((BitVec.extractLsb' pos k a).toInt) else BitVec.ofNat 32 ((BitVec.extractLsb' pos k a).toNat)),
  (.ibfi, byWords fun _ a b c =>
    let mask : Word := BitVec.ofNat 32 ((2 ^ min (b.toNat / 256 % 64) 32 - 1) * 2 ^ (b.toNat % 32))
    (c &&& ~~~mask) ||| (BitVec.ofNat 32 (a.toNat * 2 ^ (b.toNat % 32)) &&& mask)),
  (.idiv, byWords fun _ a b _ => if b = 0#32 then 0xFFFFFFFF#32 else BitVec.ofInt 32 (a.toInt.tdiv b.toInt)),
  (.idivn, byWords fun _ a b _ => if b = 0#32 then 0xFFFFFFFF#32 else BitVec.ofNat 32 (a.toNat / b.toNat)),
  (.irem, byWords fun _ a b _ => if b = 0#32 then a else BitVec.ofInt 32 (a.toInt - a.toInt.tdiv b.toInt * b.toInt)),
  (.iremn, byWords fun _ a b _ => if b = 0#32 then a else BitVec.ofNat 32 (a.toNat % b.toNat))]

/-- The float words of R153, R156 and R157 with one result: the function of their row, on the operands' codes. -/
def floatRows : List LaneRow := [
  (.fadd, byCodes fun rm sat a b _ => fAdd .f32 rm sat a b),
  (.fsub, byCodes fun rm sat a b _ => fSub .f32 rm sat a b),
  (.fmul, byCodes fun rm sat a b _ => fMul .f32 rm sat a b),
  (.fma, byCodes fun rm sat a b c => fMulAdd .f32 rm sat a b c),
  (.fmin, byCodes fun _ _ a b _ => fMinOf .f32 a b),
  (.fmax, byCodes fun _ _ a b _ => fMaxOf .f32 a b),
  (.fabs, byWords fun _ a _ _ => a &&& 0x7FFFFFFF#32),
  (.fneg, byWords fun _ a _ _ => a ^^^ 0x80000000#32),
  (.frcp, byCodes fun rm _ a _ _ => fRcp rm a),
  (.frsq, byCodes fun _ _ a _ _ => fRsq a),
  (.fsqrt, byCodes fun rm _ a _ _ => fSqrt rm a),
  (.fdiv, byCodes fun rm _ a b _ => fDiv rm a b),
  (.fexp2, byCodes fun _ _ a _ _ => fExp2 a),
  (.flog2, byCodes fun _ _ a _ _ => fLog2 a),
  (.frint, byCodes fun rm _ a _ _ => fRint rm a),
  (.fscale, byWords fun w a b _ => BitVec.ofNat 32 (fScale w.rm.toNat w.sat a.toNat b.toInt)),
  (.fexpe, byCodes fun _ sat a b _ => fExpE sat a b),
  (.hadd2, byHalves fun f rm sat a b _ => fAdd f rm sat a b),
  (.hmul2, byHalves fun f rm sat a b _ => fMul f rm sat a b),
  (.hfma2, byHalves fun f rm sat a b c => fMulAdd f rm sat a b c),
  (.dot4e, fun cx k => BitVec.ofNat 32
    (dot4 cx.w.rm.toNat cx.w.sat cx.a.tag cx.b.tag (cx.a.word k) (cx.b.word k) (cx.c.word k)))]

/-- The condition codes of ICMP (R151); signed under I32. -/
def integerCond (w : Strip) (a b : Word) : Bool :=
  match Form.xf w 6 3 with
  | 0 => decide (num w a = num w b)
  | 1 => decide (num w a ≠ num w b)
  | 2 => decide (num w a < num w b)
  | 3 => decide (num w a ≤ num w b)
  | 4 => decide (num w b < num w a)
  | _ => decide (num w b ≤ num w a)

/-- The words that write a predicate alone: their predicate and its value in lane k (R151, R155, R178). -/
def predicateRows : List ((Strip → Instr) × (Cx → Nat → Bool)) := [
  (.icmp, fun cx k => integerCond cx.w (cx.a.word k) (cx.b.word k)),
  (.fcmp, fun cx k => fCond (Form.xf cx.w 6 3) (cx.a.word k).toNat (cx.b.word k).toNat),
  (.pset, fun cx k => if cx.w.ib then cx.w.imm16 != 0#16 else cx.a.word k != 0#32),
  (.pmov, fun cx k => (Form.xf cx.w 12 9).testBit
    (2 * (cx.s.warp.predLane (Form.xf cx.w 5 3) k).toNat + (cx.s.warp.predLane (Form.xf cx.w 8 6) k).toNat))]

/-- The conversions with one result (R51, R52, R158, R159). -/
def conversionRows : List LaneRow := [
  (.cvt, fun cx k =>
    let v := cx.a.word k
    let z : Int := if cx.a.tag = 1#4 then v.toInt else v.toNat
    if cx.a.tag = cx.w.fmt then v
    else if cx.a.tag = 3#4 then fToInt cx.w.rm.toNat (cx.w.fmt == 1#4) v.toNat
    else if cx.w.fmt = 3#4 then BitVec.ofNat 32 (intToF cx.w.rm.toNat z)
    else BitVec.ofInt 32 (if cx.w.fmt = 1#4 then min 2147483647 z else max 0 z)),
  (.cvtPk, fun cx k =>
    let half (v : Word) (j : Nat) : Nat := v.toNat / 2 ^ (16 * j) % 2 ^ 16
    let fmt16 (t : FmtTag) : FloatFmt := if t = 4#4 then .bf16 else .f16
    if cx.w.fmt = 4#4 ∨ cx.w.fmt = 5#4 then
      let n (v : Word) : BitVec 16 := BitVec.ofNat 16 (convNarrow .f32 (fmt16 cx.w.fmt) cx.w.rm.toNat v.toNat)
      n (cx.b.word k) ++ n (cx.a.word k)
    else
      let n (o : Operand) (j : Nat) : BitVec 8 :=
        BitVec.ofNat 8 (convNarrow (fmt16 o.tag) (if cx.w.fmt = 6#4 then .e4m3 else .e5m2) cx.w.rm.toNat (half (o.word k) j))
      n cx.b 1 ++ n cx.b 0 ++ n cx.a 1 ++ n cx.a 0),
  (.cvtUpk, fun cx k =>
    let h : Nat := if cx.w.x.getLsbD 0 then 1 else 0
    let v := (cx.a.word k).toNat
    if cx.w.fmt = 3#4 then
      BitVec.ofNat 32 (convWiden (if cx.a.tag = 4#4 then .bf16 else .f16) .f32 (v / 2 ^ (16 * h) % 2 ^ 16))
    else
      let e (j : Nat) : BitVec 16 := BitVec.ofNat 16 (convWiden (if cx.a.tag = 6#4 then .e4m3 else .e5m2)
        (if cx.w.fmt = 4#4 then .bf16 else .f16) (v / 2 ^ (8 * (2 * h + j)) % 2 ^ 8))
      e 1 ++ e 0)]

/-! ## Across lanes -/

/-- Lane k takes part. -/
def Takes (cx : Cx) (k : Nat) : Prop := k < 32 ∧ cx.p.has k = true

/-- A lane's value where it takes part, ABSENT otherwise (R166). -/
def contribution (cx : Cx) (k : Nat) : Option Word := if cx.p.has k then some (cx.a.word k) else none

/-- node(h, t) of R166 over the contributions of the group that starts at lane g. -/
def node (f : Word → Word → Word) (cx : Cx) (g : Nat) : Nat → Nat → Option Word
  | 0, t => contribution cx (g + t)
  | h + 1, t => combine f (node f cx g h (2 * t)) (node f cx g h (2 * t + 1))

/-- acc of R166 after the first n lanes of the group that starts at lane g. -/
def prefixOf (f : Word → Word → Word) (cx : Cx) (g : Nat) : Nat → Option Word
  | 0 => none
  | n + 1 => combine f (prefixOf f cx g n) (contribution cx (g + n))

/-- The rank of lane j among the lanes of P of its group of S lanes: how many stand before it, by greater key, or by an
equal key and a lower lane (R168). -/
def rankOf (cx : Cx) (S j : Nat) : Nat :=
  (laneIds.filter fun k => cx.p.has k && k / S == j / S &&
    (decide (rankKey cx.w.fmt (cx.a.word j) < rankKey cx.w.fmt (cx.a.word k)) ||
      (rankKey cx.w.fmt (cx.a.word k) == rankKey cx.w.fmt (cx.a.word j) && decide (k < j)))).length

/-- How many lanes of P of its group stand below lane i (R168). -/
def placeOf (cx : Cx) (S i : Nat) : Nat := (laneIds.filter fun k => cx.p.has k && k / S == i / S && decide (k < i)).length

/-! ## Values -/

/-- The magnitude that a code stands for on a format's grid, taken on without an upper bound of the exponent (R40, R48). -/
def gridValue (f : FloatFmt) (c : Nat) : ℚ :=
  if c / 2 ^ f.m = 0 then (c : ℚ) * (2 : ℚ) ^ f.qmin
  else ((c % 2 ^ f.m + 2 ^ f.m : Nat) : ℚ) * (2 : ℚ) ^ (f.qmin + (c / 2 ^ f.m : Nat) - 1)

/-! ## Control words -/

/-- A control word moved splits: the slots, the divergence and return stacks and the counts of its warp changed, what
its core counts, and the translation cache where targets were looked up; no register holds another value. -/
def ControlOnly (s t : State) : Prop :=
  t = { s with
    warp := { s.warp with
      slotA := t.warp.slotA, slotB := t.warp.slotB, stack := t.warp.stack, rets := t.warp.rets, regs := t.warp.regs
      nextJoin := t.warp.nextJoin, retired := s.warp.retired + 1
      watch := s.cycle, parked := t.warp.parked }
    cores := t.cores, tlb := t.tlb, filters := t.filters } ∧
  bareFilters t = bareFilters s ∧ ∀ n, SameReg s t n

/-- NEXT + 12 × a signed displacement (R170). -/
def branchTarget (sp : Split) (disp : BitVec 26) : DWord := sp.pc + 12#64 + 12#64 * disp.signExtend 64

/-- A split of the issuing one's lanes that goes on at an address: its signature is seeded with its mask outside a
handler (R322, R323). -/
def Continues (s : State) (sp : Split) (pc : DWord) (mask : LaneMask) (join : Option Nat) (q : Split) : Prop :=
  q = { sp with
    id := q.id, pc := pc, mask := mask, join := join, only := none, wait := .none, issued := s.draws, entered := q.entered
    sig := if sp.ts.isSome then sp.sig else sigSeed mask }

/-- The split of a warp divided by an address per lane (R24): each lane of the mask goes on at its address with exactly
the lanes of the same address; the group of the lowest lane stays in the slot; the other splits and the join records stay
as they were. -/
def Divided (s t : State) (sp : Split) (addr : Nat → DWord) (join : Option Nat) : Prop :=
  (∀ k, k < 32 → sp.mask.has k = true → ∃ q ∈ t.warp.splits,
    Continues s sp (addr k) (LaneMask.ofPred fun j => sp.mask.has j && addr j == addr k) join q) ∧
  (∀ q ∈ t.warp.splits, q ∈ s.warp.splits ∨ ∃ k, k < 32 ∧ sp.mask.has k = true ∧
    Continues s sp (addr k) (LaneMask.ofPred fun j => sp.mask.has j && addr j == addr k) join q) ∧
  (∀ q ∈ s.warp.splits, q ≠ sp → q ∈ t.warp.splits) ∧
  (∀ r, StackEntry.join r ∈ s.warp.stack → StackEntry.join r ∈ t.warp.stack) ∧
  (∃ q, t.split? = some q ∧ q.mask.has (LaneMask.lowest sp.mask) = true)

/-! ## Lane memory words -/

/-- The load words with the accesses of their lanes, and whether .const limits them (R201, R202, R210). -/
def loadRows : List ((Strip → Instr) × (Cx → List LaneAcc) × Bool) := [
  (.ld, fun cx => cx.pagedAccs true, false), (.ldC, fun cx => cx.pagedAccs true, true),
  (.ldP, fun cx => cx.scratchAccs false (Form.sizeBytes cx.w), false),
  (.ldCl, fun cx => cx.scratchAccs true (Form.sizeBytes cx.w), false)]

/-- The store words with the accesses of their lanes (R201, R202). -/
def storeRows : List ((Strip → Instr) × (Cx → List LaneAcc)) := [
  (.st, fun cx => cx.pagedAccs true), (.stP, fun cx => cx.scratchAccs false (Form.sizeBytes cx.w)),
  (.stCl, fun cx => cx.scratchAccs true (Form.sizeBytes cx.w))]

/-- The word that a load of SIZE bytes at a key gives the k-th register of a lane, as reader `lane` of a path's view sees
the bytes: low byte first, extended to a word (R8, R203). -/
def loadedWord (s : State) (v : PathView) (w : Strip) (lane key k : Nat) : Word :=
  let n := 2 ^ Form.xf w 2 0
  let x := readNat s v .g lane (key + 4 * k) (min n 4)
  if w.x.getLsbD 3 ∧ n = 1 then (BitVec.ofNat 8 x).signExtend 32
  else if w.x.getLsbD 3 ∧ n = 2 then (BitVec.ofNat 16 x).signExtend 32
  else BitVec.ofNat 32 x

/-- Byte j of a lane's stored data: low byte first, four bytes of each register from C upward (R203). -/
def storedByte (cx : Cx) (lane j : Nat) : Byte :=
  BitVec.ofNat 8 (((operand cx.s.draws cx.s.warp cx.w.c (j / 4)).word lane).toNat / 256 ^ (j % 4))

/-- The number that n bytes of memory from a key stand for (R8). -/
def memNat (s : State) (key n : Nat) : Nat := ofBytesLE ((keysFrom key n).map fun k => memGet s.mem (home s k))

/-- Every write so far has its place in the generic order: reads and writes of path G are ordered after it (R190, R195). -/
def Ordered (s : State) : Prop := ∀ r ∈ s.hist, r.path = .g ∨ r.fenced.isSome = true

/-- No two bytes that placed accesses of n bytes name are one byte under two names (R184, R208). -/
def Apart (s : State) (n : Nat) (l : List (LaneAcc × Except AccErr Nat)) : Prop :=
  ∀ p ∈ l, ∀ q ∈ l, ∀ k m, p.2 = .ok k → q.2 = .ok m → ∀ a b, a < n → b < n →
    home s (k + a) = home s (m + b) → k + a = m + b

/-- A state with what the issuing split knows of other paths (R195) as in another. -/
def seenFrom (s t : State) : State := s.modSplit fun sp => { sp with view := (t.split?.map (·.view)).getD sp.view }

/-- What a word that only reads memory may have changed beside what retirement changes: what its split knows of other
paths, the translation cache, and times (R192). -/
def readFrom (s t : State) : State := { seenFrom s t with tlb := t.tlb, lineTimes := t.lineTimes, dieLeases := t.dieLeases }

/-- What a word that writes memory may have changed beside what retirement changes. -/
def writtenFrom (s t : State) : State :=
  { seenFrom s t with
    mem := t.mem, hist := t.hist, serial := t.serial, spDirty := t.spDirty, poison := t.poison, tlb := t.tlb
    lineTimes := t.lineTimes, dieLeases := t.dieLeases, sent := t.sent, tfences := t.tfences }

end Sys2Proof.Machine
end

