-- ==== Sys2Proof/WellFormed.lean ====
section
/-! DEFINITION. Well-formed instructions: the terms that stand for a legal word of the two streams, or for an
undefined word as such. An ill-formed word still has a meaning: it traps ILLEGAL (R67, R69). -/

namespace Sys2Proof

/-- The operand conditions of the access words that their fields can break (R135, R136, R137). -/
def accessLegal : Instr → Bool
  | .qpopD _ _ l _ => !l.getLsbD 0
  | .xlats _ a _ => !a.getLsbD 0
  | .xlatq a _ _ => !a.getLsbD 0
  | _ => true

/-- A word the maps do not list is carried by the undefined constructors alone (R67, R85). -/
def undefinedLegal : Instr → Bool
  | .undefinedAccessWord w => decide (decodeAccess w = .undefinedAccessWord w)
  | .undefinedLaneOpcode op w => decide (laneOf op w = .undefinedLaneOpcode op w)
  | _ => true

/-- Well-formedness of an instruction. -/
def Instr.wf (i : Instr) : Bool := accessLegal i && undefinedLegal i && Machine.laneLegal i

end Sys2Proof
end

