-- ==== Sys2Proof/Certificates/Slice0/Obligations.lean ====
section
/-! DEFINITION. The statements about this model, one for each group of instructions or rules, over the terms of Safety. A
`Clause` is a part of the statement that follows it. -/

open Sys2Proof Sys2Proof.Machine

/-! ## The access stream -/

/-- R125, R126: every arithmetic word of the access stream writes sD as the tables say, over integers; sD alone changes,
s0 reads 0 and discards the write, and the stream goes on at NEXT. -/
def Clause.AccessArithmetic : Prop :=
  ∀ (i : Instr) (s : State) (d : Reg) (v : DWord),
    accessResult s.warp.sget i = some (d, v) → accessRuns s.warp = true →
    ∃ t, exec i s = .next t ∧ (∀ r, t.warp.sget r = scalarAfter s.warp d v r) ∧ t.warp.apc = s.warp.apc + 4#64 ∧
      t.warp.acc = .ready ∧ AccessOnly s t

/-- R127, R128, R129, R144: branches, jumps, TRAMPS and NOPS continue where the tables say; JAL links in s1 and JR in sD,
the target read before the link is written. -/
def Clause.AccessTransfer : Prop :=
  ∀ (s : State) (i : Instr) (target : DWord) (link : Option Reg), accessRuns s.warp = true →
    (i = .nops ∧ target = s.warp.apc + 4#64 ∧ link = none ∨
      (∃ off, (i = .j off ∨ i = .tramps off) ∧ link = none ∧
        target = s.warp.apc + 4#64 + 4#64 * off.signExtend 64) ∨
      (∃ off, i = .jal off ∧ link = some 1#5 ∧ target = s.warp.apc + 4#64 + 4#64 * off.signExtend 64) ∨
      (∃ d a imm, i = .jr d a imm ∧ link = some d ∧ target = BitVec.ofInt 64 ((s.warp.sget a).toInt + imm.toInt)) ∨
      (∃ a b off taken, branches s.warp.sget a b off i taken ∧ link = none ∧
        target = if taken then s.warp.apc + 4#64 + 4#64 * off.signExtend 64 else s.warp.apc + 4#64)) →
    ∃ t, exec i s = .next t ∧ t.warp.apc = target ∧ t.warp.acc = .ready ∧
      (∀ r, t.warp.sget r = match link with
        | some d => scalarAfter s.warp d (s.warp.apc + 4#64) r
        | none => s.warp.sget r) ∧
      AccessOnly s t

/-- Access arithmetic writes sD as the tables say; branches and jumps continue at their targets; nothing else changes:
the two clauses AccessArithmetic and AccessTransfer. -/
def Obligations.AccessArith : Prop := Clause.AccessArithmetic ∧ Clause.AccessTransfer

/-- R122, R130: outside a redundant group LDS and LDSW read the 8 or 4 bytes at ea, low byte first, into sD. -/
def Clause.ScalarLoads : Prop :=
  ∀ (i : Instr) (n : Nat) (d a : Reg) (imm : BitVec 16) (s s' : State) (k : Nat),
    (i = .lds d a imm ∧ n = 8 ∨ i = .ldsw d a imm ∧ n = 4) → accessRuns s.warp = true → s.warp.rg = none →
    (s.warp.sget a + imm.signExtend 64).toNat % n = 0 →
    placeAccess s (aviewOf s.warp) s.warp .read (s.warp.sget a + imm.signExtend 64) n = (.ok k, s') →
    anyPoisoned s (keysFrom k n) = false →
    ∃ t, exec i s = .next t ∧
      (∀ r, t.warp.sget r = scalarAfter s.warp d (BitVec.ofNat 64 (readNat s (aviewOf s.warp) .g 0 k n)) r) ∧
      t.warp.apc = s.warp.apc + 4#64 ∧ t.warp.acc = .ready ∧ LoadOnly s t ∧ SameMemory s t

/-- R122, R130: outside a redundant group and an epoch STS and STSW store the low 8 or 4 bytes of sD at ea, low byte
first, and no other byte changes. The bytes are in memory where every earlier write of them is ordered before. -/
def Clause.ScalarStores : Prop :=
  ∀ (i : Instr) (n : Nat) (d a : Reg) (imm : BitVec 16) (s s' : State) (k : Nat),
    (i = .sts d a imm ∧ n = 8 ∨ i = .stsw d a imm ∧ n = 4) → accessRuns s.warp = true → s.warp.rg = none →
    s.warp.epoch = none → (s.warp.sget a + imm.signExtend 64).toNat % n = 0 →
    placeAccess s (aviewOf s.warp) s.warp .write (s.warp.sget a + imm.signExtend 64) n = (.ok k, s') →
    ∃ t, exec i s = .next t ∧ SameMemoryBut ((keysFrom k n).map (home s)) s t ∧
      ((∀ r ∈ s.hist, r.path = .g ∨ r.fenced.isSome = true) →
        ∀ j, j < n → memGet t.mem (home s (k + j)) = BitVec.ofNat 8 ((s.warp.sget d).toNat / 256 ^ j)) ∧
      t.warp = { s.warp with apc := s.warp.apc + 4#64, acc := .ready, aview := t.warp.aview } ∧ StoreOnly s t

/-- R122, R123, R87: a scalar access whose address is no multiple of its size traps ALIGN. -/
def Clause.ScalarAlignment : Prop :=
  ∀ (i : Instr) (n : Nat) (d a : Reg) (imm : BitVec 16) (s : State),
    (i = .lds d a imm ∧ n = 8 ∨ i = .ldsw d a imm ∧ n = 4 ∨
      (i = .sts d a imm ∧ n = 8 ∨ i = .stsw d a imm ∧ n = 4) ∧ s.warp.epoch = none) →
    accessRuns s.warp = true → (s.warp.sget a + imm.signExtend 64).toNat % n ≠ 0 →
    exec i s = .next (accessTrap s Code.align 0 0#16 (s.warp.sget a + imm.signExtend 64))

/-- Scalar loads and stores move exactly their 8 or 4 bytes, low byte first; a misaligned address traps ALIGN: the
three clauses ScalarLoads, ScalarStores and ScalarAlignment. What the spec leaves open and the model settles in it:
Who moves next is plain data of State; an access is performed when its word issues, with all its lanes in one step
(log 4). -/
def Obligations.ScalarAccesses : Prop := Clause.ScalarLoads ∧ Clause.ScalarStores ∧ Clause.ScalarAlignment

/-- R132, R134, R135: QPUSH appends a broadcast entry with its queue's tag; QPOP takes the oldest back-queue entry, or
leaves it under PEEK; a full or an empty queue makes the stream wait. -/
def Clause.ScalarQueues : Prop :=
  (∀ (s : State) (a : Reg) (q : BitVec 3) (hi : Bool), accessRuns s.warp = true →
    ((s.warp.fq[q.toNat]'q.isLt).length < 16 →
      ∃ t, exec (.qpush a q hi) s = .next t ∧
        t.warp.fq[q.toNat]'q.isLt = s.warp.fq[q.toNat]'q.isLt ++ [⟨false,
          [if hi then ((s.warp.sget a) >>> 32).setWidth 32 else (s.warp.sget a).setWidth 32], queueTag s.warp q, 0#32⟩] ∧
        (∀ p : BitVec 3, p ≠ q → t.warp.fq[p.toNat]'p.isLt = s.warp.fq[p.toNat]'p.isLt) ∧
        t.warp.apc = s.warp.apc + 4#64 ∧ t.warp.acc = .ready ∧ t.warp.s = s.warp.s ∧
        AccessOnly { s with warp := { s.warp with fq := t.warp.fq } } t) ∧
    (16 ≤ (s.warp.fq[q.toNat]'q.isLt).length →
      exec (.qpush a q hi) s = .next { s with warp := { s.warp with acc := .queue } })) ∧
  (∀ (s : State) (i : Instr) (d : Reg) (bq peek : Bool) (lane : BitVec 5) (e : BEntry) (rest : List BEntry) (v : DWord),
    accessRuns s.warp = true → s.warp.bq[if bq then 1 else 0]? = some (e :: rest) → e.poison = 0#32 →
    (i = .qpopW d bq lane peek ∧ v = (e.ws.getD lane.toNat 0#32).setWidth 64 ∨
      i = .qpopD d bq lane peek ∧ lane.getLsbD 0 = false ∧
        v = e.ws.getD (lane.toNat + 1) 0#32 ++ e.ws.getD lane.toNat 0#32 ∨
      i = .qpopM d bq peek ∧ v = BitVec.ofNat 64 (e.mask.toNat + e.tag.toNat * 2 ^ 32)) →
    ∃ t, exec i s = .next t ∧ (∀ r, t.warp.sget r = scalarAfter s.warp d v r) ∧
      t.warp.bq[if bq then 1 else 0]? = some (if peek then e :: rest else rest) ∧
      t.warp.bq[if bq then 0 else 1]? = s.warp.bq[if bq then 0 else 1]? ∧
      t.warp.apc = s.warp.apc + 4#64 ∧ t.warp.acc = .ready ∧
      AccessOnly { s with warp := { s.warp with bq := t.warp.bq } } t) ∧
  (∀ (s : State) (i : Instr) (d : Reg) (bq peek : Bool) (lane : BitVec 5),
    accessRuns s.warp = true → s.warp.bq[if bq then 1 else 0]? = some [] →
    (i = .qpopW d bq lane peek ∨ i = .qpopD d bq lane peek ∧ lane.getLsbD 0 = false ∨ i = .qpopM d bq peek) →
    exec i s = .next { s with warp := { s.warp with acc := .queue } })

/-- R133: outside a redundant group LDQ appends one vector entry: lane i's word from sA + i × STRIDE. -/
def Clause.VectorLoadQueue : Prop :=
  ∀ (s s' : State) (a : Reg) (q : BitVec 3) (stride : BitVec 18) (l : List (Nat × DWord × Except AccErr Nat)),
    accessRuns s.warp = true → s.warp.rg = none → (s.warp.fq[q.toNat]'q.isLt).length < 16 →
    accPlaces 4 (laneIds.map fun i => (i, s.warp.sget a + BitVec.ofNat 64 i * stride.signExtend 64)) s = (l, s') →
    (∀ p ∈ l, ∃ k, p.2.2 = .ok k) →
    ∃ t e, exec (.ldq a q stride) s = .next t ∧
      t.warp.fq[q.toNat]'q.isLt = s.warp.fq[q.toNat]'q.isLt ++ [e] ∧ e.vec = true ∧ e.tag = queueTag s.warp q ∧
      (∀ i k ea, (i, ea, .ok k) ∈ l → e.ws.getD i 0#32 = BitVec.ofNat 32 (readNat s (aviewOf s.warp) .g i k 4)) ∧
      (∀ p : BitVec 3, p ≠ q → t.warp.fq[p.toNat]'p.isLt = s.warp.fq[p.toNat]'p.isLt) ∧
      t.warp.apc = s.warp.apc + 4#64 ∧ SameMemory s t ∧ LoadOnly { s with warp := { s.warp with fq := t.warp.fq } } t ∧
      t.warp.s = s.warp.s

/-- QPUSH, QPOP and LDQ move one queue entry; a full or empty queue makes the access stream wait: the two clauses
ScalarQueues and VectorLoadQueue. What the spec leaves open and the model settles in it: A popped forward-queue
entry tagged BX4 carries SCALE 0x7F and EXTRA 0x00 (log 84). -/
def Obligations.AccessQueues : Prop := Clause.ScalarQueues ∧ Clause.VectorLoadQueue

/-- R136, R137, R131, R223: XLATS writes the translated address, XLATQ pushes its two halves tagged ADDR64, and PREFS
changes no register and stores nothing whatever its address. -/
def Clause.AccessTranslation : Prop :=
  (∀ (s s' : State) (d a : Reg) (imm : BitVec 16) (va entry : DWord) (block : Block), accessRuns s.warp = true →
    a.getLsbD 0 = false →
    kvAddr s (aviewOf s.warp) s.warp 0 (s.warp.sget a).toNat (s.warp.sget (a + 1#5)).toNat =
      (.addr va entry block false, s') →
    ∃ t, exec (.xlats d a imm) s = .next t ∧ (∀ r, t.warp.sget r = scalarAfter s.warp d (va + imm.setWidth 64) r) ∧
      t.warp.apc = s.warp.apc + 4#64 ∧ t.warp.acc = .ready ∧ AccessOnly { s with tlb := s'.tlb } t) ∧
  (∀ (s s' : State) (a : Reg) (q : BitVec 3) (stride : BitVec 18) (l : List (Nat × KvRes)), accessRuns s.warp = true →
    a.getLsbD 0 = false → (s.warp.fq[q.toNat]'q.isLt).length + 2 ≤ 16 →
    kvLanes (aviewOf s.warp) s.warp (laneIds.map fun i => (i, (s.warp.sget a).toNat,
      (s.warp.sget (a + 1#5) + BitVec.ofNat 64 i * stride.signExtend 64).toNat)) [] s = (l, s') →
    (∀ p ∈ l, ∃ va entry block, p.2 = .addr va entry block false) →
    ∃ t lo hi, exec (.xlatq a q stride) s = .next t ∧
      t.warp.fq[q.toNat]'q.isLt = s.warp.fq[q.toNat]'q.isLt ++ [lo, hi] ∧ lo.tag = 0xA#4 ∧ hi.tag = 0xA#4 ∧
      lo.vec = true ∧ hi.vec = true ∧
      (∀ i va entry block, (i, .addr va entry block false) ∈ l → hi.ws.getD i 0#32 ++ lo.ws.getD i 0#32 = va) ∧
      (∀ p : BitVec 3, p ≠ q → t.warp.fq[p.toNat]'p.isLt = s.warp.fq[p.toNat]'p.isLt) ∧
      t.warp.apc = s.warp.apc + 4#64 ∧ t.warp.acc = .ready ∧ t.warp.s = s.warp.s ∧
      AccessOnly { s with tlb := s'.tlb, warp := { s.warp with fq := t.warp.fq } } t) ∧
  (∀ (s : State) (a : Reg) (imm : BitVec 16) (i : Instr), accessRuns s.warp = true →
    (i = .prefsL1 a imm ∨ i = .prefsL2 a imm) →
    ∃ t, exec i s = .next t ∧ t.warp.apc = s.warp.apc + 4#64 ∧ t.warp.acc = .ready ∧ t.warp.s = s.warp.s ∧
      LoadOnly (placeAccess s (aviewOf s.warp) s.warp .read (s.warp.sget a + imm.signExtend 64) 1).2 t)

/-- R139: the first LSTART starts the lane stream as one split in slot A: every alive lane, signature 0, at sA, registers
and predicates as they are, which is as at launch; an sA that is no multiple of 4 traps ALIGN, a second LSTART ILLEGAL; no
access of either stream is ordered. -/
def Clause.LaneStart : Prop :=
  (∀ (s : State) (a : Reg), accessRuns s.warp = true → s.warp.lstarted = false → (s.warp.sget a).toNat % 4 = 0 →
    s.warp.alive ≠ 0#32 →
    ∃ t sp, exec (.lstart a) s = .next t ∧ t.warp.slotA = some sp ∧ sp.pc = s.warp.sget a ∧ sp.mask = s.warp.alive ∧
      sp.sig = 0#32 ∧ sp.join = none ∧ sp.ts = none ∧ sp.wait = .none ∧ t.warp.lstarted = true ∧
      t.warp.apc = s.warp.apc + 4#64 ∧ t.warp.acc = .ready ∧ t.warp.s = s.warp.s ∧
      AccessOnly { s with warp := { s.warp with lstarted := true, watch := s.cycle, slotA := some sp } } t) ∧
  (∀ (s : State) (a : Reg), accessRuns s.warp = true → s.warp.lstarted = false → (s.warp.sget a).toNat % 4 ≠ 0 →
    exec (.lstart a) s = .next (accessTrap s Code.align 0 0#16 (s.warp.sget a))) ∧
  (∀ (s : State) (a : Reg), accessRuns s.warp = true → s.warp.lstarted = true →
    exec (.lstart a) s = .next (accessTrap s Code.illegal 0 0#16 0#64))

/-- R22, R140, R141, R142: LWAIT sets AM and completes at once when LM has reached it, else waits and LWAIT_COMPLETE
completes it; HALTS stops the stream, or ends a warp without lane stream; YIELDS waits for its cycles, and
YIELDS_EXPIRE ends the wait; QUEUE_STALL_END ends a stall. -/
def Clause.AccessControl : Prop :=
  (∀ (s : State) (a : Reg) (imm : BitVec 16), accessRuns s.warp = true →
    ∃ t, exec (.lwait a imm) s = .next t ∧ t.warp.am = (s.warp.sget a + imm.setWidth 64).setWidth 32 ∧
      AccessOnly { s with warp := { s.warp with am := t.warp.am, aview := t.warp.aview } } t ∧ t.warp.s = s.warp.s ∧
      (if (s.warp.lm - t.warp.am).toNat < 2 ^ 31 then t.warp.apc = s.warp.apc + 4#64 ∧ t.warp.acc = .ready
        else t.warp.apc = s.warp.apc ∧ t.warp.acc = .lwait t.warp.am)) ∧
  (∀ (s : State) (n : Word), s.warp.acc = .lwait n → (s.warp.lm - n).toNat < 2 ^ 31 →
    ∃ t, exec .lwaitComplete s = .next t ∧ t.warp.apc = s.warp.apc + 4#64 ∧ t.warp.acc = .ready ∧
      AccessOnly { s with warp := { s.warp with aview := t.warp.aview } } t ∧ t.warp.s = s.warp.s) ∧
  (∀ (s : State), accessRuns s.warp = true → s.warp.lstarted = true →
    ∃ t, exec .halts s = .next t ∧ t.warp.acc = .halted ∧ t.warp.s = s.warp.s ∧ t.warp.apc = s.warp.apc ∧
      AccessOnly { s with warp := { s.warp with bq := Vector.replicate 2 [] } } t ∧
      (s.warp.rg = none → t = { s with warp := { s.warp with acc := .halted, bq := Vector.replicate 2 [] } })) ∧
  (∀ (s : State), accessRuns s.warp = true → s.warp.lstarted = false → s.warp.rg = none →
    ∃ t, exec .halts s = .next t ∧ t.warp.ended = some (0#8, 0#8) ∧ (s.mapped = [] → SameMemory s t)) ∧
  (∀ (s : State) (imm : BitVec 16), accessRuns s.warp = true → imm ≠ 0#16 →
    ∃ t, exec (.yields imm) s = .next t ∧ t.warp.acc = .yieldUntil (s.cycle + imm.toNat) ∧
      t.warp.apc = s.warp.apc + 4#64 ∧ t.warp.s = s.warp.s ∧ AccessOnly s t) ∧
  (∀ (s : State) (c : Nat), s.warp.acc = .yieldUntil c → c ≤ s.cycle →
    exec .yieldsExpire s = .next { s with warp := { s.warp with acc := .ready } }) ∧
  (∀ (s : State), s.warp.acc = .queue →
    ∃ t, exec .queueStallEnd s = .next t ∧
      t = { s with warp := { s.warp with acc := .ready, slotA := t.warp.slotA, slotB := t.warp.slotB } } ∧
      ∀ b, t.warp.slot? b = (s.warp.slot? b).map fun sp => if sp.wait = .queue then { sp with wait := .none } else sp)

/-- LSTART starts the lane stream; LWAIT, HALTS and YIELDS stop, wait or go on, and their waits end: the two clauses
LaneStart and AccessControl. -/
def Obligations.StreamControl : Prop := Clause.LaneStart ∧ Clause.AccessControl

/-- R123, R143, R67: TRAPS raises SOFTWARE with its immediate and value, an undefined access word ILLEGAL: the handler
at ATVEC is entered with ATPC, ACAUSE, AFADDR and AHSTAT set; while a handler runs, or without one, the warp ends
abnormally with the trap's code. -/
def Clause.AccessTraps : Prop :=
  ∀ (s : State) (i : Instr) (code : BitVec 8) (imm : BitVec 16) (v : DWord),
    accessRuns s.warp = true → s.warp.rg = none →
    (∃ a, i = .traps a imm ∧ code = Code.software ∧ v = s.warp.sget a) ∨
      (∃ w, i = .undefinedAccessWord w ∧ code = Code.illegal ∧ imm = 0#16 ∧ v = 0#64) →
    (s.warp.ahstat = false → s.warp.atvec ≠ 0#64 →
      exec i s = .next { s with warp := { s.warp with
        atpc := BitVec.ofNat 64 (s.warp.apc.toNat % 2 ^ 57), acause := imm ++ 0#8 ++ code, afaddr := v, ahstat := true, apc := s.warp.atvec } }) ∧
    (s.warp.ahstat = true ∨ s.warp.atvec = 0#64 → s.warp.ended = none →
      ∃ t, exec i s = .next t ∧ t.warp.ended = some (1#8, code) ∧ t.warp.atpc = BitVec.ofNat 64 (s.warp.apc.toNat % 2 ^ 57) ∧
        (s.mapped = [] → SameMemory s t))

/-- The control registers that CSRRS reaches, and those that CSRWS reaches (R146, R231, R320). -/
def accessReadable : List Nat :=
  [0x800, 0x807, 0x808, 0x809, 0x80A, 0x80B, 0x80C, 0x810, 0x811, 0x812, 0x813, 0x814, 0x815, 0x816, 0x817, 0x818, 0x819,
   0x81A, 0x81D, 0xC00, 0xC01, 0xC02, 0xC03, 0xC04, 0xC05, 0xC06, 0xC07, 0xC08]
def accessWritable : List Nat :=
  [0x807, 0x808, 0x809, 0x80E, 0x810, 0x811, 0x812, 0x813, 0x814, 0x815, 0x816, 0x817, 0xC00, 0xC03, 0xC04, 0xC07]

/-- R145, R146, R231: CSRRS reads a register that the access stream reaches, zero-extended; CSRWS writes one, truncated to
its width, or clears or sets AHSTAT[0], or drops the page of INVPG; a register that is unlisted, out of reach or read-only,
and a value that the register does not admit, trap ILLEGAL with AFADDR 0 (the 0 is the model's choice: log 91). The whole
64-bit value is checked; which values WDOG and LTSAVE refuse is R231's word, and that no other value of the registers
written here is refused is the model's choice (log 11). -/
def Clause.AccessCsr : Prop :=
  (∀ (s : State) (d : Reg) (csr : BitVec 16), accessRuns s.warp = true → csr.toNat ∈ accessReadable →
    ∃ t, exec (.csrrs d csr) s = .next t ∧
      (∀ r, t.warp.sget r = scalarAfter s.warp d (csrGet s s.warp none csr.toNat) r) ∧
      t.warp.apc = s.warp.apc + 4#64 ∧ t.warp.acc = .ready ∧ AccessOnly s t) ∧
  (∀ (s : State) (a : Reg) (csr : BitVec 16) (width : Nat), accessRuns s.warp = true →
    (csr.toNat, width) ∈ [(0x807, 57), (0x808, 57), (0x809, 6), (0xC00, 32), (0xC03, 57), (0xC04, 57)] →
    (csr.toNat = 0x808 → (s.warp.sget a).toNat % 256 = 0) →
    (csr.toNat = 0x809 → s.warp.sget a = 0#64 ∨ 16 ≤ (s.warp.sget a).toNat ∧ (s.warp.sget a).toNat ≤ 40) →
    ∃ t, exec (.csrws a csr) s = .next t ∧
      csrGet t t.warp none csr.toNat = BitVec.ofNat 64 ((s.warp.sget a).toNat % 2 ^ width) ∧
      t.warp.apc = s.warp.apc + 4#64 ∧ t.warp.acc = .ready ∧ t.warp.s = s.warp.s ∧
      (∀ n, n ≠ csr.toNat → csrGet t t.warp none n = csrGet s s.warp none n) ∧
      AccessOnly { s with
        warp := { s.warp with
          spillbase := t.warp.spillbase, ltsave := t.warp.ltsave, wdog := t.warp.wdog, qtag := t.warp.qtag
          atvec := t.warp.atvec, atpc := t.warp.atpc } } t) ∧
  (∀ (s : State) (a : Reg), accessRuns s.warp = true →
    ∃ t, exec (.csrws a 0xC07#16) s = .next t ∧ t.warp.apc = s.warp.apc + 4#64 ∧ t.warp.acc = .ready ∧
      t.warp.s = s.warp.s ∧ AccessOnly { s with warp := { s.warp with ahstat := (s.warp.sget a).getLsbD 0 } } t) ∧
  (∀ (s : State) (a : Reg), accessRuns s.warp = true →
    ∃ t, exec (.csrws a 0x80E#16) s = .next t ∧ t.warp.apc = s.warp.apc + 4#64 ∧ t.warp.acc = .ready ∧
      t.warp.s = s.warp.s ∧
      AccessOnly { s with tlb := s.tlb.filter fun e =>
        !(e.ctx == s.warp.ctx && (s.warp.sget a).toNat % 2 ^ 57 / 2 ^ e.size == e.base / 2 ^ e.size) } t) ∧
  (∀ (s : State) (a d : Reg) (csr : BitVec 16), accessRuns s.warp = true →
    (csr.toNat ∉ accessReadable → exec (.csrrs d csr) s = .next (accessTrap s Code.illegal 0 0#16 0#64)) ∧
    (csr.toNat ∉ accessWritable ∨ csr.toNat = 0x808 ∧ (s.warp.sget a).toNat % 256 ≠ 0 ∨
        csr.toNat = 0x809 ∧ s.warp.sget a ≠ 0#64 ∧ ((s.warp.sget a).toNat < 16 ∨ 40 < (s.warp.sget a).toNat) →
      exec (.csrws a csr) s = .next (accessTrap s Code.illegal 0 0#16 0#64)))

/-- R123, R145, R184: a CSRWS to SPMAPk outside a redundant group holds a value without V, registers the granules of one
whose checks pass, and traps ILLEGAL or BOUNDS where its encoding or its range is not allowed, the entry as it was; in a
redundant group it traps ILLEGAL. AFADDR is then the value written, the mapping's base or 0: the model's choices (log 51,
log 91). -/
def Clause.AccessMapping : Prop :=
  ∀ (s : State) (a : Reg) (csr : BitVec 16) (k : Nat) (T : Team), accessRuns s.warp = true → k < 8 → csr.toNat = 0x810 + k →
    (s.warp.rg.isSome = true → exec (.csrws a csr) s = .next (accessTrap s Code.illegal 0 0#16 0#64)) ∧
    (s.warp.rg = none → teamById s s.warp.team = some T → (T.spmap.getD k 0#64).getLsbD 63 = false →
      let v := s.warp.sget a
      let size := 2 ^ (v.toNat / 2 ^ 57 % 64)
      let base := v.toNat / 2 ^ 12 % 2 ^ 45 * 4096
      let off := v.toNat / 2 ^ 5 % 2 ^ 7 * 4096
      let sound : Prop := 12 ≤ v.toNat / 2 ^ 57 % 64 ∧ v.toNat / 2 ^ 57 % 64 ≤ 19 ∧ base % size = 0 ∧ off % size = 0 ∧
        v.getLsbD 56 = false ∧ v.toNat % 16 = 0
      let entry (t : State) : Option DWord := (teamById t s.warp.team).map fun x => x.spmap.getD k 0#64
      (v.getLsbD 63 = false →
        ∃ t, exec (.csrws a csr) s = .next t ∧ entry t = some v ∧
          t = { s with warp := { s.warp with apc := s.warp.apc + 4#64, acc := .ready }, teams := t.teams }) ∧
      let crossed : Prop := ∃ j, j < 8 ∧ j ≠ k ∧ (T.spmap.getD j 0#64).getLsbD 63 = true ∧
        off < (T.spmap.getD j 0#64).toNat / 2 ^ 5 % 2 ^ 7 * 4096 + 2 ^ ((T.spmap.getD j 0#64).toNat / 2 ^ 57 % 64) ∧
        (T.spmap.getD j 0#64).toNat / 2 ^ 5 % 2 ^ 7 * 4096 < off + size
      (v.getLsbD 63 = true → ¬ sound ∨ crossed →
        ∃ s1, exec (.csrws a csr) s = .next (accessTrap s1 Code.illegal 0 0#16 v) ∧ s1 = { s with teams := s1.teams } ∧
          entry s1 = some (T.spmap.getD k 0#64)) ∧
      (v.getLsbD 63 = true → sound → ¬ crossed →
        (T.total < off + size →
          ∃ s1, exec (.csrws a csr) s = .next (accessTrap s1 Code.bounds 0 0#16 (BitVec.ofNat 64 base)) ∧
            s1 = { s with teams := s1.teams } ∧ entry s1 = some (T.spmap.getD k 0#64)) ∧
        (∀ (ps : List Nat) (s' : State), off + size ≤ T.total →
          spPlace s.warp (aviewOf s.warp) (BitVec.ofNat 64 base) (size / 4096)
            (modTeam s T.id fun x => { x with spmap := x.spmap.setIfInBounds k (T.spmap.getD k 0#64) }) = (.ok ps, s') →
          ∃ t, exec (.csrws a csr) s = .next t ∧ entry t = some v ∧
            t.warp = { s.warp with apc := s.warp.apc + 4#64, acc := .ready } ∧
            t.mapped = s.mapped ++ (ps.zipIdx.map fun p => ⟨T.id, k, p.1, spKey T.coreIx (T.base + off + 4096 * p.2)⟩) ∧
            (v.getLsbD 4 = false → t = { s with
              warp := t.warp, teams := t.teams, mapped := t.mapped, tlb := t.tlb }))))

/-- TRAPS and undefined access words enter the access handler or end the warp; CSRRS and CSRWS read and write
registers, or trap ILLEGAL; CSRWS maps scratchpad: the three clauses AccessTraps, AccessCsr and AccessMapping. What
the spec leaves open and the model settles in it: CSRW and CSRWS refuse values outside a register's description with
ILLEGAL (log 11); Writing SPMAPk with a value that traps (log 51); AFADDR after an ILLEGAL of the access stream is 0
(log 91). -/
def Obligations.AccessTrapsAndCsr : Prop := Clause.AccessTraps ∧ Clause.AccessCsr ∧ Clause.AccessMapping

/-! ## The compute words -/

/-- R147, R149, R150: every integer word that runs writes to D, in the lanes of P, the function of its row, over
integers, wrapped or clamped; the tag of D becomes FMT; the other lanes and registers stay. -/
def Clause.IntegerResults : Prop :=
  ∀ row ∈ integerRows, ∀ (w : Strip) (f : LaneForm) (sp : Split) (s : State), LaneRuns (row.1 w) f w sp s →
    ∃ t, exec (row.1 w) s = .next t ∧ LaneRetired (cxOf s f w sp) (sp.pc + 12#64) s t ∧
      LaneResult (cxOf s f w sp) w.fmt (row.2 (cxOf s f w sp)) s t

/-- R46, R47, R153, R154, R156, R157: every float word of one result likewise, by the function of its row. -/
def Clause.FloatResults : Prop :=
  ∀ row ∈ floatRows, ∀ (w : Strip) (f : LaneForm) (sp : Split) (s : State), LaneRuns (row.1 w) f w sp s →
    ∃ t, exec (row.1 w) s = .next t ∧ LaneRetired (cxOf s f w sp) (sp.pc + 12#64) s t ∧
      LaneResult (cxOf s f w sp) w.fmt (row.2 (cxOf s f w sp)) s t

/-- R51, R52, R158, R159: the conversions of one result likewise. -/
def Clause.ConversionResults : Prop :=
  ∀ row ∈ conversionRows, ∀ (w : Strip) (f : LaneForm) (sp : Split) (s : State), LaneRuns (row.1 w) f w sp s →
    ∃ t, exec (row.1 w) s = .next t ∧ LaneRetired (cxOf s f w sp) (sp.pc + 12#64) s t ∧
      LaneResult (cxOf s f w sp) w.fmt (row.2 (cxOf s f w sp)) s t

/-- R48, over rationals: the code that a finite magnitude rounds to under RN, RZ, RU and RD stands for a value of the
format's grid (no upper bound on the exponent) next to the exact one on the side that the mode names, the nearer one
under RN, and the even code on a tie. -/
def Clause.Rounding : Prop :=
  ∀ (f : FloatFmt) (rm : Nat) (neg : Bool) (mag : Nat) (exp : Int), f ∈ [FloatFmt.f32, .bf16, .f16, .e4m3, .e5m2] →
    rm < 4 →
    let value (c : Nat) : ℚ := gridValue f c
    let x : ℚ := mag * (2 : ℚ) ^ exp
    let c := roundCode f rm neg mag exp false
    (value c = x ∨ value c < x ∧ x < value (c + 1) ∨ 0 < c ∧ x < value c ∧ value (c - 1) < x) ∧
    (rm = 1 ∨ rm = 2 ∧ neg = true ∨ rm = 3 ∧ neg = false → value c ≤ x) ∧
    (rm = 2 ∧ neg = false ∨ rm = 3 ∧ neg = true → x ≤ value c) ∧
    (rm = 0 → (value c ≤ x → 2 * x ≤ value c + value (c + 1) ∧ (2 * x = value c + value (c + 1) → c % 2 = 0)) ∧
      (x < value c → value (c - 1) + value c ≤ 2 * x ∧ (2 * x = value (c - 1) + value c → c % 2 = 0)))

/-- Rounding picks the right neighbour in every mode; CVT, CVT.PK and CVT.UPK give the converted codes: the two
clauses Rounding and ConversionResults. What the spec leaves open and the model settles in it: A value that rounds
to zero in E2M1 becomes code 0 (log 9); A reserved FMT traps FORMAT, also where a word's own rule says ILLEGAL of
any other FMT (log 95). -/
def Obligations.Conversions : Prop := Clause.Rounding ∧ Clause.ConversionResults

/-- R59, R60, R37: TWOSUM and FASTSUM write the rounded sum to D and its error to D + 1, both tagged F32; FCLASS sets
the one bit of the class, tagged N32 (R155). -/
def Obligations.PairResults : Prop :=
  (∀ (i : Instr) (w : Strip) (f : LaneForm) (sp : Split) (s : State) (g : Nat → Nat → Nat × Nat),
    (i = .twosum w ∧ g = twoSum ∨ i = .fastsum w ∧ g = fastSum) → LaneRuns i f w sp s →
    let r (k : Nat) : Nat × Nat := g ((cxOf s f w sp).a.word k).toNat ((cxOf s f w sp).b.word k).toNat
    ∃ t, exec i s = .next t ∧ LaneRetired (cxOf s f w sp) (sp.pc + 12#64) s t ∧
      LaneResults [{ n := w.d.toNat, mask := (cxOf s f w sp).p, tag := 3#4, word := fun k => BitVec.ofNat 32 (r k).1 },
        { n := w.d.toNat + 1, mask := (cxOf s f w sp).p, tag := 3#4, word := fun k => BitVec.ofNat 32 (r k).2 }] [] s t) ∧
  (∀ (w : Strip) (f : LaneForm) (sp : Split) (s : State), LaneRuns (.fclass w) f w sp s →
    ∃ t, exec (.fclass w) s = .next t ∧ LaneRetired (cxOf s f w sp) (sp.pc + 12#64) s t ∧
      LaneResult (cxOf s f w sp) 2#4 (fun k => BitVec.twoPow 32 (fClassBit ((cxOf s f w sp).a.word k).toNat)) s t)

/-- R151, R155, R178, R72: ICMP, FCMP, PSET and PMOV write one predicate in the lanes of P, and no register; p7 stays
true; NOP writes nothing at all (R150). -/
def Clause.PredicateResults : Prop :=
  (∀ row ∈ predicateRows, ∀ (w : Strip) (f : LaneForm) (sp : Split) (s : State), LaneRuns (row.1 w) f w sp s →
    ∃ t, exec (row.1 w) s = .next t ∧ LaneRetired (cxOf s f w sp) (sp.pc + 12#64) s t ∧
      LaneResults [] [⟨Form.xf w 2 0, LaneMask.ofPred (row.2 (cxOf s f w sp)), (cxOf s f w sp).p⟩] s t) ∧
  (∀ (w : Strip) (f : LaneForm) (sp : Split) (s : State), LaneReady (.nop w) f w sp s →
    ∃ t, exec (.nop w) s = .next t ∧ LaneRetired (cxOf s f w sp) (sp.pc + 12#64) s t ∧ LaneResults [] [] s t)

/-- Integer, float and predicate words write the function of their row in the lanes of P, and nothing else: the
three clauses IntegerResults, FloatResults and PredicateResults. What the spec leaves open and the model settles in
it: Transcendental results are the correctly rounded ones that R156 asks for, computed with 320 fraction bits (log
5). -/
def Obligations.ComputeResults : Prop := Clause.IntegerResults ∧ Clause.FloatResults ∧ Clause.PredicateResults

/-- R147, R36: a word in which no lane takes part checks no tag, pops its queues and writes nothing. -/
def Clause.EmptyMask : Prop :=
  ∀ row ∈ integerRows ++ floatRows ++ conversionRows, ∀ (w : Strip) (f : LaneForm) (sp : Split) (s : State),
    LaneReady (row.1 w) f w sp s → (cxOf s f w sp).p = 0#32 →
    ∃ t, exec (row.1 w) s = .next t ∧ LaneRetired (cxOf s f w sp) (sp.pc + 12#64) s t ∧ LaneResults [] [] s t

/-- R152, R162, R329: MOV carries words, tag, metadata and poison; ISEL picks by a predicate under tag FMT; MOVI writes
its immediate and LANEID the lane number; TAG copies bit for bit under another tag; TAGR and SHAPE read the tag and the
shape as N32. A move kills no lane. -/
def Clause.MoveResults : Prop :=
  (∀ (w : Strip) (f : LaneForm) (sp : Split) (s : State), LaneReady (.mov w) f w sp s → Settled s f w →
    (cxOf s f w sp).p ≠ 0#32 →
    ∃ t, exec (.mov w) s = .next t ∧ LaneRetired (cxOf s f w sp) (sp.pc + 12#64) s t ∧
      LaneResults [{ n := w.d.toNat, mask := (cxOf s f w sp).p, tag := (cxOf s f w sp).a.tag
                     word := (cxOf s f w sp).a.word, poison := (cxOf s f w sp).a.poison
                     side := (cxOf s f w sp).a.side }] [] s t) ∧
  (∀ (w : Strip) (f : LaneForm) (sp : Split) (s : State), LaneReady (.isel w) f w sp s → Settled s f w →
    (cxOf s f w sp).p ≠ 0#32 →
    let pick (k : Nat) : Bool := s.warp.predLane (Form.xf w 5 3) k
    ∃ t, exec (.isel w) s = .next t ∧ LaneRetired (cxOf s f w sp) (sp.pc + 12#64) s t ∧
      LaneResults [{ n := w.d.toNat, mask := (cxOf s f w sp).p, tag := w.fmt
                     word := fun k => if pick k then (cxOf s f w sp).a.word k else (cxOf s f w sp).b.word k
                     poison := LaneMask.ofPred fun k =>
                       if pick k then (cxOf s f w sp).a.poison.has k else (cxOf s f w sp).b.poison.has k }] [] s t) ∧
  (∀ (i : Instr) (w : Strip) (f : LaneForm) (sp : Split) (s : State) (tag : FmtTag) (g : Nat → Word),
    (i = .movi w ∧ tag = w.fmt ∧ g = (fun _ => w.imm32) ∨ i = .laneid w ∧ tag = w.fmt ∧ g = BitVec.ofNat 32 ∨
      i = .tagr w ∧ tag = 2#4 ∧ g = (fun _ => (cxOf s f w sp).a.tag.setWidth 32) ∨
      i = .shape w ∧ tag = 2#4 ∧ g = (fun _ => if Form.xf w 1 0 = 0 then BitVec.ofNat 32 (cxOf s f w sp).a.shape
        else if Form.xf w 1 0 = 1 then (cxOf s f w sp).a.base
        else if (cxOf s f w sp).a.shape = 1 then (cxOf s f w sp).a.stride else 0#32)) →
    LaneRuns i f w sp s →
    ∃ t, exec i s = .next t ∧ LaneRetired (cxOf s f w sp) (sp.pc + 12#64) s t ∧ LaneResult (cxOf s f w sp) tag g s t) ∧
  (∀ (w : Strip) (f : LaneForm) (sp : Split) (s : State), LaneRuns (.tag w) f w sp s →
    ∃ t, exec (.tag w) s = .next t ∧ LaneRetired (cxOf s f w sp) (sp.pc + 12#64) s t ∧
      LaneResults [{ n := w.d.toNat, mask := (cxOf s f w sp).p, tag := w.fmt, word := (cxOf s f w sp).a.word
                     side := if w.fmt ≠ 8#4 then [] else if (cxOf s f w sp).a.side = [] then
                       List.replicate 32 (0x7F#8, 0x00#8) else (cxOf s f w sp).a.side }] [] s t)

/-- R152, R71, R87, R329: MOVX reads in lane i the register A + b[i], MOVXD writes in lane i the register D + b[i]; a lane
whose register lies outside the allocation traps BUDGET. -/
def Clause.IndexedMoves : Prop :=
  (∀ (w : Strip) (f : LaneForm) (sp : Split) (s : State), LaneReady (.movx w) f w sp s → s.warp.pending = [] →
    sp.ts.isSome = true ∨ s.warp.frag = none → (cxOf s f w sp).p ≠ 0#32 →
    (cxOf s f w sp).p &&& (cxOf s f w sp).b.poison = 0#32 →
    let n (k : Nat) : Nat := w.a.code.toNat + ((cxOf s f w sp).b.word k).toNat
    (∀ k, Takes (cxOf s f w sp) k → inAlloc s.warp.units (n k) = true ∧ (s.warp.reg (n k)).tag = w.fmt) →
    ∃ t, exec (.movx w) s = .next t ∧ LaneRetired (cxOf s f w sp) (sp.pc + 12#64) s t ∧
      LaneResults [{ n := w.d.toNat, mask := (cxOf s f w sp).p, tag := w.fmt
                     word := fun k => (s.warp.reg (n k)).val.word k
                     poison := LaneMask.ofPred fun k =>
                       (cxOf s f w sp).p.has k && (s.warp.reg (n k)).poison.has k }] [] s t) ∧
  (∀ (w : Strip) (f : LaneForm) (sp : Split) (s : State), LaneReady (.movxd w) f w sp s →
    (cxOf s f w sp).p ≠ 0#32 → (cxOf s f w sp).p &&& (cxOf s f w sp).b.poison = 0#32 →
    let n (k : Nat) : Nat := w.d.toNat + ((cxOf s f w sp).b.word k).toNat
    (∀ k, Takes (cxOf s f w sp) k → inAlloc s.warp.units (n k) = true) →
    ∃ t, exec (.movxd w) s = .next t ∧ LaneRetired (cxOf s f w sp) (sp.pc + 12#64) s t ∧
      LaneResults (((LaneMask.lanes (cxOf s f w sp).p).map n).eraseDups.map fun r =>
        { n := r, mask := LaneMask.ofPred fun k => (cxOf s f w sp).p.has k && n k == r, tag := w.fmt
          word := (cxOf s f w sp).a.word, poison := (cxOf s f w sp).a.poison }) [] s t ∧
      (namedQueues f w = [] → ∀ k, Takes (cxOf s f w sp) k → (t.warp.reg (n k)).val.shape = 2)) ∧
  (∀ (i : Instr) (w : Strip) (f : LaneForm) (sp : Split) (s : State) (base k : Nat),
    (i = .movx w ∧ base = w.a.code.toNat ∨ i = .movxd w ∧ base = w.d.toNat) → LaneReady i f w sp s →
    Takes (cxOf s f w sp) k → inAlloc s.warp.units (base + ((cxOf s f w sp).b.word k).toNat) = false →
    ∃ m : LaneMask, exec i s = .next (takeTrap s (wholeTrap Code.budget m)) ∧
      ∀ j, j < 32 → m.has j = ((cxOf s f w sp).p.has j &&
        !inAlloc s.warp.units (base + ((cxOf s f w sp).b.word j).toNat)))

/-- Moves, selections, tags and indexed moves carry words, tags, metadata and poison; an index outside traps BUDGET:
the two clauses MoveResults and IndexedMoves. What the spec leaves open and the model settles in it: ISEL writes a U
register only when its predicate is p7 and both sources are U (log 8); Tags that SHAPE, FRAG.IN, FRAG.OUT, LAD.ESC
and LAD.RES accept (log 85). -/
def Obligations.Moves : Prop := Clause.MoveResults ∧ Clause.IndexedMoves

/-- R43 to R45, R160, R161: QBX4 writes the codes and the metadata of the eight blocks over the lanes of P alone;
DQBX4 writes element 8j + k of block b to lane 4b + j of D + k, narrowed and saturated, a NaN extra value keeping
its sign. What the spec leaves open and the model settles in it: Corners of the block formats: an infinity in QBX4,
a NaN EXTRA in DQBX4 (log 26). -/
def Obligations.BlockResults : Prop :=
  (∀ (w : Strip) (f : LaneForm) (sp : Split) (s : State), LaneRuns (.qbx4 w) f w sp s →
    let cx := cxOf s f w sp
    let block (b : Nat) : (Byte × Byte) × List (Nat × Nat) := quantise w.rm.toNat
      ((List.range 4).flatMap fun j => if cx.p.has (4 * b + j) then
        (List.range 8).map fun k => (8 * j + k, fval .f32 ((s.warp.reg (w.a.code.toNat + k)).val.word (4 * b + j)).toNat)
      else [])
    ∃ t, exec (.qbx4 w) s = .next t ∧ LaneRetired cx (sp.pc + 12#64) s t ∧
      LaneResults [{ n := w.d.toNat, mask := cx.p, tag := 8#4
                     word := fun i => BitVec.ofNat 32 ((List.range 8).foldl
                       (fun v k => v + Tab.getD (block (i / 4)).2 (8 * (i % 4) + k) 0 * 16 ^ k) 0)
                     side := laneIds.map fun i => (block (i / 4)).1 }] [] s t) ∧
  (∀ (w : Strip) (f : LaneForm) (sp : Split) (s : State), LaneRuns (.dqbx4 w) f w sp s →
    let cx := cxOf s f w sp
    let elem (k i : Nat) : Word :=
      let code := (cx.a.word i).toNat / 16 ^ k % 16
      let side := cx.a.side.getD i (0x7F#8, 0x00#8)
      BitVec.ofNat 32 (if code = 8 ∧ side.1 ≠ 0xFF#8 ∧ isNan .e4m3 side.2.toNat = true then convNan .e4m3 .f32 side.2.toNat
        else narrow .f32 w.rm.toNat (bx4Val code side))
    ∃ t, exec (.dqbx4 w) s = .next t ∧ LaneRetired cx (sp.pc + 12#64) s t ∧
      LaneResults ((List.range 8).map fun k =>
        { n := w.d.toNat + k, mask := cx.p, tag := 3#4, word := elem k }) [] s t)

/-- R165, R167: VOTE, ALIVE and ELECT report on the lanes of P with one value, MATCH with the lanes that hold the same
word; all are N32. -/
def Clause.VoteResults : Prop :=
  (∀ (w : Strip) (f : LaneForm) (sp : Split) (s : State), LaneRuns (.vote w) f w sp s →
    let cx := cxOf s f w sp
    let holds (k : Nat) : Prop := s.warp.predLane (Form.xf w 5 3) k = true
    ∃ t v, exec (.vote w) s = .next t ∧ LaneRetired cx (sp.pc + 12#64) s t ∧ LaneResult cx 2#4 (fun _ => v) s t ∧
      (Form.xf w 7 6 ≠ 2 → v = 0#32 ∨ v = 1#32) ∧
      (Form.xf w 7 6 = 0 → (v = 1#32 ↔ ∃ k, Takes cx k ∧ holds k)) ∧
      (Form.xf w 7 6 = 1 → (v = 1#32 ↔ ∀ k, Takes cx k → holds k)) ∧
      (Form.xf w 7 6 = 2 → ∀ k, k < 32 → (v.getLsbD k = true ↔ Takes cx k ∧ holds k)) ∧
      (Form.xf w 7 6 = 3 → (v = 1#32 ↔ ∀ j k, Takes cx j → Takes cx k → (holds j ↔ holds k)))) ∧
  (∀ (w : Strip) (f : LaneForm) (sp : Split) (s : State), LaneRuns (.elect w) f w sp s →
    let cx := cxOf s f w sp
    ∃ t first, exec (.elect w) s = .next t ∧ LaneRetired cx (sp.pc + 12#64) s t ∧
      Takes cx first ∧ (∀ k, Takes cx k → first ≤ k) ∧
      LaneResults (if w.x.getLsbD 3 then
          [{ n := w.d.toNat, mask := cx.p, tag := 2#4, word := fun _ => BitVec.ofNat 32 first }] else [])
        [⟨Form.xf w 2 0, BitVec.twoPow 32 first, cx.p⟩] s t) ∧
  (∀ (w : Strip) (f : LaneForm) (sp : Split) (s : State), LaneRuns (.alive w) f w sp s →
    ∃ t, exec (.alive w) s = .next t ∧ LaneRetired (cxOf s f w sp) (sp.pc + 12#64) s t ∧
      LaneResult (cxOf s f w sp) 2#4 (fun _ => if w.x.getLsbD 0 then (cxOf s f w sp).p else s.warp.alive) s t) ∧
  (∀ (w : Strip) (f : LaneForm) (sp : Split) (s : State), LaneRuns (.matchLanes w) f w sp s →
    let cx := cxOf s f w sp
    let same (k : Nat) : Word := LaneMask.ofPred fun j => cx.p.has j && cx.a.word j == cx.a.word k
    ∃ t, exec (.matchLanes w) s = .next t ∧ LaneRetired cx (sp.pc + 12#64) s t ∧
      LaneResults [{ n := w.d.toNat, mask := cx.p, tag := 2#4, word := same }]
        [⟨Form.xf w 2 0, LaneMask.ofPred fun k => same k == cx.p, cx.p⟩] s t)

/-- R163, R166, R169: REDX gives each lane of P the root of its group's tree and SCAN its prefix, or the identity; pI is
true where the group holds a lane that has died or exited (R362). -/
def Clause.Reductions : Prop :=
  (∀ (w : Strip) (f : LaneForm) (sp : Split) (s : State), LaneRuns (.redx w) f w sp s →
    let cx := cxOf s f w sp
    let h := 5 - Form.xf w 8 7
    ∃ t g pi, exec (.redx w) s = .next t ∧ LaneRetired cx (sp.pc + 12#64) s t ∧
      (∀ k, Takes cx k → some (g k) = node (redOp (Form.xf w 6 3) w.rm.toNat) cx (k / 2 ^ h * 2 ^ h) h 0) ∧
      (∀ k, Takes cx k → (LaneMask.has pi k = true ↔ ∃ j, j < 32 ∧ j / 2 ^ h = k / 2 ^ h ∧ s.warp.alive.has j = false)) ∧
      LaneResults [{ n := w.d.toNat, mask := cx.p, tag := w.fmt, word := g }] [⟨Form.xf w 2 0, pi, cx.p⟩] s t) ∧
  (∀ (w : Strip) (f : LaneForm) (sp : Split) (s : State), LaneRuns (.scan w) f w sp s →
    let cx := cxOf s f w sp
    let S := 2 ^ (5 - Form.xf w 8 7)
    ∃ t g pi, exec (.scan w) s = .next t ∧ LaneRetired cx (sp.pc + 12#64) s t ∧
      (∀ k, Takes cx k → g k = (prefixOf (redOp (Form.xf w 6 3) w.rm.toNat) cx (k / S * S)
        (k % S + if w.x.getLsbD 9 then 0 else 1)).getD (redIdentity (Form.xf w 6 3))) ∧
      (∀ k, Takes cx k → (LaneMask.has pi k = true ↔ ∃ j, j < 32 ∧ j / S = k / S ∧ s.warp.alive.has j = false)) ∧
      LaneResults [{ n := w.d.toNat, mask := cx.p, tag := w.fmt, word := g }] [⟨Form.xf w 2 0, pi, cx.p⟩] s t)

/-- R168: CMPR gives the r-th lane of P of a group the value, and under IDX the index, of the lane that ranks r-th, and
its predicate true, for r below K; 0 and false to the rest. -/
def Clause.Leaders : Prop :=
  ∀ (w : Strip) (f : LaneForm) (sp : Split) (s : State), LaneRuns (.cmpr w) f w sp s →
    let cx := cxOf s f w sp
    let S := 32 / 2 ^ Form.xf w 4 3
    ∃ t v ix pd, exec (.cmpr w) s = .next t ∧ LaneRetired cx (sp.pc + 12#64) s t ∧
      (∀ i, Takes cx i → placeOf cx S i < Form.xf w 10 5 →
        ∃ j, Takes cx j ∧ j / S = i / S ∧ rankOf cx S j = placeOf cx S i ∧
          v i = cx.a.word j ∧ ix i = BitVec.ofNat 32 j ∧ LaneMask.has pd i = true) ∧
      (∀ i, Takes cx i → Form.xf w 10 5 ≤ placeOf cx S i → v i = 0#32 ∧ ix i = 0#32 ∧ LaneMask.has pd i = false) ∧
      LaneResults ({ n := w.d.toNat, mask := cx.p, tag := w.fmt, word := v } ::
          if w.x.getLsbD 11 then [{ n := w.d.toNat + 1, mask := cx.p, tag := 2#4, word := ix }] else [])
        [⟨Form.xf w 2 0, pd, cx.p⟩] s t

/-- VOTE, ALIVE, ELECT and MATCH report on the contributing lanes; CMPR packs the K leaders of each group: the two
clauses VoteResults and Leaders. -/
def Obligations.Votes : Prop := Clause.VoteResults ∧ Clause.Leaders

/-- R164, R169, R329: SHFL reads in each lane the lane b mod 32 of A, 0 where that lane is dead, under A's tag; with T = 1
the lane of the partner's register, under that register's tag, or 0 and RAW where the team has no such warp or register;
the result returns later where the partner lies on another partition, and a BX4 or reserved tag traps FORMAT. -/
def Clause.Shuffles : Prop :=
  (∀ (w : Strip) (f : LaneForm) (sp : Split) (s : State), LaneReady (.shfl w) f w sp s → Settled s f w →
    (cxOf s f w sp).p ≠ 0#32 → shflDeaths (cxOf s f w sp) = 0#32 → w.x.getLsbD 4 = false →
    let cx := cxOf s f w sp
    let src (k : Nat) : Nat := (cx.b.word k).toNat % 32
    ∃ t, exec (.shfl w) s = .next t ∧ LaneRetired cx (sp.pc + 12#64) s t ∧
      LaneResult cx cx.a.tag (fun k => if s.warp.dead.has (src k) then 0#32 else cx.a.word (src k)) s t) ∧
  (∀ (w : Strip) (f : LaneForm) (sp : Split) (s : State), LaneReady (.shfl w) f w sp s → Settled s f w →
    (cxOf s f w sp).p ≠ 0#32 → w.x.getLsbD 4 = true → shflPartner s w = none →
    (cxOf s f w sp).p &&& (cxOf s f w sp).b.poison = 0#32 →
    ∃ t, exec (.shfl w) s = .next t ∧ LaneRetired (cxOf s f w sp) (sp.pc + 12#64) s t ∧
      LaneResult (cxOf s f w sp) 0#4 (fun _ => 0#32) s t) ∧
  (∀ (w : Strip) (f : LaneForm) (sp : Split) (s : State) (x : Warp), LaneReady (.shfl w) f w sp s → Settled s f w →
    (cxOf s f w sp).p ≠ 0#32 → shflDeaths (cxOf s f w sp) = 0#32 → w.x.getLsbD 4 = true → shflPartner s w = some x →
    x.pending = [] →
    let cx := cxOf s f w sp
    let src (k : Nat) : Nat := (cx.b.word k).toNat % 32
    let r := x.reg w.a.code.toNat
    r.tag ≠ 8#4 → r.tag.toNat < 11 →
    ∃ t, exec (.shfl w) s = .next t ∧ LaneRetired cx (sp.pc + 12#64) s t ∧
      (if x.slot / 8 = s.warp.slot / 8 then LaneResults else LanePromised)
                  [{ n := w.d.toNat, mask := cx.p, tag := r.tag
                     word := fun k => if x.dead.has (src k) then 0#32 else r.val.word (src k) }] [] s t) ∧
  (∀ (w : Strip) (f : LaneForm) (sp : Split) (s : State) (x : Warp), LaneReady (.shfl w) f w sp s →
    (cxOf s f w sp).p ≠ 0#32 → w.x.getLsbD 4 = true → shflPartner s w = some x →
    (x.reg w.a.code.toNat).tag = 8#4 ∨ 11 ≤ (x.reg w.a.code.toNat).tag.toNat →
    exec (.shfl w) s = .next (takeTrap s (wholeTrap Code.format sp.mask)))

/-- SHFL reads the named lane; REDX gives the root of each group's tree and SCAN its prefix: the two clauses
Shuffles and Reductions. What the spec leaves open and the model settles in it: SHFL with T = 1 reads the partner's
register at issue (log 17); REDX over smaller groups writes U under a full mask when its source is U and every lane
is alive (log 18); Lanes that read through a pattern, and lanes that exited (log 35). -/
def Obligations.Crossings : Prop := Clause.Shuffles ∧ Clause.Reductions

/-! ## Control -/

/-- R170, R171, R24, R27, R322: BRA moves its split to the target where every lane has its predicate as asked, to NEXT
where none has, and otherwise makes a join record: the fall-through side stays in the slot and the taken side takes the
free slot or is pushed; a 65th stack entry traps DIVSTACK. -/
def Obligations.Branch : Prop :=
  ∀ (w : Strip) (f : LaneForm) (sp : Split) (s : State), LaneReady (.bra w) f w sp s → s.warp.stack.length ≤ 64 →
    let T : LaneMask := LaneMask.ofPred fun k =>
      sp.mask.has k && (s.warp.predLane (Form.xf w 2 0) k != w.x.getLsbD 3)
    let id := s.warp.nextJoin
    let record := StackEntry.join ⟨id, branchTarget sp w.jdispBra, sp.mask, sp.join⟩
    let free := s.warp.slot? (!s.slotB) = none
    (T = sp.mask ∨ T = 0#32 →
      ∃ t q, exec (.bra w) s = .next t ∧ t.split? = some q ∧
        Continues s sp (if T = sp.mask then branchTarget sp w.tdisp else sp.pc + 12#64) sp.mask sp.join q ∧
        t.warp.slot? (!s.slotB) = s.warp.slot? (!s.slotB) ∧ t.warp.stack = s.warp.stack ∧ t.warp.rets = s.warp.rets ∧
        ControlOnly s t) ∧
    (T ≠ sp.mask → T ≠ 0#32 → s.warp.stack.length + 1 + (if free then 0 else 1) ≤ 64 →
      ∃ t q r, exec (.bra w) s = .next t ∧ t.split? = some q ∧
        Continues s sp (sp.pc + 12#64) (sp.mask &&& ~~~T) (some id) q ∧
        Continues s sp (branchTarget sp w.tdisp) T (some id) r ∧
        t.warp.slot? (!s.slotB) = (if free then some r else s.warp.slot? (!s.slotB)) ∧
        t.warp.stack = s.warp.stack ++ [record] ++ (if free then [] else [StackEntry.ready r]) ∧
        t.warp.rets = s.warp.rets ∧ ControlOnly s t) ∧
    (T ≠ sp.mask → T ≠ 0#32 → 64 < s.warp.stack.length + 1 + (if free then 0 else 1) →
      exec (.bra w) s = .next (takeTrap s (wholeTrap Code.divstack sp.mask)))

/-- R172, R175, R37, R24, R27, R173: BRX and CALLX whose targets can be fetched divide the split by the address of each
lane, under one join record where the addresses differ, at J or at NEXT; CALLX pushes the link first, and a full return
stack hands its oldest entry to the divergence stack. CALLX's targets hold ENTRY words within the allocation. Where the
stack needs a 65th entry they trap DIVSTACK. -/
def Clause.IndirectBranch : Prop :=
  ∀ (i : Instr) (call : Bool) (w : Strip) (f : LaneForm) (sp : Split) (s s' : State),
    (i = .brx w ∧ call = false ∨ i = .callx w ∧ call = true) → LaneReady i f w sp s →
    Unpoisoned (cxOf s f w sp) → Settled s f w → sp.mask ≠ 0#32 →
    let addr (k : Nat) : DWord := (operand s.draws s.warp w.a 1).word k ++ (operand s.draws s.warp w.a 0).word k
    let after := (if call then callxAfter (cxOf s f w sp) else brxAfter w (cxOf s f w sp)).stack.length
    targetErrors s.warp addr (LaneMask.lanes sp.mask) s = ([], s') →
    (call = true → ∀ k, k < 32 → sp.mask.has k = true →
      ∃ e, (fetchLane s s.warp (addr k)).1 = .ok (.entry e) ∧ Form.xf e 4 0 ≤ s.warp.units) →
    let one := ∀ j k, j < 32 → k < 32 → sp.mask.has j = true → sp.mask.has k = true → addr j = addr k
    let full := 8 ≤ s.warp.rets.length
    (after ≤ 64 → ∃ t, exec i s = .next t ∧ ControlOnly s t ∧
      (one → Divided s t sp addr sp.join) ∧
      (¬ one → Divided s t sp addr (some s.warp.nextJoin) ∧
        StackEntry.join ⟨s.warp.nextJoin, if call then sp.pc + 12#64 else branchTarget sp w.disp57, sp.mask, sp.join⟩ ∈
          t.warp.stack) ∧
      (call = false → t.warp.rets = s.warp.rets ∧ s.warp.stack <+: t.warp.stack) ∧
      (call = true →
        t.warp.rets = ⟨sp.pc + 12#64, sp.mask, s.warp.nextAge⟩ :: (if full then s.warp.rets.dropLast else s.warp.rets) ∧
        (s.warp.stack ++ if full then s.warp.rets.getLast?.toList.map .link else []) <+: t.warp.stack)) ∧
    (64 < after → exec i s = .next (takeTrap s (wholeTrap Code.divstack sp.mask)))

/-- R172, R175, R87: a target that is no multiple of 4 traps ALIGN for its lanes; a target of a CALLX without an ENTRY
that fits traps BUDGET for exactly its lanes, before any fetch fault of the others. -/
def Clause.TargetTraps : Prop :=
  let target (s : State) (w : Strip) (k : Nat) : DWord :=
    (operand s.draws s.warp w.a 1).word k ++ (operand s.draws s.warp w.a 0).word k
  let bad (s : State) (w : Strip) (sp : Split) (k : Nat) : Prop :=
    sp.mask.has k = true ∧ (target s w k).toNat % 4 = 0 ∧
      ∃ i, (fetchLane s s.warp (target s w k)).1 = .ok i ∧ ∀ e, i = .entry e → s.warp.units < Form.xf e 4 0
  (∀ (w : Strip) (f : LaneForm) (sp : Split) (s : State), LaneReady (.callx w) f w sp s → Settled s f w →
    (∃ k, k < 32 ∧ bad s w sp k) →
    ∃ m : LaneMask, exec (.callx w) s = .next (takeTrap s (wholeTrap Code.budget m)) ∧
      ∀ k, k < 32 → (m.has k = true ↔ bad s w sp k)) ∧
  (∀ (i : Instr) (w : Strip) (f : LaneForm) (sp : Split) (s : State),
    (i = .brx w ∧ (brxAfter w (cxOf s f w sp)).stack.length ≤ 64 ∨
      i = .callx w ∧ (callxAfter (cxOf s f w sp)).stack.length ≤ 64 ∧ ∀ k, k < 32 → ¬ bad s w sp k) →
    LaneReady i f w sp s → Settled s f w → Unpoisoned (cxOf s f w sp) →
    (∃ k, k < 32 ∧ sp.mask.has k = true ∧ (target s w k).toNat % 4 ≠ 0) →
    ∃ s' tr, exec i s = .next (takeTrap s' tr) ∧ tr.code = Code.align ∧
      s' = { s with tlb := s'.tlb } ∧
      ∀ k, k < 32 → (tr.lanes.has k = true ↔ sp.mask.has k = true ∧ (target s w k).toNat % 4 ≠ 0))

/-- BRX and CALLX divide a split by lane address under one join; bad targets trap ALIGN or BUDGET: the two clauses
IndirectBranch and TargetTraps. What the spec leaves open and the model settles in it: Order of checks within one
word where R87 leaves a point open (log 16); Which held link a used spilled one is exchanged with (log 87). -/
def Obligations.Indirect : Prop := Clause.IndirectBranch ∧ Clause.TargetTraps

/-- R173, R174, R176, R27: CALL completes: it pushes (NEXT, mask) and goes to its target. RET completes where each
of its lanes has a link: each lane goes to its link and is cleared from that entry, so that its next older entry's
is its link, with no join record. Where the divergence stack needs a 65th entry both trap DIVSTACK; a lane without a
link makes the whole split trap RETEMPTY. The entries of the return stack are told apart by an age of the model's
own, which calls and returns keep apart. What the spec leaves open and the model settles in it: Which held link a
used spilled one is exchanged with (log 87). -/
def Obligations.CallReturn : Prop :=
  let aged (s : State) : Prop := (s.warp.links.map (·.age)).Nodup
  (∀ (w : Strip) (f : LaneForm) (sp : Split) (s : State), LaneReady (.call w) f w sp s →
    let full := 8 ≤ s.warp.rets.length
    (s.warp.stack.length + (if full then 1 else 0) ≤ 64 →
      ∃ t q, exec (.call w) s = .next t ∧ t.split? = some q ∧
        Continues s sp (branchTarget sp w.tdisp) sp.mask sp.join q ∧
        t.warp.rets = ⟨sp.pc + 12#64, sp.mask, s.warp.nextAge⟩ :: (if full then s.warp.rets.dropLast else s.warp.rets) ∧
        t.warp.stack = s.warp.stack ++ (if full then s.warp.rets.getLast?.toList.map .link else []) ∧
        t.warp.slot? (!s.slotB) = s.warp.slot? (!s.slotB) ∧ ControlOnly s t ∧ (aged s → aged t)) ∧
    (64 < s.warp.stack.length + (if full then 1 else 0) →
      exec (.call w) s = .next (takeTrap s (wholeTrap Code.divstack sp.mask)))) ∧
  (∀ (w : Strip) (f : LaneForm) (sp : Split) (s : State), LaneReady (.ret w) f w sp s →
    let after := (retAfter (cxOf s f w sp)).stack.length
    (∀ link : Nat → DWord, sp.mask ≠ 0#32 → after ≤ 64 →
      (∀ k, k < 32 → sp.mask.has k = true → s.warp.linkOf k = some (link k)) →
      ∃ t, exec (.ret w) s = .next t ∧ ControlOnly s t ∧ Divided s t sp link sp.join ∧
        (∀ id r, t.warp.joinRec id = some r → s.warp.joinRec id = some r) ∧
        (aged s → aged t ∧
          (∀ k, k < 32 → sp.mask.has k = false → t.warp.linkOf k = s.warp.linkOf k) ∧
          (∀ k, k < 32 → sp.mask.has k = true →
            t.warp.linkOf k = ((s.warp.links.filter (·.mask.has k))[1]?).map (·.addr)))) ∧
    (64 < after → exec (.ret w) s = .next (takeTrap s (wholeTrap Code.divstack sp.mask))) ∧
    (∀ k, after ≤ 64 → k < 32 → sp.mask.has k = true → s.warp.linkOf k = none →
      exec (.ret w) s = .next (takeTrap s (wholeTrap Code.retempty sp.mask))))

/-- R25, R27, R177, R322: a RECONV at the split's innermost join address waits there, the oldest ready split taking
its slot, until the splits waiting hold every lane left in the record; then they go on as one split after the
RECONV, with the outer record; a RECONV elsewhere does nothing. Where the wait needs a 65th stack entry, or the
split that completes the join does, it traps DIVSTACK. What the spec leaves open and the model settles in it: A
merged split knows of other paths only what all its parts knew (log 7); Order of checks within one word where R87
leaves a point open (log 16). -/
def Obligations.Reconvergence : Prop :=
  ∀ (w : Strip) (f : LaneForm) (sp : Split) (s : State), LaneReady (.reconv w) f w sp s →
    (s.warp.stack.length ≤ 64 → (∀ id r, sp.join = some id → s.warp.joinRec id = some r → r.j ≠ sp.pc) →
      ∃ t q, exec (.reconv w) s = .next t ∧ t.split? = some q ∧ q.pc = sp.pc + 12#64 ∧ q.mask = sp.mask ∧
        q.join = sp.join ∧ q.sig = (if sp.ts.isSome then sp.sig else sigSeedJoin sp.mask) ∧
        t.warp.stack = s.warp.stack ∧ t.warp.slot? (!s.slotB) = s.warp.slot? (!s.slotB) ∧ ControlOnly s t) ∧
    (∀ id r, sp.join = some id → s.warp.joinRec id = some r → r.j = sp.pc →
      let M := unionMask (s.warp.waitingAt id) ||| sp.mask
      let needs := s.warp.stack.length + 1 -
        (if r.m &&& ~~~M ≠ 0#32 ∧ s.warp.oldestReady.isSome = true then 1 else 0)
      (64 < needs → exec (.reconv w) s = .next (takeTrap s (wholeTrap Code.divstack sp.mask))) ∧
      (needs ≤ 64 → r.m &&& ~~~M = 0#32 →
        ∃ t q, exec (.reconv w) s = .next t ∧ t.split? = some q ∧ q.pc = r.j + 12#64 ∧ q.mask = M ∧ q.join = r.outer ∧
          (sp.ts.isSome = false → (∀ x ∈ s.warp.waitingAt id, x.ts.isSome = false) → q.sig = sigSeedJoin M) ∧
          t.warp.joinRec id = none ∧ t.warp.waitingAt id = [] ∧
          t.warp.slot? (!s.slotB) = s.warp.slot? (!s.slotB) ∧ ControlOnly s t) ∧
      (needs ≤ 64 → r.m &&& ~~~M ≠ 0#32 →
        ∃ t, exec (.reconv w) s = .next t ∧ unionMask (t.warp.waitingAt id) = M ∧ t.warp.joinRec id = some r ∧
          (t.split?).map (·.pc) = s.warp.oldestReady.map (·.pc) ∧
          t.warp.slot? (!s.slotB) = s.warp.slot? (!s.slotB) ∧ ControlOnly s t))

/-- R16, R71, R177, R233: ENTRY within the allocation does nothing and otherwise traps BUDGET; YIELD rotates its split
out where the stack holds a ready one; TRAMP goes on at its target; EXIT ends the lanes of P, the others go on at NEXT,
and a warp without a split ends normally. -/
def Clause.SplitControl : Prop :=
  (∀ (w : Strip) (f : LaneForm) (sp : Split) (s : State), LaneReady (.entry w) f w sp s →
    (Form.xf w 4 0 ≤ s.warp.units →
      ∃ t, exec (.entry w) s = .next t ∧ LaneRetired (cxOf s f w sp) (sp.pc + 12#64) s t ∧ LaneResults [] [] s t) ∧
    (s.warp.units < Form.xf w 4 0 → sp.mask ≠ 0#32 →
      exec (.entry w) s = .next (takeTrap s (wholeTrap Code.budget sp.mask)))) ∧
  (∀ (w : Strip) (slot : BitVec 3) (f : LaneForm) (sp : Split) (s : State), LaneReady (.tramp slot w) f w sp s →
    ∃ t, exec (.tramp slot w) s = .next t ∧ LaneRetired (cxOf s f w sp) (branchTarget sp w.tdisp) s t ∧
      LaneResults [] [] s t) ∧
  (∀ (w : Strip) (f : LaneForm) (sp : Split) (s : State), LaneReady (.yield w) f w sp s → s.warp.stack.length ≤ 64 →
    (s.warp.oldestReady = none ∨ sp.ts.isSome = true →
      ∃ t q, exec (.yield w) s = .next t ∧ t.split? = some q ∧ Continues s sp (sp.pc + 12#64) sp.mask sp.join q ∧
        t.warp.stack = s.warp.stack ∧ ControlOnly s t) ∧
    (∀ r, s.warp.oldestReady = some r → sp.ts = none →
      ∃ t q, exec (.yield w) s = .next t ∧ t.split? = some { r with entered := s.cycle } ∧
        Continues s sp (sp.pc + 12#64) sp.mask sp.join q ∧ t.warp.stack.getLast? = some (.ready q) ∧
        t.warp.stack.length = s.warp.stack.length ∧ ControlOnly s t)) ∧
  (∀ (w : Strip) (f : LaneForm) (sp : Split) (s : State), LaneReady (.exit w) f w sp s → s.warp.pending = [] →
    let P := takingPart s.warp sp f w
    (sp.mask &&& ~~~P ≠ 0#32 →
      ∃ t q, exec (.exit w) s = .next t ∧ t.split? = some q ∧ q.pc = sp.pc + 12#64 ∧ q.mask = sp.mask &&& ~~~P ∧
        t.warp.alive = s.warp.alive &&& ~~~P ∧ t.warp.regs = s.warp.regs ∧ t.warp.ended = s.warp.ended ∧
        (∀ k, P.has k = true → t.warp.linkOf k = none) ∧ t.warp.preds = s.warp.preds ∧ t.warp.fq = s.warp.fq ∧
        t.warp.s = s.warp.s ∧ t.others = s.others ∧ SameMemory s t) ∧
    (sp.mask &&& ~~~P = 0#32 → s.warp.stack = [] → s.warp.slot? (!s.slotB) = none → s.warp.ts0.inUse = false →
      s.warp.ts1.inUse = false → s.warp.lstarted = true → s.warp.ended = none →
      ∃ t, exec (.exit w) s = .next t ∧ t.warp.ended = some (0#8, 0#8) ∧ (s.mapped = [] → SameMemory s t)))

/-- R22, R141: LMARK raises LM by 1 and goes on once AM has reached LM + 1, or after HALTS; before, it parks its split,
and LMARK_RETIRE completes the parked LMARK when AM gets there: its split goes on after it. -/
def Clause.LaneMark : Prop :=
  let reaches (s : State) : Prop := (s.warp.am - (s.warp.lm + 1#32)).toNat < 2 ^ 31 ∨ s.warp.acc = .halted
  let marked (w : Strip) (f : LaneForm) (sp : Split) (s t : State) : Prop :=
    let s1 : State := { s with warp := { s.warp with lm := s.warp.lm + 1#32, lmView := t.warp.lmView } }
    LaneRetired (cxOf s f w sp) (sp.pc + 12#64) s1 t ∧ LaneResults [] [] s1 t
  (∀ (w : Strip) (f : LaneForm) (sp : Split) (s : State), LaneReady (.lmark w) f w sp s →
    (reaches s → ∃ t, exec (.lmark w) s = .next t ∧ marked w f sp s t) ∧
    (¬ reaches s → exec (.lmark w) s = .next (s.setSplit (some { sp with wait := .lmark })))) ∧
  (∀ (w : Strip) (sp : Split) (s s' : State) (f : LaneForm), s.slotB = false →
    s.warp.slotA = some { sp with wait := .lmark } → (s.warp.slotB.map (·.wait)) ≠ some .lmark → reaches s →
    fetchLane { s with warp := { s.warp with slotA := some { sp with wait := .none } } }
      { s.warp with slotA := some { sp with wait := .none } } sp.pc = (.ok (.lmark w), s') →
    LaneReady (.lmark w) f w { sp with wait := .none } s' →
    ∃ t, exec .lmarkRetire s = .next t ∧ exec (.lmark w) s' = .next t ∧ marked w f { sp with wait := .none } s' t)

/-- ENTRY, YIELD, TRAMP, EXIT and LMARK act on their split as the rules say: the two clauses SplitControl and
LaneMark. What the spec leaves open and the model settles in it: Rotation: what counts as entering the stack
earlier, two splits of one cycle, and slots that an end left free (log 10); PREEMPT.OFF sections, yields and the end
of a warp (log 82). -/
def Obligations.SplitWords : Prop := Clause.SplitControl ∧ Clause.LaneMark

/-! ## Lane memory -/

/-- R202, R203, R205, R207 to R210, R74: a load whose lanes can all be placed promises D and the registers above it the
words at each lane's address, under tag FMT; a load of one U address reads once for every lane. Memory stays. -/
def Clause.LaneLoads : Prop :=
  ∀ row ∈ loadRows, ∀ (w : Strip) (f : LaneForm) (sp : Split) (s s' : State) (l : List (LaneAcc × Except AccErr Nat)),
    LaneRuns (row.1 w) f w sp s → sp.ts.isSome = true ∨ s.warp.frag = none →
    let cx := cxOf s f w sp
    let n := 2 ^ Form.xf w 2 0
    preCheck s s.warp n false row.2.2 (row.2.1 cx) = none →
    placeLanes cx.view s.warp .read n (row.2.1 cx) s = (l, s') → (∀ p ∈ l, ∃ k, p.2 = .ok k) →
    ∃ (t : State) (W : Nat → Nat → Word) (Q : Nat → LaneMask), exec (row.1 w) s = .next t ∧ LaneRetired cx (sp.pc + 12#64) (readFrom s t) t ∧
      (∀ x key, (x, .ok key) ∈ l → ∀ k, k < (n + 3) / 4 →
        ∃ r, (r = x.lane ∨ r = LaneMask.lowest cx.p) ∧ W k x.lane = loadedWord s { cx.view with const := row.2.2 } w r key k) ∧
      LanePromised ((List.range ((n + 3) / 4)).map fun k =>
        { n := w.d.toNat + k, mask := cx.p, tag := w.fmt, word := W k, poison := Q k }) [] (readFrom s t) t

/-- R202, R203, R206 to R209: outside an epoch a store whose lanes can all be placed writes each lane's bytes, low byte
first, the highest lane's where lanes overlap; no other byte changes, and no register. -/
def Clause.LaneStores : Prop :=
  ∀ row ∈ storeRows, ∀ (w : Strip) (f : LaneForm) (sp : Split) (s s' : State) (l : List (LaneAcc × Except AccErr Nat)),
    LaneReady (row.1 w) f w sp s → (cxOf s f w sp).p ≠ 0#32 → s.warp.epoch = none →
    let cx := cxOf s f w sp
    let n := 2 ^ Form.xf w 2 0
    storeDeaths n (decide (row.1 w = .st w)) row.2 cx = 0#32 →
    preCheck s s.warp n true false (row.2 cx) = none →
    placeLanes cx.view s.warp .write n (row.2 cx) s = (l, s') → (∀ p ∈ l, ∃ k, p.2 = .ok k) →
    ∃ t, exec (row.1 w) s = .next t ∧ LaneRetired cx (sp.pc + 12#64) (writtenFrom s t) t ∧
      LaneResults [] [] (writtenFrom s t) t ∧
      SameMemoryBut (l.flatMap fun p => match p.2 with | .ok k => (keysFrom k n).map (home s) | .error _ => []) s t ∧
      (Ordered s → ∀ x key j, (x, .ok key) ∈ l → j < n →
        (∀ y key' j', (y, .ok key') ∈ l → x.lane < y.lane → j' < n → home s (key' + j') ≠ home s (key + j)) →
        memGet t.mem (home s (key + j)) = storedByte cx x.lane j)

/-- Lane loads promise the words at each lane's address; lane stores change exactly their bytes: the two clauses
LaneLoads and LaneStores. What the spec leaves open and the model settles in it: Who moves next is plain data of
State; an access is performed when its word issues, with all its lanes in one step (log 4); Scratchpad addresses
a[i] of the .P forms are taken as unsigned (log 23). -/
def Obligations.LaneAccesses : Prop := Clause.LaneLoads ∧ Clause.LaneStores

/-- R87, R202 to R204, R210: a lane whose address is no multiple of SIZE traps ALIGN, one that leaves its owned range
BOUNDS, one of LD.C outside .const PROT: the trap names exactly those lanes and no lane is performed. -/
def Clause.LaneAccessTraps : Prop :=
  ∀ (i : Instr) (store const : Bool) (acc : Cx → List LaneAcc) (w : Strip) (f : LaneForm) (sp : Split) (s : State),
    ((i, store, const, acc) ∈ loadRows.map (fun r => (r.1 w, false, r.2.2, r.2.1)) ++
      storeRows.map (fun r => (r.1 w, true, false, r.2))) →
    LaneReady i f w sp s → (cxOf s f w sp).p ≠ 0#32 → sp.ts.isSome = true ∨ s.warp.frag = none → s.warp.epoch = none →
    let cx := cxOf s f w sp
    let n := 2 ^ Form.xf w 2 0
    (if store then storeDeaths n (decide (i = .st w)) acc cx else genericDeaths cx) = 0#32 →
    let misaligned (x : LaneAcc) : Prop := x.ea.toNat % n ≠ 0
    let outside (x : LaneAcc) : Prop :=
      if const then inConst s s.warp x.ea n = false else outOfBounds s s.warp x n = true
    ((∃ x ∈ acc cx, misaligned x) →
      ∃ tr, exec i s = .next (takeTrap s tr) ∧ tr.code = Code.align ∧ tr.replay = 0#32 ∧
        ∀ x ∈ acc cx, (tr.lanes.has x.lane = true ↔ misaligned x)) ∧
    ((∀ x ∈ acc cx, ¬ misaligned x) → (∃ x ∈ acc cx, outside x) →
      ∃ tr, exec i s = .next (takeTrap s tr) ∧ tr.code = (if const then Code.prot else Code.bounds) ∧ tr.replay = 0#32 ∧
        ∀ x ∈ acc cx, (tr.lanes.has x.lane = true ↔ outside x))

/-- R204, R239: where some lanes of a load meet PAGE, the lanes that meet no fault write their results, and the trap names
the others, which form the replay mask. -/
def Clause.LaneReplay : Prop :=
  ∀ (w : Strip) (f : LaneForm) (sp : Split) (s s' : State) (l : List (LaneAcc × Except AccErr Nat)),
    LaneRuns (.ld w) f w sp s → sp.ts.isSome = true ∨ s.warp.frag = none → s.warp.pending = [] → w.d.toNat < 248 →
    let cx := cxOf s f w sp
    let n := 2 ^ Form.xf w 2 0
    preCheck s s.warp n false false (cx.pagedAccs true) = none →
    placeLanes cx.view s.warp .read n (cx.pagedAccs true) s = (l, s') →
    (∀ p ∈ l, (∃ k, p.2 = .ok k) ∨ p.2 = .error .page) → (∃ p ∈ l, p.2 = .error .page) →
    ¬ (cx.full = true ∧ cx.a.shape = 0) →
    ∃ u tr, exec (.ld w) s = .next (takeTrap u tr) ∧ tr.code = Code.page ∧ tr.replay = tr.lanes ∧
      (∀ p ∈ l, tr.lanes.has p.1.lane = true ↔ p.2 = .error .page) ∧
      (∀ x key, (x, .ok key) ∈ l → ∀ k, k < (n + 3) / 4 →
        (u.warp.reg (w.d.toNat + k)).val.word x.lane = loadedWord s cx.view w x.lane key k) ∧
      (∀ r, r < w.d.toNat ∨ w.d.toNat + (n + 3) / 4 ≤ r → SameReg s u r) ∧ SameMemory s u

/-- A faulting lane access names exactly its lanes; on PAGE the good lanes of a load complete: the two clauses
LaneAccessTraps and LaneReplay. What the spec leaves open and the model settles in it: Order of checks within one
word where R87 leaves a point open (log 16); Which traps post a fault record, and an entry of the queue or of the
vector that cannot be reached (log 20); Faults are named by pages of 256 KiB (log 24). -/
def Obligations.LaneFaults : Prop := Clause.LaneAccessTraps ∧ Clause.LaneReplay

/-- R212: outside an epoch and where earlier writes are ordered, ATOM and RED combine the lanes of each address in lane
order: memory ends with every operand of the address combined, and ATOM promises each lane the value before its own. -/
def Clause.Atomics : Prop :=
  ∀ (ret : Bool) (w : Strip) (f : LaneForm) (sp : Split) (s s' : State) (l : List (LaneAcc × Except AccErr Nat)),
    let i := if ret then Instr.atom w else .red w
    LaneRuns i f w sp s → s.warp.epoch = none → Ordered s →
    let cx := cxOf s f w sp
    preCheck s s.warp 4 true false (cx.pagedAccs true) = none →
    placeRmw cx.view s.warp 4 (cx.pagedAccs true) s = (l, s') → (∀ p ∈ l, ∃ k, p.2 = .ok k) →
    (∀ p ∈ l, ∀ k, p.2 = .ok k → k % 4 = 0) → Apart s 4 l →
    let at_ (key : Nat) (upto : Nat) : Word :=
      ((l.filter fun p => (match p.2 with | .ok k => k == key | .error _ => false) && decide (p.1.lane < upto)).foldl
        (fun acc p => atomOp (Form.xf w 7 4) acc (cx.c.word p.1.lane)) (BitVec.ofNat 32 (memNat s key 4)))
    ∃ t v q, exec i s = .next t ∧ LaneRetired cx (sp.pc + 12#64) (writtenFrom s t) t ∧
      (∀ x key, (x, .ok key) ∈ l → v x.lane = at_ key x.lane ∧ memNat t key 4 = (at_ key 32).toNat) ∧
      SameMemoryBut (l.flatMap fun p => match p.2 with | .ok k => (keysFrom k 4).map (home s) | .error _ => []) s t ∧
      (if ret then LanePromised [{ n := w.d.toNat, mask := cx.p, tag := w.fmt, word := v, poison := q }] []
          (writtenFrom s t) t
        else LaneResults [] [] (writtenFrom s t) t)

/-- R213: CAS acts lane by lane in ascending order: each lane is promised the value it finds, and where that is its compare
value its new value goes to memory. -/
def Clause.CompareSwap : Prop :=
  ∀ (w : Strip) (f : LaneForm) (sp : Split) (s s' : State) (l : List (LaneAcc × Except AccErr Nat)),
    LaneRuns (.cas w) f w sp s → s.warp.epoch = none → Ordered s →
    let cx := cxOf s f w sp
    let n := 2 ^ Form.xf w 2 0
    preCheck s s.warp n true false (cx.pagedAccs false) = none →
    placeRmw cx.view s.warp n (cx.pagedAccs false) s = (l, s') → (∀ p ∈ l, ∃ k, p.2 = .ok k ∧ k % n = 0) → Apart s n l →
    let value (x : SrcField) (lane : Nat) : Nat :=
      ((operand s.draws s.warp x 0).word lane).toNat +
        (if n = 8 then ((operand s.draws s.warp x 1).word lane).toNat * 2 ^ 32 else 0)
    let at_ (key : Nat) (upto : Nat) : Nat :=
      (l.filter fun p => (match p.2 with | .ok k => k == key | .error _ => false) && decide (p.1.lane < upto)).foldl
        (fun cur p => if cur = value w.b p.1.lane then value w.c p.1.lane else cur) (memNat s key n)
    ∃ (t : State) (v : Nat → Nat → Word) (q : Nat → LaneMask), exec (.cas w) s = .next t ∧ LaneRetired cx (sp.pc + 12#64) (writtenFrom s t) t ∧
      (∀ x key, (x, .ok key) ∈ l → memNat t key n = at_ key 32 ∧
        ∀ k, k < n / 4 → v k x.lane = BitVec.ofNat 32 (at_ key x.lane / 2 ^ (32 * k))) ∧
      SameMemoryBut (l.flatMap fun p => match p.2 with | .ok k => (keysFrom k n).map (home s) | .error _ => []) s t ∧
      LanePromised ((List.range (n / 4)).map fun k =>
        { n := w.d.toNat + k, mask := cx.p, tag := w.fmt, word := v k, poison := q k }) [] (writtenFrom s t) t

/-- ATOM, RED and CAS act in ascending lane order; memory and old values come out as the rules compute them: the two
clauses Atomics and CompareSwap. What the spec leaves open and the model settles in it: Who moves next is plain data
of State; an access is performed when its word issues, with all its lanes in one step (log 4); Atomics and barrier
updates read and write at one place in the order against writes of other paths (log 14); ATOM, RED and CAS need read
and write permission, and clear a poison mark they overwrite whole (log 19); Lanes of an ATOM, RED or CAS are
grouped by where their addresses are placed (log 93). -/
def Obligations.AtomicWords : Prop := Clause.Atomics ∧ Clause.CompareSwap

/-- R195, R211, R214, R215: FENCE completes and changes nothing; FENCE.X orders what the split has written on G, or
has observed of another path, before its later accesses of the later class; PREFETCH changes no value whatever its
address. What the spec leaves open and the model settles in it: Splits of one warp share a writer number and its
fences of another path (log 25). -/
def Obligations.Fences : Prop :=
  (∀ (w : Strip) (f : LaneForm) (sp : Split) (s : State), LaneReady (.fence w) f w sp s →
    ∃ t, exec (.fence w) s = .next t ∧ LaneRetired (cxOf s f w sp) (sp.pc + 12#64) s t ∧ LaneResults [] [] s t) ∧
  (∀ (w : Strip) (f : LaneForm) (sp : Split) (s : State), LaneReady (.fenceX w) f w sp s →
    let e := pathOf (Form.xf w 2 0)
    let l := pathOf (Form.xf w 5 3)
    ∃ t q, exec (.fenceX w) s = .next t ∧ t.split? = some q ∧ q.pc = sp.pc + 12#64 ∧ q.mask = sp.mask ∧
      (∀ n, SameReg s t n) ∧ t.warp.preds = s.warp.preds ∧ (l ≠ .g → SameMemory s t) ∧
      (e = .g → ∀ r ∈ s.hist, r.path = .g → r.writer = sp.view.own → r.serial ≤ s.serial → r.fenced = none →
        (viewOf t.warp q).sees l r = true) ∧
      (l = .g → ∀ r ∈ t.hist, r.path = e → sp.view.observed.contains r.land = true → r.fenced.isSome = true) ∧
      (e ≠ .g → l ≠ .g → ∀ r ∈ s.hist, r.path = e → sp.view.observed.contains r.land = true →
        (∃ x ∈ s.landings, x.id = r.land ∧ x.path = e) → (viewOf t.warp q).sees l r = true)) ∧
  (∀ (w : Strip) (f : LaneForm) (sp : Split) (s : State), LaneRuns (.prefetch w) f w sp s →
    ∃ t, exec (.prefetch w) s = .next t ∧ LaneRetired (cxOf s f w sp) (sp.pc + 12#64) (readFrom s t) t ∧
      LaneResults [] [] (readFrom s t) t)

/-- R223, R224, R307: XLAT promises each lane the pair KVADDR(a, b), tagged ADDR64, and under NT a false predicate; XLAT.RP
re-runs the flagged lanes alone, once every fault posted for their blocks is answered; the newest answer counts. -/
def Clause.LaneTranslation : Prop :=
  -- besides what a read changes, the word's list of posted blocks is empty again
  let after (s t : State) : State := (readFrom s t).modSplit fun sp => { sp with noted := [] }
  (∀ (w : Strip) (f : LaneForm) (sp : Split) (s s' : State) (l : List (Nat × KvRes)), LaneRuns (.xlat w) f w sp s →
    let cx := cxOf s f w sp
    xlatLanes cx cx.view (LaneMask.lanes cx.p) s = (l, s') → (∀ p ∈ l, ∃ a e n b, p.2 = .addr a e n b) →
    ∃ t lo hi q, exec (.xlat w) s = .next t ∧ LaneRetired cx (sp.pc + 12#64) (after s t) t ∧
      (∀ k a e n b, (k, .addr a e n b) ∈ l → hi k ++ lo k = a ∧ LaneMask.has q k = b) ∧
      LanePromised [{ n := w.d.toNat, mask := cx.p, tag := 0xA#4, word := lo, poison := q },
          { n := w.d.toNat + 1, mask := cx.p, tag := 0xA#4, word := hi, poison := q }]
        (if w.x.getLsbD 0 then [⟨Form.xf w 3 1, 0#32, cx.p⟩] else []) (after s t) t) ∧
  (∀ (w : Strip) (f : LaneForm) (sp : Split) (s s' : State) (l : List (Nat × KvRes)), LaneRuns (.xlatRp w) f w sp s →
    let cx := cxOf s f w sp
    let flagged := (LaneMask.lanes cx.p).filter fun k => s.warp.predLane (Form.xf w 3 1) k
    let keys := (s.blockFaults.filter (·.grid == s.warp.grid)).map (·.key)
    let answers (r : KvRes) : List Nat := (faultsOf s s.warp r).map (·.status s)
    xlatLanes cx (answeredView s cx.view keys) flagged s = (l, s') → flagged ≠ [] →
    (∀ p ∈ l, ∃ a e n b, p.2 = .addr a e n b ∧ 0 ∉ answers p.2 ∧ (answers p.2).head? ≠ some 2) →
    ∃ t lo hi q, exec (.xlatRp w) s = .next t ∧ LaneRetired cx (sp.pc + 12#64) (after s t) t ∧
      (∀ k a e n b, (k, .addr a e n b) ∈ l → hi k ++ lo k = a) ∧
      (let m := LaneMask.ofPred fun k => flagged.contains k
       LanePromised [{ n := w.d.toNat, mask := m, tag := 0xA#4, word := lo, poison := q },
          { n := w.d.toNat + 1, mask := m, tag := 0xA#4, word := hi, poison := q }]
        [⟨Form.xf w 3 1, 0#32, m⟩] (after s t) t)) ∧
  (∀ (w : Strip) (f : LaneForm) (sp : Split) (s s' : State) (l : List (Nat × KvRes)), LaneRuns (.xlatRp w) f w sp s →
    let cx := cxOf s f w sp
    let flagged := (LaneMask.lanes cx.p).filter fun k => s.warp.predLane (Form.xf w 3 1) k
    let keys := (s.blockFaults.filter (·.grid == s.warp.grid)).map (·.key)
    xlatLanes cx (answeredView s cx.view keys) flagged s = (l, s') →
    (∃ p ∈ l, ∃ x ∈ faultsOf s s.warp p.2, x.status s = 0) → exec (.xlatRp w) s = .next s)

/-- XLATS, XLATQ and XLAT give KVADDR of their positions; PREFS changes nothing; XLAT.RP re-runs flagged lanes: the
two clauses AccessTranslation and LaneTranslation. What the spec leaves open and the model settles in it: How a
fault of a block is known (log 50); Cached translations: either entry while they differ from the tables; 1,024 a
core, the oldest dropped (log 72); XLAT.RP with several faults of one block: the newest answer counts (log 97). -/
def Obligations.Translation : Prop := Clause.AccessTranslation ∧ Clause.LaneTranslation

/-! ## Barrier objects -/

/-- The object that memory holds at a key (R216). -/
def objAt (s : State) (k : Nat) : BarObj := BarObj.parse ((keysFrom k 16).map (memGet s.mem))

/-- R217 to R220: BAR.INIT, BAR.ARRIVE and BAR.EXPECT update the object of the lowest lane's offset once, whatever lanes
take part, and test the end of the phase once after it; BAR.ARRIVE promises the phase before its arrivals, tag N32; no
other byte of memory changes and BAR.INIT and BAR.EXPECT write no register. -/
def Clause.BarrierUpdates : Prop :=
  ∀ (i : Instr) (w : Strip) (f : LaneForm) (sp : Split) (s : State) (k : Nat), LaneReady i f w sp s → Ordered s →
    let cx := cxOf s f w sp
    cx.p ≠ 0#32 → lowDeaths cx = 0#32 → cx.object = .ok k →
    let o := objAt s k
    let b := cx.b.word cx.lane0
    let c := cx.c.word cx.lane0
    let tested (o : BarObj) : BarObj :=
      if o.pendArr = 0 ∧ o.pendB = 0#32 then
        { phase := o.phase + 1#32, pendArr := o.expArr, expArr := o.expArr, pendB := o.reload, reload := o.reload }
      else o
    let done (o' : BarObj) (l : List Wrote) : Prop :=
      ∃ t, exec i s = .next t ∧
        LaneRetired cx (sp.pc + 12#64) { writtenFrom s t with barSeen := t.barSeen, landings := t.landings } t ∧
        (l = [] → LaneResults [] [] { writtenFrom s t with barSeen := t.barSeen, landings := t.landings } t) ∧
        (l ≠ [] → LanePromised l [] { writtenFrom s t with barSeen := t.barSeen, landings := t.landings } t) ∧
        objAt t k = tested o' ∧ SameMemoryBut (keysFrom k 16) s t
    (i = .barInit w →
      let n := if b.toNat % 2 ^ 16 = 0 then 1 else b.toNat % 2 ^ 16
      done { phase := 0#32, pendArr := n, expArr := n, pendB := c, reload := c } []) ∧
    (i = .barArrive w →
      done { o with pendArr := o.pendArr - min (Form.xf w 10 3 + 1) o.pendArr }
        [{ n := w.d.toNat, mask := cx.p, tag := 2#4, word := fun _ => o.phase }]) ∧
    (i = .barExpect w →
      done { o with
        pendB := o.pendB + b
        reload := if w.x.getLsbD 4 then o.reload + b else o.reload
        pendArr := if w.x.getLsbD 3 then o.pendArr - min 1 o.pendArr else o.pendArr } [])

/-- R216, R221, R222, R29: BAR.WAIT leaves its split waiting while the phase is its token and goes on otherwise, BAR.TEST
promises whether they differ; both observe the phase change, and with it the landings counted in completed phases; the
waiting split's word is performed again when BAR_WAIT_RETURN finds another phase: BAR_WAIT_RETURN completes it and its
split goes on after it. Objects off 16 bytes trap ALIGN, those
outside the range BOUNDS. That these two traps name all of P is the model's choice (log 16), and so is that the object's 16
bytes are read and updated as one access (log 76). -/
def Clause.BarrierWaits : Prop :=
  (∀ (i : Instr) (w : Strip) (f : LaneForm) (sp : Split) (s : State) (k : Nat),
    i = .barWait w ∨ i = .barTest w → LaneReady i f w sp s → Ordered s →
    let cx := cxOf s f w sp
    cx.p ≠ 0#32 → lowDeaths cx = 0#32 → cx.object = .ok k →
    let token := cx.b.word cx.lane0
    let phase := (objAt s k).phase
    let pd : List PredWrite :=
      if i = .barTest w then [⟨Form.xf w 5 3, if phase = token then 0#32 else cx.p, cx.p⟩] else []
    (phase = token → i = .barWait w → exec i s = .next (s.setSplit (some { sp with wait := .barWait k token }))) ∧
    (phase ≠ token ∨ i = .barTest w →
      ∃ t q, exec i s = .next t ∧ LaneRetired cx (sp.pc + 12#64) (seenFrom s t) t ∧
        LanePromised [] pd (seenFrom s t) t ∧ t.split? = some q ∧
        (phase = token → q.view = sp.view) ∧
        (phase ≠ token → q.view.own = sp.view.own ∧ q.view.epoch = sp.view.epoch ∧ sp.view.gseen ≤ q.view.gseen ∧
          (∀ x ∈ sp.view.observed, x ∈ q.view.observed) ∧
          ∀ l ∈ s.landings, l.closed = true → k ∈ l.objs → l.id ∈ q.view.observed))) ∧
  (∀ (w : Strip) (f : LaneForm) (sp : Split) (s s' : State) (k : Nat) (token : Word), s.slotB = false →
    s.warp.slotA = some { sp with wait := .barWait k token } → (∀ q, s.warp.slotB = some q → q.wait = .none) → Ordered s →
    (objAt s k).phase ≠ token → spBase ≤ k →
    fetchLane { s with warp := { s.warp with slotA := some { sp with wait := .none } } }
      { s.warp with slotA := some { sp with wait := .none } } sp.pc = (.ok (.barWait w), s') →
    LaneReady (.barWait w) f w { sp with wait := .none } s' → lowDeaths (cxOf s' f w { sp with wait := .none }) = 0#32 →
    let cx := cxOf s' f w { sp with wait := .none }
    exec .barWaitReturn s = exec (.barWait w) s' ∧
    (cx.p ≠ 0#32 → cx.object = .ok k → cx.b.word cx.lane0 = token →
      ∃ t, exec .barWaitReturn s = .next t ∧ LaneRetired cx (sp.pc + 12#64) (seenFrom s' t) t ∧
        LanePromised [] [] (seenFrom s' t) t)) ∧
  (∀ (i : Instr) (w : Strip) (f : LaneForm) (sp : Split) (s : State),
    i = .barInit w ∨ i = .barArrive w ∨ i = .barExpect w ∨ i = .barWait w ∨ i = .barTest w → LaneReady i f w sp s →
    let cx := cxOf s f w sp
    cx.p ≠ 0#32 → lowDeaths cx = 0#32 →
    let off := (cx.a.word cx.lane0).toInt
    let team := if w.x.getLsbD 2 then teamOnCore s s.warp (Form.xf w 1 0) else teamById s s.warp.team
    (off % 16 ≠ 0 → ∃ tr, exec i s = .next (takeTrap s tr) ∧ tr.code = Code.align ∧ tr.lanes = cx.p ∧ tr.replay = 0#32) ∧
    (off % 16 = 0 → (∀ T, team = some T → off < 0 ∨ (T.total : Int) < off + 16) →
      ∃ tr, exec i s = .next (takeTrap s tr) ∧ tr.code = Code.bounds ∧ tr.lanes = cx.p ∧ tr.replay = 0#32))

/-- Barrier words update the object once and test the phase once; waits end when the phase differs: the two clauses
BarrierUpdates and BarrierWaits. What the spec leaves open and the model settles in it: Order of checks within one
word where R87 leaves a point open (log 16); Barrier objects are bytes of scratchpad, updated as G accesses of 16
bytes (log 76). -/
def Obligations.Barriers : Prop := Clause.BarrierUpdates ∧ Clause.BarrierWaits

/-! ## The matrix path -/

/-- A matrix or copy word issues for a team: some lane takes part, its lowest lane is clean, and the team is resident. -/
structure EngineReady (i : Instr) (f : LaneForm) (w : Strip) (sp : Split) (s : State) (T : Team) : Prop
    extends LaneReady i f w sp s where
  taking : (cxOf s f w sp).p ≠ 0#32
  clean : lowDeaths (cxOf s f w sp) = 0#32
  team : teamById s s.warp.team = some T

/-- A core of the package. -/
def coreOf (s : State) (n : Nat) : Core := Tab.getD s.cores n Core.init

/-- The core of the issuing warp holds `c` but for what it counts, and the other cores stay but for that. -/
def CoreIs (s t : State) (c : Core) : Prop :=
  (∃ a b, coreOf t s.warp.coreIx = { c with issued := a, replay := b }) ∧
    ∀ n, n ≠ s.warp.coreIx → coreOf t n = coreOf s n

/-- A change of one team. -/
def teamWith (s : State) (T : Team) (g : Team → Team) : State := { s with teams := s.teams.map fun x => if x.id = T.id then g x else x }

/-- A row of the issuing warp's core is owned by a warp of its team (R244). -/
def RowMine (s : State) (r : Nat) : Prop :=
  ∃ o x, ((coreOf s s.warp.coreIx).row r).owner = some o ∧ warpById s o = some x ∧ x.team = s.warp.team

/-- The rows that a word names (R247). -/
def rowsOf (w : Strip) : List Nat := (List.range (Form.xf w 13 7 + 1)).map (Form.xf w 6 0 + ·)

/-- R245, R248, R249: MX.LOADW with an idle loader, an even 16-bit tile and columns inside the team's range starts
the loader and takes the planes; LOADER_DONE fills the shadow plane alone with the columns of 72, 128 or 256 bytes;
MX.SWAP with both slots empty exchanges planes and formats. What the spec leaves open and the model settles in it:
Order of checks within one word where R87 leaves a point open (log 16). -/
def Obligations.MatrixPlanes : Prop :=
  (∀ (w : Strip) (f : LaneForm) (sp : Split) (s : State) (T : Team), EngineReady (.mxLoadw w) f w sp s T → T.loader = none →
    let cx := cxOf s f w sp
    let a := (cx.a.word cx.lane0).toInt
    let b := (cx.b.word cx.lane0).toInt
    let c := coreOf s s.warp.coreIx
    (w.fmt = 4#4 ∨ w.fmt = 5#4 → a % 2 = 0 ∧ b % 2 = 0) →
    (∀ n : Nat, n < 128 → 0 ≤ a + n * b ∧ a + n * b + colBytes w.fmt ≤ T.total) →
    (c.planeOwner = none ∨ c.planeOwner = some s.warp.team) →
    let s1 := teamWith s T fun x =>
      { x with shadowFmt := w.fmt, loader := some { fmt := w.fmt, off := a.toNat, stride := b, view := cx.view } }
    ∃ t, exec (.mxLoadw w) s = .next t ∧ LaneRetired cx (sp.pc + 12#64) s1 t ∧ LaneResults [] [] s1 t ∧
      CoreIs s t { c with planeOwner := some s.warp.team }) ∧
  (∀ (s : State) (T : Team) (op : LoadOp), teamById s T.id = some T → T.loader = some op →
    (∀ r ∈ s.hist, op.view.sees .m r = true) → op.view.epoch = none →
    ∃ t, exec (.loaderDone T.id) s = .next t ∧
      t = { teamWith s T (fun x => { x with loader := none }) with cores := t.cores } ∧
      (∀ n, n ≠ T.coreIx → coreOf t n = coreOf s n) ∧
      (∃ p, coreOf t T.coreIx = { coreOf s T.coreIx with shadow := p } ∧ p.fmt = op.fmt ∧ p.cols.length = 128 ∧
        ∀ n : Nat, n < 128 → p.cols.getD n [] =
          (keysFrom (spKey T.coreIx (T.base + ((op.off : Int) + n * op.stride).toNat)) (colBytes op.fmt)).map
            fun k => memGet s.mem (home s k))) ∧
  (∀ (w : Strip) (f : LaneForm) (sp : Split) (s : State) (T : Team), EngineReady (.mxSwap w) f w sp s T →
    T.loader = none → T.slots = [] →
    let c := coreOf s s.warp.coreIx
    (c.planeOwner = none ∨ c.planeOwner = some s.warp.team) →
    let s1 := teamWith s T fun x => { x with activeFmt := x.shadowFmt, shadowFmt := x.activeFmt }
    ∃ t, exec (.mxSwap w) s = .next t ∧ LaneRetired (cxOf s f w sp) (sp.pc + 12#64) s1 t ∧ LaneResults [] [] s1 t ∧
      CoreIs s t { c with active := c.shadow, shadow := c.active })

/-- R53, R54, R244, R245, R250, R251, R254: MX.CLEAR zeroes its rows under the anchor and owns them, with REL it
releases those of the team; MX.STREAM takes a slot; STREAM_DONE adds the 128 exact products of each activation row
into each word of its row; an addend enters rounded to nearest even on the row's grid, modulo 2^128; MX.STAT reads
state or anchor. What the spec leaves open and the model settles in it: Order of checks within one word where R87
leaves a point open (log 16). -/
def Obligations.MatrixRows : Prop :=
  (∀ (w : Strip) (f : LaneForm) (sp : Split) (s : State) (T : Team), EngineReady (.mxClear w) f w sp s T → T.slots = [] →
    let cx := cxOf s f w sp
    let c := coreOf s s.warp.coreIx
    (∀ r ∈ rowsOf w, rowForeign s s.warp r = false) →
    ∃ t c', exec (.mxClear w) s = .next t ∧ LaneRetired cx (sp.pc + 12#64) s t ∧ LaneResults [] [] s t ∧ CoreIs s t c' ∧
      c' = { c with rows := c'.rows } ∧ ∀ r, c'.row r = if r ∈ rowsOf w then
          { owner := some s.warp.id, anchor := (cx.b.word cx.lane0).setWidth 16
            words := List.replicate 128 { w := 0#128, st := .fin } }
        else c.row r) ∧
  (∀ (w : Strip) (f : LaneForm) (sp : Split) (s : State) (T : Team), EngineReady (.mxClearRel w) f w sp s T → T.slots = [] →
    let c := coreOf s s.warp.coreIx
    ∃ t c', exec (.mxClearRel w) s = .next t ∧ LaneRetired (cxOf s f w sp) (sp.pc + 12#64) s t ∧ LaneResults [] [] s t ∧
      CoreIs s t c' ∧ c' = { c with rows := c'.rows } ∧
      ∀ r, (r ∈ rowsOf w ∧ RowMine s r → c'.row r = { c.row r with owner := none }) ∧
        (¬ (r ∈ rowsOf w ∧ RowMine s r) → c'.row r = c.row r)) ∧
  (∀ (w : Strip) (f : LaneForm) (sp : Split) (s : State) (T : Team), EngineReady (.mxStream w) f w sp s T →
    T.slots.length < 2 → pairs w.fmt T.activeFmt = true →
    let cx := cxOf s f w sp
    let a := (cx.a.word cx.lane0).toInt
    let b := (cx.b.word cx.lane0).toInt
    let c := coreOf s s.warp.coreIx
    (w.fmt = 4#4 ∨ w.fmt = 5#4 → a % 2 = 0 ∧ b % 2 = 0) →
    (∀ j, j ≤ Form.xf w 13 7 → 0 ≤ a + j * b ∧ a + j * b + colBytes w.fmt ≤ T.total) →
    (c.planeOwner = none ∨ c.planeOwner = some s.warp.team) →
    (∀ r ∈ rowsOf w, RowMine s r) →
    let s1 := teamWith s T fun x => { x with slots := x.slots ++ [{
      state := if x.slots.any (fun y => y.state == .running) then .waiting else .running
      fmt := w.fmt, off := a, stride := b, row := Form.xf w 6 0, left := Form.xf w 13 7 + 1, warp := s.warp.id
      view := cx.view, follow := none }] }
    ∃ t, exec (.mxStream w) s = .next t ∧ LaneRetired cx (sp.pc + 12#64) s1 t ∧ LaneResults [] [] s1 t ∧ CoreIs s t c) ∧
  (∀ (s : State) (T : Team) (op : StreamOp) (rest : List StreamOp), teamById s T.id = some T → T.slots = op :: rest →
    op.state ≠ .reserved →
    let path : Path := if op.follow.isSome then .c else .m
    let c := coreOf s T.coreIx
    let keys (j : Nat) := keysFrom (spKey T.coreIx (T.base + (op.off + j * op.stride).toNat)) (colBytes op.fmt)
    (∀ r ∈ s.hist, op.view.sees path r = true) → op.view.epoch = none →
    (∀ j, j < op.left → anyPoisoned s (keys j) = false ∧ (c.row (op.row + j)).words.length = 128) → c.active.bad = [] →
    ∃ t c', exec (.streamDone T.id) s = .next t ∧
      t = { teamWith s T (fun x => { x with slots := startNext rest }) with cores := t.cores } ∧
      (∀ n, n ≠ T.coreIx → coreOf t n = coreOf s n) ∧ coreOf t T.coreIx = c' ∧ c' = { c with rows := c'.rows } ∧
      (∀ r, r < op.row ∨ op.row + op.left ≤ r → c'.row r = c.row r) ∧
      ∀ j, j < op.left →
        let old := c.row (op.row + j)
        let new := c'.row (op.row + j)
        new.anchor = old.anchor ∧ new.owner = old.owner ∧ ∀ n, n < 128 →
          new.word n = ((elemVals op.fmt ((keys j).map fun k => memGet s.mem (home s k))).zip
              ((c.active.cols.map (elemVals c.active.fmt)).getD n [])).foldl
            (fun y q => y.add old.anchor.toInt (mulVal q.1 q.2)) (old.word n)) ∧
  (∀ (x : ExWord) (anchor : Int) (neg : Bool) (mag : Nat) (exp : Int),
    let p : ℚ := (if neg then -1 else 1) * (mag : ℚ) * (2 : ℚ) ^ exp
    let unit : ℚ := (2 : ℚ) ^ (anchor - 96)
    ∃ q : Int, (x.add anchor (.fin neg mag exp)).w = x.w + BitVec.ofInt 128 q ∧
      2 * |(q : ℚ) * unit - p| ≤ unit ∧ (2 * |(q : ℚ) * unit - p| = unit → q % 2 = 0) ∧
      (x.add anchor (.fin neg mag exp)).st = x.st ∧
      x.add anchor (.inf neg) = { w := x.w, st := x.st.join (if neg then .ninf else .pinf) } ∧
      x.add anchor .nan = { w := x.w, st := .nan }) ∧
  (∀ (w : Strip) (f : LaneForm) (sp : Split) (s : State) (T : Team), EngineReady (.mxStat w) f w sp s T →
    let cx := cxOf s f w sp
    let c := coreOf s s.warp.coreIx
    let bit (b : Bool) : BitVec 1 := if b then 1#1 else 0#1
    (Form.xf w 1 0 = 0 → T.slots.length ≤ 2 →
      let v : BitVec 15 := bit T.cf ++ bit T.fd ++ bit T.nf ++ bit (decide (c.planeOwner = some T.id)) ++ T.shadowFmt ++
        T.activeFmt ++ BitVec.ofNat 2 T.slots.length ++ bit T.loader.isSome
      let s1 := if w.x.getLsbD 9 then teamWith s T fun x => { x with nf := false, fd := false, cf := false } else s
      ∃ t, exec (.mxStat w) s = .next t ∧ LaneRetired cx (sp.pc + 12#64) s1 t ∧
        LaneResult cx 2#4 (fun _ => v.setWidth 32) s1 t) ∧
    (Form.xf w 1 0 = 1 →
      let r := Form.xf w 8 2
      ∃ t v, exec (.mxStat w) s = .next t ∧ LaneRetired cx (sp.pc + 12#64) s t ∧ LaneResult cx 2#4 (fun _ => v) s t ∧
        (RowMine s r → v.toInt = (c.row r).anchor.toInt) ∧ (¬ RowMine s r → v = 0#32)))

/-- R57, R252, R253, R217: MX.DRAIN to registers promises every word of its rows, rounded once or in exact form, in
the lane and register of the table, and sets NF where an exact word is not finite; MX.DRAIN to memory holds each
word for its address; DRAIN_BYTES_LAND writes one of them, or adds it modulo 2^128, and counts its bytes against the
barrier object. What the spec leaves open and the model settles in it: Add-on-stores update what stands at the
destination, and a write fenced into G does not rise above one that has counted it (log 13); NF is set by drains of
the exact form, and covers the columns drained (log 33); How bytes of drains and copies land (log 77). -/
def Obligations.MatrixDrains : Prop :=
  (∀ (w : Strip) (f : LaneForm) (sp : Split) (s : State) (T : Team), EngineReady (.mxDrainReg w) f w sp s T → T.slots = [] →
    let cx := cxOf s f w sp
    let c := coreOf s s.warp.coreIx
    (∀ r ∈ rowsOf w, rowForeign s s.warp r = false) →
    let per := if w.fmt = 3#4 then 4 else if w.fmt = 9#4 then 16 else 2
    let out (r col : Nat) : Nat := ((c.row r).word col).drain (drainFmt w.fmt) (c.row r).anchor.toInt
    let lane (r k i : Nat) : Word :=
      if w.fmt = 9#4 then ((c.row r).word (32 * (k / 4) + i)).w.extractLsb' (32 * (k % 4)) 32
      else if w.fmt = 3#4 then BitVec.ofNat 32 (out r (32 * k + i))
      else BitVec.ofNat 16 (out r (64 * k + 2 * i + 1)) ++ BitVec.ofNat 16 (out r (64 * k + 2 * i))
    let notFinite : Prop := w.fmt = 9#4 ∧ ∃ r ∈ rowsOf w, ∃ n, n < 128 ∧ ((c.row r).word n).st ≠ .fin
    ∃ t, exec (.mxDrainReg w) s = .next t ∧
      (notFinite → LaneRetired cx (sp.pc + 12#64) (teamWith s T fun x => { x with nf := true }) t) ∧
      (¬ notFinite → LaneRetired cx (sp.pc + 12#64) s t) ∧ CoreIs s t c ∧
      LanePromised ((rowsOf w).zipIdx.flatMap fun p => (List.range per).map fun k =>
        { n := cx.d + per * p.2 + k, mask := cx.p, tag := w.fmt, word := lane p.1 k }) [] s t) ∧
  (∀ (w : Strip) (f : LaneForm) (sp : Split) (s s' : State) (T : Team) (l : List (DWord × Except AccErr Nat)),
    EngineReady (.mxDrainMem w) f w sp s T → T.slots = [] → s.warp.epoch = none →
    let cx := cxOf s f w sp
    let c := coreOf s s.warp.coreIx
    let es := if w.fmt = 9#4 then 16 else if w.fmt = 3#4 then 4 else 2
    let ea := (cx.srcA 1).word cx.lane0 ++ cx.a.word cx.lane0
    let b := (cx.b.word cx.lane0).toInt
    let o := (cx.c.word cx.lane0).toNat
    let bar := 16 * (o % 2 ^ 15)
    let col := o / 2 ^ 15 % 2 ^ 7
    let ncol := min (col + (o / 2 ^ 22 % 2 ^ 7 + 1)) 128 - col
    let dst (j n : Nat) : DWord := ea + BitVec.ofInt 64 (b * j) + BitVec.ofNat 64 (n * es)
    ea.toNat % es = 0 → b % es = 0 → bar + 16 ≤ T.total → (∀ r ∈ rowsOf w, rowForeign s s.warp r = false) →
    placeList cx.view s.warp .write ((List.range (rowsOf w).length).flatMap fun j =>
      (List.range ncol).map fun n => (dst j n, es)) s = (l, s') → (∀ p ∈ l, ∃ k, p.2 = .ok k) →
    ∃ t op, exec (.mxDrainMem w) s = .next t ∧
      (let s1 := { s with tlb := t.tlb, drains := s.drains ++ [op], nextId := s.nextId + 1, teams := t.teams }
       LaneRetired cx (sp.pc + 12#64) s1 t ∧ LaneResults [] [] s1 t) ∧ CoreIs s t c ∧
      t.teams = s.teams.map (fun x => { x with nf := x.nf || (x.id == T.id && decide (w.fmt = 9#4 ∧
        ∃ r ∈ rowsOf w, ∃ n ∈ List.range ncol, ((c.row r).word (col + n)).st ≠ .fin)) }) ∧
      op.id = s.nextId ∧ op.objs = [spKey T.coreIx (T.base + bar)] ∧ op.view = cx.view ∧
      op.items.length = (rowsOf w).length * ncol ∧
      ∀ j n k, j < (rowsOf w).length → n < ncol → l[j * ncol + n]? = some (dst j n, .ok k) →
        op.items[j * ncol + n]? = some { addr := dst j n, dst := keysFrom k es, twin := [], add := w.x.getLsbD 14
                                         bytes := drainBytes w.fmt (c.row (Form.xf w 6 0 + j)) (col + n) }) ∧
  (∀ (s : State) (d : DrainOp) (k : Nat), s.drains.find? (fun x => x.id == d.id) = some d → d.items ≠ [] → d.objs = [k] →
    spBase ≤ k → Ordered s → (∀ r ∈ s.hist, d.view.sees .m r = true) → d.view.epoch = none →
    (∀ x ∈ d.items, x.twin = [] ∧ x.dst.length = x.bytes.length ∧ (x.dst.map (home s)).Nodup ∧ (x.add = true → x.bytes.length = 16) ∧
      (∀ y ∈ x.dst, home s y ∉ keysFrom k 16) ∧ ∀ f ∈ s.filters, f.place x.addr = none) →
    ∃ (t : State) (ix : Nat) (x : DrainItem), exec (.drainBytesLand d.id) s = .next t ∧ d.items[ix]? = some x ∧
      (x.dst.map fun y => memGet t.mem (home s y)) = (if x.add then
          toBytesLE 16 (ofBytesLE (x.dst.map fun y => memGet s.mem (home s y)) + ofBytesLE x.bytes) else x.bytes) ∧
      SameMemoryBut (x.dst.map (home s) ++ keysFrom k 16) s t ∧
      (let o := objAt s k
       let o' := { o with pendB := o.pendB - BitVec.ofNat 32 x.bytes.length }
       objAt t k = if o'.pendArr = 0 ∧ o'.pendB = 0#32 then
           { o' with phase := o'.phase + 1#32, pendArr := o'.expArr, pendB := o'.reload } else o') ∧
      (d.items.length = 1 → t.drains = s.drains.filter fun y => y.id != d.id) ∧
      (d.items.length ≠ 1 → t.drains = s.drains.map fun y => if y.id = d.id then
        { y with items := d.items.eraseIdx ix, begun := true } else y) ∧
      t.warp = s.warp ∧ t.others = s.others ∧ t.cores = s.cores ∧ t.teams = s.teams)

/-! ## Copies, masks and the filter -/

/-- The phase test at the end of every update (R217), after bytes landed. -/
def landedObj (o : BarObj) (n : Nat) : BarObj :=
  let o' := { o with pendB := o.pendB - BitVec.ofNat 32 n }
  if o'.pendArr = 0 ∧ o'.pendB = 0#32 then { o' with phase := o'.phase + 1#32, pendArr := o'.expArr, pendB := o'.reload } else o'

/-- R255, R256, R257: CP.TILE whose checks pass and whose tensor bytes can be placed holds one element for each box
position, dimension 0 fastest, densely at the tile: the tensor's element where it lies inside, on a load otherwise
the fill of EDGE, on a store nothing; all are counted; its follow-on reserves a slot or sets FD. CP.CMD stages its
record. COPY_BYTES_LAND moves the bytes, counts them and after the last places the follow-on; COPY_FABRIC_ERROR
counts none, sets CF and raises FABRIC. What the spec leaves open and the model settles in it: Copies: what CP.TILE
and CP.CMD do not check (log 32); How bytes of drains and copies land (log 77). -/
def Obligations.Copies : Prop :=
  (∀ (w : Strip) (f : LaneForm) (sp : Split) (s s1 s2 : State) (T : Team) (ks : List Nat) (r : Walk)
      (l : List (DWord × Except AccErr Nat)),
    LaneReady (.cpTile w) f w sp s → teamById s s.warp.team = some T → s.warp.epoch = none →
    let cx := cxOf s f w sp
    let store := w.x.getLsbD 0
    let follow := Form.xf w 14 1
    let a := (cx.srcA 1).word cx.lane0 ++ cx.a.word cx.lane0
    let c := (cx.c.word cx.lane0).toNat
    let tile := 16 * (c % 2 ^ 15)
    let bar := 16 * (c / 2 ^ 16 % 2 ^ 15)
    let nd := r.dims.length
    let crd := (List.range nd).map fun d => ((cx.coordReg d).word cx.lane0).toInt
    let positions := boxPositions r.counts
    let base := spKey s.warp.coreIx T.base
    cx.p ≠ 0#32 → coordDeaths cx = 0#32 → (follow = 0 ∨ T.slots.length < 2) → a.toNat % 16 = 0 →
    placeSpan s cx.view s.warp .read a 96 = (.ok ks, s1) →
    parseWalk (readBytes s1 cx.view .g cx.lane0 ks) = some r →
    cx.copyCheck (some r) nd crd tile bar = none →
    placeList cx.view s1.warp (if store then .write else .read) (positions.flatMap fun p =>
      match r.cell store crd p with | .mem va => cutsOf va r.size | _ => []) s1 = (l, s2) → (∀ p ∈ l, ∃ k, p.2 = .ok k) →
    ∃ t op, exec (.cpTile w) s = .next t ∧
      (let s3 := { s with tlb := t.tlb, copies := s.copies ++ [op], nextId := s.nextId + 1, teams := t.teams }
       LaneRetired cx (sp.pc + 12#64) s3 t ∧ LaneResults [] [] s3 t) ∧
      op.id = s.nextId ∧ op.engine = s.warp.slot % 2 ∧ op.core = s.warp.coreIx ∧ op.objs = [base + bar] ∧
      op.elems.length = positions.length ∧
      (∀ (n : Nat) (p : List Nat), positions[n]? = some p →
        let e := (r.dims.zip (crd.zip p)).map fun q => q.2.1 + (q.2.2 : Int) * (q.1.step : Int)
        let va (e : List Int) : DWord := r.base + BitVec.ofInt 64 ((r.dims.zip e).map fun q => q.2 * q.1.pitch).sum
        let inside := ∀ q ∈ r.dims.zip e, 0 ≤ q.2 ∧ q.2 < q.1.extent
        let here := keysFrom (base + tile + n * r.size) r.size
        -- the keys of an element in memory: those of its piece in each page
        let there (e : List Int) (keys : List Nat) : Prop := ∃ pages : List Nat,
          List.Forall₂ (fun c k => (c.1, Except.ok k) ∈ l) (cutsOf (va e) r.size) pages ∧
            keys = windowKeys (va e) r.size pages
        r.fmt ≠ 8 →
        (inside → ∃ keys, there e keys ∧ op.elems[n]? = some (if store then
            { src := .keys here, dst := keys, twin := [], size := r.size }
          else { src := .keys keys, dst := here, twin := [], size := r.size })) ∧
        (¬ inside → store = true → op.elems[n]? = some { src := .bytes [], dst := [], twin := [], size := r.size }) ∧
        (¬ inside → store = false → r.edge ≠ 1 → op.elems[n]? = some {
          src := .bytes (toBytesLE r.size (if r.edge = 2 then r.fill else 0)), dst := here, twin := [], size := r.size }) ∧
        (¬ inside → store = false → r.edge = 1 → ∃ keys,
          there ((r.dims.zip e).map fun q => max 0 (min q.2 ((q.1.extent : Int) - 1))) keys ∧
          op.elems[n]? = some { src := .keys keys, dst := here, twin := [], size := r.size })) ∧
      (follow = 0 → op.follow = none ∧ t.teams = s.teams) ∧
      (follow ≠ 0 → op.follow = parseCmd (readBytes s2 cx.view .g cx.lane0 (keysFrom (base + 32 * follow) 32)) s.warp.id cx.view op.id ∧
        t.teams = (teamWith s T fun x => match op.follow with
          | some o => { x with slots := x.slots ++ [o] } | none => { x with fd := true }).teams)) ∧
  (∀ (w : Strip) (f : LaneForm) (sp : Split) (s : State) (T : Team), EngineReady (.cpCmd w) f w sp s T → Ordered s →
    let cx := cxOf s f w sp
    let a := cx.a.word cx.lane0
    let b := cx.b.word cx.lane0
    let c := (cx.c.word cx.lane0).toNat
    let key := spKey s.warp.coreIx (T.base + c)
    (w.fmt = 4#4 ∨ w.fmt = 5#4 → a.toInt % 2 = 0 ∧ b.toInt % 2 = 0) →
    (∀ j, j ≤ Form.xf w 13 7 → 0 ≤ a.toInt + j * b.toInt ∧ a.toInt + j * b.toInt + colBytes w.fmt ≤ T.total) →
    c ≠ 0 → c % 32 = 0 → c + 32 ≤ T.total →
    ∃ t, exec (.cpCmd w) s = .next t ∧ LaneRetired cx (sp.pc + 12#64) (writtenFrom s t) t ∧
      LaneResults [] [] (writtenFrom s t) t ∧ SameMemoryBut (keysFrom key 32) s t ∧
      memNat t key 4 = a.toNat ∧ memNat t (key + 4) 4 = b.toNat ∧ memNat t (key + 8) 1 = Form.xf w 6 0 ∧
      memNat t (key + 9) 1 = Form.xf w 13 7 ∧ memNat t (key + 10) 1 = w.fmt.toNat ∧ memNat t (key + 11) 1 = 1 ∧
      memNat t (key + 12) 4 = (whereWord s.warp).toNat ∧ memNat t (key + 16) 16 = 0) ∧
  (∀ (s : State) (c : CopyOp) (start n k : Nat), s.copies.find? (fun x => x.id == c.id) = some c → copyFront s c = true →
    c.objs = [k] → spBase ≤ k → Ordered s → (∀ r ∈ s.hist, c.view.sees .c r = true) → c.view.epoch = none →
    let now := (c.elems.drop start).take n
    let left := c.elems.take start ++ (c.elems.drop start).drop n
    let dsts := now.flatMap fun x => x.dst.map (home s)
    dsts.Nodup → (∀ y ∈ dsts, y ∉ keysFrom k 16) → (∀ x ∈ now, x.twin = [] ∧ match x.src with
      | .keys ks => (x.dst = [] ∨ ks.length = x.dst.length) ∧ ∀ y ∈ ks, home s y ∉ dsts
      | .bytes b => x.dst = [] ∨ b.length = x.dst.length) →
    ∃ t, exec (.copyBytesLand c.id start n) s = .next t ∧ t.warp = s.warp ∧ t.others = s.others ∧ t.cores = s.cores ∧
      (∀ x ∈ now, x.dst ≠ [] → (x.dst.map fun y => memGet t.mem (home s y)) =
        match x.src with | .keys ks => ks.map fun y => memGet s.mem (home s y) | .bytes b => b) ∧
      SameMemoryBut (dsts ++ keysFrom k 16) s t ∧ objAt t k = landedObj (objAt s k) ((now.map (·.size)).sum) ∧
      (left ≠ [] → t.teams = s.teams ∧ t.copies = s.copies.map fun x => if x.id = c.id then { x with elems := left, begun := true } else x) ∧
      (left = [] → t.copies = s.copies.filter (fun x => x.id != c.id) ∧ (c.follow = none → t.teams = s.teams) ∧
        (∀ T o, c.follow.isSome = true → (warpById s c.warp).bind (·.rg) = none → teamById s c.team = some T →
          T.slots.find? (fun x => x.state == .reserved && x.follow == some c.id) = some o →
          t.teams = (teamWith s T fun x =>
            let kept := x.slots.filter fun y => !(y.state == .reserved && y.follow == some c.id)
            match x.slots.find? (fun y => y.state == .reserved && y.follow == some c.id) with
            | none => x
            | some o =>
              if pairs o.fmt x.activeFmt then { x with slots := kept ++
                  [{ o with state := if kept.any (fun y => y.state == .running) then .waiting else .running }] }
              else { x with slots := kept, fd := true }).teams))) ∧
  (∀ (s : State) (c : CopyOp) (start n : Nat) (W : Warp) (q : Split), s.copies.find? (fun x => x.id == c.id) = some c →
    copyFront s c = true → ((s.warp :: s.others).map (·.id)).Nodup → warpById s c.warp = some W → W.rg = none →
    issuerOf W c.split c.mask = some q →
    ∃ t W' b q', exec (.copyFabricError c.id start n) s = .next t ∧ SameMemory s t ∧ warpById t c.warp = some W' ∧
      W'.slot? b = some q' ∧ q'.id = q.id ∧ q'.pc = q.pc ∧ q'.mask = q.mask ∧
      q'.raised = q.raised ++ [{ code := Code.fabric, lanes := none, detail := 0#16, info := 0#64 }] ∧
      W'.regs = W.regs ∧ (∀ T, teamById s c.team = some T → ∃ T', teamById t c.team = some T' ∧ T'.cf = true) ∧
      ((∃ x ∈ W.splits, x.id = c.split) → q'.id = c.split))

/-- R303, R304, R305, R315, R316, R318: TMASK joins NINF into every word whose key position its row's vector does
not allow, or writes minus infinity in its lanes, and changes nothing else; SAMP.ARM arms a context where it finds
its descriptor in order, its window apart from every armed one and a context free, and answers 2, 3 or 1 otherwise;
FILTER_ROW_RECORD writes the record of a complete row and counts its bytes. That status 2 is decided before the
windows are translated, and statuses 3 and 1 after, is the model's choice (log 16). What the spec leaves open and
the model settles in it: SAMP.ARM: which windows and results are refused (log 30); Filter elements whose bytes are
consumed twice, or in parts; when a drain is consumed (log 31); TMASK positions wrap modulo 2^32 (log 34). -/
def Obligations.MasksAndFilter : Prop :=
  (∀ (w : Strip) (f : LaneForm) (sp : Split) (s : State) (T : Team), EngineReady (.tmaskAcc w) f w sp s T → T.slots = [] →
    let cx := cxOf s f w sp
    let c := coreOf s s.warp.coreIx
    let L := (cx.b.word cx.lane0).toNat
    let k0 := (cx.c.word cx.lane0).toNat
    (∀ r ∈ rowsOf w, RowMine s r) →
    ∃ t c', exec (.tmaskAcc w) s = .next t ∧ LaneRetired cx (sp.pc + 12#64) s t ∧ LaneResults [] [] s t ∧ CoreIs s t c' ∧
      c' = { c with rows := c'.rows } ∧ (∀ r, r ∉ rowsOf w → c'.row r = c.row r) ∧
      ∀ j, j ≤ Form.xf w 13 7 →
        let r := Form.xf w 6 0 + j
        let v := cx.laneRead w.a (cx.srcA 1) j ++ cx.laneRead w.a cx.a j
        (c'.row r).owner = (c.row r).owner ∧ (c'.row r).anchor = (c.row r).anchor ∧
        ∀ n, n < (c.row r).words.length →
          let p := (k0 + n) % 2 ^ 32
          let x := (c.row r).word n
          (p < L ∨ L ≤ p ∧ p < L + 64 ∧ v.getLsbD (p - L) = true → (c'.row r).word n = x) ∧
          (¬ (p < L ∨ L ≤ p ∧ p < L + 64 ∧ v.getLsbD (p - L) = true) →
            (c'.row r).word n = { w := x.w, st := x.st.join .ninf })) ∧
  (∀ (w : Strip) (f : LaneForm) (sp : Split) (s : State), LaneRuns (.tmaskReg w) f w sp s →
    let cx := cxOf s f w sp
    ∃ t g, exec (.tmaskReg w) s = .next t ∧ LaneRetired cx (sp.pc + 12#64) s t ∧ LaneResult cx 3#4 g s t ∧
      ∀ k, Takes cx k →
        let v := (cx.srcA 1).word k ++ cx.a.word k
        let L := (cx.b.word k).toNat
        let p := (cx.c.word k).toNat
        (p < L ∨ L ≤ p ∧ p < L + 64 ∧ v.getLsbD (p - L) = true → g k = (s.warp.reg w.d.toNat).val.word k) ∧
        (¬ (p < L ∨ L ≤ p ∧ p < L + 64 ∧ v.getLsbD (p - L) = true) → g k = 0xFF800000#32)) ∧
  (∀ (w : Strip) (f : LaneForm) (sp : Split) (s s1 s2 s3 : State) (T : Team) (ks : List Nat)
      (win res : List (DWord × Except AccErr Nat)), EngineReady (.sampArm w) f w sp s T → s.warp.epoch = none →
    let cx := cxOf s f w sp
    let a := (cx.srcA 1).word cx.lane0 ++ cx.a.word cx.lane0
    let off := (cx.b.word cx.lane0).toInt
    let desc := parseFilter (readBytes s1 cx.view .g cx.lane0 ks)
    -- the contexts afterwards, but for the model's marks of who knows of them
    let done (status : Nat) (g : List FilterCtx → Prop) : Prop := ∃ t, exec (.sampArm w) s = .next t ∧
      (let s4 := { readFrom s t with filters := t.filters, nextId := t.nextId }
       LaneRetired cx (sp.pc + 12#64) s4 t ∧ LanePromised [{
         n := cx.d, mask := cx.p, tag := 2#4, word := fun _ => BitVec.ofNat 32 status }] [] s4 t) ∧ g (bareFilters t)
    a.toNat % 16 = 0 → off % 16 = 0 → 0 ≤ off → off + 16 ≤ T.total →
    placeSpan s cx.view s.warp .read a 64 = (.ok ks, s1) →
    (desc = none → done 2 fun l => l = bareFilters s) ∧
    (∀ d, desc = some d →
      let d := { d with ctx := s.warp.ctx }
      placeList cx.view s.warp .write (cutsOf d.wbase d.span) (cx.loadKeys s1 ks).2 = (win, s2) →
      placeList cx.view s.warp .write (cutsOf d.res (d.rows * recordBytes d.k)) s2 = (res, s3) →
      (∀ p ∈ win, ∃ k, p.2 = .ok k ∧ (k / 2 ^ 39 = s.chip ∨ spBase ≤ k)) → (∀ p ∈ res, ∃ k, p.2 = .ok k) →
      ((∃ x ∈ s.filters, x.overlaps d = true) → done 3 fun l => l = bareFilters s) ∧
      ((∀ x ∈ s.filters, x.overlaps d = false) → 16 ≤ s.filters.length → done 1 fun l => l = bareFilters s) ∧
      ((∀ x ∈ s.filters, x.overlaps d = false) → s.filters.length < 16 → done 0 fun l =>
        ∃ pages, l = bareFilters s ++ [{ d with
          id := s.nextId, grid := s.warp.grid, objs := [spKey T.coreIx (T.base + off.toNat)], resPages := pages
          armer := 2 * s.warp.id, split := sp.id, reg := cx.d, read := false, pub := none, epoch := none }]))) ∧
  (∀ (s : State) (d : FilterCtx) (r k : Nat), s.filters.find? (fun x => x.id == d.id) = some d → filterSaved s d.id = false →
    (d.row r).done = false → d.rlen * (if d.efmt = 3#4 then 4 else 2) ≤ (d.row r).bytes.length → d.objs = [k] → spBase ≤ k →
    Ordered s →
    let n := (32 + 8 * d.k + 15) / 16 * 16
    let keys := (List.range n).map fun j => d.resKey (r * n + j)
    (keys.map (home s)).Nodup → (∀ y ∈ keys, home s y ∉ keysFrom k 16) →
    (∀ x ∈ s.hist, x.key ∉ keys.map (home s)) → d.epoch.filter (epochOpen s) = none →
    ∃ t, exec (.filterRowRecord d.id r) s = .next t ∧ t.warp = s.warp ∧
      (keys.map fun y => memGet t.mem (home s y)) = d.record (d.row r) ∧
      SameMemoryBut (keys.map (home s) ++ keysFrom k 16) s t ∧ objAt t k = landedObj (objAt s k) n ∧
      ∀ d' ∈ t.filters, d'.id = d.id → (d'.row r).done = true)

/-! ## Salvage and epochs -/

/-- A word of the register items of a name: byte 0x01, register, tag, shape code, the words of M's lanes, 0 outside M,
and the metadata of a BX4 register (R264). -/
def itemOf (w : Warp) (m : LaneMask) (n : Nat) : List Byte :=
  let r := w.reg n
  [0x01#8, BitVec.ofNat 8 n, r.tag.setWidth 8, match r.val with | .u _ => 0#8 | .a _ _ => 1#8 | .g _ => 2#8] ++
    (laneIds.flatMap fun i => toBytesLE 4 (if m.has i then (r.val.word i).toNat else 0)) ++
    (if r.tag = 8#4 then (List.range 8).flatMap fun b => [(r.side.getD b sideZero).1, (r.side.getD b sideZero).2] else [])

/-- R261 to R264, R267 to R270, R273, R274: FRAG.OPEN in its region starts the sponge with separator, salt, RID,
digest and mask; FRAG.IN and FRAG.INM append their items, in absorption order; FRAG.OUT declares; FRAG.NAME writes
the first 128 bits of SHAKE256 over the sponge; FRAG.DROP frees the reservation; with no open fragment they act as
R267 says, and FRAG.OPEN without a domain, in a second fragment or outside its region traps ILLEGAL. What the spec
leaves open and the model settles in it: IMPURE is checked on every fetched word of an open fragment, also when no
lane takes part (log 15); Order of checks within one word where R87 leaves a point open (log 16). -/
def Obligations.Fragments : Prop :=
  (∀ (w : Strip) (f : LaneForm) (sp : Split) (s : State), LaneReady (.fragOpen w) f w sp s → s.warp.splits.length = 1 →
    (∀ dn d r, warpDomain s s.warp = some (dn, d) → s.warp.frag = none → fragRegion s s.warp w.imm16 = some r →
      r.lstart.toNat ≤ sp.pc.toNat → sp.pc.toNat < r.lend.toNat → (cxOf s f w sp).p ≠ 0#32 →
      ∃ t, exec (.fragOpen w) s = .next t ∧ LaneRetired (cxOf s f w sp) (sp.pc + 12#64) s t ∧ LaneResults [] [] s t ∧
        t.warp.frag = some {
          rid := w.imm16, dom := dn, gen := d.gen, mask := sp.mask
          sponge := ("K4-FRAG-NAME".toList.map fun c => BitVec.ofNat 8 c.toNat) ++ d.salt ++ toBytesLE 2 w.imm16.toNat ++
            r.digest ++ toBytesLE 4 sp.mask.toNat
          regsIn := 0, window := none, claimed := false, settled := false, reservation := none, outs := [], outWin := none
          written := [], cleanR := [], cleanP := [], poisoned := false }) ∧
    (warpDomain s s.warp = none ∨ s.warp.frag.isSome = true ∨ fragRegion s s.warp w.imm16 = none ∨
        (∃ r, fragRegion s s.warp w.imm16 = some r ∧ (sp.pc.toNat < r.lstart.toNat ∨ r.lend.toNat ≤ sp.pc.toNat)) →
      exec (.fragOpen w) s = .next (takeTrap s (wholeTrap Code.illegal sp.mask)))) ∧
  (∀ (i : Instr) (w : Strip) (f : LaneForm) (sp : Split) (s s1 : State) (fr : Frag) (l : List (DWord × Except AccErr Nat)),
    LaneReady i f w sp s → s.warp.splits.length = 1 → s.warp.frag = some fr →
    let cx := cxOf s f w sp
    let named := ([w.a.code.toNat, w.b.code.toNat, w.c.code.toNat, w.d.toNat]).take (Form.xf w 1 0 + 1)
    let base := (cx.srcA 1).word cx.lane0 ++ cx.a.word cx.lane0
    let len := (cx.b.word cx.lane0).toNat
    let done (s1 : State → State) (g : Frag → Prop) : Prop := ∃ t, exec i s = .next t ∧
      LaneRetired cx (sp.pc + 12#64) (s1 t) t ∧ LaneResults [] [] (s1 t) t ∧ ∃ g', t.warp.frag = some g' ∧ g g'
    cx.p ≠ 0#32 →
    (i = .fragIn w → fr.claimed = false → fr.regsIn + named.length ≤ 64 →
      done (fun _ => s) fun g => g = { fr with sponge := g.sponge, regsIn := g.regsIn, cleanR := g.cleanR, poisoned := g.poisoned } ∧
        g.sponge = fr.sponge ++ named.flatMap (itemOf s.warp fr.mask) ∧ g.regsIn = fr.regsIn + named.length ∧
        (∀ n, n ∈ g.cleanR ↔ n ∈ fr.cleanR ∨ n ∈ named) ∧
        (g.poisoned = true ↔ fr.poisoned = true ∨ ∃ n ∈ named, (s.warp.reg n).poison &&& fr.mask ≠ 0#32)) ∧
    (i = .fragInm w → base.toNat % 4 = 0 → len % 4 = 0 → len ≠ 0 → len ≤ 2 ^ 20 → fr.window = none → fr.claimed = false →
      base.toNat + len ≤ 2 ^ 56 →
      (∀ r, reqById s s.warp.req = some r → ∀ x ∈ r.windows, base.toNat + len ≤ x.1.toNat ∨ x.1.toNat + x.2 ≤ base.toNat) →
      lowDeaths cx = 0#32 → s.warp.epoch = none → Ordered s →
      placeList cx.view s.warp .read (cutsOf base len) s = (l, s1) → (∀ p ∈ l, ∃ k, p.2 = .ok k) →
      let keys := windowKeys base len (keysOf l)
      done (readFrom s) fun g =>
        g = { fr with sponge := g.sponge, window := some (base, len, s.serial, keysOf l), poisoned := g.poisoned } ∧
        g.sponge = fr.sponge ++ [0x02#8] ++ toBytesLE 4 keys.length ++ (keys.map fun k => memGet s.mem (home s k)) ∧
        (g.poisoned = true ↔ fr.poisoned = true ∨ ∃ k ∈ keys, s.poison.contains (home s k / 4) = true)) ∧
    (i = .fragOut w → (fr.outs ++ named).eraseDups.length ≤ 64 →
      done (fun _ => s) fun g => g = { fr with outs := g.outs } ∧ ∀ n, n ∈ g.outs ↔ n ∈ fr.outs ∨ n ∈ named) ∧
    (i = .fragOutWin w → base.toNat % 4 = 0 → len % 4 = 0 → 4 ≤ len → len ≤ 65536 → fr.outWin = none → lowDeaths cx = 0#32 →
      done (fun _ => s) fun g => g = { fr with outWin := some (base, len), written := [] }) ∧
    (i = .fragDrop w → ∃ t, exec i s = .next t ∧
      LaneRetired cx (sp.pc + 12#64) { s with domains := t.domains } t ∧ LaneResults [] [] { s with domains := t.domains } t ∧
      t.warp.frag = none ∧ (fr.reservation = none → t.domains = s.domains) ∧
      ∀ name d e, fr.reservation = some name → Tab.find? s.domains fr.dom = some d → d.entry name = some e →
        e.state = .open_ → e.owner = some s.warp.id →
        ∃ d', Tab.find? t.domains fr.dom = some d' ∧ d'.entry name = none ∧ ∀ x, x ≠ name → d'.entry x = d.entry x)) ∧
  (∀ (w : Strip) (f : LaneForm) (sp : Split) (s : State), LaneReady (.fragName w) f w sp s → (cxOf s f w sp).p ≠ 0#32 →
    let cx := cxOf s f w sp
    let name : List Byte := match s.warp.frag with | some fr => shake256 16 fr.sponge | none => []
    ∃ t, exec (.fragName w) s = .next t ∧ LaneRetired cx (sp.pc + 12#64) s t ∧
      LaneResults ((List.range 4).map fun k => {
        n := cx.d + k, mask := cx.p, tag := 0#4
        word := fun _ => BitVec.ofNat 32 (ofBytesLE ((name.drop (4 * k)).take 4)) }) [] s t) ∧
  (∀ (i : Instr) (w : Strip) (f : LaneForm) (sp : Split) (s : State),
    i = .fragIn w ∨ i = .fragInm w ∨ i = .fragOut w ∨ i = .fragOutWin w ∨ i = .fragDrop w → LaneReady i f w sp s →
    s.warp.splits.length = 1 → s.warp.frag = none → lowDeaths (cxOf s f w sp) = 0#32 →
    ∃ t, exec i s = .next t ∧ LaneRetired (cxOf s f w sp) (sp.pc + 12#64) s t ∧ LaneResults [] [] s t)

/-- R271, R272, R273: FRAG.CLAIM looks the name up in the fragment's domain: MISS and UNSEALED take the entry, BUSY
and FULL hold nothing, LOST closes the fragment, a HIT closes it, promises the stored registers in the lanes of M
and holds the split for the branch; FRAG.SEAL stores registers and window under the name, or refuses by the first
reason that applies and frees the entry; either way the fragment closes. What the spec leaves open and the model
settles in it: Order of checks within one word where R87 leaves a point open (log 16); Bytes a sealed entry takes in
the cistern: 128 a register, and the window (log 21); A poisoned absorbed or output window counts as POISON at the
seal (log 36). -/
def Obligations.ClaimsAndSeals : Prop :=
  (∀ (w : Strip) (f : LaneForm) (sp : Split) (s : State) (fr : Frag), LaneReady (.fragClaim w) f w sp s →
    s.warp.splits.length = 1 → s.warp.frag = some fr → fr.settled = false → lowDeaths (cxOf s f w sp) = 0#32 →
    let cx := cxOf s f w sp
    cx.p ≠ 0#32 →
    let name := fragName fr.sponge
    let held (status : Nat) (extra : List Wrote) (branch : Option DWord) (g : Option Frag) (doms : State → Prop) : Prop :=
      ∃ t q p, exec (.fragClaim w) s = .next t ∧ t.split? = some q ∧ q.wait = .claim ∧ q.pc = sp.pc + 12#64 ∧ q.mask = sp.mask ∧
        (∀ n, SameReg s t n) ∧ t.warp.preds = s.warp.preds ∧ t.warp.pending = (s.warp.promise p).pending ∧ p.branch = branch ∧
        p.holds = some s.slotB ∧ (List.Forall₂ Wrote.of ((extra ++ [({ n := cx.d, mask := cx.p, tag := 2#4, word := fun _ => BitVec.ofNat 32 status } : Wrote)]).filter
          fun x => decide (x.n < 248)) (p.regs.map fun x => { x with side := [], poison := 0#32 })) ∧
        (∀ h, g = some h → ∃ h', t.warp.frag = some h' ∧ h' = { h with cleanR := h'.cleanR, cleanP := h'.cleanP }) ∧
        (g = none → t.warp.frag = none) ∧ doms t ∧ SameMemory s t ∧
        t = { s with
          warp := { s.warp with
            slotA := t.warp.slotA, slotB := t.warp.slotB, regs := t.warp.regs, bq := t.warp.bq, pending := t.warp.pending
            frag := t.warp.frag, retired := s.warp.retired + 1, watch := s.cycle, parked := t.warp.parked }
          cores := t.cores, domains := t.domains, filters := t.filters } ∧ bareFilters t = bareFilters s
    (fragDomain s fr = none → held 5 [] none none fun t => t.domains = s.domains) ∧
    (∀ d, fragDomain s fr = some d →
      let takes (n : Nat) : Prop := held n [] none (some { fr with claimed := true, settled := true, reservation := some name })
        fun t => ∃ d', Tab.find? t.domains fr.dom = some d' ∧ (∃ e, d'.entry name = some e ∧ e.state = .open_ ∧
          e.owner = some s.warp.id) ∧ ∀ x, x ≠ name → d'.entry x = d.entry x
      let none_ (n : Nat) : Prop := held n [] none (some { fr with claimed := true }) fun t => t.domains = s.domains
      (d.entry name = none → d.entries.length < d.size → takes 0) ∧
      (d.entry name = none → d.size ≤ d.entries.length → none_ 4) ∧
      (∀ e, d.entry name = some e → e.state = .open_ → none_ 2) ∧
      (∀ e, d.entry name = some e → e.state = .orphan → takes 3) ∧
      (∀ e, d.entry name = some e → e.state = .complete → (∀ r ∈ e.regs, inAlloc s.warp.units r.n = true ∧ r.n < 248) →
        w.x.getLsbD 0 = false ∨ e.window = [] →
        held 1 (e.regs.map fun r => { n := r.n, mask := fr.mask &&& s.warp.alive, tag := r.reg.tag, word := r.reg.val.word })
          (some (branchTarget sp w.disp57)) none fun t => t.domains = s.domains) ∧
      (∀ e l s1, d.entry name = some e → e.state = .complete → (∀ r ∈ e.regs, inAlloc s.warp.units r.n = true) →
        w.x.getLsbD 0 = true → e.window ≠ [] → s.warp.epoch = none → Ordered s →
        let a := (cx.srcA 1).word cx.lane0 ++ cx.a.word cx.lane0
        placeList cx.view s.warp .write (cutsOf a e.window.length) s = (l, s1) → (∀ p ∈ l, ∃ k, p.2 = .ok k) →
        let keys := windowKeys a e.window.length (keysOf l)
        (keys.map (home s)).Nodup → keys.length = e.window.length →
        ∃ t q p, exec (.fragClaim w) s = .next t ∧ t.split? = some q ∧ q.wait = .claim ∧ t.warp.frag = none ∧
          (keys.map fun k => memGet t.mem (home s k)) = e.window ∧ SameMemoryBut (keys.map (home s)) s t ∧
          (∀ n, SameReg s t n) ∧ t.warp.pending = (s.warp.promise p).pending ∧ p.branch = some (branchTarget sp w.disp57)) ∧
      (∀ e, d.entry name = some e → e.state = .complete → (∃ r ∈ e.regs, inAlloc s.warp.units r.n = false) →
        exec (.fragClaim w) s = .next (takeTrap s (wholeTrap Code.budget cx.p))))) ∧
  (∀ (w : Strip) (f : LaneForm) (sp : Split) (s : State) (fr : Frag), LaneReady (.fragSeal w) f w sp s →
    s.warp.splits.length = 1 → s.warp.frag = some fr →
    let cx := cxOf s f w sp
    cx.p ≠ 0#32 →
    let done (status : Nat) (s1 : State → State) (doms : State → Prop) : Prop :=
      ∃ t, exec (.fragSeal w) s = .next t ∧ LaneRetired cx (sp.pc + 12#64) (s1 t) t ∧ t.warp.frag = none ∧
        LanePromised [{ n := cx.d, mask := cx.p, tag := 2#4, word := fun _ => BitVec.ofNat 32 status }] [] (s1 t) t ∧ doms t
    (fr.reservation = none → done 1 (fun _ => s) fun _ => True) ∧
    (∀ name, fr.reservation = some name →
      (∀ n ∈ fr.outs, ∀ p ∈ s.warp.pending, ∀ x ∈ p.regs, x.n ≠ n) →
      (sp.ts = none → (∃ n ∈ fr.outs, n ∉ fr.cleanR) →
        exec (.fragSeal w) s = .next (takeTrap s (wholeTrap Code.impure sp.mask))) ∧
      (sp.ts.isSome = true ∨ (∀ n ∈ fr.outs, n ∈ fr.cleanR) →
        (fragDomain s fr = none → done 7 (fun _ => s) fun _ => True) ∧
        (∀ d, fragDomain s fr = some d → (∀ e, d.entry name = some e → e.state ≠ .open_ ∨ e.owner ≠ some s.warp.id) →
          done 7 (fun _ => s) fun _ => True) ∧
        (∀ d e bytes bad s1, fragDomain s fr = some d → d.entry name = some e → e.state = .open_ → e.owner = some s.warp.id →
          (fr.outWin = none ∧ bytes = [] ∧ bad = false ∧ s1 = s) ∨
            (∃ b n l, fr.outWin = some (b, n) ∧
              placeList cx.view s.warp .read (cutsOf b n) s = (l, s1) ∧ (∀ p ∈ l, ∃ k, p.2 = .ok k) ∧
              bytes = readBytes s1 cx.view .g cx.lane0 (windowKeys b n (keysOf l)) ∧
              bad = anyPoisoned s1 (windowKeys b n (keysOf l))) →
          let regs := fr.outs.map fun n => { n := n, reg := s.warp.reg n : StoredReg }
          let poison := fr.poisoned = true ∨ bad = true ∨ ∃ n ∈ fr.outs, (s.warp.reg n).poison &&& fr.mask ≠ 0#32
          let lanes := fr.mask &&& ~~~s.warp.alive ≠ 0#32
          let stored := fragWindowStored s fr = true
          let partial_ := ∃ b n, fr.outWin = some (b, n) ∧ fr.written.length < n
          let full := d.cistern < d.used + sealBytes regs bytes
          let refused (n : Nat) : Prop := done n (fun t => { s with tlb := t.tlb, domains := t.domains }) fun t =>
            ∃ d', Tab.find? t.domains fr.dom = some d' ∧ d'.entry name = none ∧ ∀ x, x ≠ name → d'.entry x = d.entry x
          (poison → refused 2) ∧ (¬ poison → lanes → refused 3) ∧ (¬ poison → ¬ lanes → stored → refused 4) ∧
          (¬ poison → ¬ lanes → ¬ stored → partial_ → refused 5) ∧
          (¬ poison → ¬ lanes → ¬ stored → ¬ partial_ → full → refused 6) ∧
          (¬ poison → ¬ lanes → ¬ stored → ¬ partial_ → ¬ full →
            done 0 (fun t => { s with tlb := t.tlb, domains := t.domains, grids := t.grids }) fun t =>
              ∃ d', Tab.find? t.domains fr.dom = some d' ∧ d'.used = d.used + sealBytes regs bytes ∧
                d'.entry name = some { name := name, state := .complete, owner := none, regs := regs, window := bytes } ∧
                ∀ x, x ≠ name → d'.entry x = d.entry x)))))

/-- R275, R279, R280: SPEC.OPEN waits until the warp's epoch stores are performed, then joins or opens an epoch or
answers 1, 2 or 3; SPEC.COMMIT asks for the commit and its status waits for the epoch's fate; SPEC.SQUASH discards
the stores of the epoch and of the younger ones and cancels their members; SPEC.STAT reports; the commit point makes
an epoch's stores committed data, each byte its youngest store; a cancelled warp ends with status 3. What the spec
leaves open and the model settles in it: SPEC.OPEN of a number above 65,535 answers status 2 (log 37); Committed
epoch stores to a cluster window land in the copies of both roles; other windows in the own copy (log 52). -/
def Obligations.Epochs : Prop :=
  (∀ (i : Instr) (w : Strip) (f : LaneForm) (sp : Split) (s : State) (r : Request),
    i = .specOpen w ∨ i = .specCommit w ∨ i = .specSquash w ∨ i = .specStat w → LaneReady i f w sp s →
    (cxOf s f w sp).p ≠ 0#32 → lowDeaths (cxOf s f w sp) = 0#32 → reqById s s.warp.req = some r → r.id = s.warp.req →
    let cx := cxOf s f w sp
    let a := (cx.a.word cx.lane0).toNat
    let st := r.stateOf a
    let opened := (r.epochs.filter fun e => e.state == 1#3).length
    let answer (n : Nat) (s1 : State) : Prop := ∃ t, exec i s = .next t ∧ LaneRetired cx (sp.pc + 12#64) s1 t ∧
      LanePromised [{ n := cx.d, mask := cx.p, tag := 2#4, word := fun _ => BitVec.ofNat 32 n }] [] s1 t
    let joined (s1 : State) (e : Option Nat) : State := { s1 with warp := { s1.warp with epoch := e } }
    let chain (g : List EpochRec → List EpochRec) : State :=
      { s with requests := s.requests.map fun x => if x.id = r.id then { x with epochs := g x.epochs } else x }
    (i = .specOpen w → storesDone s s.warp.id = false → exec i s = .next s) ∧
    (i = .specOpen w → storesDone s s.warp.id = true →
      (a = 0 → answer 0 (joined s none)) ∧ (a ≠ 0 → st = 1#3 → answer 0 (joined s (some a))) ∧
      (a ≠ 0 → st = 2#3 ∨ st = 3#3 → answer 3 s) ∧
      (a ≠ 0 → st = 0#3 → (∃ e ∈ r.epochs, a ≤ e.num) ∨ 65535 < a → answer 2 s) ∧
      (a ≠ 0 → st = 0#3 → (∀ e ∈ r.epochs, e.num < a) → a ≤ 65535 → 16 ≤ opened → answer 1 s) ∧
      (a ≠ 0 → st = 0#3 → (∀ e ∈ r.epochs, e.num < a) → a ≤ 65535 → opened < 16 →
        answer 0 (joined (chain fun l => l ++ [{ num := a, state := 1#3, asked := false }]) (some a)))) ∧
    (i = .specCommit w →
      (st = 0#3 → answer 2 s) ∧ (st = 2#3 → answer 0 s) ∧ (st = 3#3 → answer 1 s) ∧
      (st = 1#3 → ∃ t p, exec i s = .next t ∧
        (let s1 := chain fun l => l.map fun e => if e.num = a then { e with asked := true } else e
         LaneRetired cx (sp.pc + 12#64) s1 t) ∧
        t.warp.pending = (s.warp.promise p).pending ∧ p.epoch = some (r.id, a) ∧ (∀ n, SameReg s t n))) ∧
    (i = .specSquash w →
      (st = 0#3 → answer 2 s) ∧ (st = 2#3 → answer 1 s) ∧ (st = 3#3 → answer 0 s) ∧
      (st = 1#3 → answer 0 (let s1 := chain fun l => l.map fun e =>
          if a ≤ e.num ∧ e.state = 1#3 then { e with state := 3#3 } else e
        { s1 with
          versions := s.versions.filter fun x => !(x.req == r.id && decide (a ≤ x.epoch))
          drains := s.drains.map (·.discard r.id a), copies := s.copies.map (·.discard r.id a)
          warp := cancelFrom r.id a s.warp, others := s.others.map (cancelFrom r.id a)
          saved := s.saved.map fun c => { c with warps := c.warps.map (cancelFrom r.id a) } }))) ∧
    (i = .specStat w → answer (st.toNat + (if s.warp.epoch = some a then 8 else 0) + 16 * opened) s)) ∧
  (∀ (s : State) (r : Request) (e : EpochRec), reqById s r.id = some r → r.epoch e.num = some e → e.asked = true →
    e.state = 1#3 → (∀ x ∈ allWarps s ++ s.saved.flatMap (·.warps), x.req = r.id → x.ended = none → x.epoch ≠ some e.num) →
    (∀ d ∈ s.drains, d.view.epoch ≠ some (r.id, e.num)) → (∀ c ∈ s.copies, c.view.epoch ≠ some (r.id, e.num)) →
    (∀ x ∈ r.epochs, x.num < e.num → x.state = 2#3) → Ordered s →
    ∃ t, exec (.epochCommitPoint r.id e.num) s = .next t ∧ t.warp = s.warp ∧ t.others = s.others ∧
      (∃ r', reqById t r.id = some r' ∧ r'.stateOf e.num = 2#3) ∧
      (∀ x ∈ t.versions, x.req = r.id → x.epoch ≠ e.num) ∧
      (∀ k, (∀ x ∈ s.versions, x.req = r.id → x.epoch = e.num → home s x.record.key ≠ k) → memGet t.mem k = memGet s.mem k) ∧
      (∀ k x, (s.versions.filter fun x => x.req == r.id && x.epoch == e.num && home s x.record.key == k).head? = some x →
        memGet t.mem k = x.byte)) ∧
  (∀ (s : State), s.warp.cancelled = true → s.warp.ended = none →
    ∃ t, exec .warpCancel s = .next t ∧ t.warp.ended = some (3#8, 0#8) ∧ t.warp.frag = none ∧ t.warp.slotA = none ∧
      t.warp.slotB = none ∧ (s.mapped = [] → SameMemory s t))

/-! ## Draft rows, queues and ladders -/

/-- What the bytes at these keys hold. -/
def bytesAt (s : State) (ks : List Nat) : List Byte := ks.map fun k => memGet s.mem (home s k)

/-- An instruction stops its word with a trap of this code that names the lanes of P (R86, R227). -/
def TrapsAll (i : Instr) (s : State) (code : BitVec 8) (p : LaneMask) : Prop :=
  ∃ tr, exec i s = .next (takeTrap s tr) ∧ tr.code = code ∧ tr.lanes = p ∧ tr.replay = 0#32

/-- R309, R311: KV.STAGE writes the lanes of P of C and the registers above it at the chunk of the slot's row, then the
slot's TOKEN and STATE 1, and nothing else; a sequence or slot out of range, an invalid descriptor or a chunk past the
row traps PROT, naming all of P; the descriptor of a member outside its windows traps EPOCHWIN. -/
def Clause.StagedRows : Prop :=
  ∀ (w : Strip) (f : LaneForm) (sp : Split) (s : State) (c : Context), LaneReady (.kvStage w) f w sp s →
    let cx := cxOf s f w sp
    cx.p ≠ 0#32 → stageDeaths cx = 0#32 → Tab.find? s.contexts s.warp.ctx = some c →
    let seq := (cx.a.word cx.lane0).toNat
    let slot := (cx.b.word cx.lane0).toNat
    let n := Form.xf w 2 0 + 1
    let o := 128 * Form.xf w 14 3
    let da := c.seqbase + BitVec.ofNat 64 (64 * seq)
    (c.nseq ≤ seq → TrapsAll (.kvStage w) s Code.prot cx.p) ∧
    (seq < c.nseq → epochOutside s s.warp da 64 = true → TrapsAll (.kvStage w) s Code.epochwin cx.p) ∧
    (∀ dks s1, seq < c.nseq → s.warp.epoch = none → placeSpan s cx.view s.warp .read da 64 = (.ok dks, s1) →
      let d := parseSeq (readBytes s1 cx.view .g cx.lane0 dks)
      let hdr := d.stg + BitVec.ofNat 64 (slot * (d.rowb + 128))
      let va := hdr + 128#64 + BitVec.ofNat 64 o
      (d.valid = false ∨ d.nslot ≤ slot ∨ d.rowb < o + 128 * n → TrapsAll (.kvStage w) s Code.prot cx.p) ∧
      (∀ row head s2, d.valid = true → slot < d.nslot → o + 128 * n ≤ d.rowb → Ordered s →
        cx.placeRanges .write [(va, 128 * n), (hdr, 5)] (cx.loadKeys s1 dks).2 = (.ok [row, head], s2) →
        row.length = 128 * n → head.length = 5 → ((row ++ head).map (home s)).Nodup →
        let mine (j i : Nat) : List Nat := (row.drop (128 * j + 4 * i)).take 4
        ∃ t, exec (.kvStage w) s = .next t ∧ LaneRetired cx (sp.pc + 12#64) (writtenFrom s t) t ∧
          LaneResults [] [] (writtenFrom s t) t ∧
          SameMemoryBut ((((List.range n).flatMap fun j => (LaneMask.lanes cx.p).flatMap (mine j)) ++ head).map (home s)) s t ∧
          (∀ j i, j < n → i < 32 → cx.p.has i = true → bytesAt t (mine j i) = toBytesLE 4 ((cx.srcC j).word i).toNat) ∧
          bytesAt t (head.take 4) = toBytesLE 4 ((cx.srcD 0).word cx.lane0).toNat ∧ bytesAt t (head.drop 4) = [1#8]))

/-- R312: of a run of `len` drafts the first n are accepted and it stops for `why`: at its end, after a stop token, at
the limit, or before a slot that is not staged. -/
def RunAccepts (staged stops : Nat → Prop) (len limit n why : Nat) : Prop :=
  let goes (j : Nat) : Prop := j = 0 ∨ (¬ stops (j - 1) ∧ j ≠ limit)
  n ≤ len ∧ (∀ j, j < n → staged j ∧ goes j) ∧
    ((why = 0 ∧ n = len ∧ goes n) ∨ (why = 1 ∧ 0 < n ∧ stops (n - 1)) ∨ (why = 2 ∧ 0 < n ∧ ¬ stops (n - 1) ∧ n = limit) ∨
      (why = 3 ∧ n < len ∧ goes n ∧ ¬ staged n))

/-- R312: KV.COMMIT of a run too long changes nothing and promises status 4 × 256; else it accepts drafts until the run
stops, copies their rows to the addresses of positions LEN onward, adds their number to LEN, empties every slot's STATE,
writes nothing else, and promises the number with the reason × 256. Every row is read before one is written. -/
def Clause.CommittedRows : Prop :=
  ∀ (w : Strip) (f : LaneForm) (sp : Split) (s s1 : State) (c : Context) (dks : List Nat),
    LaneReady (.kvCommit w) f w sp s →
    let cx := cxOf s f w sp
    cx.p ≠ 0#32 → commitDeaths cx = 0#32 → Tab.find? s.contexts s.warp.ctx = some c →
    let seq := (cx.a.word cx.lane0).toNat
    let b := (cx.b.word cx.lane0).toNat
    let len := b % 256
    let da := c.seqbase + BitVec.ofNat 64 (64 * seq)
    let status (n : Nat) : List Wrote := [{ n := cx.d, mask := cx.p, tag := 2#4, word := fun _ => BitVec.ofNat 32 n }]
    (c.nseq ≤ seq → TrapsAll (.kvCommit w) s Code.prot cx.p) ∧
    (seq < c.nseq → epochOutside s s.warp da 64 = true → TrapsAll (.kvCommit w) s Code.epochwin cx.p) ∧
    (seq < c.nseq → s.warp.epoch = none → placeSpan s cx.view s.warp .read da 64 = (.ok dks, s1) →
      let d := parseSeq (readBytes s1 cx.view .g cx.lane0 dks)
      -- the states in which the run is walked and in which its targets are translated
      let u := (cx.loadKeys s1 dks).2
      let walked := (cx.walkRun d (b / 256 % 256) (List.range len) [] u).2
      let hdr (t : Nat) : DWord := d.stg + BitVec.ofNat 64 (t * (d.rowb + 128))
      (d.valid = false → TrapsAll (.kvCommit w) s Code.prot cx.p) ∧
      (d.valid = true → 32 < len ∨ d.nslot < len →
        ∃ t, exec (.kvCommit w) s = .next t ∧ LaneRetired cx (sp.pc + 12#64) (readFrom s t) t ∧
          LanePromised (status (4 * 256)) [] (readFrom s t) t) ∧
      (∀ (token state : Nat → Nat) (n why : Nat) (ring : List DWord) (s2 s3 s4 : State) (src ks : List (List Nat)),
        d.valid = true → len ≤ 32 → len ≤ d.nslot → Ordered s →
        (∀ j, j < d.nslot → (cx.header d j u).1 = .ok (token j, state j) ∧ (cx.header d j u).2.tlb = u.tlb) →
        let slot (j : Nat) : Nat := (cx.laneRead w.c cx.c j).toNat
        RunAccepts (fun j => slot j < d.nslot ∧ state (slot j) = 1)
          (fun j => BitVec.ofNat 32 (token (slot j)) ∈ d.stops.take d.nstop) len (b / 256 % 256) n why →
        cx.targets seq d.len n walked = (.ok ring, s2) →
        cx.placeRanges .read ((List.range n).map fun j => (hdr (slot j) + 128#64, d.rowb)) s2 = (.ok src, s3) →
        cx.placeRanges .write (ring.map (·, d.rowb) ++ [(da + 16#64, 4)] ++
          (List.range d.nslot).map fun j => (hdr j + 4#64, 1)) s3 = (.ok ks, s4) →
        (∀ x ∈ src ++ ks.take n, x.length = d.rowb) → (ks.getD n []).length = 4 → (∀ x ∈ ks.drop (n + 1), x.length = 1) →
        (ks.flatten.map (home s)).Nodup →
        ∃ t, exec (.kvCommit w) s = .next t ∧ LaneRetired cx (sp.pc + 12#64) (writtenFrom s t) t ∧
          LanePromised (status (n + why * 256)) [] (writtenFrom s t) t ∧
          SameMemoryBut (ks.flatten.map (home s)) s t ∧
          (∀ u, u < n → bytesAt t (ks.getD u []) =
            readBytes s cx.view .g cx.lane0 (src.getD u [])) ∧
          bytesAt t (ks.getD n []) = toBytesLE 4 (d.len + n) ∧
          ∀ j, j < d.nslot → bytesAt t (ks.getD (n + 1 + j) []) = [0#8]))

/-- KV.STAGE writes one staged chunk; KV.COMMIT accepts the verified run of drafts and copies its rows: the two
clauses StagedRows and CommittedRows. What the spec leaves open and the model settles in it: Who moves next is plain
data of State; an access is performed when its word issues, with all its lanes in one step (log 4); KV words under
an epoch: tables, headers, poison (log 48); The ring that R313 checks: the pages of the block table's valid entries
(log 98). -/
def Obligations.KvWords : Prop := Clause.StagedRows ∧ Clause.CommittedRows

/-- A queue word names a queue that the image declares, on a cluster of the package, and its lanes read no poison. -/
structure QueueReady (i : Instr) (f : LaneForm) (w : Strip) (sp : Split) (s : State) (m : Image) (d : QueueDecl) : Prop
    extends LaneReady i f w sp s where
  taking : (cxOf s f w sp).p ≠ 0#32
  clean : queueDeaths (cxOf s f w sp) = 0#32
  image : imageAt s s.warp.image = some m
  declared : m.queue (Form.xf w 2 0) = some d

/-- R281 to R283, R285 to R287: Q.PUSH puts the record of each lane of P, ascending and under label 0, behind a
queue with room for all and waits otherwise; Q.POP takes the oldest entries for the first lanes of P, waits where a
blocking pop finds too few and traps QUEUE where one that does not block finds none; Q.STAT reads the occupancy;
QUEUE_REFILL moves the oldest well entry forward; rung queues and clusters above 159 trap PROT, undeclared queues
ILLEGAL. That a queue is its context's own is the model's choice, and so is the well's slot of a record, TAIL modulo
WELL (log 45). What the spec leaves open and the model settles in it: Cluster queues are kept per context, and the
well ring by TAIL modulo WELL (log 45). -/
def Obligations.ClusterQueues : Prop :=
  (∀ (i : Instr) (w : Strip) (f : LaneForm) (sp : Split) (s : State) (m : Image) (d : QueueDecl), QueueReady i f w sp s m d →
    let cx := cxOf s f w sp
    let hw := if w.x.getLsbD 3 then (cx.b.word cx.lane0).toNat else s.warp.hw
    let q := Form.xf w 2 0
    let old := queueAt s s.warp.ctx hw q
    let lanes := LaneMask.lanes cx.p
    let others (t : State) : Prop := ∀ key, key ≠ queueKey s.warp.ctx hw q →
      Tab.getD t.cqueues key CQueue.empty = Tab.getD s.cqueues key CQueue.empty
    (i = .qPush w ∨ i = .qPop w ∨ i = .qStat w → 159 < hw ∨ (m.isRung q = true ∧ i ≠ .qStat w) → TrapsAll i s Code.prot cx.p) ∧
    (i = .qPush w → hw ≤ 159 → m.isRung q = false →
      (old.all.length + lanes.length ≤ 32 + d.well →
        let entries := lanes.map fun i =>
          ({ words := (List.range 8).map fun k => (cx.srcA k).word i, label := 0#32, entered := s.cycle, bad := [] } : CqEntry)
        let s1 (t : State) : State := { writtenFrom s t with cqueues := t.cqueues }
        ∃ t, exec i s = .next t ∧ LaneRetired cx (sp.pc + 12#64) (s1 t) t ∧ LaneResults [] [] (s1 t) t ∧ others t ∧
          let new := queueAt t s.warp.ctx hw q
          new.all = old.all ++ entries ∧ new.head = old.head ∧ new.tail = old.tail + BitVec.ofNat 32 lanes.length ∧
          old.hwPart <+: new.hwPart ∧ (new.well ≠ [] → old.well ≠ [] ∨ new.hwPart.length = max old.hwPart.length 32) ∧
          (new.well = [] → SameMemory s t)) ∧
      (32 + d.well < old.all.length + lanes.length → exec i s = .next (s.setSplit (some { sp with wait := .queue })))) ∧
    (i = .qPop w → hw ≤ 159 → m.isRung q = false →
      let n := min lanes.length old.all.length
      let noBlock := w.x.getLsbD 4
      (noBlock = false → old.all.length < lanes.length → exec i s = .next (s.setSplit (some { sp with wait := .queue }))) ∧
      (noBlock = true → old.all = [] → exec i s = .next (takeTrap s (wholeTrap Code.queue sp.mask))) ∧
      (noBlock = true ∨ lanes.length ≤ old.all.length → old.all ≠ [] →
        let first := LaneMask.ofPred fun i => decide (i ∈ lanes.take n)
        let entry (i : Nat) : CqEntry := old.all.getD (lanes.idxOf i) { words := [], label := 0#32, entered := 0, bad := [] }
        ∃ t, exec i s = .next t ∧ LaneRetired cx (sp.pc + 12#64) { seenFrom s t with cqueues := t.cqueues } t ∧
          LanePromised ((List.range 8).map fun k =>
            { n := cx.d + k, mask := first, tag := w.fmt, word := fun i => (entry i).words.getD k 0#32
              poison := LaneMask.ofPred fun i => decide (i ∈ lanes.take n) && (entry i).bad.contains k })
            [⟨Form.xf w 7 5, first, cx.p⟩] { seenFrom s t with cqueues := t.cqueues } t ∧
          others t ∧ (queueAt t s.warp.ctx hw q).all = old.all.drop n ∧ (queueAt t s.warp.ctx hw q).tail = old.tail ∧
          (queueAt t s.warp.ctx hw q).head = old.head + BitVec.ofNat 32 n)) ∧
    (i = .qStat w → hw ≤ 159 →
      let v := if Form.xf w 5 4 = 0 then old.hwPart.length else if Form.xf w 5 4 = 1 then old.well.length else 32 + d.well
      ∃ t, exec i s = .next t ∧ LaneRetired cx (sp.pc + 12#64) s t ∧
        LanePromised [{ n := cx.d, mask := cx.p, tag := 2#4, word := fun _ => BitVec.ofNat 32 v }] [] s t)) ∧
  (∀ (i : Instr) (w : Strip) (f : LaneForm) (sp : Split) (s : State) (m : Image), LaneReady i f w sp s →
    i = .qPush w ∨ i = .qPop w ∨ i = .qStat w → imageAt s s.warp.image = some m → m.queue (Form.xf w 2 0) = none →
    exec i s = .next (takeTrap s (wholeTrap Code.illegal sp.mask))) ∧
  (∀ (hw q : Nat) (s : State), ∃ t, exec (.queueRefill hw q) s = .next t ∧ t = { s with cqueues := t.cqueues } ∧
    ∀ ctx x, hw < 160 → q < 8 → Tab.find? s.cqueues (queueKey ctx hw q) = some x →
      let y := queueAt t ctx hw q
      y.all = x.all ∧ y.head = x.head ∧ y.tail = x.tail ∧
        (x.well ≠ [] → x.hwPart.length < 32 → y.hwPart.length = x.hwPart.length + 1) ∧
        (x.well = [] ∨ 32 ≤ x.hwPart.length → y = x))

/-- The item in a lane is HELD with this index (R296). -/
def Holds (w : Warp) (i : Nat) (h : Held) : Prop := w.items.getD i none = some h ∧ h.live = true

/-- The items of these lanes are HELD no longer; the other lanes keep theirs. -/
def ItemsGone (s t : State) (m : LaneMask) : Prop :=
  ∀ i, i < 32 → (m.has i = true → t.warp.held i = none) ∧ (m.has i = false → t.warp.held i = s.warp.held i)

/-- R294, R297 to R300: LAD.DONE, open answers 4, 1, 2 or 3, or opens the slot, and its test counts the resolved
items; LAD.ITEM reads index or frame; LAD.ESC moves the items of P behind the next rung's queue under their indexes,
and LAD.RES writes each lane's words at its index in the results and resolves the items; lanes without a HELD item
trap PROT; a warp without items, and LAD.ESC on the last rung, trap ILLEGAL. What the spec leaves open and the model
settles in it: Cluster queues are kept per context, and the well ring by TAIL modulo WELL (log 45); Ladder words:
who holds items, and what a vanished opener does (log 47). -/
def Obligations.LadderWords : Prop :=
  (∀ (w : Strip) (f : LaneForm) (sp : Split) (s : State) (k : Nat), LaneReady (.ladDoneOpen w) f w sp s →
    let cx := cxOf s f w sp
    let lnum := Form.xf w 2 1
    let off := 16 * Form.xf w 14 3
    cx.p ≠ 0#32 → lowDeaths cx = 0#32 → teamById s s.warp.team = some cx.team → off + 16 ≤ cx.team.total →
    k = spKey cx.team.coreIx (cx.team.base + off) →
    let n := (cx.b.word cx.lane0).toNat
    let decl := (imageAt s s.warp.image).bind fun m => (m.ladder lnum).map (m, ·)
    let taken := (ladderAt s s.warp.hw lnum).isSome = true
    let bad (d : LadderDecl) : Prop := n = 0 ∨ d.maxItems < n
    let fits (m : Image) (d : LadderDecl) : Prop := ∀ r ∈ d.rungs, ∃ kn kern, m.rungKernel r = some (kn, kern) ∧
      kern.teams = 1 ∧ canFit kern (isRedundant s s.warp.ctx) = true
    let answer (st : Nat) (s1 : State) : Prop := ∃ t, exec (.ladDoneOpen w) s = .next t ∧ LaneRetired cx (sp.pc + 12#64) s1 t ∧
      LanePromised [{ n := cx.d, mask := cx.p, tag := 2#4, word := fun _ => BitVec.ofNat 32 st }] [] s1 t
    (decl = none → answer 4 s) ∧
    (∀ m d, decl = some (m, d) → (taken → answer 1 s) ∧ (¬ taken → bad d → answer 2 s) ∧
      (¬ taken → ¬ bad d → ¬ fits m d → answer 3 s) ∧
      (¬ taken → ¬ bad d → fits m d → answer 0 { s with ladders := Tab.put s.ladders (ladderKey s.warp.hw lnum) {
        n := n, res := (cx.srcA 1).word cx.lane0 ++ cx.a.word cx.lane0, frames := (cx.srcC 1).word cx.lane0 ++ cx.c.word cx.lane0
        objs := [k], grid := s.warp.grid, ctx := s.warp.ctx, image := s.warp.image, entered := 0
        items := List.replicate n (.waiting 0), groups := [], escalated := 0 } }))) ∧
  (∀ (w : Strip) (f : LaneForm) (sp : Split) (s : State), LaneReady (.ladDoneTest w) f w sp s →
    let cx := cxOf s f w sp
    cx.p ≠ 0#32 → genericDeaths cx = 0#32 →
    let l := ladderAt s s.warp.hw (Form.xf w 2 1)
    let n := (l.map fun l => (l.items.filter fun x => x == .resolved || x == .dropped).length).getD 0
    let all := ∃ x, l = some x ∧ n = x.n
    ∃ t m, exec (.ladDoneTest w) s = .next t ∧ LaneRetired cx (sp.pc + 12#64) s t ∧
      LanePromised [{ n := cx.d, mask := cx.p, tag := 2#4, word := fun _ => BitVec.ofNat 32 n }] [⟨Form.xf w 5 3, m, cx.p⟩] s t ∧
      (all → m = cx.p) ∧ (¬ all → m = 0#32)) ∧
  (∀ (w : Strip) (f : LaneForm) (sp : Split) (s : State), LaneReady (.ladItem w) f w sp s →
    let cx := cxOf s f w sp
    cx.p ≠ 0#32 → genericDeaths cx = 0#32 →
    ∃ t m, exec (.ladItem w) s = .next t ∧ LaneRetired cx (sp.pc + 12#64) s t ∧
      (∀ i, i < 32 → (m.has i = true ↔ cx.p.has i = true ∧ ∃ h, Holds s.warp i h)) ∧
      ∃ (W : Nat → Nat → Word) (Q : Nat → LaneMask),
        (w.x.getLsbD 0 = false → LaneResults [{ n := cx.d, mask := m, tag := w.fmt, word := W 0 }] [] s t) ∧
        (w.x.getLsbD 0 = true → LaneResults ((List.range 8).map fun k =>
          { n := cx.d + k, mask := m, tag := w.fmt, word := W k, poison := Q k }) [] s t) ∧
        ∀ i h, i < 32 → Holds s.warp i h → (w.x.getLsbD 0 = false → W 0 i = BitVec.ofNat 32 h.index) ∧
          (w.x.getLsbD 0 = true → ∀ k, k < 8 → W k i = h.frame.getD k 0#32)) ∧
  (∀ (w : Strip) (f : LaneForm) (sp : Split) (s : State) (home lnum rung kn : Nat) (l : Ladder) (r : Rung) (kern : Kernel)
      (q : QueueDecl), LaneReady (.ladEsc w) f w sp s → noItems s.warp = false →
    warpLadder s s.warp = some (home, lnum, rung, l) → rung + 1 < rungCount s l lnum →
    rungOf s l lnum (rung + 1) = some (r, kn, kern, q) →
    let cx := cxOf s f w sp
    let lanes := LaneMask.lanes cx.p
    let old := queueAt s l.ctx home q.qnum
    cx.p ≠ 0#32 → queueDeaths cx = 0#32 → (∀ i ∈ lanes, ∃ h, Holds s.warp i h) →
    (32 + q.well < old.all.length + lanes.length → exec (.ladEsc w) s = .next (s.setSplit (some { sp with wait := .queue }))) ∧
    (old.all.length + lanes.length ≤ 32 + q.well → old.all.length + lanes.length < groupCap r kern →
      ∃ t, exec (.ladEsc w) s = .next t ∧
        (let s1 := { writtenFrom s t with
          cqueues := t.cqueues, ladders := t.ladders, warp := { (seenFrom s t).warp with items := t.warp.items } }
         LaneRetired cx (sp.pc + 12#64) s1 t ∧ LaneResults [] [] s1 t) ∧ ItemsGone s t cx.p ∧
        ((queueAt t l.ctx home q.qnum).well = [] → SameMemory s t) ∧
        (∃ es : List CqEntry, (queueAt t l.ctx home q.qnum).all = old.all ++ es ∧ es.length = lanes.length ∧
          ∀ (n i : Nat) (h : Held), lanes[n]? = some i → Holds s.warp i h → ∃ e : CqEntry, es[n]? = some e ∧
            e.words = ((List.range 8).map fun k => (cx.srcA k).word i) ∧ e.label = BitVec.ofNat 32 h.index) ∧
        ∃ l', ladderAt t home lnum = some l' ∧ l' = { l with items := l'.items, escalated := l.escalated + lanes.length } ∧
          l'.items.length = l.items.length ∧
          ∀ n, n < l.items.length → l'.items[n]? =
            if ∃ i ∈ lanes, cx.index i = n then some (.waiting (rung + 1)) else l.items[n]?)) ∧
  (∀ (w : Strip) (f : LaneForm) (sp : Split) (s s' : State) (home lnum rung : Nat) (l : Ladder)
      (x : List (LaneAcc × Except AccErr Nat)), LaneReady (.ladRes w) f w sp s → noItems s.warp = false →
    warpLadder s s.warp = some (home, lnum, rung, l) →
    let cx := cxOf s f w sp
    let regs := resRegs s w.a.code.toNat
    let lanes := LaneMask.lanes cx.p
    cx.p ≠ 0#32 → regs ≠ [] → (∀ n ∈ regs, n ≤ 247 ∧ inAlloc s.warp.units n = true ∧ (s.warp.reg n).tag ≠ 8#4) →
    s.warp.frag = none ∨ (sp.ts.isSome = true ∧ outstanding s.warp regs = false) →
    resDeaths cx = 0#32 → (∀ i ∈ lanes, ∃ h, Holds s.warp i h) → s.warp.epoch = none → Ordered s →
    preCheck s s.warp 4 true false (cx.resAccs l) = none →
    placeLanes cx.view s.warp .write 4 (cx.resAccs l) s = (x, s') → (∀ p ∈ x, ∃ k, p.2 = .ok k) →
    (x.flatMap fun p => match p.2 with | .ok k => (keysFrom k 4).map (Machine.home s) | .error _ => []).Nodup →
    l.res.toNat + 2 ^ 32 * (4 * regs.length) ≤ 2 ^ 56 → (∀ i ∈ lanes, cx.index i < 2 ^ 32) →
    ∃ t, exec (.ladRes w) s = .next t ∧
      (let s1 := { writtenFrom s t with ladders := t.ladders, warp := { (seenFrom s t).warp with items := t.warp.items } }
       LaneRetired cx (sp.pc + 12#64) s1 t ∧ LaneResults [] [] s1 t) ∧ ItemsGone s t cx.p ∧
      SameMemoryBut (x.flatMap fun p => match p.2 with | .ok k => (keysFrom k 4).map (Machine.home s) | .error _ => []) s t ∧
      (∀ i ∈ lanes, ∀ h, Holds s.warp i h → ∀ n, n < regs.length → ∃ a k, (a, .ok k) ∈ x ∧ a.lane = i ∧
        a.ea = l.res + BitVec.ofNat 64 (h.index * (4 * regs.length) + 4 * n) ∧
        bytesAt t (keysFrom k 4) = toBytesLE 4 ((readReg s.draws s.warp (regs.getD n 0)).word i).toNat) ∧
      ∃ l', ladderAt t home lnum = some l' ∧ l' = { l with items := l'.items } ∧
        ∀ n, n < l.items.length → l'.items[n]? = if ∃ i ∈ lanes, cx.index i = n then some .resolved else l.items[n]?) ∧
  (∀ (i : Instr) (w : Strip) (f : LaneForm) (sp : Split) (s : State), LaneReady i f w sp s →
    (i = .ladEsc w ∨ i = .ladRes w → noItems s.warp = true → exec i s = .next (takeTrap s (wholeTrap Code.illegal sp.mask))) ∧
    (∀ home lnum rung l, i = .ladEsc w → warpLadder s s.warp = some (home, lnum, rung, l) → rungCount s l lnum ≤ rung + 1 →
      exec i s = .next (takeTrap s (wholeTrap Code.illegal sp.mask))) ∧
    (∀ home lnum rung l, i = .ladEsc w → noItems s.warp = false → warpLadder s s.warp = some (home, lnum, rung, l) →
      rung + 1 < rungCount s l lnum → (cxOf s f w sp).p ≠ 0#32 → queueDeaths (cxOf s f w sp) = 0#32 →
      let bad (j : Nat) : Prop := j < 32 ∧ (cxOf s f w sp).p.has j = true ∧ s.warp.held j = none
      (∃ j, bad j) → ∃ tr, exec i s = .next (takeTrap s tr) ∧ tr.code = Code.prot ∧ ∀ j, j < 32 → (tr.lanes.has j = true ↔ bad j)))

/-- R294 to R296: LADDER_ITEM_ENTRY puts the next item, with its frame and its index as label, behind rung 0's queue
where it has room, and the oldest G items form a group; STARVE_EXPIRE forms one of every waiting item once the
oldest has waited STARVE cycles; GROUP_LAUNCH starts the first group of the highest rung at its home where that can
take it; LADDER_COMPLETE, with every item entered and final, arrives once on the opener's object and frees the slot.
What the spec leaves open and the model settles in it: A grid with ladders waits for them, and a placement takes the
first fit (log 43); Cluster queues are kept per context, and the well ring by TAIL modulo WELL (log 45); Ladder
words: who holds items, and what a vanished opener does (log 47). -/
def Obligations.LadderEvents : Prop :=
  (∀ (s s1 : State) (hw lnum kn : Nat) (ks : List Nat) (l : Ladder) (r : Rung) (kern : Kernel) (q : QueueDecl),
    ladderAt s hw lnum = some l → rungOf s l lnum 0 = some (r, kn, kern, q) → l.entered < l.n → Ordered s →
    let old := queueAt s l.ctx hw q.qnum
    let e : CqEntry := {
      words := (List.range 8).map fun j => BitVec.ofNat 32 (ofBytesLE ((bytesAt s ks).drop (4 * j) |>.take 4))
      label := BitVec.ofNat 32 l.entered
      entered := s.cycle, bad := (List.range 8).filter fun j => anyPoisoned s ((ks.drop (4 * j)).take 4) }
    old.all.length + 1 ≤ 32 + q.well → old.spills = false → 1 < groupCap r kern → old.all.length < groupCap r kern →
    l.items.length = l.n → l.n < 2 ^ 32 →
    unitSpan s l.ctx .read (l.frames + BitVec.ofNat 64 (32 * l.entered)) 32 = (some ks, s1) →
    ∃ t, exec (.ladderItemEntry hw lnum) s = .next t ∧
      t = { s with tlb := s1.tlb, cqueues := t.cqueues, ladders := t.ladders } ∧
      (old.all.length + 1 < groupCap r kern → (queueAt t l.ctx hw q.qnum).all = old.all ++ [e] ∧
        ladderAt t hw lnum = some { l with entered := l.entered + 1 }) ∧
      (old.all.length + 1 = groupCap r kern → (queueAt t l.ctx hw q.qnum).all = [] ∧
        ∃ l', ladderAt t hw lnum = some l' ∧ l'.entered = l.entered + 1 ∧
          l'.groups = l.groups ++ [{ rung := 0, items := old.all ++ [e] }] ∧
          ∀ n, n < l.n → l'.items[n]? = if ∃ x ∈ (old.all ++ [e] : List CqEntry), x.label.toNat = n then some .held else l.items[n]?)) ∧
  (∀ (s : State) (hw lnum rung kn : Nat) (l : Ladder) (r : Rung) (kern : Kernel) (q : QueueDecl) (e : CqEntry)
      (rest : List CqEntry), ladderAt s hw lnum = some l → rungOf s l lnum rung = some (r, kn, kern, q) →
    (queueAt s l.ctx hw q.qnum).all = e :: rest →
    (s.cycle < e.entered + r.starve → exec (.starveExpire hw lnum rung) s = .next s) ∧
    (e.entered + r.starve ≤ s.cycle → ∃ t l', exec (.starveExpire hw lnum rung) s = .next t ∧
      t = { s with cqueues := t.cqueues, ladders := t.ladders } ∧ (queueAt t l.ctx hw q.qnum).all = [] ∧
      ladderAt t hw lnum = some l' ∧ l' = { l with groups := l.groups ++ [{ rung := rung, items := e :: rest }], items := l'.items } ∧
      ∀ n, n < l.items.length → l'.items[n]? = if ∃ x ∈ e :: rest, x.label.toNat = n then some .held else l.items[n]?)) ∧
  (∀ (s : State) (hw lnum kn : Nat) (g : Group) (before after : List (Nat × Group)) (l : Ladder) (r : Rung) (kern : Kernel)
      (q : QueueDecl) (opener : Grid) (m : Image) (x : Spot),
    (([0, 1, 2, 3].flatMap fun n => ((ladderAt s hw n).map fun l => l.groups.map (n, ·)).getD []) = before ++ [(lnum, g)] ++ after) →
    (∀ y ∈ before, y.2.rung < g.rung) → (∀ y ∈ after, y.2.rung ≤ g.rung) →
    ladderAt s hw lnum = some l → rungOf s l lnum g.rung = some (r, kn, kern, q) → gridById s l.grid = some opener →
    imageAt s l.image = some m → m.kernels[kn]? = some kern → isRedundant s l.ctx = false → modeFits s l.ctx = true →
    homeTakes s hw kern false = some [x] → (∀ y ∈ s.grids, y.id ≠ s.nextGrid) →
    ∃ t gr tm, exec (.groupLaunch hw) s = .next t ∧ t.grids = s.grids ++ [gr] ∧ gr.id = s.nextGrid ∧ gr.ctx = l.ctx ∧
      gr.req = opener.req ∧ gr.kernel = kn ∧ gr.rung = some { opener := opener.id, home := hw, lnum := lnum, group := g } ∧
      gr.lr.kaddr = kern.entry ∧ gr.lr.args = l.frames ∧ gr.started = 1 ∧
      (∃ l', ladderAt t hw lnum = some l' ∧ l' = { l with groups := l.groups.erase g }) ∧ t.teams = s.teams ++ [tm] ∧
      tm.hw = hw ∧ tm.core = x.core ∧ tm.base = x.base ∧ tm.grid = gr.id ∧ t.warp = s.warp ∧
      ∃ ws, t.others = s.others ++ ws ∧ ws.length = x.slots.length ∧ ∀ n w, ws[n]? = some w →
        w.index = n ∧ w.team = tm.id ∧ w.hw = hw ∧ x.slots[n]? = some w.slot ∧ w.apc = kern.entry ∧ w.s.getD 2 0#64 = l.frames ∧
        ∀ j, j < 32 → (w.alive.has j = (g.items[32 * n + j]?).isSome) ∧
          ∀ e : CqEntry, g.items[32 * n + j]? = some e → ∃ h, Holds w j h ∧ h.index = e.label.toNat ∧ h.frame = e.words) ∧
  (∀ (s : State) (hw lnum k : Nat) (l : Ladder), ladderAt s hw lnum = some l → l.n ≤ l.entered → l.objs = [k] → Ordered s →
    keyResident s l.grid k = true → ladderSaved s hw lnum = false →
    let n := (l.items.filter fun x => x == .resolved || x == .dropped).length
    (n < l.n → exec (.ladderComplete hw lnum) s = .next s) ∧
    (l.n ≤ n → ∃ t, exec (.ladderComplete hw lnum) s = .next t ∧ ladderAt t hw lnum = none ∧
      objAt t k = (let o := { objAt s k with pendArr := (objAt s k).pendArr - min 1 (objAt s k).pendArr }
        if o.pendArr = 0 ∧ o.pendB = 0#32 then
          { o with phase := o.phase + 1#32, pendArr := o.expArr, pendB := o.reload } else o) ∧
      SameMemoryBut (keysFrom k 16) s t ∧ t.warp = s.warp ∧ t.others = s.others ∧
      ∀ g, gridById s l.grid = some g → gridById t l.grid =
        some { g with ladders := g.ladders ++ [{ lnum := lnum, home := hw, items := l.n, resolved := n, escalated := l.escalated }] }))

/-! ## Tasks, grids and clusters -/

/-- A task record keeps its limits (R289). -/
def TaskOk (b : List Byte) : Prop :=
  field b 24 4 < 2 ∧ field b 28 1 ≤ 4 ∧ field b 29 1 ≤ 4 ∧ field b 30 2 = 0 ∧ ∀ k, k < 8 → field b (32 + 16 * k + 12) 4 = 0

/-- The regions of a task record: n of them from an offset (R289). -/
def regionsAt (b : List Byte) (o n : Nat) : List (DWord × Nat) :=
  (List.range n).map fun k => (BitVec.ofNat 64 (field b (o + 16 * k) 8), field b (o + 16 * k + 8) 4)

/-- R288 to R292: TASK_SUBMIT puts a window's record behind the others, or sets STATUS bit 0 where 64 wait; LAUNCH
reads its 160-byte record and waits for its number, a record off 32 bytes traps ALIGN; TASK_ACCEPT enters the oldest
record under the next sequence number into the matcher with the fewest tasks, the lowest die on a tie, opening its
request where none is open, fills the waiting LAUNCH, waits where every matcher holds 256, and gives a record that
breaks the limits status 2 and no place. That a window of a virtual function submits for that function's context,
and one of the physical function for the context that BAR2 is a window on, is the model's choice (log 65). What the
spec leaves open and the model settles in it: Task records that are refused, and the value of LAUNCH for them (log
46); Functions, windows, mailboxes and registers of the host ports (log 65). -/
def Obligations.TaskAcceptance : Prop :=
  (∀ (c : Cmd) (win : BitVec 3) (s : State), s.start = .ready → c.fn ≤ 16 →
    let key := 8 * c.fn + win.toNat
    let w := windowAt (portOf s c.port) key
    let after (w' : TaskWindow) (t : State) : Prop :=
      windowAt (portOf t c.port) key = w' ∧ ∀ p n, p ≠ c.port ∨ n ≠ key → windowAt (portOf t p) n = windowAt (portOf s p) n
    (64 ≤ w.queued → ∃ t, exec (.taskSubmit c win) s = .next t ∧ t = { s with portA := t.portA, portB := t.portB } ∧
      after { w with dropped := true } t) ∧
    (w.queued < 64 → ∃ t x, exec (.taskSubmit c win) s = .next t ∧ after { w with queued := w.queued + 1 } t ∧
      t.submitted = s.submitted ++ [x] ∧ x.ctx = (if c.fn = 0 then (portOf s c.port).bar2Ctx else c.ctx) ∧
      x.window = some (c.port, key) ∧ x.req = none ∧ x.bytes.length = 160 ∧
      (∀ n, n < 160 → x.bytes.getD n 0#8 = w.record.getD n 0#8) ∧ (Ordered s → SameMemory s t) ∧
      t = { s with
        portA := t.portA, portB := t.portB, submitted := t.submitted, nextId := t.nextId, hist := t.hist, serial := t.serial
        mem := t.mem })) ∧
  (∀ (w : Strip) (f : LaneForm) (sp : Split) (s s1 : State) (l : List (DWord × Except AccErr Nat)),
    LaneReady (.launch w) f w sp s →
    let cx := cxOf s f w sp
    let a := (cx.srcA 1).word cx.lane0 ++ cx.a.word cx.lane0
    cx.p ≠ 0#32 → lowDeaths cx = 0#32 →
    (a.toNat % 32 ≠ 0 → TrapsAll (.launch w) s Code.align cx.p) ∧
    (a.toNat % 32 = 0 → placeList cx.view s.warp .read (cutsOf a 160) s = (l, s1) → (∀ p ∈ l, ∃ k, p.2 = .ok k) →
      ∃ t p x, exec (.launch w) s = .next t ∧
        LaneRetired cx (sp.pc + 12#64)
          { readFrom s t with nextId := t.nextId, submitted := s.submitted ++ [({
            id := s.nextId, ctx := s.warp.ctx, window := none, req := some s.warp.req, warp := some s.warp.id
            bytes := readBytes s1 cx.view .g cx.lane0 (windowKeys a 160 (keysOf l)) } : Submission)] } t ∧
        t.nextId = s.nextId + 1 ∧ (∀ n, SameReg s t n) ∧ t.warp.preds = s.warp.preds ∧
        t.warp.pending = (s.warp.promise p).pending ∧ p.sub = some s.nextId ∧ p.regs = [x] ∧ x.n = cx.d ∧ x.mask = cx.p ∧ x.tag = 2#4)) ∧
  (∀ (s : State) (x : Submission) (rest : List Submission), s.submitted = x :: rest →
    let b := x.bytes
    let flying (d : Nat) : Nat := (s.tasks.filter fun k => k.die == d).length
    ((∀ d, d < 4 → 256 ≤ flying d) → exec .taskAccept s = .next s) ∧
    ((∃ d, d < 4 ∧ flying d < 256) →
      (TaskOk b → ∀ r, (x.req = some r ∨ x.req = none ∧
          ∃ q, s.requests.find? (fun q => q.ctx == x.ctx && q.addr == BitVec.ofNat 64 (field b 16 8) && !q.ended) = some q ∧ q.id = r) →
        ∃ t die, exec .taskAccept s = .next t ∧ die < 4 ∧ (∀ d, d < 4 → flying die ≤ flying d) ∧
          (∀ d, d < die → flying die < flying d) ∧ t.submitted = rest ∧ t.nextSeq = (s.nextSeq + 1) % 2 ^ 32 ∧
          t.tasks = s.tasks ++ [{
            seq := s.nextSeq, die := die, ctx := x.ctx, req := r, lrec := BitVec.ofNat 64 (field b 0 8)
            crec := BitVec.ofNat 64 (field b 8 8), reads := regionsAt b 32 (field b 28 1)
            writes := regionsAt b 96 (field b 29 1), launched := false }] ∧
          SameMemory s t ∧ t.grids = s.grids ∧
          ∀ (n : Nat) (p : Pending), s.warp.pending[n]? = some p → p.sub = some x.id → ∃ q, t.warp.pending[n]? = some q ∧
            q.sub = none ∧ List.Forall₂ (fun y z : RegWrite => z.n = y.n ∧ z.mask = y.mask ∧ z.tag = y.tag ∧
              ∀ k, k < 32 → z.val.word k = BitVec.ofNat 32 s.nextSeq) p.regs q.regs) ∧
      (TaskOk b → ∀ rb s1, x.req = none →
        s.requests.find? (fun q => q.ctx == x.ctx && q.addr == BitVec.ofNat 64 (field b 16 8) && !q.ended) = none →
        (∀ q ∈ s.requests, q.id ≠ s.nextReq) →
        unitRead { s with submitted := rest } x.ctx (BitVec.ofNat 64 (field b 16 8)) 144 = (some rb, s1) →
        field rb 0 2 < 256 ∨ field rb 0 2 = 65535 → field rb 2 1 ≤ 8 → field rb 3 5 = 0 →
        (∀ k, k < field rb 2 1 → field rb (16 + 16 * k) 8 % 2 ^ 18 = 0 ∧ field rb (24 + 16 * k) 8 % 2 ^ 18 = 0) →
        ∃ t r k, exec .taskAccept s = .next t ∧ t.requests = s.requests ++ [r] ∧ r.id = s.nextReq ∧ r.ctx = x.ctx ∧
          r.dom = (if field rb 0 2 = 65535 then none else some (field rb 0 2)) ∧ r.epochs = [] ∧ r.ended = false ∧
          r.crec = BitVec.ofNat 64 (field rb 8 8) ∧ r.lastSeen = decide (field b 24 4 = 1) ∧
          r.windows = (List.range (field rb 2 1)).map (fun k =>
            (BitVec.ofNat 64 (field rb (16 + 16 * k) 8), field rb (24 + 16 * k) 8)) ∧
          t.tasks = s.tasks ++ [k] ∧ k.req = s.nextReq ∧ k.seq = s.nextSeq) ∧
      (¬ TaskOk b → ∃ t id, exec .taskAccept s = .next t ∧ t.tasks = s.tasks ∧ t.submitted = rest ∧ t.nextSeq = s.nextSeq ∧
        t.mem = (writeRecord { s with submitted := rest } x.ctx (BitVec.ofNat 64 (field b 8 8)) [] (refusedRecord 2 id)).mem)))

/-- Two byte ranges share a byte (R291). -/
def Overlap (a b : DWord × Nat) : Prop := ∃ k, a.1.toNat ≤ k ∧ k < a.1.toNat + a.2 ∧ b.1.toNat ≤ k ∧ k < b.1.toNat + b.2

/-- A later task depends on an earlier one (R291). -/
def TaskDepends (y x : Task) : Prop :=
  (∃ a ∈ x.writes, ∃ b ∈ y.reads ++ y.writes, Overlap a b) ∨ ∃ a ∈ x.reads, ∃ b ∈ y.writes, Overlap a b

/-- A launch record keeps its limits (R109). -/
def LaunchOk (b : List Byte) : Prop :=
  1 ≤ field b 8 4 ∧ field b 12 4 ≤ 65536 ∧ field b 24 4 < 2 ∧ field b 28 4 = 0 ∧ field b 32 8 % 256 = 0 ∧
    field b 48 8 % 64 = 0 ∧ field b 56 8 = 0 ∧
    (field b 40 8 = 0 ∨ (4 ≤ field b 40 8 % 256 ∧ field b 40 8 % 256 ≤ 20 ∧ field b 40 8 < 2 ^ 57))

/-- R109, R291, R293: TASK_LAUNCH waits while an earlier task shares a byte that either writes; then it enters the
grid of its launch record under the next serial number, for LAUNCH.EVEN with the FIXUP byte of every tile; a record,
kernel or shape that is not admitted ends the task with no grid. What the spec leaves open and the model settles in
it: Task records that are refused, and the value of LAUNCH for them (log 46). -/
def Obligations.TaskLaunches : Prop :=
  ∀ (s s1 : State) (tasks later : List Task) (k : Task) (b : List Byte), s.tasks = tasks ++ k :: later → k.launched = false →
    (∀ x ∈ tasks, x.seq ≠ k.seq) → (∀ x ∈ later, x.seq ≠ k.seq) →
    let s0 := { s with tasks := tasks ++ { k with launched := true } :: later }
    ((∃ x ∈ tasks, TaskDepends k x) → exec (.taskLaunch k.seq) s = .next s) ∧
    ((∀ x ∈ tasks, ¬ TaskDepends k x) → unitRead s0 k.ctx k.lrec 64 = (some b, s1) →
      let entry : DWord := BitVec.ofNat 64 (field b 0 8)
      let even := field b 24 4 = 1
      let refused : Prop := ∃ t, exec (.taskLaunch k.seq) s = .next t ∧ t.grids = s.grids ∧ k.seq ∉ t.tasks.map (·.seq)
      let lr : LaunchRec := {
        kaddr := entry, nclust := field b 8 4, argsz := field b 12 4, args := BitVec.ofNat 64 (field b 16 8)
        even := decide (field b 24 4 = 1), tvec := BitVec.ofNat 64 (field b 32 8), faultq := BitVec.ofNat 64 (field b 40 8)
        grec := BitVec.ofNat 64 (field b 48 8) }
      let grid (m n : Nat) (work : Option (Nat × Nat)) (g : Grid) : Prop :=
        g.id = s.nextGrid ∧ g.ctx = k.ctx ∧ g.req = k.req ∧ g.task = k.seq ∧ g.image = m ∧ g.kernel = n ∧ g.work = work ∧
          g.started = 0 ∧ g.live = 0 ∧ g.rung = none ∧ g.ended = false ∧ g.lines = [] ∧ g.lr = lr
      (k.lrec.toNat % 64 ≠ 0 ∨ ¬ LaunchOk b → refused) ∧
      (k.lrec.toNat % 64 = 0 → LaunchOk b →
        ((∀ p ∈ s.images, p.2.ctx = k.ctx → p.2.priv = ((Tab.find? s.contexts k.ctx).map (·.priv)).getD false →
          ∀ x ∈ p.2.kernels, x.entry ≠ entry) → refused) ∧
        (∀ m n kern, findKernel s1 k.ctx entry = some (m, n, kern) →
          (canFit kern (isRedundant s k.ctx) = false → refused) ∧
          (canFit kern (isRedundant s k.ctx) = true → ¬ even →
            ∃ t g, exec (.taskLaunch k.seq) s = .next t ∧
              t = { s0 with tlb := t.tlb, grids := s.grids ++ [g], nextGrid := (s.nextGrid + 1) % 2 ^ 32 } ∧ grid m n none g) ∧
          (∀ eb s2, canFit kern (isRedundant s k.ctx) = true → even → Ordered s →
            unitRead s1 k.ctx (BitVec.ofNat 64 (field b 16 8)) 16 = (some eb, s2) →
            let tiles := field eb 0 4
            let iters := field eb 4 4
            let fixup : DWord := BitVec.ofNat 64 (field eb 8 8)
            let teams := field b 8 4 * kern.teams
            let start (r : Nat) : Nat := r * (tiles * iters) / teams
            let meet (tile : Nat) : Nat := ((List.range teams).filter fun r =>
              decide (∃ i, i < tiles * iters ∧ start r ≤ i ∧ i < start (r + 1) ∧ i / iters = tile)).length
            (2 ^ 32 ≤ tiles * iters → refused) ∧
            let counts := (List.range tiles).map fun n => BitVec.ofNat 8 (if meet n < 2 then 0 else meet n)
            (tiles * iters < 2 ^ 32 →
              (let g := newGrid s2 k.ctx k.req k.seq m n lr (some (tiles, iters)) none
               evenCanFit (enterGrid s2 g) g = true) →
              ∃ t g, exec (.taskLaunch k.seq) s = .next t ∧ t.grids = s.grids ++ [g] ∧
                t.nextGrid = (s.nextGrid + 1) % 2 ^ 32 ∧ grid m n (some (tiles, iters)) g ∧
                t.mem = (unitWrite k.ctx (tiles / 2 ^ 18 + 2) counts fixup s2).2.mem ∧
                ∀ key s3, fixup.toNat % 2 ^ 18 + tiles ≤ 2 ^ 18 → unitPlace s2 k.ctx .write fixup = (some key, s3) →
                  ((keysFrom key tiles).map (home s)).Nodup →
                  SameMemoryBut ((keysFrom key tiles).map (home s)) s t ∧
                  ∀ n, n < tiles → bytesAt t [key + n] = counts.getD n 0#8 :: [])))))

/-- R11, R12, R341, R73, R103, R146, R231: a cluster is placed with a team on each of its lowest usable cores, every
warp in a free slot of the partition with the most free ones, at most 1,024 registers on a partition, and a free
scratchpad range. CLUSTER_START starts the grid's next cluster where no eligible cluster is less worn by more than
the margin, the lowest such; the warps have their launch registers, ATVEC the entry 0 of the trap vector, and the
declared barrier objects stand in phase 0. What the spec leaves open and the model settles in it: A context's
default trap vector is not used by launches: TVEC is the launch record's, and ATVEC its entry 0 (log 40); A grid
with ladders waits for them, and a placement takes the first fit (log 43); Loader areas are one per image, and
images are registered from outside (log 44); The clusters of one grid start in ascending cluster index (log 94). -/
def Obligations.ClusterStart : Prop :=
  (∀ (s : State) (hw : Nat) (kern : Kernel) (red : Bool) (l : List Spot), placeCluster s hw kern red = some l →
    l.length = (if red then 2 * kern.teams else kern.teams) ∧
    l.map (·.core) = ([0, 1, 2, 3].filter fun c => (coreAt s (hw * 4 + c)).wear != .retired).take l.length ∧
    ∀ x ∈ l,
      let used := seatsUsed s hw x.core
      x.slots.length = kern.warps ∧ x.slots.Nodup ∧ (∀ n ∈ x.slots, n < 32 ∧ ∀ u ∈ used, u.1 ≠ n) ∧
      (∀ p, p < 4 → x.slots.any (fun n => n / 8 == p) = true →
        ((used ++ x.slots.map (·, kern.units)).filter fun u => u.1 / 8 == p).foldl (fun n u => n + 8 * u.2) 0 ≤ 1024) ∧
      x.base + (kern.scr + 2048 * kern.warps) ≤ 2 ^ 19 ∧
      (∀ r ∈ rangesUsed s hw x.core, x.base + (kern.scr + 2048 * kern.warps) ≤ r.1 ∨ r.1 + r.2 ≤ x.base) ∧
      ∀ n, n < kern.warps → ∀ p, p < 4 →
        let now := used ++ (x.slots.take n).map (·, kern.units)
        let free (p : Nat) : Nat := ((List.range 8).filter fun j => !now.any fun u => u.1 == 8 * p + j).length
        free p ≤ free (x.slots.getD n 0 / 8) ∧ (p < x.slots.getD n 0 / 8 → free p < free (x.slots.getD n 0 / 8))) ∧
  (∀ (s : State) (g : Grid) (m : Image) (kern : Kernel), gridById s g.id = some g → g.kern s = some (m, kern) →
    g.ended = false → g.rung = none → g.started < g.lr.nclust → g.lr.even = false → modeFits s g.ctx = true →
    isRedundant s g.ctx = false → g.work = none →
    let ok (hw : Nat) : Prop := hw < 160 ∧ eligible s kern false hw = true
    let beats (a b : Nat) : Prop := wuSum s kern false a + 2209032000 < wuSum s kern false b
    ((∀ hw, ¬ ok hw) → exec (.clusterStart g.id) s = .next s) ∧
    ((∃ hw, ok hw) → ∃ (t : State) (hw : Nat) (l : List Spot) (g' : Grid) (ts : List Team) (ws : List Warp), exec (.clusterStart g.id) s = .next t ∧ ok hw ∧ (∀ a, ok a → ¬ beats a hw) ∧
      (∀ b, b < hw → ok b → ∃ a, ok a ∧ beats a b) ∧ placeCluster s hw kern false = some l ∧
      gridById t g.id = some g' ∧ g'.started = g.started + 1 ∧ hw ∈ g'.ran ∧ g'.live = g.live + l.length * kern.warps ∧
      t.teams = s.teams ++ ts ∧ t.others = s.others ++ ws ∧ t.warp = s.warp ∧ ts.length = l.length ∧
      (∀ (n : Nat) (x : Spot) (tm : Team), l[n]? = some x → ts[n]? = some tm →
        tm.grid = g.id ∧ tm.cluster = g.started ∧ tm.teamIx = n ∧ tm.hw = hw ∧ tm.core = x.core ∧ tm.base = x.base ∧
          tm.total = kern.scr ∧ tm.spmap = Vector.replicate 8 0#64 ∧ tm.slots = [] ∧ tm.loader = none ∧
          (ws.filter fun w => w.team == tm.id).map (fun w => (w.index, w.slot)) = x.slots.zipIdx.map fun p => (p.2, p.1)) ∧
      (∀ w ∈ ws, w.grid = g.id ∧ w.hw = hw ∧ w.apc = kern.entry ∧ w.acc = .ready ∧ w.alive = 0xFFFFFFFF#32 ∧ w.regs = [] ∧
        w.preds = Vector.replicate 7 0#32 ∧ w.lstarted = false ∧ w.tvec = g.lr.tvec ∧ w.faultq = g.lr.faultq ∧
        w.wdog = BitVec.ofNat 6 kern.wdog ∧ w.units = kern.units ∧ w.s.getD 2 0#64 = g.lr.args ∧
        (g.lr.tvec = 0#64 → w.atvec = 0#64) ∧
        (∀ b s1, g.lr.tvec ≠ 0#64 → unitRead s g.ctx g.lr.tvec 8 = (some b, s1) → w.atvec = BitVec.ofNat 64 (ofBytesLE b % 2 ^ 57)) ∧
        (∃ tm ∈ ts, tm.id = w.team ∧ w.s.getD 3 0#64 = BitVec.ofNat 64 (2 ^ 56 + tm.base)) ∧
        ∀ n, n < 32 → n ≠ 2 → n ≠ 3 → w.s.getD n 0#64 = 0#64) ∧
      (Ordered s → (kern.bars.map (·.off)).Nodup → (∀ b ∈ kern.bars, b.off % 16 = 0 ∧ b.off + 16 ≤ kern.scr ∧ b.arrive < 2 ^ 16 ∧ b.reload < 2 ^ 32) →
        ∀ x ∈ l, ∀ b ∈ kern.bars,
          objAt t (spKey (hw * 4 + x.core) (x.base + b.off)) = {
            phase := 0#32, pendArr := b.arrive, expArr := b.arrive, pendB := BitVec.ofNat 32 b.reload
            reload := BitVec.ofNat 32 b.reload })))

/-- A completion record, MAGIC first (R242). -/
def fullRecord (r : RecordData) : List Byte := toBytesLE 4 0x5243344B ++ r.body

/-- R197, R242: a completion record is the bytes of the table, low byte first, MAGIC written after all others;
GRID_END of a grid of which nothing is left, a filter's complete row among it, writes its task's record with status,
code, lines, lists and wear, ends the task, and passes a rung group's lines to the opener's grid; nothing happens
while something is left. What the spec leaves open and the model settles in it: Warp lines of a completion record
stand in the order in which the warps ended (log 41); What completion records list: epochs, queues, ladders, peers,
wear (log 42); A grid with ladders waits for them, and a placement takes the first fit (log 43). -/
def Obligations.CompletionRecords : Prop :=
  (∀ (r : RecordData), r.warps.length < 2 ^ 32 → r.epochs.length < 2 ^ 16 → r.regions.length < 2 ^ 16 →
    r.queues.length < 2 ^ 8 → r.ladders.length < 2 ^ 8 → r.peers.length < 2 ^ 16 → (∀ q ∈ r.queues, q.length = 16) →
    let b := fullRecord r
    let ends := 64 + 24 * r.warps.length
    let es := ends + 4 * r.epochs.length
    let rs := es + 8 * r.regions.length
    let qs := rs + 16 * r.queues.length
    let ls := qs + 16 * r.ladders.length
    field b 0 4 = 0x5243344B ∧ field b 4 1 = r.kind % 256 ∧ field b 5 1 = r.status.toNat ∧ field b 6 1 = r.code.toNat ∧
    field b 7 1 = 0 ∧ field b 8 8 = r.id % 2 ^ 64 ∧ field b 16 4 = r.warps.length ∧ field b 20 2 = r.epochs.length ∧
    field b 22 2 = r.regions.length ∧ field b 24 1 = r.queues.length ∧ field b 25 1 = r.ladders.length ∧
    field b 26 2 = r.peers.length ∧ field b 28 4 = 0 ∧ field b 32 8 = r.wear % 2 ^ 64 ∧ field b 40 24 = 0 ∧
    b.length = ls + 16 * r.peers.length ∧
    (∀ n (x : WarpLine), r.warps[n]? = some x → let o := 64 + 24 * n
      field b o 4 = x.cluster % 2 ^ 32 ∧ field b (o + 4) 1 = x.warp % 256 ∧ field b (o + 5) 1 = x.status.toNat ∧
      field b (o + 6) 1 = x.code.toNat ∧ field b (o + 8) 8 = x.retired % 2 ^ 64 ∧ field b (o + 16) 8 = x.pc.toNat) ∧
    (∀ n (x : EpochRec), r.epochs[n]? = some x → let o := ends + 4 * n
      field b o 2 = x.num % 2 ^ 16 ∧ field b (o + 3) 1 = 0 ∧
      field b (o + 2) 1 = if x.state = 2#3 then 1 else if x.state = 3#3 then 2 else 3) ∧
    (∀ n (x : BitVec 16 × Nat), r.regions[n]? = some x → let o := es + 8 * n
      field b o 2 = x.1.toNat ∧ field b (o + 4) 4 = x.2 % 2 ^ 32) ∧
    (∀ n (x : List Byte), r.queues[n]? = some x → (b.drop (rs + 16 * n)).take 16 = x) ∧
    (∀ n (x : LadderLine), r.ladders[n]? = some x → let o := qs + 16 * n
      field b o 1 = x.lnum % 256 ∧ field b (o + 1) 1 = x.home % 256 ∧ field b (o + 4) 4 = x.items % 2 ^ 32 ∧
      field b (o + 8) 4 = x.resolved % 2 ^ 32 ∧ field b (o + 12) 4 = x.escalated % 2 ^ 32) ∧
    (∀ n (x : Nat × Nat), r.peers[n]? = some x → let o := ls + 16 * n
      field b o 2 = x.1 % 2 ^ 16 ∧ field b (o + 8) 8 = x.2 % 2 ^ 64)) ∧
  (∀ (s s1 s2 : State) (ctx : Nat) (va : DWord) (ws : List Nat) (r : RecordData) (k : Nat) (ks : List Nat), Ordered s → va.toNat % 64 = 0 →
    va.toNat % 2 ^ 18 + (fullRecord r).length ≤ 2 ^ 18 →
    unitWrite ctx (r.body.length / 2 ^ 18 + 2) r.body (va + 4#64) s = (ks, s1) → ks = [k + 4] →
    unitPlace s1 ctx .write va = (some k, s2) → ((keysFrom k (fullRecord r).length).map (home s)).Nodup →
    let t := writeRecord s ctx va ws r
    bytesAt t (keysFrom k (fullRecord r).length) = fullRecord r ∧ t.crecs = s.crecs ++ [(k, t.serial, 0 :: ws)] ∧
      SameMemoryBut ((keysFrom k (fullRecord r).length).map (home s)) s t) ∧
  (∀ (s : State) (g : Grid), gridById s g.id = some g →
    let left := g.ended = true ∨ g.started < g.lr.nclust ∨ g.live ≠ 0 ∨
      (∃ w ∈ allWarps s, w.grid = g.id ∧ w.ended = none) ∨ (∃ c ∈ s.saved, ∃ w ∈ c.warps, w.grid = g.id) ∨
      (∃ d ∈ s.drains, d.warp ∈ g.members) ∨ (∃ c ∈ s.copies, c.warp ∈ g.members) ∨ (∃ l ∈ s.ladders, l.2.grid = g.id) ∨
      (∃ f ∈ s.filters, f.grid = g.id ∧ ∃ x ∈ f.state, f.rowComplete x = true) ∨
      ∃ x ∈ s.grids, x.ended = false ∧ ∃ r, x.rung = some r ∧ r.opener = g.id
    (left → exec (.gridEnd g.id) s = .next s) ∧
    (¬ left → ∀ r o, g.rung = some r → gridById s r.opener = some o → r.opener ≠ g.id →
      ∃ t, exec (.gridEnd g.id) s = .next t ∧ gridById t g.id = none ∧
        t = { s with grids := t.grids, filters := s.filters.filter (·.grid != g.id) } ∧
        gridById t r.opener = some { o with
          rungLines := o.rungLines ++ g.lines ++ g.rungLines, members := o.members ++ g.members, wear := o.wear + g.wear
          ladders := o.ladders ++ g.ladders }) ∧
    (¬ left → ∀ k, g.rung = none → s.tasks.find? (·.seq == g.task) = some k →
      (∀ x ∈ after s k, depends x k = false) → g.lr.grec = 0#64 → k.seq = g.task →
      (∃ x ∈ s.tasks, x.req = k.req ∧ x.seq ≠ k.seq) →
      ∃ t d, exec (.gridEnd g.id) s = .next t ∧ t.tasks = s.tasks.filter (·.seq != k.seq) ∧
        (∃ g', gridById t g.id = some g' ∧ g' = { g with ended := true }) ∧
        (let u := writeRecord { s with filters := s.filters.filter (·.grid != g.id) } g.ctx k.crec
          (membersOf s fun h => h.task == g.task) d
         t.mem = u.mem ∧ t.crecs = u.crecs ∧ t.filters = u.filters) ∧
        d.kind = 2 ∧ d.id = k.seq ∧ d.wear = g.wear ∧ d.regions = g.sealed ∧
        d.ladders = g.ladders ∧ d.warps = g.lines ++ g.rungLines ∧
        (g.rungLines = [] → d.status = g.status ∧ d.code = g.code) ∧
        d.epochs = ((reqById s g.req).map (·.epochs)).getD [] ∧
        d.queues = (match imageAt s g.image with
          | some m => m.queues.flatMap fun q => g.ran.map fun hw =>
              let c := queueAt s g.ctx hw q.qnum
              toBytesLE 1 q.qnum ++ toBytesLE 1 hw ++ toBytesLE 2 0 ++ toBytesLE 4 c.head.toNat ++ toBytesLE 4 c.tail.toNat ++
                toBytesLE 4 c.well.length
          | none => []) ∧
        ∀ r, reqById s k.req = some r → ∃ r', reqById t k.req = some r' ∧ r' = { r with results := r.results ++ [(k.seq, d.status, d.code)] }))

/-! ## Pre-emption and restore -/

/-- The span of a team on its core: its scratchpad range and its stack areas (R12). -/
def InSpan (t : Team) (k : Nat) : Prop :=
  spKey t.coreIx t.base ≤ k ∧ k < spKey t.coreIx t.base + (t.total + 2048 * t.warps)

/-- R13, R235, R236, R259, R260, R346, R347, R350: PREEMPT asks for a cluster and answers when its save is written,
and the scheduler asks where other work waits; a save waits for depth 0 and outstanding results; GANG_PREEMPTION of
a cluster at rest moves its warps, its team, its scratchpad bytes, its owned rows and its planes into a save, writes
the save's bytes to its area, any place in the chip's memory, and frees the core; CLUSTER_RESTORE puts them onto a
cluster that can take them, at the same offsets and in the same partitions; a core falls due for its test after 24
hours, or 8 if derated or unknown, and a failed test marks it. That PREEMPT of a cluster above 159 answers STATUS 1
is the model's choice (log 66), and so are the area's place (log 39) and when the scheduler asks (log 60). What the
spec leaves open and the model settles in it: The save area of a cluster: where it stands, and what its layout
leaves open (log 39); When a cluster is pre-empted, and what an in-field test does (log 60); Commands: context
numbers, operand checks, DOM.CLEAR, FW.UPDATE, attestation (log 66). -/
def Obligations.PreemptionAndTests : Prop :=
  (∀ (c : Cmd) (hw : Nat) (s : State), s.start = .ready → c.fn ≤ 16 → (boxOf s c).busy = none →
    let said (n : Word) : List Byte := poke (boxOf s c).record 64 4 (toBytesLE 4 n.toNat)
    (hw < 160 → ∃ t, exec (.preempt c hw) s = .next t ∧ hw ∈ t.preemptAsked ∧ (∀ x ∈ s.preemptAsked, x ∈ t.preemptAsked) ∧
      boxOf t c = { boxOf s c with busy := some hw, status := 0xFFFFFFFF#32, record := said 0xFFFFFFFF#32 } ∧
      t = { s with portA := t.portA, portB := t.portB, preemptAsked := t.preemptAsked }) ∧
    (160 ≤ hw → ∃ t, exec (.preempt c hw) s = .next t ∧
      boxOf t c = { boxOf s c with status := 1#32, record := said 1#32, signals := (boxOf s c).signals + 1 } ∧
      t = { s with portA := t.portA, portB := t.portB })) ∧
  (∀ (hw : Nat) (s : State),
    let asked := hw ∈ s.preemptAsked ∨ hw ∈ s.testAsked
    let wanted := (∃ T ∈ s.teams, T.hw = hw) ∧
      ((∃ g ∈ s.grids, g.ended = false ∧ g.rung = none ∧ g.started < g.lr.nclust) ∨ s.saved ≠ [] ∨ groupWaiting s hw = true)
    (¬ asked → ¬ wanted → exec (.gangPreemption hw) s = .next s) ∧
    (¬ asked → wanted → exec (.gangPreemption hw) s = .next { s with preemptAsked := s.preemptAsked ++ [hw] }) ∧
    (asked → (∃ w ∈ allWarps s, w.hw = hw ∧ w.ended = none ∧ (w.pd ≠ 0 ∨ w.pending ≠ [])) →
      exec (.gangPreemption hw) s = .next s)) ∧
  (∀ (hw : Nat) (s : State) (T : Team), hw ∈ s.preemptAsked → hw ∉ s.testAsked → s.teams.filter (fun x => x.hw == hw) = [T] →
    (∀ x ∈ s.teams, x ≠ T → (x.grid, x.cluster) ≠ (T.grid, T.cluster)) →
    (∀ w ∈ allWarps s, (w.hw = hw ↔ w.grid = T.grid ∧ w.cluster = T.cluster)) →
    (∀ w ∈ allWarps s, w.hw = hw → warpById s w.id = some w ∧ w.pd = 0 ∧ w.pending = [] ∧ w.rg = none ∧ w.frag = none ∧
      (∀ r ∈ w.regs, r.2.poison = 0#32) ∧ (∀ q ∈ w.fq.toList, ∀ e ∈ q, e.poison = 0#32) ∧
      ∀ q ∈ w.bq.toList, ∀ e ∈ q, e.poison = 0#32) →
    T.loader = none → T.slots = [] → (∀ c ∈ s.copies, c.core / 4 ≠ hw) → (∀ d ∈ s.drains, d.core / 4 ≠ hw) → s.mapped = [] →
    (∀ b ∈ s.portA.boxes ++ s.portB.boxes, b.2.waiting = []) →
    ∃ t x u, exec (.gangPreemption hw) s = .next t ∧ t.saved = s.saved ++ [x] ∧ x.teams = [T] ∧ x.only = none ∧
      t.teams = s.teams.filter (fun y => y != T) ∧ (∀ w ∈ allWarps t, w.hw = hw → w.ended.isSome = true) ∧
      hw ∉ t.preemptAsked ∧
      (∀ b ∈ s.portA.boxes, b.2.busy = some hw → (b.1, { b.2 with
        busy := none, status := 0#32, record := poke b.2.record 64 4 (toBytesLE 4 0), signals := b.2.signals + 1 }) ∈
          t.portA.boxes) ∧
      List.Forall₂ (fun w v : Warp =>
        v = { w with
          regs := v.regs, slotA := v.slotA, slotB := v.slotB, stack := v.stack, acc := v.acc, parked := false
          pdSince := s.cycle - w.pdSince, watch := s.cycle - w.watch } ∧
        (∀ n, v.reg n = if (w.reg n).released then { LaneReg.launch with released := true } else w.reg n) ∧
        v.slotA.map (fun q => (q.pc, q.mask, q.sig, q.join, q.ts)) = w.slotA.map (fun q => (q.pc, q.mask, q.sig, q.join, q.ts)) ∧
        v.stack.length = w.stack.length ∧ (v.acc = .halted ↔ w.acc = .halted) ∧ (v.acc = .stopped ↔ w.acc = .stopped))
        ((allWarps s).filter fun w => w.hw == hw) x.warps ∧
      (∀ k b, InSpan T k → ((k, b) ∈ s.mem ↔ (0, k - spKey T.coreIx 0, b) ∈ x.scratch)) ∧
      t.mem = (leaveContext u x.ctx).mem ∧ (onPackage u x.ctx = true → t.mem = u.mem) ∧
      (let area := hbmKey s.chip (256 * (Config.saveArea x.id % 2 ^ 30))
       ∀ k, memGet u.mem k = if area ≤ k ∧ k < area + x.area.length then x.area.getD (k - area) 0#8
         else if spKey T.coreIx T.base ≤ k ∧ k < spKey T.coreIx T.base + (T.total + 2048 * T.warps) then Memory.blank
         else memGet s.mem k) ∧
      (∀ n r, (n, r) ∈ (coreOf s T.coreIx).rows → (∃ w ∈ allWarps s, w.team = T.id ∧ w.hw = hw ∧ r.owner = some w.id) → (0, n, r) ∈ x.rows) ∧
      ((coreOf s T.coreIx).planeOwner = some T.id →
        x.planes = [(0, (coreOf s T.coreIx).active, (coreOf s T.coreIx).shadow)] ∧ (coreOf t T.coreIx).planeOwner = none)) ∧
  (∀ (hw : Nat) (s : State) (c : Saved) (T : Team), s.saved.find? (fun x => x.id == c.id) = some c → c.teams = [T] →
    (canRestore s hw c = false → exec (.clusterRestore c.id hw) s = .next s) ∧
    (canRestore s hw c = true → (∀ k, k < 8 → (T.spmap.getD k 0#64).getLsbD 63 = false) →
      (c.scratch.map fun b => (b.1, b.2.1)).Nodup → (∀ b ∈ c.scratch, b.1 = 0 ∧ InSpan T (spKey T.coreIx 0 + b.2.1)) →
      (∀ w ∈ c.warps, w.team = T.id) → (∀ x ∈ s.teams, x.id ≠ T.id) →
      let T' := { T with hw := hw }
      ∃ t ws tm, exec (.clusterRestore c.id hw) s = .next t ∧ t.saved = s.saved.filter (fun x => x.id != c.id) ∧
        t.teams = s.teams ++ [tm] ∧ tm = { T' with slots := tm.slots } ∧ t.others = s.others ++ ws ∧ t.warp = s.warp ∧
        (∀ p ∈ c.warps.zip ws, p.2.slot / 8 = p.1.slot / 8 ∧ (∀ x ∈ seatsUsed s hw p.1.core, x.1 ≠ p.2.slot) ∧
          ∀ q ∈ c.warps.zip ws, p.1.slot / 8 = q.1.slot / 8 → p.1.index < q.1.index → p.2.slot < q.2.slot) ∧
        List.Forall₂ (fun w v : Warp => v = { w with hw := hw, slot := v.slot, regs := v.regs, watch := s.cycle - w.watch, pdSince := s.cycle - w.pdSince, slotA := v.slotA, slotB := v.slotB } ∧
          (∀ n, v.reg n = if (w.reg n).released then LaneReg.launch else w.reg n) ∧
          v.slotA.map (fun q => (q.pc, q.mask, q.sig)) = w.slotA.map (fun q => (q.pc, q.mask, q.sig))) c.warps ws ∧
        (∀ b ∈ c.scratch, memGet t.mem (spKey T'.coreIx 0 + b.2.1) = b.2.2) ∧
        (∀ k, InSpan T' k → (∀ b ∈ c.scratch, spKey T'.coreIx 0 + b.2.1 ≠ k) → memGet t.mem k = Memory.blank) ∧
        (∀ k, ¬ InSpan T' k → memGet t.mem k = memGet s.mem k) ∧
        ((c.rows.map fun r => r.2.1).Nodup → (∀ r ∈ c.rows, r.1 = 0) → ∀ r ∈ c.rows, (coreOf t T'.coreIx).row r.2.1 = r.2.2) ∧
        (∀ a b, c.planes = [(0, a, b)] → (coreOf t T'.coreIx).active = a ∧ (coreOf t T'.coreIx).shadow = b ∧
          (coreOf t T'.coreIx).planeOwner = some T.id))) ∧
  (∀ (core : Nat) (s : State),
    let c := coreOf s core
    let due := c.wear ≠ .retired ∧ (if c.wear = .derated ∨ c.wear = .unknown then 8 else 24) * 360000 ≤ c.sinceTest
    (due → s.start = .ready → core / 4 ∉ s.testAsked →
      exec (.infieldTest core) s = .next { s with testAsked := s.testAsked ++ [core / 4] }) ∧
    (¬ due → exec (.infieldTest core) s = .next s)) ∧
  (∀ (hw : Nat) (failed : List Nat) (s : State), hw ∈ s.testAsked →
    ((∃ T ∈ s.teams, T.hw = hw) → exec (.infieldTestDone hw failed) s = .next s) ∧
    ((∀ T ∈ s.teams, T.hw ≠ hw) →
      let sound := ∀ n, n < 4 → (coreOf s (hw * 4 + n)).wear ≠ .retired → n ∉ failed
      ∃ t, exec (.infieldTestDone hw failed) s = .next t ∧
        t = { s with cores := t.cores, testAsked := s.testAsked.filter (· != hw), saved := t.saved } ∧
        (sound → t.saved = s.saved) ∧
        (¬ sound → t.saved = s.saved.map fun c => if c.only = some hw then { c with only := none } else c) ∧
        (∀ n, n < 4 → coreOf t (hw * 4 + n) = (let c := coreOf s (hw * 4 + n)
          if c.wear = .retired then c else { c with sinceTest := 0, wear := if n ∈ failed then .marked else c.wear })) ∧
        ∀ n, n / 4 ≠ hw → coreOf t n = coreOf s n))

/-! ## Signatures, redundant groups, replay and poison -/

/-- The signature of the split in the issuing slot. -/
def SigIs (t : State) (v : Word) : Prop := ∃ q, t.split? = some q ∧ q.sig = v

/-- R319, R320, R323 to R326, R338: SIG.CHK compares the signature with its record where SIGCTL[0] is set, seeds it
with the mask where it passes, counts a mismatch under HOLD and traps SIGMISMATCH for the whole split otherwise,
clears HOLD in a warp of one split, and is no operation in a handler; without a record it traps, the wanted half of
the value being free (log 96); SIG.RD reads the signature and absorbs nothing; a compute word that retires absorbs
its I record, the two bytes of OP, except in a handler (R321 to R323), and a retiring ENTRY seeds the signature with
the split's mask; outside a group RG.CKPT does nothing and RG.STAT reads 0. What the spec leaves open and the model
settles in it: The .sig table is looked up in memory through the warp's translation (log 56); SIGMISMATCH without a
record: the wanted half is a free value (log 96). -/
def Obligations.SignatureWords : Prop :=
  (∀ (w : Strip) (f : LaneForm) (sp : Split) (s : State), LaneReady (.sigChk w) f w sp s →
    let cx := cxOf s f w sp
    let c := s.warp.sigctl
    let held := c.getLsbD 1
    let passes (c' : Word) : Prop := ∃ t, exec (.sigChk w) s = .next t ∧
      (let s1 := { s with warp := { s.warp with
        sigctl := if c.getLsbD 0 = true ∧ s.warp.splits.length = 1 then c' &&& ~~~2#32 else c' } }
       LaneRetired cx (sp.pc + 12#64) s1 t ∧ LaneResults [] [] s1 t) ∧ SigIs t (crcAbsorb 0#32 (toBytesLE 4 sp.mask.toNat))
    (sp.ts.isSome = true → ∃ t, exec (.sigChk w) s = .next t ∧ LaneRetired cx (sp.pc + 12#64) s t ∧ LaneResults [] [] s t ∧
      SigIs t sp.sig) ∧
    (sp.ts = none →
      (c.getLsbD 0 = false → passes c) ∧
      (c.getLsbD 0 = true → sigRecord s cx.view s.warp sp.pc = none →
        ∃ (tr : TrapInfo) (v : Word), exec (.sigChk w) s = .next (takeTrap s tr) ∧ tr.code = Code.sigmismatch ∧ tr.lanes = sp.mask ∧
          ∀ i, i < 32 → sp.mask.has i = true → (i, v ++ sp.sig) ∈ tr.addrs) ∧
      (∀ v, c.getLsbD 0 = true → sigRecord s cx.view s.warp sp.pc = some v →
        let want := crcAbsorb (crcAbsorb 0#32 (toBytesLE 4 sp.mask.toNat)) (List.replicate (Form.xf w 14 0) 0#8) ^^^ v
        (sp.sig = want → passes c) ∧
        (sp.sig ≠ want → held = true → passes (if c.toNat / 2 ^ 16 = 65535 then c else c + 0x10000#32)) ∧
        (sp.sig ≠ want → held = false → ∃ tr, exec (.sigChk w) s = .next (takeTrap s tr) ∧ tr.code = Code.sigmismatch ∧
          tr.lanes = sp.mask ∧ ∀ i, i < 32 → sp.mask.has i = true → (i, want ++ sp.sig) ∈ tr.addrs)))) ∧
  (∀ (w : Strip) (f : LaneForm) (sp : Split) (s : State), LaneReady (.sigRd w) f w sp s →
    let cx := cxOf s f w sp
    cx.p ≠ 0#32 → genericDeaths cx = 0#32 →
    ∃ t, exec (.sigRd w) s = .next t ∧ LaneRetired cx (sp.pc + 12#64) s t ∧ LaneResult cx 2#4 (fun _ => sp.sig) s t ∧
      SigIs t sp.sig) ∧
  (∀ row ∈ integerRows ++ floatRows, ∀ (w : Strip) (f : LaneForm) (sp : Split) (s : State), LaneRuns (row.1 w) f w sp s →
    ∃ t, exec (row.1 w) s = .next t ∧
      SigIs t (if sp.ts.isSome then sp.sig else crcAbsorb sp.sig (toBytesLE 2 f.op.toNat))) ∧
  (∀ (w : Strip) (f : LaneForm) (sp : Split) (s : State), LaneReady (.entry w) f w sp s → Form.xf w 4 0 ≤ s.warp.units →
    ∃ t, exec (.entry w) s = .next t ∧
      SigIs t (if sp.ts.isSome then sp.sig else crcAbsorb 0#32 (toBytesLE 4 sp.mask.toNat))) ∧
  (∀ (w : Strip) (f : LaneForm) (sp : Split) (s : State), LaneReady (.rgCkpt w) f w sp s →
    ∃ t, exec (.rgCkpt w) s = .next t ∧ LaneRetired (cxOf s f w sp) (sp.pc + 12#64) s t ∧ LaneResults [] [] s t) ∧
  (∀ (w : Strip) (f : LaneForm) (sp : Split) (s : State), LaneReady (.rgStat w) f w sp s →
    let cx := cxOf s f w sp
    cx.p ≠ 0#32 → genericDeaths cx = 0#32 →
    ∃ t, exec (.rgStat w) s = .next t ∧ LaneRetired cx (sp.pc + 12#64) s t ∧ LaneResult cx 2#4 (fun _ => 0#32) s t)

/-- A copy's warp back at its checkpoint: what places it and what the group counts goes on (R335, R336); `owes` where the
word of its commit point lies before it and the partner has passed it: it takes what that action delivered again. -/
def AtCheckpoint (c w w' : Warp) (owes : Bool) : Prop :=
  w' = { c with
    hw := w.hw, core := w.core, slot := w.slot, rginj := w.rginj, watch := w'.watch, cancelled := w.cancelled, rg := w'.rg
    slotA := w'.slotA, slotB := w'.slotB, stack := w'.stack } ∧
  ∀ h, w.rg = some h → c.rg.isSome = true → ∃ h', w'.rg = some h' ∧ h'.mismatches = h.mismatches + 1 ∧
    h'.rollbacks = min 65535 (h.rollbacks + 1) ∧ h'.inject = h.inject ∧ h'.injCount = h.injCount ∧ h'.drops = [] ∧
    h'.granted = owes ∧ h'.mail = (if owes then h.mail else []) ∧ h'.grant = (if owes then h.grant else none)

/-- A trap is raised in the split of a checkpoint that issued last, and in no other. -/
def RaisedLatest (c w : Warp) (r : Raised) : Prop :=
  ∃ o ∈ c.splits, (∀ z ∈ c.splits, z.issued ≤ o.issued) ∧
    ∃ q ∈ w.splits, q.id = o.id ∧ q.pc = o.pc ∧ q.mask = o.mask ∧ q.raised = o.raised ++ [r]

/-- R333 to R338: where both copies stand at a commit point and agree, RG_COMMIT writes the held entries of the
leading warp in order, frees what it dropped, lets both go past the word and takes their checkpoints; copies that
met different ends, or a mismatch noted in one, return to their checkpoints with the entries discarded, and the
third time RGMISMATCH is raised in both; the same end at the same word commits the agreed entries and ends both.
RGINJ_FIRE inverts one bit of one lane of the register last named in D, once, after the N-th word; RG.STAT reads
role, counts and lead. What the spec leaves open and the model settles in it: How the copies of a redundant group
keep step (log 53); What counts as a mismatch, and what an abnormal end commits (log 54); Checkpoints of a redundant
copy: their bytes, what a rollback restores, and what waits for a commit point (log 55). -/
def Obligations.RedundantGroups : Prop :=
  (∀ (s : State) (p : Pair) (g h : RgCopy), pairOf s = some p → ((allWarps s).map (·.id)).Nodup →
    p.lead.id ≠ p.trail.id → p.lead.rg = some g → p.trail.rg = some h →
    let held := ((leadTeam s p.lead).map fun t => t.held.filter fun e => e.warp == p.lead.id).getD []
    let clear (t : State) : Prop := ∀ tm ∈ t.teams, (∀ e ∈ tm.held, e.warp ≠ p.lead.id) ∧ ∀ e ∈ tm.fwd, e.warp ≠ p.lead.id
    (pairMove s p = .stay → exec .rgCommit s = .next s) ∧
    (∀ x, pairMove s p = .go x → p.lead.epoch = none → Ordered s → (∀ e ∈ held, ∀ b ∈ e.bytes, b.1 < spBase) →
      let cells := held.flatMap (·.bytes)
      (cells.map fun b => home s b.1).Nodup →
      ∃ t a b, exec .rgCommit s = .next t ∧ clear t ∧ (∀ c ∈ cells, memGet t.mem (home s c.1) = c.2) ∧
        SameMemoryBut (cells.map fun c => home s c.1) s t ∧ warpById t p.lead.id = some a ∧ warpById t p.trail.id = some b ∧
        a = { p.lead with rg := a.rg, slotA := a.slotA, slotB := a.slotB, acc := a.acc } ∧
        b = { p.trail with rg := b.rg, slotA := b.slotA, slotB := b.slotB, acc := b.acc } ∧
        a.rg = some { g with mismatches := 0, granted := true, grant := some x, drops := [] } ∧
        b.rg = some { h with mismatches := 0, granted := true, grant := some x } ∧ a.acc ≠ .commit ∧ b.acc ≠ .commit ∧
        ∀ c ∈ t.checkpoints, (c.id = p.lead.id → ∃ v, a.rg = some v ∧
            c = { a with rg := some { v with granted := false, grant := none } }) ∧
          (c.id = p.trail.id → ∃ v, b.rg = some v ∧ c = { b with rg := some { v with granted := false, grant := none } })) ∧
    (∀ a b c d, g.ending = some a → h.ending = some b → a ≠ b → p.lead.ended = none → p.trail.ended = none →
      g.killed = 0#32 → h.killed = 0#32 → s.checkpoints.find? (fun x => x.id == p.lead.id) = some c →
      s.checkpoints.find? (fun x => x.id == p.trail.id) = some d → c.rg.isSome = true → d.rg.isSome = true →
      c.id = p.lead.id → d.id = p.trail.id →
      c.splits ≠ [] → d.splits ≠ [] →
      ∃ t x y, exec .rgCommit s = .next t ∧ SameMemory s t ∧ clear t ∧ warpById t p.lead.id = some x ∧
        warpById t p.trail.id = some y ∧ AtCheckpoint c p.lead x (g.granted && !h.granted) ∧
        AtCheckpoint d p.trail y (h.granted && !g.granted) ∧
        (g.mismatches < 2 → x.slotA = c.slotA ∧ x.slotB = c.slotB ∧ x.stack = c.stack ∧
          y.slotA = d.slotA ∧ y.slotB = d.slotB ∧ y.stack = d.stack) ∧
        (2 ≤ g.mismatches →
          let r : Raised := { code := Code.rgmismatch, lanes := none, detail := 0#16, info := 0#64 }
          RaisedLatest c x r ∧ RaisedLatest d y r)) ∧
    (∀ a : BitVec 8 × DWord, g.ending = some a → h.ending = some a → a.1 ≠ Code.noted → allAgreed s p.lead = true →
      s.mapped = [] → p.lead.ended = none → p.trail.ended = none → p.lead.epoch = none → Ordered s →
      (∀ e ∈ held, ∀ b ∈ e.bytes, b.1 < spBase) →
      let cells := held.flatMap (·.bytes)
      (cells.map fun b => home s b.1).Nodup →
      ∃ t, exec .rgCommit s = .next t ∧ clear t ∧ (∀ c ∈ cells, memGet t.mem (home s c.1) = c.2) ∧
        SameMemoryBut (cells.map fun c => home s c.1) s t ∧ t.warp.id = s.warp.id ∧ t.warp.endPc = a.2 ∧
        ∀ w ∈ allWarps t, w.id = p.lead.id ∨ w.id = p.trail.id →
          w.ended = some (if a.1 = 0#8 then 0#8 else 1#8, a.1))) ∧
  (∀ (s : State) (g : RgCopy) (n lane bit : Nat), s.warp.rg = some g → g.trailing = true → g.inject = some (n, lane, bit) →
    (g.injCount ≠ n → exec .rginjFire s = .next s) ∧
    (g.injCount = n → lane < 32 → bit < 32 → ∃ t, exec .rginjFire s = .next t ∧
      t = { s with warp := { s.warp with
        regs := t.warp.regs, rginj := s.warp.rginj &&& ~~~(0x40000000#64), rg := some { g with inject := none } } } ∧
      (g.lastD = none → t.warp.regs = s.warp.regs) ∧
      ∀ d, g.lastD = some d → (∀ m, m ≠ d → t.warp.reg m = s.warp.reg m) ∧
        ∀ i, i < 32 → (t.warp.reg d).val.word i =
          if i = lane then (s.warp.reg d).val.word i ^^^ BitVec.ofNat 32 (2 ^ bit) else (s.warp.reg d).val.word i)) ∧
  (∀ (s : State) (w : Warp) (g : RgCopy), w.rg = some g →
    rgStatus s w 0 % 2 = 1 ∧ rgStatus s w 0 / 2 % 2 = (if g.trailing then 1 else 0) ∧
    rgStatus s w 0 / 4 % 4 = min g.mismatches 3 ∧
    (∀ t, leadTeam s w = some t → t.held.length ≤ 32 → rgStatus s w 0 / 16 % 64 = t.held.length ∧
      rgStatus s w 0 / 2 ^ 16 = min g.rollbacks 65535) ∧
    (g.trailing = false → warpById s w.id = some w → rgStatus s w 1 = g.lead))

/-- R327 to R329, R355: REPLAY_REEXECUTE computes a lane left of its entry again on the spare capacity of another
lane, and the entry leaves with its last lane; one that differs from the recorded result raises SOFTERR in the split
that issued it, or marks the line of an ended warp. POISON_DETECT marks every word of a failed granule, a lane word,
or a word of a forward, back or cluster queue; HBM_SCRUB clears no mark. What the spec leaves open and the model
settles in it: Replay, error detection and temperature: which errors strike are inputs (log 57). -/
def Obligations.ErrorsFound : Prop :=
  (∀ (core part idx lane spare : Nat) (flip : List Word) (s : State) (q : List ReplayEntry) (e : ReplayEntry),
    (coreOf s core).replay[part]? = some q → q[idx]? = some e → lane < 32 →
    (e.left.has lane = false ∨ spare = lane → exec (.replayReexecute core part idx ⟨lane, spare, flip⟩) s = .next s) ∧
    (e.left.has lane = true → spare ≠ lane →
      let left := e.left &&& ~~~(BitVec.ofNat 32 (2 ^ lane))
      let wrong := ∃ ws, e.again s lane = some ws ∧
        ws.zipIdx.map (fun p => p.1 ^^^ flip.getD p.2 0#32) ≠ e.results.map fun x => x.val.word lane
      ∃ t q', exec (.replayReexecute core part idx ⟨lane, spare, flip⟩) s = .next t ∧
        (coreOf t core).replay = (coreOf s core).replay.set part q' ∧
        q' = (if left = 0#32 then q.eraseIdx idx else q.set idx { e with left := left }) ∧
        (¬ wrong → t = { s with cores := t.cores }) ∧
        (let w := s.warp
         wrong → e.warp = w.id → w.ended = none → w.splits ≠ [] →
          ∃ o ∈ w.splits, ((∃ z ∈ w.splits, z.id = e.split) → o.id = e.split) ∧ SameMemory s t ∧
            ((∀ z ∈ w.splits, z.id ≠ e.split ∧ (e.split ≤ z.id ∨ z.mask &&& e.mask = 0#32)) → ∀ z ∈ w.splits, o.id ≤ z.id) ∧
            ∃ z ∈ t.warp.splits, z.id = o.id ∧ z.pc = o.pc ∧ z.mask = o.mask ∧
              z.raised = o.raised ++ [{ code := Code.softerr, lanes := none, detail := BitVec.ofNat 16 lane, info := e.addr }]) ∧
        (wrong → (∀ w ∈ allWarps s, w.id = e.warp → w.ended.isSome = true) →
          t = { s with cores := t.cores, grids := t.grids } ∧ ∀ g, gridById s e.grid = some g →
            ∃ g', gridById t e.grid = some g' ∧ g'.lines = g.lines.map fun l =>
              if l.cluster = e.cluster ∧ l.warp = e.line then { l with status := 1#8, code := 0x0C#8 } else l))) ∧
  (∀ (s : State) (key words : Nat), ∃ t, exec (.poisonDetect (.memory key words)) s = .next t ∧
    t = { s with poison := t.poison } ∧
    ∀ n, n ∈ t.poison ↔ n ∈ s.poison ∨ (key / 4 ≤ n ∧ n < key / 4 + words)) ∧
  (∀ (s : State) (n lane : Nat), lane < 32 → ∃ t, exec (.poisonDetect (.register n lane)) s = .next t ∧
    t = { s with warp := { s.warp with regs := t.warp.regs } } ∧ (∀ m, m ≠ n → t.warp.reg m = s.warp.reg m) ∧
    t.warp.reg n = { s.warp.reg n with poison := (s.warp.reg n).poison ||| BitVec.ofNat 32 (2 ^ lane) }) ∧
  (∀ (s : State) (q index lane : Nat) (e : QEntry), q < 8 → lane < 32 → (s.warp.fq.getD q [])[index]? = some e →
    ∃ t e', exec (.poisonDetect (.queue q index lane)) s = .next t ∧ t = { s with warp := { s.warp with fq := t.warp.fq } } ∧
      (∀ m, m ≠ q → t.warp.fq.getD m [] = s.warp.fq.getD m []) ∧ t.warp.fq.getD q [] = (s.warp.fq.getD q []).set index e' ∧
      e' = { e with poison := e'.poison } ∧
      (e.vec = true → e'.poison.has lane = true) ∧ (e.vec = false → e'.poison.has 0 = true)) ∧
  (∀ (s : State) (k index lane : Nat) (e : BEntry), k < 2 → lane < 32 → (s.warp.bq.getD k [])[index]? = some e →
    ∃ t e', exec (.poisonDetect (.backQueue k index lane)) s = .next t ∧ t = { s with warp := { s.warp with bq := t.warp.bq } } ∧
      (∀ m, m ≠ k → t.warp.bq.getD m [] = s.warp.bq.getD m []) ∧ t.warp.bq.getD k [] = (s.warp.bq.getD k []).set index e' ∧
      e' = { e with poison := e'.poison } ∧ (e.mask.has lane = true → e'.poison.has lane = true)) ∧
  (∀ (s : State) (ctx hw q index word : Nat) (e : CqEntry), word < 8 → (queueAt s ctx hw q).all[index]? = some e →
    ∃ t e', exec (.poisonDetect (.clusterQueue ctx hw q index word)) s = .next t ∧ t = { s with cqueues := t.cqueues } ∧
      (queueAt t ctx hw q).all = (queueAt s ctx hw q).all.set index e' ∧ e' = { e with bad := e'.bad } ∧
      ∀ n, n ∈ e'.bad ↔ n ∈ e.bad ∨ n = word) ∧
  (∀ (s : State) (stack : Nat), stack < 8 → ∃ t, exec (.hbmScrub stack) s = .next t ∧ t = { s with scrubs := t.scrubs } ∧
    Tab.find? t.scrubs stack = some s.cycle)

/-! ## Wear -/

/-- The table of R339, by temperature and activity class. -/
def wearEntry (temp activity : Nat) : Nat :=
  ([[1, 3, 5, 7], [1, 4, 6, 8], [2, 5, 8, 10], [3, 7, 11, 14], [5, 10, 16, 20]].getD temp []).getD activity 0

/-- R340: the last state that the thresholds of a period lead to. -/
def StateAfter (old : WearState) (wu drift emf : Nat) (failed : Bool) (new : WearState) : Prop :=
  let meet (pct d e : Nat) : Prop := 220903200000 * pct ≤ wu * 100 ∨ d ≤ drift ∨ e ≤ emf
  let worn := meet 90 60 85
  let spent := meet 97 80 95
  let dead := meet 100 100 100
  let live := old = .healthy ∨ old = .derated ∨ old = .unknown
  (old = .retired → new = .retired) ∧ (old = .marked → new = .marked) ∧
  (old = .drained → (dead → new = .marked) ∧ (¬ dead → new = .drained)) ∧
  (live → dead → new = .marked) ∧ (live → ¬ dead → spent → new = .drained) ∧
  (live → ¬ dead → ¬ spent → (old = .healthy → (worn → new = .derated) ∧ (¬ worn → new = if failed then .unknown else .healthy)) ∧
    (old ≠ .healthy → new = old))

/-- R339, R340, R342 to R344: a wear period advances WU by the table, by the temperature and the share of the
period's 48,000,000 issue places that lane instructions took, halved and rounded up at the low voltage and doubled
at the high one, and moves the state by the thresholds; a context and grid that alone issued, and its request, are
charged all of it, the charges of several make up all of it, no one is charged in an idle period; WEAR.RD reads the
figures; WEAR_RECORD_WRITE writes both copies of the lifetime record under a digest and a newer generation;
WEAR_LOAD loads the newer copy that checks and retires the marked cores. What the spec leaves open and the model
settles in it: Wear: shares, thresholds, marks, records (log 58); Layout of the lifetime record that its digest
covers (log 59). -/
def Obligations.Wear : Prop :=
  (∀ (core : Nat) (r : WearReading) (s : State), s.start ≠ .off → r.temp < 5 → r.volt < 3 →
    let c := coreOf s core
    let total := (c.issued.map (·.2)).sum
    let n := wearEntry r.temp (if total = 0 then 0 else if total < 12000000 then 1 else if total < 24000000 then 2 else 3)
    let adv := if r.volt = 0 then (n + 1) / 2 else if r.volt = 1 then n else 2 * n
    ∃ t st, exec (.wearPeriod core r) s = .next t ∧ StateAfter c.wear (c.wu + adv) r.drift r.emf r.monitorFailed st ∧
      coreOf t core = { c with
        wu := c.wu + adv, drift := r.drift, emf := r.emf, issued := [], sinceTest := c.sinceTest + 1, wear := st } ∧
      (∀ k, k ≠ core → coreOf t k = coreOf s k) ∧
      t = { s with cores := t.cores, contexts := t.contexts, grids := t.grids, requests := t.requests } ∧
      (total = 0 → t.contexts = s.contexts ∧ t.grids = s.grids ∧ t.requests = s.requests) ∧
      (0 < total → (s.grids.map (·.id)).Nodup → (∀ p ∈ c.issued, ∃ g ∈ s.grids, g.id = p.1 % 2 ^ 32) →
        (t.grids.map (·.wear)).sum = (s.grids.map (·.wear)).sum + adv) ∧
      (∀ ctx gid k x g, c.issued = [(ctx * 2 ^ 32 + gid, k)] → 0 < k → gid < 2 ^ 32 → Tab.find? s.contexts ctx = some x →
        gridById s gid = some g → Tab.find? t.contexts ctx = some { x with wear := x.wear + adv } ∧
          gridById t gid = some { g with wear := g.wear + adv } ∧
          ∀ q, reqById s g.req = some q → reqById t g.req = some { q with wear := q.wear + adv })) ∧
  (∀ (w : Strip) (f : LaneForm) (sp : Split) (s : State), LaneReady (.wearRd w) f w sp s →
    let cx := cxOf s f w sp
    let c := coreOf s s.warp.coreIx
    let code := match c.wear with | .healthy => 0 | .derated => 1 | .drained => 2 | .unknown => 4 | _ => 3
    let mine := s.teams.filter fun t => t.grid == s.warp.grid && t.cluster == s.warp.cluster
    cx.p ≠ 0#32 → genericDeaths cx = 0#32 →
    ∀ v, (Form.xf w 2 0 = 0 → v = c.wu) → (Form.xf w 2 0 = 1 → ∀ x, Tab.find? s.contexts s.warp.ctx = some x → v = x.wear) →
      (Form.xf w 2 0 = 1 → (Tab.find? s.contexts s.warp.ctx).isSome = true) →
      (Form.xf w 2 0 = 2 → v = code + c.drift % 256 * 2 ^ 8 + c.emf % 256 * 2 ^ 16) → (Form.xf w 2 0 = 3 → v = 220903200000) →
      (Form.xf w 2 0 = 4 → v = (mine.map fun t => (coreOf s t.coreIx).wu).sum) →
      ∃ t, exec (.wearRd w) s = .next t ∧ LaneRetired cx (sp.pc + 12#64) s t ∧
        LanePromised [{ n := cx.d, mask := cx.p, tag := 2#4, word := fun _ => BitVec.ofNat 32 v },
          { n := cx.d + 1, mask := cx.p, tag := 2#4, word := fun _ => BitVec.ofNat 32 (v / 2 ^ 32) }] [] s t) ∧
  (∀ s : State, s.start = .ready → ∃ t, exec .wearRecordWrite s = .next t ∧ t = { s with lifeA := t.lifeA, lifeB := t.lifeA } ∧
    t.lifeA.checks = true ∧ t.lifeA.generation = (max s.lifeA.generation s.lifeB.generation + 1) % 2 ^ 64 ∧
    t.lifeA.lines.length = 640 ∧ ∀ k, k < 640 → ∃ l, t.lifeA.lines[k]? = some l ∧ l = {
      core := k, wu := (coreOf s k).wu, drift := (coreOf s k).drift, emf := (coreOf s k).emf, wear := (coreOf s k).wear
      calib := (coreOf s k).calib, hours := (coreOf s k).sinceTest / 360000 }) ∧
  (∀ s : State, s.start = .wear →
    let extra := if s.orderly then 0 else 240000
    ∃ t, exec .wearLoad s = .next t ∧ t = { s with
        start := .fabric, incarnation := (s.incarnation + 1) % 2 ^ 16, cores := t.cores, lifeA := t.lifeA, lifeB := t.lifeB } ∧
      ∀ r, (r = s.lifeA ∧ r.checks = true ∧ (s.lifeB.checks = false ∨ s.lifeB.generation ≤ r.generation) ∨
          r = s.lifeB ∧ r.checks = true ∧ (s.lifeA.checks = false ∨ s.lifeA.generation < r.generation)) →
        s.lifeA.written = true → s.lifeB.written = true → (r.lines.map (·.core)).Nodup → r.rebuilt = false →
        ∀ l ∈ r.lines, coreOf t l.core = { coreOf s l.core with
          wu := l.wu + extra, drift := l.drift, emf := l.emf, calib := l.calib, sinceTest := l.hours * 360000
          wear := if l.wear = .marked ∨ (coreOf s l.core).wear = .marked then .retired else l.wear })

/-! ## Start-up and power -/

/-- What an end of power or of a start leaves of the package: nothing but its nonvolatile store, the count of failed
starts, the chip's number and incarnation, the marks of cores that retire (R340, log 58), and the model's own counters; memory of other
packages is theirs (R357), and the cycles count from 0 (R231). -/
def PoweredDown (s t : State) : Prop :=
  t = { State.reset with
    agenda := s.agenda, plan := s.plan, turn := s.turn, draws := s.draws, nextId := s.nextId, cores := t.cores
    start := t.start, cold := t.cold, failedStarts := t.failedStarts, incarnation := s.incarnation, chip := s.chip
    fwStore := s.fwStore, orderly := t.orderly, lifeA := t.lifeA, lifeB := t.lifeB
    mem := t.mem, poison := t.poison, hist := t.hist, serial := s.serial } ∧
  (∀ c k, (c, k) ∈ t.cores ↔ k = { Core.init with wear := .marked } ∧
    ∃ o, (c, o) ∈ s.cores ∧ (o.wear = .marked ∨ o.wear = .retired))

/-- The package's own memory and scratchpads: its stacks' keys, and every scratchpad's. -/
def OwnKey (s : State) (k : Nat) : Prop := spBase ≤ k ∨ k / 2 ^ 39 = s.chip

/-- R344, R357, R359: a start goes through its states in order, from OFF or, warm, from READY; a step that fails
leads to OFF, the third time to RECOVERY; a cold start tests the cores and clears the memory, a warm one skips both,
one whose stored settings fail goes on cold; READY clears the count; an end of power empties the package, an orderly
one after both copies of the lifetime record are written; a window above 3,200 W derates, one below 3,050 W lifts
it. What the spec leaves open and the model settles in it: Contents of memory and scratchpad that nothing has
written: the byte 0 (log 2); Reset values the spec does not give (nonvolatile counters, chip number, wear, rows,
planes, timestamps, ports, loader registers, the model's own fields) (log 3); Wear: shares, thresholds, marks,
records (log 58); Starts: warm, cold, and what is kept (log 64). -/
def Obligations.Start : Prop :=
  (∀ s : State, (s.start = .off → exec .suppliesUp s = .next { s with start := .fuse, cycle := 0 }) ∧
    (s.start = .ready → ∃ t, exec .suppliesUp s = .next t ∧ t.start = .fuse ∧ t.cold = false ∧
      t.failedStarts = s.failedStarts ∧ PoweredDown s t ∧ SameMemory s t)) ∧
  (∀ s : State, s.start = .fuse → exec .fuseRead s = .next { s with start := .rom }) ∧
  (∀ s : State, s.start = .rom → (∀ image older, s.fwStore = image :: older →
    exec .romLoad s = .next { s with fwRunning := image, start := .fwchk })) ∧
  (∀ s : State, s.start = .fwchk → Config.firmwareVerifies s.fwRunning = true →
    exec .fwVerify s = .next { s with start := .hbm }) ∧
  (∀ (i : Instr) (s : State), (i = .fwVerify ∧ s.start = .fwchk ∧ Config.firmwareVerifies s.fwRunning = false) ∨
      (i = .romLoad ∧ s.start = .rom ∧ s.fwStore = []) ∨
      (i = .startFail ∧ s.start ≠ .off ∧ s.start ≠ .ready ∧ s.start ≠ .recovery) →
    ∃ t, exec i s = .next t ∧ PoweredDown s t ∧ t.failedStarts = s.failedStarts + 1 ∧
      t.start = (if 3 ≤ s.failedStarts + 1 then .recovery else .off) ∧ t.cold = s.cold) ∧
  (∀ (checked : Bool) (s : State), s.start = .hbm →
    exec (.hbmInit checked) s = .next { s with start := .wear, cold := if checked then s.cold else true }) ∧
  (∀ s : State, s.start = .fabric → exec .fabricBringup s = .next { s with start := .scan }) ∧
  (∀ (failing : List Nat) (s : State), s.start = .scan →
    (s.cold = false → exec (.scanSelfTest failing) s = .next { s with start := .clear }) ∧
    (s.cold = true → ∃ t, exec (.scanSelfTest failing) s = .next t ∧ t = { s with start := .clear, cores := t.cores } ∧
      ∀ n, coreOf t n = if n ∈ failing ∧ n < 640 ∧ (coreOf s n).wear ≠ .retired then { coreOf s n with wear := .marked }
        else coreOf s n)) ∧
  (∀ s : State, s.start = .clear → ∃ t, exec .memoryClear s = .next t ∧
    t = { s with
      start := .ready, failedStarts := 0, cold := false, orderly := true, mem := t.mem, poison := t.poison, hist := t.hist } ∧
    (s.cold = false → SameMemory s t) ∧
    (s.cold = true → ∀ k, (OwnKey s k → memGet t.mem k = 0#8) ∧ (¬ OwnKey s k → memGet t.mem k = memGet s.mem k))) ∧
  (∀ s : State, ∃ t, exec .powerLoss s = .next t ∧ t.start = .off ∧ t.cold = true ∧ PoweredDown s t ∧
    t.failedStarts = s.failedStarts ∧ t.lifeA = s.lifeA ∧ t.lifeB = s.lifeB ∧ (s.start ≠ .off → t.orderly = false) ∧
    ∀ k, ¬ OwnKey s k → memGet t.mem k = memGet s.mem k) ∧
  (∀ s : State, s.start = .ready → ∃ t r, exec .orderlyShutdown s = .next t ∧ exec .wearRecordWrite s = .next r ∧
    t.start = .off ∧ t.cold = true ∧ t.orderly = true ∧ PoweredDown s t ∧ t.lifeA = r.lifeA ∧ t.lifeB = r.lifeB) ∧
  (∀ (mw : Nat) (s : State), (3200000 < mw → exec (.powerWindow mw) s = .next { s with powerDerated := true }) ∧
    (mw < 3050000 → exec (.powerWindow mw) s = .next { s with powerDerated := false }) ∧
    (3050000 ≤ mw → mw ≤ 3200000 → exec (.powerWindow mw) s = .next s))

/-! ## The host ports -/

/-- A command of a mailbox that may run: the package is READY, the mailbox is free, a virtual function issues none but
those of its own. -/
structure MayRun (c : Cmd) (vf : Bool) (s : State) : Prop where
  ready : s.start = .ready
  known : c.fn ≤ 16
  free : (boxOf s c).busy = none
  allowed : c.fn ≠ 0 → vf = true

/-- The port holds semaphore n of IOD0 (R352). -/
def HoldsSem (s : State) (p : HostPort) (n : Nat) : Prop := s.sems0[n]? = some (0x80000000#32 ||| (match p with | .a => 1#32 | .b => 2#32))

/-- A port after a command of the mailbox ended with this STATUS, which stands in its record as well, with a RESULT where
the command has one, and signalled vector 0; its other mailboxes, its windows and its BAR stay. That a result stands in
bytes 56 to 63 of the record is the model's choice (log 65). -/
def BoxEnded (c : Cmd) (status : Nat) (result : Option DWord) (p q : Port) : Prop :=
  let old := Tab.getD p.boxes c.fn Mailbox.init
  let answered := match result with | some r => poke old.record 64 56 (toBytesLE 8 r.toNat) | none => old.record
  q = { p with boxes := q.boxes } ∧ (∀ n, n ≠ c.fn → Tab.find? q.boxes n = Tab.find? p.boxes n) ∧
    Tab.find? q.boxes c.fn = some { old with
      status := BitVec.ofNat 32 status, result := result.getD old.result, record := poke answered 64 4 (toBytesLE 4 status)
      signals := old.signals + 1 }

/-- A command completed with this STATUS and RESULT, and vector 0 was signalled; the machine is otherwise `s1`. -/
def Completed (i : Instr) (c : Cmd) (s : State) (status : Nat) (result : Option DWord) (s1 : State → State) : Prop :=
  ∃ t, exec i s = .next t ∧ t = { s1 t with portA := t.portA, portB := t.portB } ∧
    BoxEnded c status result (portOf s c.port) (portOf t c.port) ∧ ∀ p, p ≠ c.port → portOf t p = portOf s p

/-- Bytes written over a list from a place on. -/
def Overwritten (old : List Byte) (at_ : Nat) (bs : List Byte) (size : Nat) (new : List Byte) : Prop :=
  ∀ n, n < size → new.getD n 0#8 = if at_ ≤ n ∧ n < at_ + bs.length then bs.getD (n - at_) 0#8 else old.getD n 0#8

/-- A state after a write of a window's record, from one of its bytes on. -/
def RecordWritten (c : Cmd) (win at_ : Nat) (bs : List Byte) (s t : State) : Prop :=
  let w := windowAt (portOf s c.port) (8 * c.fn + win)
  let w' := windowAt (portOf t c.port) (8 * c.fn + win)
  t = { s with portA := t.portA, portB := t.portB } ∧ w' = { w with record := w'.record } ∧
    Overwritten w.record at_ bs 160 w'.record

/-- A state after a write of a mailbox's record. -/
def BoxWritten (c : Cmd) (at_ : Nat) (bs : List Byte) (s t : State) : Prop :=
  t = { s with portA := t.portA, portB := t.portB } ∧ boxOf t c = { boxOf s c with record := (boxOf t c).record } ∧
    Overwritten (boxOf s c).record at_ bs 64 (boxOf t c).record

/-- First offsets of the windows and of the mailbox in BAR0 of a function (R349). -/
def windowsAt (fn : Nat) : Nat := if fn = 0 then 0x10000 else 0
def mailboxAt (fn : Nat) : Nat := if fn = 0 then 0x20000 else 0x1000

/-- R288, R348 to R350, R352, R194, R197: where its port presents the semaphores a write acquires a free one for its
port or releases one of its own and changes none else; a link that goes down, or a function reset, releases the
port's; the identity registers ignore writes; a window's record and the mailbox's record keep what is written, a
write that reaches SUBMIT submits the record and one that reaches DOORBELL runs the command in it; the registers
read back; a host write of mapped memory lands on path H, a host read returns the bytes and the records it reads
count as seen. Where the operands of a command stand in the record, and the first identity word, are the model's
choices (log 65). What the spec leaves open and the model settles in it: Functions, windows, mailboxes and registers
of the host ports (log 65). -/
def Obligations.HostAccesses : Prop :=
  (∀ (i : Instr) (port : HostPort) (iod : Bool) (n : BitVec 4) (s : State),
    let old := (if iod then s.sems1 else s.sems0).getD n.toNat 0#32
    let mine : Word := match port with | .a => 0x80000001#32 | .b => 0x80000002#32
    let becomes (v : Word) : Prop := ∃ t, exec i s = .next t ∧ t = { s with sems0 := t.sems0, sems1 := t.sems1 } ∧
      (if iod then t.sems1 else t.sems0).getD n.toNat 0#32 = v ∧ (if iod then t.sems0 = s.sems0 else t.sems1 = s.sems1) ∧
      ∀ m, m < 16 → m ≠ n.toNat → (if iod then t.sems1 else t.sems0).getD m 0#32 = (if iod then s.sems1 else s.sems0).getD m 0#32
    let shown := s.start ≠ .off ∧ s.start ≠ .recovery
    (¬ shown → i = .semAcquire port iod n ∨ i = .semRelease port iod n → exec i s = .next s) ∧
    (shown → (i = .semAcquire port iod n → (old = 0#32 → becomes mine) ∧ (old ≠ 0#32 → becomes old)) ∧
      (i = .semRelease port iod n → (old = mine → becomes 0#32) ∧ (old ≠ mine → becomes old)))) ∧
  (∀ (port : HostPort) (reset : Bool) (s : State),
    let mine : Word := match port with | .a => 0x80000001#32 | .b => 0x80000002#32
    ∃ t, exec (.hostLinkDown ⟨port, reset⟩) s = .next t ∧ t = { s with sems0 := t.sems0, sems1 := t.sems1 } ∧
      ∀ m, m < 16 → t.sems0.getD m 0#32 = (if s.sems0.getD m 0#32 = mine then 0#32 else s.sems0.getD m 0#32) ∧
        t.sems1.getD m 0#32 = if s.sems1.getD m 0#32 = mine then 0#32 else s.sems1.getD m 0#32) ∧
  (∀ (c : Cmd) (off : Nat) (bytes : List Byte) (s : State),
    (c.fn = 0 → off < 0x10000 → exec (.hostRegWrite c off bytes) s = .next s) ∧
    (∀ win at_, s.start = .ready → c.fn ≤ 16 → win < 8 → off = windowsAt c.fn + 256 * win + at_ →
      (at_ + bytes.length ≤ 160 → at_ < 160 → ∃ t, exec (.hostRegWrite c off bytes) s = .next t ∧ RecordWritten c win at_ bytes s t) ∧
      (at_ < 168 → 160 < at_ + bytes.length → ∃ u, RecordWritten c win at_ bytes s u ∧
        exec (.hostRegWrite c off bytes) s = exec (.taskSubmit c (BitVec.ofNat 3 win)) u)) ∧
    (∀ at_, s.start = .ready ∨ s.start = .recovery → c.fn ≤ 16 → at_ < 64 → off = mailboxAt c.fn + at_ →
      (at_ + bytes.length ≤ 64 → ∃ t, exec (.hostRegWrite c off bytes) s = .next t ∧ BoxWritten c at_ bytes s t) ∧
      (64 < at_ + bytes.length → ∃ u, BoxWritten c at_ bytes s u ∧
        let r := (boxOf u c).record
        let runs (k : Cmd → Instr) : Prop := exec (.hostRegWrite c off bytes) s = exec (k c) u
        (field r 0 4 = 0x02 → runs fun c => .ctxDestroy c (field r 8 4)) ∧
        (field r 0 4 = 0x04 → field r 8 4 < 2 ^ 16 →
          (field r 12 1 = 0 → runs fun c => .domClear c (BitVec.ofNat 16 (field r 8 4))) ∧
          (field r 12 1 = 1 → runs fun c => .domClose c (BitVec.ofNat 16 (field r 8 4))) ∧
          (2 ≤ field r 12 1 → runs fun c => .unlistedCommandCode c 4#32)) ∧
        (field r 0 4 = 0x05 → runs fun c => .preempt c (field r 8 4)) ∧
        (field r 0 4 = 0x06 → runs fun c => .inval c (BitVec.ofNat 64 (field r 8 8))) ∧
        (field r 0 4 = 0x07 → runs fun c => .peerseq c (field r 8 4)) ∧
        (field r 0 4 = 0x08 → runs fun c => .peerfail c (field r 8 4)) ∧
        (field r 0 4 = 0x0A → runs fun c => .fwUpdate c (BitVec.ofNat 64 (field r 8 8)) (field r 16 8)) ∧
        (field r 0 4 = 0x0C → runs fun c => .window c (BitVec.ofNat 64 (field r 8 8))) ∧
        (field r 0 4 = 0 ∨ 0x0D ≤ field r 0 4 → runs fun c => .unlistedCommandCode c (BitVec.ofNat 32 (field r 0 4)))))) ∧
  (∀ (port : HostPort) (fn off len : Nat) (s : State), s.start = .ready → fn ≤ 16 →
    ∃ t, exec (.hostDma port off (.regs fn len)) s = .next t ∧ t = { s with portA := t.portA, portB := t.portB } ∧
      let data := (portOf t port).data
      let holds (a : Nat) (bs : List Byte) : Prop := off = a → len = bs.length → data = bs
      (fn = 0 → holds 0 (toBytesLE 4 4512)) ∧
      (∀ m, Tab.find? (portOf s port).boxes fn = some m → m.record.length = 64 → holds (mailboxAt fn) m.record) ∧
      (∀ win, win < 8 → let w := windowAt (portOf s port) (8 * fn + win)
        holds (windowsAt fn + 256 * win + 168) (toBytesLE 4 (64 - w.queued) ++ toBytesLE 4 (if w.dropped then 1 else 0))) ∧
      (∀ n, fn = 0 → n < 16 → holds (0x30000 + 4 * n) (toBytesLE 4 (s.sems0.getD n 0#32).toNat))) ∧
  (∀ (port : HostPort) (off : Nat) (bs : List Byte) (s s1 : State) (k : Nat), s.start = .ready → off + bs.length ≤ 2 ^ 36 → bs ≠ [] →
    let va := (portOf s port).bar2 + BitVec.ofNat 64 off
    va.toNat % 2 ^ 18 + bs.length ≤ 2 ^ 18 → unitPlace s (portOf s port).bar2Ctx .write va = (some k, s1) →
    (∀ r ∈ s.hist, (hostView s).sees .h r = true) → ((keysFrom k bs.length).map (home s)).Nodup →
    ∃ t, exec (.hostDma port off (.write bs)) s = .next t ∧ bytesAt t (keysFrom k bs.length) = bs ∧
      SameMemoryBut ((keysFrom k bs.length).map (home s)) s t ∧ t.warp = s.warp ∧ t.others = s.others ∧
      ∀ r ∈ t.hist, r ∈ s.hist ∨ r.path = .h) ∧
  (∀ (port : HostPort) (off len : Nat) (s s1 : State) (k : Nat), s.start = .ready → off + len ≤ 2 ^ 36 → 0 < len →
    let va := (portOf s port).bar2 + BitVec.ofNat 64 off
    va.toNat % 2 ^ 18 + len ≤ 2 ^ 18 → unitPlace s (portOf s port).bar2Ctx .read va = (some k, s1) →
    (∀ r ∈ s.hist, (hostView s).sees .h r = true) →
    ∃ t, exec (.hostDma port off (.read len)) s = .next t ∧ (portOf t port).data = bytesAt s (keysFrom k len) ∧
      t = { s with tlb := t.tlb, hostSeen := t.hostSeen, portA := t.portA, portB := t.portB } ∧ s.hostSeen <+: t.hostSeen ∧
      ∀ c ∈ s.crecs, keysFrom c.1 4 ⊆ keysFrom k len → bytesAt s (keysFrom c.1 4) = toBytesLE 4 0x5243344B → c.2 ∈ t.hostSeen)

/-- R240, R261, R272, R350: CTX.CREATE makes a context under the lowest free number, CTX.DESTROY takes an idle one
away and answers 3 for a busy one; DOM.OPEN opens a closed domain with its salt and an empty catalogue and answers 3
for an open one, DOM.CLEAR and DOM.CLOSE empty the catalogue; INVAL drops the page from every translation cache;
PEERSEQ returns the last applied write number; WINDOW sets the base of BAR2; a code not listed, and a privileged
command through a virtual function, answer 1; a command without its semaphore answers 2 and does nothing. What the
spec leaves open and the model settles in it: Functions, windows, mailboxes and registers of the host ports (log
65); Commands: context numbers, operand checks, DOM.CLEAR, FW.UPDATE, attestation (log 66). -/
def Obligations.HostCommands : Prop :=
  (∀ (c : Cmd) (o : CtxOperands) (s : State), MayRun c false s → HoldsSem s c.port 6 →
    1 ≤ o.n → o.n ≤ 25 → o.root % 2 ^ 10 = 0 → o.root < 2 ^ 39 → o.seqbase.toNat < 2 ^ 57 → o.tvec.toNat < 2 ^ 57 →
    o.tvec.toNat % 256 = 0 →
    ∃ n, Tab.find? s.contexts n = none ∧ (∀ m, m < n → (Tab.find? s.contexts m).isSome = true) ∧
      Completed (.ctxCreate c o) c s 0 (some (BitVec.ofNat 64 n)) fun _ => { s with contexts := Tab.put s.contexts n {
        root := o.root, n := o.n, seqbase := o.seqbase, nseq := o.nseq, tvec := o.tvec, redundant := o.redundant
        priv := o.priv, wear := 0 } }) ∧
  (∀ (c : Cmd) (ctx : Nat) (s : State), MayRun c false s → HoldsSem s c.port 6 →
    let busy := (∃ w ∈ allWarps s, w.ctx = ctx ∧ w.ended = none) ∨ ∃ x ∈ s.saved, ∃ w ∈ x.warps, w.ctx = ctx
    (Tab.find? s.contexts ctx = none → Completed (.ctxDestroy c ctx) c s 1 none fun _ => s) ∧
    ((Tab.find? s.contexts ctx).isSome = true → busy → Completed (.ctxDestroy c ctx) c s 3 none fun _ => s) ∧
    ((Tab.find? s.contexts ctx).isSome = true → ¬ busy → Completed (.ctxDestroy c ctx) c s 0 none (fun t => { s with
      contexts := t.contexts, images := t.images, cqueues := t.cqueues, tlb := t.tlb }) ∧
      ∃ t, exec (.ctxDestroy c ctx) s = .next t ∧ Tab.find? t.contexts ctx = none ∧
        (∀ m, m ≠ ctx → Tab.find? t.contexts m = Tab.find? s.contexts m) ∧ ∀ e ∈ t.tlb, e.ctx ≠ ctx)) ∧
  (∀ (c : Cmd) (dom : BitVec 16) (salt : DWord) (size count : Nat) (s s1 : State) (bs : List Byte), MayRun c false s →
    HoldsSem s c.port 5 → dom.toNat < 256 → size % 2 ^ 25 = 0 → 0 < size → size ≤ 2 ^ 37 →
    (∃ k, 12 ≤ k ∧ k ≤ 24 ∧ count = 2 ^ k) →
    let old := Tab.find? s.domains dom.toNat
    ((∃ d, old = some d ∧ d.isOpen = true) → Completed (.domOpen c dom salt size count) c s 3 none fun _ => s) ∧
    ((∀ d, old = some d → d.isOpen = false) → unitRead s c.ctx salt 32 = (some bs, s1) →
      Completed (.domOpen c dom salt size count) c s 0 none fun t => { s with
        tlb := t.tlb, domains := Tab.put s.domains dom.toNat {
          isOpen := true, gen := (match old with | some d => d.gen | none => 0) + 1, salt := bs, cistern := size, used := 0
          size := count, entries := [] } })) ∧
  (∀ (i : Instr) (c : Cmd) (dom : BitVec 16) (s : State), MayRun c false s → HoldsSem s c.port 5 →
    i = .domClear c dom ∨ i = .domClose c dom →
    (∀ d, Tab.find? s.domains dom.toNat = some d → d.isOpen = true →
      Completed i c s 0 none (fun t => { s with domains := t.domains }) ∧
      ∃ t, exec i s = .next t ∧ (∀ m, m ≠ dom.toNat → Tab.find? t.domains m = Tab.find? s.domains m) ∧
        Tab.find? t.domains dom.toNat = some { d with isOpen := decide (i = .domClear c dom), entries := [], used := 0 }) ∧
    ((∀ d, Tab.find? s.domains dom.toNat = some d → d.isOpen = false) → Completed i c s 1 none fun _ => s)) ∧
  (∀ (c : Cmd) (va : DWord) (s : State), MayRun c true s → Completed (.inval c va) c s 0 none fun _ =>
    { s with tlb := s.tlb.filter fun e => !(e.ctx == c.ctx && va.toNat % 2 ^ 57 / 2 ^ e.size == e.base / 2 ^ e.size) }) ∧
  (∀ (c : Cmd) (chip : Nat) (s : State), MayRun c true s →
    Completed (.peerseq c chip) c s 0 (some (BitVec.ofNat 64 ((lastApplied s chip).1 * 2 ^ 48 + (lastApplied s chip).2))) fun _ => s) ∧
  (∀ (c : Cmd) (base : DWord) (s : State), MayRun c true s → base.toNat % 2 ^ 36 = 0 → base.toNat < 2 ^ 56 →
    (Tab.find? s.contexts c.ctx).isSome = true →
      ∃ t, exec (.window c base) s = .next t ∧ t = { s with portA := t.portA, portB := t.portB } ∧
        BoxEnded c 0 none { portOf s c.port with bar2 := base, bar2Ctx := c.ctx } (portOf t c.port) ∧
        ∀ p, p ≠ c.port → portOf t p = portOf s p) ∧
  (∀ (c : Cmd) (code : Word) (s : State), MayRun c true s →
    Completed (.unlistedCommandCode c code) c s 1 none fun _ => s) ∧
  (∀ (i : Instr) (n : Nat) (c : Cmd) (s : State), s.start = .ready → c.fn ≤ 16 → (boxOf s c).busy = none →
    ((∃ o, i = .ctxCreate c o) ∧ n = 6 ∨ (∃ x, i = .ctxDestroy c x) ∧ n = 6 ∨ (∃ d a x y, i = .domOpen c d a x y) ∧ n = 5 ∨
      (∃ d, i = .domClear c d ∨ i = .domClose c d) ∧ n = 5 ∨ (∃ x, i = .peerfail c x) ∧ n = 7 ∨
      (∃ d x, i = .dieReset c d x ∧ n = d.toNat) ∨ (∃ a l, i = .fwUpdate c a l) ∧ n = 4) →
    (c.fn ≠ 0 → Completed i c s 1 none fun _ => s) ∧
    (c.fn = 0 → ¬ HoldsSem s c.port n → Completed i c s 2 none fun _ => s))

/-- R351, R356 to R358: FW.UPDATE stores a verified image and answers 4 otherwise, in RECOVERY it also ends that
state; ATTEST writes nonce, measurements, incarnation and signature, in RECOVERY at a physical address; DIE.RESET
ends the grids with a warp on the die with status 4, clears its scratchpads, stores and planes, marks the cores that
fail and renumbers no write to a peer; RECOVERY answers every other command, and FW.UPDATE through a virtual
function, with 1. What the spec leaves open and the model settles in it: DIE.RESET is one step (log 63); Commands:
context numbers, operand checks, DOM.CLEAR, FW.UPDATE, attestation (log 66); Firmware and attestation signatures are
opaque functions (log 67). -/
def Obligations.Maintenance : Prop :=
  (∀ (c : Cmd) (addr : DWord) (len : Nat) (s : State) (image : List Byte), c.fn = 0 →
    (image = (if s.start = .recovery then (keysFrom (hbmKey s.chip addr.toNat) len).map (memGet s.mem)
      else ((imageBytes s c.ctx addr len).1).getD [])) →
    (s.start = .recovery ∨ (MayRun c false s ∧ HoldsSem s c.port 4 ∧ (imageBytes s c.ctx addr len).1.isSome = true)) →
    (Config.firmwareVerifies image = true → Completed (.fwUpdate c addr len) c s 0 none fun t => { s with
      fwStore := image :: s.fwStore, tlb := t.tlb
      start := if s.start = .recovery then .off else s.start
      failedStarts := if s.start = .recovery then 0 else s.failedStarts
      cold := if s.start = .recovery then true else s.cold }) ∧
    (Config.firmwareVerifies image = false → Completed (.fwUpdate c addr len) c s 4 none fun t => { s with tlb := t.tlb })) ∧
  (∀ (c : Cmd) (nonce : List Byte) (addr : DWord) (s s1 : State) (k : Nat), nonce.length = 32 → Ordered s →
    let body := nonce ++ shake256 32 Config.fuses ++ shake256 32 Config.rom ++ shake256 32 s.fwRunning ++
      shake256 32 (toBytesLE 8 (max s.lifeA.generation s.lifeB.generation)) ++ toBytesLE 2 s.incarnation
    let report := body ++ Config.attestSignature body
    (MayRun c true s ∧ addr.toNat % 2 ^ 18 + report.length ≤ 2 ^ 18 ∧ unitPlace s c.ctx .write addr = (some k, s1)) ∨
      (s.start = .recovery ∧ c.fn ≤ 16 ∧ k = hbmKey s.chip addr.toNat) →
    ((keysFrom k report.length).map (home s)).Nodup →
    ∃ t, exec (.attest c nonce addr) s = .next t ∧ bytesAt t (keysFrom k report.length) = report ∧
      SameMemoryBut ((keysFrom k report.length).map (home s)) s t ∧ (boxOf t c).status = 0#32 ∧
      (boxOf t c).signals = (boxOf s c).signals + 1) ∧
  (∀ (c : Cmd) (die : BitVec 2) (failing : List Nat) (s : State), MayRun c false s → HoldsSem s c.port die.toNat →
    s.versions = [] → s.mapped = [] →
    let here (hw : Nat) : Prop := hw / 40 = die.toNat
    let hit (g : Grid) : Prop := g.ended = false ∧ ∃ w ∈ allWarps s, here w.hw ∧ w.ended = none ∧ w.grid = g.id
    ∃ t, exec (.dieReset c die failing) s = .next t ∧ (boxOf t c).status = 0#32 ∧
      (((allWarps s).map (·.id)).Nodup → ∀ w ∈ allWarps t, here w.hw → (∃ g, gridById s w.grid = some g ∧ g.ended = false) → w.ended.isSome = true) ∧
      (∀ g, gridById s g.id = some g → hit g → (∀ g', gridById t g.id = some g' → g'.status = 4#8) ∧
        (g.rung = none → (gridById t g.id).isSome = true)) ∧
      (∀ core k, core / 160 = die.toNat → spKey core 0 ≤ k → k < spKey core 0 + 2 ^ 19 → memGet t.mem k = 0#8) ∧
      (∀ core, core / 160 = die.toNat → (coreOf t core).planeOwner = none ∧ (coreOf t core).rows = [] ∧
        (core ∈ failing → core < 640 → (coreOf s core).wear ≠ .retired → (coreOf t core).wear = .marked) ∧
        (core ∉ failing → (coreOf t core).wear = (coreOf s core).wear)) ∧
      t.incarnation = s.incarnation ∧ ∀ x, Tab.getD s.sent x 0 ≤ Tab.getD t.sent x 0) ∧
  (∀ (i : Instr) (c : Cmd) (s : State), s.start = .recovery → c.fn ≤ 16 →
    (∃ o, i = .ctxCreate c o) ∨ (∃ x, i = .ctxDestroy c x) ∨ (∃ d a x y, i = .domOpen c d a x y) ∨ (∃ d, i = .domClear c d) ∨
      (∃ d, i = .domClose c d) ∨ (∃ x, i = .preempt c x) ∨ (∃ x, i = .inval c x) ∨ (∃ x, i = .peerseq c x) ∨
      (∃ x, i = .peerfail c x) ∨ (∃ d x, i = .dieReset c d x) ∨ (∃ x, i = .window c x) ∨ (∃ x, i = .unlistedCommandCode c x) ∨
      (c.fn ≠ 0 ∧ ∃ a l, i = .fwUpdate c a l) →
    Completed i c s 1 none fun _ => s)

/-! ## Times, other chips, the fabric -/

/-- The later of two 48-bit serial times (R192). -/
def Later (a b m : BitVec 48) : Prop := if 1 ≤ (a - b).toNat ∧ (a - b).toNat ≤ 2 ^ 47 - 1 then m = a else m = b

/-- R188, R192, R198 to R200, R353, R354: PTS_TICK adds 1 to a core's time, TIMESTAMP_SCRUB lets no time of a line
lag by more than 2^40; a write of another chip to a byte homed here, by its address or at a scratchpad that holds
it, is applied in the order of its count, held before a gap and applied once; a lease on the line's home ends at the
later of its old end and write time or requester's time plus 64, and none is granted to a failed chip;
L2_MODE_CHANGE waits for an empty package and for a context of the new mode; a negotiated link runs at 800, 400 or
200 Gb/s, with the low-latency mode at 200 alone, its group of eight ports is powered while one has a partner, and a
lost one goes down; a chip declared failed loses leases and held writes, and joins again only under a new
incarnation. What the spec leaves open and the model settles in it: Leases and timestamps are bookkeeping: they
never change a value (log 28); Times of homes and of remote requesters (log 61); Peers: held writes, incarnations,
failure, links (log 62); What one numbered write to another chip is (log 99); Any fabric port that is up is a route
to every chip of the domain (log 100). -/
def Obligations.Domain : Prop :=
  (∀ (core : Nat) (s : State), ∃ t, exec (.ptsTick core) s = .next t ∧ t = { s with cores := t.cores } ∧
    coreOf t core = { coreOf s core with pts := (coreOf s core).pts + 1#48 } ∧ ∀ n, n ≠ core → coreOf t n = coreOf s n) ∧
  (∀ (line : Nat) (s : State) (w r : BitVec 48), Tab.find? s.lineTimes line = some (w, r) →
    ∃ t w' r', exec (.timestampScrub line) s = .next t ∧ t = { s with lineTimes := Tab.put s.lineTimes line (w', r') } ∧
      ∀ p ∈ [(w, w'), (r, r')],
        let lag := (homeTime s - p.1).toNat
        (2 ^ 40 < lag → lag < 2 ^ 47 → (homeTime s - p.2).toNat = 2 ^ 40) ∧ (lag ≤ 2 ^ 40 ∨ 2 ^ 47 ≤ lag → p.2 = p.1)) ∧
  (∀ (src inc n key : Nat) (bs : List Byte) (s : State), n < 2 ^ 48 → src ∉ s.failedChips → key < spBase →
    key / 2 ^ 39 = s.chip ∨ spBase ≤ home s key →
    let num := inc * 2 ^ 48 + n
    let last := lastApplied s src
    (inc < last.1 ∨ (inc = last.1 ∧ n ≤ last.2) → exec (.remoteWriteApply src num key bs) s = .next s) ∧
    (inc = last.1 → last.2 + 1 < n → exec (.remoteWriteApply src num key bs) s = .next { s with
      heldWrites := s.heldWrites ++ [{ src := src, num := num, key := key, bytes := bs }] }) ∧
    (inc = last.1 → n = last.2 + 1 → (∀ h ∈ s.heldWrites, h.src = src → h.num ≠ num + 1) → Ordered s →
      ((keysFrom key bs.length).map (home s)).Nodup →
      ∃ t, exec (.remoteWriteApply src num key bs) s = .next t ∧ lastApplied t src = (inc, n) ∧ t.heldWrites = s.heldWrites ∧
        (∀ x, x ≠ src → lastApplied t x = lastApplied s x) ∧ bytesAt t (keysFrom key bs.length) = bs ∧
        SameMemoryBut ((keysFrom key bs.length).map (home s)) s t ∧ t.warp = s.warp ∧ t.others = s.others) ∧
    (last.1 < inc → n = 1 → Ordered s → ((keysFrom key bs.length).map (home s)).Nodup →
      ∃ t, exec (.remoteWriteApply src num key bs) s = .next t ∧ lastApplied t src = (inc, 1) ∧
        (∀ h ∈ t.heldWrites, h.src ≠ src) ∧ bytesAt t (keysFrom key bs.length) = bs)) ∧
  (∀ (src num key : Nat) (bs : List Byte) (s : State),
    src ∈ s.failedChips ∨ spBase ≤ key ∨ (key / 2 ^ 39 ≠ s.chip ∧ home s key < spBase) →
    exec (.remoteWriteApply src num key bs) s = .next s) ∧
  (∀ (asked chip : Nat) (s : State),
    let here := asked * 128 < spBase ∧ (asked * 128 / 2 ^ 39 = s.chip ∨ spBase ≤ home s (asked * 128))
    (chip ∈ s.failedChips ∨ ¬ here → exec (.remoteLeaseRequest asked chip) s = .next s) ∧
    (chip ∉ s.failedChips → here →
      let line := home s (asked * 128) / 128
      let old := Tab.getD s.lineTimes line (0#48, 0#48)
      ∃ t r m pts, exec (.remoteLeaseRequest asked chip) s = .next t ∧ Later (old.1 + 64#48) (pts + 64#48) m ∧ Later old.2 m r ∧
        t = { s with lineTimes := Tab.put s.lineTimes line (old.1, r), remoteLeases := t.remoteLeases } ∧
        (line, chip, r) ∈ t.remoteLeases ∧ ∀ x ∈ t.remoteLeases, x.1 = line → x.2.1 = chip → x.2.2 = r)) ∧
  (∀ (priv : Bool) (s : State),
    let waits := (∃ w ∈ allWarps s, w.ended = none) ∨ ∃ r ∈ s.requests, ∃ e ∈ r.epochs, e.state = 1#3
    let of (n : Nat) : Prop := ∃ c, Tab.find? s.contexts n = some c ∧ c.priv = priv
    let incomes := (∃ g ∈ s.grids, g.ended = false ∧ g.started < g.lr.nclust ∧ of g.ctx) ∨
      ∃ x ∈ s.saved, ∃ w ∈ x.warps, of w.ctx
    (waits ∨ ¬ incomes ∨ s.l2Private = priv → exec (.l2ModeChange priv) s = .next s) ∧
    (¬ waits → incomes → s.l2Private ≠ priv → ∃ t, exec (.l2ModeChange priv) s = .next t ∧
      t = { s with l2Private := priv, dieLeases := [], cores := t.cores } ∧ (∀ p ∈ t.cores, p.2.leases = []) ∧
      ∀ n, coreOf t n = { coreOf s n with leases := (coreOf t n).leases })) ∧
  (∀ (port : Nat) (o : LinkOutcome) (s : State), s.start = .fabric ∨ s.start = .ready → port < 128 →
    Tab.rising s.fabric = true →
    ∃ t p, exec (.linkNegotiate port o) s = .next t ∧ t = { s with fabric := t.fabric, failedChips := t.failedChips, peers := t.peers } ∧
      Tab.find? t.fabric port = some p ∧ p.partner = o.partner ∧
      (p.up = true ↔ o.partner.isSome = true ∧ o.attested = true ∧ (o.rate = 800 ∨ o.rate = 400 ∨ o.rate = 200)) ∧
      (p.rate = if p.up then o.rate else 0) ∧ (p.lowLatency = true ↔ p.up = true ∧ o.rate = 200 ∧ o.lowLatency = true) ∧
      (∀ c, c ∈ t.failedChips ↔ c ∈ s.failedChips ∧ ¬ (p.up = true ∧ o.partner = some c ∧
        Tab.getD s.peers c 0 < o.incarnation ∧ (lastApplied s c).1 < o.incarnation)) ∧
      (p.powered = true ↔ o.partner.isSome = true ∨ ∃ q ∈ s.fabric, q.1 ≠ port ∧ q.1 / 8 = port / 8 ∧ q.2.partner.isSome = true) ∧
      ∀ n, n / 8 = port / 8 → ∃ q, Tab.find? t.fabric n = some q ∧ q.powered = p.powered) ∧
  (∀ (port : Nat) (s : State) (p : FabricPort), Tab.find? s.fabric port = some p →
    ∃ t q, exec (.fabricLinkLoss port) s = .next t ∧ t = { s with fabric := t.fabric } ∧ Tab.find? t.fabric port = some q ∧
      q.up = false ∧ q.partner = none ∧ q.rate = 0 ∧
      ∀ n, n / 8 = port / 8 → ∃ x, Tab.find? t.fabric n = some x ∧ x.powered = q.powered) ∧
  (∀ (i : Instr) (c : Cmd) (chip : Nat) (s : State),
    (i = .routeLossTimeout chip ∧ ∀ p ∈ s.fabric, p.2.up = true → p.2.partner ≠ some chip) ∨
      (i = .peerfail c chip ∧ MayRun c false s ∧ HoldsSem s c.port 7) →
    chip ∉ s.failedChips → chip ≠ s.chip →
    ∃ t, exec i s = .next t ∧ t.failedChips = s.failedChips ++ [chip] ∧
      (∀ h, h ∈ t.heldWrites ↔ h ∈ s.heldWrites ∧ h.src ≠ chip) ∧
      (∀ p ∈ t.cores, ∀ l ∈ p.2.leases, l.1 * 128 / 2 ^ 39 ≠ chip) ∧ (∀ l ∈ t.dieLeases, l.2.1 * 128 / 2 ^ 39 ≠ chip) ∧
      (waitingOn s chip = [] → t = { s with
        failedChips := t.failedChips, heldWrites := t.heldWrites, cores := t.cores, dieLeases := t.dieLeases
        portA := t.portA, portB := t.portB }) ∧
      (∀ g ∈ s.grids, (∀ x ∈ s.grids, x.id = g.id → x = g) → g.ended = false → (∃ w ∈ waitingOn s chip, w ∈ g.members) →
        ∃ g', gridById t g.id = some g' ∧ g'.status = 6#8)) ∧
  (∀ (chip : Nat) (s : State), (∃ p ∈ s.fabric, p.2.up = true ∧ p.2.partner = some chip) →
    exec (.routeLossTimeout chip) s = .next s)

/-! ## Traps and system words -/

/-- R225, R226, R227, R239, R241: a trap in a split outside a handler posts its records and enters the vector's
entry in the lower free set with TPC, TMASK, TLANES, TCAUSE, REPLAY and its save areas written, the other split, the
stack and the registers untouched; a full fault queue holds the word with the records posted so far, and without a
queue the warp ends; a PAGE without an entry waits for its records; a save area that cannot be stored ends the warp
with that store's code, and otherwise the warp ends with the trap's code and the program counter. That an entry of
the queue which cannot be placed ends the warp with the placement's code is the model's choice (log 20). TRAP raises
SOFTWARE in the whole split, an undefined lane opcode ILLEGAL, TRAP_ENTRY what was raised in the issuing split, and
it goes on posting a held trap; that a raised PROGRESS posts no record of the fault queue is the model's choice (log
83). What the spec leaves open and the model settles in it: Posted fault records stand for every path, and hardware
reads their status words as last written (log 12); Which traps post a fault record, and an entry of the queue or of
the vector that cannot be reached (log 20); A split's hardware page service waits for all of its posted records (log
78); The record of PROGRESS is data of State, not a record of the fault queue (log 83). -/
def Obligations.HandlerEntry : Prop :=
  (∀ (s s1 : State) (sp : Split) (tr : TrapInfo) (p : Posting),
    s.split? = some sp → s.warp.pending = [] → s.warp.rg = none → s.warp.ended = none →
    (tr.posts = [] ∨ s.warp.faultq ≠ 0#64) → postFaults tr.kind Posted.none tr.posts s = (p, s1) →
    let v := vectorEntry s1 (viewOf s.warp sp) s.warp.tvec tr.code.toNat
    let t := takeTrap s tr
    let ends (code : BitVec 8) (pc : DWord) : Prop := t.warp.ended = some (1#8, code) ∧ t.warp.endPc = pc
    let holds (w : SplitWait) : Prop := t.split? = some { sp with wait := w } ∧ t.warp.regs = s.warp.regs
    (∀ e, p.err = some e → ends e.trap sp.pc) ∧
    (p.err = none → p.left ≠ [] → holds (.posting { tr with posts := p.left } p.done)) ∧
    (p.err = none → p.left = [] →
      (∀ k : Nat, sp.ts = none → v ≠ 0#64 →
        k = (if s.warp.ts0.inUse then 1 else 0) → (s.warp.ts k).inUse = false →
        let set : TrapSet := {
          inUse := true, tpc := sp.pc, tmask := sp.mask, tlanes := tr.lanes,
          tcause := (p.done.first.map (BitVec.ofNat 16 ·)).getD tr.detail ++
            BitVec.ofNat 8 (tr.lane.getD (LaneMask.lowest tr.lanes)) ++ tr.code,
          replay := if tr.replay = 0#32 then sp.only.getD 0#32 else tr.replay, sig := sp.sig, join := sp.join, id := sp.id }
        let saved := saveAreas tr (viewOf s.warp sp) (LaneMask.lanes tr.lanes) { s1 with warp := s.warp.setTs k set }
        (∀ s2, saved = .ok s2 →
          t.split? = some { sp with pc := v, mask := tr.lanes, join := none, ts := some k, wait := .none, only := none } ∧
          t = { s with
            warp := { s.warp with slotA := t.warp.slotA, slotB := t.warp.slotB, ts0 := t.warp.ts0, ts1 := t.warp.ts1 }
            mem := t.mem, hist := t.hist, serial := t.serial, spDirty := t.spDirty, poison := t.poison, tlb := t.tlb
            lineTimes := t.lineTimes, cores := t.cores, sent := t.sent, faultPos := t.faultPos, grids := t.grids
            tfences := t.tfences, filters := t.filters, blockFaults := t.blockFaults, versions := t.versions } ∧
          t.warp.slot? (!s.slotB) = s.warp.slot? (!s.slotB) ∧ t.warp.ts k = set ∧ t.warp.ts (1 - k) = s.warp.ts (1 - k) ∧
          (∀ (T : Team) (off : Nat), tr.posts = [] → s.warp.epoch = none → Ordered s → teamById s s.warp.team = some T →
            s.warp.ltsave.toNat = 2 ^ 56 + off → off + 8192 ≤ 2 ^ 19 → T.owns off 8192 = true →
            (∀ i, i < 32 → tr.lanes.has i = true →
              memNat t (spKey s.warp.coreIx (off + 256 * i)) 8 = (((tr.addrs.find? fun p => p.1 == i).map (·.2)).getD 0#64).toNat ∧
              memNat t (spKey s.warp.coreIx (off + 256 * i) + 8) 4 = i + 256 * (tr.kind % 2 ^ 24)) ∧
            SameMemoryBut ((LaneMask.lanes tr.lanes).flatMap fun i => keysFrom (spKey s.warp.coreIx (off + 256 * i)) 12) s t)) ∧
        (saved = .error none → holds (.posting { tr with posts := [] } p.done)) ∧
        (∀ e, saved = .error (some e) → ends e v)) ∧
      (sp.ts = none → v = 0#64 → tr.code = Code.page →
        ∃ o, t.split? = some { sp with wait := .service p.done.keys, only := o } ∧ t.warp.regs = s.warp.regs) ∧
      (sp.ts.isSome = true ∨ (v = 0#64 ∧ tr.code ≠ Code.page) ∨
        (v ≠ 0#64 ∧ s.warp.ts0.inUse = true ∧ s.warp.ts1.inUse = true) → ends tr.code sp.pc))) ∧
  (∀ (s : State) (sp : Split) (tr : TrapInfo), s.split? = some sp → s.warp.pending = [] → s.warp.rg = none →
    s.warp.ended = none → tr.posts ≠ [] → s.warp.faultq = 0#64 →
    (takeTrap s tr).warp.ended = some (1#8, tr.code) ∧ (takeTrap s tr).warp.endPc = sp.pc) ∧
  (∀ (w : Strip) (f : LaneForm) (sp : Split) (s : State), LaneReady (.trap w) f w sp s →
    exec (.trap w) s = .next (takeTrap s { wholeTrap Code.software sp.mask with detail := w.imm16 })) ∧
  (∀ (op : BitVec 10) (w : Strip) (sp : Split) (s : State), s.split? = some sp →
    exec (.undefinedLaneOpcode op w) s = .next (takeTrap s (wholeTrap Code.illegal sp.mask))) ∧
  (∀ (tr : TrapInfo) (done : Posted) (sp : Split) (s : State), s.split? = some sp → sp.wait = .posting tr done →
    exec .trapEntry s = .next (postTrap s sp tr done)) ∧
  (∀ (r : Raised) (rest : List Raised) (sp : Split) (s : State), s.split? = some sp → sp.posting = false →
    sp.raised = r :: rest →
    (s.warp.pending ≠ [] → exec .trapEntry s = .next { s with warp := { s.warp with parked := true } }) ∧
    (s.warp.pending = [] → r.lanes = none →
      let s' := { s with warp := { s.warp with pd := if r.code = Code.nopreempt then 0 else s.warp.pd } }.setSplit
        (some { sp with wait := .none, raised := rest })
      ∃ tr, exec .trapEntry s = .next (takeTrap s' tr) ∧ tr.code = r.code ∧ tr.lanes = sp.mask ∧ tr.replay = 0#32 ∧
        tr.posts = []))

/-- R27, R228: TRET waits until the splits of its handler that executed it hold every alive lane of TLANES; then the
trapped split goes on in the issuing slot under TMASK less the lanes that are gone, at TPC for the lanes of REPLAY
or whole, or past TPC under NXT, and the set is free; outside a handler it traps ILLEGAL, and where a 65th entry is
needed DIVSTACK. That a TRET which completes the return needs an entry as well is the model's choice (log 16). What
the spec leaves open and the model settles in it: A merged split knows of other paths only what all its parts knew
(log 7); Order of checks within one word where R87 leaves a point open (log 16); TRETs of one handler that ask
differently: the last one executed decides (log 88). -/
def Obligations.HandlerReturn : Prop :=
  ∀ (w : Strip) (f : LaneForm) (sp : Split) (s : State), LaneReady (.tret w) f w sp s → s.warp.pending = [] →
    (sp.ts = none → exec (.tret w) s = .next (takeTrap s (wholeTrap Code.illegal sp.mask))) ∧
    (∀ k, sp.ts = some k → k < 2 →
      let T := s.warp.ts k
      let back := sp.mask ||| unionMask (s.warp.returned k)
      let M := T.tmask &&& s.warp.alive
      let again := T.replay &&& s.warp.alive
      let frame (t : State) : Prop :=
        t = { s with
          warp := { s.warp with
            slotA := t.warp.slotA, slotB := t.warp.slotB, stack := t.warp.stack, ts0 := t.warp.ts0, ts1 := t.warp.ts1
            retired := s.warp.retired + 1, watch := s.cycle }
          cores := t.cores, filters := t.filters } ∧
        t.warp.ts (1 - k) = s.warp.ts (1 - k)
      (64 ≤ s.warp.stack.length → T.tlanes &&& s.warp.alive &&& ~~~back = 0#32 ∨ s.warp.oldestReady = none →
        exec (.tret w) s = .next (takeTrap s (wholeTrap Code.divstack sp.mask))) ∧
      (T.tlanes &&& s.warp.alive &&& ~~~back = 0#32 → M ≠ 0#32 → s.warp.stack.length < 64 →
        ∃ t q, exec (.tret w) s = .next t ∧ frame t ∧ t.split? = some q ∧ q.id = T.id ∧ q.mask = M ∧ q.ts = none ∧ q.join = T.join ∧
          q.wait = .none ∧ t.warp.ts k = TrapSet.free ∧ t.warp.returned k = [] ∧
          (w.x.getLsbD 0 = true → q.pc = T.tpc + 12#64 ∧ q.only = none) ∧
          (w.x.getLsbD 0 = false → q.sig = T.sig ∧
            q.pc = (if T.replay ≠ 0#32 ∧ again = 0#32 then T.tpc + 12#64 else T.tpc) ∧
            q.only = (if again = 0#32 then none else some again))) ∧
      (T.tlanes &&& s.warp.alive &&& ~~~back ≠ 0#32 → s.warp.stack.length < 64 →
        ∃ t, exec (.tret w) s = .next t ∧ frame t ∧ unionMask (t.warp.returned k) = back ∧ t.warp.ts k = T ∧
          (t.split?).map (·.pc) = s.warp.oldestReady.map (·.pc)))

/-- The control registers that CSRR reads, with their widths and values (R231, R320). -/
def readableRegisters : List (Nat × Nat × (State → Split → DWord)) :=
  let set (s : State) (sp : Split) : TrapSet := (sp.ts.map s.warp.ts).getD TrapSet.free
  [(0x800, 57, fun s _ => s.warp.tvec), (0x801, 3, fun _ sp => match sp.ts with | some k => BitVec.ofNat 64 (1 + 2 * k) | none => 0#64),
   (0x802, 57, fun s sp => (set s sp).tpc), (0x803, 32, fun s sp => (set s sp).tmask.setWidth 64),
   (0x804, 32, fun s sp => (set s sp).tlanes.setWidth 64), (0x805, 32, fun s sp => (set s sp).tcause.setWidth 64),
   (0x806, 32, fun s sp => (set s sp).replay.setWidth 64), (0x807, 57, fun s _ => s.warp.spillbase),
   (0x808, 57, fun s _ => s.warp.ltsave), (0x809, 6, fun s _ => s.warp.wdog.setWidth 64),
   (0x80A, 64, fun s _ => s.warp.faultq), (0x80B, 64, fun s _ => BitVec.ofNat 64 s.cycle),
   (0x80C, 32, fun s _ => ((BitVec.ofNat 8 (s.warp.hw % 40 * 4 + s.warp.core) ++ BitVec.ofNat 2 (s.warp.hw / 40) ++
     BitVec.ofNat 8 s.warp.hw ++ BitVec.ofNat 2 (s.warp.slot / 8) ++ BitVec.ofNat 2 s.warp.core ++
     BitVec.ofNat 4 s.warp.index : BitVec 26)).setWidth 64),
   (0x80D, 20, fun s _ => BitVec.ofNat 64 (s.warp.pd + 16 * (if s.warp.pd = 0 then 0 else min ((s.cycle - s.warp.pdSince) / 128) 65535))),
   (0x818, 32, fun s _ => s.warp.sigctl.setWidth 64), (0x819, 57, fun s _ => s.warp.sigtab),
   (0x81A, 32, fun s _ => s.warp.sigcnt.setWidth 64), (0x81B, 57, fun s _ => s.warp.rgbase), (0x81C, 64, fun s _ => s.warp.rginj),
   (0x81D, 64, fun s _ => BitVec.ofNat 64 (((Tab.find? s.contexts s.warp.ctx).map (·.wear)).getD 0))]

/-- The control registers that CSRW writes by themselves: width, values admitted, and the warp with the value (R231). -/
def writableRegisters : List (Nat × Nat × (Split → Warp → DWord → Prop) × (Split → Warp → DWord → Warp)) :=
  let inSet (g : Warp → TrapSet → DWord → TrapSet) (sp : Split) (w : Warp) (v : DWord) : Warp :=
    match sp.ts with | some k => w.setTs k (g w (w.ts k) v) | none => w
  [(0x800, 57, fun _ _ v => v.toNat % 256 = 0, fun _ w v => { w with tvec := v }),
   (0x802, 57, fun sp _ _ => sp.ts.isSome = true, inSet fun _ t v => { t with tpc := v }),
   (0x803, 32, fun sp _ _ => sp.ts.isSome = true, inSet fun w t v => { t with tmask := v.setWidth 32 &&& w.alive }),
   (0x806, 32, fun sp w v => ∃ k, sp.ts = some k ∧ v &&& ~~~(w.ts k).replay.setWidth 64 = 0#64,
     inSet fun _ t v => { t with replay := v.setWidth 32 }),
   (0x807, 57, fun _ _ _ => True, fun _ w v => { w with spillbase := v }),
   (0x808, 57, fun _ _ v => v.toNat % 256 = 0, fun _ w v => { w with ltsave := v }),
   (0x809, 6, fun _ _ v => v = 0#64 ∨ 16 ≤ v.toNat ∧ v.toNat ≤ 40, fun _ w v => { w with wdog := v.setWidth 6 }),
   (0x818, 32, fun _ _ v => v.toNat / 2 ^ 3 % 2 ^ 13 = 0 ∧ v.getLsbD 1 = false,
     fun _ w v => { w with sigctl := (w.sigctl &&& 0xFFFF0000#32) ||| (v.setWidth 32 &&& 5#32) }),
   (0x81B, 57, fun _ _ v => v.toNat % 256 = 0, fun _ w v => { w with rgbase := v }),
   (0x81C, 64, fun _ _ v => v.toNat < 2 ^ 31, fun _ w v => { w with rginj := v })]

/-- R230, R231: CSRR gives every lane of P the low word, tagged N32, or the pair, tagged ADDR64, of every register
that the lane stream reads; CSRW writes from the lowest lane of P, truncated to the register's width; an unlisted
number, a W wider than the register or a value not admitted traps ILLEGAL; with P empty neither acts. What the spec
leaves open and the model settles in it: CSRW and CSRWS refuse values outside a register's description with ILLEGAL
(log 11). -/
def Obligations.ControlRegisters : Prop :=
  (∀ row ∈ readableRegisters, ∀ (w : Strip) (f : LaneForm) (sp : Split) (s : State), w.imm16.toNat = row.1 →
    LaneReady (.csrr w) f w sp s → s.warp.core < 4 → s.warp.index < 16 → s.warp.slot < 32 → s.warp.hw < 160 →
    let cx := cxOf s f w sp
    let v := row.2.2 s sp
    let wide := w.x.getLsbD 0
    (wide = true → row.2.1 ≤ 32 → exec (.csrr w) s = .next (takeTrap s (wholeTrap Code.illegal sp.mask))) ∧
    (cx.p ≠ 0#32 → wide = false ∨ 32 < row.2.1 →
      ∃ t, exec (.csrr w) s = .next t ∧ LaneRetired cx (sp.pc + 12#64) s t ∧
        LaneResults (if wide then [{ n := cx.d, mask := cx.p, tag := 0xA#4, word := fun _ => v.setWidth 32 },
            { n := cx.d + 1, mask := cx.p, tag := 0xA#4, word := fun _ => (v >>> 32).setWidth 32 }]
          else [{ n := cx.d, mask := cx.p, tag := 2#4, word := fun _ => v.setWidth 32 }]) [] s t)) ∧
  (∀ row ∈ writableRegisters, ∀ (w : Strip) (f : LaneForm) (sp : Split) (s : State), w.imm16.toNat = row.1 →
    LaneReady (.csrw w) f w sp s → w.x.getLsbD 0 = false ∨ 32 < row.2.1 → (sp.ts.isSome = true ∨ row.1 < 0x802 ∨ 0x806 < row.1) →
    let cx := cxOf s f w sp
    let v : DWord := if w.x.getLsbD 0 then (cx.srcA 1).word cx.lane0 ++ cx.a.word cx.lane0
      else (cx.a.word cx.lane0).setWidth 64
    cx.p ≠ 0#32 → lowDeaths cx = 0#32 →
    (row.2.2.1 sp s.warp v →
      let s1 := { s with warp := row.2.2.2 sp s.warp (BitVec.ofNat 64 (v.toNat % 2 ^ row.2.1)) }
      ∃ t, exec (.csrw w) s = .next t ∧ LaneRetired cx (sp.pc + 12#64) s1 t ∧ LaneResults [] [] s1 t) ∧
    (¬ row.2.2.1 sp s.warp v → exec (.csrw w) s = .next (takeTrap s (wholeTrap Code.illegal sp.mask)))) ∧
  (∀ (i : Instr) (w : Strip) (f : LaneForm) (sp : Split) (s : State), i = .csrr w ∨ i = .csrw w → LaneReady i f w sp s →
    csrInfo w.imm16.toNat = none → exec i s = .next (takeTrap s (wholeTrap Code.illegal sp.mask))) ∧
  (∀ (w : Strip) (f : LaneForm) (sp : Split) (s : State), LaneReady (.csrw w) f w sp s → (cxOf s f w sp).p ≠ 0#32 →
    lowDeaths (cxOf s f w sp) = 0#32 → w.imm16.toNat = 0x80E →
    let v : DWord := if w.x.getLsbD 0 then ((cxOf s f w sp).srcA 1).word (cxOf s f w sp).lane0 ++
        (cxOf s f w sp).a.word (cxOf s f w sp).lane0
      else ((cxOf s f w sp).a.word (cxOf s f w sp).lane0).setWidth 64
    ∃ s1 t, exec (.invpgWrite v) s = .next s1 ∧ exec (.csrw w) s = .next t ∧
      LaneRetired (cxOf s f w sp) (sp.pc + 12#64) s1 t ∧ LaneResults [] [] s1 t) ∧
  (∀ (w : Strip) (f : LaneForm) (sp : Split) (s : State) (T : Team) (k : Nat), LaneReady (.csrr w) f w sp s →
    w.imm16.toNat = 0x810 + k → k < 8 → teamById s s.warp.team = some T →
    let cx := cxOf s f w sp
    let v := T.spmap.getD k 0#64
    cx.p ≠ 0#32 →
    ∃ t, exec (.csrr w) s = .next t ∧ LaneRetired cx (sp.pc + 12#64) s t ∧
      LanePromised (if w.x.getLsbD 0 then [{ n := cx.d, mask := cx.p, tag := 0xA#4, word := fun _ => v.setWidth 32 },
          { n := cx.d + 1, mask := cx.p, tag := 0xA#4, word := fun _ => (v >>> 32).setWidth 32 }]
        else [{ n := cx.d, mask := cx.p, tag := 2#4, word := fun _ => v.setWidth 32 }]) [] s t)

/-- R123, R184, R240, R336: a write of SPMAPk without V releases the old mapping, its modified lines written back,
and holds the value; one with V whose checks pass registers every granule and with LD copies the backing bytes in;
one whose checks fail traps as a CSRWS does, its entry as it was (AFADDR is the model's choice: log 51, log 91); a
write of INVPG drops the page from every translation cache; a write of RGINJ arms the trailing copy, whose words are
counted after it, and leaves the leading one. What the spec leaves open and the model settles in it: Writing SPMAPk
with a value that traps (log 51); Cached translations: either entry while they differ from the tables; 1,024 a core,
the oldest dropped (log 72); AFADDR after an ILLEGAL of the access stream is 0 (log 91). -/
def Obligations.RegisterEvents : Prop :=
  (∀ (k : BitVec 3) (v : DWord) (s : State) (T : Team), s.warp.rg = none → teamById s s.warp.team = some T →
    v.getLsbD 63 = false →
    ∃ t, exec (.spmapWrite k v) s = .next t ∧
      (∃ T', teamById t s.warp.team = some T' ∧ T'.spmap.getD k.toNat 0#64 = v ∧
        (∀ j, j < 8 → j ≠ k.toNat → T'.spmap.getD j 0#64 = T.spmap.getD j 0#64)) ∧
      ((T.spmap.getD k.toNat 0#64).getLsbD 63 = false → t = { s with teams := t.teams }) ∧
      ((T.spmap.getD k.toNat 0#64).getLsbD 63 = true →
        t.mapped = s.mapped.filter (fun g => !(g.team == T.id && g.idx == k.toNat)) ∧ t.warp = s.warp ∧
        (Ordered s → (∀ g ∈ s.mapped, g.phys * 4096 < spBase ∧ spBase ≤ g.scr ∧ g.scr % 128 = 0) →
          (s.mapped.map (·.phys)).Nodup →
          (∀ g ∈ s.mapped, ∀ h ∈ s.mapped, g ≠ h → g.scr + 4096 ≤ h.scr ∨ h.scr + 4096 ≤ g.scr) →
          ∀ g ∈ s.mapped, g.team = T.id → g.idx = k.toNat → ∀ o, o < 4096 → s.spDirty.contains ((g.scr + o) / 128) = true →
            memGet t.mem (g.phys * 4096 + o) = memGet s.mem (g.scr + o)))) ∧
  (∀ (k : BitVec 3) (v : DWord) (s s' : State) (T : Team) (ps : List Nat), s.warp.rg = none →
    teamById s s.warp.team = some T → v.getLsbD 63 = true → (T.spmap.getD k.toNat 0#64).getLsbD 63 = false →
    let size := 2 ^ (v.toNat / 2 ^ 57 % 64)
    let base := v.toNat / 2 ^ 12 % 2 ^ 45 * 4096
    let off := v.toNat / 2 ^ 5 % 2 ^ 7 * 4096
    12 ≤ v.toNat / 2 ^ 57 % 64 → v.toNat / 2 ^ 57 % 64 ≤ 19 → base % size = 0 → off % size = 0 → v.getLsbD 56 = false →
    v.toNat % 16 = 0 → off + size ≤ T.total →
    (∀ j, j < 8 → j ≠ k.toNat → (T.spmap.getD j 0#64).getLsbD 63 = true → spOverlap v (T.spmap.getD j 0#64) = false) →
    spPlace s.warp (PathView.start (2 * s.warp.id) s.serial) (BitVec.ofNat 64 base) (size / 4096)
      (modTeam s T.id fun x => { x with spmap := x.spmap.setIfInBounds k.toNat (T.spmap.getD k.toNat 0#64) }) = (.ok ps, s') →
    ∃ t, exec (.spmapWrite k v) s = .next t ∧ t.warp = s.warp ∧
      (∃ T', teamById t s.warp.team = some T' ∧ T'.spmap.getD k.toNat 0#64 = v) ∧
      t.mapped = s.mapped ++ (ps.zipIdx.map fun p => ⟨T.id, k.toNat, p.1, spKey T.coreIx (T.base + off + 4096 * p.2)⟩) ∧
      (v.getLsbD 4 = false → SameMemory s t) ∧
      (v.getLsbD 4 = true → Ordered s → (∀ p ∈ ps, p * 4096 < spBase) → ∀ j o, j < ps.length → o < 4096 →
        memGet t.mem (spKey T.coreIx (T.base + off + 4096 * j) + o) = memGet s.mem (ps.getD j 0 * 4096 + o))) ∧
  (∀ (k : BitVec 3) (v : DWord) (s : State) (T : Team),
    (s.warp.rg.isSome = true → exec (.spmapWrite k v) s = .next (accessTrap s Code.illegal 0 0#16 0#64)) ∧
    (s.warp.rg = none → teamById s s.warp.team = some T → v.getLsbD 63 = true →
      (T.spmap.getD k.toNat 0#64).getLsbD 63 = false →
      let size := 2 ^ (v.toNat / 2 ^ 57 % 64)
      let base := v.toNat / 2 ^ 12 % 2 ^ 45 * 4096
      let off := v.toNat / 2 ^ 5 % 2 ^ 7 * 4096
      let sound : Prop := 12 ≤ v.toNat / 2 ^ 57 % 64 ∧ v.toNat / 2 ^ 57 % 64 ≤ 19 ∧ base % size = 0 ∧ off % size = 0 ∧
        v.getLsbD 56 = false ∧ v.toNat % 16 = 0
      let crossed : Prop := ∃ j, j < 8 ∧ j ≠ k.toNat ∧ (T.spmap.getD j 0#64).getLsbD 63 = true ∧
        spOverlap v (T.spmap.getD j 0#64) = true
      let stops (code : BitVec 8) (va : DWord) : Prop := ∃ s1, exec (.spmapWrite k v) s = .next (accessTrap s1 code 0 0#16 va) ∧
        s1 = { s with teams := s1.teams, tlb := s1.tlb } ∧
        (teamById s1 s.warp.team).map (fun x => x.spmap.getD k.toNat 0#64) = some (T.spmap.getD k.toNat 0#64)
      (¬ sound ∨ crossed → stops Code.illegal v) ∧
      (sound → ¬ crossed → T.total < off + size → stops Code.bounds (BitVec.ofNat 64 base)) ∧
      (∀ (e : AccErr) (va : DWord) (s' : State), sound → ¬ crossed → off + size ≤ T.total →
        spPlace s.warp (PathView.start (2 * s.warp.id) s.serial) (BitVec.ofNat 64 base) (size / 4096)
          (modTeam s T.id fun x => { x with spmap := x.spmap.setIfInBounds k.toNat (T.spmap.getD k.toNat 0#64) }) =
            (.error (e, va), s') →
        stops e.trap va))) ∧
  (∀ (va : DWord) (s : State), exec (.invpgWrite va) s = .next { s with tlb := s.tlb.filter fun e =>
    !(e.ctx == s.warp.ctx && va.toNat % 2 ^ 57 / 2 ^ e.size == e.base / 2 ^ e.size) }) ∧
  (∀ (v : DWord) (s : State),
    (s.warp.rg = none → exec (.rginjWrite v) s = .next { s with warp := { s.warp with rginj := v } }) ∧
    (∀ g, s.warp.rg = some g → g.trailing = false → exec (.rginjWrite v) s = .next s) ∧
    (∀ g, s.warp.rg = some g → g.trailing = true → v.getLsbD 30 = true →
      exec (.rginjWrite v) s = .next { s with warp := { s.warp with
        rginj := v
        rg := some { g with
          inject := some (v.toNat % 2 ^ 20 + 1, v.toNat / 2 ^ 20 % 32, v.toNat / 2 ^ 25 % 32), injCount := 0 } } }))

/-- R28, R30, R74, R75, R234, R235, R241: an outstanding result is written to its registers and predicates in the
lanes of its mask, and the last one ends the park; PREEMPT.OFF and PREEMPT.ON move the depth, ILLEGAL at 15, held
back at 0 once a pre-emption is asked; the watchdog and the cap raise PROGRESS and NOPREEMPT in the split of the
warp that issued least recently, brought into a slot, and the watchdog's record lists PC and mask of every split (as
data of State: log 83); the quantum rotates one split out, of two that entered in one cycle the one in slot A (the
model's choice: log 10); an answered page service lets its split go on or ends the warp. What the spec leaves open
and the model settles in it: Rotation: what counts as entering the stack earlier, two splits of one cycle, and slots
that an end left free (log 10); A split's hardware page service waits for all of its posted records (log 78); The
watchdog counts from LSTART or the last retired lane word, excluding nothing else (log 80); PREEMPT.OFF sections,
yields and the end of a warp (log 82); The record of PROGRESS is data of State, not a record of the fault queue (log
83). -/
def Obligations.WarpEvents : Prop :=
  (∀ (s : State) (k : Nat) (p : Pending), s.warp.pending[k]? = some p → p.sub = none → p.epoch = none → p.holds = none →
    p.again = [] → (p.regs.map (·.n)).Nodup → (p.preds.map (·.k)).Nodup →
    ∃ t, exec (.varlatResultWrite k) s = .next t ∧
      t = { s with warp := { s.warp with
        regs := t.warp.regs, preds := t.warp.preds, parked := t.warp.parked
        pending := s.warp.pending.take k ++ (s.warp.pending.drop (k + 1)).map (returnedBefore p) } } ∧
      (t.warp.parked = true ↔ s.warp.parked = true ∧ s.warp.pending.eraseIdx k ≠ []) ∧
      (∀ x ∈ p.regs, (t.warp.reg x.n).tag = x.tag ∧ ∀ j, j < 32 → s.warp.alive.has j = true →
        (t.warp.reg x.n).val.word j = if x.mask.has j then x.val.word j else (s.warp.reg x.n).val.word j) ∧
      (∀ n, (∀ x ∈ p.regs, x.n ≠ n) → t.warp.reg n = s.warp.reg n) ∧
      (∀ x ∈ p.preds, ∀ j, j < 32 → t.warp.predLane x.k j =
        if x.k = 7 then true else if x.mask.has j then x.bits.has j else s.warp.predLane x.k j) ∧
      (∀ n j, n < 7 → (∀ x ∈ p.preds, x.k ≠ n) → t.warp.predLane n j = s.warp.predLane n j)) ∧
  (∀ (w : Strip) (f : LaneForm) (sp : Split) (s : State), LaneReady (.preemptOff w) f w sp s →
    (s.warp.pd < 15 → s.warp.pd ≠ 0 ∨ preemptDue s s.warp.hw = false →
      let s1 := { s with warp := { s.warp with
        pd := s.warp.pd + 1, pdSince := if s.warp.pd = 0 then s.cycle else s.warp.pdSince } }
      ∃ t, exec (.preemptOff w) s = .next t ∧ LaneRetired (cxOf s f w sp) (sp.pc + 12#64) s1 t ∧ LaneResults [] [] s1 t) ∧
    (s.warp.pd = 15 → exec (.preemptOff w) s = .next (takeTrap s (wholeTrap Code.illegal sp.mask))) ∧
    (s.warp.pd = 0 → preemptDue s s.warp.hw = true → exec (.preemptOff w) s = .next s)) ∧
  (∀ (w : Strip) (f : LaneForm) (sp : Split) (s : State), LaneReady (.preemptOn w) f w sp s →
    let s1 := { s with warp := { s.warp with pd := s.warp.pd - 1 } }
    ∃ t, exec (.preemptOn w) s = .next t ∧ LaneRetired (cxOf s f w sp) (sp.pc + 12#64) s1 t ∧ LaneResults [] [] s1 t) ∧
  (∀ (i : Instr) (code : BitVec 8) (s : State),
    (i = .watchdogExpire ∧ code = Code.progress ∧ s.warp.lstarted = true ∧ s.warp.wdog ≠ 0#6 ∧
        s.warp.watch + 2 ^ s.warp.wdog.toNat ≤ s.cycle) ∨
      (i = .nopreemptCap ∧ code = Code.nopreempt ∧ s.warp.pd ≠ 0 ∧ s.warp.pdSince + 1200000 ≤ s.cycle) →
    s.warp.ended = none → s.warp.hasRaised code = false → s.warp.splits ≠ [] →
    ∃ t b x q, exec i s = .next t ∧ x ∈ s.warp.splits ∧ (∀ y ∈ s.warp.splits, x.issued ≤ y.issued) ∧
      t.warp.slot? b = some q ∧ q.id = x.id ∧ q.pc = x.pc ∧ q.mask = x.mask ∧
      q.raised = x.raised ++ [{ code := code, lanes := none, detail := 0#16, info := 0#64 }] ∧
      (∀ y ∈ s.warp.splits, ∃ z ∈ t.warp.splits, z.id = y.id ∧ z.pc = y.pc ∧ z.mask = y.mask) ∧
      t = { s with
        warp := { s.warp with
          slotA := t.warp.slotA, slotB := t.warp.slotB, stack := t.warp.stack
          watch := if i = .watchdogExpire then s.cycle else s.warp.watch }
        progress := s.progress ++ if i = .watchdogExpire then
          [⟨s.warp.grid, whereWord s.warp, s.warp.splits.map fun y => (y.pc, y.mask)⟩] else [] }) ∧
  (∀ (b : Bool) (sp r : Split) (s : State), s.warp.slot? b = some sp → sp.ts = none → sp.entered + 4096 ≤ s.cycle →
    s.warp.oldestReady = some r → r.entered ≤ sp.entered →
    (∀ q, s.warp.slot? (!b) = some q → q.ts.isSome = true ∨ s.cycle < q.entered + 4096 ∨ q.entered < r.entered ∨
      sp.entered < q.entered ∨ b = false ∧ sp.entered = q.entered) →
    ∃ t, exec .quantumRotation s = .next t ∧ t.warp.slot? b = some { r with entered := s.cycle } ∧
      t.warp.slot? (!b) = s.warp.slot? (!b) ∧ t.warp.stack.getLast? = some (.ready { sp with entered := s.cycle }) ∧
      t.warp.stack.length = s.warp.stack.length ∧
      t = { s with warp := { s.warp with slotA := t.warp.slotA, slotB := t.warp.slotB, stack := t.warp.stack } }) ∧
  (∀ (sp : Split) (keys : List Nat) (s : State), s.warp.slotA = some { sp with wait := .service keys } →
    (∀ q, s.warp.slotB = some q → q.wait = .none) → (∀ k ∈ keys, memNat s k 4 ≠ 0) →
    ((∀ k ∈ keys, memNat s k 4 ≠ 2) →
      ∃ t v, exec .pageHwServiceEnd s = .next t ∧ t.warp.slotA = some { sp with wait := .none, view := v } ∧
        t = { s with warp := { s.warp with slotA := t.warp.slotA } } ∧
        (∀ r ∈ s.hist, r.path = .g → r.serial ≤ s.serial → r.fenced = none → sp.view.const = false → v.sees .t r = true)) ∧
    ((∃ k ∈ keys, memNat s k 4 = 2) → s.warp.rg = none → s.warp.ended = none →
      ∃ t, exec .pageHwServiceEnd s = .next t ∧ t.warp.ended = some (1#8, Code.page) ∧ t.warp.endPc = sp.pc))

/-- The words to whose checks their own chapters add conditions. -/
def AddsChecks : Instr → Prop
  | .qPush _ | .qPop _ | .qStat _ | .ladEsc _ | .ladRes _ | .csrr _ | .csrw _ | .tret _ | .preemptOff _ => True
  | .fragOpen _ | .fragIn _ | .fragInm _ | .fragClaim _ | .fragOut _ | .fragOutWin _ | .fragSeal _ | .fragDrop _ | .fragName _ => True
  | .movx _ | .movxd _ | .brx _ | .callx _ | .entry _ | .mxStream _ => True
  | _ => False

/-- R36, R63, R69 to R71, R19, R20: outside a redundant group an ill-formed lane word traps ILLEGAL for its whole split,
whatever its lanes; a legal one, of those whose chapters add no check, traps BUDGET where a register lies outside the
allocation, then waits where a queue it names is empty or the back queue it pushes is full, then traps FORMAT where some
lane takes part and a tag is not accepted. Nothing else changes: no register, no queue, no byte. -/
def Clause.LaneChecks : Prop :=
  ∀ (i : Instr) (f : LaneForm) (w : Strip) (sp : Split) (s : State), s.split? = some sp → laneForm i = some (f, w) →
    s.warp.rg = none →
    let p := takingPart s.warp sp f w
    let inside := (Form.readRegs f w ++ Form.dstRegs f w).all (inAlloc s.warp.units) = true
    let waits := (∃ q ∈ namedQueues f w, s.warp.fq.getD q [] = []) ∨ backFull s.warp f w p = true
    (formLegal f w = false → exec i s = .next (takeTrap s (wholeTrap Code.illegal sp.mask))) ∧
    (formLegal f w = true → ¬ AddsChecks i →
      (¬ inside → exec i s = .next (takeTrap s (wholeTrap Code.budget (if p = 0#32 then sp.mask else p)))) ∧
      (inside → waits → exec i s = .next (s.setSplit (some { sp with wait := .queue }))) ∧
      (inside → ¬ waits → p ≠ 0#32 → 11 ≤ w.fmt.toNat ∨ tagsOk s.draws s.warp f w = false →
        exec i s = .next (takeTrap s (wholeTrap Code.format sp.mask))))

/-- Ill-formed lane words trap ILLEGAL, then BUDGET, queue waits and FORMAT in order; an empty P writes nothing: the
two clauses LaneChecks and EmptyMask. What the spec leaves open and the model settles in it: Which words LD with
back-queue or queue operands admits (log 73); A word that pops a queue waits for it before ALIGN and the other
checks after BUDGET (log 81); A reserved FMT traps FORMAT, also where a word's own rule says ILLEGAL of any other
FMT (log 95). -/
def Obligations.IssueChecks : Prop := Clause.LaneChecks ∧ Clause.EmptyMask

/-! ## Words, steps, the whole machine -/

/-- A strip of zeros. -/
def noFields : Strip := { sw := false, pm := 0#3, d := 0#8, a := ⟨0#8, 0#3, 0#5⟩, b := ⟨0#8, 0#3, 0#5⟩, c := ⟨0#8, 0#3, 0#5⟩
                          lr := 0#3, ib := false, rm := 0#2, sat := false, fmt := 0#4, x := 0#15 }

/-- R64 to R68, R84: words of the two streams, written out from the spec's encodings, decode to the instructions that they
stand for. -/
def Obligations.DecodeSanity : Prop :=
  decodeTableWord 32 0x4082FFF0 = some (.lds 4#5 2#5 0xFFF0#16) ∧
  decodeTableWord 32 0x04C00003 = some (.addi 6#5 0#5 3#16) ∧
  decodeTableWord 32 0x6C060C00 = some (.csrws 6#5 0xC00#16) ∧
  decodeTableWord 32 0x50800004 = some (.ldq 4#5 0#3 4#18) ∧
  decodeTableWord 32 0x90A0FFFC = some (.bne 5#5 0#5 0xFFFC#16) ∧
  decodeTableWord 32 0xB8000000 = some .halts ∧
  decodeTableWord 96 0x803C3010_00148C00_01008000 = some (.iadd { noFields with
    sw := true, pm := 7#3, d := 12#8, a := ⟨4#8, 0#3, 0#5⟩, b := ⟨5#8, 1#3, 3#5⟩, lr := 2#3, fmt := 1#4 }) ∧
  decodeTableWord 96 0x401C5078_00004000_00418002 = some (.ld { noFields with
    pm := 7#3, d := 20#8, a := ⟨30#8, 0#3, 0#5⟩, b := ⟨0#8, 0#3, 16#5⟩, ib := true, fmt := 3#4, x := 2#15 }) ∧
  decodeTableWord 96 0x701C0000_00000000_0000000A = some (.sigChk { noFields with pm := 7#3, x := 10#15 })

/-- R62, R64 to R68: in either stream decoding the word of a well-formed instruction gives it back, whatever its operands;
and every word, an undefined one too, is the word of the instruction that it decodes to. -/
def Obligations.WordsRoundTrip : Prop :=
  (∀ (i : Instr) (w : BitVec 32), i.wf = true → encodeAccess i = some w →
    decodeAccess w = i ∧ decodeTableWord 32 w.toNat = some i) ∧
  (∀ (i : Instr) (w : BitVec 96), i.wf = true → encodeLane i = some w →
    decodeLane w = i ∧ decodeTableWord 96 w.toNat = some i) ∧
  (∀ w : BitVec 32, encodeAccess (decodeAccess w) = some w) ∧ (∀ w : BitVec 96, encodeLane (decodeLane w) = some w)

/-- The state with which an agent's turn begins: the plan's next, or the agent in turn for one cycle (log 4), where no
ladder's oldest item reaches its STARVE count in the turn's cycles (R301). -/
def TurnBegins (s : State) (a : Turn) (s0 : State) : Prop :=
  s.agenda = [] ∧ starveBy s (s.cycle + turnCycles s) = none ∧ (s.plan = [] ∧ a = s.turn ∧ s0 = beginTurn a 1 s ∨
    ∃ w n rest, s.plan = (w, a, n) :: rest ∧ s0 = beginTurn a n (focusWarp { s with plan := rest } w))

/-- R17, R62, R82, R301: a step is exec of the instruction that the bytes at the program counter of the agent in
turn decode to, in the state after the fetch: the access stream's word of 4 bytes, its warp then the last one that
the pump served and warps that waited for a round of the pump served (R142), or a slot's word of 12 bytes; where an
input is due, a ladder's oldest item has waited STARVE cycles, or the machine raises an event, it is exec of that.
Which agent's turn it is, and that an access word which met a stall was not served, are the model's choices (log 4,
log 90). What the spec leaves open and the model settles in it: Who moves next is plain data of State; an access is
performed when its word issues, with all its lanes in one step (log 4); Round-robin of the access pump: by slot, and
a stalled attempt is no service (log 90). -/
def Obligations.StepRuns : Prop :=
  (∀ (s s0 s1 : State) (i : Instr) (bs : List Byte), TurnBegins s .access s0 → accessReady s0 = true →
    s0.warp.apc.toNat % 4 = 0 →
    fetchBytes s0.warp 1 (modCore s0 s0.warp.coreIx fun c => { c with served := s0.warp.slot }) s0.warp.apc = (.ok bs, s1) →
    decodeAccessBytes bs = some (i, []) →
    step s = match exec i s1 with
      | .next t => .next (pumpServed (notServed s.cores s1.warp.id t) s1.warp.id)
      | r => r) ∧
  (∀ (s s0 s1 : State) (b : Bool) (sp : Split) (i : Instr) (bs : List Byte),
    TurnBegins s (if b then .laneB else .laneA) s0 → trapDue { s0 with slotB := b } b = false → readySplit { s0 with slotB := b } b = some sp →
    sp.pc.toNat % 4 = 0 → fetchBytes s0.warp 3 { s0 with slotB := b } sp.pc = (.ok bs, s1) →
    decodeLaneBytes bs = some (i, []) → step s = exec i s1) ∧
  (∀ (s : State) (i : Instr) (rest : List Instr), s.agenda = i :: rest →
    step s = exec i { s with agenda := rest, draws := s.draws + 1 }) ∧
  (∀ (s : State) (c hw lnum rung : Nat), s.agenda = [] → starveBy s (s.cycle + turnCycles s) = some (c, hw, lnum, rung) →
    step s = exec (.starveExpire hw lnum rung) (passTo (max c s.cycle) s)) ∧
  (∀ s s0 : State, TurnBegins s .event s0 → events s0 ≠ [] →
    ∃ i ∈ events s0, step s = match exec i s0 with | .next t => .next (rotate t) | r => r)

/-- R357, R10: at reset the package is OFF with nothing resident and no memory listed, and the machine's memory has its
canonical form; no byte of it reads other than 0 (log 2). -/
def Obligations.ResetState : Prop :=
  State.reset.start = .off ∧ Memory.wf State.reset.mem = true ∧ State.reset.mem = [] ∧
  (∀ w ∈ allWarps State.reset, w.ended.isSome = true) ∧ State.reset.contexts = [] ∧ State.reset.grids = [] ∧
  (∀ k, memGet State.reset.mem k = 0#8) ∧ (∀ r, State.reset.warp.sget r = 0#64) ∧
  (∀ n, n < 16 → State.reset.sems0.getD n 1#32 = 0#32 ∧ State.reset.sems1.getD n 1#32 = 0#32)

/-- Every step of the machine keeps the canonical form of memory: keys strictly rising, no listed byte equal to what an
unlisted address reads as. So equal memories are equal data in every state that a run reaches. -/
def Obligations.StepKeepsMemory : Prop :=
  ∀ s t : State, Memory.wf s.mem = true → step s = .next t → Memory.wf t.mem = true
end

