-- ==== Sys2Proof/Laws/Memory.lean ====
section
/-! SUPPORT. Lemmas about memory: the canonical form, read after write, and what each memory operation leaves alone. -/

namespace Sys2Proof.Machine

/-! ## Tables -/

theorem find?_put_self {α : Type} (t : Tab α) (n : Nat) (v : α) : Tab.find? (Tab.put t n v) n = some v := by
  induction t with
  | nil => simp [Tab.put, Tab.find?]
  | cons p t ih =>
    obtain ⟨k, w⟩ := p
    simp only [Tab.put]
    split
    · simp [Tab.find?]
    · split
      · simp [Tab.find?]
      · rename_i h1 h2; simp [Tab.find?, Ne.symm h2, ih]

theorem find?_put_ne {α : Type} (t : Tab α) {n m : Nat} (v : α) (h : m ≠ n) : Tab.find? (Tab.put t n v) m = Tab.find? t m := by
  induction t with
  | nil => simp [Tab.put, Tab.find?, Ne.symm h]
  | cons p t ih =>
    obtain ⟨k, w⟩ := p
    simp only [Tab.put]
    split
    · simp [Tab.find?, Ne.symm h]
    · split
      · rename_i h1 h2; subst h2; simp [Tab.find?, Ne.symm h]
      · simp [Tab.find?, ih]

@[simp] theorem getD_put_self {α : Type} (t : Tab α) (n : Nat) (v d : α) : Tab.getD (Tab.put t n v) n d = v := by
  simp [Tab.getD, find?_put_self]

theorem getD_put_ne {α : Type} (t : Tab α) {n m : Nat} (v d : α) (h : m ≠ n) :
    Tab.getD (Tab.put t n v) m d = Tab.getD t m d := by
  simp [Tab.getD, find?_put_ne t v h]

theorem getD_put {α : Type} (t : Tab α) (n m : Nat) (v d : α) :
    Tab.getD (Tab.put t n v) m d = if m = n then v else Tab.getD t m d := by
  split
  · subst m; simp
  · exact getD_put_ne t v d ‹_›

/-! ## The list of bytes -/

theorem memGet_insert (m : List Host.Cell) (n k : Nat) (v : Byte) :
    memGet (memInsert m n v) k = if k = n then v else memGet m k := by
  induction m with
  | nil => simp [memInsert, memGet, eq_comm]
  | cons p t ih =>
    obtain ⟨a, b⟩ := p
    simp only [memInsert]
    split
    · simp [memGet, eq_comm]
    · split
      · rename_i h1 h2; subst h2; simp only [memGet]; by_cases hk : k = n <;> simp [hk, Ne.symm]
      · simp only [memGet, ih]; split_ifs <;> simp_all

theorem memGet_erase (m : List Host.Cell) (n k : Nat) :
    memGet (memErase m n) k = if k = n then Memory.blank else memGet m k := by
  induction m with
  | nil => simp [memErase, memGet]
  | cons p t ih =>
    obtain ⟨a, b⟩ := p
    simp only [memErase]
    split
    · rename_i h; subst h; rw [ih]; simp only [memGet]; split_ifs <;> simp_all
    · simp only [memGet, ih]; split_ifs <;> simp_all

/-- Read after write: the byte written at its key, every other byte as before. -/
theorem memGet_put (m : List Host.Cell) (n k : Nat) (v : Byte) :
    memGet (memPut m n v) k = if k = n then v else memGet m k := by
  unfold memPut
  split
  · rename_i h; subst h; exact memGet_erase m n k
  · exact memGet_insert m n k v

/-- Keys of a canonical memory lie above its first. -/
def above (n : Nat) (m : List Host.Cell) : Prop := ∀ p ∈ m, n < p.1

theorem wf_cons (k : Nat) (b : Byte) (m : List Host.Cell) :
    Memory.wf ((k, b) :: m) = true ↔ b ≠ Memory.blank ∧ above k m ∧ Memory.wf m = true := by
  induction m generalizing k b with
  | nil => simp [Memory.wf, above]
  | cons p t ih =>
    obtain ⟨k', b'⟩ := p
    rw [Memory.wf, ih k' b']
    simp only [above, List.mem_cons, forall_eq_or_imp, Bool.and_eq_true, bne_iff_ne, decide_eq_true_eq, ih]
    constructor
    · rintro ⟨⟨h1, h2⟩, h3, h4, h5⟩; exact ⟨h1, ⟨h2, fun q hq => h2.trans (h4 q hq)⟩, h3, h4, h5⟩
    · rintro ⟨h1, ⟨h2, -⟩, h3, h4, h5⟩; exact ⟨⟨h1, h2⟩, h3, h4, h5⟩

theorem above_insert {n a : Nat} {v : Byte} {m : List Host.Cell} (h : a < n) (hm : above a m) : above a (memInsert m n v) := by
  induction m with
  | nil => simpa [memInsert, above] using h
  | cons p t ih =>
    obtain ⟨k, b⟩ := p
    have hk : a < k := hm (k, b) (by simp)
    have ht : above a t := fun q hq => hm q (by simp [hq])
    simp only [memInsert]
    split
    · intro q hq; simp only [List.mem_cons] at hq
      rcases hq with rfl | rfl | hq
      · exact h
      · exact hk
      · exact ht q hq
    · split
      · intro q hq; simp only [List.mem_cons] at hq
        rcases hq with rfl | hq
        · exact h
        · exact ht q hq
      · intro q hq; simp only [List.mem_cons] at hq
        rcases hq with rfl | hq
        · exact hk
        · exact ih ht q hq

theorem above_erase {n a : Nat} {m : List Host.Cell} (hm : above a m) : above a (memErase m n) := by
  induction m with
  | nil => simp [memErase, above]
  | cons p t ih =>
    obtain ⟨k, b⟩ := p
    have ht : above a t := fun q hq => hm q (by simp [hq])
    simp only [memErase]
    split
    · exact ih ht
    · intro q hq; simp only [List.mem_cons] at hq
      rcases hq with rfl | hq
      · exact hm _ (by simp)
      · exact ih ht q hq

theorem memInsert_wf {m : List Host.Cell} {n : Nat} {v : Byte} (hv : v ≠ Memory.blank) (hm : Memory.wf m = true) :
    Memory.wf (memInsert m n v) = true := by
  induction m with
  | nil => simpa [memInsert, Memory.wf] using hv
  | cons p t ih =>
    obtain ⟨k, b⟩ := p
    obtain ⟨h1, h2, h3⟩ := (wf_cons k b t).mp hm
    simp only [memInsert]
    split
    · rename_i h
      refine (wf_cons _ _ _).mpr ⟨hv, ?_, hm⟩
      intro q hq; simp only [List.mem_cons] at hq
      rcases hq with rfl | hq
      · exact h
      · exact h.trans (h2 q hq)
    · split
      · rename_i h; subst h; exact (wf_cons _ _ _).mpr ⟨hv, h2, h3⟩
      · exact (wf_cons _ _ _).mpr ⟨h1, above_insert (by omega) h2, ih h3⟩

theorem memErase_wf {m : List Host.Cell} {n : Nat} (hm : Memory.wf m = true) : Memory.wf (memErase m n) = true := by
  induction m with
  | nil => rfl
  | cons p t ih =>
    obtain ⟨k, b⟩ := p
    obtain ⟨h1, h2, h3⟩ := (wf_cons k b t).mp hm
    simp only [memErase]
    split
    · exact ih h3
    · exact (wf_cons _ _ _).mpr ⟨h1, above_erase h2, ih h3⟩

/-- A write keeps the canonical form. -/
theorem memPut_wf {m : List Host.Cell} {n : Nat} {v : Byte} (hm : Memory.wf m = true) : Memory.wf (memPut m n v) = true := by
  unfold memPut
  split
  · exact memErase_wf hm
  · exact memInsert_wf ‹_› hm

/-- A run of writes keeps the canonical form. -/
theorem memPutList_wf {m : List Host.Cell} {k : Nat} {l : List Byte} (hm : Memory.wf m = true) :
    Memory.wf (memPutList m k l) = true := by
  induction l generalizing m k with
  | nil => exact hm
  | cons b t ih => exact ih (memPut_wf hm)

end Sys2Proof.Machine
end

