-- ==== Sys2Proof/Laws/Place.lean ====
section
/-! SUPPORT. Lemmas about placing an access, loads and stores: the one thing each can change. -/

namespace Sys2Proof.Machine

/-! ## Placing an access fills the translation cache alone -/

theorem translate_keeps (s : State) (v : PathView) (core ctx : Nat) (va : DWord) :
    ∃ c, (translate s v core ctx va).2 = { s with tlb := c } := by
  unfold translate
  split
  · exact ⟨_, rfl⟩
  · dsimp only; split <;> exact ⟨_, rfl⟩

theorem placePaged_keeps (s : State) (v : PathView) (core ctx : Nat) (kind : AccKind) (va : DWord) :
    ∃ c, (placePaged s v core ctx kind va).2 = { s with tlb := c } := by
  obtain ⟨c, h⟩ := translate_keeps s v core ctx va
  unfold placePaged
  generalize translate s v core ctx va = r at h
  obtain ⟨l, s'⟩ := r
  dsimp only at h ⊢
  subst h
  split
  · exact ⟨_, rfl⟩
  · split
    · exact ⟨_, rfl⟩
    · split <;> exact ⟨_, rfl⟩

theorem placeAccess_keeps (s : State) (v : PathView) (w : Warp) (kind : AccKind) (va : DWord) (n : Nat) :
    ∃ c, (placeAccess s v w kind va n).2 = { s with tlb := c } := by
  unfold placeAccess
  split
  · exact ⟨_, rfl⟩
  · exact placePaged_keeps ..

theorem placeAccess_state {s s' : State} {v : PathView} {w : Warp} {kind : AccKind} {va : DWord} {n : Nat}
    {r : Except AccErr Nat} (h : placeAccess s v w kind va n = (r, s')) : ∃ c, s' = { s with tlb := c } := by
  obtain ⟨c, hc⟩ := placeAccess_keeps s v w kind va n
  exact ⟨c, by rw [← hc, h]⟩

theorem placeCuts_keeps (place : DWord → Nat → State → Except AccErr Nat × State)
    (h : ∀ va n s, ∃ c, (place va n s).2 = { s with tlb := c }) (l : List (DWord × Nat)) (s : State) :
    ∃ c, (placeCuts place l s).2 = { s with tlb := c } := by
  induction l generalizing s with
  | nil => exact ⟨_, rfl⟩
  | cons p t ih =>
    obtain ⟨c, hc⟩ := h p.1 p.2 s
    obtain ⟨c', hc'⟩ := ih (place p.1 p.2 s).2
    refine ⟨c', ?_⟩
    rw [placeCuts, hc', hc]

theorem placeSpan_keeps (s : State) (v : PathView) (w : Warp) (kind : AccKind) (va : DWord) (n : Nat) :
    ∃ c, (placeSpan s v w kind va n).2 = { s with tlb := c } := by
  obtain ⟨c, h⟩ := placeCuts_keeps (fun va n s => placeAccess s v w kind va n)
    (fun va n s => placeAccess_keeps s v w kind va n) (cutsOf va n) s
  refine ⟨c, ?_⟩
  unfold placeSpan
  dsimp only
  split <;> exact h

theorem tableRead_keeps (s : State) (v : PathView) (w : Warp) (lane : Nat) (va : DWord) (n : Nat) :
    ∃ c, (tableRead s v w lane va n).2 = { s with tlb := c } := by
  obtain ⟨c, h⟩ := placeSpan_keeps s { v with epoch := none } w .read va n
  refine ⟨c, ?_⟩
  unfold tableRead
  split <;> (rename_i he; rw [he] at h; exact h)

theorem kvFind_keeps (s : State) (v : PathView) (w : Warp) (lane seq p : Nat) :
    ∃ c, (kvFind s v w lane seq p).2 = { s with tlb := c } := by
  unfold kvFind
  split
  · exact ⟨_, rfl⟩
  · rename_i x _
    dsimp only
    split
    · exact ⟨_, rfl⟩
    · obtain ⟨c, h⟩ := tableRead_keeps s v w lane (seqAddr x seq) 64
      refine ⟨c, ?_⟩
      split
      · rename_i he; rw [he] at h; exact h
      · rename_i he; rw [he] at h; dsimp only at h; split <;> exact h

/-- A translation of a position fills the translation cache alone (R307, R308). -/
theorem kvAddr_keeps (s : State) (v : PathView) (w : Warp) (lane seq p : Nat) :
    ∃ c, (kvAddr s v w lane seq p).2 = { s with tlb := c } := by
  obtain ⟨c, h⟩ := kvFind_keeps s v w lane seq p
  unfold kvAddr
  split
  · rename_i he; rw [he] at h; exact ⟨c, h⟩
  · rename_i d b entry bad s1 he
    rw [he] at h; dsimp only at h; subst h
    obtain ⟨c2, h2⟩ := tableRead_keeps { s with tlb := c } v w lane entry 16
    exact ⟨c2, h2⟩

theorem kvLanes_keeps (v : PathView) (w : Warp) (l : List (Nat × Nat × Nat)) (seen : BlocksRead) (s : State) :
    ∃ c, (kvLanes v w l seen s).2 = { s with tlb := c } := by
  induction l generalizing seen s with
  | nil => exact ⟨_, rfl⟩
  | cons x t ih =>
    obtain ⟨i, seq, p⟩ := x
    obtain ⟨c, h⟩ := kvFind_keeps s v w i seq p
    unfold kvLanes
    split
    · rename_i he; rw [he] at h; dsimp only at h; subst h
      obtain ⟨c', h'⟩ := ih seen { s with tlb := c }
      exact ⟨c', h'⟩
    · rename_i d b entry bad s1 he
      rw [he] at h; dsimp only at h; subst h
      split
      · obtain ⟨c', h'⟩ := ih seen { s with tlb := c }
        exact ⟨c', h'⟩
      · obtain ⟨c2, h2⟩ := tableRead_keeps { s with tlb := c } v w i entry 16
        dsimp only
        rw [h2]
        obtain ⟨c', h'⟩ := ih (((seq, b), entry, (tableRead { s with tlb := c } v w i entry 16).1) :: seen) { s with tlb := c2 }
        exact ⟨c', h'⟩

/-! ## Times -/

theorem TimesOnly.refl (c : Core) : TimesOnly c c := rfl
theorem TimesOnly.trans {a b c : Core} (h1 : TimesOnly a b) (h2 : TimesOnly b c) : TimesOnly a c := by
  unfold TimesOnly at *; rw [h2, h1]

/-- Every core changed its times at most. -/
def CoresTimes (a b : Tab Core) : Prop := ∀ n, TimesOnly (Tab.getD a n Core.init) (Tab.getD b n Core.init)

theorem CoresTimes.refl (a : Tab Core) : CoresTimes a a := fun _ => rfl
theorem CoresTimes.trans {a b c : Tab Core} (h1 : CoresTimes a b) (h2 : CoresTimes b c) : CoresTimes a c :=
  fun n => (h1 n).trans (h2 n)

/-- Times of one core put anew. -/
theorem coresTimes_put (t : Tab Core) (core : Nat) (p : BitVec 48) (l : List (Nat × BitVec 48)) :
    CoresTimes t (Tab.put t core { Tab.getD t core Core.init with pts := p, leases := l }) := by
  intro n
  rw [getD_put]
  split
  · subst n; rfl
  · rfl

theorem stampLoad_keeps (s : State) (core k : Nat) :
    ∃ lt dl cs, stampLoad s core k = { s with lineTimes := lt, dieLeases := dl, cores := cs } ∧ CoresTimes s.cores cs :=
  ⟨_, _, _, rfl, coresTimes_put _ _ _ _⟩

theorem stampStore_keeps (s : State) (core k : Nat) :
    ∃ lt cs, stampStore s core k = { s with lineTimes := lt, cores := cs } ∧ CoresTimes s.cores cs :=
  ⟨_, _, rfl, coresTimes_put _ _ _ _⟩

/-- Loads of lanes return the bytes as they stand before the first, and change times alone. -/
theorem readLanes_spec (v : PathView) (core n : Nat) (l : List (LaneAcc × Nat)) (s : State) :
    ∃ lt dl cs, readLanes v core n l s =
      (l.map (fun p => readBytes s v .g p.1.lane (keysFrom p.2 n)), { s with lineTimes := lt, dieLeases := dl, cores := cs }) ∧
      CoresTimes s.cores cs := by
  induction l generalizing s with
  | nil => exact ⟨_, _, _, rfl, .refl _⟩
  | cons p t ih =>
    obtain ⟨x, k⟩ := p
    obtain ⟨lt, dl, cs, h, hc⟩ := stampLoad_keeps s core k
    obtain ⟨lt', dl', cs', h', hc'⟩ := ih { s with lineTimes := lt, dieLeases := dl, cores := cs }
    refine ⟨lt', dl', cs', ?_, hc.trans hc'⟩
    simp only [readLanes, gLoad, h, h']
    rfl

/-- Outside a redundant group a load of the access stream reads its bytes, and its stream learns of what it has read. -/
theorem accRead_single {s : State} (h : s.warp.rg = none) (n : Nat) (l : List (DWord × Nat)) :
    accRead s n l = accSeen (l.flatMap fun p => keysFrom p.2 n) (.ok (readLanes (aviewOf s.warp) s.warp.coreIx n
      ((List.range l.length).zip l |>.map fun p => ((⟨p.1, p.2.1, true⟩ : LaneAcc), p.2.2)) s)) := by
  unfold accRead accReadRaw
  have : (l.any fun p => sharedAddr s.warp p.1) = false := by simp [sharedAddr, h]
  simp [this]

/-! ## Stores -/

theorem markDirty_keeps (s : State) (k : Nat) : ∃ d, markDirty s k = { s with spDirty := d } := by
  unfold markDirty; split <;> exact ⟨_, rfl⟩

/-- What a committed write of one byte leaves: its own byte written or, where an unordered newer write stands over it,
nothing; every other byte as it was. -/
theorem writeCommitted_keeps (s : State) (v : PathView) (path : Path) (land group k : Nat) (b : Byte) :
    ∃ m h d, writeCommitted s v path land group k b = { s with mem := m, hist := h, serial := s.serial + 1, spDirty := d } ∧
      (∀ j, j ≠ home s k → memGet m j = memGet s.mem j) ∧ (Memory.wf s.mem = true → Memory.wf m = true) := by
  unfold writeCommitted
  obtain ⟨d, hd⟩ := markDirty_keeps { s with serial := s.serial + 1 } (home s k)
  simp only [hd]
  split
  · split
    · exact ⟨_, _, _, rfl, fun j hj => by rw [memGet_put]; simp [hj], memPut_wf⟩
    · exact ⟨_, _, _, rfl, fun _ _ => rfl, id⟩
  · exact ⟨_, _, _, rfl, fun j hj => by rw [memGet_put]; simp [hj], memPut_wf⟩

/-- A write ordered after every earlier one stands in memory. -/
theorem writeCommitted_get (s : State) (v : PathView) (path : Path) (land group k : Nat) (b : Byte)
    (h : ∀ r ∈ s.hist, v.sees path r = true) :
    memGet (writeCommitted s v path land group k b).mem (home s k) = b := by
  unfold writeCommitted
  obtain ⟨d, hd⟩ := markDirty_keeps { s with serial := s.serial + 1 } (home s k)
  simp only [hd]
  split
  · rename_i x hx
    have hx' : x ∈ s.hist := List.mem_of_find?_eq_some hx
    simp [h x hx', memGet_put]
  · simp [memGet_put]

/-- A run of byte writes on one path. -/
theorem writeRun_keeps (v : PathView) (hv : v.epoch = none) (path : Path) (land group : Nat) (l : List (Nat × Byte)) (s : State) :
    ∃ m h e d, l.foldl (fun s p => writeByte s v path land group p.1 p.2) s =
        { s with mem := m, hist := h, serial := e, spDirty := d } ∧
      (∀ j, j ∉ l.map (fun p => home s p.1) → memGet m j = memGet s.mem j) ∧
      (Memory.wf s.mem = true → Memory.wf m = true) := by
  induction l generalizing s with
  | nil => exact ⟨_, _, _, _, rfl, fun _ _ => rfl, id⟩
  | cons p t ih =>
    obtain ⟨m, h, d, he, hm, hw⟩ := writeCommitted_keeps s v path land group p.1 p.2
    have h1 : writeByte s v path land group p.1 p.2 = { s with mem := m, hist := h, serial := s.serial + 1, spDirty := d } := by
      simp only [writeByte, hv, he]
    obtain ⟨m', h', e', d', he', hm', hw'⟩ := ih { s with mem := m, hist := h, serial := s.serial + 1, spDirty := d }
    refine ⟨m', h', e', d', ?_, ?_, fun x => hw' (hw x)⟩
    · rw [List.foldl_cons, h1, he']
    · intro j hj
      simp only [List.map_cons, List.mem_cons, not_or] at hj
      rw [hm' j hj.2]
      exact hm j hj.1

/-- An issuer outside constant memory sees every write that has its place in the generic order. -/
theorem sees_ordered {v : PathView} (hc : v.const = false) {r : WriteRec} (h : r.path = .g ∨ r.fenced.isSome = true) :
    v.sees .g r = true := by
  rcases h with h | h <;> simp [PathView.sees, hc, h]

/-- The write records after a write on path G hold ordered ones alone, where they did before. -/
theorem writeCommitted_hist (s : State) (v : PathView) (hc : v.const = false) (land group k : Nat) (b : Byte)
    (h : ∀ r ∈ s.hist, r.path = .g ∨ r.fenced.isSome = true) :
    ∀ r ∈ (writeCommitted s v .g land group k b).hist, r.path = .g ∨ r.fenced.isSome = true := by
  unfold writeCommitted
  obtain ⟨d, hd⟩ := markDirty_keeps { s with serial := s.serial + 1 } (home s k)
  simp only [hd]
  have hs : ∀ r ∈ s.hist, v.sees .g r = true := fun r hr => sees_ordered hc (h r hr)
  split
  · rename_i x hx
    have hx' : x ∈ s.hist := List.mem_of_find?_eq_some hx
    simp only [hs x hx', Bool.true_or, if_true]
    intro r hr; rcases List.mem_cons.mp hr with rfl | hr
    · exact .inl rfl
    · exact h r hr
  · intro r hr; rcases List.mem_cons.mp hr with rfl | hr
    · exact .inl rfl
    · exact h r hr

/-- Bytes written at distinct places on path G, after every earlier write, stand in memory. -/
theorem writeRun_get (v : PathView) (hv : v.epoch = none) (hc : v.const = false) (land group : Nat) (l : List (Nat × Byte))
    (s : State) (hs : ∀ r ∈ s.hist, r.path = .g ∨ r.fenced.isSome = true) (hd : (l.map (fun p => home s p.1)).Nodup) :
    ∀ p ∈ l, memGet (l.foldl (fun s p => writeByte s v .g land group p.1 p.2) s).mem (home s p.1) = p.2 := by
  induction l generalizing s with
  | nil => simp
  | cons q t ih =>
    obtain ⟨m, h, d, he, hm, hw⟩ := writeCommitted_keeps s v .g land group q.1 q.2
    have h1 : writeByte s v .g land group q.1 q.2 = writeCommitted s v .g land group q.1 q.2 := by simp only [writeByte, hv]
    rw [List.map_cons, List.nodup_cons] at hd
    intro p hp
    rw [List.foldl_cons, h1]
    rcases List.mem_cons.mp hp with rfl | hp
    · obtain ⟨m', h', e', d', he', hm', -⟩ := writeRun_keeps v hv .g land group t (writeCommitted s v .g land group p.1 p.2)
      rw [he', hm']
      · exact writeCommitted_get s v .g land group p.1 p.2 fun r hr => sees_ordered hc (hs r hr)
      · rw [he]; exact hd.1
    · have := ih (writeCommitted s v .g land group q.1 q.2) (writeCommitted_hist s v hc land group q.1 q.2 hs)
        (by rw [he]; exact hd.2) p hp
      rw [he] at this ⊢
      exact this

theorem poisonAfterWrite_keeps (s : State) (ks : List Nat) (bad : Bool) : ∃ p, poisonAfterWrite s ks bad = { s with poison := p } := by
  unfold poisonAfterWrite
  dsimp only
  split
  · generalize ks.map (home s) = l
    induction l generalizing s with
    | nil => exact ⟨_, rfl⟩
    | cons k t ih =>
      rw [List.foldl_cons]
      unfold poisonWord
      split
      · exact ih s
      · obtain ⟨p, hp⟩ := ih { s with poison := k / 4 :: s.poison }
        exact ⟨p, hp⟩
  · exact ⟨_, rfl⟩

theorem countRemote_keeps (s : State) (v : PathView) (ks : List Nat) : ∃ c, countRemote s v ks = { s with sent := c } := by
  unfold countRemote
  split
  · exact ⟨_, rfl⟩
  · generalize ((ks.filter (homedAway s)).map (· / 2 ^ 39)).eraseDups = l
    induction l generalizing s with
    | nil => exact ⟨_, rfl⟩
    | cons c t ih =>
      obtain ⟨c', h⟩ := ih (countChip s c)
      exact ⟨c', by rw [List.foldl_cons, h]; rfl⟩

/-- One store of bytes outside an epoch: the bytes at its keys alone, their records and marks, and its number where they are
homed elsewhere (R199). -/
theorem writeBytes_keeps (s : State) (v : PathView) (hv : v.epoch = none) (path : Path) (land : Nat) (ks : List Nat)
    (bs : List Byte) (bad : Bool) :
    ∃ m h e d p c, writeBytes s v path land ks bs bad =
        { s with mem := m, hist := h, serial := e, spDirty := d, poison := p, sent := c } ∧
      (∀ j, j ∉ ks.map (home s) → memGet m j = memGet s.mem j) ∧ (Memory.wf s.mem = true → Memory.wf m = true) ∧
      m = ((ks.zip bs).foldl (fun t p => writeByte t v path land (s.serial + 1) p.1 p.2) s).mem := by
  obtain ⟨m, h, e, d, he, hm, hw⟩ := writeRun_keeps v hv path land (s.serial + 1) (ks.zip bs) s
  obtain ⟨p, hp⟩ := poisonAfterWrite_keeps { s with mem := m, hist := h, serial := e, spDirty := d } ks bad
  obtain ⟨c, hr⟩ := countRemote_keeps { s with mem := m, hist := h, serial := e, spDirty := d, poison := p } v ks
  refine ⟨m, h, e, d, p, c, ?_, ?_, hw, ?_⟩
  · unfold writeBytes; rw [he, hp, hr]
  · intro j hj
    refine hm j fun hjj => hj ?_
    rw [List.mem_map] at hjj ⊢
    obtain ⟨q, hq, rfl⟩ := hjj
    exact ⟨q.1, (List.of_mem_zip hq).1, rfl⟩
  · rw [he]

/-- What a store publishes: fences to path T, and marks of filter contexts (R138, R316). -/
theorem publish_keeps (s : State) (v : PathView) :
    ∃ tf fl, publish s v = { s with tfences := tf, filters := fl } ∧
      fl.map (fun f => { f with read := false, pub := none }) = bareFilters s := by
  refine ⟨_, _, rfl, ?_⟩
  unfold bareFilters
  rw [List.map_map]
  apply List.map_congr_left
  intro f _
  simp only [Function.comp]
  split <;> rfl

/-- A store on path G outside an epoch: the bytes at its keys alone, their records, marks and times, and what it publishes. -/
theorem gStore_keeps (s : State) (v : PathView) (hv : v.epoch = none) (core k : Nat) (bs : List Byte) (bad : Bool) :
    ∃ m h e d p lt cs c tf fl, gStore s v core k bs bad =
        { s with mem := m, hist := h, serial := e, spDirty := d, poison := p, lineTimes := lt, cores := cs, sent := c,
                 tfences := tf, filters := fl } ∧
      (∀ j, j ∉ (keysFrom k bs.length).map (home s) → memGet m j = memGet s.mem j) ∧
      (Memory.wf s.mem = true → Memory.wf m = true) ∧ CoresTimes s.cores cs ∧
      fl.map (fun f => { f with read := false, pub := none }) = bareFilters s ∧
      m = (((keysFrom k bs.length).zip bs).foldl (fun t p => writeByte t v .g 0 (s.serial + 1) p.1 p.2) s).mem := by
  obtain ⟨m, h, e, d, p, c, he, hm, hw, hmem⟩ := writeBytes_keeps s v hv .g 0 (keysFrom k bs.length) bs bad
  obtain ⟨tf, fl, hp, hfl⟩ := publish_keeps { s with mem := m, hist := h, serial := e, spDirty := d, poison := p, sent := c } v
  obtain ⟨lt, cs, ht, hc⟩ := stampStore_keeps
    { s with mem := m, hist := h, serial := e, spDirty := d, poison := p, sent := c, tfences := tf, filters := fl } core k
  refine ⟨m, h, e, d, p, lt, cs, c, tf, fl, ?_, hm, hw, hc, hfl, hmem⟩
  unfold gStore; rw [he, hp, ht]

/-! ## Where the bytes of an aligned access lie -/

theorem keysFrom_len (k n) : (keysFrom k n).length = n := by simp [keysFrom]
theorem toBytesLE_len (n v) : (toBytesLE n v).length = n := by
  induction n generalizing v with
  | zero => rfl
  | succ n ih => simp [toBytesLE, ih]
theorem toBytesLE_get (n v j) (h : j < n) : (toBytesLE n v)[j]'(by rw [toBytesLE_len]; exact h) = BitVec.ofNat 8 (v / 256 ^ j) := by
  induction n generalizing v j with
  | zero => omega
  | succ n ih =>
    cases j with
    | zero => simp [toBytesLE]
    | succ j => simp only [toBytesLE, List.getElem_cons_succ]; rw [ih _ _ (by omega), Nat.div_div_eq_div_mul, pow_succ, Nat.mul_comm]

/-- A placed access keeps the alignment of its address. -/
theorem mod_two_pow_mod {a e : Nat} {n : Nat} (hn : n = 8 ∨ n = 4) (h : a % n = 0) : a % 2 ^ e % n = 0 := by
  rcases hn with rfl | rfl
  · rcases Nat.lt_or_ge e 3 with he | he
    · interval_cases e <;> omega
    · have : 8 ∣ 2 ^ e := by rw [show 8 = 2 ^ 3 from rfl]; exact pow_dvd_pow _ he
      rw [Nat.mod_mod_of_dvd _ this]; exact h
  · rcases Nat.lt_or_ge e 2 with he | he
    · interval_cases e <;> omega
    · have : 4 ∣ 2 ^ e := by rw [show 4 = 2 ^ 2 from rfl]; exact pow_dvd_pow _ he
      rw [Nat.mod_mod_of_dvd _ this]; exact h

theorem spKey_aligned {core off n : Nat} (hn : n = 8 ∨ n = 4) (h : n ∣ off) : spKey core off % n = 0 := by
  apply Nat.mod_eq_zero_of_dvd
  unfold spKey
  have h1 : n ∣ spBase := by rcases hn with rfl | rfl <;> (unfold spBase; norm_num)
  have h2 : n ∣ core * 2 ^ 19 := Dvd.dvd.mul_left (by rcases hn with rfl | rfl <;> norm_num) _
  exact (h1.add h2).add h

theorem region_aligned {ea : DWord} {n : Nat} (hn : n = 8 ∨ n = 4) (h : ea.toNat % n = 0) :
    (∀ off, regionOf ea = .local_ off → n ∣ off) ∧ ∀ c off, regionOf ea = .cluster c off → n ∣ off := by
  have hd := Nat.dvd_of_mod_eq_zero h
  have h56 : n ∣ 2 ^ 56 := by rcases hn with rfl | rfl <;> norm_num
  have h32 : n ∣ 2 ^ 32 := by rcases hn with rfl | rfl <;> norm_num
  have h19 : n ∣ 2 ^ 19 := by rcases hn with rfl | rfl <;> norm_num
  unfold regionOf
  constructor
  · intro off e
    dsimp only at e
    split at e
    · cases e
    · split at e
      · injection e with e; rw [← e]; exact Nat.dvd_sub hd h56
      · split at e <;> cases e
  · intro c off e
    dsimp only at e
    split at e
    · cases e
    · split at e
      · cases e
      · split at e
        · injection e with e1 e2; rw [← e2]
          exact (Nat.dvd_mod_iff h19).mpr (Nat.dvd_sub (Nat.dvd_sub hd h56) h32)
        · cases e

theorem placeAccess_aligned {s s' : State} {v w kind ea} {n k : Nat} (hn : n = 8 ∨ n = 4)
    (hp : placeAccess s v w kind ea n = (.ok k, s')) (h : ea.toNat % n = 0) : k % n = 0 := by
  unfold placeAccess at hp
  split at hp
  · rename_i r hw
    injection hp with hr hs
    subst hr
    unfold placeWindow at hw
    split at hw
    · cases hw
    · cases hw
    · rename_i off hreg
      split at hw
      · split at hw
        · injection hw with hw; injection hw with hw
          rw [← hw]; exact spKey_aligned hn ((region_aligned hn h).1 _ hreg)
        · cases hw
      · cases hw
    · rename_i c off hreg
      split at hw
      · split at hw
        · injection hw with hw; injection hw with hw
          rw [← hw]; exact spKey_aligned hn ((region_aligned hn h).2 _ _ hreg)
        · cases hw
      · cases hw
  · unfold placePaged at hp
    split at hp
    rename_i l s1 ht
    split at hp
    · cases hp
    · split at hp
      · cases hp
      · split at hp
        · cases hp
        · injection hp with hk hs
          injection hk with hk
          subst hk
          rename_i lf _ _
          unfold leafKey entryKey hbmKey entryAddr
          have h3 := Nat.dvd_of_mod_eq_zero (mod_two_pow_mod (e := lf.size) hn h)
          apply Nat.mod_eq_zero_of_dvd
          refine Dvd.dvd.add (Dvd.dvd.add ?_ ?_) h3
          · exact Dvd.dvd.mul_left (by rcases hn with rfl | rfl <;> norm_num) _
          · exact Dvd.dvd.mul_left (by rcases hn with rfl | rfl <;> norm_num) _

theorem home_nodup (s : State) (k n : Nat) (hn : n = 8 ∨ n = 4) (h : k % n = 0) : ((keysFrom k n).map (home s)).Nodup := by
  have key : ∀ i j, i < n → j < n → home s (k + i) = home s (k + j) → i = j := by
    intro i j hi hj e
    have h1 : (k + i) / 4096 = (k + j) / 4096 := by rcases hn with rfl | rfl <;> omega
    have h2 : (k + i) < spBase ↔ (k + j) < spBase := by unfold spBase; rcases hn with rfl | rfl <;> omega
    unfold home at e
    rw [h1] at e
    by_cases hb : k + j < spBase
    · rw [if_pos (h2.mpr hb), if_pos hb] at e
      split at e <;> omega
    · rw [if_neg (fun x => hb (h2.mp x)), if_neg hb] at e; omega
  unfold keysFrom
  rw [List.map_map]
  refine List.Nodup.map_on ?_ List.nodup_range
  intro a ha b hb e
  exact key a b (List.mem_range.mp ha) (List.mem_range.mp hb) e


end Sys2Proof.Machine
end

