-- ==== Sys2Proof/Laws/Access.lean ====
section
/-! SUPPORT. Lemmas about the access stream: what completing a word leaves, and its arithmetic over integers. -/

namespace Sys2Proof.Machine

/-! ## What a checkpoint after a word writes (R333, R334) -/

theorem memGet_putList (l : List Byte) (m : List Host.Cell) (k n : Nat) (h : n < k ∨ k + l.length ≤ n) :
    memGet (memPutList m k l) n = memGet m n := by
  induction l generalizing m k with
  | nil => rfl
  | cons b t ih =>
    rw [memPutList, ih _ _ (by simp only [List.length_cons] at h; omega), memGet_put]
    rw [if_neg]; simp only [List.length_cons] at h; omega

theorem walk_warp (s : State) (w : Warp) (c : List Warp) (v : PathView) (va : Nat) (l : List (Nat × Nat × Bool)) (t : Nat) :
    walk { s with warp := w, checkpoints := c } v va l t = walk s v va l t := by
  induction l generalizing t with
  | nil => rfl
  | cons x r ih => simp only [walk, ih]; rfl

theorem translate_warp (s : State) (w : Warp) (c : List Warp) (v : PathView) (core ctx : Nat) (va : DWord) :
    translate { s with warp := w, checkpoints := c } v core ctx va =
      ((translate s v core ctx va).1, { (translate s v core ctx va).2 with warp := w, checkpoints := c }) := by
  have hw : walkCtx { s with warp := w, checkpoints := c } v ctx va = walkCtx s v ctx va := by
    simp only [walkCtx, walk_warp]
  have ht : tlbFind { s with warp := w, checkpoints := c } core ctx va = tlbFind s core ctx va := rfl
  unfold translate
  simp only [hw, ht]
  cases tlbFind s core ctx va with
  | some x => rfl
  | none => cases walkCtx s v ctx va <;> rfl

theorem placePaged_warp (s : State) (w : Warp) (c : List Warp) (v : PathView) (core ctx : Nat) (kind : AccKind) (va : DWord) :
    placePaged { s with warp := w, checkpoints := c } v core ctx kind va =
      ((placePaged s v core ctx kind va).1, { (placePaged s v core ctx kind va).2 with warp := w, checkpoints := c }) := by
  unfold placePaged
  rw [translate_warp]
  generalize translate s v core ctx va = r
  obtain ⟨l, s'⟩ := r
  cases l with
  | error e => rfl
  | ok l =>
    dsimp only
    split
    · rfl
    · have : unreachable { s' with warp := w, checkpoints := c } (leafKey l va) = unreachable s' (leafKey l va) := rfl
      rw [this]
      split <;> rfl

/-- The pieces of a checkpoint area lie at the same places whatever the issuing warp's registers and the checkpoints hold. -/
theorem checkpointPlaces_warp (s : State) (w : Warp) (c : List Warp) (x : Warp) :
    (checkpointPlaces { s with warp := w, checkpoints := c } x).1 = (checkpointPlaces s x).1 := by
  unfold checkpointPlaces
  generalize cutsOf (x.rgbase + BitVec.ofNat 64 (65536 * x.index)) 65536 = l
  induction l generalizing s with
  | nil => rfl
  | cons p t ih =>
    simp only [placeCuts]
    rw [placePaged_warp]
    exact congrArg (List.cons _) (ih _)

theorem putArea_fold (s : State) (l : List (DWord × Nat × Except AccErr Nat)) (bs : DWord × Nat × Except AccErr Nat → List Byte)
    (hb : ∀ p, (bs p).length ≤ p.2.1) :
    let t := l.foldl (fun s p => match p.2.2 with
      | .ok k => putArea s k (bs p)
      | .error _ => s) s
    t = { s with mem := t.mem, hist := t.hist, poison := t.poison } ∧
      ∀ n, n ∉ (l.flatMap fun p => match p.2.2 with | .ok k => keysFrom k p.2.1 | .error _ => []) →
        memGet t.mem n = memGet s.mem n := by
  induction l generalizing s with
  | nil => exact ⟨rfl, fun _ _ => rfl⟩
  | cons p t ih =>
    obtain ⟨va, m, r⟩ := p
    simp only [List.foldl_cons, List.flatMap_cons, List.mem_append, not_or]
    cases r with
    | error e => obtain ⟨h1, h2⟩ := ih s; exact ⟨h1, fun n hn => h2 n hn.2⟩
    | ok k =>
      obtain ⟨h1, h2⟩ := ih (putArea s k (bs (va, m, .ok k)))
      refine ⟨h1, fun n hn => (h2 n hn.2).trans ?_⟩
      have hl := hb (va, m, .ok k)
      dsimp only at hl
      have : n < k ∨ k + m ≤ n := by
        by_contra hc
        push Not at hc
        exact hn.1 (List.mem_map.mpr ⟨n - k, by simp; omega, by omega⟩)
      exact memGet_putList _ _ _ _ (by omega)

/-- A checkpoint is written in its area alone. -/
theorem writeCheckpoint_spec (s : State) (w : Warp) :
    writeCheckpoint s w = { s with
      mem := (writeCheckpoint s w).mem, hist := (writeCheckpoint s w).hist, poison := (writeCheckpoint s w).poison
      tlb := (writeCheckpoint s w).tlb } ∧
    SameMemoryBut ((checkpointPlaces s w).1.flatMap fun p => match p.2.2 with | .ok k => keysFrom k p.2.1 | .error _ => [])
      s (writeCheckpoint s w) := by
  obtain ⟨c, hc⟩ := placeCuts_keeps (fun va _ s => placePaged s (PathView.start 0 s.serial) w.coreIx w.ctx .write va)
    (fun va _ s => placePaged_keeps ..) (cutsOf (w.rgbase + BitVec.ofNat 64 (65536 * w.index)) 65536) s
  obtain ⟨h1, h2⟩ := putArea_fold (checkpointPlaces s w).2 (checkpointPlaces s w).1
    (fun p => ((checkpointBytes s.cycle (wearCtx s w.ctx) w).drop (p.1 - (w.rgbase + BitVec.ofNat 64 (65536 * w.index))).toNat).take p.2.1)
    (fun p => List.length_take_le ..)
  have hc' : (checkpointPlaces s w).2 = { s with tlb := c } := hc
  refine ⟨?_, fun k hk => (h2 k hk).trans (by rw [hc'])⟩
  change writeCheckpoint s w = { (checkpointPlaces s w).2 with
    mem := (writeCheckpoint s w).mem, hist := (writeCheckpoint s w).hist, poison := (writeCheckpoint s w).poison } at h1
  generalize writeCheckpoint s w = t at h1 ⊢
  rw [hc'] at h1
  rw [h1]

/-- What follows a completed word in a redundant copy (R333): nothing, or a checkpoint where the word was a commit point. -/
theorem afterGrant_spec (s : State) :
    afterGrant s = { s with
      warp := { s.warp with rg := (afterGrant s).warp.rg }, checkpoints := (afterGrant s).checkpoints
      mem := (afterGrant s).mem, hist := (afterGrant s).hist, poison := (afterGrant s).poison, tlb := (afterGrant s).tlb } ∧
    SameMemoryBut (checkpointKeys s) s (afterGrant s) ∧ (s.warp.grantedNow = false → afterGrant s = s) := by
  unfold afterGrant checkpointKeys Warp.grantedNow
  split
  · rename_i hg
    obtain ⟨h1, h2⟩ := writeCheckpoint_spec (checkpoint s) (checkpoint s).warp
    refine ⟨?_, ?_, fun h => absurd hg (by simp [h])⟩
    · dsimp only
      generalize writeCheckpoint (checkpoint s) (checkpoint s).warp = t at h1 ⊢
      rw [h1]; rfl
    have : (checkpointPlaces (checkpoint s) (checkpoint s).warp).1 = (checkpointPlaces s s.warp).1 :=
      checkpointPlaces_warp s _ _ s.warp
    rw [this] at h2
    exact h2
  · exact ⟨rfl, fun _ _ => rfl, fun _ => rfl⟩

/-- What a redundant group counts of a completed access word, and the checkpoint that may follow it. -/
theorem groupAccess_spec (s : State) :
    groupAccess s = { s with
      warp := { s.warp with rg := (groupAccess s).warp.rg }, checkpoints := (groupAccess s).checkpoints
      mem := (groupAccess s).mem, hist := (groupAccess s).hist, poison := (groupAccess s).poison, tlb := (groupAccess s).tlb } ∧
    SameMemoryBut (checkpointKeys s) s (groupAccess s) ∧
    (s.warp.grantedNow = false → groupAccess s = { s with warp := { s.warp with rg := (groupAccess s).warp.rg } }) := by
  unfold groupAccess
  split
  · exact ⟨rfl, fun _ _ => rfl, fun _ => rfl⟩
  · extract_lets x
    have hx : x = { s with warp := { s.warp with rg := x.warp.rg } } := rfl
    have hg : x.warp.grantedNow = s.warp.grantedNow := by
      show ((s.warp.rg.map _).map _).getD false = _
      unfold Warp.grantedNow; cases s.warp.rg <;> rfl
    have hk : checkpointKeys x = checkpointKeys s := by
      unfold checkpointKeys
      rw [hg]
      have : (checkpointPlaces x x.warp).1 = (checkpointPlaces s s.warp).1 := checkpointPlaces_warp s x.warp s.checkpoints s.warp
      rw [this]
    clear_value x
    split
    · obtain ⟨h1, h2, h3⟩ := afterGrant_spec x
      rw [hk] at h2
      refine ⟨?_, fun k hk => (h2 k hk).trans (by rw [hx]), fun h => ?_⟩
      · generalize afterGrant x = t at *
        rw [h1, hx]
      · rw [h3 (hg.trans h), hx]
    · exact ⟨by rw [hx], fun k _ => by rw [hx], fun _ => by rw [hx]⟩

theorem sget_sset (w : Warp) (d r : Reg) (v : DWord) : (w.sset d v).sget r = scalarAfter w d v r := by
  unfold Warp.sset scalarAfter
  by_cases hd : d = 0#5
  · simp [hd]
  · by_cases h : r = d
    · subst h; simp [hd, Warp.sget]
    · have : d.toNat ≠ r.toNat := fun e => h (BitVec.eq_of_toNat_eq e.symm)
      simp [hd, h, Warp.sget, this]

theorem sset_eq (w : Warp) (d : Reg) (v) : w.sset d v = { w with s := (w.sset d v).s } := by
  unfold Warp.sset; split <;> rfl

/-- The stream has gone on from a state: what else may have changed is what the group counts and its checkpoint. -/
theorem jumpAccess_spec (s : State) (pc : DWord) :
    jumpAccess s pc = { s with
      warp := { s.warp with apc := pc, acc := .ready, rg := (jumpAccess s pc).warp.rg }
      checkpoints := (jumpAccess s pc).checkpoints, mem := (jumpAccess s pc).mem, hist := (jumpAccess s pc).hist
      poison := (jumpAccess s pc).poison, tlb := (jumpAccess s pc).tlb } ∧
    SameMemoryBut (checkpointKeys s) s (jumpAccess s pc) ∧
    (s.warp.grantedNow = false →
      jumpAccess s pc = { s with warp := { s.warp with apc := pc, acc := .ready, rg := (jumpAccess s pc).warp.rg } }) := by
  obtain ⟨h1, h2, h3⟩ := groupAccess_spec (modWarp s fun w => { w with apc := pc, acc := .ready })
  refine ⟨h1, ?_, h3⟩
  have : checkpointKeys (modWarp s fun w => { w with apc := pc, acc := .ready }) = checkpointKeys s := by
    unfold checkpointKeys
    have : (checkpointPlaces (modWarp s fun w => { w with apc := pc, acc := .ready }) (modWarp s fun w => { w with apc := pc, acc := .ready }).warp).1
      = (checkpointPlaces s s.warp).1 := checkpointPlaces_warp s _ s.checkpoints s.warp
    rw [this]; rfl
  rw [this] at h2
  exact h2

/-- A completed word that writes sD. -/
theorem putS_spec (s : State) (d : Reg) (v : DWord) :
    (∀ r, (putS s d v).warp.sget r = scalarAfter s.warp d v r) ∧ (putS s d v).warp.apc = s.warp.apc + 4#64 ∧
      (putS s d v).warp.acc = .ready ∧ AccessOnly s (putS s d v) := by
  have hw : (modWarp s fun w => w.sset d v) = { s with warp := { s.warp with s := (s.warp.sset d v).s } } := by
    simp only [modWarp]; rw [sset_eq]
  obtain ⟨h1, h2, h3⟩ := jumpAccess_spec (modWarp s fun w => w.sset d v) ((modWarp s fun w => w.sset d v).warp.apc + 4#64)
  have hk : checkpointKeys (modWarp s fun w => w.sset d v) = checkpointKeys s := by
    rw [hw]; unfold checkpointKeys
    have := checkpointPlaces_warp s { s.warp with s := (s.warp.sset d v).s } s.checkpoints s.warp
    show (if s.warp.grantedNow then (checkpointPlaces _ s.warp).1.flatMap _ else []) = _
    rw [this]
  have hg : (modWarp s fun w => w.sset d v).warp.grantedNow = s.warp.grantedNow := by rw [hw]; rfl
  rw [hk] at h2
  rw [hg] at h3
  show (∀ r, (jumpAccess _ _).warp.sget r = _) ∧ (jumpAccess _ _).warp.apc = _ ∧ (jumpAccess _ _).warp.acc = _ ∧
    AccessOnly s (jumpAccess _ _)
  generalize jumpAccess (modWarp s fun w => w.sset d v) ((modWarp s fun w => w.sset d v).warp.apc + 4#64) = t at *
  rw [hw] at h1 h2 h3
  refine ⟨fun r => ?_, by rw [h1], by rw [h1], by rw [h1], ⟨h2, fun h => ?_⟩, fun h => ?_⟩
  · rw [h1]; exact sget_sset s.warp d r v
  · rw [h3 h]; exact ⟨rfl, rfl, rfl⟩
  · rw [h3 h]

theorem rg_none_groupAccess {s : State} (h : s.warp.rg = none) : groupAccess s = s := by simp [groupAccess, h]

theorem jumpAccess_single {s : State} (h : s.warp.rg = none) (pc) :
    jumpAccess s pc = { s with warp := { s.warp with apc := pc, acc := .ready } } := by
  unfold jumpAccess; rw [rg_none_groupAccess]; rfl; exact h

theorem sset_rg (w : Warp) (d v) : (w.sset d v).rg = w.rg := by unfold Warp.sset; split <;> rfl

theorem putS_single {s : State} (h : s.warp.rg = none) (d : Reg) (v) :
    putS s d v = { s with warp := { s.warp with s := (s.warp.sset d v).s, apc := s.warp.apc + 4#64, acc := .ready } } := by
  unfold putS stepAccess
  rw [jumpAccess_single]
  · simp only [modWarp]; rw [sset_eq]
  · simp [modWarp, sset_rg, h]

theorem accPlace_read (s : State) (n : Nat) (ea : DWord) (h : ea.toNat % n = 0) :
    accPlace s .read n ea = placeAccess s (aviewOf s.warp) s.warp .read ea n := by
  simp only [accPlace, h]; rfl

/-- A completed word that writes sD. -/
theorem exec_access (s : State) (b : State → State) (h : accessRuns s.warp = true) : accessWord b s = .next (b s) := by
  simp [accessWord, h]

/-- A word of one source and an immediate. -/
theorem immOp_next {s : State} (h : accessRuns s.warp = true) (d a : Reg) (f : DWord → DWord) :
    immOp d a f s = .next (putS s d (f (s.warp.sget a))) := exec_access s _ h

/-- A word of two sources. -/
theorem regOp_next {s : State} (h : accessRuns s.warp = true) (d a b : Reg) (f : DWord → DWord → DWord) :
    regOp d a b f s = .next (putS s d (f (s.warp.sget a) (s.warp.sget b))) := exec_access s _ h

section Values
variable (a b : DWord) (imm : BitVec 16)

theorem value_addi : a + sext64 imm = BitVec.ofInt 64 (a.toInt + imm.toInt) := by
  rw [BitVec.ofInt_add, BitVec.ofInt_toInt]; congr 1
theorem value_slti : bit64 (a.slt (sext64 imm)) = if a.toInt < imm.toInt then 1#64 else 0#64 := by
  have : (sext64 imm).toInt = imm.toInt := BitVec.toInt_signExtend_of_le (by decide)
  simp [bit64, BitVec.slt, this]
theorem value_lui : sext64 imm <<< 16 = BitVec.ofInt 64 (imm.toInt * 2^16) := by
  rw [BitVec.ofInt_mul, BitVec.shiftLeft_eq_mul_twoPow]; rfl
theorem value_shl (n : Nat) : a <<< n = BitVec.ofNat 64 (a.toNat * 2^n) := by
  apply BitVec.eq_of_toNat_eq; simp [Nat.shiftLeft_eq]
theorem value_shr (n : Nat) : a >>> n = BitVec.ofNat 64 (a.toNat / 2^n) := by
  apply BitVec.eq_of_toNat_eq; simp [Nat.shiftRight_eq_div_pow]; symm; apply Nat.mod_eq_of_lt; exact lt_of_le_of_lt (Nat.div_le_self _ _) a.isLt
theorem value_sra (n : Nat) : a.sshiftRight n = BitVec.ofInt 64 (a.toInt / 2^n) := by
  rw [BitVec.sshiftRight, Int.shiftRight_eq_div_pow]; norm_cast
theorem value_add : a + b = BitVec.ofInt 64 (a.toInt + b.toInt) := by simp [BitVec.ofInt_add]
theorem value_sub : a - b = BitVec.ofInt 64 (a.toInt - b.toInt) := by rw [BitVec.sub_eq_add_neg, Int.sub_eq_add_neg, BitVec.ofInt_add, BitVec.ofInt_neg]; simp
theorem value_mul : a * b = BitVec.ofInt 64 (a.toInt * b.toInt) := by simp [BitVec.ofInt_mul]
theorem value_slt : bit64 (a.slt b) = if a.toInt < b.toInt then 1#64 else 0#64 := by simp [bit64, BitVec.slt]
theorem value_ult : bit64 (a.ult b) = if a.toNat < b.toNat then 1#64 else 0#64 := by simp [bit64, BitVec.ult]
theorem value_min : (if b.slt a then b else a) = BitVec.ofInt 64 (min a.toInt b.toInt) := by
  simp only [BitVec.slt]; rcases lt_or_ge b.toInt a.toInt with h | h
  · simp [h, min_eq_right h.le]
  · simp [not_lt.mpr h, min_eq_left h]
theorem value_max : (if a.slt b then b else a) = BitVec.ofInt 64 (max a.toInt b.toInt) := by
  simp only [BitVec.slt]; rcases lt_or_ge a.toInt b.toInt with h | h
  · simp [h, max_eq_right h.le]
  · simp [not_lt.mpr h, max_eq_left h]
theorem value_minn : (if b.ult a then b else a) = BitVec.ofNat 64 (min a.toNat b.toNat) := by
  simp only [BitVec.ult]; rcases lt_or_ge b.toNat a.toNat with h | h
  · simp [h, min_eq_right h.le]
  · simp [not_lt.mpr h, min_eq_left h]
theorem value_maxn : (if a.ult b then b else a) = BitVec.ofNat 64 (max a.toNat b.toNat) := by
  simp only [BitVec.ult]; rcases lt_or_ge a.toNat b.toNat with h | h
  · simp [h, max_eq_right h.le]
  · simp [not_lt.mpr h, max_eq_left h]
theorem value_zext : zext64 imm = BitVec.ofNat 64 imm.toNat := by
  apply BitVec.eq_of_toNat_eq; simp [zext64]

end Values

end Sys2Proof.Machine
end

