-- ==== Sys2Proof/Laws/Lane.lean ====
section
/-! SUPPORT. Lemmas about the issue and retirement of lane words: a word that is ready reaches its body, and what a
retired word leaves. -/

namespace Sys2Proof.Machine

/-! ## Issue -/

/-- What an instruction adds to the common checks lets the word pass. -/
structure OptsPass (i : Instr) (o : LaneOpts) (f : LaneForm) (w : Strip) (sp : Split) (s : State) : Prop where
  illegal : o.illegal s sp w = false
  budget : o.budget (cxOf s f w sp) = 0#32
  badFormat : o.badFormat (cxOf s f w sp) = false
  early : o.early (cxOf s f w sp) = none
  deaths : (o.deaths.getD genericDeaths) (cxOf s f w sp) = 0#32
  reads : ∀ fr, s.warp.frag = some fr → outstanding s.warp (o.reads (cxOf s f w sp)) = false ∧
    (sp.ts.isSome = false → f.exempt = false → (o.reads (cxOf s f w sp)).all fr.cleanR.contains = true)

/-- A ready word reaches its body. -/
theorem laneIssue_ready {i : Instr} {o : LaneOpts} {f : LaneForm} {w : Strip} {sp : Split} {s : State}
    (h : LaneReady i f w sp s) (ho : OptsPass i o f w sp s) : laneIssue i o s = .go (cxOf s f w sp) := by
  obtain ⟨hsplit, hform, hlegal, hin, hfed, hroom, htags, hpure, hrg⟩ := h
  obtain ⟨h1, h2, h3, h4, h5, h6⟩ := ho
  unfold laneIssue
  rw [hsplit, hform]
  dsimp only
  have hslack : atSlack s.warp = false := by simp [atSlack, hrg]
  simp only [cxOf] at h2 h3 h4 h5 h6 ⊢
  simp only [hlegal, h1, hin, hslack, hfed, hroom, h2, h3, h4, h5, hrg]
  have tags : (takingPart s.warp sp f w != 0#32 && (decide (11 ≤ w.fmt.toNat) || !tagsOk s.draws s.warp f w || false)) = false := by
    rcases htags with h | ⟨h, h'⟩
    · simp [h]
    · have : ¬ 11 ≤ w.fmt.toNat := by omega
      simp [this, h']
  simp only [tags]
  cases hf : s.warp.frag with
  | none => simp
  | some fr =>
    obtain ⟨hr, hpp⟩ := hpure fr hf
    obtain ⟨ho, hc⟩ := h6 fr hf
    simp only [hr, ho]
    cases hts : sp.ts with
    | some k => simp
    | none =>
      rcases hpp with hpp | ⟨hpp, hq, hx⟩
      · simp [hts] at hpp
      · by_cases he : f.exempt = true
        · simp [hpp, hq, he]
        · have he' : f.exempt = false := by simpa using he
          have := hc (by simp [hts]) he'
          rcases hx with hx | hx
          · exact absurd hx he
          · simp [hpp, hq, he', hx, this]

theorem takesMail_single {i : Instr} {s : State} (h : s.warp.rg = none) : takesMail i s = false := by
  simp [takesMail, Warp.trailing, h]

theorem mailOpts_single {i : Instr} {o : LaneOpts} {s : State} (h : s.warp.rg = none) : mailOpts i o s = o := by
  simp [mailOpts, takesMail_single h]

/-- A ready word in which some lane takes part runs its body. -/
theorem laneWord_ready {i : Instr} {o : LaneOpts} {f : LaneForm} {w : Strip} {sp : Split} {s : State}
    {body : Cx → LaneRes} (h : LaneReady i f w sp s) (ho : OptsPass i o f w sp s)
    (hp : (cxOf s f w sp).p ≠ 0#32 ∨ o.always = true) :
    laneWord i o body s = .next (finish i (cxOf s f w sp) (body (cxOf s f w sp))) := by
  unfold laneWord
  rw [mailOpts_single h.single, laneIssue_ready h ho]
  have : takesMail i (cxOf s f w sp).s = false := takesMail_single h.single
  simp only [this]
  rcases hp with hp | hp <;> simp [hp]

/-- Words without conditions of their own. -/
theorem optsPass_plain {i : Instr} {f : LaneForm} {w : Strip} {sp : Split} {s : State}
    (h : Unpoisoned (cxOf s f w sp)) : OptsPass i {} f w sp s :=
  ⟨rfl, rfl, rfl, rfl, h, fun _ _ => ⟨rfl, fun _ _ => rfl⟩⟩

/-! ## Retirement -/

/-- Registers released by last-read marks keep their contents. -/
theorem release_keeps (l : List Nat) (w : Warp) :
    ∃ r, l.foldl releaseReg w = { w with regs := r } ∧ ∀ n,
      (Tab.getD r n LaneReg.launch).val = (w.reg n).val ∧ (Tab.getD r n LaneReg.launch).tag = (w.reg n).tag ∧
      (Tab.getD r n LaneReg.launch).side = (w.reg n).side ∧ (Tab.getD r n LaneReg.launch).poison = (w.reg n).poison := by
  induction l generalizing w with
  | nil => exact ⟨w.regs, rfl, fun n => ⟨rfl, rfl, rfl, rfl⟩⟩
  | cons k t ih =>
    obtain ⟨r, hr, hs⟩ := ih (releaseReg w k)
    refine ⟨r, by rw [List.foldl_cons, hr]; rfl, fun n => ?_⟩
    obtain ⟨a, b, c, d⟩ := hs n
    rw [a, b, c, d]
    unfold releaseReg Warp.reg
    simp only [getD_put]
    split
    · subst n; exact ⟨rfl, rfl, rfl, rfl⟩
    · exact ⟨rfl, rfl, rfl, rfl⟩

theorem popQueues_keeps (w : Warp) (qs : List Nat) : popQueues w qs = { w with fq := (popQueues w qs).fq } := by
  unfold popQueues
  induction qs generalizing w with
  | nil => rfl
  | cons q t ih => rw [List.foldl_cons, ih]

theorem modSplit_eq (s : State) (f : Split → Split) :
    s.modSplit f = { s with warp := s.warp.setSlot s.slotB (s.split?.map f) } := rfl

theorem slot_setSlot (w : Warp) (b : Bool) (o : Option Split) : (w.setSlot b o).slot? b = o := by
  cases b <;> rfl

theorem slot_setSlot_other (w : Warp) (b : Bool) (o : Option Split) : (w.setSlot b o).slot? (!b) = w.slot? (!b) := by
  cases b <;> rfl

theorem setSlot_keeps (w : Warp) (b : Bool) (o : Option Split) :
    w.setSlot b o = { w with slotA := (w.setSlot b o).slotA, slotB := (w.setSlot b o).slotB } := by
  cases b <;> rfl

theorem updateClean_keeps (w : Warp) (c : Bool) (regs : List RegWrite) (preds : List PredWrite) :
    updateClean w c regs preds = { w with frag := (updateClean w c regs preds).frag } := rfl

/-- The registers, predicates and outstanding results that a run of writes leaves. -/
theorem writeNow_keeps (regs : List RegWrite) (w : Warp) :
    ∃ r p, regs.foldl (fun w x => w.writeNow x) w = { w with regs := r, pending := p } := by
  induction regs generalizing w with
  | nil => exact ⟨_, _, rfl⟩
  | cons x t ih =>
    obtain ⟨r, p, h⟩ := ih (w.writeNow x)
    exact ⟨r, p, by rw [List.foldl_cons, h]; rfl⟩

theorem writePred_keeps (preds : List PredWrite) (w : Warp) :
    ∃ p, preds.foldl (fun w x => w.writePred x) w = { w with preds := p } := by
  induction preds generalizing w with
  | nil => exact ⟨_, rfl⟩
  | cons x t ih =>
    obtain ⟨p, h⟩ := ih (w.writePred x)
    refine ⟨p, ?_⟩
    rw [List.foldl_cons, h]
    unfold Warp.writePred
    split <;> rfl

theorem pushBack_keeps (l : List RegWrite) (w : Warp) :
    ∃ b, l.foldl (fun w x => pushBack w (x.n - 248) x) w = { w with bq := b } := by
  induction l generalizing w with
  | nil => exact ⟨_, rfl⟩
  | cons x t ih =>
    obtain ⟨b, h⟩ := ih (pushBack w (x.n - 248) x)
    refine ⟨b, ?_⟩
    rw [List.foldl_cons, h]
    unfold pushBack
    split <;> rfl

theorem writeResults_keeps (s : State) (d : Done) (queue : Bool) (regs : List RegWrite) (p : Pending) :
    ∃ r q b ps, writeResults s d queue regs p =
      { s with warp := { s.warp with regs := r, pending := q, bq := b, preds := ps } } := by
  unfold writeResults
  obtain ⟨b, hb⟩ := pushBack_keeps (d.regs.filter fun x => decide (248 ≤ x.n)) s.warp
  simp only [modWarp, hb]
  split
  · exact ⟨_, _, _, _, rfl⟩
  · obtain ⟨r, q, h⟩ := writeNow_keeps regs { s.warp with bq := b }
    obtain ⟨ps, h'⟩ := writePred_keeps d.preds { s.warp with bq := b, regs := r, pending := q }
    rw [h, h']
    exact ⟨_, _, _, _, rfl⟩

theorem enterReplay_keeps (s : State) (i : Instr) (cx : Cx) (regs : List RegWrite) :
    ∃ c, enterReplay s i cx regs = { s with cores := c } := by
  unfold enterReplay
  split <;> exact ⟨_, rfl⟩

/-- Of the filter contexts retirement changes marks alone (R316). -/
theorem noteStatus_keeps (s : State) (cx : Cx) : ∃ g, noteStatus s cx = { s with filters := g } ∧
    bareFilters { s with filters := g } = bareFilters s := by
  refine ⟨_, rfl, ?_⟩
  unfold bareFilters
  rw [List.map_map]
  apply List.map_congr_left
  intro f _
  simp only [Function.comp]
  split <;> rfl

theorem countRetired_single {s : State} (cx : Cx) (h : s.warp.rg = none) :
    ∃ c p g, countRetired s cx = { s with
      warp := { s.warp with retired := s.warp.retired + 1, watch := s.cycle, parked := p }, cores := c, filters := g } ∧
      bareFilters { s with filters := g } = bareFilters s := by
  obtain ⟨g, hg, hb⟩ := noteStatus_keeps s cx
  unfold countRetired groupRetired bumpRetired
  rw [hg, if_pos (by simp [modWarp, modCore, h])]
  exact ⟨_, _, g, rfl, hb⟩

/-- The issuing slot after retirement. -/
def retiredSplit (cx : Cx) (d : Done) (n : Nat) (sp : Split) : Split :=
  { sp with
    pc := d.next.getD cx.next
    sig := if sp.ts.isSome then sp.sig else sigAfter (sigKind cx.f.op) cx.f.op sp.sig sp.mask
    only := none
    wait := if d.holds then .claim else .none
    issued := n }

/-- Only what a retiring lane word may change has changed: in its warp the splits, registers, predicates, queues,
outstanding results, clean bits and counts, what its core counts, and marks of filter contexts. -/
def LaneFrame (s t : State) : Prop :=
  (∃ a b r ps fq bq q pk fr n wt c g, t = { s with
    warp := { s.warp with
      slotA := a, slotB := b, regs := r, preds := ps, fq := fq, bq := bq, pending := q, parked := pk, frag := fr
      retired := n, watch := wt }
    cores := c, filters := g }) ∧ bareFilters t = bareFilters s

theorem LaneFrame.of {s t : State} (h : ∃ a b r ps fq bq q pk fr n wt c, t = { s with
    warp := { s.warp with
      slotA := a, slotB := b, regs := r, preds := ps, fq := fq, bq := bq, pending := q, parked := pk, frag := fr
      retired := n, watch := wt }
    cores := c }) : LaneFrame s t := by
  obtain ⟨_, _, _, _, _, _, _, _, _, _, _, _, rfl⟩ := h
  exact ⟨⟨_, _, _, _, _, _, _, _, _, _, _, _, _, rfl⟩, rfl⟩

theorem LaneFrame.refl (s : State) : LaneFrame s s := ⟨⟨_, _, _, _, _, _, _, _, _, _, _, _, _, rfl⟩, rfl⟩

theorem LaneFrame.trans {s t u : State} (h : LaneFrame s t) (k : LaneFrame t u) : LaneFrame s u := by
  obtain ⟨⟨_, _, _, _, _, _, _, _, _, _, _, _, _, rfl⟩, hb⟩ := h
  obtain ⟨⟨_, _, _, _, _, _, _, _, _, _, _, _, _, rfl⟩, hb'⟩ := k
  exact ⟨⟨_, _, _, _, _, _, _, _, _, _, _, _, _, rfl⟩, hb'.trans hb⟩

theorem LaneFrame.rg {s t : State} (h : LaneFrame s t) : t.warp.rg = s.warp.rg := by
  obtain ⟨⟨_, _, _, _, _, _, _, _, _, _, _, _, _, rfl⟩, -⟩ := h; rfl

theorem LaneFrame.cycle {s t : State} (h : LaneFrame s t) : t.cycle = s.cycle := by
  obtain ⟨⟨_, _, _, _, _, _, _, _, _, _, _, _, _, rfl⟩, -⟩ := h; rfl

theorem LaneFrame.draws {s t : State} (h : LaneFrame s t) : t.draws = s.draws := by
  obtain ⟨⟨_, _, _, _, _, _, _, _, _, _, _, _, _, rfl⟩, -⟩ := h; rfl

theorem LaneFrame.slot {s t : State} (h : LaneFrame s t) : t.slotB = s.slotB := by
  obtain ⟨⟨_, _, _, _, _, _, _, _, _, _, _, _, _, rfl⟩, -⟩ := h; rfl

/-- The fields that retirement writes once. -/
def Same5 (w x : Warp) : Prop :=
  x.slotA = w.slotA ∧ x.slotB = w.slotB ∧ x.fq = w.fq ∧ x.retired = w.retired ∧ x.watch = w.watch

theorem frame_pop (s : State) (qs : List Nat) : LaneFrame s (modWarp s fun w => popQueues w qs) := by
  simp only [modWarp]; rw [popQueues_keeps]; exact .of ⟨_, _, _, _, _, _, _, _, _, _, _, _, rfl⟩

theorem frame_results (s : State) (d : Done) (queue : Bool) (regs : List RegWrite) (p : Pending) :
    LaneFrame s (writeResults s d queue regs p) ∧ Same5 s.warp (writeResults s d queue regs p).warp := by
  obtain ⟨r, q, b, ps, h⟩ := writeResults_keeps s d queue regs p
  rw [h]
  exact ⟨.of ⟨_, _, _, _, _, _, _, _, _, _, _, _, rfl⟩, rfl, rfl, rfl, rfl, rfl⟩

theorem frame_clean (s : State) (b : Bool) (c : Bool) (regs : List RegWrite) (preds : List PredWrite) :
    LaneFrame s (modWarp s fun w => if b then w else updateClean w c regs preds) ∧
      Same5 s.warp (modWarp s fun w => if b then w else updateClean w c regs preds).warp := by
  cases b <;> exact ⟨.of ⟨_, _, _, _, _, _, _, _, _, _, _, _, rfl⟩, rfl, rfl, rfl, rfl, rfl⟩

theorem frame_release (s : State) (l : List Nat) :
    LaneFrame s (modWarp s fun w => l.foldl releaseReg w) ∧ Same5 s.warp (modWarp s fun w => l.foldl releaseReg w).warp := by
  obtain ⟨r, h, -⟩ := release_keeps l s.warp
  simp only [modWarp]; rw [h]
  exact ⟨.of ⟨_, _, _, _, _, _, _, _, _, _, _, _, rfl⟩, rfl, rfl, rfl, rfl, rfl⟩

theorem frame_split (s : State) (o : Option Split) : LaneFrame s (s.setSplit o) := by
  unfold State.setSplit
  rw [setSlot_keeps]
  exact .of ⟨_, _, _, _, _, _, _, _, _, _, _, _, rfl⟩

theorem deliverMail_single (s : State) (i : Instr) (p : Pending) (h : s.warp.rg = none) : deliverMail s i p = s := by
  unfold deliverMail; rw [h]

/-- Retirement outside a redundant group. -/
theorem retire_frame (i : Instr) (cx : Cx) (d : Done) (h : d.s.warp.rg = none) :
    LaneFrame d.s (retire i cx d) ∧
    (retire i cx d).warp.slot? d.s.slotB = d.s.split?.map (retiredSplit cx d d.s.draws) ∧
    (retire i cx d).warp.slot? (!d.s.slotB) = d.s.warp.slot? (!d.s.slotB) ∧
    (retire i cx d).warp.fq = (popQueues d.s.warp (namedQueues cx.f cx.w)).fq ∧
    (retire i cx d).warp.retired = d.s.warp.retired + 1 ∧ (retire i cx d).warp.watch = d.s.cycle := by
  unfold retire
  extract_lets regs pend pp s1 s2 s3 s4 s5 s6
  have f1 : LaneFrame d.s s1 := frame_pop _ _
  have g1 : s1.warp.slotA = d.s.warp.slotA ∧ s1.warp.slotB = d.s.warp.slotB ∧ s1.warp.retired = d.s.warp.retired := by
    show (popQueues d.s.warp _).slotA = _ ∧ (popQueues d.s.warp _).slotB = _ ∧ (popQueues d.s.warp _).retired = _
    rw [popQueues_keeps]; exact ⟨rfl, rfl, rfl⟩
  have g1' : s1.warp.fq = (popQueues d.s.warp (namedQueues cx.f cx.w)).fq := rfl
  obtain ⟨f2, g2⟩ : LaneFrame s1 s2 ∧ Same5 s1.warp s2.warp := frame_results _ _ _ _ _
  obtain ⟨f3, g3⟩ : LaneFrame s2 s3 ∧ Same5 s2.warp s3.warp := frame_clean _ _ _ _ _
  obtain ⟨f4, g4⟩ : LaneFrame s3 s4 ∧ Same5 s3.warp s4.warp := frame_release _ _
  have f : LaneFrame d.s s4 := f1.trans (f2.trans (f3.trans f4))
  have hrg : s4.warp.rg = none := f.rg.trans h
  have e5 : s5 = s4 := deliverMail_single _ _ _ hrg
  obtain ⟨a2, b2, c2, d2, -⟩ := g2
  obtain ⟨a3, b3, c3, d3, -⟩ := g3
  obtain ⟨a4, b4, c4, d4, -⟩ := g4
  have ga : s4.warp.slotA = d.s.warp.slotA := by rw [a4, a3, a2, g1.1]
  have gb : s4.warp.slotB = d.s.warp.slotB := by rw [b4, b3, b2, g1.2.1]
  have gf : s4.warp.fq = (popQueues d.s.warp (namedQueues cx.f cx.w)).fq := by rw [c4, c3, c2, g1']
  have gr : s4.warp.retired = d.s.warp.retired := by rw [d4, d3, d2, g1.2.2]
  have hs : s4.slotB = d.s.slotB := f.slot
  have hc : s4.cycle = d.s.cycle := f.cycle
  have hd : s4.draws = d.s.draws := f.draws
  have hsp : s4.split? = d.s.split? := by unfold State.split? Warp.slot?; rw [ga, gb, hs]
  have e6 : s6 = s4.setSplit (d.s.split?.map (retiredSplit cx d d.s.draws)) := by
    rw [← hsp, ← hd, ← e5]; rfl
  clear_value s6 s5 s4 s3 s2 s1
  obtain ⟨c, h7⟩ := enterReplay_keeps s6 i cx regs
  rw [h7]
  have f6 : LaneFrame s4 s6 := by rw [e6]; exact frame_split _ _
  have k6 : s6.warp.slot? d.s.slotB = d.s.split?.map (retiredSplit cx d d.s.draws) := by
    rw [e6, ← hs]; exact slot_setSlot _ _ _
  have k6' : s6.warp.slot? (!d.s.slotB) = d.s.warp.slot? (!d.s.slotB) := by
    rw [e6, ← hs]; refine (slot_setSlot_other _ _ _).trans ?_
    unfold Warp.slot?; rw [ga, gb]
  have k6f : s6.warp.fq = s4.warp.fq ∧ s6.warp.retired = s4.warp.retired := by
    rw [e6]; unfold State.setSplit Warp.setSlot; cases s4.slotB <;> exact ⟨rfl, rfl⟩
  obtain ⟨c', p, g, h8, h8'⟩ := countRetired_single (s := { s6 with cores := c }) cx (f6.rg.trans hrg)
  rw [h8]
  refine ⟨f.trans (f6.trans ⟨⟨_, _, _, _, _, _, _, _, _, _, _, _, _, rfl⟩, h8'⟩), ?_, ?_, ?_, ?_, ?_⟩
  · exact k6
  · exact k6'
  · exact k6f.1.trans gf
  · show s6.warp.retired + 1 = _; rw [k6f.2, gr]
  · show s6.cycle = _; rw [f6.cycle, hc]

/-! ## Results -/

/-- Same words, tag, metadata and poison marks. -/
def SameLane (a b : LaneReg) : Prop := a.val = b.val ∧ a.tag = b.tag ∧ a.side = b.side ∧ a.poison = b.poison

theorem SameLane.refl (a : LaneReg) : SameLane a a := ⟨rfl, rfl, rfl, rfl⟩

/-- A body that ends with results written at once. -/
def Done.fixed (d : Done) : Prop :=
  d.var = false ∧ d.holds = false ∧ d.branch = none ∧ d.epoch = none ∧ d.sub = none

/-- The results of such a word are outstanding when it retires, because it named a queue (R74). -/
def laterBy (cx : Cx) (d : Done) : Bool :=
  !(namedQueues cx.f cx.w).isEmpty && !((d.regs.filter fun x => decide (x.n < 248)).isEmpty && d.preds.isEmpty)

/-- The outstanding result of such a word. -/
def pendingOf (d : Done) : Pending :=
  ⟨(d.regs.filter fun x => decide (x.n < 248)).map fun x =>
      if x.mask = d.s.warp.alive then x else { x with val := .lanes (laneIds.map x.val.word) }, d.preds, [], none, none, none, none⟩

/-- A warp with its results written now, or outstanding. -/
def resultsIn (cx : Cx) (d : Done) (w : Warp) : Warp :=
  if laterBy cx d then w.promise (pendingOf d)
  else d.preds.foldl (fun w x => w.writePred x) ((d.regs.filter fun x => decide (x.n < 248)).foldl (fun w x => w.writeNow x) w)

/-- Where the queues stand does not matter to results. -/
theorem resultsIn_with (cx : Cx) (d : Done) (w : Warp) (x : Vector (List QEntry) 8) (b : Vector (List BEntry) 2) :
    resultsIn cx d { w with fq := x, bq := b } = { resultsIn cx d w with fq := x, bq := b } := by
  have now : ∀ (l : List RegWrite) (w : Warp), l.foldl (fun w y => w.writeNow y) { w with fq := x, bq := b } =
      { l.foldl (fun w y => w.writeNow y) w with fq := x, bq := b } := by
    intro l
    induction l with
    | nil => intro w; rfl
    | cons y t ih => intro w; exact ih (w.writeNow y)
  have preds : ∀ (l : List PredWrite) (w : Warp), l.foldl (fun w y => w.writePred y) { w with fq := x, bq := b } =
      { l.foldl (fun w y => w.writePred y) w with fq := x, bq := b } := by
    intro l
    induction l with
    | nil => intro w; rfl
    | cons y t ih =>
      intro w
      rw [List.foldl_cons, List.foldl_cons, ← ih]
      unfold Warp.writePred; split <;> rfl
  unfold resultsIn
  split
  · rfl
  · rw [now, preds]

theorem pushBack_with (l : List RegWrite) (w : Warp) (x : Vector (List QEntry) 8) :
    (l.foldl (fun w x => pushBack w (x.n - 248) x) { w with fq := x }) =
      { l.foldl (fun w x => pushBack w (x.n - 248) x) w with fq := x } := by
  induction l generalizing w with
  | nil => rfl
  | cons y t ih =>
    rw [List.foldl_cons, List.foldl_cons, ← ih]
    unfold pushBack; split <;> rfl

/-- Registers, predicates, outstanding results and back queues after a word that is not variable-latency by itself. -/
theorem retire_results (i : Instr) (cx : Cx) (d : Done) (h : d.s.warp.rg = none) (hd : d.fixed) :
    (∀ n, SameLane ((retire i cx d).warp.reg n) ((resultsIn cx d d.s.warp).reg n)) ∧
    (retire i cx d).warp.preds = (resultsIn cx d d.s.warp).preds ∧
    (retire i cx d).warp.pending = (resultsIn cx d d.s.warp).pending ∧
    (retire i cx d).warp.bq =
      ((d.regs.filter fun x => decide (248 ≤ x.n)).foldl (fun w x => pushBack w (x.n - 248) x) d.s.warp).bq := by
  obtain ⟨hv, hh, hb, he, hu⟩ := hd
  unfold retire
  extract_lets regs pend pp s1 s2 s3 s4 s5 s6
  have e1 : s1.warp = { d.s.warp with fq := (popQueues d.s.warp (namedQueues cx.f cx.w)).fq } := popQueues_keeps _ _
  have hrg1 : s1.warp.rg = none := by rw [e1]; exact h
  obtain ⟨bq, hbq⟩ := pushBack_keeps (d.regs.filter fun x => decide (248 ≤ x.n)) d.s.warp
  have hpp : pp = pendingOf d := by
    show Pending.mk _ _ _ _ _ _ _ = _
    rw [hb, he, hu, hh]; rfl
  have e2 : s2.warp = { resultsIn cx d d.s.warp with fq := (popQueues d.s.warp (namedQueues cx.f cx.w)).fq, bq := bq } := by
    rw [← resultsIn_with]
    show (writeResults s1 d _ regs pp).warp = _
    unfold writeResults
    simp only [modWarp, e1, pushBack_with, hbq, hv, hh, hb, he, hu, Bool.false_or, Bool.or_false, Option.isSome_none]
    unfold resultsIn
    rw [hpp]
    change (if laterBy cx d = true then _ else _ : State).warp = _
    split <;> rfl
  have hrg2 : s2.warp.rg = none := by
    obtain ⟨r, q, b, ps, hk⟩ := writeResults_keeps s1 d (!(namedQueues cx.f cx.w).isEmpty) regs pp
    show (writeResults s1 d _ regs pp).warp.rg = _
    rw [hk]; exact hrg1
  have a3 : s3.warp.regs = s2.warp.regs ∧ s3.warp.preds = s2.warp.preds ∧ s3.warp.bq = s2.warp.bq ∧
      s3.warp.rg = s2.warp.rg ∧ s3.warp.pending = s2.warp.pending := by
    show (modWarp s2 _).warp.regs = _ ∧ (modWarp s2 _).warp.preds = _ ∧ (modWarp s2 _).warp.bq = _ ∧
      (modWarp s2 _).warp.rg = _ ∧ (modWarp s2 _).warp.pending = _
    cases cx.sp.ts.isSome <;> simp only [modWarp] <;> exact ⟨rfl, rfl, rfl, rfl, rfl⟩
  obtain ⟨r', h4, h4'⟩ := release_keeps (releasedRegs cx.f cx.w (regs.map (·.n))) s3.warp
  have e4 : s4.warp = { s3.warp with regs := r' } := h4
  have hrg : s4.warp.rg = none := by rw [e4]; exact a3.2.2.2.1.trans hrg2
  have e5 : s5 = s4 := deliverMail_single _ _ _ hrg
  have a6 : s6.warp.regs = r' ∧ s6.warp.preds = s3.warp.preds ∧ s6.warp.bq = s3.warp.bq ∧ s6.warp.rg = none ∧
      s6.warp.pending = s3.warp.pending := by
    show (State.modSplit s5 _).warp.regs = _ ∧ (State.modSplit s5 _).warp.preds = _ ∧ (State.modSplit s5 _).warp.bq = _ ∧
      (State.modSplit s5 _).warp.rg = _ ∧ (State.modSplit s5 _).warp.pending = _
    rw [modSplit_eq, setSlot_keeps]
    rw [e5]
    exact ⟨by rw [e4], by rw [e4], by rw [e4], hrg, by rw [e4]⟩
  clear_value s6 s5 s4 s3 s2 s1
  obtain ⟨c, h7⟩ := enterReplay_keeps s6 i cx regs
  rw [h7]
  obtain ⟨c', p, g, h8, -⟩ := countRetired_single (s := { s6 with cores := c }) cx a6.2.2.2.1
  rw [h8]
  refine ⟨fun n => ?_, ?_, ?_, ?_⟩
  · have := h4' n
    rw [← a6.1] at this
    have e : s3.warp.reg n = (resultsIn cx d d.s.warp).reg n := by unfold Warp.reg; rw [a3.1, e2]
    rw [e] at this
    exact this
  · exact a6.2.1.trans (a3.2.1.trans (by rw [e2]))
  · exact a6.2.2.2.2.trans (a3.2.2.2.2.trans (by rw [e2]))
  · exact a6.2.2.1.trans (a3.2.2.1.trans (by rw [e2, hbq]))

theorem getD_laneIds {α : Type} (f : Nat → α) (d : α) {k : Nat} (hk : k < 32) : (laneIds.map f).getD k d = f k := by
  have : k < (laneIds.map f).length := by simpa [laneIds] using hk
  rw [List.getD_eq_getElem _ _ this]
  simp [laneIds]

theorem taking_alive (w : Warp) (sp : Split) (f : LaneForm) (x : Strip) {k : Nat}
    (h : (takingPart w sp f x).has k = true) : w.alive.has k = true := by
  unfold takingPart LaneMask.has at *
  simp only [BitVec.getLsbD_and, Bool.and_eq_true] at h
  exact h.1.1.2

/-- The words of a register after a write. -/
theorem writeReg_word (alive : LaneMask) (r : LaneReg) (x : RegWrite) {k : Nat} (hk : k < 32) :
    (x.mask.has k = true → (writeReg alive r x).val.word k = x.val.word k) ∧
    (alive.has k = true → x.mask.has k = false → (writeReg alive r x).val.word k = r.val.word k) := by
  have merged : (LaneVal.g (laneIds.map fun i => if x.mask.has i then x.val.word i else r.val.word i)).word k =
      if x.mask.has k then x.val.word k else r.val.word k := getD_laneIds _ _ hk
  unfold writeReg
  dsimp only
  cases hv : x.val with
  | uniform v =>
    by_cases hm : x.mask = alive
    · simp only [hm, if_true]
      exact ⟨fun _ => rfl, fun h1 h2 => absurd h1 (by simp [h2])⟩
    · rw [hv] at merged
      simp only [hm, if_false, merged]
      exact ⟨fun h => by simp [h], fun _ h => by simp [h]⟩
  | affine b st =>
    by_cases hm : x.mask = alive
    · simp only [hm, if_true]
      refine ⟨fun _ => ?_, fun h1 h2 => absurd h1 (by simp [h2])⟩
      split
      · rename_i h0; subst h0; simp [LaneVal.word, WriteVal.word]
      · rfl
    · rw [hv] at merged
      simp only [hm, if_false, merged]
      exact ⟨fun h => by simp [h], fun _ h => by simp [h]⟩
  | lanes ws =>
    rw [hv] at merged
    simp only [merged]
    exact ⟨fun h => by simp [h], fun _ h => by simp [h]⟩

theorem writeNow_reg (w : Warp) (x : RegWrite) (n : Nat) :
    (w.writeNow x).reg n = if n = x.n then writeReg w.alive (w.reg x.n) x else w.reg n := by
  show Tab.getD (Tab.put w.regs x.n _) n LaneReg.launch = _
  rw [getD_put]; rfl

/-- Writes of distinct registers do not disturb each other. -/
theorem writeNow_fold (regs : List RegWrite) (w : Warp) (hn : (regs.map (·.n)).Nodup) :
    (∀ x ∈ regs, (regs.foldl (fun w x => w.writeNow x) w).reg x.n = writeReg w.alive (w.reg x.n) x) ∧
    (∀ n, (∀ x ∈ regs, x.n ≠ n) → (regs.foldl (fun w x => w.writeNow x) w).reg n = w.reg n) := by
  induction regs generalizing w with
  | nil => exact ⟨fun x hx => absurd hx (by simp), fun n _ => rfl⟩
  | cons y t ih =>
    rw [List.map_cons, List.nodup_cons] at hn
    obtain ⟨h1, h2⟩ := ih (w.writeNow y) hn.2
    have alive : (w.writeNow y).alive = w.alive := rfl
    refine ⟨fun x hx => ?_, fun n hx => ?_⟩
    · rw [List.foldl_cons]
      rcases List.mem_cons.mp hx with rfl | hx
      · rw [h2 x.n (fun z hz he => hn.1 (by rw [← he]; exact List.mem_map_of_mem hz)), writeNow_reg, if_pos rfl]
      · have hne : x.n ≠ y.n := fun he => hn.1 (by rw [← he]; exact List.mem_map_of_mem hx)
        rw [h1 x hx, alive, writeNow_reg, if_neg hne]
    · rw [List.foldl_cons, h2 n (fun z hz => hx z (List.mem_cons_of_mem _ hz)), writeNow_reg,
        if_neg (fun he => hx y (List.mem_cons_self ..) he.symm)]

theorem vec_getD {α : Type} {m : Nat} (v : Vector α m) (i : Nat) (d : α) : v.getD i d = v[i]?.getD d := by
  cases v with | mk a h => simp [Vector.getD, Array.getD_eq_getD_getElem?]

theorem mask_merge (m b o : LaneMask) (k : Nat) (hk : k < 32) :
    ((o &&& ~~~m) ||| (b &&& m)).has k = if m.has k then b.has k else o.has k := by
  simp only [LaneMask.has, BitVec.getLsbD_or, BitVec.getLsbD_and, BitVec.getLsbD_not, hk, decide_true, Bool.true_and]
  by_cases hm : BitVec.getLsbD m k = true <;> simp [hm]

theorem writePred_lane (w : Warp) (x : PredWrite) (hx : x.k ≤ 7) (n k : Nat) (hk : k < 32) :
    (w.writePred x).predLane n k =
      if n = 7 then true else if n = x.k ∧ x.mask.has k = true then x.bits.has k else w.predLane n k := by
  unfold Warp.writePred Warp.predLane
  by_cases hn : n = 7
  · simp [hn]
  · simp only [hn, if_false]
    split
    · rename_i h7
      rw [vec_getD, Vector.getElem?_set]
      by_cases he : x.k = n
      · subst he
        rw [if_pos rfl, Option.getD_some, mask_merge _ _ _ _ hk, vec_getD]
        simp [h7]
      · rw [if_neg he, vec_getD]
        simp [Ne.symm he]
    · have : ¬ (n = x.k ∧ x.mask.has k = true) := fun h => hn (by omega)
      simp [this]

theorem writePred_fold (ps : List PredWrite) (w : Warp) (h7 : ∀ p ∈ ps, p.k ≤ 7) (hn : (ps.map (·.k)).Nodup) :
    (∀ p ∈ ps, ∀ k, k < 32 → (ps.foldl (fun w x => w.writePred x) w).predLane p.k k =
      if p.k = 7 then true else if p.mask.has k then p.bits.has k else w.predLane p.k k) ∧
    (∀ n k, k < 32 → (∀ p ∈ ps, p.k ≠ n) → (ps.foldl (fun w x => w.writePred x) w).predLane n k = w.predLane n k) := by
  induction ps generalizing w with
  | nil => exact ⟨fun p hp => absurd hp (by simp), fun n k _ _ => rfl⟩
  | cons y t ih =>
    rw [List.map_cons, List.nodup_cons] at hn
    obtain ⟨h1, h2⟩ := ih (w.writePred y) (fun p hp => h7 p (List.mem_cons_of_mem _ hp)) hn.2
    have hy := h7 y (List.mem_cons_self ..)
    refine ⟨fun p hp k hk => ?_, fun n k hk hp => ?_⟩
    · rw [List.foldl_cons]
      rcases List.mem_cons.mp hp with rfl | hp
      · rw [h2 p.k k hk (fun z hz he => hn.1 (by rw [← he]; exact List.mem_map_of_mem hz)), writePred_lane _ _ hy _ _ hk]
        simp
      · have hne : p.k ≠ y.k := fun he => hn.1 (by rw [← he]; exact List.mem_map_of_mem hp)
        rw [h1 p hp k hk, writePred_lane _ _ hy _ _ hk]
        by_cases h : p.k = 7 <;> simp [h, hne]
    · rw [List.foldl_cons, h2 n k hk (fun z hz => hp z (List.mem_cons_of_mem _ hz)), writePred_lane _ _ hy _ _ hk]
      have hne : ¬ n = y.k := fun he => hp y (List.mem_cons_self ..) he.symm
      by_cases h : n = 7 <;> simp [h, hne, Warp.predLane]

/-- A pop shortens the queues that it names, and no other. -/
theorem popQueues_length (qs : List Nat) (w : Warp) (q : Nat) :
    ((popQueues w qs).fq.getD q []).length ≤ (w.fq.getD q []).length ∧
      (q ∈ qs → (w.fq.getD q []).isEmpty = false → ((popQueues w qs).fq.getD q []).length < (w.fq.getD q []).length) := by
  induction qs generalizing w with
  | nil => exact ⟨le_refl _, fun h => absurd h (by simp)⟩
  | cons y t ih =>
    have step : ({ w with fq := w.fq.setIfInBounds y ((w.fq.getD y []).drop 1) } : Warp).fq.getD q [] =
        if y = q then (w.fq.getD q []).drop 1 else w.fq.getD q [] := by
      show (w.fq.setIfInBounds y _).getD q [] = _
      simp only [vec_getD, Vector.getElem?_setIfInBounds]
      by_cases he : y = q
      · subst he
        by_cases hy : y < 8
        · simp [hy]
        · simp [hy]
      · simp [he]
    obtain ⟨h1, h2⟩ := ih { w with fq := w.fq.setIfInBounds y ((w.fq.getD y []).drop 1) }
    rw [step] at h1 h2
    rw [popQueues, List.foldl_cons]
    change ((popQueues _ t).fq.getD q []).length ≤ _ ∧ (_ → _ → ((popQueues _ t).fq.getD q []).length < _)
    by_cases he : y = q
    · rw [if_pos he, List.length_drop] at h1
      refine ⟨by omega, fun _ hne => ?_⟩
      have : (w.fq.getD q []).length ≠ 0 := fun h0 => by simp [List.length_eq_zero_iff.mp h0] at hne
      omega
    · rw [if_neg he] at h1 h2
      refine ⟨h1, fun hm hne => h2 (by rcases List.mem_cons.mp hm with h | h; exact absurd h.symm he; exact h) hne⟩

/-- A word that names queues changes them; one that names none leaves them. -/
theorem popQueues_same {w : Warp} {qs : List Nat} (h : qs.any (fun q => (w.fq.getD q []).isEmpty) = false) :
    (popQueues w qs).fq = w.fq ↔ qs = [] := by
  constructor
  · intro he
    cases qs with
    | nil => rfl
    | cons y t =>
      simp only [List.any_cons, Bool.or_eq_false_iff] at h
      have := (popQueues_length (y :: t) w y).2 (List.mem_cons_self ..) h.1
      rw [he] at this
      omega
  · rintro rfl; rfl

/-- Pushes of results into the back queues, as the claims write them. -/
theorem backAfter_eq {rs : List RegWrite} {ys : List Wrote} (s : State) (h : List.Forall₂ (fun x y => Wrote.of y x) rs ys) :
    ((rs.filter fun x => decide (248 ≤ x.n)).foldl (fun w x => pushBack w (x.n - 248) x) s.warp).bq = backAfter s ys := by
  have acc : ∀ (v : Warp) (x : RegWrite), (pushBack v (x.n - 248) x).acc = v.acc := by
    intro v x; unfold pushBack; split <;> rfl
  suffices fold : ∀ v : Warp, ((rs.filter fun x => decide (248 ≤ x.n)).foldl (fun w x => pushBack w (x.n - 248) x) v).bq =
      if v.acc = .halted then v.bq
      else (ys.filter fun x => decide (248 ≤ x.n)).foldl (fun bq x => bq.setIfInBounds (x.n - 248) (bq.getD (x.n - 248) [] ++
        [⟨laneIds.map fun k => if x.mask.has k then x.word k else 0#32, x.mask, x.tag, x.poison &&& x.mask⟩])) v.bq from fold s.warp
  induction h with
  | nil => intro v; simp
  | @cons x y rs ys hxy _ ih =>
    intro v
    obtain ⟨e1, e2, e3, e4, e5, e6⟩ := hxy
    simp only [List.filter_cons, ← e1]
    split
    · rw [List.foldl_cons, ih, acc, List.foldl_cons]
      unfold pushBack
      split
      · rfl
      · have hws : (laneIds.map fun i => if x.mask.has i then x.val.word i else 0#32) = laneIds.map fun k => if y.mask.has k then y.word k else 0#32 := by
          apply List.map_congr_left
          intro a ha
          have ha' : a < 32 := by simpa [laneIds] using ha
          rw [← e2]
          by_cases hp : x.mask.has a = true
          · simp [hp, e6 a ha' hp]
          · simp [hp]
        rw [hws, e1, e2, e3, e4]
    · exact ih v

/-- A retired word that is not variable-latency by itself: what it leaves. -/
theorem retire_done {i : Instr} {f : LaneForm} {w : Strip} {sp : Split} {s : State} (h : LaneReady i f w sp s)
    (regs : List RegWrite) (ps : List PredWrite) (l : List Wrote) (next : Option DWord)
    (hl : List.Forall₂ (fun x y => Wrote.of y x) regs l) (hn : (l.map (·.n)).Nodup)
    (h7 : ∀ p ∈ ps, p.k ≤ 7) (hp : (ps.map (·.k)).Nodup) :
    LaneRetired (cxOf s f w sp) (next.getD (sp.pc + 12#64)) s
        (retire i (cxOf s f w sp) { s := s, regs := regs, preds := ps, next := next }) ∧
      LaneResults l ps s (retire i (cxOf s f w sp) { s := s, regs := regs, preds := ps, next := next }) := by
  set cx := cxOf s f w sp with hcx
  set d : Done := { s := s, regs := regs, preds := ps, next := next } with hd
  have hs : d.s = s := rfl
  obtain ⟨hf, hsl, hso, hq, hr, hw⟩ := retire_frame i cx d h.single
  obtain ⟨r1, r2, r4, r3⟩ := retire_results i cx d h.single ⟨rfl, rfl, rfl, rfl, rfl⟩
  rw [hs] at hf hsl hso hq hr hw r1 r2 r3 r4
  generalize retire i cx d = t at *
  have hnames : regs.map (·.n) = l.map (·.n) := by
    clear hd r1 r2 r3 r4 hn; clear_value d
    induction hl with
    | nil => rfl
    | cons h _ ih => simp only [List.map_cons, h.1, ih]
  have partner : ∀ y ∈ l, ∃ x ∈ regs, Wrote.of y x := by
    clear hd r1 r2 r3 r4 hn hnames; clear_value d
    induction hl with
    | nil => intro y hy; exact absurd hy (by simp)
    | cons h _ ih =>
      intro y hy
      rcases List.mem_cons.mp hy with rfl | hy
      · exact ⟨_, List.mem_cons_self .., h⟩
      · obtain ⟨x, hx, hh⟩ := ih y hy; exact ⟨x, List.mem_cons_of_mem _ hx, hh⟩
  have filtered : ((d.regs.filter fun x => decide (x.n < 248)).map (·.n)).Nodup := by
    rw [← hnames] at hn
    exact hn.sublist (List.Sublist.map _ (List.filter_sublist ..))
  have hbq : t.warp.bq = backAfter s l := r3.trans (backAfter_eq s hl)
  have pop := popQueues_same (w := s.warp) (qs := namedQueues f w) h.fed
  have hq' : t.warp.fq = (popQueues s.warp (namedQueues f w)).fq := hq
  refine ⟨⟨⟨sp, (retiredSplit cx d s.draws sp).sig, h.split, ?_⟩, hso, hq, ?_, hf.2, ?_⟩, fun he => ?_, fun hne => ?_⟩
  · have : t.slotB = s.slotB := hf.slot
    unfold State.split?
    rw [this, hsl, h.split]
    rfl
  · obtain ⟨⟨a, b, r, ps, fq, bq, q, pk, fr, n, wt, c, g, rfl⟩, -⟩ := hf
    simp only at hr hw
    subst hr; subst hw; rfl
  · obtain ⟨⟨a, b, r, ps, fq, bq, q, pk, fr, n, wt, c, g, rfl⟩, -⟩ := hf
    exact fun _ => rfl
  · have hnil : namedQueues f w = [] := pop.mp (by rw [← hq', he])
    have hlater : laterBy cx d = false := by
      show (!(namedQueues f w).isEmpty && _) = false
      rw [hnil]; rfl
    unfold resultsIn at r1 r2
    rw [hlater] at r1 r2
    simp only [Bool.false_eq_true, if_false] at r1 r2
    obtain ⟨q1, q2⟩ := writeNow_fold (d.regs.filter fun x => decide (x.n < 248)) s.warp filtered
    have regs_preds : ∀ (l : List PredWrite) (w : Warp), (l.foldl (fun w x => w.writePred x) w).regs = w.regs := by
      intro l w; obtain ⟨p, hp⟩ := writePred_keeps l w; rw [hp]
    have preds_now : ∀ (l : List RegWrite) (w : Warp), (l.foldl (fun w x => w.writeNow x) w).preds = w.preds := by
      intro l w; obtain ⟨r, p, hp⟩ := writeNow_keeps l w; rw [hp]
    have r1' : ∀ n, SameLane (t.warp.reg n)
        (((d.regs.filter fun x => decide (x.n < 248)).foldl (fun w x => w.writeNow x) s.warp).reg n) := by
      intro n; have := r1 n; unfold Warp.reg at this ⊢; rwa [regs_preds] at this
    have r2' : ∀ n k, t.warp.predLane n k =
        (d.preds.foldl (fun w x => w.writePred x) ((d.regs.filter fun x => decide (x.n < 248)).foldl
          (fun w x => w.writeNow x) s.warp)).predLane n k := by
      intro n k; unfold Warp.predLane; rw [r2]
    have before : ∀ n k, ((d.regs.filter fun x => decide (x.n < 248)).foldl (fun w x => w.writeNow x) s.warp).predLane n k =
        s.warp.predLane n k := by intro n k; unfold Warp.predLane; rw [preds_now]
    refine ⟨fun y hy hlt => ?_, fun n hn => ?_, hbq, fun p hpm k hk => ?_, fun n k hn7 hne => ?_⟩
    · obtain ⟨x, hx, e1, e2, e3, e4, e5, e6⟩ := partner y hy
      have hxm : x ∈ d.regs.filter fun x => decide (x.n < 248) := by
        rw [List.mem_filter]; exact ⟨hx, by simpa [e1] using hlt⟩
      have key := r1' x.n
      rw [q1 x hxm, e1] at key
      obtain ⟨k1, k2, k3, k4⟩ := key
      refine ⟨fun k hk hm => ?_, fun k hk ha hm => ?_, ?_, ?_, ?_⟩
      · rw [k1, (writeReg_word s.warp.alive _ x hk).1 (by rw [e2]; exact hm)]
        exact e6 k hk (by rw [e2]; exact hm)
      · rw [k1, (writeReg_word s.warp.alive _ x hk).2 ha (by rw [e2]; exact hm)]
      · rw [k2, ← e3]; rfl
      · rw [k4, ← e2, ← e4]; rfl
      · rw [k3, ← e3, ← e2, ← e5]; rfl
    · have : ∀ x ∈ d.regs.filter (fun x => decide (x.n < 248)), x.n ≠ n := by
        intro x hx he
        rw [List.mem_filter] at hx
        have : x.n ∈ l.map (·.n) := by rw [← hnames]; exact List.mem_map_of_mem hx.1
        obtain ⟨y, hy, hye⟩ := List.mem_map.mp this
        rcases hn y hy with h' | h'
        · exact h' (by rw [hye, he])
        · have := hx.2; simp at this; omega
      have key := r1' n
      rw [q2 n this] at key
      exact key
    · rw [r2', (writePred_fold ps _ h7 hp).1 p hpm k hk, before]
    · rw [r2']
      by_cases hk : k < 32
      · rw [(writePred_fold ps _ h7 hp).2 n k hk hne, before]
      · unfold Warp.predLane LaneMask.has
        have hk' : 32 ≤ k := by omega
        simp [BitVec.getLsbD_of_ge _ k hk']
  · have hnil : namedQueues f w ≠ [] := fun h0 => hne (by rw [hq', pop.mpr h0])
    have hempty : (namedQueues f w).isEmpty = false := by simpa using hnil
    have lists : List.Forall₂ (fun x y => Wrote.of y x) (regs.filter fun x => decide (x.n < 248)) (l.filter fun y => decide (y.n < 248)) := by
      clear hd r1 r2 r3 r4 hn hnames partner filtered hbq; clear_value d
      induction hl with
      | nil => exact .nil
      | cons h _ ih =>
        simp only [List.filter_cons, h.1]
        split
        · exact .cons h ih
        · exact ih
    have hlen := lists.length_eq
    by_cases hl0 : laterBy cx d = true
    · unfold resultsIn at r1 r2 r4
      rw [hl0] at r1 r2 r4
      refine ⟨r1, r2, hbq, ?_⟩
      rw [if_neg]
      · refine ⟨pendingOf d, r4, rfl, rfl, ?_⟩
        show List.Forall₂ Wrote.of _ ((regs.filter fun x => decide (x.n < 248)).map _)
        rw [List.forall₂_map_right_iff]
        refine lists.flip.imp fun y x hxy => ?_
        obtain ⟨e1, e2, e3, e4, e5, e6⟩ := hxy
        split
        · exact ⟨e1, e2, e3, e4, e5, e6⟩
        · refine ⟨e1, e2, e3, e4, e5, fun k hk hm => ?_⟩
          exact (getD_laneIds _ _ hk).trans (e6 k hk hm)
      · rintro ⟨h1, h2⟩
        have : laterBy cx d = false := by
          show (!_ && !((regs.filter _).isEmpty && ps.isEmpty)) = false
          rw [h1] at hlen
          rw [List.length_eq_zero_iff.mp hlen, h2]; simp
        rw [this] at hl0; exact absurd hl0 (by simp)
    · have hf0 : laterBy cx d = false := by simpa using hl0
      have hboth : (regs.filter fun x => decide (x.n < 248)) = [] ∧ ps = [] := by
        change (!(namedQueues f w).isEmpty && !((regs.filter _).isEmpty && ps.isEmpty)) = false at hf0
        rw [hempty] at hf0
        simpa using hf0
      unfold resultsIn at r1 r2 r4
      rw [hf0] at r1 r2 r4
      change ∀ n, SameLane _ ((ps.foldl _ ((regs.filter fun x => decide (x.n < 248)).foldl _ s.warp)).reg n) at r1
      change _ = (ps.foldl _ ((regs.filter fun x => decide (x.n < 248)).foldl _ s.warp)).preds at r2
      change _ = (ps.foldl _ ((regs.filter fun x => decide (x.n < 248)).foldl _ s.warp)).pending at r4
      rw [hboth.1, hboth.2] at r1 r2 r4
      have hl0 : (l.filter fun y => decide (y.n < 248)) = [] := by
        rw [hboth.1] at hlen
        exact List.length_eq_zero_iff.mp hlen.symm
      refine ⟨r1, r2, hbq, ?_⟩
      rw [if_pos ⟨hl0, hboth.2⟩]
      exact r4

/-- A retired word of one result that is not variable-latency by itself. -/
theorem retire_put {i : Instr} {f : LaneForm} {w : Strip} {sp : Split} {s : State} (h : LaneReady i f w sp s)
    (val : WriteVal) (tag : FmtTag) (g : Nat → Word)
    (hg : ∀ k, k < 32 → (cxOf s f w sp).p.has k = true → val.word k = g k) :
    LaneRetired (cxOf s f w sp) (sp.pc + 12#64) s
        (retire i (cxOf s f w sp) { s := s, regs := [mkWrite w.d.toNat val (cxOf s f w sp).p tag] }) ∧
      LaneResult (cxOf s f w sp) tag g s
        (retire i (cxOf s f w sp) { s := s, regs := [mkWrite w.d.toNat val (cxOf s f w sp).p tag] }) :=
  retire_done h _ [] [{ n := w.d.toNat, mask := (cxOf s f w sp).p, tag := tag, word := g }] none
    (.cons ⟨rfl, rfl, rfl, rfl, rfl, hg⟩ .nil) (by simp) (by simp) (by simp)

end Sys2Proof.Machine
end

