-- ==== Sys2Proof/Laws/Operands.lean ====
section
/-! SUPPORT. Lemmas about operands: where no result is outstanding a register reads as it stands, a pattern reads the
source lane's word, and a result computed lane by lane holds the words computed. -/

namespace Sys2Proof.Machine

theorem hazard_settled (draws n : Nat) (w : Warp) (i : Nat) (v : Word)
    (h : ∀ p ∈ w.pending, ∀ x ∈ p.regs, x.n ≠ n) : hazardWord draws n w i v = v := by
  unfold hazardWord
  have inner : ∀ (l : List RegWrite) (v : Word), (∀ x ∈ l, x.n ≠ n) → l.foldl (fun v x =>
      if x.n = n && x.mask.has i && Config.choice draws (n * 64 + i) then
        match x.val with
        | .uniform u => u
        | .affine b st => b + BitVec.ofNat 32 i * st
        | .lanes ws => ws.getD i 0#32
      else v) v = v := by
    intro l
    induction l with
    | nil => intro v _; rfl
    | cons x t ih =>
      intro v hx
      have : x.n ≠ n := hx x (List.mem_cons_self ..)
      rw [List.foldl_cons]
      simp only [this, decide_false, Bool.false_and, Bool.false_eq_true, if_false]
      exact ih v fun y hy => hx y (List.mem_cons_of_mem _ hy)
  have outer : ∀ (l : List Pending) (v : Word), (∀ p ∈ l, ∀ x ∈ p.regs, x.n ≠ n) → l.foldl (fun v p =>
    p.regs.foldl (fun v x =>
      if x.n = n && x.mask.has i && Config.choice draws (n * 64 + i) then
        match x.val with
        | .uniform u => u
        | .affine b st => b + BitVec.ofNat 32 i * st
        | .lanes ws => ws.getD i 0#32
      else v) v) v = v := by
    intro l
    induction l with
    | nil => intro v _; rfl
    | cons p t ih =>
      intro v h
      rw [List.foldl_cons, inner p.regs v (h p (List.mem_cons_self ..))]
      exact ih v fun q hq => h q (List.mem_cons_of_mem _ hq)
  exact outer w.pending v h

theorem readReg_word (draws : Nat) (w : Warp) (n k : Nat) (hk : k < 32)
    (h : ∀ p ∈ w.pending, ∀ x ∈ p.regs, x.n ≠ n) : (readReg draws w n).word k = (w.reg n).val.word k := by
  refine Eq.trans (getD_laneIds (fun i => hazardWord draws n w i ((w.reg n).val.word i)) 0#32 hk) ?_
  rw [hazard_settled _ _ _ _ _ h]

theorem replicate_getD (v : Word) {k : Nat} (hk : k < 32) : (List.replicate 32 v).getD k 0#32 = v := by
  rw [List.getD_eq_getElem _ _ (by simpa using hk)]
  exact List.getElem_replicate ..

theorem lowest_has {m : LaneMask} {k : Nat} (hk : k < 32) (h : m.has k = true) :
    LaneMask.lowest m < 32 ∧ m.has (LaneMask.lowest m) = true := by
  unfold LaneMask.lowest
  have hmem : k ∈ LaneMask.lanes m := by
    unfold LaneMask.lanes laneIds; rw [List.mem_filter]; exact ⟨by simpa using hk, h⟩
  cases hl : LaneMask.lanes m with
  | nil => rw [hl] at hmem; exact absurd hmem (by simp)
  | cons a t =>
    have : a ∈ LaneMask.lanes m := by rw [hl]; exact List.mem_cons_self ..
    unfold LaneMask.lanes laneIds at this
    rw [List.mem_filter] at this
    exact ⟨by simpa using this.1, this.2⟩

/-- The words of a patterned read, lane by lane. -/
theorem applyPat_word (dead : LaneMask) (pat k : Nat) (o : Operand) (hp : pat ≠ 0) {i : Nat} (hi : i < 32) :
    (applyPat dead pat k o).word i =
      ((((patLane pat k i).filter fun j => !dead.has j)).map o.word).getD 0#32 := by
  unfold applyPat
  rw [if_neg hp]
  exact getD_laneIds (fun i => ((((patLane pat k i).filter fun j => !dead.has j)).map o.word).getD 0#32) 0#32 hi

theorem patLane_lt (pat k i j : Nat) (hk : k < 32) (hi : i < 32) (h : patLane pat k i = some j) : j < 32 := by
  unfold patLane at h
  split at h
  · simp at h; omega
  · simp at h; omega
  · simp at h; omega
  · simp at h; subst h; exact Nat.xor_lt_two_pow (n := 5) hi hk
  · simp at h; omega
  · split at h <;> simp at h; omega
  · split at h <;> simp at h; omega

/-! ## The operands of a word -/

theorem settled_reg {s : State} {f : LaneForm} {w : Strip} (h : Settled s f w) {n : Nat} (hn : n ∈ Form.readRegs f w) :
    ∀ p ∈ s.warp.pending, ∀ x ∈ p.regs, x.n ≠ n := by
  intro p hp x hx he
  unfold Settled readsPending outstanding at h
  rw [List.any_eq_false] at h
  have := h n hn
  rw [Bool.not_eq_true, List.any_eq_false] at this
  have := this p hp
  rw [Bool.not_eq_true, List.any_eq_false] at this
  exact this x hx (by simp [he])

theorem lane0_has {s : State} {f : LaneForm} {w : Strip} {sp : Split} {k : Nat} (hk : k < 32)
    (hp : (cxOf s f w sp).p.has k = true) : (cxOf s f w sp).lane0 < 32 ∧ (cxOf s f w sp).p.has (cxOf s f w sp).lane0 = true :=
  lowest_has hk hp

/-- The words of a result computed lane by lane, whatever shape it is given (R31). -/
theorem mapLanes_word (cx : Cx) (u : Bool) (g : Nat → Word) {k : Nat} (hk : k < 32) (hp : cx.p.has k = true) :
    (cx.mapLanes u g).word k = g k := by
  have own : (WriteVal.lanes (laneIds.map g)).word k = g k := getD_laneIds g 0#32 hk
  unfold Cx.mapLanes Cx.shaped
  split
  · split
    · rename_i h
      simp only [Bool.and_eq_true, List.all_eq_true, beq_iff_eq] at h
      refine h.2 k ?_
      unfold LaneMask.lanes laneIds
      rw [List.mem_filter]; exact ⟨by simpa using hk, hp⟩
    · exact own
  · exact own

/-- A ready word that computes one result from its operands' words. -/
theorem laneMap_ready {c : Instr} {f : LaneForm} {w : Strip} {sp : Split} {s : State} (h : LaneRuns c f w sp s)
    (g : Cx → Nat → Word) (r : Cx → Nat → Word)
    (hg : ∀ k, k < 32 → (cxOf s f w sp).p.has k = true → g (cxOf s f w sp) k = r (cxOf s f w sp) k) :
    ∃ t, laneMap c g s = .next t ∧ LaneRetired (cxOf s f w sp) (sp.pc + 12#64) s t ∧
      LaneResult (cxOf s f w sp) w.fmt (r (cxOf s f w sp)) s t :=
  ⟨_, laneWord_ready h.toLaneReady (optsPass_plain h.clean) (Or.inl h.some),
    retire_put h.toLaneReady _ _ _ fun k hk hpk => by rw [← hg k hk hpk]; exact mapLanes_word _ _ _ hk hpk⟩

end Sys2Proof.Machine
end

