-- ==== Sys2Proof/Laws/SaveArea.lean ====
section
/-! SUPPORT. The sizes that R236 gives the parts of a save area. -/

namespace Sys2Proof.Machine

/-- Items of one size laid one after the other. -/
theorem flatMap_size {α : Type} (l : List α) (f : α → List Byte) (n : Nat) (h : ∀ x, (f x).length = n) :
    (l.flatMap f).length = n * l.length := by
  induction l with
  | nil => simp
  | cons x t ih => simp [ih, h, Nat.mul_succ, Nat.add_comm]

@[simp] theorem padTo_length (n : Nat) (l : List Byte) : (padTo n l).length = n := by simp [padTo]; omega

@[simp] theorem stackBytes_length (k : Byte) (sig m : Word) (j pc : DWord) : (stackBytes k sig m j pc).length = 32 := by
  simp [stackBytes, toBytesLE_len]

@[simp] theorem entryBytes_length (w : Warp) (e : StackEntry) : (entryBytes w e).length = 32 := by
  cases e <;> simp [entryBytes, splitBytes]

@[simp] theorem slotBytes_length (w : Warp) (o : Option Split) : (slotBytes w o).length = 32 := by
  cases o <;> simp [slotBytes, splitBytes]

@[simp] theorem trapSetBytes_length (t : TrapSet) : (trapSetBytes t).length = 32 := by simp [trapSetBytes, toBytesLE_len]

/-- A warp block is 1,024 bytes long. -/
theorem warpBlock_length (wearctx : DWord) (w : Warp) : (warpBlock wearctx w).length = 1024 := by
  have hp := flatMap_size w.preds.toList (fun p => toBytesLE 4 p.toNat) 4 fun _ => toBytesLE_len ..
  have hs := flatMap_size w.s.toList (fun x => toBytesLE 8 x.toNat) 8 fun _ => toBytesLE_len ..
  have hc : (laneCsrBytes wearctx w).length = 128 := padTo_length ..
  have hr : (retBytes w).length = 128 := padTo_length ..
  have ha : (accessBytes w).length = 64 := padTo_length ..
  simp only [Vector.length_toList, List.length_range] at hp hs
  simp only [warpBlock, List.length_append, slotBytes_length, trapSetBytes_length, toBytesLE_len, hp, hs, hc, hr, ha,
    List.length_replicate, List.length_cons, List.length_nil]

/-- A row is 2,082 bytes long. -/
theorem rowBytes_length (r : AccRow) : (rowBytes r).length = 2082 := by simp only [rowBytes, List.length_append, padTo_length, toBytesLE_len]

theorem layBytes_length (n o : Nat) (l : List (Nat × Byte)) : (layBytes n o l).length = n := by
  induction n generalizing o l with
  | zero => rfl
  | succ n ih =>
    match l with
    | [] => simp [layBytes, ih]
    | (k, b) :: t => simp only [layBytes]; split <;> simp [ih]

/-- A team part is 64 + 65,536 + TOTAL + 2,048 × warps bytes long. -/
theorem teamPart_length (x : Saved) (t : Team) (i : Nat) :
    (teamPart x t i).length = 64 + 65536 + t.total + 2048 * (x.warpsOf t).length := by
  have hm := flatMap_size t.spmap.toList (fun m => toBytesLE 8 m.toNat) 8 fun _ => toBytesLE_len ..
  have hd := flatMap_size (x.warpsOf t) (fun w => padTo 2048 (w.stack.flatMap (entryBytes w))) 2048 fun _ => padTo_length ..
  simp only [Vector.length_toList] at hm
  unfold teamPart
  cases x.planes.find? (·.1 == i) <;>
    simp only [planeBytes, List.length_append, padTo_length, List.length_replicate, layBytes_length, hm, hd]

/-- The header is 256 bytes long. -/
theorem header_length (x : Saved) : x.header.length = 256 := by
  have hr : ((List.range 4).flatMap (coreRecords x)).length = 32 * (List.range 4).length :=
    flatMap_size _ _ 32 fun _ => padTo_length ..
  simp only [List.length_range] at hr
  simp only [Saved.header, List.length_append, padTo_length, hr]

end Sys2Proof.Machine
end

