-- ==== Sys2Proof/Laws/State.lean ====
section
/-! SUPPORT. One lemma per update of the state: which field it sets, and that the others read as before. Each is a simp
lemma, so that no proof unfolds a record update. -/

namespace Sys2Proof.Machine

/-- `modWarp` sets `warp` alone. -/
@[simp] theorem modWarp_others (s : State) (f : Warp → Warp) :
    (modWarp s f).agenda = s.agenda ∧ (modWarp s f).plan = s.plan ∧ (modWarp s f).turn = s.turn ∧
    (modWarp s f).slotB = s.slotB ∧ (modWarp s f).draws = s.draws ∧ (modWarp s f).others = s.others ∧
    (modWarp s f).start = s.start ∧ (modWarp s f).cold = s.cold ∧ (modWarp s f).failedStarts = s.failedStarts ∧
    (modWarp s f).incarnation = s.incarnation ∧ (modWarp s f).chip = s.chip ∧ (modWarp s f).fwStore = s.fwStore ∧
    (modWarp s f).fwRunning = s.fwRunning ∧ (modWarp s f).orderly = s.orderly ∧ (modWarp s f).powerDerated = s.powerDerated ∧
    (modWarp s f).l2Private = s.l2Private ∧ (modWarp s f).nextGrid = s.nextGrid ∧ (modWarp s f).nextReq = s.nextReq ∧
    (modWarp s f).nextSeq = s.nextSeq ∧ (modWarp s f).nextId = s.nextId ∧ (modWarp s f).cycle = s.cycle ∧
    (modWarp s f).mem = s.mem ∧ (modWarp s f).poison = s.poison ∧ (modWarp s f).hist = s.hist ∧
    (modWarp s f).serial = s.serial ∧ (modWarp s f).landings = s.landings ∧ (modWarp s f).versions = s.versions ∧
    (modWarp s f).mapped = s.mapped ∧ (modWarp s f).spDirty = s.spDirty ∧ (modWarp s f).barSeen = s.barSeen ∧
    (modWarp s f).crecs = s.crecs ∧ (modWarp s f).hostSeen = s.hostSeen ∧ (modWarp s f).tfences = s.tfences ∧
    (modWarp s f).tlb = s.tlb ∧ (modWarp s f).lineTimes = s.lineTimes ∧ (modWarp s f).dieLeases = s.dieLeases ∧
    (modWarp s f).away = s.away ∧ (modWarp s f).contexts = s.contexts ∧ (modWarp s f).images = s.images ∧
    (modWarp s f).requests = s.requests ∧ (modWarp s f).submitted = s.submitted ∧ (modWarp s f).tasks = s.tasks ∧
    (modWarp s f).grids = s.grids ∧ (modWarp s f).teams = s.teams ∧ (modWarp s f).saved = s.saved ∧
    (modWarp s f).preemptAsked = s.preemptAsked ∧ (modWarp s f).testAsked = s.testAsked ∧
    (modWarp s f).faultPos = s.faultPos ∧ (modWarp s f).blockFaults = s.blockFaults ∧ (modWarp s f).progress = s.progress ∧
    (modWarp s f).cores = s.cores ∧ (modWarp s f).drains = s.drains ∧ (modWarp s f).copies = s.copies ∧
    (modWarp s f).domains = s.domains ∧ (modWarp s f).cqueues = s.cqueues ∧ (modWarp s f).ladders = s.ladders ∧
    (modWarp s f).filters = s.filters ∧ (modWarp s f).checkpoints = s.checkpoints ∧ (modWarp s f).sent = s.sent ∧
    (modWarp s f).applied = s.applied ∧ (modWarp s f).heldWrites = s.heldWrites ∧ (modWarp s f).failedChips = s.failedChips ∧
    (modWarp s f).peers = s.peers ∧ (modWarp s f).remoteLeases = s.remoteLeases ∧ (modWarp s f).fabric = s.fabric ∧
    (modWarp s f).portA = s.portA ∧ (modWarp s f).portB = s.portB ∧ (modWarp s f).sems0 = s.sems0 ∧
    (modWarp s f).sems1 = s.sems1 ∧ (modWarp s f).lifeA = s.lifeA ∧ (modWarp s f).lifeB = s.lifeB ∧
    (modWarp s f).scrubs = s.scrubs := by unfold modWarp; exact ⟨rfl, rfl, rfl, rfl, rfl, rfl, rfl, rfl, rfl, rfl, rfl, rfl, rfl, rfl, rfl, rfl, rfl, rfl, rfl, rfl, rfl, rfl, rfl, rfl, rfl, rfl, rfl, rfl, rfl, rfl, rfl, rfl, rfl, rfl, rfl, rfl, rfl, rfl, rfl, rfl, rfl, rfl, rfl, rfl, rfl, rfl, rfl, rfl, rfl, rfl, rfl, rfl, rfl, rfl, rfl, rfl, rfl, rfl, rfl, rfl, rfl, rfl, rfl, rfl, rfl, rfl, rfl, rfl, rfl, rfl, rfl, rfl⟩

@[simp] theorem modWarp_warp (s : State) (f : Warp → Warp) : (modWarp s f).warp = f s.warp := rfl

/-- `State.setSplit` sets `warp` alone. -/
@[simp] theorem State.setSplit_others (s : State) (o : Option Split) :
    (State.setSplit s o).agenda = s.agenda ∧ (State.setSplit s o).plan = s.plan ∧ (State.setSplit s o).turn = s.turn ∧
    (State.setSplit s o).slotB = s.slotB ∧ (State.setSplit s o).draws = s.draws ∧ (State.setSplit s o).others = s.others ∧
    (State.setSplit s o).start = s.start ∧ (State.setSplit s o).cold = s.cold ∧
    (State.setSplit s o).failedStarts = s.failedStarts ∧ (State.setSplit s o).incarnation = s.incarnation ∧
    (State.setSplit s o).chip = s.chip ∧ (State.setSplit s o).fwStore = s.fwStore ∧
    (State.setSplit s o).fwRunning = s.fwRunning ∧ (State.setSplit s o).orderly = s.orderly ∧
    (State.setSplit s o).powerDerated = s.powerDerated ∧ (State.setSplit s o).l2Private = s.l2Private ∧
    (State.setSplit s o).nextGrid = s.nextGrid ∧ (State.setSplit s o).nextReq = s.nextReq ∧
    (State.setSplit s o).nextSeq = s.nextSeq ∧ (State.setSplit s o).nextId = s.nextId ∧
    (State.setSplit s o).cycle = s.cycle ∧ (State.setSplit s o).mem = s.mem ∧ (State.setSplit s o).poison = s.poison ∧
    (State.setSplit s o).hist = s.hist ∧ (State.setSplit s o).serial = s.serial ∧
    (State.setSplit s o).landings = s.landings ∧ (State.setSplit s o).versions = s.versions ∧
    (State.setSplit s o).mapped = s.mapped ∧ (State.setSplit s o).spDirty = s.spDirty ∧
    (State.setSplit s o).barSeen = s.barSeen ∧ (State.setSplit s o).crecs = s.crecs ∧
    (State.setSplit s o).hostSeen = s.hostSeen ∧ (State.setSplit s o).tfences = s.tfences ∧
    (State.setSplit s o).tlb = s.tlb ∧ (State.setSplit s o).lineTimes = s.lineTimes ∧
    (State.setSplit s o).dieLeases = s.dieLeases ∧ (State.setSplit s o).away = s.away ∧
    (State.setSplit s o).contexts = s.contexts ∧ (State.setSplit s o).images = s.images ∧
    (State.setSplit s o).requests = s.requests ∧ (State.setSplit s o).submitted = s.submitted ∧
    (State.setSplit s o).tasks = s.tasks ∧ (State.setSplit s o).grids = s.grids ∧ (State.setSplit s o).teams = s.teams ∧
    (State.setSplit s o).saved = s.saved ∧ (State.setSplit s o).preemptAsked = s.preemptAsked ∧
    (State.setSplit s o).testAsked = s.testAsked ∧ (State.setSplit s o).faultPos = s.faultPos ∧
    (State.setSplit s o).blockFaults = s.blockFaults ∧ (State.setSplit s o).progress = s.progress ∧
    (State.setSplit s o).cores = s.cores ∧ (State.setSplit s o).drains = s.drains ∧ (State.setSplit s o).copies = s.copies ∧
    (State.setSplit s o).domains = s.domains ∧ (State.setSplit s o).cqueues = s.cqueues ∧
    (State.setSplit s o).ladders = s.ladders ∧ (State.setSplit s o).filters = s.filters ∧
    (State.setSplit s o).checkpoints = s.checkpoints ∧ (State.setSplit s o).sent = s.sent ∧
    (State.setSplit s o).applied = s.applied ∧ (State.setSplit s o).heldWrites = s.heldWrites ∧
    (State.setSplit s o).failedChips = s.failedChips ∧ (State.setSplit s o).peers = s.peers ∧
    (State.setSplit s o).remoteLeases = s.remoteLeases ∧ (State.setSplit s o).fabric = s.fabric ∧
    (State.setSplit s o).portA = s.portA ∧ (State.setSplit s o).portB = s.portB ∧ (State.setSplit s o).sems0 = s.sems0 ∧
    (State.setSplit s o).sems1 = s.sems1 ∧ (State.setSplit s o).lifeA = s.lifeA ∧ (State.setSplit s o).lifeB = s.lifeB ∧
    (State.setSplit s o).scrubs = s.scrubs := by unfold State.setSplit; exact ⟨rfl, rfl, rfl, rfl, rfl, rfl, rfl, rfl, rfl, rfl, rfl, rfl, rfl, rfl, rfl, rfl, rfl, rfl, rfl, rfl, rfl, rfl, rfl, rfl, rfl, rfl, rfl, rfl, rfl, rfl, rfl, rfl, rfl, rfl, rfl, rfl, rfl, rfl, rfl, rfl, rfl, rfl, rfl, rfl, rfl, rfl, rfl, rfl, rfl, rfl, rfl, rfl, rfl, rfl, rfl, rfl, rfl, rfl, rfl, rfl, rfl, rfl, rfl, rfl, rfl, rfl, rfl, rfl, rfl, rfl, rfl, rfl⟩

@[simp] theorem State.setSplit_warp (s : State) (o : Option Split) : (State.setSplit s o).warp = s.warp.setSlot s.slotB o := rfl

/-- `State.modSplit` sets `warp` alone. -/
@[simp] theorem State.modSplit_others (s : State) (f : Split → Split) :
    (State.modSplit s f).agenda = s.agenda ∧ (State.modSplit s f).plan = s.plan ∧ (State.modSplit s f).turn = s.turn ∧
    (State.modSplit s f).slotB = s.slotB ∧ (State.modSplit s f).draws = s.draws ∧ (State.modSplit s f).others = s.others ∧
    (State.modSplit s f).start = s.start ∧ (State.modSplit s f).cold = s.cold ∧
    (State.modSplit s f).failedStarts = s.failedStarts ∧ (State.modSplit s f).incarnation = s.incarnation ∧
    (State.modSplit s f).chip = s.chip ∧ (State.modSplit s f).fwStore = s.fwStore ∧
    (State.modSplit s f).fwRunning = s.fwRunning ∧ (State.modSplit s f).orderly = s.orderly ∧
    (State.modSplit s f).powerDerated = s.powerDerated ∧ (State.modSplit s f).l2Private = s.l2Private ∧
    (State.modSplit s f).nextGrid = s.nextGrid ∧ (State.modSplit s f).nextReq = s.nextReq ∧
    (State.modSplit s f).nextSeq = s.nextSeq ∧ (State.modSplit s f).nextId = s.nextId ∧
    (State.modSplit s f).cycle = s.cycle ∧ (State.modSplit s f).mem = s.mem ∧ (State.modSplit s f).poison = s.poison ∧
    (State.modSplit s f).hist = s.hist ∧ (State.modSplit s f).serial = s.serial ∧
    (State.modSplit s f).landings = s.landings ∧ (State.modSplit s f).versions = s.versions ∧
    (State.modSplit s f).mapped = s.mapped ∧ (State.modSplit s f).spDirty = s.spDirty ∧
    (State.modSplit s f).barSeen = s.barSeen ∧ (State.modSplit s f).crecs = s.crecs ∧
    (State.modSplit s f).hostSeen = s.hostSeen ∧ (State.modSplit s f).tfences = s.tfences ∧
    (State.modSplit s f).tlb = s.tlb ∧ (State.modSplit s f).lineTimes = s.lineTimes ∧
    (State.modSplit s f).dieLeases = s.dieLeases ∧ (State.modSplit s f).away = s.away ∧
    (State.modSplit s f).contexts = s.contexts ∧ (State.modSplit s f).images = s.images ∧
    (State.modSplit s f).requests = s.requests ∧ (State.modSplit s f).submitted = s.submitted ∧
    (State.modSplit s f).tasks = s.tasks ∧ (State.modSplit s f).grids = s.grids ∧ (State.modSplit s f).teams = s.teams ∧
    (State.modSplit s f).saved = s.saved ∧ (State.modSplit s f).preemptAsked = s.preemptAsked ∧
    (State.modSplit s f).testAsked = s.testAsked ∧ (State.modSplit s f).faultPos = s.faultPos ∧
    (State.modSplit s f).blockFaults = s.blockFaults ∧ (State.modSplit s f).progress = s.progress ∧
    (State.modSplit s f).cores = s.cores ∧ (State.modSplit s f).drains = s.drains ∧ (State.modSplit s f).copies = s.copies ∧
    (State.modSplit s f).domains = s.domains ∧ (State.modSplit s f).cqueues = s.cqueues ∧
    (State.modSplit s f).ladders = s.ladders ∧ (State.modSplit s f).filters = s.filters ∧
    (State.modSplit s f).checkpoints = s.checkpoints ∧ (State.modSplit s f).sent = s.sent ∧
    (State.modSplit s f).applied = s.applied ∧ (State.modSplit s f).heldWrites = s.heldWrites ∧
    (State.modSplit s f).failedChips = s.failedChips ∧ (State.modSplit s f).peers = s.peers ∧
    (State.modSplit s f).remoteLeases = s.remoteLeases ∧ (State.modSplit s f).fabric = s.fabric ∧
    (State.modSplit s f).portA = s.portA ∧ (State.modSplit s f).portB = s.portB ∧ (State.modSplit s f).sems0 = s.sems0 ∧
    (State.modSplit s f).sems1 = s.sems1 ∧ (State.modSplit s f).lifeA = s.lifeA ∧ (State.modSplit s f).lifeB = s.lifeB ∧
    (State.modSplit s f).scrubs = s.scrubs := by unfold State.modSplit; simp

/-- `modWarpId` sets `warp` and `others` alone. -/
@[simp] theorem modWarpId_others (s : State) (id : Nat) (f : Warp → Warp) :
    (modWarpId s id f).agenda = s.agenda ∧ (modWarpId s id f).plan = s.plan ∧ (modWarpId s id f).turn = s.turn ∧
    (modWarpId s id f).slotB = s.slotB ∧ (modWarpId s id f).draws = s.draws ∧ (modWarpId s id f).start = s.start ∧
    (modWarpId s id f).cold = s.cold ∧ (modWarpId s id f).failedStarts = s.failedStarts ∧
    (modWarpId s id f).incarnation = s.incarnation ∧ (modWarpId s id f).chip = s.chip ∧
    (modWarpId s id f).fwStore = s.fwStore ∧ (modWarpId s id f).fwRunning = s.fwRunning ∧
    (modWarpId s id f).orderly = s.orderly ∧ (modWarpId s id f).powerDerated = s.powerDerated ∧
    (modWarpId s id f).l2Private = s.l2Private ∧ (modWarpId s id f).nextGrid = s.nextGrid ∧
    (modWarpId s id f).nextReq = s.nextReq ∧ (modWarpId s id f).nextSeq = s.nextSeq ∧ (modWarpId s id f).nextId = s.nextId ∧
    (modWarpId s id f).cycle = s.cycle ∧ (modWarpId s id f).mem = s.mem ∧ (modWarpId s id f).poison = s.poison ∧
    (modWarpId s id f).hist = s.hist ∧ (modWarpId s id f).serial = s.serial ∧ (modWarpId s id f).landings = s.landings ∧
    (modWarpId s id f).versions = s.versions ∧ (modWarpId s id f).mapped = s.mapped ∧
    (modWarpId s id f).spDirty = s.spDirty ∧ (modWarpId s id f).barSeen = s.barSeen ∧ (modWarpId s id f).crecs = s.crecs ∧
    (modWarpId s id f).hostSeen = s.hostSeen ∧ (modWarpId s id f).tfences = s.tfences ∧ (modWarpId s id f).tlb = s.tlb ∧
    (modWarpId s id f).lineTimes = s.lineTimes ∧ (modWarpId s id f).dieLeases = s.dieLeases ∧
    (modWarpId s id f).away = s.away ∧ (modWarpId s id f).contexts = s.contexts ∧ (modWarpId s id f).images = s.images ∧
    (modWarpId s id f).requests = s.requests ∧ (modWarpId s id f).submitted = s.submitted ∧
    (modWarpId s id f).tasks = s.tasks ∧ (modWarpId s id f).grids = s.grids ∧ (modWarpId s id f).teams = s.teams ∧
    (modWarpId s id f).saved = s.saved ∧ (modWarpId s id f).preemptAsked = s.preemptAsked ∧
    (modWarpId s id f).testAsked = s.testAsked ∧ (modWarpId s id f).faultPos = s.faultPos ∧
    (modWarpId s id f).blockFaults = s.blockFaults ∧ (modWarpId s id f).progress = s.progress ∧
    (modWarpId s id f).cores = s.cores ∧ (modWarpId s id f).drains = s.drains ∧ (modWarpId s id f).copies = s.copies ∧
    (modWarpId s id f).domains = s.domains ∧ (modWarpId s id f).cqueues = s.cqueues ∧
    (modWarpId s id f).ladders = s.ladders ∧ (modWarpId s id f).filters = s.filters ∧
    (modWarpId s id f).checkpoints = s.checkpoints ∧ (modWarpId s id f).sent = s.sent ∧
    (modWarpId s id f).applied = s.applied ∧ (modWarpId s id f).heldWrites = s.heldWrites ∧
    (modWarpId s id f).failedChips = s.failedChips ∧ (modWarpId s id f).peers = s.peers ∧
    (modWarpId s id f).remoteLeases = s.remoteLeases ∧ (modWarpId s id f).fabric = s.fabric ∧
    (modWarpId s id f).portA = s.portA ∧ (modWarpId s id f).portB = s.portB ∧ (modWarpId s id f).sems0 = s.sems0 ∧
    (modWarpId s id f).sems1 = s.sems1 ∧ (modWarpId s id f).lifeA = s.lifeA ∧ (modWarpId s id f).lifeB = s.lifeB ∧
    (modWarpId s id f).scrubs = s.scrubs := by unfold modWarpId; split <;> simp

/-- `modCore` sets `cores` alone. -/
@[simp] theorem modCore_others (s : State) (core : Nat) (f : Core → Core) :
    (modCore s core f).agenda = s.agenda ∧ (modCore s core f).plan = s.plan ∧ (modCore s core f).turn = s.turn ∧
    (modCore s core f).slotB = s.slotB ∧ (modCore s core f).draws = s.draws ∧ (modCore s core f).warp = s.warp ∧
    (modCore s core f).others = s.others ∧ (modCore s core f).start = s.start ∧ (modCore s core f).cold = s.cold ∧
    (modCore s core f).failedStarts = s.failedStarts ∧ (modCore s core f).incarnation = s.incarnation ∧
    (modCore s core f).chip = s.chip ∧ (modCore s core f).fwStore = s.fwStore ∧ (modCore s core f).fwRunning = s.fwRunning ∧
    (modCore s core f).orderly = s.orderly ∧ (modCore s core f).powerDerated = s.powerDerated ∧
    (modCore s core f).l2Private = s.l2Private ∧ (modCore s core f).nextGrid = s.nextGrid ∧
    (modCore s core f).nextReq = s.nextReq ∧ (modCore s core f).nextSeq = s.nextSeq ∧ (modCore s core f).nextId = s.nextId ∧
    (modCore s core f).cycle = s.cycle ∧ (modCore s core f).mem = s.mem ∧ (modCore s core f).poison = s.poison ∧
    (modCore s core f).hist = s.hist ∧ (modCore s core f).serial = s.serial ∧ (modCore s core f).landings = s.landings ∧
    (modCore s core f).versions = s.versions ∧ (modCore s core f).mapped = s.mapped ∧
    (modCore s core f).spDirty = s.spDirty ∧ (modCore s core f).barSeen = s.barSeen ∧ (modCore s core f).crecs = s.crecs ∧
    (modCore s core f).hostSeen = s.hostSeen ∧ (modCore s core f).tfences = s.tfences ∧ (modCore s core f).tlb = s.tlb ∧
    (modCore s core f).lineTimes = s.lineTimes ∧ (modCore s core f).dieLeases = s.dieLeases ∧
    (modCore s core f).away = s.away ∧ (modCore s core f).contexts = s.contexts ∧ (modCore s core f).images = s.images ∧
    (modCore s core f).requests = s.requests ∧ (modCore s core f).submitted = s.submitted ∧
    (modCore s core f).tasks = s.tasks ∧ (modCore s core f).grids = s.grids ∧ (modCore s core f).teams = s.teams ∧
    (modCore s core f).saved = s.saved ∧ (modCore s core f).preemptAsked = s.preemptAsked ∧
    (modCore s core f).testAsked = s.testAsked ∧ (modCore s core f).faultPos = s.faultPos ∧
    (modCore s core f).blockFaults = s.blockFaults ∧ (modCore s core f).progress = s.progress ∧
    (modCore s core f).drains = s.drains ∧ (modCore s core f).copies = s.copies ∧ (modCore s core f).domains = s.domains ∧
    (modCore s core f).cqueues = s.cqueues ∧ (modCore s core f).ladders = s.ladders ∧
    (modCore s core f).filters = s.filters ∧ (modCore s core f).checkpoints = s.checkpoints ∧
    (modCore s core f).sent = s.sent ∧ (modCore s core f).applied = s.applied ∧
    (modCore s core f).heldWrites = s.heldWrites ∧ (modCore s core f).failedChips = s.failedChips ∧
    (modCore s core f).peers = s.peers ∧ (modCore s core f).remoteLeases = s.remoteLeases ∧
    (modCore s core f).fabric = s.fabric ∧ (modCore s core f).portA = s.portA ∧ (modCore s core f).portB = s.portB ∧
    (modCore s core f).sems0 = s.sems0 ∧ (modCore s core f).sems1 = s.sems1 ∧ (modCore s core f).lifeA = s.lifeA ∧
    (modCore s core f).lifeB = s.lifeB ∧ (modCore s core f).scrubs = s.scrubs := by unfold modCore; exact ⟨rfl, rfl, rfl, rfl, rfl, rfl, rfl, rfl, rfl, rfl, rfl, rfl, rfl, rfl, rfl, rfl, rfl, rfl, rfl, rfl, rfl, rfl, rfl, rfl, rfl, rfl, rfl, rfl, rfl, rfl, rfl, rfl, rfl, rfl, rfl, rfl, rfl, rfl, rfl, rfl, rfl, rfl, rfl, rfl, rfl, rfl, rfl, rfl, rfl, rfl, rfl, rfl, rfl, rfl, rfl, rfl, rfl, rfl, rfl, rfl, rfl, rfl, rfl, rfl, rfl, rfl, rfl, rfl, rfl, rfl, rfl, rfl⟩

@[simp] theorem modCore_cores (s : State) (core : Nat) (f : Core → Core) : (modCore s core f).cores = Tab.put s.cores core (f (Tab.getD s.cores core Core.init)) := rfl

/-- `modTeam` sets `teams` alone. -/
@[simp] theorem modTeam_others (s : State) (id : Nat) (f : Team → Team) :
    (modTeam s id f).agenda = s.agenda ∧ (modTeam s id f).plan = s.plan ∧ (modTeam s id f).turn = s.turn ∧
    (modTeam s id f).slotB = s.slotB ∧ (modTeam s id f).draws = s.draws ∧ (modTeam s id f).warp = s.warp ∧
    (modTeam s id f).others = s.others ∧ (modTeam s id f).start = s.start ∧ (modTeam s id f).cold = s.cold ∧
    (modTeam s id f).failedStarts = s.failedStarts ∧ (modTeam s id f).incarnation = s.incarnation ∧
    (modTeam s id f).chip = s.chip ∧ (modTeam s id f).fwStore = s.fwStore ∧ (modTeam s id f).fwRunning = s.fwRunning ∧
    (modTeam s id f).orderly = s.orderly ∧ (modTeam s id f).powerDerated = s.powerDerated ∧
    (modTeam s id f).l2Private = s.l2Private ∧ (modTeam s id f).nextGrid = s.nextGrid ∧
    (modTeam s id f).nextReq = s.nextReq ∧ (modTeam s id f).nextSeq = s.nextSeq ∧ (modTeam s id f).nextId = s.nextId ∧
    (modTeam s id f).cycle = s.cycle ∧ (modTeam s id f).mem = s.mem ∧ (modTeam s id f).poison = s.poison ∧
    (modTeam s id f).hist = s.hist ∧ (modTeam s id f).serial = s.serial ∧ (modTeam s id f).landings = s.landings ∧
    (modTeam s id f).versions = s.versions ∧ (modTeam s id f).mapped = s.mapped ∧ (modTeam s id f).spDirty = s.spDirty ∧
    (modTeam s id f).barSeen = s.barSeen ∧ (modTeam s id f).crecs = s.crecs ∧ (modTeam s id f).hostSeen = s.hostSeen ∧
    (modTeam s id f).tfences = s.tfences ∧ (modTeam s id f).tlb = s.tlb ∧ (modTeam s id f).lineTimes = s.lineTimes ∧
    (modTeam s id f).dieLeases = s.dieLeases ∧ (modTeam s id f).away = s.away ∧ (modTeam s id f).contexts = s.contexts ∧
    (modTeam s id f).images = s.images ∧ (modTeam s id f).requests = s.requests ∧ (modTeam s id f).submitted = s.submitted ∧
    (modTeam s id f).tasks = s.tasks ∧ (modTeam s id f).grids = s.grids ∧ (modTeam s id f).saved = s.saved ∧
    (modTeam s id f).preemptAsked = s.preemptAsked ∧ (modTeam s id f).testAsked = s.testAsked ∧
    (modTeam s id f).faultPos = s.faultPos ∧ (modTeam s id f).blockFaults = s.blockFaults ∧
    (modTeam s id f).progress = s.progress ∧ (modTeam s id f).cores = s.cores ∧ (modTeam s id f).drains = s.drains ∧
    (modTeam s id f).copies = s.copies ∧ (modTeam s id f).domains = s.domains ∧ (modTeam s id f).cqueues = s.cqueues ∧
    (modTeam s id f).ladders = s.ladders ∧ (modTeam s id f).filters = s.filters ∧
    (modTeam s id f).checkpoints = s.checkpoints ∧ (modTeam s id f).sent = s.sent ∧ (modTeam s id f).applied = s.applied ∧
    (modTeam s id f).heldWrites = s.heldWrites ∧ (modTeam s id f).failedChips = s.failedChips ∧
    (modTeam s id f).peers = s.peers ∧ (modTeam s id f).remoteLeases = s.remoteLeases ∧ (modTeam s id f).fabric = s.fabric ∧
    (modTeam s id f).portA = s.portA ∧ (modTeam s id f).portB = s.portB ∧ (modTeam s id f).sems0 = s.sems0 ∧
    (modTeam s id f).sems1 = s.sems1 ∧ (modTeam s id f).lifeA = s.lifeA ∧ (modTeam s id f).lifeB = s.lifeB ∧
    (modTeam s id f).scrubs = s.scrubs := by unfold modTeam; exact ⟨rfl, rfl, rfl, rfl, rfl, rfl, rfl, rfl, rfl, rfl, rfl, rfl, rfl, rfl, rfl, rfl, rfl, rfl, rfl, rfl, rfl, rfl, rfl, rfl, rfl, rfl, rfl, rfl, rfl, rfl, rfl, rfl, rfl, rfl, rfl, rfl, rfl, rfl, rfl, rfl, rfl, rfl, rfl, rfl, rfl, rfl, rfl, rfl, rfl, rfl, rfl, rfl, rfl, rfl, rfl, rfl, rfl, rfl, rfl, rfl, rfl, rfl, rfl, rfl, rfl, rfl, rfl, rfl, rfl, rfl, rfl, rfl⟩

@[simp] theorem modTeam_teams (s : State) (id : Nat) (f : Team → Team) : (modTeam s id f).teams = s.teams.map fun t => if t.id = id then f t else t := rfl

/-- `modGrid` sets `grids` alone. -/
@[simp] theorem modGrid_others (s : State) (id : Nat) (f : Grid → Grid) :
    (modGrid s id f).agenda = s.agenda ∧ (modGrid s id f).plan = s.plan ∧ (modGrid s id f).turn = s.turn ∧
    (modGrid s id f).slotB = s.slotB ∧ (modGrid s id f).draws = s.draws ∧ (modGrid s id f).warp = s.warp ∧
    (modGrid s id f).others = s.others ∧ (modGrid s id f).start = s.start ∧ (modGrid s id f).cold = s.cold ∧
    (modGrid s id f).failedStarts = s.failedStarts ∧ (modGrid s id f).incarnation = s.incarnation ∧
    (modGrid s id f).chip = s.chip ∧ (modGrid s id f).fwStore = s.fwStore ∧ (modGrid s id f).fwRunning = s.fwRunning ∧
    (modGrid s id f).orderly = s.orderly ∧ (modGrid s id f).powerDerated = s.powerDerated ∧
    (modGrid s id f).l2Private = s.l2Private ∧ (modGrid s id f).nextGrid = s.nextGrid ∧
    (modGrid s id f).nextReq = s.nextReq ∧ (modGrid s id f).nextSeq = s.nextSeq ∧ (modGrid s id f).nextId = s.nextId ∧
    (modGrid s id f).cycle = s.cycle ∧ (modGrid s id f).mem = s.mem ∧ (modGrid s id f).poison = s.poison ∧
    (modGrid s id f).hist = s.hist ∧ (modGrid s id f).serial = s.serial ∧ (modGrid s id f).landings = s.landings ∧
    (modGrid s id f).versions = s.versions ∧ (modGrid s id f).mapped = s.mapped ∧ (modGrid s id f).spDirty = s.spDirty ∧
    (modGrid s id f).barSeen = s.barSeen ∧ (modGrid s id f).crecs = s.crecs ∧ (modGrid s id f).hostSeen = s.hostSeen ∧
    (modGrid s id f).tfences = s.tfences ∧ (modGrid s id f).tlb = s.tlb ∧ (modGrid s id f).lineTimes = s.lineTimes ∧
    (modGrid s id f).dieLeases = s.dieLeases ∧ (modGrid s id f).away = s.away ∧ (modGrid s id f).contexts = s.contexts ∧
    (modGrid s id f).images = s.images ∧ (modGrid s id f).requests = s.requests ∧ (modGrid s id f).submitted = s.submitted ∧
    (modGrid s id f).tasks = s.tasks ∧ (modGrid s id f).teams = s.teams ∧ (modGrid s id f).saved = s.saved ∧
    (modGrid s id f).preemptAsked = s.preemptAsked ∧ (modGrid s id f).testAsked = s.testAsked ∧
    (modGrid s id f).faultPos = s.faultPos ∧ (modGrid s id f).blockFaults = s.blockFaults ∧
    (modGrid s id f).progress = s.progress ∧ (modGrid s id f).cores = s.cores ∧ (modGrid s id f).drains = s.drains ∧
    (modGrid s id f).copies = s.copies ∧ (modGrid s id f).domains = s.domains ∧ (modGrid s id f).cqueues = s.cqueues ∧
    (modGrid s id f).ladders = s.ladders ∧ (modGrid s id f).filters = s.filters ∧
    (modGrid s id f).checkpoints = s.checkpoints ∧ (modGrid s id f).sent = s.sent ∧ (modGrid s id f).applied = s.applied ∧
    (modGrid s id f).heldWrites = s.heldWrites ∧ (modGrid s id f).failedChips = s.failedChips ∧
    (modGrid s id f).peers = s.peers ∧ (modGrid s id f).remoteLeases = s.remoteLeases ∧ (modGrid s id f).fabric = s.fabric ∧
    (modGrid s id f).portA = s.portA ∧ (modGrid s id f).portB = s.portB ∧ (modGrid s id f).sems0 = s.sems0 ∧
    (modGrid s id f).sems1 = s.sems1 ∧ (modGrid s id f).lifeA = s.lifeA ∧ (modGrid s id f).lifeB = s.lifeB ∧
    (modGrid s id f).scrubs = s.scrubs := by unfold modGrid; exact ⟨rfl, rfl, rfl, rfl, rfl, rfl, rfl, rfl, rfl, rfl, rfl, rfl, rfl, rfl, rfl, rfl, rfl, rfl, rfl, rfl, rfl, rfl, rfl, rfl, rfl, rfl, rfl, rfl, rfl, rfl, rfl, rfl, rfl, rfl, rfl, rfl, rfl, rfl, rfl, rfl, rfl, rfl, rfl, rfl, rfl, rfl, rfl, rfl, rfl, rfl, rfl, rfl, rfl, rfl, rfl, rfl, rfl, rfl, rfl, rfl, rfl, rfl, rfl, rfl, rfl, rfl, rfl, rfl, rfl, rfl, rfl, rfl⟩

@[simp] theorem modGrid_grids (s : State) (id : Nat) (f : Grid → Grid) : (modGrid s id f).grids = s.grids.map fun g => if g.id = id then f g else g := rfl

/-- `modReq` sets `requests` alone. -/
@[simp] theorem modReq_others (s : State) (id : Nat) (f : Request → Request) :
    (modReq s id f).agenda = s.agenda ∧ (modReq s id f).plan = s.plan ∧ (modReq s id f).turn = s.turn ∧
    (modReq s id f).slotB = s.slotB ∧ (modReq s id f).draws = s.draws ∧ (modReq s id f).warp = s.warp ∧
    (modReq s id f).others = s.others ∧ (modReq s id f).start = s.start ∧ (modReq s id f).cold = s.cold ∧
    (modReq s id f).failedStarts = s.failedStarts ∧ (modReq s id f).incarnation = s.incarnation ∧
    (modReq s id f).chip = s.chip ∧ (modReq s id f).fwStore = s.fwStore ∧ (modReq s id f).fwRunning = s.fwRunning ∧
    (modReq s id f).orderly = s.orderly ∧ (modReq s id f).powerDerated = s.powerDerated ∧
    (modReq s id f).l2Private = s.l2Private ∧ (modReq s id f).nextGrid = s.nextGrid ∧ (modReq s id f).nextReq = s.nextReq ∧
    (modReq s id f).nextSeq = s.nextSeq ∧ (modReq s id f).nextId = s.nextId ∧ (modReq s id f).cycle = s.cycle ∧
    (modReq s id f).mem = s.mem ∧ (modReq s id f).poison = s.poison ∧ (modReq s id f).hist = s.hist ∧
    (modReq s id f).serial = s.serial ∧ (modReq s id f).landings = s.landings ∧ (modReq s id f).versions = s.versions ∧
    (modReq s id f).mapped = s.mapped ∧ (modReq s id f).spDirty = s.spDirty ∧ (modReq s id f).barSeen = s.barSeen ∧
    (modReq s id f).crecs = s.crecs ∧ (modReq s id f).hostSeen = s.hostSeen ∧ (modReq s id f).tfences = s.tfences ∧
    (modReq s id f).tlb = s.tlb ∧ (modReq s id f).lineTimes = s.lineTimes ∧ (modReq s id f).dieLeases = s.dieLeases ∧
    (modReq s id f).away = s.away ∧ (modReq s id f).contexts = s.contexts ∧ (modReq s id f).images = s.images ∧
    (modReq s id f).submitted = s.submitted ∧ (modReq s id f).tasks = s.tasks ∧ (modReq s id f).grids = s.grids ∧
    (modReq s id f).teams = s.teams ∧ (modReq s id f).saved = s.saved ∧ (modReq s id f).preemptAsked = s.preemptAsked ∧
    (modReq s id f).testAsked = s.testAsked ∧ (modReq s id f).faultPos = s.faultPos ∧
    (modReq s id f).blockFaults = s.blockFaults ∧ (modReq s id f).progress = s.progress ∧ (modReq s id f).cores = s.cores ∧
    (modReq s id f).drains = s.drains ∧ (modReq s id f).copies = s.copies ∧ (modReq s id f).domains = s.domains ∧
    (modReq s id f).cqueues = s.cqueues ∧ (modReq s id f).ladders = s.ladders ∧ (modReq s id f).filters = s.filters ∧
    (modReq s id f).checkpoints = s.checkpoints ∧ (modReq s id f).sent = s.sent ∧ (modReq s id f).applied = s.applied ∧
    (modReq s id f).heldWrites = s.heldWrites ∧ (modReq s id f).failedChips = s.failedChips ∧
    (modReq s id f).peers = s.peers ∧ (modReq s id f).remoteLeases = s.remoteLeases ∧ (modReq s id f).fabric = s.fabric ∧
    (modReq s id f).portA = s.portA ∧ (modReq s id f).portB = s.portB ∧ (modReq s id f).sems0 = s.sems0 ∧
    (modReq s id f).sems1 = s.sems1 ∧ (modReq s id f).lifeA = s.lifeA ∧ (modReq s id f).lifeB = s.lifeB ∧
    (modReq s id f).scrubs = s.scrubs := by unfold modReq; exact ⟨rfl, rfl, rfl, rfl, rfl, rfl, rfl, rfl, rfl, rfl, rfl, rfl, rfl, rfl, rfl, rfl, rfl, rfl, rfl, rfl, rfl, rfl, rfl, rfl, rfl, rfl, rfl, rfl, rfl, rfl, rfl, rfl, rfl, rfl, rfl, rfl, rfl, rfl, rfl, rfl, rfl, rfl, rfl, rfl, rfl, rfl, rfl, rfl, rfl, rfl, rfl, rfl, rfl, rfl, rfl, rfl, rfl, rfl, rfl, rfl, rfl, rfl, rfl, rfl, rfl, rfl, rfl, rfl, rfl, rfl, rfl, rfl⟩

@[simp] theorem modReq_requests (s : State) (id : Nat) (f : Request → Request) : (modReq s id f).requests = s.requests.map fun r => if r.id = id then f r else r := rfl

/-- `setFaultNext` sets `faultPos` alone. -/
@[simp] theorem setFaultNext_others (s : State) (q : DWord) (n : Nat) :
    (setFaultNext s q n).agenda = s.agenda ∧ (setFaultNext s q n).plan = s.plan ∧ (setFaultNext s q n).turn = s.turn ∧
    (setFaultNext s q n).slotB = s.slotB ∧ (setFaultNext s q n).draws = s.draws ∧ (setFaultNext s q n).warp = s.warp ∧
    (setFaultNext s q n).others = s.others ∧ (setFaultNext s q n).start = s.start ∧ (setFaultNext s q n).cold = s.cold ∧
    (setFaultNext s q n).failedStarts = s.failedStarts ∧ (setFaultNext s q n).incarnation = s.incarnation ∧
    (setFaultNext s q n).chip = s.chip ∧ (setFaultNext s q n).fwStore = s.fwStore ∧
    (setFaultNext s q n).fwRunning = s.fwRunning ∧ (setFaultNext s q n).orderly = s.orderly ∧
    (setFaultNext s q n).powerDerated = s.powerDerated ∧ (setFaultNext s q n).l2Private = s.l2Private ∧
    (setFaultNext s q n).nextGrid = s.nextGrid ∧ (setFaultNext s q n).nextReq = s.nextReq ∧
    (setFaultNext s q n).nextSeq = s.nextSeq ∧ (setFaultNext s q n).nextId = s.nextId ∧
    (setFaultNext s q n).cycle = s.cycle ∧ (setFaultNext s q n).mem = s.mem ∧ (setFaultNext s q n).poison = s.poison ∧
    (setFaultNext s q n).hist = s.hist ∧ (setFaultNext s q n).serial = s.serial ∧
    (setFaultNext s q n).landings = s.landings ∧ (setFaultNext s q n).versions = s.versions ∧
    (setFaultNext s q n).mapped = s.mapped ∧ (setFaultNext s q n).spDirty = s.spDirty ∧
    (setFaultNext s q n).barSeen = s.barSeen ∧ (setFaultNext s q n).crecs = s.crecs ∧
    (setFaultNext s q n).hostSeen = s.hostSeen ∧ (setFaultNext s q n).tfences = s.tfences ∧
    (setFaultNext s q n).tlb = s.tlb ∧ (setFaultNext s q n).lineTimes = s.lineTimes ∧
    (setFaultNext s q n).dieLeases = s.dieLeases ∧ (setFaultNext s q n).away = s.away ∧
    (setFaultNext s q n).contexts = s.contexts ∧ (setFaultNext s q n).images = s.images ∧
    (setFaultNext s q n).requests = s.requests ∧ (setFaultNext s q n).submitted = s.submitted ∧
    (setFaultNext s q n).tasks = s.tasks ∧ (setFaultNext s q n).grids = s.grids ∧ (setFaultNext s q n).teams = s.teams ∧
    (setFaultNext s q n).saved = s.saved ∧ (setFaultNext s q n).preemptAsked = s.preemptAsked ∧
    (setFaultNext s q n).testAsked = s.testAsked ∧ (setFaultNext s q n).blockFaults = s.blockFaults ∧
    (setFaultNext s q n).progress = s.progress ∧ (setFaultNext s q n).cores = s.cores ∧
    (setFaultNext s q n).drains = s.drains ∧ (setFaultNext s q n).copies = s.copies ∧
    (setFaultNext s q n).domains = s.domains ∧ (setFaultNext s q n).cqueues = s.cqueues ∧
    (setFaultNext s q n).ladders = s.ladders ∧ (setFaultNext s q n).filters = s.filters ∧
    (setFaultNext s q n).checkpoints = s.checkpoints ∧ (setFaultNext s q n).sent = s.sent ∧
    (setFaultNext s q n).applied = s.applied ∧ (setFaultNext s q n).heldWrites = s.heldWrites ∧
    (setFaultNext s q n).failedChips = s.failedChips ∧ (setFaultNext s q n).peers = s.peers ∧
    (setFaultNext s q n).remoteLeases = s.remoteLeases ∧ (setFaultNext s q n).fabric = s.fabric ∧
    (setFaultNext s q n).portA = s.portA ∧ (setFaultNext s q n).portB = s.portB ∧ (setFaultNext s q n).sems0 = s.sems0 ∧
    (setFaultNext s q n).sems1 = s.sems1 ∧ (setFaultNext s q n).lifeA = s.lifeA ∧ (setFaultNext s q n).lifeB = s.lifeB ∧
    (setFaultNext s q n).scrubs = s.scrubs := by unfold setFaultNext; exact ⟨rfl, rfl, rfl, rfl, rfl, rfl, rfl, rfl, rfl, rfl, rfl, rfl, rfl, rfl, rfl, rfl, rfl, rfl, rfl, rfl, rfl, rfl, rfl, rfl, rfl, rfl, rfl, rfl, rfl, rfl, rfl, rfl, rfl, rfl, rfl, rfl, rfl, rfl, rfl, rfl, rfl, rfl, rfl, rfl, rfl, rfl, rfl, rfl, rfl, rfl, rfl, rfl, rfl, rfl, rfl, rfl, rfl, rfl, rfl, rfl, rfl, rfl, rfl, rfl, rfl, rfl, rfl, rfl, rfl, rfl, rfl, rfl⟩

@[simp] theorem setFaultNext_faultPos (s : State) (q : DWord) (n : Nat) : (setFaultNext s q n).faultPos = (q, n) :: s.faultPos.filter (fun p => p.1 != q) := rfl

/-- `setQueue` sets `cqueues` alone. -/
@[simp] theorem setQueue_others (s : State) (ctx hw q : Nat) (c : CQueue) :
    (setQueue s ctx hw q c).agenda = s.agenda ∧ (setQueue s ctx hw q c).plan = s.plan ∧
    (setQueue s ctx hw q c).turn = s.turn ∧ (setQueue s ctx hw q c).slotB = s.slotB ∧
    (setQueue s ctx hw q c).draws = s.draws ∧ (setQueue s ctx hw q c).warp = s.warp ∧
    (setQueue s ctx hw q c).others = s.others ∧ (setQueue s ctx hw q c).start = s.start ∧
    (setQueue s ctx hw q c).cold = s.cold ∧ (setQueue s ctx hw q c).failedStarts = s.failedStarts ∧
    (setQueue s ctx hw q c).incarnation = s.incarnation ∧ (setQueue s ctx hw q c).chip = s.chip ∧
    (setQueue s ctx hw q c).fwStore = s.fwStore ∧ (setQueue s ctx hw q c).fwRunning = s.fwRunning ∧
    (setQueue s ctx hw q c).orderly = s.orderly ∧ (setQueue s ctx hw q c).powerDerated = s.powerDerated ∧
    (setQueue s ctx hw q c).l2Private = s.l2Private ∧ (setQueue s ctx hw q c).nextGrid = s.nextGrid ∧
    (setQueue s ctx hw q c).nextReq = s.nextReq ∧ (setQueue s ctx hw q c).nextSeq = s.nextSeq ∧
    (setQueue s ctx hw q c).nextId = s.nextId ∧ (setQueue s ctx hw q c).cycle = s.cycle ∧
    (setQueue s ctx hw q c).mem = s.mem ∧ (setQueue s ctx hw q c).poison = s.poison ∧ (setQueue s ctx hw q c).hist = s.hist ∧
    (setQueue s ctx hw q c).serial = s.serial ∧ (setQueue s ctx hw q c).landings = s.landings ∧
    (setQueue s ctx hw q c).versions = s.versions ∧ (setQueue s ctx hw q c).mapped = s.mapped ∧
    (setQueue s ctx hw q c).spDirty = s.spDirty ∧ (setQueue s ctx hw q c).barSeen = s.barSeen ∧
    (setQueue s ctx hw q c).crecs = s.crecs ∧ (setQueue s ctx hw q c).hostSeen = s.hostSeen ∧
    (setQueue s ctx hw q c).tfences = s.tfences ∧ (setQueue s ctx hw q c).tlb = s.tlb ∧
    (setQueue s ctx hw q c).lineTimes = s.lineTimes ∧ (setQueue s ctx hw q c).dieLeases = s.dieLeases ∧
    (setQueue s ctx hw q c).away = s.away ∧ (setQueue s ctx hw q c).contexts = s.contexts ∧
    (setQueue s ctx hw q c).images = s.images ∧ (setQueue s ctx hw q c).requests = s.requests ∧
    (setQueue s ctx hw q c).submitted = s.submitted ∧ (setQueue s ctx hw q c).tasks = s.tasks ∧
    (setQueue s ctx hw q c).grids = s.grids ∧ (setQueue s ctx hw q c).teams = s.teams ∧
    (setQueue s ctx hw q c).saved = s.saved ∧ (setQueue s ctx hw q c).preemptAsked = s.preemptAsked ∧
    (setQueue s ctx hw q c).testAsked = s.testAsked ∧ (setQueue s ctx hw q c).faultPos = s.faultPos ∧
    (setQueue s ctx hw q c).blockFaults = s.blockFaults ∧ (setQueue s ctx hw q c).progress = s.progress ∧
    (setQueue s ctx hw q c).cores = s.cores ∧ (setQueue s ctx hw q c).drains = s.drains ∧
    (setQueue s ctx hw q c).copies = s.copies ∧ (setQueue s ctx hw q c).domains = s.domains ∧
    (setQueue s ctx hw q c).ladders = s.ladders ∧ (setQueue s ctx hw q c).filters = s.filters ∧
    (setQueue s ctx hw q c).checkpoints = s.checkpoints ∧ (setQueue s ctx hw q c).sent = s.sent ∧
    (setQueue s ctx hw q c).applied = s.applied ∧ (setQueue s ctx hw q c).heldWrites = s.heldWrites ∧
    (setQueue s ctx hw q c).failedChips = s.failedChips ∧ (setQueue s ctx hw q c).peers = s.peers ∧
    (setQueue s ctx hw q c).remoteLeases = s.remoteLeases ∧ (setQueue s ctx hw q c).fabric = s.fabric ∧
    (setQueue s ctx hw q c).portA = s.portA ∧ (setQueue s ctx hw q c).portB = s.portB ∧
    (setQueue s ctx hw q c).sems0 = s.sems0 ∧ (setQueue s ctx hw q c).sems1 = s.sems1 ∧
    (setQueue s ctx hw q c).lifeA = s.lifeA ∧ (setQueue s ctx hw q c).lifeB = s.lifeB ∧
    (setQueue s ctx hw q c).scrubs = s.scrubs := by unfold setQueue; exact ⟨rfl, rfl, rfl, rfl, rfl, rfl, rfl, rfl, rfl, rfl, rfl, rfl, rfl, rfl, rfl, rfl, rfl, rfl, rfl, rfl, rfl, rfl, rfl, rfl, rfl, rfl, rfl, rfl, rfl, rfl, rfl, rfl, rfl, rfl, rfl, rfl, rfl, rfl, rfl, rfl, rfl, rfl, rfl, rfl, rfl, rfl, rfl, rfl, rfl, rfl, rfl, rfl, rfl, rfl, rfl, rfl, rfl, rfl, rfl, rfl, rfl, rfl, rfl, rfl, rfl, rfl, rfl, rfl, rfl, rfl, rfl, rfl⟩

@[simp] theorem setQueue_cqueues (s : State) (ctx hw q : Nat) (c : CQueue) : (setQueue s ctx hw q c).cqueues = Tab.put s.cqueues (queueKey ctx hw q) c := rfl

/-- `modFrag` sets `warp` alone. -/
@[simp] theorem modFrag_others (s : State) (f : Frag → Frag) :
    (modFrag s f).agenda = s.agenda ∧ (modFrag s f).plan = s.plan ∧ (modFrag s f).turn = s.turn ∧
    (modFrag s f).slotB = s.slotB ∧ (modFrag s f).draws = s.draws ∧ (modFrag s f).others = s.others ∧
    (modFrag s f).start = s.start ∧ (modFrag s f).cold = s.cold ∧ (modFrag s f).failedStarts = s.failedStarts ∧
    (modFrag s f).incarnation = s.incarnation ∧ (modFrag s f).chip = s.chip ∧ (modFrag s f).fwStore = s.fwStore ∧
    (modFrag s f).fwRunning = s.fwRunning ∧ (modFrag s f).orderly = s.orderly ∧ (modFrag s f).powerDerated = s.powerDerated ∧
    (modFrag s f).l2Private = s.l2Private ∧ (modFrag s f).nextGrid = s.nextGrid ∧ (modFrag s f).nextReq = s.nextReq ∧
    (modFrag s f).nextSeq = s.nextSeq ∧ (modFrag s f).nextId = s.nextId ∧ (modFrag s f).cycle = s.cycle ∧
    (modFrag s f).mem = s.mem ∧ (modFrag s f).poison = s.poison ∧ (modFrag s f).hist = s.hist ∧
    (modFrag s f).serial = s.serial ∧ (modFrag s f).landings = s.landings ∧ (modFrag s f).versions = s.versions ∧
    (modFrag s f).mapped = s.mapped ∧ (modFrag s f).spDirty = s.spDirty ∧ (modFrag s f).barSeen = s.barSeen ∧
    (modFrag s f).crecs = s.crecs ∧ (modFrag s f).hostSeen = s.hostSeen ∧ (modFrag s f).tfences = s.tfences ∧
    (modFrag s f).tlb = s.tlb ∧ (modFrag s f).lineTimes = s.lineTimes ∧ (modFrag s f).dieLeases = s.dieLeases ∧
    (modFrag s f).away = s.away ∧ (modFrag s f).contexts = s.contexts ∧ (modFrag s f).images = s.images ∧
    (modFrag s f).requests = s.requests ∧ (modFrag s f).submitted = s.submitted ∧ (modFrag s f).tasks = s.tasks ∧
    (modFrag s f).grids = s.grids ∧ (modFrag s f).teams = s.teams ∧ (modFrag s f).saved = s.saved ∧
    (modFrag s f).preemptAsked = s.preemptAsked ∧ (modFrag s f).testAsked = s.testAsked ∧
    (modFrag s f).faultPos = s.faultPos ∧ (modFrag s f).blockFaults = s.blockFaults ∧ (modFrag s f).progress = s.progress ∧
    (modFrag s f).cores = s.cores ∧ (modFrag s f).drains = s.drains ∧ (modFrag s f).copies = s.copies ∧
    (modFrag s f).domains = s.domains ∧ (modFrag s f).cqueues = s.cqueues ∧ (modFrag s f).ladders = s.ladders ∧
    (modFrag s f).filters = s.filters ∧ (modFrag s f).checkpoints = s.checkpoints ∧ (modFrag s f).sent = s.sent ∧
    (modFrag s f).applied = s.applied ∧ (modFrag s f).heldWrites = s.heldWrites ∧ (modFrag s f).failedChips = s.failedChips ∧
    (modFrag s f).peers = s.peers ∧ (modFrag s f).remoteLeases = s.remoteLeases ∧ (modFrag s f).fabric = s.fabric ∧
    (modFrag s f).portA = s.portA ∧ (modFrag s f).portB = s.portB ∧ (modFrag s f).sems0 = s.sems0 ∧
    (modFrag s f).sems1 = s.sems1 ∧ (modFrag s f).lifeA = s.lifeA ∧ (modFrag s f).lifeB = s.lifeB ∧
    (modFrag s f).scrubs = s.scrubs := by unfold modFrag; exact ⟨rfl, rfl, rfl, rfl, rfl, rfl, rfl, rfl, rfl, rfl, rfl, rfl, rfl, rfl, rfl, rfl, rfl, rfl, rfl, rfl, rfl, rfl, rfl, rfl, rfl, rfl, rfl, rfl, rfl, rfl, rfl, rfl, rfl, rfl, rfl, rfl, rfl, rfl, rfl, rfl, rfl, rfl, rfl, rfl, rfl, rfl, rfl, rfl, rfl, rfl, rfl, rfl, rfl, rfl, rfl, rfl, rfl, rfl, rfl, rfl, rfl, rfl, rfl, rfl, rfl, rfl, rfl, rfl, rfl, rfl, rfl, rfl⟩

@[simp] theorem modFrag_warp (s : State) (f : Frag → Frag) : (modFrag s f).warp = { s.warp with frag := s.warp.frag.map f } := rfl

/-- `closeFrag` sets `warp` alone. -/
@[simp] theorem closeFrag_others (s : State) :
    (closeFrag s).agenda = s.agenda ∧ (closeFrag s).plan = s.plan ∧ (closeFrag s).turn = s.turn ∧
    (closeFrag s).slotB = s.slotB ∧ (closeFrag s).draws = s.draws ∧ (closeFrag s).others = s.others ∧
    (closeFrag s).start = s.start ∧ (closeFrag s).cold = s.cold ∧ (closeFrag s).failedStarts = s.failedStarts ∧
    (closeFrag s).incarnation = s.incarnation ∧ (closeFrag s).chip = s.chip ∧ (closeFrag s).fwStore = s.fwStore ∧
    (closeFrag s).fwRunning = s.fwRunning ∧ (closeFrag s).orderly = s.orderly ∧ (closeFrag s).powerDerated = s.powerDerated ∧
    (closeFrag s).l2Private = s.l2Private ∧ (closeFrag s).nextGrid = s.nextGrid ∧ (closeFrag s).nextReq = s.nextReq ∧
    (closeFrag s).nextSeq = s.nextSeq ∧ (closeFrag s).nextId = s.nextId ∧ (closeFrag s).cycle = s.cycle ∧
    (closeFrag s).mem = s.mem ∧ (closeFrag s).poison = s.poison ∧ (closeFrag s).hist = s.hist ∧
    (closeFrag s).serial = s.serial ∧ (closeFrag s).landings = s.landings ∧ (closeFrag s).versions = s.versions ∧
    (closeFrag s).mapped = s.mapped ∧ (closeFrag s).spDirty = s.spDirty ∧ (closeFrag s).barSeen = s.barSeen ∧
    (closeFrag s).crecs = s.crecs ∧ (closeFrag s).hostSeen = s.hostSeen ∧ (closeFrag s).tfences = s.tfences ∧
    (closeFrag s).tlb = s.tlb ∧ (closeFrag s).lineTimes = s.lineTimes ∧ (closeFrag s).dieLeases = s.dieLeases ∧
    (closeFrag s).away = s.away ∧ (closeFrag s).contexts = s.contexts ∧ (closeFrag s).images = s.images ∧
    (closeFrag s).requests = s.requests ∧ (closeFrag s).submitted = s.submitted ∧ (closeFrag s).tasks = s.tasks ∧
    (closeFrag s).grids = s.grids ∧ (closeFrag s).teams = s.teams ∧ (closeFrag s).saved = s.saved ∧
    (closeFrag s).preemptAsked = s.preemptAsked ∧ (closeFrag s).testAsked = s.testAsked ∧
    (closeFrag s).faultPos = s.faultPos ∧ (closeFrag s).blockFaults = s.blockFaults ∧ (closeFrag s).progress = s.progress ∧
    (closeFrag s).cores = s.cores ∧ (closeFrag s).drains = s.drains ∧ (closeFrag s).copies = s.copies ∧
    (closeFrag s).domains = s.domains ∧ (closeFrag s).cqueues = s.cqueues ∧ (closeFrag s).ladders = s.ladders ∧
    (closeFrag s).filters = s.filters ∧ (closeFrag s).checkpoints = s.checkpoints ∧ (closeFrag s).sent = s.sent ∧
    (closeFrag s).applied = s.applied ∧ (closeFrag s).heldWrites = s.heldWrites ∧ (closeFrag s).failedChips = s.failedChips ∧
    (closeFrag s).peers = s.peers ∧ (closeFrag s).remoteLeases = s.remoteLeases ∧ (closeFrag s).fabric = s.fabric ∧
    (closeFrag s).portA = s.portA ∧ (closeFrag s).portB = s.portB ∧ (closeFrag s).sems0 = s.sems0 ∧
    (closeFrag s).sems1 = s.sems1 ∧ (closeFrag s).lifeA = s.lifeA ∧ (closeFrag s).lifeB = s.lifeB ∧
    (closeFrag s).scrubs = s.scrubs := by unfold closeFrag; exact ⟨rfl, rfl, rfl, rfl, rfl, rfl, rfl, rfl, rfl, rfl, rfl, rfl, rfl, rfl, rfl, rfl, rfl, rfl, rfl, rfl, rfl, rfl, rfl, rfl, rfl, rfl, rfl, rfl, rfl, rfl, rfl, rfl, rfl, rfl, rfl, rfl, rfl, rfl, rfl, rfl, rfl, rfl, rfl, rfl, rfl, rfl, rfl, rfl, rfl, rfl, rfl, rfl, rfl, rfl, rfl, rfl, rfl, rfl, rfl, rfl, rfl, rfl, rfl, rfl, rfl, rfl, rfl, rfl, rfl, rfl, rfl, rfl⟩

@[simp] theorem closeFrag_warp (s : State) : (closeFrag s).warp = { s.warp with frag := none } := rfl

/-- `modDomain` sets `domains` alone. -/
@[simp] theorem modDomain_others (s : State) (d : Nat) (f : Domain → Domain) :
    (modDomain s d f).agenda = s.agenda ∧ (modDomain s d f).plan = s.plan ∧ (modDomain s d f).turn = s.turn ∧
    (modDomain s d f).slotB = s.slotB ∧ (modDomain s d f).draws = s.draws ∧ (modDomain s d f).warp = s.warp ∧
    (modDomain s d f).others = s.others ∧ (modDomain s d f).start = s.start ∧ (modDomain s d f).cold = s.cold ∧
    (modDomain s d f).failedStarts = s.failedStarts ∧ (modDomain s d f).incarnation = s.incarnation ∧
    (modDomain s d f).chip = s.chip ∧ (modDomain s d f).fwStore = s.fwStore ∧ (modDomain s d f).fwRunning = s.fwRunning ∧
    (modDomain s d f).orderly = s.orderly ∧ (modDomain s d f).powerDerated = s.powerDerated ∧
    (modDomain s d f).l2Private = s.l2Private ∧ (modDomain s d f).nextGrid = s.nextGrid ∧
    (modDomain s d f).nextReq = s.nextReq ∧ (modDomain s d f).nextSeq = s.nextSeq ∧ (modDomain s d f).nextId = s.nextId ∧
    (modDomain s d f).cycle = s.cycle ∧ (modDomain s d f).mem = s.mem ∧ (modDomain s d f).poison = s.poison ∧
    (modDomain s d f).hist = s.hist ∧ (modDomain s d f).serial = s.serial ∧ (modDomain s d f).landings = s.landings ∧
    (modDomain s d f).versions = s.versions ∧ (modDomain s d f).mapped = s.mapped ∧ (modDomain s d f).spDirty = s.spDirty ∧
    (modDomain s d f).barSeen = s.barSeen ∧ (modDomain s d f).crecs = s.crecs ∧ (modDomain s d f).hostSeen = s.hostSeen ∧
    (modDomain s d f).tfences = s.tfences ∧ (modDomain s d f).tlb = s.tlb ∧ (modDomain s d f).lineTimes = s.lineTimes ∧
    (modDomain s d f).dieLeases = s.dieLeases ∧ (modDomain s d f).away = s.away ∧ (modDomain s d f).contexts = s.contexts ∧
    (modDomain s d f).images = s.images ∧ (modDomain s d f).requests = s.requests ∧
    (modDomain s d f).submitted = s.submitted ∧ (modDomain s d f).tasks = s.tasks ∧ (modDomain s d f).grids = s.grids ∧
    (modDomain s d f).teams = s.teams ∧ (modDomain s d f).saved = s.saved ∧ (modDomain s d f).preemptAsked = s.preemptAsked ∧
    (modDomain s d f).testAsked = s.testAsked ∧ (modDomain s d f).faultPos = s.faultPos ∧
    (modDomain s d f).blockFaults = s.blockFaults ∧ (modDomain s d f).progress = s.progress ∧
    (modDomain s d f).cores = s.cores ∧ (modDomain s d f).drains = s.drains ∧ (modDomain s d f).copies = s.copies ∧
    (modDomain s d f).cqueues = s.cqueues ∧ (modDomain s d f).ladders = s.ladders ∧ (modDomain s d f).filters = s.filters ∧
    (modDomain s d f).checkpoints = s.checkpoints ∧ (modDomain s d f).sent = s.sent ∧ (modDomain s d f).applied = s.applied ∧
    (modDomain s d f).heldWrites = s.heldWrites ∧ (modDomain s d f).failedChips = s.failedChips ∧
    (modDomain s d f).peers = s.peers ∧ (modDomain s d f).remoteLeases = s.remoteLeases ∧
    (modDomain s d f).fabric = s.fabric ∧ (modDomain s d f).portA = s.portA ∧ (modDomain s d f).portB = s.portB ∧
    (modDomain s d f).sems0 = s.sems0 ∧ (modDomain s d f).sems1 = s.sems1 ∧ (modDomain s d f).lifeA = s.lifeA ∧
    (modDomain s d f).lifeB = s.lifeB ∧ (modDomain s d f).scrubs = s.scrubs := by unfold modDomain; split <;> simp

/-- `modLadder` sets `ladders` alone. -/
@[simp] theorem modLadder_others (s : State) (home lnum : Nat) (f : Ladder → Ladder) :
    (modLadder s home lnum f).agenda = s.agenda ∧ (modLadder s home lnum f).plan = s.plan ∧
    (modLadder s home lnum f).turn = s.turn ∧ (modLadder s home lnum f).slotB = s.slotB ∧
    (modLadder s home lnum f).draws = s.draws ∧ (modLadder s home lnum f).warp = s.warp ∧
    (modLadder s home lnum f).others = s.others ∧ (modLadder s home lnum f).start = s.start ∧
    (modLadder s home lnum f).cold = s.cold ∧ (modLadder s home lnum f).failedStarts = s.failedStarts ∧
    (modLadder s home lnum f).incarnation = s.incarnation ∧ (modLadder s home lnum f).chip = s.chip ∧
    (modLadder s home lnum f).fwStore = s.fwStore ∧ (modLadder s home lnum f).fwRunning = s.fwRunning ∧
    (modLadder s home lnum f).orderly = s.orderly ∧ (modLadder s home lnum f).powerDerated = s.powerDerated ∧
    (modLadder s home lnum f).l2Private = s.l2Private ∧ (modLadder s home lnum f).nextGrid = s.nextGrid ∧
    (modLadder s home lnum f).nextReq = s.nextReq ∧ (modLadder s home lnum f).nextSeq = s.nextSeq ∧
    (modLadder s home lnum f).nextId = s.nextId ∧ (modLadder s home lnum f).cycle = s.cycle ∧
    (modLadder s home lnum f).mem = s.mem ∧ (modLadder s home lnum f).poison = s.poison ∧
    (modLadder s home lnum f).hist = s.hist ∧ (modLadder s home lnum f).serial = s.serial ∧
    (modLadder s home lnum f).landings = s.landings ∧ (modLadder s home lnum f).versions = s.versions ∧
    (modLadder s home lnum f).mapped = s.mapped ∧ (modLadder s home lnum f).spDirty = s.spDirty ∧
    (modLadder s home lnum f).barSeen = s.barSeen ∧ (modLadder s home lnum f).crecs = s.crecs ∧
    (modLadder s home lnum f).hostSeen = s.hostSeen ∧ (modLadder s home lnum f).tfences = s.tfences ∧
    (modLadder s home lnum f).tlb = s.tlb ∧ (modLadder s home lnum f).lineTimes = s.lineTimes ∧
    (modLadder s home lnum f).dieLeases = s.dieLeases ∧ (modLadder s home lnum f).away = s.away ∧
    (modLadder s home lnum f).contexts = s.contexts ∧ (modLadder s home lnum f).images = s.images ∧
    (modLadder s home lnum f).requests = s.requests ∧ (modLadder s home lnum f).submitted = s.submitted ∧
    (modLadder s home lnum f).tasks = s.tasks ∧ (modLadder s home lnum f).grids = s.grids ∧
    (modLadder s home lnum f).teams = s.teams ∧ (modLadder s home lnum f).saved = s.saved ∧
    (modLadder s home lnum f).preemptAsked = s.preemptAsked ∧ (modLadder s home lnum f).testAsked = s.testAsked ∧
    (modLadder s home lnum f).faultPos = s.faultPos ∧ (modLadder s home lnum f).blockFaults = s.blockFaults ∧
    (modLadder s home lnum f).progress = s.progress ∧ (modLadder s home lnum f).cores = s.cores ∧
    (modLadder s home lnum f).drains = s.drains ∧ (modLadder s home lnum f).copies = s.copies ∧
    (modLadder s home lnum f).domains = s.domains ∧ (modLadder s home lnum f).cqueues = s.cqueues ∧
    (modLadder s home lnum f).filters = s.filters ∧ (modLadder s home lnum f).checkpoints = s.checkpoints ∧
    (modLadder s home lnum f).sent = s.sent ∧ (modLadder s home lnum f).applied = s.applied ∧
    (modLadder s home lnum f).heldWrites = s.heldWrites ∧ (modLadder s home lnum f).failedChips = s.failedChips ∧
    (modLadder s home lnum f).peers = s.peers ∧ (modLadder s home lnum f).remoteLeases = s.remoteLeases ∧
    (modLadder s home lnum f).fabric = s.fabric ∧ (modLadder s home lnum f).portA = s.portA ∧
    (modLadder s home lnum f).portB = s.portB ∧ (modLadder s home lnum f).sems0 = s.sems0 ∧
    (modLadder s home lnum f).sems1 = s.sems1 ∧ (modLadder s home lnum f).lifeA = s.lifeA ∧
    (modLadder s home lnum f).lifeB = s.lifeB ∧ (modLadder s home lnum f).scrubs = s.scrubs := by unfold modLadder; split <;> simp

/-- `setItem` sets `ladders` alone. -/
@[simp] theorem setItem_others (s : State) (home lnum ix : Nat) (st : ItemState) :
    (setItem s home lnum ix st).agenda = s.agenda ∧ (setItem s home lnum ix st).plan = s.plan ∧
    (setItem s home lnum ix st).turn = s.turn ∧ (setItem s home lnum ix st).slotB = s.slotB ∧
    (setItem s home lnum ix st).draws = s.draws ∧ (setItem s home lnum ix st).warp = s.warp ∧
    (setItem s home lnum ix st).others = s.others ∧ (setItem s home lnum ix st).start = s.start ∧
    (setItem s home lnum ix st).cold = s.cold ∧ (setItem s home lnum ix st).failedStarts = s.failedStarts ∧
    (setItem s home lnum ix st).incarnation = s.incarnation ∧ (setItem s home lnum ix st).chip = s.chip ∧
    (setItem s home lnum ix st).fwStore = s.fwStore ∧ (setItem s home lnum ix st).fwRunning = s.fwRunning ∧
    (setItem s home lnum ix st).orderly = s.orderly ∧ (setItem s home lnum ix st).powerDerated = s.powerDerated ∧
    (setItem s home lnum ix st).l2Private = s.l2Private ∧ (setItem s home lnum ix st).nextGrid = s.nextGrid ∧
    (setItem s home lnum ix st).nextReq = s.nextReq ∧ (setItem s home lnum ix st).nextSeq = s.nextSeq ∧
    (setItem s home lnum ix st).nextId = s.nextId ∧ (setItem s home lnum ix st).cycle = s.cycle ∧
    (setItem s home lnum ix st).mem = s.mem ∧ (setItem s home lnum ix st).poison = s.poison ∧
    (setItem s home lnum ix st).hist = s.hist ∧ (setItem s home lnum ix st).serial = s.serial ∧
    (setItem s home lnum ix st).landings = s.landings ∧ (setItem s home lnum ix st).versions = s.versions ∧
    (setItem s home lnum ix st).mapped = s.mapped ∧ (setItem s home lnum ix st).spDirty = s.spDirty ∧
    (setItem s home lnum ix st).barSeen = s.barSeen ∧ (setItem s home lnum ix st).crecs = s.crecs ∧
    (setItem s home lnum ix st).hostSeen = s.hostSeen ∧ (setItem s home lnum ix st).tfences = s.tfences ∧
    (setItem s home lnum ix st).tlb = s.tlb ∧ (setItem s home lnum ix st).lineTimes = s.lineTimes ∧
    (setItem s home lnum ix st).dieLeases = s.dieLeases ∧ (setItem s home lnum ix st).away = s.away ∧
    (setItem s home lnum ix st).contexts = s.contexts ∧ (setItem s home lnum ix st).images = s.images ∧
    (setItem s home lnum ix st).requests = s.requests ∧ (setItem s home lnum ix st).submitted = s.submitted ∧
    (setItem s home lnum ix st).tasks = s.tasks ∧ (setItem s home lnum ix st).grids = s.grids ∧
    (setItem s home lnum ix st).teams = s.teams ∧ (setItem s home lnum ix st).saved = s.saved ∧
    (setItem s home lnum ix st).preemptAsked = s.preemptAsked ∧ (setItem s home lnum ix st).testAsked = s.testAsked ∧
    (setItem s home lnum ix st).faultPos = s.faultPos ∧ (setItem s home lnum ix st).blockFaults = s.blockFaults ∧
    (setItem s home lnum ix st).progress = s.progress ∧ (setItem s home lnum ix st).cores = s.cores ∧
    (setItem s home lnum ix st).drains = s.drains ∧ (setItem s home lnum ix st).copies = s.copies ∧
    (setItem s home lnum ix st).domains = s.domains ∧ (setItem s home lnum ix st).cqueues = s.cqueues ∧
    (setItem s home lnum ix st).filters = s.filters ∧ (setItem s home lnum ix st).checkpoints = s.checkpoints ∧
    (setItem s home lnum ix st).sent = s.sent ∧ (setItem s home lnum ix st).applied = s.applied ∧
    (setItem s home lnum ix st).heldWrites = s.heldWrites ∧ (setItem s home lnum ix st).failedChips = s.failedChips ∧
    (setItem s home lnum ix st).peers = s.peers ∧ (setItem s home lnum ix st).remoteLeases = s.remoteLeases ∧
    (setItem s home lnum ix st).fabric = s.fabric ∧ (setItem s home lnum ix st).portA = s.portA ∧
    (setItem s home lnum ix st).portB = s.portB ∧ (setItem s home lnum ix st).sems0 = s.sems0 ∧
    (setItem s home lnum ix st).sems1 = s.sems1 ∧ (setItem s home lnum ix st).lifeA = s.lifeA ∧
    (setItem s home lnum ix st).lifeB = s.lifeB ∧ (setItem s home lnum ix st).scrubs = s.scrubs := by simp only [setItem]; split <;> simp

/-- `modPort` sets `portA` and `portB` alone. -/
@[simp] theorem modPort_others (s : State) (p : HostPort) (f : Port → Port) :
    (modPort s p f).agenda = s.agenda ∧ (modPort s p f).plan = s.plan ∧ (modPort s p f).turn = s.turn ∧
    (modPort s p f).slotB = s.slotB ∧ (modPort s p f).draws = s.draws ∧ (modPort s p f).warp = s.warp ∧
    (modPort s p f).others = s.others ∧ (modPort s p f).start = s.start ∧ (modPort s p f).cold = s.cold ∧
    (modPort s p f).failedStarts = s.failedStarts ∧ (modPort s p f).incarnation = s.incarnation ∧
    (modPort s p f).chip = s.chip ∧ (modPort s p f).fwStore = s.fwStore ∧ (modPort s p f).fwRunning = s.fwRunning ∧
    (modPort s p f).orderly = s.orderly ∧ (modPort s p f).powerDerated = s.powerDerated ∧
    (modPort s p f).l2Private = s.l2Private ∧ (modPort s p f).nextGrid = s.nextGrid ∧ (modPort s p f).nextReq = s.nextReq ∧
    (modPort s p f).nextSeq = s.nextSeq ∧ (modPort s p f).nextId = s.nextId ∧ (modPort s p f).cycle = s.cycle ∧
    (modPort s p f).mem = s.mem ∧ (modPort s p f).poison = s.poison ∧ (modPort s p f).hist = s.hist ∧
    (modPort s p f).serial = s.serial ∧ (modPort s p f).landings = s.landings ∧ (modPort s p f).versions = s.versions ∧
    (modPort s p f).mapped = s.mapped ∧ (modPort s p f).spDirty = s.spDirty ∧ (modPort s p f).barSeen = s.barSeen ∧
    (modPort s p f).crecs = s.crecs ∧ (modPort s p f).hostSeen = s.hostSeen ∧ (modPort s p f).tfences = s.tfences ∧
    (modPort s p f).tlb = s.tlb ∧ (modPort s p f).lineTimes = s.lineTimes ∧ (modPort s p f).dieLeases = s.dieLeases ∧
    (modPort s p f).away = s.away ∧ (modPort s p f).contexts = s.contexts ∧ (modPort s p f).images = s.images ∧
    (modPort s p f).requests = s.requests ∧ (modPort s p f).submitted = s.submitted ∧ (modPort s p f).tasks = s.tasks ∧
    (modPort s p f).grids = s.grids ∧ (modPort s p f).teams = s.teams ∧ (modPort s p f).saved = s.saved ∧
    (modPort s p f).preemptAsked = s.preemptAsked ∧ (modPort s p f).testAsked = s.testAsked ∧
    (modPort s p f).faultPos = s.faultPos ∧ (modPort s p f).blockFaults = s.blockFaults ∧
    (modPort s p f).progress = s.progress ∧ (modPort s p f).cores = s.cores ∧ (modPort s p f).drains = s.drains ∧
    (modPort s p f).copies = s.copies ∧ (modPort s p f).domains = s.domains ∧ (modPort s p f).cqueues = s.cqueues ∧
    (modPort s p f).ladders = s.ladders ∧ (modPort s p f).filters = s.filters ∧ (modPort s p f).checkpoints = s.checkpoints ∧
    (modPort s p f).sent = s.sent ∧ (modPort s p f).applied = s.applied ∧ (modPort s p f).heldWrites = s.heldWrites ∧
    (modPort s p f).failedChips = s.failedChips ∧ (modPort s p f).peers = s.peers ∧
    (modPort s p f).remoteLeases = s.remoteLeases ∧ (modPort s p f).fabric = s.fabric ∧ (modPort s p f).sems0 = s.sems0 ∧
    (modPort s p f).sems1 = s.sems1 ∧ (modPort s p f).lifeA = s.lifeA ∧ (modPort s p f).lifeB = s.lifeB ∧
    (modPort s p f).scrubs = s.scrubs := by cases p <;> simp [modPort]

/-- `modBox` sets `portA` and `portB` alone. -/
@[simp] theorem modBox_others (s : State) (c : Cmd) (f : Mailbox → Mailbox) :
    (modBox s c f).agenda = s.agenda ∧ (modBox s c f).plan = s.plan ∧ (modBox s c f).turn = s.turn ∧
    (modBox s c f).slotB = s.slotB ∧ (modBox s c f).draws = s.draws ∧ (modBox s c f).warp = s.warp ∧
    (modBox s c f).others = s.others ∧ (modBox s c f).start = s.start ∧ (modBox s c f).cold = s.cold ∧
    (modBox s c f).failedStarts = s.failedStarts ∧ (modBox s c f).incarnation = s.incarnation ∧
    (modBox s c f).chip = s.chip ∧ (modBox s c f).fwStore = s.fwStore ∧ (modBox s c f).fwRunning = s.fwRunning ∧
    (modBox s c f).orderly = s.orderly ∧ (modBox s c f).powerDerated = s.powerDerated ∧
    (modBox s c f).l2Private = s.l2Private ∧ (modBox s c f).nextGrid = s.nextGrid ∧ (modBox s c f).nextReq = s.nextReq ∧
    (modBox s c f).nextSeq = s.nextSeq ∧ (modBox s c f).nextId = s.nextId ∧ (modBox s c f).cycle = s.cycle ∧
    (modBox s c f).mem = s.mem ∧ (modBox s c f).poison = s.poison ∧ (modBox s c f).hist = s.hist ∧
    (modBox s c f).serial = s.serial ∧ (modBox s c f).landings = s.landings ∧ (modBox s c f).versions = s.versions ∧
    (modBox s c f).mapped = s.mapped ∧ (modBox s c f).spDirty = s.spDirty ∧ (modBox s c f).barSeen = s.barSeen ∧
    (modBox s c f).crecs = s.crecs ∧ (modBox s c f).hostSeen = s.hostSeen ∧ (modBox s c f).tfences = s.tfences ∧
    (modBox s c f).tlb = s.tlb ∧ (modBox s c f).lineTimes = s.lineTimes ∧ (modBox s c f).dieLeases = s.dieLeases ∧
    (modBox s c f).away = s.away ∧ (modBox s c f).contexts = s.contexts ∧ (modBox s c f).images = s.images ∧
    (modBox s c f).requests = s.requests ∧ (modBox s c f).submitted = s.submitted ∧ (modBox s c f).tasks = s.tasks ∧
    (modBox s c f).grids = s.grids ∧ (modBox s c f).teams = s.teams ∧ (modBox s c f).saved = s.saved ∧
    (modBox s c f).preemptAsked = s.preemptAsked ∧ (modBox s c f).testAsked = s.testAsked ∧
    (modBox s c f).faultPos = s.faultPos ∧ (modBox s c f).blockFaults = s.blockFaults ∧
    (modBox s c f).progress = s.progress ∧ (modBox s c f).cores = s.cores ∧ (modBox s c f).drains = s.drains ∧
    (modBox s c f).copies = s.copies ∧ (modBox s c f).domains = s.domains ∧ (modBox s c f).cqueues = s.cqueues ∧
    (modBox s c f).ladders = s.ladders ∧ (modBox s c f).filters = s.filters ∧ (modBox s c f).checkpoints = s.checkpoints ∧
    (modBox s c f).sent = s.sent ∧ (modBox s c f).applied = s.applied ∧ (modBox s c f).heldWrites = s.heldWrites ∧
    (modBox s c f).failedChips = s.failedChips ∧ (modBox s c f).peers = s.peers ∧
    (modBox s c f).remoteLeases = s.remoteLeases ∧ (modBox s c f).fabric = s.fabric ∧ (modBox s c f).sems0 = s.sems0 ∧
    (modBox s c f).sems1 = s.sems1 ∧ (modBox s c f).lifeA = s.lifeA ∧ (modBox s c f).lifeB = s.lifeB ∧
    (modBox s c f).scrubs = s.scrubs := by unfold modBox; simp

/-- `setSems` sets `sems0` and `sems1` alone. -/
@[simp] theorem setSems_others (s : State) (iod : Bool) (l : Vector Word 16) :
    (setSems s iod l).agenda = s.agenda ∧ (setSems s iod l).plan = s.plan ∧ (setSems s iod l).turn = s.turn ∧
    (setSems s iod l).slotB = s.slotB ∧ (setSems s iod l).draws = s.draws ∧ (setSems s iod l).warp = s.warp ∧
    (setSems s iod l).others = s.others ∧ (setSems s iod l).start = s.start ∧ (setSems s iod l).cold = s.cold ∧
    (setSems s iod l).failedStarts = s.failedStarts ∧ (setSems s iod l).incarnation = s.incarnation ∧
    (setSems s iod l).chip = s.chip ∧ (setSems s iod l).fwStore = s.fwStore ∧ (setSems s iod l).fwRunning = s.fwRunning ∧
    (setSems s iod l).orderly = s.orderly ∧ (setSems s iod l).powerDerated = s.powerDerated ∧
    (setSems s iod l).l2Private = s.l2Private ∧ (setSems s iod l).nextGrid = s.nextGrid ∧
    (setSems s iod l).nextReq = s.nextReq ∧ (setSems s iod l).nextSeq = s.nextSeq ∧ (setSems s iod l).nextId = s.nextId ∧
    (setSems s iod l).cycle = s.cycle ∧ (setSems s iod l).mem = s.mem ∧ (setSems s iod l).poison = s.poison ∧
    (setSems s iod l).hist = s.hist ∧ (setSems s iod l).serial = s.serial ∧ (setSems s iod l).landings = s.landings ∧
    (setSems s iod l).versions = s.versions ∧ (setSems s iod l).mapped = s.mapped ∧ (setSems s iod l).spDirty = s.spDirty ∧
    (setSems s iod l).barSeen = s.barSeen ∧ (setSems s iod l).crecs = s.crecs ∧ (setSems s iod l).hostSeen = s.hostSeen ∧
    (setSems s iod l).tfences = s.tfences ∧ (setSems s iod l).tlb = s.tlb ∧ (setSems s iod l).lineTimes = s.lineTimes ∧
    (setSems s iod l).dieLeases = s.dieLeases ∧ (setSems s iod l).away = s.away ∧ (setSems s iod l).contexts = s.contexts ∧
    (setSems s iod l).images = s.images ∧ (setSems s iod l).requests = s.requests ∧
    (setSems s iod l).submitted = s.submitted ∧ (setSems s iod l).tasks = s.tasks ∧ (setSems s iod l).grids = s.grids ∧
    (setSems s iod l).teams = s.teams ∧ (setSems s iod l).saved = s.saved ∧ (setSems s iod l).preemptAsked = s.preemptAsked ∧
    (setSems s iod l).testAsked = s.testAsked ∧ (setSems s iod l).faultPos = s.faultPos ∧
    (setSems s iod l).blockFaults = s.blockFaults ∧ (setSems s iod l).progress = s.progress ∧
    (setSems s iod l).cores = s.cores ∧ (setSems s iod l).drains = s.drains ∧ (setSems s iod l).copies = s.copies ∧
    (setSems s iod l).domains = s.domains ∧ (setSems s iod l).cqueues = s.cqueues ∧ (setSems s iod l).ladders = s.ladders ∧
    (setSems s iod l).filters = s.filters ∧ (setSems s iod l).checkpoints = s.checkpoints ∧ (setSems s iod l).sent = s.sent ∧
    (setSems s iod l).applied = s.applied ∧ (setSems s iod l).heldWrites = s.heldWrites ∧
    (setSems s iod l).failedChips = s.failedChips ∧ (setSems s iod l).peers = s.peers ∧
    (setSems s iod l).remoteLeases = s.remoteLeases ∧ (setSems s iod l).fabric = s.fabric ∧
    (setSems s iod l).portA = s.portA ∧ (setSems s iod l).portB = s.portB ∧ (setSems s iod l).lifeA = s.lifeA ∧
    (setSems s iod l).lifeB = s.lifeB ∧ (setSems s iod l).scrubs = s.scrubs := by unfold setSems; split <;> simp

/-- A scalar write sets `s` alone (R73). -/
@[simp] theorem Warp.sset_others (w : Warp) (r : Reg) (v : DWord) :
    (w.sset r v).id = w.id ∧ (w.sset r v).grid = w.grid ∧ (w.sset r v).cluster = w.cluster ∧ (w.sset r v).team = w.team ∧
    (w.sset r v).index = w.index ∧ (w.sset r v).teamIx = w.teamIx ∧ (w.sset r v).hw = w.hw ∧ (w.sset r v).core = w.core ∧
    (w.sset r v).slot = w.slot ∧ (w.sset r v).units = w.units ∧ (w.sset r v).ctx = w.ctx ∧ (w.sset r v).req = w.req ∧
    (w.sset r v).image = w.image ∧ (w.sset r v).apc = w.apc ∧ (w.sset r v).acc = w.acc ∧ (w.sset r v).qtag = w.qtag ∧
    (w.sset r v).am = w.am ∧ (w.sset r v).lm = w.lm ∧ (w.sset r v).atvec = w.atvec ∧ (w.sset r v).atpc = w.atpc ∧
    (w.sset r v).acause = w.acause ∧ (w.sset r v).afaddr = w.afaddr ∧ (w.sset r v).ahstat = w.ahstat ∧
    (w.sset r v).aview = w.aview ∧ (w.sset r v).lmView = w.lmView ∧ (w.sset r v).fq = w.fq ∧ (w.sset r v).bq = w.bq ∧
    (w.sset r v).lstarted = w.lstarted ∧ (w.sset r v).slotA = w.slotA ∧ (w.sset r v).slotB = w.slotB ∧
    (w.sset r v).stack = w.stack ∧ (w.sset r v).rets = w.rets ∧ (w.sset r v).nextJoin = w.nextJoin ∧
    (w.sset r v).alive = w.alive ∧ (w.sset r v).dead = w.dead ∧ (w.sset r v).regs = w.regs ∧ (w.sset r v).preds = w.preds ∧
    (w.sset r v).ts0 = w.ts0 ∧ (w.sset r v).ts1 = w.ts1 ∧ (w.sset r v).pending = w.pending ∧ (w.sset r v).parked = w.parked ∧
    (w.sset r v).tvec = w.tvec ∧ (w.sset r v).spillbase = w.spillbase ∧ (w.sset r v).ltsave = w.ltsave ∧
    (w.sset r v).wdog = w.wdog ∧ (w.sset r v).faultq = w.faultq ∧ (w.sset r v).sigctl = w.sigctl ∧
    (w.sset r v).sigtab = w.sigtab ∧ (w.sset r v).sigcnt = w.sigcnt ∧ (w.sset r v).rgbase = w.rgbase ∧
    (w.sset r v).rginj = w.rginj ∧ (w.sset r v).pd = w.pd ∧ (w.sset r v).pdSince = w.pdSince ∧ (w.sset r v).watch = w.watch ∧
    (w.sset r v).retired = w.retired ∧ (w.sset r v).frag = w.frag ∧ (w.sset r v).epoch = w.epoch ∧
    (w.sset r v).cancelled = w.cancelled ∧ (w.sset r v).items = w.items ∧ (w.sset r v).ladder = w.ladder ∧
    (w.sset r v).rg = w.rg ∧ (w.sset r v).first = w.first ∧ (w.sset r v).ended = w.ended ∧ (w.sset r v).endPc = w.endPc := by
  unfold Warp.sset; split <;> simp

/-- Filling a slot sets that slot alone. -/
@[simp] theorem Warp.setSlot_others (w : Warp) (b : Bool) (o : Option Split) :
    (w.setSlot b o).id = w.id ∧ (w.setSlot b o).grid = w.grid ∧ (w.setSlot b o).cluster = w.cluster ∧
    (w.setSlot b o).team = w.team ∧ (w.setSlot b o).index = w.index ∧ (w.setSlot b o).teamIx = w.teamIx ∧
    (w.setSlot b o).hw = w.hw ∧ (w.setSlot b o).core = w.core ∧ (w.setSlot b o).slot = w.slot ∧
    (w.setSlot b o).units = w.units ∧ (w.setSlot b o).ctx = w.ctx ∧ (w.setSlot b o).req = w.req ∧
    (w.setSlot b o).image = w.image ∧ (w.setSlot b o).s = w.s ∧ (w.setSlot b o).apc = w.apc ∧ (w.setSlot b o).acc = w.acc ∧
    (w.setSlot b o).qtag = w.qtag ∧ (w.setSlot b o).am = w.am ∧ (w.setSlot b o).lm = w.lm ∧ (w.setSlot b o).atvec = w.atvec ∧
    (w.setSlot b o).atpc = w.atpc ∧ (w.setSlot b o).acause = w.acause ∧ (w.setSlot b o).afaddr = w.afaddr ∧
    (w.setSlot b o).ahstat = w.ahstat ∧ (w.setSlot b o).aview = w.aview ∧ (w.setSlot b o).lmView = w.lmView ∧
    (w.setSlot b o).fq = w.fq ∧ (w.setSlot b o).bq = w.bq ∧ (w.setSlot b o).lstarted = w.lstarted ∧
    (w.setSlot b o).stack = w.stack ∧ (w.setSlot b o).rets = w.rets ∧ (w.setSlot b o).nextJoin = w.nextJoin ∧
    (w.setSlot b o).alive = w.alive ∧ (w.setSlot b o).dead = w.dead ∧ (w.setSlot b o).regs = w.regs ∧
    (w.setSlot b o).preds = w.preds ∧ (w.setSlot b o).ts0 = w.ts0 ∧ (w.setSlot b o).ts1 = w.ts1 ∧
    (w.setSlot b o).pending = w.pending ∧ (w.setSlot b o).parked = w.parked ∧ (w.setSlot b o).tvec = w.tvec ∧
    (w.setSlot b o).spillbase = w.spillbase ∧ (w.setSlot b o).ltsave = w.ltsave ∧ (w.setSlot b o).wdog = w.wdog ∧
    (w.setSlot b o).faultq = w.faultq ∧ (w.setSlot b o).sigctl = w.sigctl ∧ (w.setSlot b o).sigtab = w.sigtab ∧
    (w.setSlot b o).sigcnt = w.sigcnt ∧ (w.setSlot b o).rgbase = w.rgbase ∧ (w.setSlot b o).rginj = w.rginj ∧
    (w.setSlot b o).pd = w.pd ∧ (w.setSlot b o).pdSince = w.pdSince ∧ (w.setSlot b o).watch = w.watch ∧
    (w.setSlot b o).retired = w.retired ∧ (w.setSlot b o).frag = w.frag ∧ (w.setSlot b o).epoch = w.epoch ∧
    (w.setSlot b o).cancelled = w.cancelled ∧ (w.setSlot b o).items = w.items ∧ (w.setSlot b o).ladder = w.ladder ∧
    (w.setSlot b o).rg = w.rg ∧ (w.setSlot b o).first = w.first ∧ (w.setSlot b o).ended = w.ended ∧
    (w.setSlot b o).endPc = w.endPc := by
  unfold Warp.setSlot; split <;> simp

@[simp] theorem Warp.setSlot_a (w : Warp) (o : Option Split) :
    (w.setSlot false o).slotA = o ∧ (w.setSlot false o).slotB = w.slotB := by simp [Warp.setSlot]

@[simp] theorem Warp.setSlot_b (w : Warp) (o : Option Split) :
    (w.setSlot true o).slotB = o ∧ (w.setSlot true o).slotA = w.slotA := by simp [Warp.setSlot]

end Sys2Proof.Machine
end

