-- ==== Sys2Proof/Tests/Slice0.lean ====
section
/-! SUPPORT. Tests: words written out from the spec's encodings, ill-formed words refused, and for every statement a
state and operands that meet its hypotheses. Expected values are computed by hand from the rules. -/

open Sys2Proof Sys2Proof.Machine

namespace Sys2Proof.Tests

set_option Elab.async false

/-! ## States -/

/-- A ready package with one warp whose access stream is about to run; memory is mapped as it stands. -/
def acc : State := State.reset.withFetchWord 32 0

/-- The same with the access stream's warp changed. -/
def accW (f : Warp → Warp) : State := { acc with warp := f acc.warp }

/-- A ready package with one warp whose lane stream is about to issue from slot A; register n holds the n-th value. -/
def ln (l : List (LaneVal × FmtTag)) : State :=
  let s := State.reset.withFetchWord 96 0
  { s with warp := { s.warp with regs := l.zipIdx.map fun p => (p.2, ⟨p.1.1, p.1.2, [], 0#32, false⟩) } }

/-- The same with registers of value 0 and these tags. -/
def lt (l : List FmtTag) : State := ln (l.map fun t => (.u 0#32, t))

/-- A state with its warp changed. -/
def onW (s : State) (f : Warp → Warp) : State := { s with warp := f s.warp }

/-- The split in slot A of those states. -/
def sp0 : Split := {
  id := 0, pc := 0x100000#64, mask := 0xFFFFFFFF#32, sig := 0#32, join := none, ts := none, wait := .none, only := none
  entered := 0, issued := 0, view := PathView.start 2 0 }

/-- Bytes placed in memory. -/
def put (s : State) (k : Nat) (bs : List Byte) : State := { s with mem := memPutList s.mem k bs }

/-- A sequence of one mapped block, with two staging slots and no stop token (R306, R307). -/
def kv (s : State) : State :=
  let d := toBytesLE 8 0x310000 ++ toBytesLE 4 1 ++ toBytesLE 4 128 ++ toBytesLE 4 0 ++ [2#8, 0#8] ++ toBytesLE 2 0 ++ toBytesLE 8 0x320000
  let s := put (put s 0x300000 d) 0x310000 (toBytesLE 16 (0x400000 + 2 ^ 96))
  { s with contexts := s.contexts.map fun c => (c.1, { c.2 with seqbase := 0x300000#64, nseq := 1 }) }

/-- A strip with no field but the guard p7 set. -/
def z : Strip := { noFields with pm := 7#3 }

/-- A source field that names a register. -/
def v (n : BitVec 8) : SrcField := ⟨n, 0#3, 0#5⟩

/-- The form of a lane word. -/
def formOf (i : Instr) : LaneForm := match laneForm i with | some (f, _) => f | none => Form.bare 0#10

/-- What LaneReady asks, for a warp outside fragments and redundant groups. -/
def readyB (i : Instr) (w : Strip) (s : State) : Bool :=
  decide (s.split? = some sp0) && decide (laneForm i = some (formOf i, w)) && formLegal (formOf i) w
    && (Form.readRegs (formOf i) w ++ Form.dstRegs (formOf i) w).all (inAlloc s.warp.units)
    && !(namedQueues (formOf i) w).any (fun q => (s.warp.fq.getD q []).isEmpty)
    && !backFull s.warp (formOf i) w (takingPart s.warp sp0 (formOf i) w)
    && (decide (takingPart s.warp sp0 (formOf i) w = 0#32) || decide (w.fmt.toNat < 11) && tagsOk s.draws s.warp (formOf i) w)
    && decide (s.warp.frag = none) && decide (s.warp.rg = none)

theorem ready_of {i : Instr} {w : Strip} {s : State} (h : readyB i w s = true) : LaneReady i (formOf i) w sp0 s := by
  simp only [readyB, Bool.and_eq_true, Bool.or_eq_true, decide_eq_true_eq, Bool.not_eq_true'] at h
  obtain ⟨⟨⟨⟨⟨⟨⟨⟨h1, h2⟩, h3⟩, h4⟩, h5⟩, h6⟩, h7⟩, h8⟩, h9⟩ := h
  exact ⟨h1, h2, h3, h4, h5, h6, h7, fun fr hf => by simp [h8] at hf, h9⟩

/-- What LaneRuns asks beside. -/
def runsB (i : Instr) (w : Strip) (s : State) : Bool :=
  readyB i w s && decide (genericDeaths (cxOf s (formOf i) w sp0) = 0#32) && !readsPending s.warp (formOf i) w
    && decide ((cxOf s (formOf i) w sp0).p ≠ 0#32)

theorem runs_of {i : Instr} {w : Strip} {s : State} (h : runsB i w s = true) : LaneRuns i (formOf i) w sp0 s := by
  simp only [runsB, Bool.and_eq_true, decide_eq_true_eq, Bool.not_eq_true'] at h
  exact ⟨ready_of h.1.1.1, h.1.1.2, h.1.2, h.2⟩

/-- The bytes of a lane word. -/
def bytesOf (i : Instr) : List Byte := toBytesLE 12 ((encodeLane i).getD 0#96).toNat

/-- What LaneReady asks of a split other than the whole warp. -/
def readyAt (i : Instr) (w : Strip) (sp : Split) (s : State) : Prop :=
  s.split? = some sp ∧ laneForm i = some (formOf i, w) ∧ formLegal (formOf i) w = true ∧
    (Form.readRegs (formOf i) w ++ Form.dstRegs (formOf i) w).all (inAlloc s.warp.units) = true ∧
    (namedQueues (formOf i) w).any (fun q => (s.warp.fq.getD q []).isEmpty) = false ∧
    backFull s.warp (formOf i) w (takingPart s.warp sp (formOf i) w) = false ∧
    (takingPart s.warp sp (formOf i) w = 0#32 ∨ w.fmt.toNat < 11 ∧ tagsOk s.draws s.warp (formOf i) w = true) ∧
    s.warp.frag = none ∧ s.warp.rg = none

theorem ready_at {i : Instr} {w : Strip} {sp : Split} {s : State} (h : readyAt i w sp s) : LaneReady i (formOf i) w sp s :=
  ⟨h.1, h.2.1, h.2.2.1, h.2.2.2.1, h.2.2.2.2.1, h.2.2.2.2.2.1, h.2.2.2.2.2.2.1,
    fun fr hf => by simp [h.2.2.2.2.2.2.2.1] at hf, h.2.2.2.2.2.2.2.2⟩

/-- The team of the issuing warp, with 256 bytes of scratchpad at the start of its core's. -/
def team0 : Team := {
  id := 0, grid := 0, cluster := 0, teamIx := 0, hw := 0, core := 0, warps := 1, base := 0, total := 256
  spmap := Vector.replicate 8 0#64, activeFmt := 0#4, shadowFmt := 0#4, loader := none, slots := [], nf := false, fd := false
  cf := false, trailing := false, partner := none, held := [], fwd := [] }

/-- That team resident. -/
def teamed (s : State) : State := { s with teams := [team0] }

/-- v0 zero, v1 four times the lane's number, v2 and v3 the address 0x4000, v4 and v5 the same with a hole at 4 GiB in the
odd lanes, v6 one, v7 two, v8 to v15 zero, tag RAW. -/
def mregs : State := teamed (ln [(.u 0#32, 2#4), (.a 0#32 4#32, 2#4), (.u 0x4000#32, 0xA#4), (.u 0#32, 0xA#4), (.g (List.replicate 32 0x4000#32), 0xA#4),
  (.g (laneIds.map fun k => BitVec.ofNat 32 (k % 2)), 0xA#4), (.u 1#32, 2#4), (.u 2#32, 2#4), (.u 0#32, 2#4), (.u 0#32, 9#4),
  (.u 0#32, 9#4), (.u 0#32, 9#4)])

/-- Whether every lane of an access is placed. -/
def allPlaced (l : List (LaneAcc × Except AccErr Nat)) : Bool := l.all fun p => match p.2 with | .ok _ => true | .error _ => false

/-- A constant section from 0x4000 to 0x5000. -/
def constant (s : State) : State := { s with images := [(0, { ctx := 0, kernels := [], regions := [], sigcnt := 0, sigtab := 0#64, queues := []
                                                              ladders := [], tramps := [], constLo := 0x4000#64, constHi := 0x5000#64
                                                              spill := 0#64, ltsave := 0#64, rgbase := 0#64, priv := false })] }

/-- A sequence of one mapped block for the lanes of mregs: v0 names it and v1 positions in it. -/
def kvm : State := kv mregs

/-- The team of mregs changed. -/
def onTeam (f : Team → Team) : State := { mregs with teams := [f team0] }

/-- A row of the issuing warp, 128 words of 0 but for one. -/
def row0 : AccRow := ⟨some 1, 3#16, ⟨5#128, .fin⟩ :: ⟨0#128, .nan⟩ :: List.replicate 126 ⟨0#128, .fin⟩⟩

/-- The issuing warp's core with row 0 and the planes owned by its team. -/
def matrixed (s : State) : State := { s with cores := [(0, { Core.init with rows := [(0, row0)], planeOwner := some 0 })] }

/-- What EngineReady asks. -/
def engineB (i : Instr) (w : Strip) (s : State) (T : Team) : Bool :=
  readyB i w s && decide ((cxOf s (formOf i) w sp0).p ≠ 0#32) && decide (lowDeaths (cxOf s (formOf i) w sp0) = 0#32)
    && decide (teamById s s.warp.team = some T)

theorem engine_of {i : Instr} {w : Strip} {s : State} {T : Team} (h : engineB i w s T = true) : EngineReady i (formOf i) w sp0 s T := by
  simp only [engineB, Bool.and_eq_true, decide_eq_true_eq] at h
  exact ⟨ready_of h.1.1.1, h.1.1.2, h.1.2, h.2⟩

/-- Two kernels, three queues with wells of 4 entries, and ladder 0 with a rung on each of queues 1 and 2. -/
def laddered : Image := { ctx := 0, kernels := [⟨0x2000#64, 1, 1, 1, 24, 64, []⟩, ⟨0x3000#64, 1, 1, 1, 24, 64, []⟩], regions := []
                          sigcnt := 0, sigtab := 0#64, queues := [⟨0, 4, 0x50000#64⟩, ⟨1, 4, 0xA0000#64⟩, ⟨2, 4, 0xF0000#64⟩]
                          ladders := [⟨0, 4, 8, [⟨0x2000#64, false, 1, 10⟩, ⟨0x3000#64, false, 2, 10⟩]⟩], tramps := []
                          constLo := 0#64, constHi := 0#64, spill := 0#64, ltsave := 0#64, rgbase := 0#64, priv := false }

def queued (n : Nat) (l : List CqEntry) : State := { mregs with images := [(0, laddered)], cqueues := [(n, ⟨l, [], 0#32, 0#32⟩)] }

/-- A queue entry. -/
def cq (label : Word) : CqEntry := ⟨List.replicate 8 label, label, 0, []⟩

/-- A grid of the issuing warp. -/
def grid0 : Grid := {
  id := 0, ctx := 0, req := 0, task := 0, image := 0, kernel := 0
  lr := { kaddr := 0x2000#64, nclust := 1, argsz := 0, args := 0#64, even := false, tvec := 0#64, faultq := 0#64, grec := 0#64 }
  work := none, started := 1, code := 0#8, status := 0#8, lines := [], live := 1, sealed := [], ran := [], ladders := [], rung := none
  members := [1], rungLines := [], since := 0, faults := 0, wear := 0, ended := false }

/-- The request of the issuing warp, with domain 2 and these epochs. -/
def request (es : List EpochRec) : Request := ⟨0, 0, 0#64, some 2, [], es, 0#64, false, [], 1, false, 0⟩

/-- Domain 2 with room for two entries and 4096 bytes, and these entries. -/
def dom (es : List CatEntry) : Domain := ⟨true, 1, List.replicate 32 0#8, 4096, 0, 2, es⟩

/-! ## Witnesses: the access stream -/

/-- AccessArith: every row of the two tables, with s0 as destination and as source. -/
theorem witness_access_arithmetic : ∀ i ∈ [Instr.addi 0#5 1#5 0xFFFF#16, .andi 1#5 0#5 1#16, .ori 1#5 2#5 1#16, .xori 1#5 2#5 1#16,
    .slti 1#5 2#5 0x8000#16, .lui 1#5 0x8000#16, .shli 1#5 2#5 63#6, .shri 1#5 2#5 63#6, .srai 1#5 2#5 63#6, .add 1#5 2#5 3#5,
    .sub 1#5 2#5 3#5, .mul 1#5 2#5 3#5, .mulh 1#5 2#5 3#5, .and 1#5 2#5 3#5, .or 1#5 2#5 3#5, .xor 1#5 2#5 3#5, .shl 1#5 2#5 3#5,
    .shr 1#5 2#5 3#5, .sra 1#5 2#5 3#5, .slt 1#5 2#5 3#5, .sltn 1#5 2#5 3#5, .min 1#5 2#5 3#5, .max 1#5 2#5 3#5,
    .minn 1#5 2#5 3#5, .maxn 31#5 31#5 31#5], (accessResult acc.warp.sget i).isSome = true ∧ accessRuns acc.warp = true := by
  decide +kernel

/-- AccessTransfer: a jump back, a branch not taken, a jump through sA with a link in it. -/
theorem witness_access_transfer : accessRuns acc.warp = true ∧ branches acc.warp.sget 0#5 1#5 0xFFFF#16 (.bne 0#5 1#5 0xFFFF#16) false := by
  refine ⟨by decide +kernel, .inr (.inl ⟨rfl, by decide +kernel⟩)⟩

/-- ScalarLoads and ScalarStores: the last aligned place of a page, and one reached by a negative offset. -/
theorem witness_scalar_places : ∀ n ∈ [4, 8], accessRuns acc.warp = true ∧ acc.warp.rg = none ∧ acc.warp.epoch = none ∧
    (acc.warp.sget 0#5 + (0x7FF8#16).signExtend 64).toNat % n = 0 ∧
    (placeAccess acc (aviewOf acc.warp) acc.warp .read (acc.warp.sget 0#5 + (0x7FF8#16).signExtend 64) n).1 = .ok 0x7FF8 ∧
    (placeAccess acc (aviewOf acc.warp) acc.warp .write (acc.warp.sget 0#5 + (0x7FF8#16).signExtend 64) n).1 = .ok 0x7FF8 ∧
    anyPoisoned acc (keysFrom 0x7FF8 n) = false ∧ (∀ r ∈ acc.hist, r.path = .g ∨ r.fenced.isSome = true) := by decide +kernel

/-- ScalarAlignment: four bytes past a multiple of 8. -/
theorem witness_scalar_alignment : accessRuns acc.warp = true ∧ (acc.warp.sget 0#5 + (4#16).signExtend 64).toNat % 8 ≠ 0 := by decide +kernel

/-- A back-queue entry. -/
def entry : BEntry := ⟨List.replicate 32 7#32, 0xFFFFFFFF#32, 2#4, 0#32⟩

/-- ScalarQueues: an empty and a full forward queue. -/
theorem witness_qpush : (acc.warp.fq[7]'(by decide)).length < 16 ∧
    16 ≤ ((accW fun w => { w with fq := Vector.replicate 8 (List.replicate 16 ⟨false, [0#32], 0#4, 0#32⟩) }).warp.fq[7]'(by decide)).length := by
  decide +kernel

/-- ScalarQueues: a back queue of one entry, peeked and popped, and an empty one. -/
theorem witness_qpop : (accW fun w => { w with bq := Vector.replicate 2 [entry] }).warp.bq[1]? = some (entry :: []) ∧
    entry.poison = 0#32 ∧ (30#5).getLsbD 0 = false ∧ acc.warp.bq[0]? = some [] := by decide +kernel

/-- VectorLoadQueue: every lane's word mapped, with a negative stride. -/
theorem witness_ldq : let s := accW fun w => w.sset 1#5 0x4000#64
    let l := accPlaces 4 (laneIds.map fun i => (i, s.warp.sget 1#5 + BitVec.ofNat 64 i * (0x3FFFC#18).signExtend 64)) s
    l.1.all (fun p => match p.2.2 with | .ok _ => true | .error _ => false) = true ∧ (s.warp.fq[7]'(by decide)).length < 16 := by
  decide +kernel

/-- AccessTranslation: a mapped position for XLATS; the 32 last positions of a block for XLATQ. -/
theorem witness_xlats : (kvAddr (kv acc) (aviewOf acc.warp) acc.warp 0 0 2047).1 = .addr 0x43FF80#64 0x310000#64 (0, some 0) false := by decide +kernel

theorem witness_xlatq : let s := accW fun w => w.sset 3#5 2016#64
    let s := kv s
    let l := kvLanes (aviewOf s.warp) s.warp (laneIds.map fun i => (i, (s.warp.sget 2#5).toNat,
      (s.warp.sget (2#5 + 1#5) + BitVec.ofNat 64 i * (1#18).signExtend 64).toNat)) [] s
    (2#5).getLsbD 0 = false ∧ (s.warp.fq[0]'(by decide)).length + 2 ≤ 16 ∧
      l.1.all (fun p => match p.2 with | .addr _ _ _ false => true | _ => false) = true := by
  decide +kernel

/-- LaneStart: a first LSTART, aligned and not, and a second one. -/
theorem witness_lstart : accessRuns acc.warp = true ∧ acc.warp.lstarted = false ∧ acc.warp.alive ≠ 0#32 ∧ (acc.warp.sget 0#5).toNat % 4 = 0 ∧
    ((accW fun w => w.sset 1#5 2#64).warp.sget 1#5).toNat % 4 ≠ 0 ∧
    accessRuns (accW fun w => { w with lstarted := true }).warp = true := by decide +kernel

/-- AccessControl: an LWAIT that waits for the next mark and is reached, a timed YIELDS that has expired, a stall. -/
theorem witness_access_control : let w := (accW fun w => { w with acc := .lwait 0xFFFFFFFF#32, lm := 0#32 }).warp
    w.acc = .lwait 0xFFFFFFFF#32 ∧ (w.lm - 0xFFFFFFFF#32).toNat < 2 ^ 31 ∧
    accessRuns (accW fun w => { w with lstarted := true }).warp = true ∧ acc.warp.lstarted = false ∧ acc.warp.rg = none ∧
    (accW fun w => { w with acc := .yieldUntil 0 }).warp.acc = .yieldUntil 0 ∧ 0 ≤ acc.cycle ∧
    (accW fun w => { w with acc := .queue }).warp.acc = .queue := by decide +kernel

/-- AccessTraps: with and without a handler's address, and inside a handler. -/
theorem witness_access_traps : let h := (accW fun w => { w with atvec := 4#64 }).warp
    accessRuns h = true ∧ h.rg = none ∧ h.ahstat = false ∧ h.atvec ≠ 0#64 ∧ acc.warp.atvec = 0#64 ∧ acc.warp.ended = none ∧
    (accW fun w => { w with ahstat := true }).warp.ahstat = true := by decide +kernel

/-- AccessCsr: a register read and one out of reach; one written, read-only ones, values not admitted. -/
theorem witness_access_csr : 0xC08 ∈ accessReadable ∧ 0x802 ∉ accessReadable ∧ 0xC09 ∉ accessReadable ∧ 0xC01 ∉ accessWritable ∧
    0x800 ∉ accessWritable ∧ ((accW fun w => w.sset 1#5 1#64).warp.sget 1#5).toNat % 256 ≠ 0 ∧
    ((accW fun w => w.sset 1#5 41#64).warp.sget 1#5).toNat > 40 ∧ acc.warp.sget 0#5 = 0#64 ∧ accessRuns acc.warp = true := by
  decide +kernel

/-- A warp of a team with 8192 bytes of scratchpad, its SPMAP1 in force for the second 4096, about to write this value. -/
def mapper (v : DWord) : State := { accW (fun w => w.sset 1#5 v) with
  teams := [{ team0 with total := 8192, spmap := team0.spmap.set 1 (BitVec.ofNat 64 (2 ^ 63 + 12 * 2 ^ 57 + 2 ^ 5 + 0x20000)) }] }

/-- The value that maps the page at 0x10000 to 4096 bytes at this granule. -/
def mapping (n : Nat) : DWord := BitVec.ofNat 64 (2 ^ 63 + 12 * 2 ^ 57 + 0x10000 + n * 2 ^ 5)

/-- AccessMapping and RegisterEvents: a mapping whose checks pass, one that overlaps, one past the range, one of no size. -/
theorem witness_access_mapping : let s := mapper (mapping 0)
    accessRuns s.warp = true ∧ s.warp.rg = none ∧ (teamById s s.warp.team).isSome = true ∧
    (((teamById s s.warp.team).map fun t => (t.spmap.getD 0 0#64).getLsbD 63)) = some false ∧
    s.warp.sget 1#5 = mapping 0 ∧ (mapping 0).getLsbD 63 = true ∧ (mapping 0).toNat / 2 ^ 57 % 64 = 12 ∧ (mapping 0).getLsbD 56 = false ∧
    (mapping 0).toNat % 16 = 0 ∧ (mapping 0).toNat / 2 ^ 12 % 2 ^ 45 * 4096 = 0x10000 ∧ (mapping 0).toNat / 2 ^ 5 % 2 ^ 7 = 0 ∧
    (spPlace s.warp (aviewOf s.warp) 0x10000#64 1 s).1 = .ok [16] ∧
    (spPlace s.warp (PathView.start (2 * s.warp.id) s.serial) 0x10000#64 1 s).1 = .ok [16] ∧
    (match (spPlace s.warp (PathView.start (2 * s.warp.id) s.serial) 0x100000000#64 1 s).1 with | .error e => decide (e = (.page, 0x100000000#64)) | .ok _ => false) = true ∧
    spOverlap (mapping 1) (s.teams.map fun t => t.spmap.getD 1 0#64).head! = true ∧
    spOverlap (mapping 0) (s.teams.map fun t => t.spmap.getD 1 0#64).head! = false ∧
    (8192 : Nat) < (mapping 2).toNat / 2 ^ 5 % 2 ^ 7 * 4096 + 4096 ∧ ((1#64 <<< 63).toNat / 2 ^ 57 % 64 < 12) ∧
    (accW fun w => { w with rg := some (newCopy false 2) }).warp.rg.isSome = true := by decide +kernel
/-! ## Witnesses: the compute words -/

/-- Registers v0 to v7 tagged F32, I32, BF16X2, E4M3X4, BX4, N32 and an ADDR64 pair. -/
def regs8 : State := lt [3#4, 1#4, 4#4, 6#4, 8#4, 2#4, 0xA#4, 0xA#4]

/-- Words that name the registers by their tags. -/
def words : List Strip := [
  { z with d := 24#8, a := v 5#8, b := v 5#8, c := v 5#8, fmt := 2#4 }, { z with d := 24#8, a := v 5#8, b := v 5#8, fmt := 2#4 },
  { z with d := 24#8, a := v 5#8, fmt := 2#4 }, { z with d := 24#8, fmt := 3#4 }, { z with d := 24#8, b := v 1#8, fmt := 3#4 },
  { z with d := 24#8, a := v 2#8, b := v 2#8, fmt := 4#4 }, { z with d := 24#8, a := v 2#8, b := v 2#8, c := v 2#8, fmt := 4#4 },
  { z with d := 24#8, a := v 3#8, b := v 3#8, fmt := 3#4 }, { z with d := 24#8, fmt := 4#4 }, { z with d := 24#8, a := v 2#8, fmt := 3#4 },
  { z with a := v 5#8, b := v 5#8, fmt := 2#4 }, z]

/-- ComputeResults and Conversions: every row has a word that runs in every lane. -/
theorem witness_rows : (integerRows ++ floatRows ++ conversionRows).all (fun row => words.any fun w => runsB (row.1 w) w regs8) = true ∧
    predicateRows.all (fun row => words.any fun w => runsB (row.1 w) w regs8) = true ∧ readyB (.nop z) z regs8 = true := by decide +kernel

/-- IssueChecks, no lane taking part: every row has such a word, its sources RAW. -/
theorem witness_empty_mask : (integerRows ++ floatRows ++ conversionRows).all (fun row => words.any fun w =>
    let w := { w with pm := 0#3 }
    readyB (row.1 w) w (lt []) && decide ((cxOf (lt []) (formOf (row.1 w)) w sp0).p = 0#32)) = true := by decide +kernel

/-- IssueChecks: an unused field that is not 0; a register outside a small allocation; an empty queue; a tag not accepted. -/
theorem witness_lane_checks : let w : Strip := { z with d := 24#8, a := v 5#8, b := v 5#8, fmt := 2#4 }
    let f := formOf (.iadd w)
    let small := onW regs8 fun x => { x with units := 1 }
    formLegal (formOf (.iadd { w with c := v 1#8 })) { w with c := v 1#8 } = false ∧ formLegal f w = true ∧
    (Form.readRegs f w ++ Form.dstRegs f w).all (inAlloc small.warp.units) = false ∧
    (Form.readRegs f w ++ Form.dstRegs f w).all (inAlloc regs8.warp.units) = true ∧
    (∃ q ∈ namedQueues f { w with a := v 255#8 }, regs8.warp.fq.getD q [] = []) ∧ backFull regs8.warp f w 1#32 = false ∧
    takingPart regs8.warp sp0 f w ≠ 0#32 ∧ tagsOk 0 regs8.warp f { w with a := v 0#8 } = false ∧ regs8.warp.rg = none ∧
    regs8.split? = some sp0 := by
  decide +kernel

/-- Rounding: a tie between codes of E4M3, of either sign. -/
theorem witness_rounding : FloatFmt.e4m3 ∈ [FloatFmt.f32, .bf16, .f16, .e4m3, .e5m2] ∧ 3 < 4 := by decide

/-- PairResults. -/
theorem witness_pairs : let w : Strip := { z with d := 24#8, fmt := 3#4 }
    runsB (.twosum w) w regs8 = true ∧ runsB (.fastsum w) w regs8 = true ∧
    runsB (.fclass { w with fmt := 2#4 }) { w with fmt := 2#4 } regs8 = true := by decide +kernel

/-- Moves: each word, with index 0 and with an index past the allocation. -/
theorem witness_moves : let w : Strip := { z with d := 24#8 }
    let wx : Strip := { z with d := 24#8, a := v 8#8, b := v 1#8, fmt := 2#4 }
    let wd : Strip := { z with d := 24#8, a := v 5#8, b := v 1#8, fmt := 2#4 }
    let s := lt [3#4, 1#4, 4#4, 6#4, 8#4, 2#4, 0xA#4, 0xA#4, 2#4]
    let far := ln [(.u 0#32, 3#4), (.u 0xFFFFFFFF#32, 1#4), (.u 0#32, 3#4), (.u 0#32, 3#4), (.u 0#32, 3#4), (.u 0#32, 2#4)]
    readyB (.mov w) w s = true ∧ readsPending s.warp (formOf (.mov w)) w = false ∧ (cxOf s (formOf (.mov w)) w sp0).p ≠ 0#32 ∧
    readyB (.isel { w with fmt := 3#4 }) { w with fmt := 3#4 } s = true ∧
    runsB (.movi { w with ib := true, fmt := 2#4 }) { w with ib := true, fmt := 2#4 } s = true ∧
    runsB (.laneid { w with fmt := 2#4 }) { w with fmt := 2#4 } s = true ∧ runsB (.tagr w) w s = true ∧ runsB (.shape w) w s = true ∧
    runsB (.tag { w with fmt := 8#4 }) { w with fmt := 8#4 } s = true ∧
    readyB (.movx wx) wx s = true ∧ s.warp.pending = [] ∧ s.warp.frag = none ∧
    (cxOf s (formOf (.movx wx)) wx sp0).p &&& (cxOf s (formOf (.movx wx)) wx sp0).b.poison = 0#32 ∧
    inAlloc s.warp.units (wx.a.code.toNat + ((cxOf s (formOf (.movx wx)) wx sp0).b.word 31).toNat) = true ∧
    (∀ k, k < 32 → (s.warp.reg (wx.a.code.toNat + ((cxOf s (formOf (.movx wx)) wx sp0).b.word k).toNat)).tag = wx.fmt) ∧
    readyB (.movxd wd) wd s = true ∧ readyB (.movxd wd) wd far = true ∧ readyB (.movx wd) wd far = true ∧
    inAlloc far.warp.units (24 + ((cxOf far (formOf (.movxd wd)) wd sp0).b.word 31).toNat) = false := by
  decide +kernel

/-- BlockResults. -/
theorem witness_blocks : let s := lt [3#4, 3#4, 3#4, 3#4, 3#4, 3#4, 3#4, 3#4, 8#4]
    runsB (.qbx4 { z with d := 24#8, fmt := 8#4 }) { z with d := 24#8, fmt := 8#4 } s = true ∧
    runsB (.dqbx4 { z with d := 24#8, a := v 8#8, fmt := 3#4 }) { z with d := 24#8, a := v 8#8, fmt := 3#4 } s = true := by decide +kernel

/-- Votes: every mode and both uses of D. -/
theorem witness_votes : let w (n : BitVec 15) : Strip := { z with d := 24#8, x := n }
    [0x00#15, 0x40#15, 0x80#15, 0xC0#15].all (fun m => runsB (.vote (w m)) (w m) regs8) = true ∧
    runsB (.elect (w 8#15)) (w 8#15) regs8 = true ∧ runsB (.elect { z with x := 1#15 }) { z with x := 1#15 } regs8 = true ∧
    runsB (.alive (w 1#15)) (w 1#15) regs8 = true ∧ runsB (.matchLanes (w 2#15)) (w 2#15) regs8 = true ∧
    [0x020#15, 0x400#15, 0xA08#15].all (fun m => runsB (.cmpr { w m with fmt := 3#4 }) { w m with fmt := 3#4 } regs8) = true := by decide +kernel

/-- Crossings: a partner whose register is tagged BX4. -/
theorem witness_shfl_format : let sh : Strip := { z with d := 24#8, a := v 4#8, b := v 1#8, x := 0x10#15 }
    readyB (.shfl sh) sh regs8 = true ∧ (cxOf regs8 (formOf (.shfl sh)) sh sp0).p ≠ 0#32 ∧ sh.x.getLsbD 4 = true ∧
    (shflPartner regs8 sh).map (fun x => (x.reg sh.a.code.toNat).tag) = some 8#4 := by decide +kernel

/-- Crossings: reductions of every operation; SHFL with and without a partner. -/
theorem witness_crossings : let w (n : BitVec 15) (a : BitVec 8) (t : FmtTag) : Strip := { z with d := 24#8, a := v a, fmt := t, x := n }
    let sh : Strip := { z with d := 24#8, a := v 0#8, b := v 1#8 }
    let none' : Strip := { sh with x := 0x1F#15 }
    let same : Strip := { sh with x := 0x10#15 }
    (∀ r ∈ [0, 1, 2, 3, 4, 5, 6, 7], let x := w (BitVec.ofNat 15 (8 * r)) 5#8 2#4
      runsB (.redx x) x regs8 = true ∧ runsB (.scan x) x regs8 = true) ∧
    (∀ r ∈ [8, 9, 10], let x := w (BitVec.ofNat 15 (8 * r + 256)) 0#8 3#4
      runsB (.redx x) x regs8 = true ∧ runsB (.scan x) x regs8 = true) ∧
    readyB (.shfl sh) sh regs8 = true ∧ readsPending regs8.warp (formOf (.shfl sh)) sh = false ∧
    (cxOf regs8 (formOf (.shfl sh)) sh sp0).p ≠ 0#32 ∧ shflDeaths (cxOf regs8 (formOf (.shfl sh)) sh sp0) = 0#32 ∧
    readyB (.shfl none') none' regs8 = true ∧ shflPartner regs8 none' = none ∧ none'.x.getLsbD 4 = true ∧
    readyB (.shfl same) same regs8 = true ∧ (shflPartner regs8 same).map (·.pending) = some [] := by decide +kernel
/-! ## Witnesses: control -/

/-- ENTRY words of one unit at two addresses, which v6 and v7 hold in sixteen lanes each. -/
def targets : State :=
  let e := bytesOf (.entry { z with x := 1#15 })
  let s := ln (List.replicate 6 (.u 0#32, 0#4) ++
    [(.g (List.replicate 16 0x10000#32 ++ List.replicate 16 0x10020#32), 0xA#4), (.u 0#32, 0xA#4)])
  put (put s 0x10000 e) 0x10020 e

/-- One predicate set in the lower half. -/
def halves (s : State) : State := onW s fun w => { w with preds := w.preds.set 0 0x0000FFFF#32 }

/-- Branch: all lanes, no lane, half of them with a free slot, and with a full stack. -/
theorem witness_branch : let w : Strip := { z with d := 0xFF#8 }
    let neg : Strip := { w with x := 8#15 }
    let s := halves (ln [])
    let full := onW s fun x => { x with stack := List.replicate 64 (.link ⟨0#64, 0#32, 0⟩) }
    readyB (.bra w) w (ln []) = true ∧ readyB (.bra neg) neg (ln []) = true ∧ readyB (.bra w) w s = true ∧ readyB (.bra w) w full = true ∧
    full.warp.stack.length ≤ 64 ∧ s.warp.slot? (!s.slotB) = none ∧
    (LaneMask.ofPred fun k => sp0.mask.has k && (s.warp.predLane (Form.xf w 2 0) k != w.x.getLsbD 3)) = 0xFFFF#32 := by decide +kernel

/-- Indirect: two groups of targets with ENTRY words; a target without one; a misaligned target. -/
theorem witness_indirect : let w : Strip := { z with a := v 6#8 }
    let addr (s : State) (k : Nat) : DWord := (operand s.draws s.warp w.a 1).word k ++ (operand s.draws s.warp w.a 0).word k
    let odd := ln (List.replicate 6 (.u 0#32, 0#4) ++ [(.u 0x10002#32, 0xA#4), (.u 0#32, 0xA#4)])
    let bare := ln (List.replicate 6 (.u 0#32, 0#4) ++ [(.u 0x20000#32, 0xA#4), (.u 0#32, 0xA#4)])
    readyB (.brx w) w targets = true ∧ readyB (.callx w) w targets = true ∧ genericDeaths (cxOf targets (formOf (.brx w)) w sp0) = 0#32 ∧
    readsPending targets.warp (formOf (.brx w)) w = false ∧ (brxAfter w (cxOf targets (formOf (.brx w)) w sp0)).stack.length ≤ 64 ∧
    (callxAfter (cxOf targets (formOf (.callx w)) w sp0)).stack.length ≤ 64 ∧
    (targetErrors targets.warp (addr targets) (LaneMask.lanes sp0.mask) targets).1 = [] ∧
    addr targets 0 ≠ addr targets 31 ∧ addr targets 0 = addr targets 15 ∧
    (laneIds.all fun k => match (fetchLane targets targets.warp (addr targets k)).1 with
      | .ok (.entry e) => decide (Form.xf e 4 0 ≤ targets.warp.units) | _ => false) = true ∧
    readyB (.callx w) w bare = true ∧ (addr bare 0).toNat % 4 = 0 ∧
    (match (fetchLane bare bare.warp (addr bare 0)).1 with | .ok (.nop _) => true | _ => false) = true ∧
    readyB (.brx w) w odd = true ∧ (addr odd 31).toNat % 4 ≠ 0 := by decide +kernel

/-- Eight links of every lane, the youngest first. -/
def links8 : List Link := (List.range 8).map fun k => ⟨0x40#64, 0xFFFFFFFF#32, 8 - k⟩

/-- CallReturn: a call onto an empty and onto a full return stack, and where the stack is full as well; links of two groups;
a spilled link used; no link. -/
theorem witness_call_return : let full := onW (ln []) fun x => { x with rets := links8 }
    let both := onW full fun x => { x with stack := List.replicate 64 (.link ⟨0#64, 0#32, 0⟩) }
    let two := onW (ln []) fun x => { x with rets := [⟨0x40#64, 0x0000FFFF#32, 2⟩, ⟨0x80#64, 0xFFFF0000#32, 1⟩, ⟨0xC0#64, 1#32, 0⟩] }
    let f := formOf (.ret z)
    readyB (.call z) z (ln []) = true ∧ readyB (.call z) z full = true ∧ full.warp.stack.length + 1 ≤ 64 ∧
    8 ≤ full.warp.rets.length ∧ readyB (.call z) z both = true ∧ 64 < both.warp.stack.length + 1 ∧
    (full.warp.links.map (·.age)).Nodup ∧ (two.warp.links.map (·.age)).Nodup ∧
    readyB (.ret z) z two = true ∧ (retAfter (cxOf two f z sp0)).stack.length ≤ 64 ∧ sp0.mask ≠ 0#32 ∧
    (laneIds.all fun k => two.warp.linkOf k == some (if k < 16 then 0x40#64 else 0x80#64)) = true ∧
    (two.warp.links.filter (·.mask.has 0))[1]? = some ⟨0xC0#64, 1#32, 0⟩ ∧
    readyB (.ret z) z (ln []) = true ∧ (retAfter (cxOf (ln []) f z sp0)).stack.length ≤ 64 ∧ (ln []).warp.linkOf 31 = none := by
  decide +kernel

/-- CallReturn: a return that divides the split where the stack is full. -/
theorem witness_ret_divstack : let s := onW (ln []) fun x => { x with
      rets := [⟨0x40#64, 0x0000FFFF#32, 2⟩, ⟨0x80#64, 0xFFFF0000#32, 1⟩], slotB := some { sp0 with mask := 0#32 }
      stack := List.replicate 64 (.ready { sp0 with mask := 0#32 }) }
    readyB (.ret z) z s = true ∧ 64 < (retAfter (cxOf s (formOf (.ret z)) z sp0)).stack.length := by decide +kernel

/-- CallReturn: a call returns to the word after it, on a step. -/
theorem test_call_links : (match exec (.call z) (ln []) with
    | .next t => t.warp.rets.map (fun l => (l.addr, l.mask)) | _ => []) = [(0x10000C#64, 0xFFFFFFFF#32)] := by decide +kernel

/-- CallReturn: RET takes lanes 0 to 15 to their link and leaves the older entry of lane 0 (R176). -/
theorem test_ret_clears : (match exec (.ret z) (onW (ln []) fun x => { x with
      rets := [⟨0x40#64, 0xFFFFFFFF#32, 2⟩, ⟨0xC0#64, 1#32, 0⟩] }) with
    | .next t => (t.split?.map (·.pc), t.warp.linkOf 0, t.warp.linkOf 1) | _ => (none, none, none)) = (some 0x40#64, some 0xC0#64, none) := by
  decide +kernel

/-- A split at its join address; the other lanes wait there, or run on the stack. -/
def joining (waits : Bool) : State := onW (ln []) fun w =>
  let sp : Split := { sp0 with mask := 0x0000FFFF#32, join := some 0 }
  let other : Split := { sp0 with mask := 0xFFFF0000#32, join := some 0, pc := 0x40#64 }
  { w with slotA := some sp, stack := [.join ⟨0, 0x100000#64, 0xFFFFFFFF#32, none⟩, if waits then .waiting other else .ready other] }

/-- Reconvergence: the last group to come with a full stack needs an entry (R25, R27). -/
theorem witness_join_divstack : let sp : Split := { sp0 with mask := 0x0000FFFF#32, join := some 0 }
    let s := onW (joining true) fun w => { w with stack := w.stack ++ List.replicate 62 (.link ⟨0#64, 0#32, 0⟩) }
    readyAt (.reconv z) z sp s ∧ 64 < s.warp.stack.length + 1 ∧ unionMask (s.warp.waitingAt 0) ||| sp.mask = 0xFFFFFFFF#32 := by
  simp only [readyAt]; decide +kernel

/-- Reconvergence: the last group to come, the first one, and a RECONV elsewhere. -/
theorem witness_reconvergence : let sp : Split := { sp0 with mask := 0x0000FFFF#32, join := some 0 }
    readyAt (.reconv z) z sp (joining true) ∧ (joining true).warp.joinRec 0 = some ⟨0, 0x100000#64, 0xFFFFFFFF#32, none⟩ ∧
    sp.pc = 0x100000#64 ∧ unionMask ((joining true).warp.waitingAt 0) ||| sp.mask = 0xFFFFFFFF#32 ∧
    readyAt (.reconv z) z sp (joining false) ∧ unionMask ((joining false).warp.waitingAt 0) ||| sp.mask = 0x0000FFFF#32 ∧
    (joining false).warp.stack.length < 64 ∧ readyB (.reconv z) z (ln []) = true ∧ sp0.join = none := by
  simp only [readyAt]; decide +kernel

/-- SplitWords: each word where it acts and where it does not. -/
theorem witness_split_words : let e (n : BitVec 15) : Strip := { z with x := n }
    let s := ln []
    let stacked := onW s fun w => { w with stack := [.ready { sp0 with mask := 0#32 }] }
    let marked := onW s fun w => { w with am := 1#32 }
    readyB (.entry (e 31#15)) (e 31#15) s = true ∧ s.warp.units = 31 ∧ readyB (.entry (e 31#15)) (e 31#15) (onW s fun w => { w with units := 30 }) = true ∧
    readyB (.tramp 7#3 z) z s = true ∧ readyB (.yield z) z s = true ∧ s.warp.oldestReady = none ∧ readyB (.yield z) z stacked = true ∧
    stacked.warp.oldestReady = some { sp0 with mask := 0#32 } ∧
    readyB (.exit z) z s = true ∧ s.warp.pending = [] ∧ s.warp.stack = [] ∧ s.warp.slot? (!s.slotB) = none ∧ s.warp.ts0.inUse = false ∧
    s.warp.ts1.inUse = false ∧ s.warp.lstarted = true ∧ s.warp.ended = none ∧ sp0.mask &&& ~~~takingPart s.warp sp0 (formOf (.exit z)) z = 0#32 ∧
    readyB (.exit { z with pm := 0#3 }) { z with pm := 0#3 } (halves s) = true ∧
    sp0.mask &&& ~~~takingPart (halves s).warp sp0 (formOf (.exit z)) { z with pm := 0#3 } = 0xFFFF0000#32 ∧
    readyB (.lmark z) z marked = true ∧ (marked.warp.am - (marked.warp.lm + 1#32)).toNat < 2 ^ 31 ∧
    readyB (.lmark z) z s = true ∧ s.warp.acc = .halted ∧ readyB (.lmark z) z (onW s fun w => { w with acc := .ready }) = true ∧
    2 ^ 31 ≤ (s.warp.am - (s.warp.lm + 1#32)).toNat := by decide +kernel

/-- SplitWords: a split parked on an LMARK that AM has reached. -/
theorem witness_lmark_retire : let s0 := State.reset.withFetchWord 96 ((encodeLane (.lmark z)).getD 0#96).toNat
    let s := onW s0 fun w => { w with slotA := some { sp0 with wait := .lmark }, am := 1#32 }
    let r := { s with warp := { s.warp with slotA := some sp0 } }
    s.slotB = false ∧ s.warp.slotB = none ∧ (s.warp.am - (s.warp.lm + 1#32)).toNat < 2 ^ 31 ∧
    (fetchLane r r.warp sp0.pc).1 = .ok (.lmark z) ∧ readyB (.lmark z) z (fetchLane r r.warp sp0.pc).2 = true := by decide +kernel
/-! ## Witnesses: memory words of lanes -/

/-- The hypotheses of LaneLoads. -/
def loadsB (row : (Strip → Instr) × (Cx → List LaneAcc) × Bool) (w : Strip) (s : State) : Bool :=
  let cx := cxOf s (formOf (row.1 w)) w sp0
  let n := 2 ^ Form.xf w 2 0
  runsB (row.1 w) w s && decide (s.warp.frag = none) && (preCheck s s.warp n false row.2.2 (row.2.1 cx)).isNone
    && allPlaced (placeLanes cx.view s.warp .read n (row.2.1 cx) s).1

/-- The same for every size, with one address for all lanes and, up to 4 bytes, with one each. -/
def loadsSizes (row : (Strip → Instr) × (Cx → List LaneAcc) × Bool) (sizes : List Nat) : Bool :=
  sizes.all fun n => [0#8, 1#8].all fun b =>
    let w : Strip := { z with
      d := 24#8, a := v (if (formOf (row.1 z)).a.span = 2 then 2#8 else 0#8), b := v (if n ≤ 2 then b else 0#8), fmt := 2#4
      x := BitVec.ofNat 15 n }
    loadsB row w (constant mregs)

/-- LaneLoads: each word, of every size. -/
theorem witness_lane_loads : (loadRows.all fun row => loadsSizes row [0, 1, 2, 3, 4]) = true := by decide +kernel

/-- LaneLoads: a signed halfword to a back queue. -/
theorem witness_lane_load_back : (let w : Strip := { z with d := 248#8, a := v 2#8, b := v 1#8, fmt := 2#4, x := 9#15 }
     loadsB (.ld, fun cx => cx.pagedAccs true, false) w mregs) = true := by decide +kernel

/-- LaneStores: each word, the lanes apart and all at one address. -/
theorem witness_lane_stores : (storeRows.all fun row => [0#8, 1#8].all fun b =>
    let base := if row.1 z = .st z then 2#8 else 0#8
    let w : Strip := { z with a := v base, b := v b, c := v 6#8, x := 2#15 }
    let cx := cxOf mregs (formOf (row.1 w)) w sp0
    readyB (row.1 w) w mregs && decide (cx.p ≠ 0#32) && decide (mregs.warp.epoch = none) &&
      decide (storeDeaths 4 (decide (row.1 w = .st w)) row.2 cx = 0#32) && (preCheck mregs mregs.warp 4 true false (row.2 cx)).isNone &&
      allPlaced (placeLanes cx.view mregs.warp .write 4 (row.2 cx) mregs).1) = true ∧ mregs.hist = [] := by decide +kernel

/-- LaneFaults: a misaligned lane, a lane past TOTAL, and a lane of LD.C outside .const. -/
theorem witness_lane_access_traps : let w : Strip := { z with d := 24#8, a := v 2#8, b := v 1#8, fmt := 2#4, x := 3#15 }
    let p : Strip := { z with a := v 1#8, b := v 1#8, c := v 6#8, x := 2#15 }
    let far := onW mregs fun x => { x with regs := Tab.put x.regs 1 ⟨.a 0#32 16#32, 2#4, [], 0#32, false⟩ }
    let c : Strip := { w with x := 2#15 }
    readyB (.ld w) w mregs = true ∧ genericDeaths (cxOf mregs (formOf (.ld w)) w sp0) = 0#32 ∧
    (∃ x ∈ (cxOf mregs (formOf (.ld w)) w sp0).pagedAccs true, x.ea.toNat % 8 ≠ 0) ∧
    readyB (.stP p) p far = true ∧
    storeDeaths 4 false (fun cx => cx.scratchAccs false 4) (cxOf far (formOf (.stP p)) p sp0) = 0#32 ∧
    (∀ x ∈ (cxOf far (formOf (.stP p)) p sp0).scratchAccs false 4, x.ea.toNat % 4 = 0) ∧
    (∃ x ∈ (cxOf far (formOf (.stP p)) p sp0).scratchAccs false 4, outOfBounds far far.warp x 4 = true) ∧
    readyB (.ldC c) c mregs = true ∧ (∀ x ∈ (cxOf mregs (formOf (.ldC c)) c sp0).pagedAccs true, x.ea.toNat % 4 = 0) ∧
    (∃ x ∈ (cxOf mregs (formOf (.ldC c)) c sp0).pagedAccs true, inConst mregs mregs.warp x.ea 4 = false) := by decide +kernel

/-- LaneFaults: a hole under the odd lanes. -/
theorem witness_lane_replay : let w : Strip := { z with d := 24#8, a := v 4#8, b := v 1#8, fmt := 2#4, x := 2#15 }
    let cx := cxOf mregs (formOf (.ld w)) w sp0
    let l := (placeLanes cx.view mregs.warp .read 4 (cx.pagedAccs true) mregs).1
    runsB (.ld w) w mregs = true ∧ mregs.warp.pending = [] ∧ (preCheck mregs mregs.warp 4 false false (cx.pagedAccs true)).isNone = true ∧
    (l.all fun p => match p.2 with | .ok _ => decide (p.1.lane % 2 = 0) | .error e => e == .page && decide (p.1.lane % 2 = 1)) = true ∧
    l.length = 32 ∧ cx.a.shape ≠ 0 := by decide +kernel

/-- AtomicWords: lanes at one address and at their own; CAS of a word and of a pair. -/
theorem witness_atomics : ([0#8, 1#8].all fun b =>
    let w : Strip := { z with d := 24#8, a := v 2#8, b := v b, c := v 6#8, fmt := 2#4, x := 2#15 }
    let r : Strip := { w with d := 0#8 }
    let f (i : Instr) (w : Strip) : Bool :=
      let cx := cxOf mregs (formOf i) w sp0
      let l := (placeRmw cx.view mregs.warp 4 (cx.pagedAccs true) mregs).1
      runsB i w mregs && (preCheck mregs mregs.warp 4 true false (cx.pagedAccs true)).isNone && allPlaced l &&
        l.all fun p => match p.2 with | .ok k => decide (k % 4 = 0) && decide (k < spBase) && (k + 3 |> fun j => j / 4096 == 4) | .error _ => false
    f (.atom w) w && f (.red r) r) = true ∧ mregs.warp.epoch = none ∧ mregs.hist = [] ∧ mregs.mapped = [] := by decide +kernel

theorem witness_cas : ([2, 3].all fun (n : Nat) =>
    let w : Strip := { z with d := 24#8, a := v 2#8, b := v (if n = 2 then 6#8 else 10#8), c := v (if n = 2 then 7#8 else 10#8)
                              fmt := if n = 2 then 2#4 else 9#4, x := BitVec.ofNat 15 n }
    let cx := cxOf mregs (formOf (.cas w)) w sp0
    let l := (placeRmw cx.view mregs.warp (2 ^ n) (cx.pagedAccs false) mregs).1
    runsB (.cas w) w mregs && (preCheck mregs mregs.warp (2 ^ n) true false (cx.pagedAccs false)).isNone && allPlaced l &&
      l.all fun p => match p.2 with | .ok k => k == (match l.head? with | some (_, .ok m) => m | _ => 0) && decide (k % 2 ^ n = 0) | .error _ => false) = true := by
  decide +kernel

/-- Fences: the three words; a write of the split's own, and a landing it has observed. -/
theorem witness_fences : let x : Strip := { z with x := 8#15 }
    let g : Strip := { z with x := 1#15 }
    let o : WriteRec := ⟨1, .g, 0x4000, 0#8, 2, 0, none, false, 1, false⟩
    let c : WriteRec := ⟨2, .c, 0x4001, 0#8, 0, 5, none, false, 2, false⟩
    let sp := { sp0 with view := { sp0.view with observed := [5] } }
    let s := onW { mregs with hist := [o, c], serial := 2, landings := [⟨5, .c, [], true⟩] } fun x => { x with slotA := some sp }
    let p : Strip := { z with a := v 2#8, b := v 1#8 }
    readyB (.fence z) z mregs = true ∧ readyB (.fenceX x) x mregs = true ∧ readyAt (.fenceX x) x sp s ∧ readyAt (.fenceX g) g sp s ∧
    pathOf (Form.xf x 2 0) = .g ∧ pathOf (Form.xf x 5 3) = .c ∧ pathOf (Form.xf g 2 0) = .c ∧ pathOf (Form.xf g 5 3) = .g ∧
    o.writer = sp.view.own ∧ sp.view.observed.contains c.land = true ∧ runsB (.prefetch p) p mregs = true := by
  simp only [readyAt]; decide +kernel

/-- Translation: XLAT of mapped positions, and XLAT.RP of flagged lanes. -/
theorem witness_lane_translation : let w : Strip := { z with d := 24#8, a := v 0#8, b := v 1#8, fmt := 0xA#4, x := 1#15 }
    let n : Strip := { w with x := 0#15 }
    let s := onW kvm fun x => { x with preds := x.preds.set 0 0xFFFF0000#32 }
    let cx := cxOf s (formOf (.xlat w)) w sp0
    let l := (xlatLanes cx cx.view (LaneMask.lanes cx.p) s).1
    let flagged := (LaneMask.lanes cx.p).filter fun k => s.warp.predLane (Form.xf w 3 1) k
    let keys (s : State) := (s.blockFaults.filter (·.grid == s.warp.grid)).map (·.key)
    let re (s : State) (c : Cx) : List (Nat × KvRes) := (xlatLanes c (answeredView s c.view (keys s)) flagged s).1
    let served : State := { s with blockFaults := [⟨s.warp.grid, (0, some 0), 0x50000, 0⟩], mem := memPutList s.mem 0x50000 [1#8] }
    let open_ : State := { s with blockFaults := [⟨s.warp.grid, (0, some 0), 0x50000, 0⟩] }
    runsB (.xlat w) w s = true ∧ runsB (.xlat n) n s = true ∧
    (l.all fun p => match p.2 with | .addr _ _ _ _ => true | _ => false) = true ∧ flagged.length = 16 ∧
    ([s, served].all fun s => runsB (.xlatRp w) w s && ((re s (cxOf s (formOf (.xlatRp w)) w sp0)).all fun p =>
      let answers := (faultsOf s s.warp p.2).map (·.status s)
      (match p.2 with | .addr _ _ _ _ => true | _ => false) && !answers.contains 0 && decide (answers.head? ≠ some 2))) = true ∧
    runsB (.xlatRp w) w open_ = true ∧
    ((re open_ (cxOf open_ (formOf (.xlatRp w)) w sp0)).any fun p => (faultsOf open_ open_.warp p.2).any (·.status open_ == 0)) = true := by
  decide +kernel

/-- Barriers: an object of the team updated, one whose phase ends with the update, one tested. -/
theorem witness_barrier_updates : let w : Strip := { z with a := v 0#8, b := v 6#8, c := v 0#8 }
    let r : Strip := { z with a := v 0#8, d := 24#8 }
    let e : Strip := { z with a := v 0#8, b := v 0#8, x := 0x18#15 }
    let s := put mregs spBase [3#8, 0#8, 0#8, 0#8, 1#8, 0#8, 1#8]
    let ok (i : Instr) (w : Strip) : Bool :=
      let cx := cxOf s (formOf i) w sp0
      readyB i w s && decide (cx.p ≠ 0#32) && decide (lowDeaths cx = 0#32) && (match cx.object with | .ok k => k == spBase | _ => false)
    (ok (.barInit w) w && ok (.barArrive r) r && ok (.barExpect e) e) = true ∧ objAt s spBase = ⟨0#32, 0#32, 1, 1, 3#32⟩ ∧ s.hist = [] := by
  decide +kernel

/-- Barriers: a wait whose token is the phase and one whose token is not; a test; a phase that ended while waiting. -/
theorem witness_barrier_waits : let w : Strip := { z with a := v 0#8, b := v 6#8 }
    let s (phase : Byte) := put mregs spBase [phase, 0#8, 0#8, 0#8, 1#8, 0#8, 1#8]
    let ok (s : State) (i : Instr) : Bool :=
      let cx := cxOf s (formOf i) w sp0
      readyB i w s && decide (cx.p ≠ 0#32) && decide (lowDeaths cx = 0#32) && (match cx.object with | .ok k => k == spBase | _ => false)
    let b := bytesOf (.barWait w)
    let at_ := put (s 2#8) 0x100000 b
    let waiting := onW at_ fun x => { x with slotA := some { sp0 with wait := .barWait spBase 1#32 } }
    let r := { waiting with warp := { waiting.warp with slotA := some { sp0 with wait := .none } } }
    (ok (s 1#8) (.barWait w) && ok (s 2#8) (.barWait w) && ok (s 1#8) (.barTest w) && ok (s 2#8) (.barTest w)) = true ∧
    (objAt (s 1#8) spBase).phase = (cxOf (s 1#8) (formOf (.barWait w)) w sp0).b.word 0 ∧
    (objAt (s 2#8) spBase).phase ≠ (cxOf (s 2#8) (formOf (.barWait w)) w sp0).b.word 0 ∧
    waiting.slotB = false ∧ waiting.warp.slotB = none ∧ (objAt waiting spBase).phase ≠ 1#32 ∧
    (fetchLane r r.warp sp0.pc).1 = .ok (.barWait w) ∧ readyB (.barWait w) w (fetchLane r r.warp sp0.pc).2 = true := by
  decide +kernel

/-- Barriers: offsets that are no multiple of 16, that leave the range, and that a warp without a team names. -/
theorem witness_barrier_traps : let w (n : BitVec 8) : Strip := { z with a := v n, b := v 6#8 }
    let s := onW mregs fun x => { x with regs := Tab.put x.regs 8 ⟨.u 256#32, 2#4, [], 0#32, false⟩ }
    ([6#8, 8#8].all fun n => readyB (.barWait (w n)) (w n) s) = true ∧
    ((cxOf s (formOf (.barWait (w 6#8))) (w 6#8) sp0).a.word 0).toInt % 16 ≠ 0 ∧
    ((cxOf s (formOf (.barWait (w 8#8))) (w 8#8) sp0).a.word 0).toInt = 256 ∧ teamById s s.warp.team = some team0 ∧ team0.total < 256 + 16 := by
  decide +kernel
/-! ## Witnesses: the matrix path -/

/-- MatrixPlanes: a tile at 0 of stride 0 under an owned and under free planes, a running load, and a swap. -/
theorem witness_matrix_planes : let w : Strip := { z with a := v 0#8, b := v 0#8, fmt := 4#4 }
    let s := matrixed mregs
    let op : LoadOp := ⟨4#4, 0, 0, PathView.start 2 0⟩
    let d := onTeam fun x => { x with loader := some op }
    let cx := cxOf s (formOf (.mxLoadw w)) w sp0
    engineB (.mxLoadw w) w s team0 = true ∧ engineB (.mxLoadw w) w mregs team0 = true ∧ team0.loader = none ∧ team0.slots = [] ∧
    (cx.a.word 0).toInt = 0 ∧ (cx.b.word 0).toInt = 0 ∧ colBytes 4#4 ≤ team0.total ∧
    (coreOf s s.warp.coreIx).planeOwner = some s.warp.team ∧ (coreOf mregs 0).planeOwner = none ∧
    teamById d 0 = some { team0 with loader := some op } ∧ op.view.epoch = none ∧ d.hist = [] ∧ engineB (.mxSwap z) z s team0 = true := by
  decide +kernel

/-- MatrixRows: rows taken, released and read, a stream into an owned row, and one that is done. -/
theorem witness_matrix_rows : let s := matrixed mregs
    let c : Strip := { z with b := v 6#8, x := 0x3FFF#15 &&& (127#15 <<< 7) }
    let r : Strip := { z with ib := true, x := 0x4000#15 ||| (127#15 <<< 7) }
    let w : Strip := { z with a := v 0#8, b := v 0#8, fmt := 4#4 }
    let op : StreamOp := ⟨.running, 4#4, 0, 0, 0, 1, 1, PathView.start 2 0, none⟩
    let on := onTeam fun x => { x with activeFmt := 4#4 }
    let d := matrixed (onTeam fun x => { x with activeFmt := 4#4, slots := [op] })
    let m : Strip := { z with d := 24#8, x := 0x200#15 }
    let a : Strip := { z with d := 24#8, x := 1#15 }
    engineB (.mxClear c) c s team0 = true ∧ rowsOf c = List.range 128 ∧ ((rowsOf c).all fun r => !rowForeign s s.warp r) = true ∧
    engineB (.mxClearRel r) r s team0 = true ∧ (coreOf s 0).row 0 = row0 ∧ row0.owner = some s.warp.id ∧
    engineB (.mxStream w) w (matrixed on) { team0 with activeFmt := 4#4 } = true ∧ pairs 4#4 4#4 = true ∧ rowsOf w = [0] ∧
    teamById d 0 = some { team0 with activeFmt := 4#4, slots := [op] } ∧ op.view.epoch = none ∧ d.hist = [] ∧ d.poison = [] ∧
    ((coreOf d 0).row 0).words.length = 128 ∧ (coreOf d 0).active.bad = [] ∧
    engineB (.mxStat m) m s team0 = true ∧ Form.xf m 1 0 = 0 ∧ engineB (.mxStat a) a s team0 = true ∧ Form.xf a 1 0 = 1 := by
  decide +kernel

/-- MatrixDrains: to registers in three formats, to memory, and a byte run that lands. -/
theorem witness_matrix_drains : let s := matrixed mregs
    let w (f : FmtTag) : Strip := { z with d := 24#8, fmt := f }
    let m : Strip := { z with a := v 2#8, b := v 0#8, c := v 0#8, fmt := 3#4 }
    let cx := cxOf s (formOf (.mxDrainMem m)) m sp0
    let l := (placeList cx.view s.warp .write [((cx.srcA 1).word 0 ++ cx.a.word 0, 4)] s).1
    ([3#4, 4#4, 9#4].all fun f => engineB (.mxDrainReg (w f)) (w f) s team0) = true ∧ ((coreOf s 0).row 0).word 1 = ⟨0#128, .nan⟩ ∧
    engineB (.mxDrainMem m) m s team0 = true ∧ s.warp.epoch = none ∧ (cx.c.word 0).toNat = 0 ∧ (cx.b.word 0).toInt = 0 ∧
    ((cx.srcA 1).word 0 ++ cx.a.word 0).toNat % 4 = 0 ∧ rowForeign s s.warp 0 = false ∧
    (l.all fun p => match p.2 with | .ok k => k == 0x4000 | .error _ => false) = true := by decide +kernel

theorem witness_drain_lands : [true, false].all (fun add =>
    let x : DrainItem := ⟨0x4000#64, keysFrom 0x4000 16, [], List.replicate 16 1#8, add⟩
    let d : DrainOp := ⟨7, 0, 1, [spBase], if add then [x] else [x, x], false, PathView.start 2 0, 0, []⟩
    let s := { mregs with drains := [d] }
    decide (s.drains.find? (fun y => y.id == d.id) = some d) && decide ((x.dst.map (home s)).Nodup) &&
      x.dst.all (fun y => !(keysFrom spBase 16).contains (home s y)) && decide (s.filters = []) && decide (s.hist = [])) = true := by
  decide +kernel
/-! ## Witnesses: copies, masks and the filter -/

/-- A walk record at 0x4000 over a 4 by 2 tensor of words at 0x8000, its box 2 by 2, with this EDGE (R255). -/
def walked (edge : Byte) (s : State) : State := put s 0x4000 (toBytesLE 8 0x8000 ++ [2#8, 2#8, edge, 0#8] ++ toBytesLE 4 7 ++
  toBytesLE 4 4 ++ toBytesLE 2 2 ++ toBytesLE 2 1 ++ toBytesLE 8 4 ++ toBytesLE 4 2 ++ toBytesLE 2 2 ++ toBytesLE 2 1 ++ toBytesLE 8 16)

/-- The coordinates (-1, 0) in v12 and v13, the tile at 32 and the object at 16 in v14. -/
def coords (s : State) : State := onW s fun x => { x with
  regs := Tab.put (Tab.put (Tab.put x.regs 12 ⟨.u 0xFFFFFFFF#32, 1#4, [], 0#32, false⟩) 13 ⟨.u 0#32, 1#4, [], 0#32, false⟩)
    14 ⟨.u 0x00010002#32, 2#4, [], 0#32, false⟩ }

/-- The hypotheses of Copies for CP.TILE with this direction, EDGE and follow-on. -/
def copyB (x : BitVec 15) (edge : Byte) : Bool :=
  let w : Strip := { z with a := v 2#8, b := v 12#8, c := v 14#8, x := x }
  let s := coords (walked edge mregs)
  let cx := cxOf s (formOf (.cpTile w)) w sp0
  let a := (cx.srcA 1).word 0 ++ cx.a.word 0
  let p := placeSpan s cx.view s.warp .read a 96
  readyB (.cpTile w) w s && decide (teamById s 0 = some team0) && decide (cx.p ≠ 0#32) && decide (coordDeaths cx = 0#32) &&
    decide (a.toNat % 16 = 0) && match p.1, parseWalk (readBytes p.2 cx.view .g 0 (keysFrom 0x4000 96)) with
    | .ok ks, some r =>
      let store := w.x.getLsbD 0
      let crd := [(-1 : Int), 0]
      let l := (placeList cx.view p.2.warp (if store then .write else .read) ((boxPositions r.counts).flatMap fun q =>
        match r.cell store crd q with | .mem va => cutsOf va r.size | _ => []) p.2).1
      decide (ks = keysFrom 0x4000 96) && (List.range r.dims.length).map (fun d => ((cx.coordReg d).word 0).toInt) == crd &&
        (cx.copyCheck (some r) 2 crd 32 16).isNone && !l.isEmpty && l.all fun q => match q.2 with | .ok _ => true | .error _ => false
    | _, _ => false

/-- Copies: loads with every fill of EDGE and with a follow-on; a store; each box lies partly outside the tensor. -/
theorem witness_cp_tile : copyB 0#15 0#8 = true ∧ copyB 6#15 1#8 = true ∧ copyB 0#15 2#8 = true ∧ copyB 1#15 0#8 = true := by
  decide +kernel

/-- Copies: a staged command. -/
theorem witness_cp_cmd : let w : Strip := { z with a := v 0#8, b := v 0#8, c := v 8#8, fmt := 4#4 }
    let s := onW mregs fun x => { x with regs := Tab.put x.regs 8 ⟨.u 224#32, 2#4, [], 0#32, false⟩ }
    let cx := cxOf s (formOf (.cpCmd w)) w sp0
    engineB (.cpCmd w) w s team0 = true ∧ (cx.a.word 0).toInt = 0 ∧ (cx.b.word 0).toInt = 0 ∧ (cx.c.word 0).toNat = 224 ∧ s.hist = [] := by
  decide +kernel

/-- Copies: bytes that land, the last ones with a follow-on, and a fabric error that the issuing split's lanes meet. -/
theorem witness_copy_lands : let o : StreamOp := ⟨.reserved, 0#4, 0, 0, 0, 1, 1, PathView.start 2 0, some 9⟩
    let c (l : List CopyElem) (f : Option StreamOp) : CopyOp := ⟨9, 0, 0, 1, 0, 0xFFFFFFFF#32, 0, [spBase], l, false, f, PathView.start 2 0⟩
    let e1 : CopyElem := ⟨.keys (keysFrom 0x8000 4), keysFrom (spBase + 32) 4, [], 4⟩
    let e2 : CopyElem := ⟨.bytes [1#8, 2#8, 3#8, 4#8], keysFrom (spBase + 36) 4, [], 4⟩
    let s (f : Option StreamOp) : State := { onTeam (fun x => { x with slots := f.toList }) with copies := [c [e1, e2] f] }
    let dsts := [e1, e2].flatMap fun x => x.dst.map (home (s none))
    ([none, some o].all fun f => decide ((s f).copies.find? (fun x => x.id == 9) = some (c [e1, e2] f)) && copyFront (s f) (c [e1, e2] f)) = true ∧
    dsts.Nodup ∧ (∀ y ∈ dsts, y ∉ keysFrom spBase 16) ∧ (∀ y ∈ keysFrom 0x8000 4, home (s none) y ∉ dsts) ∧ (s none).hist = [] ∧
    teamById (s (some o)) 0 = some { team0 with slots := [o] } ∧ (((s none).warp :: (s none).others).map (·.id)).Nodup ∧
    (warpById (s none) 1).map (fun W => decide (issuerOf W 0 0xFFFFFFFF#32 = some sp0) && decide (W.rg = none)) = some true := by decide +kernel

/-- MasksAndFilter: TMASK of an owned row, and of registers. -/
theorem witness_tmask : let w : Strip := { z with a := v 8#8, b := v 0#8, c := v 0#8 }
    let r : Strip := { z with d := 24#8, a := v 8#8, b := v 0#8, c := v 1#8, fmt := 3#4, x := 0x4000#15 }
    let s := matrixed (onW mregs fun x => { x with
      regs := Tab.put (Tab.put (Tab.put x.regs 8 ⟨.u 5#32, 2#4, [], 0#32, false⟩) 9 ⟨.u 0#32, 2#4, [], 0#32, false⟩)
        24 ⟨.u 0#32, 3#4, [], 0#32, false⟩ })
    engineB (.tmaskAcc w) w s team0 = true ∧ rowsOf w = [0] ∧ ((coreOf s 0).row 0).owner = some s.warp.id ∧
    runsB (.tmaskReg r) r s = true := by decide +kernel

/-- A descriptor of a filter of one row of two words over 0x10000, K 1, its results at 0x20000 (R315). -/
def filterBytes : List Byte := toBytesLE 8 0x10000 ++ toBytesLE 4 1 ++ toBytesLE 4 2 ++ toBytesLE 8 4096 ++ [3#8, 1#8, 0#8, 0#8] ++
  toBytesLE 4 0 ++ toBytesLE 8 0x20000 ++ List.replicate 24 0#8

/-- The armed context of that descriptor. -/
def armed : FilterCtx := {
  id := 5, ctx := 0, grid := 0, wbase := 0x10000#64, rows := 1, rlen := 2, rstride := 4096, efmt := 3#4, k := 1, keep := false
  cref := 0#32, res := 0x20000#64, resPages := [0], objs := [spBase], state := [⟨0, (List.range 8).map fun o => (o, 0#8), false⟩]
  armer := 2, split := 0, reg := 24, read := true, pub := none, epoch := none }

/-- MasksAndFilter: a descriptor in order, one out of order, its window free, taken, and no context left. -/
theorem witness_samp_arm : let w : Strip := { z with d := 24#8, a := v 2#8, b := v 0#8 }
    let s (l : List FilterCtx) : State := { put mregs 0x4000 filterBytes with filters := l }
    let cx := cxOf (s []) (formOf (.sampArm w)) w sp0
    let far : FilterCtx := { armed with wbase := 0x90000#64 }
    engineB (.sampArm w) w (s []) team0 = true ∧ engineB (.sampArm w) w mregs team0 = true ∧ cx.pairA 0 = 0x4000#64 ∧ (cx.b.word 0).toInt = 0 ∧
    (placeSpan (s []) cx.view (s []).warp .read 0x4000#64 64).1.toOption = some (keysFrom 0x4000 64) ∧
    parseFilter (List.replicate 64 0#8) = none ∧
    parseFilter filterBytes = some { armed with
      id := 0, resPages := [], objs := [], state := [], armer := 0, reg := 0, read := false } ∧
    (s []).warp.ctx = 0 ∧ armed.overlaps { armed with id := 0 } = true ∧ far.overlaps armed = false ∧ (List.replicate 16 far).length = 16 ∧
    (placeList cx.view (s []).warp .write (cutsOf armed.wbase armed.span) (s [])).1.all (fun p =>
      match p.2 with | .ok k => decide (k / 2 ^ 39 = (s []).chip) | .error _ => false) = true ∧
    (placeList cx.view (s []).warp .write (cutsOf armed.res (armed.rows * recordBytes armed.k)) (s [])).1.all (fun p =>
      match p.2 with | .ok _ => true | .error _ => false) = true := by decide +kernel

theorem witness_filter_row : let s : State := { mregs with filters := [armed] }
    let keys := (List.range 48).map fun j => armed.resKey j
    s.filters.find? (fun x => x.id == 5) = some armed ∧ filterSaved s 5 = false ∧ armed.epoch = none ∧ (armed.row 0).done = false ∧
    armed.rlen * 4 ≤ (armed.row 0).bytes.length ∧ (32 + 8 * armed.k + 15) / 16 * 16 = 48 ∧ (keys.map (home s)).Nodup ∧
    (∀ y ∈ keys, home s y ∉ keysFrom spBase 16) ∧ s.hist = [] := by decide +kernel
/-! ## Witnesses: salvage and epochs -/

/-- The warp stands in region 5 of its image, under an open domain. -/
def salvage (s : State) (d : Domain) : State := { s with
  requests := [request []], domains := [(2, d)]
  images := (constant s).images.map fun m => (m.1, { m.2 with
    regions := [⟨5#16, 0x100000#64, 0x100100#64, 0x4000#64, 0x4100#64, List.replicate 32 0#8⟩] }) }

/-- A fragment of region 5, just opened. -/
def fr0 : Frag := {
  rid := 5#16, dom := 2, gen := 1, mask := 0xFFFFFFFF#32, sponge := [], regsIn := 0, window := none, claimed := false
  settled := false, reservation := none, outs := [], outWin := none, written := [], cleanR := [], cleanP := [], poisoned := false }

/-- The same state with an open fragment. -/
def inFrag (s : State) (fr : Frag) : State := onW s fun w => { w with frag := some fr }

/-- What LaneReady asks inside an open fragment. -/
def readyF (i : Instr) (w : Strip) (fr : Frag) (s : State) : Bool :=
  readyB i w (onW s fun w => { w with frag := none }) && decide (s.warp.frag = some fr) && decide (s.split? = some sp0)
    && !backFull s.warp (formOf i) w (takingPart s.warp sp0 (formOf i) w) && !readsPending s.warp (formOf i) w
    && ((formOf i).pure && decide (namedQueues (formOf i) w = []) && ((formOf i).exempt || readsClean fr i (formOf i) w))

theorem ready_in {i : Instr} {w : Strip} {fr : Frag} {s : State} (h : readyF i w fr s = true) : LaneReady i (formOf i) w sp0 s := by
  simp only [readyF, Bool.and_eq_true, Bool.or_eq_true, decide_eq_true_eq, Bool.not_eq_true'] at h
  obtain ⟨⟨⟨⟨⟨h1, h2⟩, h3⟩, h4⟩, h5⟩, h6⟩ := h
  have r := ready_of h1
  exact ⟨h3, r.form, r.legal, r.inside, r.fed, h4, r.tags, fun g hg => by
    obtain rfl : fr = g := by simpa [h2] using hg
    exact ⟨h5, .inr ⟨h6.1.1, h6.1.2, h6.2⟩⟩, r.single⟩

/-- Fragments: FRAG.OPEN in its region, and each reason to trap. -/
theorem witness_frag_open : let w : Strip := { z with b := ⟨0#8, 0#3, 5#5⟩, ib := true }
    let u : Strip := { w with b := ⟨0#8, 0#3, 6#5⟩ }
    let s := salvage mregs (dom [])
    readyB (.fragOpen w) w s = true ∧ s.warp.splits.length = 1 ∧ (warpDomain s s.warp).map (·.1) = some 2 ∧
    (fragRegion s s.warp w.imm16).map (fun r => decide (r.lstart.toNat ≤ sp0.pc.toNat) && decide (sp0.pc.toNat < r.lend.toNat)) = some true ∧
    (cxOf s (formOf (.fragOpen w)) w sp0).p ≠ 0#32 ∧ readyB (.fragOpen w) w mregs = true ∧ warpDomain mregs mregs.warp = none ∧
    readyB (.fragOpen u) u s = true ∧ fragRegion s s.warp u.imm16 = none ∧ readyF (.fragOpen w) w fr0 (inFrag s fr0) = true := by
  decide +kernel

/-- Fragments: each word that absorbs or declares, in an open fragment and without one. -/
theorem witness_frag_words : let s := inFrag (salvage mregs (dom [])) fr0
    let r : Strip := { z with a := v 6#8, b := v 7#8, c := v 8#8, d := 9#8, x := 3#15 }
    let m : Strip := { z with a := v 2#8, b := v 12#8 }
    let o : Strip := { m with x := 4#15 }
    let four (s : State) : State := onW s fun x => { x with regs := Tab.put x.regs 12 ⟨.u 4#32, 2#4, [], 0#32, false⟩ }
    let l := (placeList (cxOf (four s) (formOf (.fragInm m)) m sp0).view (four s).warp .read (cutsOf 0x4000#64 4) (four s)).1
    readyF (.fragIn r) r fr0 s = true ∧ s.warp.splits.length = 1 ∧ readyF (.fragInm m) m fr0 (four s) = true ∧
    readyF (.fragOut r) r fr0 s = true ∧ readyF (.fragOutWin o) o fr0 (four s) = true ∧ readyF (.fragDrop z) z fr0 s = true ∧
    (cxOf (four s) (formOf (.fragInm m)) m sp0).winLen = 4 ∧ (cxOf (four s) (formOf (.fragInm m)) m sp0).winBase = 0x4000#64 ∧
    lowDeaths (cxOf (four s) (formOf (.fragInm m)) m sp0) = 0#32 ∧
    (l.all fun p => match p.2 with | .ok _ => true | .error _ => false) = true ∧ s.hist = [] ∧
    (reqById s s.warp.req).map (·.windows) = some [] ∧ readyB (.fragIn r) r mregs = true ∧ readyB (.fragInm m) m (four mregs) = true ∧
    readyB (.fragOut r) r mregs = true ∧ readyB (.fragOutWin o) o (four mregs) = true ∧ readyB (.fragDrop z) z mregs = true ∧
    mregs.warp.frag = none := by decide +kernel

theorem witness_frag_name : let w : Strip := { z with d := 24#8 }
    let s := inFrag (salvage mregs (dom [])) fr0
    readyF (.fragName w) w fr0 s = true ∧ readyB (.fragName w) w mregs = true ∧ (cxOf s (formOf (.fragName w)) w sp0).p ≠ 0#32 := by
  decide +kernel

/-- Fragments: FRAG.DROP of a reservation. -/
theorem witness_frag_drop : let e : CatEntry := ⟨7#128, .open_, some 1, [], []⟩
    let fr := { fr0 with claimed := true, settled := true, reservation := some 7#128 }
    let s := inFrag (salvage mregs (dom [e])) fr
    readyF (.fragDrop z) z fr s = true ∧ (Tab.find? s.domains fr.dom) = some (dom [e]) ∧ (dom [e]).entry 7#128 = some e ∧
    e.owner = some s.warp.id := by decide +kernel

/-- ClaimsAndSeals: a claim ready to look its name up, with a window form. -/
theorem witness_claim : let w : Strip := { z with d := 24#8 }
    let x : Strip := { w with a := v 2#8, x := 1#15 }
    let s := inFrag (salvage mregs (dom [])) fr0
    let cx := cxOf s (formOf (.fragClaim x)) x sp0
    let l := (placeList cx.view s.warp .write (cutsOf (cx.pairA 0) 4) s).1
    readyF (.fragClaim w) w fr0 s = true ∧ readyF (.fragClaim x) x fr0 s = true ∧ fragDomain s fr0 = some (dom []) ∧
    lowDeaths (cxOf s (formOf (.fragClaim w)) w sp0) = 0#32 ∧ cx.p ≠ 0#32 ∧ lowDeaths cx = 0#32 ∧
    (l.all fun p => match p.2 with | .ok k => decide (k = 0x4000) | .error _ => false) = true ∧
    ((keysFrom 0x4000 4).map (home s)).Nodup ∧ readyF (.fragClaim w) w fr0 (inFrag mregs fr0) = true ∧
    fragDomain (inFrag mregs fr0) fr0 = none ∧ inAlloc s.warp.units 24 = true ∧ inAlloc s.warp.units 248 = false := by decide +kernel

/-- ClaimsAndSeals: each answer's entry; the domain of the state above may hold any of them. -/
theorem witness_claim_entries (n : BitVec 128) (st : CatState) (w : List Byte) :
    let e : CatEntry := ⟨n, st, none, [⟨24, LaneReg.launch⟩], w⟩
    (dom []).entry n = none ∧ (dom [e]).entry n = some e ∧ (dom []).entries.length < (dom []).size ∧
      (dom [⟨n + 1#128, st, none, [], []⟩, ⟨n + 1#128, st, none, [], []⟩]).entry n = none ∧
      fragDomain (salvage mregs (dom [e])) fr0 = some (dom [e]) := by
  refine ⟨rfl, by simp [dom, Domain.entry], by decide, ?_, by simp [fragDomain, salvage, fr0, dom, Tab.find?]⟩
  have h : n + 1#128 ≠ n := by bv_omega
  simp [dom, Domain.entry, h]

/-- ClaimsAndSeals: a seal with a reservation and a declared output, unclean and clean, with and without a window. -/
theorem witness_seal : let w : Strip := { z with d := 24#8 }
    let e : CatEntry := ⟨7#128, .open_, some 1, [], []⟩
    let fr (clean : List Nat) (win : Option (DWord × Nat)) : Frag := { fr0 with
      claimed := true, settled := true, reservation := some 7#128, outs := [6], cleanR := clean, outWin := win, written := [0, 1, 2, 3] }
    let s (f : Frag) := inFrag (salvage mregs (dom [e])) f
    let f := fr [6] (some (0x4000#64, 4))
    let l := (placeList (cxOf (s f) (formOf (.fragSeal w)) w sp0).view (s f).warp .read (cutsOf 0x4000#64 4) (s f)).1
    ([fr [] none, fr [6] none, fr [6] (some (0x4000#64, 4)), fr0].all fun f => readyF (.fragSeal w) w f (s f)) = true ∧
    (s f).warp.splits.length = 1 ∧ (s f).warp.pending = [] ∧ sp0.ts = none ∧
    fragDomain (s f) f = some (dom [e]) ∧ (dom [e]).entry 7#128 = some e ∧ e.owner = some (s f).warp.id ∧
    (l.all fun p => match p.2 with | .ok _ => true | .error _ => false) = true ∧ ((s f).warp.reg 6).poison = 0#32 ∧
    f.mask &&& ~~~(s f).warp.alive = 0#32 ∧ fragWindowStored (s f) f = false ∧
    sealBytes [⟨6, (s f).warp.reg 6⟩] [0#8, 0#8, 0#8, 0#8] ≤ (dom [e]).cistern := by decide +kernel

/-- Epochs: each word, by the state of the epoch that v6 names, which is 1. -/
theorem witness_epochs : let w : Strip := { z with d := 24#8, a := v 6#8 }
    let s (es : List EpochRec) : State := { mregs with requests := [request es] }
    let r (st : BitVec 3) := request [⟨1, st, false⟩]
    readyB (.specOpen w) w (s []) = true ∧ readyB (.specCommit w) w (s []) = true ∧ readyB (.specSquash w) w (s []) = true ∧
    readyB (.specStat w) w (s []) = true ∧ ((cxOf (s []) (formOf (.specOpen w)) w sp0).a.word 0).toNat = 1 ∧
    lowDeaths (cxOf (s []) (formOf (.specOpen w)) w sp0) = 0#32 ∧
    (r 1#3).stateOf 1 = 1#3 ∧ (r 2#3).stateOf 1 = 2#3 ∧ (r 3#3).stateOf 1 = 3#3 ∧ (request []).stateOf 1 = 0#3 ∧
    (request [⟨2, 1#3, false⟩]).stateOf 1 = 0#3 ∧ reqById (s []) (s []).warp.req = some (request []) ∧
    (readyB (.specOpen { w with a := v 0#8 }) { w with a := v 0#8 } (s [])) = true ∧
    (let d : DrainOp := ⟨7, 0, (s []).warp.id, [spBase], [], false, { PathView.start 2 0 with epoch := some (0, 1) }, 0, []⟩
     let o : State := { s [⟨1, 1#3, false⟩] with drains := [d] }
     readyB (.specOpen w) w o = true ∧ storesDone o o.warp.id = false ∧ storesDone (s []) (s []).warp.id = true) := by decide +kernel

/-- Epochs: a commit that may happen, with two stores of one byte; a cancelled warp. -/
theorem witness_epoch_commit : let e : EpochRec := ⟨1, 1#3, true⟩
    let x (b : Byte) : Version := ⟨0, 1, b, ⟨1, .g, 0x4000, 0#8, 2, 0, none, false, 1, false⟩⟩
    let s : State := { mregs with requests := [request [e]], versions := [x 2#8, x 1#8] }
    reqById s 0 = some (request [e]) ∧ (request [e]).epoch 1 = some e ∧ s.saved = [] ∧ (allWarps s).length = 1 ∧ s.warp.epoch = none ∧
    s.hist = [] ∧ home s 0x4000 = 0x4000 ∧ (onW mregs fun w => { w with cancelled := true }).warp.cancelled = true ∧
    mregs.warp.ended = none ∧ mregs.mapped = [] := by decide +kernel
/-! ## Witnesses: draft rows, queues and ladders -/

/-- StagedRows: a chunk of a free slot; a sequence, a slot and a chunk out of range; an invalid descriptor. -/
theorem witness_kv_stage : let w : Strip := { z with d := 0#8, a := v 0#8, b := v 0#8, c := v 6#8 }
    let far : Strip := { w with x := 8#15 }
    let cx := cxOf kvm (formOf (.kvStage w)) w sp0
    let p := placeSpan kvm cx.view kvm.warp .read 0x300000#64 64
    let d := parseSeq (readBytes p.2 cx.view .g 0 (keysFrom 0x300000 64))
    readyB (.kvStage w) w kvm = true ∧ stageDeaths cx = 0#32 ∧ (Tab.find? kvm.contexts kvm.warp.ctx).map (·.nseq) = some 1 ∧
    (cx.a.word 0).toNat = 0 ∧ (cx.b.word 0).toNat = 0 ∧ p.1.toOption = some (keysFrom 0x300000 64) ∧ d.valid = true ∧ d.nslot = 2 ∧ d.rowb = 128 ∧
    (cx.placeRanges .write [(0x320080#64, 128), (0x320000#64, 5)] (cx.loadKeys p.2 (keysFrom 0x300000 64)).2).1.toOption = some [keysFrom 0x320080 128, keysFrom 0x320000 5] ∧
    ((keysFrom 0x320080 128 ++ keysFrom 0x320000 5).map (home kvm)).Nodup ∧ kvm.hist = [] ∧
    (readyB (.kvStage { w with a := v 6#8 }) { w with a := v 6#8 } kvm && readyB (.kvStage { w with b := v 7#8 }) { w with b := v 7#8 } kvm &&
      readyB (.kvStage far) far kvm) = true ∧ d.rowb < 128 * Form.xf far 14 3 + 128 ∧ (parseSeq (List.replicate 64 0#8)).valid = false := by
  decide +kernel

/-- A member of epoch 1, whose request has no window. -/
def epoched (s : State) : State := onW { s with requests := [request [⟨1, 1#3, false⟩]] } fun x => { x with epoch := some 1 }

/-- StagedRows and CommittedRows: the descriptor lies outside the windows of an epoch's member (R313). -/
theorem witness_kv_epochwin : let w : Strip := { z with d := 0#8, a := v 0#8, b := v 0#8, c := v 6#8 }
    let c : Strip := { z with d := 24#8, a := v 0#8, b := v 6#8, c := v 0#8 }
    readyB (.kvStage w) w (epoched kvm) = true ∧ readyB (.kvCommit c) c (epoched kvm) = true ∧
    epochOutside (epoched kvm) (epoched kvm).warp 0x300000#64 64 = true := by decide +kernel

/-- One draft staged in slot 0, and the word that commits a run of it. -/
def drafted : State := put (onW kvm fun x => x) 0x320004 [1#8]
def commitWord : Strip := { z with d := 24#8, a := v 0#8, b := v 6#8, c := v 0#8 }
def commitCx : Cx := cxOf drafted (formOf (.kvCommit commitWord)) commitWord sp0
def commitAt : Except (AccErr × DWord) (List Nat) × State :=
  placeSpan drafted commitCx.view drafted.warp .read 0x300000#64 64
def commitSeq : SeqDesc := parseSeq (readBytes commitAt.2 commitCx.view .g 0 (keysFrom 0x300000 64))
/-- The states after its descriptor is read and after its run is walked. -/
def commitRead : State := (commitCx.loadKeys commitAt.2 (keysFrom 0x300000 64)).2
def commitWalked : State := (commitCx.walkRun commitSeq 0 [0] [] commitRead).2

/-- CommittedRows: the word, its descriptor and the headers of both slots. -/
theorem witness_kv_commit : readyB (.kvCommit commitWord) commitWord drafted = true ∧ commitDeaths commitCx = 0#32 ∧
    (commitCx.b.word 0).toNat = 1 ∧ commitAt.1.toOption = some (keysFrom 0x300000 64) ∧ commitSeq.valid = true ∧ commitSeq.nslot = 2 ∧
    ([0, 1].all fun j => decide ((commitCx.header commitSeq j commitRead).1.toOption = some (0, 1 - j)) &&
      decide ((commitCx.header commitSeq j commitRead).2.tlb = commitRead.tlb)) = true ∧
    drafted.hist = [] ∧ (readyB (.kvCommit { commitWord with a := v 6#8 }) { commitWord with a := v 6#8 } drafted) = true := by
  decide +kernel

/-- CommittedRows: the run stops at its end; the row and its target are placed and are not one. -/
theorem witness_kv_run : RunAccepts (fun j => (fun x => if x = 0 then 1 else 0) ((fun _ => 0) j) = 1) (fun _ => False) 1 0 1 0 ∧
    (commitCx.targets 0 0 1 commitWalked).1.toOption = some [0x400000#64] ∧
    (let s2 := (commitCx.targets 0 0 1 commitWalked).2
     let r := commitCx.placeRanges .read [(0x320080#64, 128)] s2
     r.1.toOption = some [keysFrom 0x320080 128] ∧
     (commitCx.placeRanges .write [(0x400000#64, 128), (0x300010#64, 4), (0x320004#64, 1), (0x320104#64, 1)] r.2).1.toOption =
       some [keysFrom 0x400000 128, keysFrom 0x300010 4, [0x320004], [0x320104]]) := by
  refine ⟨⟨by omega, ?_, .inl ⟨rfl, rfl, .inr ⟨id, by omega⟩⟩⟩, by decide +kernel, by decide +kernel, by decide +kernel⟩
  intro j hj
  obtain rfl : j = 0 := by omega
  exact ⟨rfl, .inl rfl⟩

/-- What QueueReady asks of queue `q`. -/
def queueB (i : Instr) (w : Strip) (s : State) : Bool :=
  readyB i w s && decide ((cxOf s (formOf i) w sp0).p ≠ 0#32) && decide (queueDeaths (cxOf s (formOf i) w sp0) = 0#32)
    && decide (imageAt s s.warp.image = some laddered) && decide (laddered.queue (Form.xf w 2 0) = some ⟨0, 4, 0x50000#64⟩)

/-- ClusterQueues: each word with room or entries for all lanes, without, at a rung's queue, and far from the package. -/
theorem witness_queue_words : let w : Strip := { z with a := v 8#8 }
    let p : Strip := { z with d := 24#8, fmt := 2#4 }
    let n : Strip := { p with x := 16#15 }
    let q : Strip := { z with d := 24#8 }
    let full := (List.range 32).map fun k => cq (BitVec.ofNat 32 k)
    let s8 (s : State) : State := onW s fun x => { x with regs := (List.range 8).foldl (fun t k => Tab.put t (8 + k) ⟨.u 1#32, 2#4, [], 0#32, false⟩) x.regs }
    let e := s8 (queued 0 [])
    let f := s8 (queued 0 full)
    ([e, f].all fun s => queueB (.qPush w) w s && queueB (.qPop p) p s && queueB (.qPop n) n s && queueB (.qStat q) q s) = true ∧
    (queueAt e 0 0 0).all = [] ∧ (queueAt f 0 0 0).all.length = 32 ∧ laddered.isRung 0 = false ∧ laddered.isRung 1 = true ∧
    laddered.queue 3 = none ∧ (let u : Strip := { q with x := 3#15 }; readyB (.qStat u) u e) = true ∧
    (let u : Strip := { w with b := v 1#8, x := 8#15 }
     queueB (.qPush u) u (onW e fun x => { x with regs := Tab.put x.regs 1 ⟨.u 160#32, 2#4, [], 0#32, false⟩ })) = true := by
  decide +kernel

/-- ClusterQueues: a refill of a full hardware part, of an empty well, and one that moves an entry. -/
theorem witness_queue_refill : let s (h w : List CqEntry) : State := { mregs with cqueues := [(0, ⟨h, w, 0#32, 0#32⟩)] }
    Tab.find? (s [] [cq 1#32]).cqueues (queueKey 0 0 0) = some ⟨[], [cq 1#32], 0#32, 0#32⟩ ∧
    Tab.find? (s [cq 1#32] []).cqueues (queueKey 0 0 0) = some ⟨[cq 1#32], [], 0#32, 0#32⟩ := by decide +kernel

/-- Ladder 0 open over two items, with this many entered. -/
def ladder0 (entered : Nat) (items : List ItemState) (groups : List Group) : Ladder :=
  ⟨2, 0x60000#64, 0x70000#64, [spBase], 0, 0, 0, entered, items, groups, 0⟩

/-- A warp that holds items 0 and 1 of that ladder's rung in lanes 0 and 1, its split of these lanes. -/
def holding (rung : Nat) : State :=
  let s := { queued 9 [] with ladders := [(0, ladder0 2 [.held, .held] [])] }
  onW s fun w => { w with
    items := [some ⟨0, [1#32], [], true⟩, some ⟨1, [2#32], [], true⟩] ++ List.replicate 30 none, ladder := some (0, 0, rung)
    regs := (List.range 8).foldl (fun t k => Tab.put t (8 + k) ⟨.u 1#32, 2#4, [], 0#32, false⟩) w.regs
    preds := w.preds.set 0 3#32 }

/-- LadderWords: LAD.DONE, open with a ladder declared, not declared, taken, too long and open; its test; LAD.ITEM. -/
theorem witness_lad_done : let w : Strip := { z with d := 24#8, a := v 2#8, b := v 6#8, c := v 2#8, x := 1#15 }
    let t : Strip := { z with d := 24#8 }
    let i : Strip := { z with d := 24#8, fmt := 2#4 }
    let s := queued 9 []
    let cx := cxOf s (formOf (.ladDoneOpen w)) w sp0
    readyB (.ladDoneOpen w) w s = true ∧ cx.p ≠ 0#32 ∧ lowDeaths cx = 0#32 ∧ teamById s 0 = some cx.team ∧ 16 ≤ cx.team.total ∧
    (cx.b.word 0).toNat = 1 ∧ (laddered.ladder 0).map (·.maxItems) = some 8 ∧ laddered.ladder 1 = none ∧ ladderAt s s.warp.hw 0 = none ∧
    (ladderAt (holding 0) 0 0).isSome = true ∧
    laddered.ladders.all (fun d => d.rungs.all fun r => (laddered.rungKernel r).any fun k => k.2.teams == 1 && canFit k.2 false) = true ∧
    isRedundant s 0 = false ∧ readyB (.ladDoneTest t) t s = true ∧ genericDeaths (cxOf s (formOf (.ladDoneTest t)) t sp0) = 0#32 ∧
    readyB (.ladItem i) i (holding 0) = true ∧ readyB (.ladItem { i with x := 1#15 }) { i with x := 1#15 } (holding 0) = true ∧
    genericDeaths (cxOf (holding 0) (formOf (.ladItem i)) i sp0) = 0#32 := by decide +kernel

/-- LadderWords: lanes 0 and 1 escalate to the last rung; they store results; lanes without an item, and the last rung. -/
theorem witness_lad_moves : let sp : Split := { sp0 with mask := 3#32 }
    let s := onW (holding 0) fun x => { x with slotA := some sp }
    let w : Strip := { z with a := v 8#8 }
    let cx := cxOf s (formOf (.ladEsc w)) w sp
    let l := ladder0 2 [.held, .held] []
    let cr := cxOf s (formOf (.ladRes w)) w sp
    let x := (placeLanes cr.view s.warp .write 4 (cr.resAccs l) s).1
    readyAt (.ladEsc w) w sp s ∧ readyAt (.ladRes w) w sp s ∧ noItems s.warp = false ∧ warpLadder s s.warp = some (0, 0, 0, l) ∧
    rungCount s l 0 = 2 ∧ (rungOf s l 0 1).map (fun r => (groupCap r.1 r.2.2.1, r.2.2.2.well)) = some (32, 4) ∧
    (queueAt s l.ctx 0 2).all = [] ∧ cx.p = 3#32 ∧ queueDeaths cx = 0#32 ∧
    (LaneMask.lanes cx.p).all (fun i => (s.warp.held i).isSome) = true ∧ resRegs s 8 = [8] ∧ inAlloc s.warp.units 8 = true ∧
    (s.warp.reg 8).tag = 2#4 ∧ resDeaths cr = 0#32 ∧ (preCheck s s.warp 4 true false (cr.resAccs l)).isNone = true ∧
    (x.all fun p => match p.2 with | .ok k => decide (k = 0x60000 + 4 * p.1.lane) | .error _ => false) = true ∧ x.length = 2 := by
  simp only [readyAt]; decide +kernel

theorem witness_lad_refused : let sp : Split := { sp0 with mask := 3#32 }
    let s := onW (holding 0) fun x => { x with slotA := some sp }
    let w : Strip := { z with a := v 8#8 }
    readyB (.ladEsc w) w (holding 0) = true ∧ (cxOf (holding 0) (formOf (.ladEsc w)) w sp0).p.has 31 = true ∧ (holding 0).warp.held 31 = none ∧
    readyAt (.ladEsc w) w sp (onW s fun x => { x with ladder := some (0, 0, 1) }) ∧ noItems mregs.warp = true := by
  simp only [readyAt]; decide +kernel

/-- LadderEvents: an item enters; one waits and starves; a group is launched; the ladder is complete. -/
theorem witness_ladder_events : let s := { queued 9 [] with ladders := [(0, ladder0 0 [.waiting 0, .waiting 0] [])] }
    let l := ladder0 0 [.waiting 0, .waiting 0] []
    let q := { queued 1 [cq 0#32] with ladders := [(0, ladder0 1 [.waiting 0, .waiting 0] [])] }
    let g : Group := ⟨0, [cq 0#32, cq 1#32]⟩
    let lg := ladder0 2 [.held, .held] [g]
    let r := { queued 9 [] with ladders := [(0, lg)], grids := [grid0], nextGrid := 1 }
    let d := ladder0 2 [.resolved, .dropped] []
    let c := { queued 9 [] with ladders := [(0, d)], grids := [grid0] }
    ladderAt s 0 0 = some l ∧ (rungOf s l 0 0).map (fun r => (groupCap r.1 r.2.2.1, r.2.2.2.well)) = some (32, 4) ∧ (queueAt s 0 0 1).all = [] ∧
    (queueAt s 0 0 1).spills = false ∧ (unitSpan s l.ctx .read 0x70000#64 32).1 = some (keysFrom 0x70000 32) ∧
    (queueAt q 0 0 1).all = [cq 0#32] ∧ q.cycle < (cq 0#32).entered + 10 ∧ (cq 0#32).entered + 10 ≤ { q with cycle := 10 }.cycle ∧
    ([0, 1, 2, 3].flatMap fun n => ((ladderAt r 0 n).map fun l => l.groups.map (n, ·)).getD []) = [(0, g)] ∧
    gridById r lg.grid = some grid0 ∧ imageAt r lg.image = some laddered ∧ isRedundant r 0 = false ∧ modeFits r 0 = true ∧
    (laddered.kernels[0]?.bind fun k => (homeTakes r 0 k false).map (·.length)) = some 1 ∧
    ladderAt c 0 0 = some d ∧ d.n ≤ d.entered ∧ keyResident c d.grid spBase = true ∧ ladderSaved c 0 0 = false ∧ c.hist = [] := by
  decide +kernel
/-! ## Witnesses: tasks, grids and clusters -/

/-- TaskAcceptance: a window with room, and a full one. -/
theorem witness_task_submit : let full : State := { acc with portA := { acc.portA with windows := [(0, ⟨[], 64, false⟩)] } }
    acc.start = .ready ∧ (⟨.a, 0, 0⟩ : Cmd).fn ≤ 16 ∧ (windowAt (portOf acc .a) 0).queued < 64 ∧ full.start = .ready ∧ 64 ≤ (windowAt (portOf full .a) 0).queued := by
  decide +kernel

/-- TaskAcceptance: LAUNCH of an aligned and of a misaligned record. -/
theorem witness_launch : let w : Strip := { z with d := 24#8, a := v 2#8 }
    let odd := onW mregs fun x => { x with regs := Tab.put x.regs 2 ⟨.u 0x4010#32, 0xA#4, [], 0#32, false⟩ }
    let cx := cxOf mregs (formOf (.launch w)) w sp0
    readyB (.launch w) w mregs = true ∧ readyB (.launch w) w odd = true ∧ cx.p ≠ 0#32 ∧ lowDeaths cx = 0#32 ∧
    cx.pairA 0 = 0x4000#64 ∧ (cxOf odd (formOf (.launch w)) w sp0).pairA 0 = 0x4010#64 ∧
    (placeList cx.view mregs.warp .read (cutsOf 0x4000#64 160) mregs).1.all (fun p => match p.2 with | .ok _ => true | .error _ => false) = true := by
  decide +kernel

/-- A submitted record of zeros but for byte 24. -/
def sub (flags : Byte) (req : Option Nat) : Submission :=
  ⟨5, 0, none, req, List.replicate 24 0#8 ++ [flags] ++ List.replicate 135 0#8, req.map fun _ => 1⟩

/-- A task. -/
def task0 (n die : Nat) (lrec : DWord) (writes : List (DWord × Nat)) : Task := ⟨n, die, 0, 0, lrec, 0#64, [], writes, false⟩

/-- TaskAcceptance: a record in order of a warp and of a host window, one out of order, and matchers that are full. -/
theorem witness_task_accept : TaskOk (sub 0#8 none).bytes ∧ ¬ TaskOk (sub 2#8 none).bytes ∧
    (let s : State := { mregs with submitted := [sub 0#8 (some 0)], requests := [request []] }
     let t : State := { mregs with submitted := [sub 0#8 none] }
     let u : State := { s with tasks := (List.range 1024).map fun n => task0 n (n % 4) 0#64 [] }
     (∃ d, d < 4 ∧ (s.tasks.filter fun k => k.die == d).length < 256) ∧ (∀ d, d < 4 → 256 ≤ (u.tasks.filter fun k => k.die == d).length) ∧
     t.requests = [] ∧ (unitRead { t with submitted := [] } 0 (BitVec.ofNat 64 (field (sub 0#8 none).bytes 16 8)) 144).1 = some (readBytes mregs (unitView mregs) .g 0 (keysFrom 0 144)) ∧
     field (readBytes mregs (unitView mregs) .g 0 (keysFrom 0 144)) 0 2 = 0) := by
  refine ⟨?_, ?_, ?_⟩
  · unfold TaskOk; decide +kernel
  · unfold TaskOk; decide +kernel
  · decide +kernel

/-- A launch record at 0x4000: one cluster of the kernel at 0x2000, its arguments at 0x5000, even or not (R109). -/
def launchable (even : Byte) (kaddr : Nat) : State :=
  let s := put (put (queued 9 []) 0x4000 (toBytesLE 8 kaddr ++ toBytesLE 4 1 ++ toBytesLE 4 16 ++ toBytesLE 8 0x5000 ++ [even]))
    0x5000 (toBytesLE 4 2 ++ toBytesLE 4 3 ++ toBytesLE 8 0x6000)
  { s with tasks := [task0 1 0 0#64 [], task0 2 0 0x4000#64 []], nextGrid := 1 }

/-- TaskLaunches: a launch, an even one, an unknown kernel, a record that breaks a limit, a task that depends. -/
theorem witness_task_launch : let s := launchable 0#8 0x2000
    let e := launchable 1#8 0x2000
    let rd (s : State) := unitRead s 0 0x4000#64 64
    let ok (b : Option (List Byte)) : Bool := b.any fun b => decide (1 ≤ field b 8 4 ∧ field b 12 4 ≤ 65536 ∧ field b 24 4 < 2 ∧
      field b 28 4 = 0 ∧ field b 32 8 % 256 = 0 ∧ field b 48 8 % 64 = 0 ∧ field b 56 8 = 0 ∧ field b 40 8 = 0)
    ok (rd s).1 = true ∧ ok (rd e).1 = true ∧ ok (rd (launchable 2#8 0x2000)).1 = false ∧
    (findKernel (rd s).2 0 0x2000#64).map (fun p => (p.1, p.2.1, canFit p.2.2 (isRedundant s 0))) = some (0, 0, true) ∧
    findKernel (rd s).2 0 0x2222#64 = none ∧ e.hist = [] ∧
    (unitRead (rd e).2 0 0x5000#64 16).1.map (fun b => (field b 0 4, field b 4 4, field b 8 8)) = some (2, 3, 0x6000) ∧
    (unitPlace (unitRead (rd e).2 0 0x5000#64 16).2 0 .write 0x6000#64).1 = some 0x6000 ∧ ((keysFrom 0x6000 2).map (home e)).Nodup := by
  decide +kernel

theorem witness_even_fits : let e := launchable 1#8 0x2000
    let g : Grid := { grid0 with id := 1, lr := { grid0.lr with even := true }, work := some (2, 3), started := 0, live := 0, members := [] }
    evenCanFit { e with grids := [g] } g = true := by decide +kernel

theorem witness_task_depends : TaskDepends (task0 2 0 0#64 [(0x10#64, 16)]) (task0 1 0 0#64 [(0x18#64, 16)]) ∧
    ¬ TaskDepends (task0 2 0 0#64 []) (task0 1 0 0#64 []) := by
  refine ⟨.inl ⟨_, by simp [task0]; rfl, _, by simp [task0]; rfl, 0x18, by decide⟩, ?_⟩
  simp [TaskDepends, task0]

/-- ClusterStart: a grid whose next cluster can start, and one that finds no cluster. -/
theorem witness_cluster_start : let g : Grid := { grid0 with started := 0, members := [], live := 0 }
    let s : State := { queued 9 [] with grids := [g] }
    let n : State := { s with preemptAsked := List.range 160 }
    gridById s g.id = some g ∧ (g.kern s).map (·.2.entry) = some 0x2000#64 ∧ g.started < g.lr.nclust ∧ g.lr.even = false ∧ modeFits s g.ctx = true ∧
    isRedundant s g.ctx = false ∧ (g.kern s).any (fun p => eligible s p.2 false 0 && (placeCluster s 0 p.2 false).isSome) = true ∧
    (g.kern n).all (fun p => (List.range 160).all fun hw => !eligible n p.2 false hw) = true := by decide +kernel

/-- ClusterStart: a grid with a trap vector, whose entry 0 goes into ATVEC. -/
theorem witness_cluster_start_vector : let g : Grid := { grid0 with started := 0, members := [], live := 0, lr := { grid0.lr with tvec := 0x5000#64 } }
    let s : State := put { queued 9 [] with grids := [g] } 0x5000 (toBytesLE 8 0x123456)
    gridById s g.id = some g ∧ (g.kern s).map (·.2.entry) = some 0x2000#64 ∧ g.started < g.lr.nclust ∧ g.lr.even = false ∧ modeFits s g.ctx = true ∧
    isRedundant s g.ctx = false ∧ (g.kern s).any (fun p => eligible s p.2 false 0 && (placeCluster s 0 p.2 false).isSome) = true ∧
    (unitRead s g.ctx 0x5000#64 8).1 = some (toBytesLE 8 0x123456) := by decide +kernel

/-- CompletionRecords: a record with a line of every kind, and its place in memory. -/
def record0 : RecordData := ⟨2, 1#8, 7#8, 3, 9, [⟨0, 1, 1#8, 7#8, 5, 0x40#64⟩], [⟨1, 2#3, false⟩], [(5#16, 1)], [List.replicate 16 1#8], [⟨0, 0, 2, 2, 0⟩], [(1, 4)]⟩

theorem witness_record : let p := unitWrite 0 (record0.body.length / 2 ^ 18 + 2) record0.body (0x4000#64 + 4#64) mregs
    (∀ q ∈ record0.queues, q.length = 16) ∧ p.1 = [0x4000 + 4] ∧ (unitPlace p.2 0 .write 0x4000#64).1 = some 0x4000 ∧
    ((keysFrom 0x4000 (fullRecord record0).length).map (home mregs)).Nodup ∧ mregs.hist = [] := by decide +kernel

/-- CompletionRecords: a grid with a live warp; one that is done, of a rung and of a task. -/
theorem witness_grid_end : let d : Grid := { grid0 with id := 4, live := 0, members := [7] }
    let r : Grid := { d with rung := some ⟨0, 0, 0, ⟨0, []⟩⟩ }
    let k := task0 0 0 0#64 []
    let s : State := { mregs with grids := [grid0, d], tasks := [k, task0 1 0 0#64 []] }
    let t : State := { s with grids := [grid0, r] }
    gridById s 0 = some grid0 ∧ grid0.live ≠ 0 ∧ gridById s 4 = some d ∧ d.ended = false ∧ d.lr.nclust ≤ d.started ∧ d.live = 0 ∧
    (allWarps s).all (fun w => w.grid != 4) = true ∧ s.saved = [] ∧ s.drains = [] ∧ s.copies = [] ∧ s.ladders = [] ∧ d.rung = none ∧ s.filters = [] ∧
    s.tasks.find? (·.seq == d.task) = some k ∧ (after s k).all (fun x => !depends x k) = true ∧ d.lr.grec = 0#64 ∧
    gridById t 4 = some r ∧ gridById t 0 = some grid0 := by decide +kernel

/-! ## Witnesses: pre-emption -/

/-- PreemptionAndTests: a cluster of the package and a number above; nothing asked; a warp under PREEMPT.OFF; one at rest. -/
theorem witness_preemption : let c : Cmd := ⟨.a, 0, 0⟩
    let s : State := { mregs with preemptAsked := [0] }
    let busy := onW s fun w => { w with pd := 1 }
    let wanting : State := { mregs with grids := [{ grid0 with started := 0 }] }
    mregs.start = .ready ∧ (boxOf mregs c).busy = none ∧ mregs.preemptAsked = [] ∧ mregs.testAsked = [] ∧
    busy.warp.pd ≠ 0 ∧ busy.warp.hw = 0 ∧ busy.warp.ended = none ∧ s.teams.filter (fun x => x.hw == 0) = [team0] ∧
    allWarps s = [s.warp] ∧ s.warp.hw = 0 ∧ s.warp.grid = team0.grid ∧ s.warp.cluster = team0.cluster ∧ s.warp.pd = 0 ∧ s.warp.pending = [] ∧
    s.warp.regs.all (fun r => r.2.poison == 0#32) = true ∧ s.warp.rg = none ∧ s.warp.frag = none ∧
    (s.warp.fq.toList.all fun q => q.all fun e => e.poison == 0#32) = true ∧ (s.warp.bq.toList.all fun q => q.all fun e => e.poison == 0#32) = true ∧
    busy.preemptAsked = [0] ∧ (∃ T ∈ wanting.teams, T.hw = 0) ∧
    wanting.grids.any (fun g => !g.ended && g.rung == none && decide (g.started < g.lr.nclust)) = true ∧
    wanting.preemptAsked = [] ∧ wanting.testAsked = [] ∧ team0.loader = none ∧ team0.slots = [] ∧ s.copies = [] ∧ s.drains = [] ∧ s.mapped = [] ∧
    s.portA.boxes ++ s.portB.boxes = [] := by decide +kernel

/-- PreemptionAndTests: a save of one team with a warp, which cluster 1 can take and a pre-empted one cannot. -/
theorem witness_restore : let T : Team := { team0 with id := 9, grid := 3 }
    let w : Warp := { mregs.warp with id := 8, team := 9, grid := 3 }
    let c : Saved := ⟨1, [w], [T], [(0, 16, 5#8)], [], [(0, 2, row0)], [], none, [], [], [], [], 0#64⟩
    let s : State := { mregs with saved := [c] }
    s.saved.find? (fun x => x.id == c.id) = some c ∧ canRestore s 1 c = true ∧ canRestore { s with preemptAsked := [1] } 1 c = false ∧
    (List.range 8).all (fun k => !(T.spmap.getD k 0#64).getLsbD 63) = true ∧ (∀ w ∈ c.warps, w.team = T.id) ∧ (∀ x ∈ s.teams, x.id ≠ T.id) := by
  decide +kernel

/-- The save area's magic (R236), two fields of a warp block, a U register and a broadcast entry. -/
theorem test_save_area : let w : Warp := { mregs.warp with pd := 3, pdSince := 0x102, alive := 0x80000001#32 }
    let x : Saved := ⟨1, [], [], [], [], [], [], none, [], [], [], [], 0#64⟩
    x.area.take 8 = [0x4B#8, 0x34#8, 0x31#8, 0x53#8, 1#8, 0#8, 0#8, 0#8] ∧
    ((warpBlock 0#64 w).drop 258).take 6 = [3#8, 0#8, 2#8, 1#8, 0#8, 0#8] ∧
    ((warpBlock 0#64 w).drop 304).take 4 = [1#8, 0#8, 0#8, 0x80#8] ∧
    (regBytes ⟨.u 7#32, 3#4, [], 0#32, false⟩) = [3#8, 7#8, 0#8, 0#8, 0#8] ∧
    (queueEntryBytes ⟨false, [9#32], 3#4, 0#32⟩) = [0x13#8, 9#8, 0#8, 0#8, 0#8] := by decide +kernel

theorem witness_restore_bytes : InSpan { team0 with id := 9 } (spKey 0 0 + 16) := by unfold InSpan; decide

/-- PreemptionAndTests: a core that is due and one that is not; a test done with a team still there, and without. -/
theorem witness_tests : let s : State := { mregs with cores := [(0, { Core.init with sinceTest := 24 * 360000 })] }
    let t : State := { mregs with testAsked := [0, 1] }
    24 * 360000 ≤ (coreOf s 0).sinceTest ∧ (coreOf s 0).wear = .healthy ∧ s.start = .ready ∧ ¬ 0 ∈ s.testAsked ∧ (coreOf s 1).sinceTest = 0 ∧
    0 / 4 ∈ t.testAsked ∧ (∃ T ∈ t.teams, T.hw = 0 / 4) ∧ 4 / 4 ∈ t.testAsked ∧ (∀ T ∈ t.teams, T.hw ≠ 4 / 4) := by decide +kernel
/-! ## Witnesses: signatures, redundant groups, errors, wear -/

/-- SignatureWords: checks off, on without a record, on with one that passes, fails, and fails under HOLD. -/
theorem witness_sig_chk : let w : Strip := { z with x := 10#15 }
    let on (ctl : Word) (n : Word) : State := onW (put mregs 0x4000 (toBytesLE 8 0x100000 ++ toBytesLE 4 5)) fun x =>
      { x with sigctl := ctl, sigtab := 0x4000#64, sigcnt := n }
    let d : Strip := { z with d := 24#8 }
    let v := (cxOf (on 1#32 1#32) (formOf (.sigChk w)) w sp0).view
    ([on 0#32 0#32, on 1#32 0#32, on 1#32 1#32, on 3#32 1#32].all fun s => readyB (.sigChk w) w s) = true ∧
    sigRecord (on 1#32 0#32) v (on 1#32 0#32).warp sp0.pc = none ∧ sigRecord (on 1#32 1#32) v (on 1#32 1#32).warp sp0.pc = some 5#32 ∧
    (crcAbsorb (crcAbsorb 0#32 (toBytesLE 4 sp0.mask.toNat)) (List.replicate 10 0#8) ^^^ 5#32) ≠ sp0.sig ∧
    readyB (.sigRd d) d mregs = true ∧ readyB (.rgCkpt z) z mregs = true ∧ readyB (.rgStat d) d mregs = true ∧
    (cxOf mregs (formOf (.sigRd d)) d sp0).p ≠ 0#32 ∧ genericDeaths (cxOf mregs (formOf (.sigRd d)) d sp0) = 0#32 := by decide +kernel

theorem witness_sig_passes : let v := crcAbsorb (crcAbsorb 0#32 (toBytesLE 4 sp0.mask.toNat)) (List.replicate 10 0#8)
    let w : Strip := { z with x := 10#15 }
    let s := onW (put mregs 0x4000 (toBytesLE 8 0x100000 ++ toBytesLE 4 v.toNat)) fun x => { x with sigctl := 1#32, sigtab := 0x4000#64, sigcnt := 1#32 }
    readyB (.sigChk w) w s = true ∧ sigRecord s (cxOf s (formOf (.sigChk w)) w sp0).view s.warp sp0.pc = some v ∧ sp0.sig = v ^^^ v := by decide +kernel

/-- Two copies on cores 0 and 1 with these sides and readiness; the issuing one leads. -/
def paired (a : AccWait) (g h : RgCopy) (held : List CmpEntry) : State :=
  let s := onW mregs fun w => { w with rg := some g, acc := a, slotA := none, lstarted := false }
  let o : Warp := { s.warp with id := 2, team := 1, core := 1, rg := some h }
  { s with others := [o], teams := [{ team0 with partner := some 1, held := held }, { team0 with id := 1, core := 1, trailing := true, partner := some 0 }]
           checkpoints := [{ s.warp with slotA := some sp0 }, { o with slotA := some sp0 }] }

/-- RedundantGroups: a pair that may not act, one that commits two held stores, one that met different ends, one the same. -/
theorem witness_pairs_of_copies : let g := newCopy false 2
    let h := newCopy true 1
    let e : CmpEntry := ⟨1, true, 0#64, 0#32, 0, [(0x4000, 1#8), (0x4001, 2#8)], [], true⟩
    let stay := paired .ready g h []
    let go := paired .commit g h [e]
    let split := paired .stopped { g with ending := some (0x03#8, 0#64) } { h with ending := some (0x04#8, 0#64) } []
    let ends := paired .stopped { g with ending := some (0x03#8, 0#64) } { h with ending := some (0x03#8, 0#64) } [e]
    let norm := paired .stopped { g with ending := some (0#8, 0#64) } { h with ending := some (0#8, 0#64) } [e]
    ([stay, go, split, ends, norm].all fun s => (pairOf s).any fun p => decide (p.lead.id = 1 ∧ p.trail.id = 2) && p.lead.rg.isSome && p.trail.rg.isSome) = true ∧
    (pairOf stay).map (pairMove stay) = some .stay ∧ (pairOf go).map (fun p => match pairMove go p with | .go _ => true | _ => false) = some true ∧
    ((allWarps go).map (·.id)).Nodup ∧ go.warp.epoch = none ∧ go.hist = [] ∧ (e.bytes.map fun b => home go b.1).Nodup ∧
    ([1, 2].all fun n => (split.checkpoints.find? (fun x => x.id == n)).map (fun c => (c.id, c.splits.length, c.rg.isSome)) == some (n, 1, true)) = true ∧
    g.killed = 0#32 ∧ h.killed = 0#32 ∧ split.warp.ended = none ∧
    ([ends, norm].all fun s => (pairOf s).any (fun p => allAgreed s p.lead && p.lead.ended.isNone && p.trail.ended.isNone && p.lead.epoch.isNone)
      && s.mapped.isEmpty && s.hist.isEmpty) = true ∧ (e.bytes.map fun b => home ends b.1).Nodup := by
  decide +kernel

/-- RedundantGroups: an injection whose word has come, and has not. -/
theorem witness_rginj : let g : RgCopy := { newCopy true 1 with inject := some (3, 31, 31), injCount := 3, lastD := some 6 }
    let s := onW mregs fun w => { w with rg := some g }
    s.warp.rg = some g ∧ g.trailing = true ∧ g.inject = some (g.injCount, 31, 31) ∧
    ({ g with injCount := 2 } : RgCopy).injCount ≠ 3 ∧ leadTeam s { s.warp with rg := some { g with trailing := false } } = some team0 := by decide +kernel

/-- An IADD of 3 and 4 whose lane 1 is left, with this recorded result. -/
def replayed (n : Word) : ReplayEntry :=
  let r (n : Word) : LaneReg := ⟨.u n, 1#4, [], 0#32, false⟩
  { warp := 1, grid := 0, cluster := 0, line := 0, split := 0, addr := 0x40#64
    word := .iadd { z with d := 24#8, a := v 1#8, b := v 2#8, fmt := 1#4 }, a := [r 3#32], b := [r 4#32], c := []
    preds := Vector.replicate 7 0#32, results := [mkWrite 24 (.uniform n) 3#32 1#4], mask := 3#32, left := 2#32 }

/-- ErrorsFound: an entry whose word gives what it recorded, and one whose does not; an inverted bit makes the other. -/
theorem witness_replay : (replayed 7#32).again mregs 1 = some [7#32] ∧ (replayed 7#32).recorded 1 = [7#32] ∧
    (replayed 8#32).recorded 1 = [8#32] ∧ (replayed 7#32).left.has 1 = true ∧ (replayed 7#32).left.has 0 = false := by decide +kernel

/-- ErrorsFound: an entry with its last lane left, of a live and of an ended warp; words of the three kinds of queues. -/
theorem witness_errors : let e : ReplayEntry := replayed 8#32
    let s : State := { mregs with cores := [(0, { Core.init with replay := [[e], [], [], []] })], grids := [grid0] }
    let b := onW mregs fun w => { w with bq := Vector.replicate 2 [⟨List.replicate 32 0#32, 1#32, 0#4, 0#32⟩] }
    let q := onW mregs fun w => { w with fq := Vector.replicate 8 [⟨true, List.replicate 32 0#32, 0#4, 0#32⟩] }
    (coreOf s 0).replay[0]? = some [e] ∧ [e][0]? = some e ∧ e.left ≠ 0#32 ∧ e.warp = s.warp.id ∧ s.warp.ended = none ∧ s.warp.splits = [sp0] ∧ sp0.id = e.split ∧
    (allWarps (onW s fun w => { w with ended := some (1#8, 1#8) })).all (fun w => w.ended.isSome) = true ∧
    (q.warp.fq.getD 7 [])[0]? = some ⟨true, List.replicate 32 0#32, 0#4, 0#32⟩ ∧
    (b.warp.bq.getD 1 [])[0]? = some ⟨List.replicate 32 0#32, 1#32, 0#4, 0#32⟩ ∧ (queueAt (queued 1 [cq 5#32]) 0 0 1).all[0]? = some (cq 5#32) := by decide +kernel

/-- Wear: a period in which one grid alone issued; WEAR.RD of each figure; a package READY and one that loads. -/
theorem witness_wear : let w (n : BitVec 15) : Strip := { z with d := 24#8, x := n }
    let s : State := { mregs with cores := [(0, { Core.init with issued := [(0, 5)] })], grids := [grid0] }
    s.start ≠ .off ∧ (coreOf s 0).issued = [(0 * 2 ^ 32 + 0, 5)] ∧ (Tab.find? s.contexts 0).isSome = true ∧ gridById s 0 = some grid0 ∧
    ([0#15, 1#15, 2#15, 3#15, 4#15].all fun n => readyB (.wearRd (w n)) (w n) s) = true ∧
    genericDeaths (cxOf s (formOf (.wearRd (w 0#15))) (w 0#15) sp0) = 0#32 ∧ s.start = .ready := by decide +kernel

theorem witness_life : let r := LifeRecord.seal { LifeRecord.init with generation := 3, lines := [⟨0, 7, 0, 0, .marked, [], 1⟩] }
    let s : State := { mregs with start := .wear, lifeA := r, lifeB := r }
    s.start = .wear ∧ s.lifeA.checks = true ∧ s.lifeB.generation ≤ s.lifeA.generation ∧ s.lifeA.written = true ∧ s.lifeB.written = true ∧
      (r.lines.map (·.core)).Nodup ∧ r.rebuilt = false := by
  refine ⟨rfl, by simp [LifeRecord.checks, LifeRecord.seal, LifeRecord.sum, LifeRecord.bytes], ?_, ?_, ?_, ?_, ?_⟩ <;> decide

/-- Start: a package in each state; whether an image verifies is the package's, so one of the two clauses holds of it. -/
theorem witness_start (a : StartState) (b : Bool) (image : List Byte) : let s : State := { mregs with start := a, cold := b, fwStore := [image], fwRunning := image }
    s.start = a ∧ s.cold = b ∧ s.fwStore = image :: [] ∧ ({ s with fwStore := [] } : State).fwStore = [] ∧
      (Config.firmwareVerifies s.fwRunning = true ∨ Config.firmwareVerifies s.fwRunning = false) :=
  ⟨rfl, rfl, rfl, rfl, by cases Config.firmwareVerifies image <;> simp⟩

/-! ## Witnesses: the host, other chips, the fabric -/

/-- HostAccesses: a free semaphore, one of this port and one of the other; a write and a read of the window's first bytes. -/
theorem witness_host_accesses : let s : State := { mregs with sems0 := (mregs.sems0.set 1 0x80000001#32).set 2 0x80000002#32 }
    s.sems0.getD 0 1#32 = 0#32 ∧ s.sems0.getD 1 0#32 = 0x80000001#32 ∧ s.sems0.getD 2 0#32 = 0x80000002#32 ∧ s.start = .ready ∧
    (unitPlace s (portOf s .a).bar2Ctx .write ((portOf s .a).bar2 + 0x4000#64)).1 = some 0x4000 ∧
    (unitPlace s (portOf s .a).bar2Ctx .read ((portOf s .a).bar2 + 0x4000#64)).1 = some 0x4000 ∧ s.hist = [] ∧
    ((keysFrom 0x4000 4).map (home s)).Nodup ∧
    (let c : State := { put s 0x4000 (toBytesLE 4 0x5243344B) with crecs := [(0x4000, 0, [0])] }
     (c.crecs.all fun x => x.1 == 0x4000) = true ∧ keysFrom 0x4000 4 ⊆ keysFrom 0x4000 64 ∧ bytesAt c (keysFrom 0x4000 4) = toBytesLE 4 0x5243344B ∧ home c 0x4003 = 0x4003) := by
  decide +kernel

/-- HostAccesses: places of a window's record, of SUBMIT, of a mailbox's record, of DOORBELL and of the registers. -/
theorem witness_host_registers : mregs.start = .ready ∧ (0x10008 : Nat) = windowsAt 0 + 256 * 0 + 8 ∧ (0x100A0 : Nat) = windowsAt 0 + 256 * 0 + 160 ∧
    160 < 160 + (List.replicate 8 0#8).length ∧ (0x120 : Nat) = windowsAt 1 + 256 * 1 + 0x20 ∧ (0x20004 : Nat) = mailboxAt 0 + 4 ∧
    (0x1040 - 4 : Nat) = mailboxAt 1 + 60 ∧ 64 < 60 + (List.replicate 8 0#8).length ∧
    ([0x02, 0x04, 0x05, 0x06, 0x07, 0x08, 0x0A, 0x0C, 0x0D].all fun n => decide (field (BitVec.ofNat 8 n :: List.replicate 63 0#8) 0 4 = n)) = true ∧
    (Tab.find? (portOf { mregs with portA := { mregs.portA with boxes := [(0, { Mailbox.init with record := List.replicate 64 0#8 })] } } .a).boxes 0).map
      (·.record.length) = some 64 := by decide +kernel

/-- A port that holds every semaphore of IOD0. -/
def hostSems : State := { mregs with sems0 := Vector.replicate 16 0x80000001#32 }

theorem witness_host_sems : let c : Cmd := ⟨.a, 0, 0⟩
    MayRun c false hostSems ∧ MayRun ⟨.a, 1, 0⟩ true hostSems ∧ (∀ n, n < 16 → HoldsSem hostSems .a n) ∧ ¬ HoldsSem mregs .a 6 := by
  refine ⟨⟨?_, ?_, ?_, ?_⟩, ⟨?_, ?_, ?_, ?_⟩, ?_, ?_⟩
  all_goals first | decide +kernel | (simp only [HoldsSem]; decide +kernel)

/-- HostCommands and Maintenance: operands in order; a busy and an idle context; an open and a closed domain; a report. -/
theorem witness_host_commands : let s : State := { hostSems with domains := [(2, dom []), (3, { dom [] with isOpen := false })]
                                                                 contexts := (3, ⟨0, 1, 0#64, 0, 0#64, false, true, 0⟩) :: hostSems.contexts }
    (Tab.find? s.contexts 0).isSome = true ∧ s.warp.ctx = 0 ∧ s.warp.ended = none ∧ (Tab.find? s.contexts 3).isSome = true ∧
    (allWarps s).all (fun w => w.ctx != 3) = true ∧ s.saved = [] ∧ Tab.find? s.contexts 9 = none ∧
    (Tab.find? s.domains 2).map (·.isOpen) = some true ∧ (Tab.find? s.domains 3).map (·.isOpen) = some false ∧
    (unitRead s 0 0x4000#64 32).1.isSome = true ∧ (imageBytes s 0 0x4000#64 16).1.isSome = true ∧ mregs.start ≠ .recovery ∧
    (unitPlace s 0 .write 0x4000#64).1 = some 0x4000 ∧ (List.replicate 32 0#8).length = 32 ∧ s.versions = [] ∧ s.mapped = [] ∧
    ({ s with start := .recovery } : State).start = .recovery := by decide +kernel

/-- Domain: a lagging and a fresh time; writes in order, early, late and of a new incarnation; leases, links and a failure. -/
theorem witness_domain : let s : State := { mregs with
      cores := [(0, { Core.init with pts := BitVec.ofNat 48 (2 ^ 41) })], lineTimes := [(128, (0#48, BitVec.ofNat 48 (2 ^ 41)))]
      applied := [(5, (1, 4))], fabric := [(0, ⟨true, some 5, 400, false, true⟩)], failedChips := [9] }
    Tab.find? s.lineTimes 128 = some (0#48, BitVec.ofNat 48 (2 ^ 41)) ∧ 2 ^ 40 < (homeTime s - 0#48).toNat ∧ (homeTime s - 0#48).toNat < 2 ^ 47 ∧
    (homeTime s - BitVec.ofNat 48 (2 ^ 41)).toNat ≤ 2 ^ 40 ∧ lastApplied s 5 = (1, 4) ∧ 5 ∉ s.failedChips ∧ 9 ∈ s.failedChips ∧
    0x4000 / 2 ^ 39 = s.chip ∧ s.heldWrites = [] ∧ s.hist = [] ∧ ((keysFrom 0x4000 4).map (home s)).Nodup ∧ 128 * 128 / 2 ^ 39 = s.chip ∧ 128 * 128 < spBase ∧ 0x4000 < spBase ∧
    s.l2Private = false ∧ s.warp.ended = none ∧ Tab.rising s.fabric = true ∧
    Tab.find? s.fabric 0 = some ⟨true, some 5, 400, false, true⟩ ∧ (∀ p ∈ s.fabric, p.2.up = true → p.2.partner ≠ some 7) ∧ 7 ≠ s.chip ∧
    waitingOn s 7 = [] ∧ lastApplied s 9 = (0, 0) := by decide +kernel

/-- Domain: an empty package into which a context of the other mode comes; a line of another chip, and a key above memory. -/
theorem witness_l2_mode : let s : State := { State.reset with
      contexts := [(3, ⟨0, 1, 0#64, 0, 0#64, false, true, 0⟩)], grids := [{ grid0 with ctx := 3, started := 0 }] }
    (allWarps s).all (fun w => w.ended.isSome) = true ∧ s.requests = [] ∧ s.l2Private = false ∧
    (s.grids.any fun g => !g.ended && decide (g.started < g.lr.nclust) && ((Tab.find? s.contexts g.ctx).map (·.priv)).getD false) = true ∧
    (2 ^ 39) / 2 ^ 39 ≠ s.chip ∧ home s (2 ^ 39) < spBase := by decide +kernel

/-! ## Witnesses: traps and system words -/

/-- A vector at 0x8000 whose entries lead to 0x9000; save areas in the team's scratchpad. -/
def vectored : State :=
  let s := onW mregs fun w => { w with tvec := 0x8000#64, ltsave := BitVec.ofNat 64 (2 ^ 56), faultq := 0x10000#64 }
  put { s with teams := [{ team0 with total := 8192 }] } 0x8000 ((List.replicate 64 (toBytesLE 8 0x9000)).flatten)

/-- The trap of TRAP, and the set it writes. -/
def soft : TrapInfo := wholeTrap Code.software sp0.mask
def softSet : TrapSet := ⟨true, sp0.pc, sp0.mask, soft.lanes, 0#16 ++ 0#8 ++ soft.code, 0#32, sp0.sig, none, 0⟩

/-- HandlerEntry: a trap that enters set 0, and one that enters set 1; without a vector; both sets in use; in a handler. -/
theorem witness_handler_entry : let one := onW vectored fun w => { w with ts0 := softSet }
    let two := onW one fun w => { w with ts1 := softSet }
    let saved (s : State) := saveAreas soft (viewOf s.warp sp0) (LaneMask.lanes soft.lanes) (onW s fun w => w.setTs 0 softSet)
    vectored.split? = some sp0 ∧ vectored.warp.pending = [] ∧ vectored.warp.rg = none ∧ vectored.warp.ended = none ∧ soft.posts = [] ∧ sp0.ts = none ∧
    (postFaults soft.kind Posted.none soft.posts vectored).1 = ⟨Posted.none, [], none⟩ ∧
    vectorEntry vectored (viewOf vectored.warp sp0) vectored.warp.tvec soft.code.toNat = 0x9000#64 ∧
    (vectored.warp.ts 0).inUse = false ∧ one.warp.ts0.inUse = true ∧ (one.warp.ts 1).inUse = false ∧ two.warp.ts1.inUse = true ∧
    (match saved vectored with | .ok _ => true | .error _ => false) = true ∧
    (match saved (onW vectored fun w => { w with ltsave := 0x100000000#64 }) with | .error (some e) => e == Code.page | _ => false) = true ∧
    vectored.warp.ltsave.toNat = 2 ^ 56 + 0 ∧ (teamById vectored 0).map (fun T => T.owns 0 8192) = some true ∧ vectored.hist = [] ∧
    vectorEntry mregs (viewOf mregs.warp sp0) mregs.warp.tvec soft.code.toNat = 0#64 ∧ soft.code ≠ Code.page ∧ mregs.warp.ended = none ∧
    (onW vectored fun w => { w with slotA := some { sp0 with ts := some 0 } }).split? = some { sp0 with ts := some 0 } := by decide +kernel

/-- HandlerEntry: PAGE with a record to post: posted and served, a full queue of 16, one out of memory, and none. -/
theorem witness_posting : let tr : TrapInfo := { soft with code := Code.page, kind := 1, posts := pagePosts Code.page [0x4000#64] }
    let q (v : DWord) : State := { onW mregs fun w => { w with faultq := v } with grids := [grid0] }
    let p (s : State) := (postFaults tr.kind Posted.none tr.posts s).1
    let full : State := { q 0x10004#64 with faultPos := [(0x10004, 16)] }
    (q 0x10004#64).warp.faultq ≠ 0#64 ∧ tr.posts.length = 1 ∧ tr.code = Code.page ∧
    p (q 0x10004#64) = ⟨⟨some 0, [0x10018]⟩, [], none⟩ ∧ (p full).left = tr.posts ∧ (p full).err = none ∧
    (p (q 0x100000004#64)).err = some .page ∧ vectorEntry (q 0x10004#64) (viewOf (q 0x10004#64).warp sp0) 0#64 1 = 0#64 ∧
    (q 0#64).warp.faultq = 0#64 := by decide +kernel

/-- HandlerEntry: TRAP, an undefined opcode, a trap held while it posts and a raised trap, with a result outstanding too. -/
theorem witness_trap_words : let t : Strip := { z with b := ⟨0#8, 0#3, 7#5⟩, ib := true }
    let r (q : Split) : State := onW mregs fun w => { w with slotA := some q }
    let held : Split := { sp0 with wait := .posting soft Posted.none }
    let up : Split := { sp0 with raised := [⟨Code.softerr, none, 0#16, 0#64⟩] }
    readyB (.trap t) t mregs = true ∧ mregs.split? = some sp0 ∧ (r held).split? = some held ∧ (r up).split? = some up ∧ up.posting = false ∧
    (r up).warp.pending = [] ∧ (onW (r up) fun w => { w with pending := [⟨[], [], [], none, none, none, none⟩] }).warp.pending ≠ [] := by
  decide +kernel

/-- A handler in set 0 of lanes 0 and 1, its issuing split of these lanes, and the same with a full stack. -/
def retSet : TrapSet := ⟨true, 0x40#64, 0xFFFFFFFF#32, 3#32, 0#32, 1#32, 0#32, none, 0⟩
def inHandler (m : LaneMask) : Split := { sp0 with mask := m, ts := some 0 }
def returning (m : LaneMask) (full : Bool) : State := onW mregs fun w => { w with
  slotA := some (inHandler m), ts0 := retSet, stack := if full then List.replicate 64 (.waiting { sp0 with mask := 0#32 }) else [] }

/-- HandlerReturn: the last split of a handler, an earlier one, and both where the stack is full. -/
theorem witness_tret (m : LaneMask) (hm : m = 1#32 ∨ m = 3#32) (full : Bool) : readyAt (.tret z) z (inHandler m) (returning m full) := by
  simp only [readyAt]; obtain rfl | rfl := hm <;> cases full <;> decide +kernel

theorem witness_tret_sets : let left (m : LaneMask) : LaneMask :=
      retSet.tlanes &&& (returning m false).warp.alive &&& ~~~((inHandler m).mask ||| unionMask ((returning m false).warp.returned 0))
    (returning 3#32 false).warp.ts 0 = retSet ∧ left 3#32 = 0#32 ∧ left 1#32 ≠ 0#32 ∧
    retSet.tmask &&& (returning 3#32 false).warp.alive ≠ 0#32 ∧ (returning 1#32 false).warp.stack.length < 64 ∧
    (returning 3#32 false).warp.pending = [] ∧ 64 ≤ (returning 1#32 true).warp.stack.length ∧
    (returning 1#32 true).warp.oldestReady = none ∧ readyB (.tret z) z mregs = true := by decide +kernel

/-- The immediate of a control register. -/
def csrField (n : Nat) : SrcField := ⟨BitVec.ofNat 8 (n / 256), BitVec.ofNat 3 (n / 32), BitVec.ofNat 5 n⟩

/-- ControlRegisters: every register read and written, alone and as a pair; a number that names none. -/
theorem witness_csr_words : let r (n : Nat) : Strip := { z with d := 24#8, b := csrField n, ib := true }
    let w (n : Nat) : Strip := { z with a := v 0#8, b := csrField n, ib := true }
    (readableRegisters.all fun row => decide ((r row.1).imm16.toNat = row.1) && readyB (.csrr (r row.1)) (r row.1) mregs &&
      readyB (.csrr { r row.1 with x := 1#15 }) { r row.1 with x := 1#15 } mregs) = true ∧
    (writableRegisters.all fun row => decide ((w row.1).imm16.toNat = row.1) && readyB (.csrw (w row.1)) (w row.1) mregs &&
      readyB (.csrw { w row.1 with a := v 2#8, x := 1#15 }) { w row.1 with a := v 2#8, x := 1#15 } mregs) = true ∧
    readyB (.csrw (w 0x80E)) (w 0x80E) mregs = true ∧ readyB (.csrr (r 0x817)) (r 0x817) mregs = true ∧ csrInfo 0x7FF = none ∧
    lowDeaths (cxOf mregs (formOf (.csrw (w 0x800))) (w 0x800) sp0) = 0#32 ∧ (cxOf mregs (formOf (.csrw (w 0x800))) (w 0x800) sp0).p ≠ 0#32 ∧
    mregs.warp.core < 4 ∧ mregs.warp.index < 16 ∧ mregs.warp.slot < 32 ∧ mregs.warp.hw < 160 := by decide +kernel

/-- ControlRegisters: the trap set of a handler. -/
theorem witness_csr_in_handler : let sp : Split := { sp0 with ts := some 1 }
    let s := onW mregs fun w => { w with slotA := some sp }
    (writableRegisters.all fun row =>
      let w : Strip := { z with a := v 0#8, b := csrField row.1, ib := true }
      decide (s.split? = some sp) && formLegal (formOf (.csrw w)) w && tagsOk s.draws s.warp (formOf (.csrw w)) w) = true := by decide +kernel

/-- RegisterEvents: an SPMAP released; one mapped with LD; one that traps by each check; both copies of a group. -/
theorem witness_register_events : let T : Team := { team0 with total := 8192 }
    let s : State := { mregs with teams := [T] }
    let u : State := { s with teams := [{ T with spmap := T.spmap.set 0 (1#64 <<< 63) }], mapped := [⟨0, 0, 4, spBase⟩], spDirty := [spBase / 128] }
    let x : State := { s with teams := [{ T with spmap := T.spmap.set 1 ((1#64 <<< 63) ||| (12#64 <<< 57) ||| (4#64 <<< 12)) }] }
    let val := (1#64 <<< 63) ||| (12#64 <<< 57) ||| (4#64 <<< 12) ||| 16#64
    let at_ (base : Nat) := (spPlace s.warp (PathView.start (2 * s.warp.id) s.serial) (BitVec.ofNat 64 base) 1
      (modTeam s T.id fun y => { y with spmap := y.spmap.setIfInBounds 0 (T.spmap.getD 0 0#64) })).1
    s.warp.rg = none ∧ teamById s 0 = some T ∧ (T.spmap.getD 0 0#64).getLsbD 63 = false ∧ val.getLsbD 63 = true ∧ val.getLsbD 4 = true ∧
    val.toNat / 2 ^ 57 % 64 = 12 ∧ val.toNat / 2 ^ 12 % 2 ^ 45 = 4 ∧ val.toNat / 2 ^ 5 % 2 ^ 7 = 0 ∧ val.getLsbD 56 = false ∧ val.toNat % 16 = 0 ∧
    (match at_ 0x4000 with | .ok l => l == [4] | .error _ => false) = true ∧
    (match at_ 0x100000000 with | .error (.page, _) => true | _ => false) = true ∧
    s.mapped = [] ∧ s.hist = [] ∧ (teamById u 0).map (fun T => (T.spmap.getD 0 0#64).getLsbD 63) = some true ∧
    u.spDirty.contains ((spBase + 127) / 128) = true ∧ T.total < 2 * 4096 + 4096 ∧
    (teamById x 0).map (fun T => spOverlap val (T.spmap.getD 1 0#64)) = some true ∧
    (paired .ready (newCopy false 2) (newCopy true 1) []).warp.rg = some (newCopy false 2) ∧ (newCopy true 1).trailing = true := by decide +kernel

/-- WarpEvents: an outstanding result; each depth. -/
theorem witness_warp_words : let p : Pending := ⟨[mkWrite 6 (.uniform 9#32) 3#32 2#4], [⟨0, 3#32, 3#32⟩], [], none, none, none, none⟩
    let s := onW mregs fun w => { w with pending := [p], parked := true }
    s.warp.pending[0]? = some p ∧ (p.regs.map (·.n)).Nodup ∧ (p.preds.map (·.k)).Nodup ∧ readyB (.preemptOff z) z mregs = true ∧ mregs.warp.pd < 15 ∧
    readyB (.preemptOff z) z (onW mregs fun w => { w with pd := 15 }) = true ∧ preemptDue mregs 0 = false ∧
    preemptDue { mregs with preemptAsked := [0] } 0 = true ∧ readyB (.preemptOff z) z { mregs with preemptAsked := [0] } = true ∧
    readyB (.preemptOn z) z mregs = true := by decide +kernel

/-- WarpEvents: a watchdog and a cap that expire; a quantum, alone and of two equal splits; both answers to a page. -/
theorem witness_warp_events : let dog := { onW mregs fun w => { w with pd := 1, lstarted := true, wdog := 24#6 } with cycle := 2 ^ 24 }
    let r : Split := { sp0 with mask := 1#32 }
    let q := { onW mregs fun w => { w with stack := [.ready r] } with cycle := 4096 }
    let both := onW q fun w => { w with slotB := some sp0 }
    let page (b : Byte) := put (onW mregs fun w => { w with slotA := some { sp0 with wait := .service [0x10000] } }) 0x10000 [b]
    dog.warp.lstarted = true ∧ dog.warp.wdog ≠ 0#6 ∧
    dog.warp.watch + 2 ^ dog.warp.wdog.toNat ≤ dog.cycle ∧ dog.warp.pdSince + 1200000 ≤ dog.cycle ∧ dog.warp.ended = none ∧
    ([Code.progress, Code.nopreempt].all fun c => !dog.warp.hasRaised c) = true ∧ dog.warp.splits = [sp0] ∧
    q.warp.slot? false = some sp0 ∧ sp0.ts = none ∧ sp0.entered + 4096 ≤ q.cycle ∧ q.warp.oldestReady = some r ∧ r.entered ≤ sp0.entered ∧
    q.warp.slot? true = none ∧ both.warp.slot? true = some sp0 ∧
    (page 1#8).warp.slotA = some { sp0 with wait := .service [0x10000] } ∧ (page 1#8).warp.slotB = none ∧
    memNat (page 1#8) 0x10000 4 = 1 ∧ memNat (page 2#8) 0x10000 4 = 2 ∧ mregs.warp.ended = none ∧ mregs.warp.rg = none := by decide +kernel

/-! ## Witnesses: steps -/

/-- StepRuns: an access word, a lane word, an input that is due, an item that starves, and a package with an event. -/
theorem witness_steps : let a := beginTurn .access 1 acc
    let l := beginTurn .laneA 1 (ln [])
    acc.agenda = [] ∧ starveBy acc (acc.cycle + turnCycles acc) = none ∧ starveBy (ln []) 1 = none ∧
    (starveBy { queued 1 [cq 0#32] with ladders := [(0, ⟨2, 0x60000#64, 0x70000#64, [spBase], 0, 0, 0, 1, [.waiting 0, .waiting 0], [], 0⟩)], cycle := 9 } 10)
      = some (10, 0, 0, 0) ∧ acc.plan = [] ∧ acc.turn = .access ∧ accessReady a = true ∧ a.warp.apc.toNat % 4 = 0 ∧
    (match (fetchBytes a.warp 1 (modCore a a.warp.coreIx fun c => { c with served := a.warp.slot }) a.warp.apc).1 with | .ok bs => (decodeAccessBytes bs).any (fun p => p.2.isEmpty) | .error _ => false) = true ∧
    (ln []).turn = .laneA ∧ trapDue { l with slotB := false } false = false ∧ (readySplit { l with slotB := false } false).map (·.pc) = some sp0.pc ∧
    (match (fetchBytes l.warp 3 { l with slotB := false } sp0.pc).1 with | .ok bs => (decodeLaneBytes bs).any (fun p => p.2.isEmpty) | .error _ => false) = true ∧
    ({ acc with agenda := [.suppliesUp] } : State).agenda = .suppliesUp :: [] ∧
    events (beginTurn .event 1 { acc with turn := .event, start := .fuse }) ≠ [] := by decide +kernel

/-- StepKeepsMemory: a memory in its form and a step from it. -/
theorem witness_step_keeps : Memory.wf acc.mem = true ∧ (match step acc with | .next _ => true | _ => false) = true := by decide +kernel

/-- WordsRoundTrip: a word of each stream. -/
theorem witness_words : (Instr.nops).wf = true ∧ (encodeAccess .nops).isSome = true ∧ (Instr.nop z).wf = true ∧ (encodeLane (.nop z)).isSome = true := by
  decide +kernel
/-! ## Words written out from the encodings -/

/-- As a function that can be evaluated. -/
def reads (n : Nat) (l : List (Nat × Instr)) : Bool := l.all fun p => decide (decodeTableWord n p.1 = some p.2)

/-- R64 to R67: the immediates of the access stream, every field a value of its own. -/
theorem test_access_words_immediates :
    reads 32 [
      (0x00000000, .nops),
      (0x04648009, .addi 3#5 4#5 32777#16),
      (0x08648009, .andi 3#5 4#5 32777#16),
      (0x0C648009, .ori 3#5 4#5 32777#16),
      (0x10648009, .xori 3#5 4#5 32777#16),
      (0x14648009, .slti 3#5 4#5 32777#16),
      (0x18608009, .lui 3#5 32777#16),
      (0x1C640021, .shli 3#5 4#5 33#6),
      (0x20640021, .shri 3#5 4#5 33#6),
      (0x24640021, .srai 3#5 4#5 33#6)] = true := by decide +kernel

/-- R64 to R67: the register forms of the access stream, every field a value of its own. -/
theorem test_access_words_register_forms :
    reads 32 [
      (0x28643000, .add 3#5 4#5 6#5),
      (0x28643001, .sub 3#5 4#5 6#5),
      (0x28643002, .mul 3#5 4#5 6#5),
      (0x28643003, .mulh 3#5 4#5 6#5),
      (0x28643004, .and 3#5 4#5 6#5),
      (0x28643005, .or 3#5 4#5 6#5),
      (0x28643006, .xor 3#5 4#5 6#5),
      (0x28643007, .shl 3#5 4#5 6#5),
      (0x28643008, .shr 3#5 4#5 6#5),
      (0x28643009, .sra 3#5 4#5 6#5),
      (0x2864300A, .slt 3#5 4#5 6#5),
      (0x2864300B, .sltn 3#5 4#5 6#5),
      (0x2864300C, .min 3#5 4#5 6#5),
      (0x2864300D, .max 3#5 4#5 6#5),
      (0x2864300E, .minn 3#5 4#5 6#5),
      (0x2864300F, .maxn 3#5 4#5 6#5)] = true := by decide +kernel

/-- R64 to R67: the loads and queues of the access stream, every field a value of its own. -/
theorem test_access_words_loads_and_queues :
    reads 32 [
      (0x40648009, .lds 3#5 4#5 32777#16),
      (0x44648009, .ldsw 3#5 4#5 32777#16),
      (0x48648009, .sts 3#5 4#5 32777#16),
      (0x4C648009, .stsw 3#5 4#5 32777#16),
      (0x50960011, .ldq 4#5 5#3 131089#18),
      (0x54940001, .qpush 4#5 5#3 true),
      (0x58600281, .qpopW 3#5 true 8#5 true),
      (0x58600285, .qpopD 3#5 true 8#5 true),
      (0x58600209, .qpopM 3#5 true true),
      (0x5C648009, .xlats 3#5 4#5 32777#16),
      (0x60960011, .xlatq 4#5 5#3 131089#18),
      (0x64048009, .prefsL1 4#5 32777#16),
      (0x64248009, .prefsL2 4#5 32777#16),
      (0x68600807, .csrrs 3#5 2055#16),
      (0x6C040807, .csrws 4#5 2055#16)] = true := by decide +kernel

/-- R64 to R67: the control of the access stream, every field a value of its own. -/
theorem test_access_words_control :
    reads 32 [
      (0x80008003, .j 32771#26),
      (0x84008003, .jal 32771#26),
      (0x88648009, .jr 3#5 4#5 32777#16),
      (0x8C868003, .beq 4#5 6#5 32771#16),
      (0x90868003, .bne 4#5 6#5 32771#16),
      (0x94868003, .blt 4#5 6#5 32771#16),
      (0x98868003, .bge 4#5 6#5 32771#16),
      (0x9C868003, .bltn 4#5 6#5 32771#16),
      (0xA0868003, .bgen 4#5 6#5 32771#16),
      (0xA4040000, .lstart 4#5),
      (0xA8048009, .lwait 4#5 32777#16),
      (0xB0048009, .traps 4#5 32777#16),
      (0xB4008009, .yields 32777#16),
      (0xB8000000, .halts),
      (0xF8008003, .tramps 32771#26)] = true := by decide +kernel

/-- R84: the operation codes, integer. -/
theorem test_lane_codes_integer :
    reads 96 [
      (0x000000000000000000000000, .nop noFields),
      (0x002000000000000000000000, .iadd noFields),
      (0x004000000000000000000000, .isub noFields),
      (0x006000000000000000000000, .imul noFields),
      (0x008000000000000000000000, .imulh noFields),
      (0x00A000000000000000000000, .imulhn noFields),
      (0x00C000000000000000000000, .imad noFields),
      (0x00E000000000000000000000, .imin noFields),
      (0x010000000000000000000000, .imax noFields),
      (0x012000000000000000000000, .iminn noFields),
      (0x014000000000000000000000, .imaxn noFields),
      (0x016000000000000000000000, .iabs noFields),
      (0x018000000000000000000000, .ineg noFields),
      (0x01A000000000000000000000, .iand noFields),
      (0x01C000000000000000000000, .ior noFields),
      (0x01E000000000000000000000, .ixor noFields),
      (0x020000000000000000000000, .inot noFields),
      (0x022000000000000000000000, .ishl noFields),
      (0x024000000000000000000000, .ishr noFields),
      (0x026000000000000000000000, .isra noFields),
      (0x028000000000000000000000, .irot noFields),
      (0x02A000000000000000000000, .iclz noFields),
      (0x02C000000000000000000000, .ipopc noFields),
      (0x02E000000000000000000000, .ibrev noFields),
      (0x030000000000000000000000, .ibfx noFields),
      (0x032000000000000000000000, .ibfi noFields),
      (0x034000000000000000000000, .isel noFields),
      (0x036000000000000000000000, .icmp noFields),
      (0x03A000000000000000000000, .movi noFields),
      (0x03C000000000000000000000, .mov noFields),
      (0x03E000000000000000000000, .movx noFields),
      (0x040000000000000000000000, .movxd noFields),
      (0x042000000000000000000000, .laneid noFields),
      (0x044000000000000000000000, .idiv noFields),
      (0x046000000000000000000000, .idivn noFields),
      (0x048000000000000000000000, .irem noFields),
      (0x04A000000000000000000000, .iremn noFields)] = true := by decide +kernel

/-- R84: the operation codes, float. -/
theorem test_lane_codes_float :
    reads 96 [
      (0x100000000000000000000000, .fadd noFields),
      (0x102000000000000000000000, .fsub noFields),
      (0x104000000000000000000000, .fmul noFields),
      (0x106000000000000000000000, .fma noFields),
      (0x108000000000000000000000, .fmin noFields),
      (0x10A000000000000000000000, .fmax noFields),
      (0x10C000000000000000000000, .fabs noFields),
      (0x10E000000000000000000000, .fneg noFields),
      (0x110000000000000000000000, .fcmp noFields),
      (0x112000000000000000000000, .frcp noFields),
      (0x114000000000000000000000, .frsq noFields),
      (0x116000000000000000000000, .fsqrt noFields),
      (0x118000000000000000000000, .fdiv noFields),
      (0x11A000000000000000000000, .fexp2 noFields),
      (0x11C000000000000000000000, .flog2 noFields),
      (0x11E000000000000000000000, .frint noFields),
      (0x120000000000000000000000, .twosum noFields),
      (0x122000000000000000000000, .fastsum noFields),
      (0x124000000000000000000000, .fclass noFields),
      (0x126000000000000000000000, .fscale noFields),
      (0x128000000000000000000000, .hadd2 noFields),
      (0x12A000000000000000000000, .hmul2 noFields),
      (0x12C000000000000000000000, .hfma2 noFields),
      (0x130000000000000000000000, .dot4e noFields),
      (0x132000000000000000000000, .fexpe noFields)] = true := by decide +kernel

/-- R84: the operation codes, conversion and cross lane. -/
theorem test_lane_codes_conversion_and_cross_lane :
    reads 96 [
      (0x200000000000000000000000, .cvt noFields),
      (0x202000000000000000000000, .cvtPk noFields),
      (0x204000000000000000000000, .cvtUpk noFields),
      (0x206000000000000000000000, .qbx4 noFields),
      (0x208000000000000000000000, .dqbx4 noFields),
      (0x20A000000000000000000000, .tag noFields),
      (0x20C000000000000000000000, .tagr noFields),
      (0x20E000000000000000000000, .shape noFields),
      (0x220000000000000000000000, .shfl noFields),
      (0x222000000000000000000000, .vote noFields),
      (0x224000000000000000000000, .redx noFields),
      (0x226000000000000000000000, .scan noFields),
      (0x228000000000000000000000, .matchLanes noFields),
      (0x22A000000000000000000000, .cmpr noFields),
      (0x22C000000000000000000000, .elect noFields),
      (0x22E000000000000000000000, .alive noFields)] = true := by decide +kernel

/-- R84: the operation codes, control. -/
theorem test_lane_codes_control :
    reads 96 [
      (0x300000000000000000000000, .bra noFields),
      (0x302000000000000000000000, .brx noFields),
      (0x304000000000000000000000, .call noFields),
      (0x306000000000000000000000, .callx noFields),
      (0x308000000000000000000000, .ret noFields),
      (0x30A000000000000000000000, .reconv noFields),
      (0x30C000000000000000000000, .entry noFields),
      (0x30E000000000000000000000, .exit noFields),
      (0x310000000000000000000000, .yield noFields),
      (0x312000000000000000000000, .pset noFields),
      (0x314000000000000000000000, .pmov noFields),
      (0x31A000000000000000000000, .lmark noFields),
      (0x318000000000000000000000, .launch noFields),
      (0x31C000000000000000000000, .preemptOff noFields),
      (0x31E000000000000000000000, .preemptOn noFields)] = true := by decide +kernel

/-- R84: the operation codes, memory. -/
theorem test_lane_codes_memory :
    reads 96 [
      (0x400000000000000000000000, .ld noFields),
      (0x402000000000000000000000, .st noFields),
      (0x404000000000000000000000, .ldP noFields),
      (0x406000000000000000000000, .stP noFields),
      (0x408000000000000000000000, .stCl noFields),
      (0x40A000000000000000000000, .ldCl noFields),
      (0x40C000000000000000000000, .atom noFields),
      (0x410000000000000000000000, .red noFields),
      (0x412000000000000000000000, .cas noFields),
      (0x414000000000000000000000, .fence noFields),
      (0x416000000000000000000000, .fenceX noFields),
      (0x418000000000000000000000, .barInit noFields),
      (0x41A000000000000000000000, .barArrive noFields),
      (0x41C000000000000000000000, .barExpect noFields),
      (0x41E000000000000000000000, .barWait noFields),
      (0x420000000000000000000000, .barTest noFields),
      (0x422000000000000000000000, .xlat noFields),
      (0x424000000000000000000000, .xlatRp noFields),
      (0x426000000000000000000000, .prefetch noFields),
      (0x428000000000000000000000, .ldC noFields)] = true := by decide +kernel

/-- R84: the operation codes, matrix and copy. -/
theorem test_lane_codes_matrix_and_copy :
    reads 96 [
      (0x500000000000000000000000, .mxLoadw noFields),
      (0x502000000000000000000000, .mxSwap noFields),
      (0x504000000000000000000000, .mxClear noFields),
      (0x504000000000000000004000, .mxClearRel { noFields with x := 16384#15 }),
      (0x506000000000000000000000, .mxStream noFields),
      (0x508000000000000000000000, .mxDrainMem noFields),
      (0x508024000000000000000000, .mxDrainReg { noFields with d := 9#8 }),
      (0x50C000000000000000000000, .mxStat noFields),
      (0x50E000000000000000000000, .cpTile noFields),
      (0x510000000000000000000000, .cpCmd noFields),
      (0x512000000000000000000000, .tmaskAcc noFields),
      (0x512000000000000000004000, .tmaskReg { noFields with x := 16384#15 }),
      (0x514000000000000000000000, .sampArm noFields)] = true := by decide +kernel

/-- R84: the operation codes, salvage and kv. -/
theorem test_lane_codes_salvage_and_kv :
    reads 96 [
      (0x600000000000000000000000, .fragOpen noFields),
      (0x602000000000000000000000, .fragIn noFields),
      (0x604000000000000000000000, .fragInm noFields),
      (0x606000000000000000000000, .fragClaim noFields),
      (0x608000000000000000000000, .fragOut noFields),
      (0x608000000000000000000004, .fragOutWin { noFields with x := 4#15 }),
      (0x60A000000000000000000000, .fragSeal noFields),
      (0x60C000000000000000000000, .fragDrop noFields),
      (0x60E000000000000000000000, .fragName noFields),
      (0x620000000000000000000000, .specOpen noFields),
      (0x622000000000000000000000, .specCommit noFields),
      (0x624000000000000000000000, .specSquash noFields),
      (0x626000000000000000000000, .specStat noFields),
      (0x628000000000000000000000, .kvStage noFields),
      (0x62A000000000000000000000, .kvCommit noFields)] = true := by decide +kernel

/-- R84: the operation codes, queues and ladders. -/
theorem test_lane_codes_queues_and_ladders :
    reads 96 [
      (0x640000000000000000000000, .qPush noFields),
      (0x642000000000000000000000, .qPop noFields),
      (0x644000000000000000000000, .qStat noFields),
      (0x660000000000000000000000, .ladEsc noFields),
      (0x662000000000000000000000, .ladRes noFields),
      (0x664000000000000000000000, .ladDoneTest noFields),
      (0x664000000000000000000001, .ladDoneOpen { noFields with x := 1#15 }),
      (0x666000000000000000000000, .ladItem noFields)] = true := by decide +kernel

/-- R84: the operation codes, reliability and system. -/
theorem test_lane_codes_reliability_and_system :
    reads 96 [
      (0x700000000000000000000000, .sigChk noFields),
      (0x702000000000000000000000, .sigRd noFields),
      (0x704000000000000000000000, .rgCkpt noFields),
      (0x706000000000000000000000, .rgStat noFields),
      (0x710000000000000000000000, .wearRd noFields),
      (0x708000000000000000000000, .csrr noFields),
      (0x70A000000000000000000000, .csrw noFields),
      (0x70C000000000000000000000, .trap noFields),
      (0x70E000000000000000000000, .tret noFields),
      (0x7E0000000000000000000000, .tramp 0#3 noFields),
      (0x7E2000000000000000000000, .tramp 1#3 noFields),
      (0x7E4000000000000000000000, .tramp 2#3 noFields),
      (0x7E6000000000000000000000, .tramp 3#3 noFields),
      (0x7E8000000000000000000000, .tramp 4#3 noFields),
      (0x7EA000000000000000000000, .tramp 5#3 noFields),
      (0x7EC000000000000000000000, .tramp 6#3 noFields),
      (0x7EE000000000000000000000, .tramp 7#3 noFields)] = true := by decide +kernel

/-- R84, R85: a code that the map does not list, at the ends of its gaps, is carried as undefined. -/
theorem test_lane_codes_unlisted :
    [0x01C, 0x026, 0x07F, 0x097, 0x09A, 0x0FF, 0x108, 0x10F, 0x118, 0x17F, 0x18B, 0x190, 0x1FF, 0x207, 0x215, 0x27F,
      0x285, 0x28B, 0x2FF, 0x308, 0x30F, 0x316, 0x31F, 0x323, 0x32F, 0x334, 0x37F, 0x389, 0x3EF, 0x3F8, 0x3FF].all
      (fun op => decide (decodeTableWord 96 (op * 2 ^ 85) = some (.undefinedLaneOpcode (BitVec.ofNat 10 op) noFields)))
      = true := by decide +kernel

/-- R65, R67: unlisted access words and listed ones with a bit set that is not theirs. -/
theorem test_access_words_unlisted :
    [0x00000001, 0x2C000000, 0x2800000F + 1, 0x1C000040, 0x54000002, 0x58000002, 0x5800000C, 0x64400000, 0xA4000001,
      0xB8000001, 0xB0200000, 0xAC000000, 0xFC000000].all
      (fun w => decide (decodeTableWord 32 w = some (.undefinedAccessWord (BitVec.ofNat 32 w)))) = true := by decide +kernel

/-- R68: words of the spec's listings, fields at values of their own. -/
theorem test_lane_words_fields : reads 96 [
    (0x90685025_84280050_01018000, .fma { noFields with
      sw := true, pm := 2#3, d := 20#8, a := ⟨9#8, 3#3, 1#5⟩, b := ⟨10#8, 0#3, 0#5⟩, c := ⟨20#8, 0#3, 0#5⟩, lr := 2#3, fmt := 3#4 }),
    (0x507C0020_00020000_00430F90, .mxStream { noFields with
      pm := 7#3, a := ⟨8#8, 0#3, 0#5⟩, b := ⟨0#8, 4#3, 0#5⟩, ib := true, fmt := 6#4, x := 0xF90#15 }),
    (0x643C2000_00000000_00018053, .qPop { noFields with pm := 7#3, d := 8#8, fmt := 3#4, x := 0x53#15 }),
    (0xE2BC0810_00000C18_00400000, .kvCommit { noFields with
      sw := true, pm := 7#3, d := 2#8, a := ⟨4#8, 0#3, 0#5⟩, b := ⟨0#8, 0#3, 3#5⟩, c := ⟨6#8, 0#3, 0#5⟩, ib := true }),
    (0x70BC0038_00207000_00400000, .csrw { noFields with
      pm := 7#3, a := ⟨14#8, 0#3, 0#5⟩, b := ⟨8#8, 0#3, 0x1C#5⟩, ib := true }),
    (0xE65C4820_00080018_00000001, .ladDoneOpen { noFields with
      sw := true, pm := 7#3, d := 18#8, a := ⟨8#8, 0#3, 0#5⟩, b := ⟨2#8, 0#3, 0#5⟩, c := ⟨6#8, 0#3, 0#5⟩, x := 1#15 }),
    (0x667C0000_00000000_00008001, .ladItem { noFields with pm := 7#3, fmt := 1#4, x := 1#15 })] = true := by decide +kernel

/-- R68: words written out field by field. -/
theorem test_lane_words_more : reads 96 [
    (0x201C6014_00000000_00018000, .cvt { noFields with pm := 7#3, d := 24#8, a := v 5#8, fmt := 3#4 }),
    (0x221C6014_00180000_00000000, .shfl { noFields with pm := 7#3, d := 24#8, a := v 5#8, b := v 6#8 }),
    (0x41BC600C_00000000_00000018, .barArrive { noFields with pm := 7#3, d := 24#8, a := v 3#8, x := 0x18#15 }),
    (0x50FC0020_00300038_00000001, .cpTile { noFields with pm := 7#3, a := v 8#8, b := v 12#8, c := v 14#8, x := 1#15 }),
    (0x515C6020_00180000_00000000, .sampArm { noFields with pm := 7#3, d := 24#8, a := v 8#8, b := v 6#8 }),
    (0xE21C6018_00000000_00000000, .specOpen { noFields with sw := true, pm := 7#3, d := 24#8, a := v 6#8 }),
    (0x711C6000_00000000_00000004, .wearRd { noFields with pm := 7#3, d := 24#8, x := 4#15 }),
    (0x11BC6014_00000000_00018000, .fexp2 { noFields with pm := 7#3, d := 24#8, a := v 5#8, fmt := 3#4 }),
    (0x40DC6008_0018001C_00010012, .atom { noFields with
      pm := 7#3, d := 24#8, a := v 2#8, b := v 6#8, c := v 7#8, fmt := 2#4, x := 0x12#15 })] = true := by decide +kernel

/-- R170: the displacements of BRA, token -4 and join 4, with its X. -/
theorem test_bra_displacements :
    (match decodeTableWord 96 0x301FFFFF_FC000001_00000009 with
      | some (.bra w) => decide (w.pm = 7#3) && decide (w.tdisp = 0x3FFFFFC#26) && decide (w.jdispBra = 4#26) && decide (w.x = 9#15)
      | _ => false) = true := by decide +kernel

/-- R267: the displacement of FRAG.CLAIM, 40, beside D and C. -/
theorem test_claim_displacement :
    (match decodeTableWord 96 0xE07C0800_00000028_00000000 with
      | some (.fragClaim w) => w.sw && decide (w.d = 2#8) && decide (w.c.code = 10#8)
      | _ => false) = true := by decide +kernel

/-- R68: the control register number of CSRR in IMM16. -/
theorem test_csrr_immediate :
    (match decodeTableWord 96 0x709C1800_00201C00_00400001 with
      | some (.csrr w) => decide (w.imm16 = 0x807#16) && w.ib && decide (w.d = 6#8) && decide (w.x = 1#15)
      | _ => false) = true := by decide +kernel

/-! ## Ill-formed words -/

/-- R135, R136, R137: an odd lane of QPOP_D and an odd register of XLATS and XLATQ. -/
theorem test_ill_formed_access :
    Instr.wf (.qpopD 0#5 false 3#5 false) = false ∧ Instr.wf (.xlats 0#5 3#5 0#16) = false ∧
    Instr.wf (.xlatq 5#5 0#3 0#18) = false ∧ Instr.wf (.qpopD 0#5 false 2#5 false) = true := by decide +kernel

/-- R67, R85: a listed word under an undefined constructor. -/
theorem test_ill_formed_undefined :
    Instr.wf (.undefinedAccessWord 0#32) = false ∧ Instr.wf (.undefinedLaneOpcode 1#10 z) = false ∧
    Instr.wf (.undefinedAccessWord 1#32) = true ∧ Instr.wf (.undefinedLaneOpcode 0x1C#10 z) = true := by decide +kernel

/-- R69: an unused field set; an immediate where none is taken; LR on an immediate; a FMT the word does not take. -/
theorem test_ill_formed_lane :
    Instr.wf (.nop z) = true ∧ Instr.wf (.nop { z with x := 1#15 }) = false ∧
    Instr.wf (.imad { z with fmt := 1#4 }) = true ∧ Instr.wf (.iabs { z with fmt := 1#4, ib := true }) = false ∧
    Instr.wf (.iadd { z with fmt := 1#4, ib := true, lr := 2#3 }) = false ∧
    Instr.wf (.iadd { z with fmt := 3#4 }) = false := by decide +kernel

end Sys2Proof.Tests
end

section
/-! PROOFS. The scalar loads and stores of the access stream (R122, R130) outside redundant groups and epochs: what a load
or a store of an aligned address leaves, and the trap of a misaligned one. -/

namespace Sys2Proof.Machine

/-! ## Loads -/

/-- A load of the access stream outside a redundant group puts the bytes at its key in sD, in a state in which its stream
has learned of them, the translation is cached and times have passed. -/
theorem loadScalar_single {n : Nat} {d a : Reg} {imm : BitVec 16} {s s' : State} {k : Nat}
    (hrun : accessRuns s.warp = true) (hrg : s.warp.rg = none) (hal : (s.warp.sget a + sext64 imm).toNat % n = 0)
    (hp : placeAccess s (aviewOf s.warp) s.warp .read (s.warp.sget a + sext64 imm) n = (.ok k, s'))
    (hpo : anyPoisoned s (keysFrom k n) = false) :
    ∃ x, loadScalar n d a imm s = .next (putS x d (BitVec.ofNat 64 (readNat s (aviewOf s.warp) .g 0 k n))) ∧
      x = { s with
        warp := { s.warp with aview := x.warp.aview }
        tlb := x.tlb, lineTimes := x.lineTimes, dieLeases := x.dieLeases, cores := x.cores } ∧ CoresTimes s.cores x.cores := by
  obtain ⟨c, hs⟩ := placeAccess_state hp
  have hw : s'.warp = s.warp := by rw [hs]
  have hclean : loadPoisoned s' s'.warp (keysFrom k n) = false := by
    unfold loadPoisoned
    rw [hw, hrg, hs]
    exact hpo
  have hbytes : readBytes s' (aviewOf s.warp) .g 0 (keysFrom k n) = readBytes s (aviewOf s.warp) .g 0 (keysFrom k n) := by
    rw [hs]; rfl
  obtain ⟨lt, dl, cs, hl, hc⟩ := readLanes_spec (aviewOf s.warp) s.warp.coreIx n
    [(⟨0, s.warp.sget a + sext64 imm, true⟩, k)] s'
  have hread := accRead_single (hw ▸ hrg : s'.warp.rg = none) n [(s.warp.sget a + sext64 imm, k)]
  simp only [List.map_cons, List.map_nil, hbytes] at hl
  simp only [List.length_singleton, List.range_one, List.zip_cons_cons, List.zip_nil_right, List.map_cons, List.map_nil, hw, hl,
    accSeen] at hread
  have hex : loadScalar n d a imm s = _ := exec_access s _ hrun
  simp only [State.s1, accPlace_read s n _ hal, hp, hclean, Bool.false_eq_true, if_false, hread] at hex
  refine ⟨_, hex, ?_, ?_⟩ <;> subst hs
  · rfl
  · exact hc

/-- R122, R130: LDS and LDSW. -/
theorem scalarLoads : Clause.ScalarLoads := by
  intro i n d a imm s s' k hi hrun hrg hal hp hpo
  have hi' : exec i s = loadScalar n d a imm s := by
    rcases hi with ⟨rfl, rfl⟩ | ⟨rfl, rfl⟩ <;> rfl
  obtain ⟨x, hex, hx, hc⟩ := loadScalar_single (d := d) hrun hrg hal hp hpo
  have hxg : x.warp.rg = none := by rw [hx]; exact hrg
  obtain ⟨hregs, -⟩ := putS_spec x d (BitVec.ofNat 64 (readNat s (aviewOf s.warp) .g 0 k n))
  refine ⟨_, hi'.trans hex, fun r => (hregs r).trans (by rw [hx]; rfl), ?_⟩
  rw [putS_single hxg, hx]
  exact ⟨rfl, rfl, ⟨rfl, ⟨fun _ _ => rfl, fun _ => ⟨rfl, rfl, rfl⟩⟩, hc⟩, fun _ => rfl⟩

/-! ## Stores -/

theorem epochOutside_none {s : State} {w : Warp} (h : w.epoch = none) (ea : DWord) (n : Nat) : epochOutside s w ea n = false := by
  simp [epochOutside, h]

theorem accPlace_write {s : State} (he : s.warp.epoch = none) {n : Nat} {ea : DWord} (h : ea.toNat % n = 0) :
    accPlace s .write n ea = placeAccess s (aviewOf s.warp) s.warp .write ea n := by
  simp [accPlace, epochOutside_none he, h]

theorem aviewOf_none {w : Warp} (h : w.epoch = none) : aviewOf w = { w.aview with epoch := none, const := false } := by
  simp [aviewOf, h]

theorem storeView_none {v : PathView} (h : v.epoch = none) (ea : DWord) : storeView v ea = v := by
  cases v
  dsimp only at h
  subst h
  exact ite_self _

/-- A store of the access stream outside a redundant group and an epoch: the bytes of sD go to their key. -/
theorem storeScalar_single {n : Nat} {d a : Reg} {imm : BitVec 16} {s s' : State} {k : Nat}
    (hrun : accessRuns s.warp = true) (hrg : s.warp.rg = none) (he : s.warp.epoch = none)
    (hal : (s.warp.sget a + sext64 imm).toNat % n = 0)
    (hp : placeAccess s (aviewOf s.warp) s.warp .write (s.warp.sget a + sext64 imm) n = (.ok k, s')) :
    storeScalar n d a imm s = .next (stepAccess (seeAccess
      (gStore s' (aviewOf s.warp) s.warp.coreIx k (toBytesLE n (s.warp.sget d).toNat) false))) := by
  have hv : (aviewOf s.warp).epoch = none := by rw [aviewOf_none he]
  have hshared : sharedAddr s.warp (s.warp.sget a + sext64 imm) = false := by simp [sharedAddr, hrg]
  have hroom : epochRoom s' (aviewOf s.warp) (keysFrom k n) = .ok := by simp [epochRoom, hv]
  have hex : storeScalar n d a imm s = _ := exec_access s _ hrun
  simpa only [State.s1, accPlace_write he hal, hp, storeView_none hv, hroom, hshared, Bool.false_eq_true, if_false] using hex

theorem stepAccess_seeAccess_single {s : State} (h : s.warp.rg = none) :
    stepAccess (seeAccess s) =
      { s with warp := { s.warp with apc := s.warp.apc + 4#64, acc := .ready, aview := s.warp.aview.atG s } } := by
  unfold stepAccess
  rw [jumpAccess_single (by exact h)]
  rfl

/-- The bytes of an aligned store on path G, ordered after every earlier write, stand at their keys. -/
theorem writeRun_bytes {n k value : Nat} {v : PathView} (hv : v.epoch = none) (hc : v.const = false) (group : Nat) (s : State)
    (hs : ∀ r ∈ s.hist, r.path = .g ∨ r.fenced.isSome = true) (hd : ((keysFrom k n).map (home s)).Nodup) {j : Nat} (hj : j < n) :
    memGet (((keysFrom k n).zip (toBytesLE n value)).foldl (fun t p => writeByte t v .g 0 group p.1 p.2) s).mem (home s (k + j)) =
      BitVec.ofNat 8 (value / 256 ^ j) := by
  have hlen : (keysFrom k n).length = (toBytesLE n value).length := by rw [keysFrom_len, toBytesLE_len]
  have hnodup : (((keysFrom k n).zip (toBytesLE n value)).map fun p => home s p.1).Nodup := by
    rwa [show (fun p : Nat × Byte => home s p.1) = home s ∘ Prod.fst from rfl, ← List.map_map, List.map_fst_zip hlen.le]
  have hmem : (k + j, BitVec.ofNat 8 (value / 256 ^ j)) ∈ (keysFrom k n).zip (toBytesLE n value) := by
    rw [List.mem_iff_getElem]
    refine ⟨j, by simp [keysFrom_len, toBytesLE_len, hj], ?_⟩
    rw [List.getElem_zip, toBytesLE_get n value j hj]
    simp [keysFrom]
  exact writeRun_get v hv hc 0 group _ s hs hnodup _ hmem

/-- R122, R130: STS and STSW. -/
theorem scalarStores : Clause.ScalarStores := by
  intro i n d a imm s s' k hi hrun hrg he hal hp
  have hi' : exec i s = storeScalar n d a imm s := by
    rcases hi with ⟨rfl, rfl⟩ | ⟨rfl, rfl⟩ <;> rfl
  have hn : n = 8 ∨ n = 4 := by rcases hi with ⟨-, rfl⟩ | ⟨-, rfl⟩ <;> simp
  have hv : aviewOf s.warp = { s.warp.aview with epoch := none, const := false } := aviewOf_none he
  obtain ⟨m, h, e, dr, p, lt, cs, c, tf, fl, hst, hframe, -, hcs, hfl, hm⟩ :=
    gStore_keeps s' (aviewOf s.warp) (by rw [hv]) s.warp.coreIx k (toBytesLE n (s.warp.sget d).toNat) false
  rw [toBytesLE_len] at hframe hm
  have hkey : k % n = 0 := placeAccess_aligned hn hp hal
  have hex := storeScalar_single (d := d) hrun hrg he hal hp
  obtain ⟨tlb, hs⟩ := placeAccess_state hp
  rw [hst, stepAccess_seeAccess_single (by rw [hs]; exact hrg)] at hex
  have hbytes : (∀ r ∈ s.hist, r.path = .g ∨ r.fenced.isSome = true) → ∀ j, j < n →
      memGet m (home s (k + j)) = BitVec.ofNat 8 ((s.warp.sget d).toNat / 256 ^ j) := by
    intro hord j hj
    have hhist : s'.hist = s.hist := by rw [hs]
    have hhome : home s' = home s := by rw [hs]; rfl
    have := writeRun_bytes (v := aviewOf s.warp) (value := (s.warp.sget d).toNat) (by rw [hv]) (by rw [hv]) (s'.serial + 1) s'
      (by rw [hhist]; exact hord) (home_nodup s' k n hn hkey) hj
    rw [← hm, hhome] at this
    exact this
  refine ⟨_, hi'.trans hex, ?_, hbytes, ?_, ?_⟩ <;> subst hs
  · exact hframe
  · rfl
  · exact ⟨rfl, hfl, hcs⟩

/-! ## Alignment -/

theorem accPlace_misaligned {s : State} {kind : AccKind} (hk : kind = .read ∨ s.warp.epoch = none) {n : Nat} {ea : DWord}
    (h : ea.toNat % n ≠ 0) : accPlace s kind n ea = (.error .align, s) := by
  rcases hk with rfl | he
  · simp only [accPlace, ne_eq, h, not_false_eq_true, if_true]; rfl
  · simp [accPlace, epochOutside_none he, h]

theorem loadScalar_misaligned {n : Nat} {d a : Reg} {imm : BitVec 16} {s : State} (hrun : accessRuns s.warp = true)
    (hal : (s.warp.sget a + sext64 imm).toNat % n ≠ 0) :
    loadScalar n d a imm s = .next (accessTrap s Code.align 0 0#16 (s.warp.sget a + sext64 imm)) := by
  refine (exec_access s _ hrun).trans ?_
  simp only [State.s1, accPlace_misaligned (.inl rfl) hal]
  rfl

theorem storeScalar_misaligned {n : Nat} {d a : Reg} {imm : BitVec 16} {s : State} (he : s.warp.epoch = none)
    (hrun : accessRuns s.warp = true) (hal : (s.warp.sget a + sext64 imm).toNat % n ≠ 0) :
    storeScalar n d a imm s = .next (accessTrap s Code.align 0 0#16 (s.warp.sget a + sext64 imm)) := by
  refine (exec_access s _ hrun).trans ?_
  simp only [State.s1, accPlace_misaligned (.inr he) hal]
  rfl

/-- R122, R123, R87: a misaligned address. -/
theorem scalarAlignment : Clause.ScalarAlignment := by
  intro i n d a imm s hi hrun hal
  rcases hi with ⟨rfl, rfl⟩ | ⟨rfl, rfl⟩ | ⟨⟨rfl, rfl⟩ | ⟨rfl, rfl⟩, he⟩
  · exact loadScalar_misaligned hrun hal
  · exact loadScalar_misaligned hrun hal
  · exact storeScalar_misaligned he hrun hal
  · exact storeScalar_misaligned he hrun hal

/-- Settles O2: its three clauses, a load, a store and a misaligned address. -/
theorem scalarAccesses : Obligations.ScalarAccesses := ⟨scalarLoads, scalarStores, scalarAlignment⟩

end Sys2Proof.Machine
end

section
/-! PROOFS. Every step keeps the canonical form of memory: what a canonical state is, bytes written, accesses placed, warps that end. -/

namespace Sys2Proof.Machine

/-! ## The canonical form as a property of a state -/

/-- The memory of a state is in its canonical form. -/
@[simp] abbrev Canon (s : State) : Prop := Memory.wf s.mem = true

theorem Canon.of_mem {s t : State} (h : Canon s) (he : t.mem = s.mem) : Canon t := by rwa [Canon, he]

/-- The state that a function answers beside a value. -/
theorem mem_of_pair {α : Type} {r : α × State} {a : α} {t : State} (h : r = (a, t)) : t.mem = r.2.mem := by rw [h]

theorem Canon.of_pair {α : Type} {r : α × State} {a : α} {t : State} (h : Canon r.2) (he : r = (a, t)) : Canon t := by
  rwa [he] at h

/-- A run of steps none of which touches memory. -/
theorem foldl_mem {α : Type} {f : State → α → State} (hf : ∀ s x, (f s x).mem = s.mem) (l : List α) (s : State) :
    (l.foldl f s).mem = s.mem := by
  induction l generalizing s with
  | nil => rfl
  | cons x t ih => exact (ih (f s x)).trans (hf s x)

/-- A run of steps that carry a value beside the state, none of which touches memory. -/
theorem foldl_snd_mem {α β : Type} {f : β × State → α → β × State} (hf : ∀ acc x, (f acc x).2.mem = acc.2.mem) (l : List α)
    (acc : β × State) : (l.foldl f acc).2.mem = acc.2.mem := by
  induction l generalizing acc with
  | nil => rfl
  | cons x t ih => exact (ih (f acc x)).trans (hf acc x)

/-- A run of steps each of which keeps the canonical form. -/
theorem foldl_canon {α : Type} {f : State → α → State} (hf : ∀ s x, Canon s → Canon (f s x)) (l : List α) {s : State}
    (h : Canon s) : Canon (l.foldl f s) := by
  induction l generalizing s with
  | nil => exact h
  | cons x t ih => exact ih (hf s x h)

/-- Bytes dropped from memory leave it in its form. -/
theorem filter_wf {m : List Host.Cell} (p : Host.Cell → Bool) (h : Memory.wf m = true) : Memory.wf (m.filter p) = true := by
  induction m with
  | nil => rfl
  | cons c t ih =>
    obtain ⟨k, b⟩ := c
    obtain ⟨hb, hk, ht⟩ := (wf_cons k b t).mp h
    by_cases hp : p (k, b) = true
    · rw [List.filter_cons_of_pos hp, wf_cons]
      exact ⟨hb, fun q hq => hk q (List.mem_filter.mp hq).1, ih ht⟩
    · rw [List.filter_cons_of_neg hp]
      exact ih ht

/-! ## The updates of one part of the state -/

@[simp] theorem modWarp_mem (s : State) (f : Warp → Warp) : (modWarp s f).mem = s.mem := rfl

@[simp] theorem modWarpId_mem (s : State) (id : Nat) (f : Warp → Warp) : (modWarpId s id f).mem = s.mem := by
  simp

@[simp] theorem modCore_mem (s : State) (k : Nat) (f : Core → Core) : (modCore s k f).mem = s.mem := rfl
@[simp] theorem modTeam_mem (s : State) (id : Nat) (f : Team → Team) : (modTeam s id f).mem = s.mem := rfl
@[simp] theorem modGrid_mem (s : State) (id : Nat) (f : Grid → Grid) : (modGrid s id f).mem = s.mem := rfl
@[simp] theorem modReq_mem (s : State) (id : Nat) (f : Request → Request) : (modReq s id f).mem = s.mem := rfl

/-! ## Bytes written, marks and times -/

@[simp] theorem poisonWord_mem (s : State) (n : Nat) : (poisonWord s n).mem = s.mem := by
  unfold poisonWord
  split <;> rfl

@[simp] theorem poisonAfterWrite_mem (s : State) (ks : List Nat) (bad : Bool) : (poisonAfterWrite s ks bad).mem = s.mem := by
  obtain ⟨p, h⟩ := poisonAfterWrite_keeps s ks bad
  rw [h]

@[simp] theorem countChip_mem (s : State) (chip : Nat) : (countChip s chip).mem = s.mem := rfl

@[simp] theorem countRemote_mem (s : State) (v : PathView) (ks : List Nat) : (countRemote s v ks).mem = s.mem := by
  obtain ⟨c, h⟩ := countRemote_keeps s v ks
  rw [h]

@[simp] theorem publish_mem (s : State) (v : PathView) : (publish s v).mem = s.mem := rfl
@[simp] theorem stampLoad_mem (s : State) (core k : Nat) : (stampLoad s core k).mem = s.mem := rfl
@[simp] theorem stampStore_mem (s : State) (core k : Nat) : (stampStore s core k).mem = s.mem := rfl
@[simp] theorem stampHome_mem (s : State) (pts : BitVec 48) (k : Nat) : (stampHome s pts k).mem = s.mem := rfl

@[simp] theorem gReads_mem (s : State) (v : PathView) (core lane : Nat) (ks : List Nat) :
    (gReads s v core lane ks).2.mem = s.mem :=
  foldl_mem (fun s k => stampLoad_mem s core k) _ _

theorem writeCommitted_canon {s : State} (v : PathView) (path : Path) (land group k : Nat) (b : Byte) (h : Canon s) :
    Canon (writeCommitted s v path land group k b) := by
  obtain ⟨m, hist, d, he, -, hm⟩ := writeCommitted_keeps s v path land group k b
  rw [Canon, he]
  exact hm h

theorem sumByte_canon {s : State} (v : PathView) (land group k : Nat) (b : Byte) (h : Canon s) :
    Canon (sumByte s v land group k b) := by
  unfold sumByte
  dsimp only
  split
  · exact memPut_wf h
  · exact h

theorem writeByte_canon {s : State} (v : PathView) (path : Path) (land group k : Nat) (b : Byte) (h : Canon s) :
    Canon (writeByte s v path land group k b) := by
  unfold writeByte
  split
  · exact writeCommitted_canon v path land group k b h
  · exact h

@[simp] theorem writeBytes_canon {s : State} (v : PathView) (path : Path) (land : Nat) (ks : List Nat) (bs : List Byte)
    (bad : Bool) (h : Canon s) : Canon (writeBytes s v path land ks bs bad) := by
  unfold writeBytes
  rw [Canon, countRemote_mem, poisonAfterWrite_mem]
  exact foldl_canon (fun _ p h => writeByte_canon v path land _ p.1 p.2 h) _ h

@[simp] theorem sumBytes_canon {s : State} (v : PathView) (land : Nat) (ks : List Nat) (bs : List Byte) (bad : Bool)
    (h : Canon s) : Canon (sumBytes s v land ks bs bad) := by
  unfold sumBytes
  rw [Canon, countRemote_mem, poisonAfterWrite_mem]
  exact foldl_canon (fun _ p h => sumByte_canon v land _ p.1 p.2 h) _ h

@[simp] theorem gWrites_canon {s : State} (v : PathView) (core : Nat) (ks : List Nat) (bs : List Byte) (bad : Bool)
    (h : Canon s) : Canon (gWrites s v core ks bs bad) :=
  foldl_canon (fun s k h => h.of_mem (stampStore_mem s core k)) _ (writeBytes_canon v .g 0 ks bs bad h)

@[simp] theorem gStore_canon {s : State} (v : PathView) (core k : Nat) (bs : List Byte) (bad : Bool) (h : Canon s) :
    Canon (gStore s v core k bs bad) :=
  writeBytes_canon v .g 0 (keysFrom k bs.length) bs bad h

@[simp] theorem putArea_canon {s : State} (k : Nat) (bs : List Byte) (h : Canon s) : Canon (putArea s k bs) := memPutList_wf h

/-! ## Placing an access -/

@[simp] theorem placePaged_mem (s : State) (v : PathView) (core ctx : Nat) (kind : AccKind) (va : DWord) :
    (placePaged s v core ctx kind va).2.mem = s.mem := by
  obtain ⟨c, h⟩ := placePaged_keeps s v core ctx kind va
  rw [h]

@[simp] theorem placeAccess_mem (s : State) (v : PathView) (w : Warp) (kind : AccKind) (va : DWord) (n : Nat) :
    (placeAccess s v w kind va n).2.mem = s.mem := by
  obtain ⟨c, h⟩ := placeAccess_keeps s v w kind va n
  rw [h]

theorem placeCuts_mem {place : DWord → Nat → State → Except AccErr Nat × State}
    (hp : ∀ va n s, (place va n s).2.mem = s.mem) (l : List (DWord × Nat)) (s : State) :
    (placeCuts place l s).2.mem = s.mem := by
  induction l generalizing s with
  | nil => rfl
  | cons p t ih => exact (ih _).trans (hp p.1 p.2 s)

@[simp] theorem placeSpan_mem (s : State) (v : PathView) (w : Warp) (kind : AccKind) (va : DWord) (n : Nat) :
    (placeSpan s v w kind va n).2.mem = s.mem := by
  obtain ⟨c, h⟩ := placeSpan_keeps s v w kind va n
  rw [h]

@[simp] theorem tableRead_mem (s : State) (v : PathView) (w : Warp) (lane : Nat) (va : DWord) (n : Nat) :
    (tableRead s v w lane va n).2.mem = s.mem := by
  obtain ⟨c, h⟩ := tableRead_keeps s v w lane va n
  rw [h]

@[simp] theorem kvAddr_mem (s : State) (v : PathView) (w : Warp) (lane seq p : Nat) :
    (kvAddr s v w lane seq p).2.mem = s.mem := by
  obtain ⟨c, h⟩ := kvAddr_keeps s v w lane seq p
  rw [h]

@[simp] theorem kvLanes_mem (v : PathView) (w : Warp) (l : List (Nat × Nat × Nat)) (seen : BlocksRead) (s : State) :
    (kvLanes v w l seen s).2.mem = s.mem := by
  obtain ⟨c, h⟩ := kvLanes_keeps v w l seen s
  rw [h]

/-! ## The issuing warp, lanes and warps that end -/

@[simp] theorem focusWarp_mem (s : State) (id : Nat) : (focusWarp s id).mem = s.mem := by
  unfold focusWarp
  split
  · rfl
  · split <;> rfl

theorem onWarp_mem {f : State → State} (hf : ∀ s, (f s).mem = s.mem) (s : State) (id : Nat) : (onWarp s id f).mem = s.mem := by
  unfold onWarp
  dsimp only
  split <;> simp [hf]

theorem onWarp_canon {f : State → State} (hf : ∀ s, Canon s → Canon (f s)) {s : State} (id : Nat) (h : Canon s) :
    Canon (onWarp s id f) := by
  unfold onWarp
  dsimp only
  split
  · rw [Canon, focusWarp_mem]
    exact hf _ (h.of_mem (focusWarp_mem s id))
  · exact h

@[simp] theorem seeSplit_mem (s : State) : (seeSplit s).mem = s.mem := rfl
@[simp] theorem seeAccess_mem (s : State) : (seeAccess s).mem = s.mem := rfl

@[simp] theorem dropItems_mem (s : State) (w : Warp) (m : LaneMask) : (dropItems s w m).mem = s.mem := by
  unfold dropItems
  split
  · rfl
  · refine foldl_mem (fun s i => ?_) _ s
    split
    · split <;> simp
    · rfl

@[simp] theorem closeFragment_mem (s : State) (id : Nat) : (closeFragment s id).mem = s.mem := by
  simp [closeFragment]

@[simp] theorem releaseGrans_canon {s : State} (sel : MapGran → Bool) (h : Canon s) : Canon (releaseGrans s sel) := by
  unfold releaseGrans
  refine foldl_canon (fun s g hs => ?_) _ h
  refine foldl_canon (fun s l hs => ?_) _ hs
  dsimp only
  rw [Canon, foldl_mem (fun _ _ => poisonWord_mem _ _)]
  exact writeBytes_canon _ _ _ _ _ _ hs

@[simp] theorem releaseTeam_canon {s : State} (team : Nat) (h : Canon s) : Canon (releaseTeam s team) :=
  releaseGrans_canon _ h

@[simp] theorem releaseRows_mem (s : State) (core warp : Nat) : (releaseRows s core warp).mem = s.mem := rfl

@[simp] theorem endTeamIfDone_canon {s : State} (w : Warp) (h : Canon s) : Canon (endTeamIfDone s w) := by
  unfold endTeamIfDone
  split
  · exact h
  · exact releaseTeam_canon w.team h

@[simp] theorem endClusterIfDone_mem (s : State) (w : Warp) : (endClusterIfDone s w).mem = s.mem := by
  unfold endClusterIfDone
  split <;> rfl

@[simp] theorem addLine_mem (s : State) (w : Warp) (status code : BitVec 8) (pc : DWord) :
    (addLine s w status code pc).mem = s.mem := by
  unfold addLine
  split <;> rfl

@[simp] theorem endWarp_canon {s : State} (id : Nat) (status code : BitVec 8) (pc : DWord) (h : Canon s) :
    Canon (endWarp s id status code pc) := by
  unfold endWarp
  split
  · exact h
  · split
    · exact h
    · rw [Canon, endClusterIfDone_mem]
      apply endTeamIfDone_canon
      split <;> simp [h]

@[simp] theorem endNormal_canon {s : State} (pc : DWord) (h : Canon s) : Canon (endNormal s pc) := by
  unfold endNormal
  split <;> simp [h]

@[simp] theorem endIfNoSplit_canon {s : State} (pc : DWord) (h : Canon s) : Canon (endIfNoSplit s pc) := by
  unfold endIfNoSplit
  split <;> simp [h]

@[simp] theorem exitLanes_canon {s : State} (m : LaneMask) (pc : DWord) (h : Canon s) : Canon (exitLanes s m pc) := by
  simp [exitLanes, h]

@[simp] theorem killLanes_canon {s : State} (m : LaneMask) (pc : DWord) (h : Canon s) : Canon (killLanes s m pc) := by
  unfold killLanes
  dsimp only
  split <;> simp [h]

end Sys2Proof.Machine
end

section
/-! PROOFS. Every step keeps the canonical form of memory: traps, fetch, retirement and the issue of a lane word. -/

namespace Sys2Proof.Machine

/-! ## Traps -/

@[simp] theorem settleBytes_mem (s : State) (ks : List Nat) : (settleBytes s ks).mem = s.mem := rfl
@[simp] theorem noteBlock_mem (s : State) (grid : Nat) (block : Option Block) (key : Nat) :
    (noteBlock s grid block key).mem = s.mem := rfl

@[simp] theorem postFault_canon {s : State} (acc : Nat) (p : Post) (h : Canon s) : Canon (postFault s acc p).2 := by
  unfold postFault
  dsimp only
  split
  · exact h
  · split
    · exact h
    · simp [h]

@[simp] theorem postFaults_canon (acc : Nat) (done : Posted) (l : List Post) {s : State} (h : Canon s) :
    Canon (postFaults acc done l s).2 := by
  induction l generalizing done s with
  | nil => exact h
  | cons p t ih =>
    have hp := postFault_canon acc p h
    unfold postFaults
    split <;> rename_i he
    · exact ih _ (hp.of_pair he)
    · exact hp.of_pair he
    · exact hp.of_pair he

@[simp] theorem placeAreas_mem (v : PathView) (l : List Nat) (s : State) : (placeAreas v l s).2.mem = s.mem := by
  induction l generalizing s with
  | nil => rfl
  | cons i t ih => exact (ih _).trans (placeAccess_mem ..)

theorem saveAreas_canon {t : TrapInfo} {v : PathView} {l : List Nat} {s u : State} (h : Canon s)
    (hu : saveAreas t v l s = .ok u) : Canon u := by
  unfold saveAreas at hu
  dsimp only at hu
  split at hu
  · cases hu
  · cases hu
    refine foldl_canon (fun s p hs => ?_) _ (h.of_mem (placeAreas_mem v l s))
    split
    · exact gStore_canon _ _ _ _ _ hs
    · exact hs

@[simp] theorem endAbnormal_canon {s : State} (code : BitVec 8) (pc : DWord) (h : Canon s) : Canon (endAbnormal s code pc) := by
  unfold endAbnormal
  split <;> simp [h]

@[simp] theorem noteMismatch_mem (s : State) : (noteMismatch s).mem = s.mem := rfl

@[simp] theorem traceWord_mem (s : State) (pc : DWord) (m : LaneMask) : (traceWord s pc m).mem = s.mem := by
  unfold traceWord
  split
  · rfl
  · split_ifs <;> simp

@[simp] theorem checkpoint_mem (s : State) : (checkpoint s).mem = s.mem := rfl

@[simp] theorem enterHandler_canon {s : State} (sp : Split) (t : TrapInfo) (first : Option Nat) (status : List Nat) (h : Canon s) :
    Canon (enterHandler s sp t first status) := by
  unfold enterHandler
  extract_lets w v entry replay
  split
  · simp [h]
  · split
    · exact h
    · split
      · simp [h]
      · extract_lets s1
        have h1 : Canon s1 := h.of_mem (traceWord_mem _ _ _)
        split
        · exact h
        · simp [h1]
        · rename_i hu
          have hu := saveAreas_canon h1 hu
          exact hu

@[simp] theorem postTrap_canon {s : State} (sp : Split) (t : TrapInfo) (done : Posted) (h : Canon s) :
    Canon (postTrap s sp t done) := by
  have hp := postFaults_canon t.kind done t.posts h
  unfold postTrap
  split
  rename_i p s1 he
  have h1 : Canon s1 := hp.of_pair he
  split
  · simp [h1]
  · split <;> simp [h1]

@[simp] theorem takeTrap_canon {s : State} (t : TrapInfo) (h : Canon s) : Canon (takeTrap s t) := by
  unfold takeTrap
  split
  · exact h
  · split_ifs <;> simp [h]

@[simp] theorem finishReturn_canon {s : State} (k : Nat) (skip : Option (SigKind × BitVec 10)) (h : Canon s) :
    Canon (finishReturn s k skip) :=
  endIfNoSplit_canon _ h

@[simp] theorem accessTrap_canon {s : State} (code : BitVec 8) (lane : Nat) (imm : BitVec 16) (faddr : DWord) (h : Canon s) :
    Canon (accessTrap s code lane imm faddr) := by
  unfold accessTrap
  dsimp only
  split <;> simp [h]

/-! ## Checkpoints -/

@[simp] theorem checkpointPlaces_mem (s : State) (w : Warp) : (checkpointPlaces s w).2.mem = s.mem :=
  placeCuts_mem (fun _ _ s => placePaged_mem s ..) _ s

@[simp] theorem writeCheckpoint_canon {s : State} (w : Warp) (h : Canon s) : Canon (writeCheckpoint s w) := by
  unfold writeCheckpoint
  refine foldl_canon (fun s p hs => ?_) _ (h.of_mem (checkpointPlaces_mem s w))
  split
  · exact putArea_canon _ _ hs
  · exact hs

@[simp] theorem afterGrant_canon {s : State} (h : Canon s) : Canon (afterGrant s) := by
  unfold afterGrant
  split <;> simp [h]

/-! ## Fetch -/

@[simp] theorem fetch4_mem (s : State) (w : Warp) (pc : DWord) : (fetch4 s w pc).2.mem = s.mem := by
  unfold fetch4
  dsimp only
  split <;> exact placeAccess_mem ..

@[simp] theorem fetchBytes_mem (w : Warp) (n : Nat) (s : State) (pc : DWord) : (fetchBytes w n s pc).2.mem = s.mem := by
  induction n generalizing s pc with
  | zero => rfl
  | succ n ih =>
    have h4 := fetch4_mem s w pc
    unfold fetchBytes
    split <;> rename_i he
    · rw [← h4, he]
    · rw [he] at h4
      split <;> rename_i he' <;> exact (mem_of_pair he').trans ((ih _ _).trans h4)

@[simp] theorem fetchLane_mem (s : State) (w : Warp) (pc : DWord) : (fetchLane s w pc).2.mem = s.mem := by
  have h := fetchBytes_mem w 3 s pc
  unfold fetchLane
  split <;> rename_i he <;> rw [he] at h <;> exact h

@[simp] theorem fetchAccess_mem (s : State) (w : Warp) (pc : DWord) : (fetchAccess s w pc).2.mem = s.mem := by
  have h := fetchBytes_mem w 1 s pc
  unfold fetchAccess
  split <;> rename_i he <;> rw [he] at h <;> exact h

/-! ## Retirement -/

@[simp] theorem enterReplay_mem (s : State) (i : Instr) (cx : Cx) (regs : List RegWrite) : (enterReplay s i cx regs).mem = s.mem := by
  obtain ⟨c, h⟩ := enterReplay_keeps s i cx regs
  rw [h]

@[simp] theorem countRg_mem (s : State) (d : Option Nat) : (countRg s d).mem = s.mem := by
  unfold countRg
  split
  · rfl
  · split
    · dsimp only
      split_ifs <;> simp
    · rfl

@[simp] theorem bumpRetired_mem (s : State) (cx : Cx) : (bumpRetired s cx).mem = s.mem := rfl

@[simp] theorem groupRetired_canon {s : State} (cx : Cx) (h : Canon s) : Canon (groupRetired s cx) := by
  unfold groupRetired
  split <;> simp [h]

@[simp] theorem countRetired_canon {s : State} (cx : Cx) (h : Canon s) : Canon (countRetired s cx) :=
  groupRetired_canon cx (h.of_mem (bumpRetired_mem s cx))

@[simp] theorem deliverMail_mem (s : State) (i : Instr) (p : Pending) : (deliverMail s i p).mem = s.mem := by
  unfold deliverMail
  split
  · split <;> simp
  · rfl

@[simp] theorem writeResults_mem (s : State) (d : Done) (queue : Bool) (regs : List RegWrite) (p : Pending) :
    (writeResults s d queue regs p).mem = s.mem := by
  obtain ⟨_, _, _, _, h⟩ := writeResults_keeps s d queue regs p
  rw [h]

@[simp] theorem retire_canon (i : Instr) (cx : Cx) (d : Done) (h : Canon d.s) : Canon (retire i cx d) := by
  simp [retire, h]

@[simp] theorem retirePart_canon (cx : Cx) (d : Done) (t : TrapInfo) (hc : Canon cx.s) (hd : Canon d.s) :
    Canon (retirePart cx d t) := by
  unfold retirePart
  split <;> simp [hc, hd]

@[simp] theorem ungrant_mem (s : State) : (ungrant s).mem = s.mem := rfl

@[simp] theorem mirrorTrap_canon (i : Instr) (cx : Cx) (d : Option Done) (t : TrapInfo) {s : State} (h : Canon s) :
    Canon (mirrorTrap i cx d t s) := by
  unfold mirrorTrap
  split
  · split
    · refine onWarp_canon (fun s hs => ?_) _ h
      dsimp only
      split
      · cases d <;> simp [hs]
      · exact hs
    · exact h
  · exact h

@[simp] theorem retireMoved_canon {s : State} (cx : Cx) (h : Canon s) : Canon (retireMoved cx s) :=
  countRetired_canon cx h

/-! ## The issue of a lane word -/

/-- A state in which the end of a body leaves the machine has its memory in its form. -/
@[simp] def LaneRes.canon : LaneRes → Prop
  | .done d => Canon d.s
  | .trap _ => True
  | .part d _ => Canon d.s
  | .hold s => Canon s
  | .moved s => Canon s

/-- A state in which the checks of a lane word leave the machine has its memory in its form. -/
def Issue.canon : Issue → Prop
  | .noSplit => True
  | .stop s => Canon s
  | .go cx => Canon cx.s

/-- A state that a move answers has its memory in its form. -/
@[simp] def CanonResult : Result → Prop
  | .next t => Canon t
  | .fault _ => True
  | .refused _ => True

theorem Issue.canon_ite {c : Prop} [Decidable c] {a b : Issue} (ha : a.canon) (hb : b.canon) : (if c then a else b).canon := by
  split
  · exact ha
  · exact hb

theorem laneIssue_canon (i : Instr) (o : LaneOpts) {s : State} (h : Canon s) : (laneIssue i o s).canon := by
  have trap : ∀ t, (Issue.stop (takeTrap s t)).canon := fun t => takeTrap_canon t h
  have killed : ∀ die pc, Canon (killLanes s die pc) := fun die pc => killLanes_canon die pc h
  unfold laneIssue
  split
  · trivial
  · trivial
  · refine Issue.canon_ite (trap _) (Issue.canon_ite (trap _) (Issue.canon_ite ?_ (Issue.canon_ite h
      (Issue.canon_ite (trap _) (Issue.canon_ite (trap _) ?_)))))
    · unfold Issue.canon
      dsimp only
      split <;> exact h
    · split
      · exact trap _
      · refine Issue.canon_ite (trap _) (Issue.canon_ite h (Issue.canon_ite (Issue.canon_ite h ?_) (Issue.canon_ite h h)))
        dsimp only
        split
        · exact killed _ _
        · exact Issue.canon_ite (killed _ _) (killed _ _)

@[simp] theorem finish_canon (i : Instr) (cx : Cx) {r : LaneRes} (hc : Canon cx.s) (hr : r.canon) : Canon (finish i cx r) := by
  cases r with
  | done d => exact retire_canon i cx d hr
  | trap t => simp [finish, hc]
  | part d t =>
    have hd : Canon d.s := hr
    simp [finish, hc, hd]
  | hold s => exact hr
  | moved s => exact retireMoved_canon cx hr

theorem takeMail_canon (i : Instr) {cx : Cx} (h : Canon cx.s) : Canon (takeMail i cx) := by
  unfold takeMail
  split
  · split <;> simp [h]
  · exact h

/-- A lane word keeps the canonical form where its body does. -/
theorem laneWord_canon {i : Instr} {o : LaneOpts} {body : Cx → LaneRes} (hb : ∀ cx, Canon cx.s → (body cx).canon) {s : State}
    (h : Canon s) : CanonResult (laneWord i o body s) := by
  have hi := laneIssue_canon i (mailOpts i o s) h
  unfold laneWord
  split <;> rename_i he <;> rw [he] at hi
  · trivial
  · exact hi
  · split_ifs
    · exact takeMail_canon i hi
    · exact retire_canon i _ _ hi
    · exact finish_canon i _ hi (hb _ hi)

end Sys2Proof.Machine
end

section
/-! PROOFS. Every step keeps the canonical form of memory: words of the lane stream over registers, control and memory. -/

namespace Sys2Proof.Machine

/-! ## Results of compute words -/

@[simp] theorem Cx.put_canon (cx : Cx) (tag : FmtTag) (g : Nat → Word) (h : Canon cx.s) : (cx.put tag g).canon := h

theorem laneMap_canon (i : Instr) (g : Cx → Nat → Word) {s : State} (h : Canon s) : CanonResult (laneMap i g s) :=
  laneWord_canon (fun cx hc => cx.put_canon _ _ hc) h

/-! ## Control words, LMARK (R22) -/

theorem controlWord_canon (i : Instr) (after : Cx → Warp) {s : State} (h : Canon s) : CanonResult (controlWord i after s) :=
  laneWord_canon (body := fun cx => .moved { cx.s with warp := after cx }) (fun _ hc => hc) h

@[simp] theorem fetchCheck_mem (w : Warp) (s : State) (t : DWord) : (fetchCheck w s t).2.mem = s.mem := by
  have h := fetchLane_mem s w t
  unfold fetchCheck
  split
  · rfl
  · split <;> rename_i he <;> rw [he] at h <;> exact h

@[simp] theorem targetErrors_mem (w : Warp) (t : Nat → DWord) (l : List Nat) (s : State) :
    (targetErrors w t l s).2.mem = s.mem := by
  induction l generalizing s with
  | nil => rfl
  | cons i rest ih => exact (ih _).trans (fetchCheck_mem ..)

theorem targetWord_canon (i : Instr) (o : LaneOpts) (after : Cx → Warp) {s : State} (h : Canon s) :
    CanonResult (targetWord i o after s) := by
  refine laneWord_canon (fun cx hc => ?_) h
  have ht := hc.of_mem (targetErrors_mem cx.s.warp cx.pairA (LaneMask.lanes cx.sp.mask) cx.s)
  dsimp only
  split
  · exact takeTrap_canon _ ht
  · exact ht

theorem execExit_canon (w : Strip) {s : State} (h : Canon s) : CanonResult (execExit w s) := by
  refine laneWord_canon (fun cx hc => ?_) h
  dsimp only
  split
  · exact hc
  · exact groupRetired_canon _ (exitLanes_canon _ _ hc)

theorem execLmark_canon (w : Strip) {s : State} (h : Canon s) : CanonResult (execLmark w s) := by
  refine laneWord_canon (fun cx hc => ?_) h
  split <;> exact hc

/-- A word that waited is fetched again and runs. -/
theorem resumeWord_canon {run : Instr → State → Option Result}
    (hr : ∀ i s r, Canon s → run i s = some r → CanonResult r) {s : State} (b : Bool) (h : Canon s) :
    Canon (resumeWord s b run) := by
  unfold resumeWord
  split
  · exact h
  · rename_i sp _
    extract_lets src s1
    have hf : Canon (fetchLane s1 s1.warp sp.pc).2 := h.of_mem (fetchLane_mem ..)
    split <;> rename_i he
    · have hf := hf.of_pair he
      split
      · rename_i ht
        exact hr _ _ _ hf ht
      · exact hf
    · have hf := hf.of_pair he
      exact hf

theorem runLmark_canon (i : Instr) (s : State) (r : Result) (h : Canon s) (hr : runLmark i s = some r) : CanonResult r := by
  unfold runLmark at hr
  split at hr
  · cases hr
    exact execLmark_canon _ h
  · cases hr

theorem execLmarkRetire_canon {s : State} (h : Canon s) : CanonResult (execLmarkRetire s) := by
  have go : ∀ (b : Bool) (s : State), Canon s →
      Canon (if slotWaits s b (· == .lmark) && lmarkReady s.warp then resumeWord s b runLmark else s) := by
    intro b s hs
    split
    · exact resumeWord_canon runLmark_canon b hs
    · exact hs
  exact go true _ (go false s h)

@[simp] theorem rotateOut_mem (s : State) (b : Bool) : (rotateOut s b).mem = s.mem := by
  unfold rotateOut
  split <;> rfl

theorem execQuantumRotation_canon {s : State} (h : Canon s) : CanonResult (execQuantumRotation s) := by
  unfold execQuantumRotation
  dsimp only
  split_ifs <;> simp [h]

/-! ## Control registers -/

@[simp] theorem spGrans_mem (w : Warp) (v : PathView) (va : DWord) (n : Nat) (s : State) : (spGrans w v va n s).2.mem = s.mem := by
  induction n generalizing va s with
  | zero => rfl
  | succ n ih => exact (ih _ _).trans (placePaged_mem ..)

@[simp] theorem spPlace_mem (w : Warp) (v : PathView) (va : DWord) (n : Nat) (s : State) : (spPlace w v va n s).2.mem = s.mem :=
  spGrans_mem w v va n s

@[simp] theorem spLoad_canon {s : State} (phys scr : Nat) (h : Canon s) : Canon (spLoad s phys scr) := by
  unfold spLoad
  dsimp only
  rw [Canon, foldl_mem (fun _ _ => poisonWord_mem _ _)]
  exact writeBytes_canon _ _ _ _ _ _ h

@[simp] theorem spmapPut_canon {s : State} (w : Warp) (v : PathView) (k : Nat) (x : DWord) (h : Canon s) :
    Canon (spmapPut s w v k x).2 := by
  unfold spmapPut
  split
  · exact h
  · rename_i t _
    extract_lets old s1 off set others
    have h1 : Canon s1 := by
      unfold s1
      split <;> simp [h]
    have hset : ∀ s y, Canon s → Canon (set s y) := fun s y hs => hs
    clear_value s1
    split
    · exact hset _ _ h1
    · split
      · exact hset _ _ h1
      · split
        · exact hset _ _ h1
        · have hp := (hset s1 off h1).of_mem (spPlace_mem w v (spBaseVa x) (spSize x / 4096) (set s1 off))
          split <;> rename_i he <;> have hp := hp.of_pair he
          · exact hp
          · refine hset _ _ ?_
            show Canon (if x.getLsbD 4 then _ else _)
            split
            · exact foldl_canon (fun s p hs => spLoad_canon _ _ hs) _ hp
            · exact hp

@[simp] theorem csrPut_canon {s : State} (v : PathView) (ts : Option Nat) (n : Nat) (x : DWord) (h : Canon s) :
    Canon (csrPut s v ts n x).2 := by
  unfold csrPut
  split_ifs
  · exact h
  · exact spmapPut_canon _ _ _ _ h
  · exact h
  · exact h
  · exact h

theorem execSpmapWrite_canon (k : BitVec 3) (v : DWord) {s : State} (h : Canon s) : CanonResult (execSpmapWrite k v s) := by
  have hp := csrPut_canon (PathView.start (2 * s.warp.id) s.serial) none (0x810 + k.toNat) v h
  unfold execSpmapWrite
  split <;> rename_i he
  · exact hp.of_pair he
  · exact accessTrap_canon _ _ _ _ (hp.of_pair he)

theorem execInvpgWrite_canon (va : DWord) {s : State} (h : Canon s) : CanonResult (execInvpgWrite va s) :=
  csrPut_canon _ _ _ _ h

theorem execRginjWrite_canon (v : DWord) {s : State} (h : Canon s) : CanonResult (execRginjWrite v s) :=
  csrPut_canon _ _ _ _ h

/-! ## The exchange of a redundant group -/

theorem fwdPush_mem {s t : State} {w : Warp} {p : Pairing} {ks : List Nat} {bs : List Byte}
    (h : fwdPush s w p ks bs = .ok t) : t.mem = s.mem := by
  unfold fwdPush at h
  split at h
  · cases h; rfl
  · split at h <;> cases h
    rfl

theorem fwdTake_mem {s t : State} {w : Warp} {p : Pairing} {ks : List Nat} {bs : List Byte}
    (h : fwdTake s w p ks = .ok (bs, t)) : t.mem = s.mem := by
  unfold fwdTake at h
  split at h
  · cases h
  · split at h
    · cases h
    · split at h <;> cases h
      rfl

@[simp] theorem commitEntry_canon {s : State} (w : Warp) (e : CmpEntry) (h : Canon s) : Canon (commitEntry s w e) := by
  unfold commitEntry
  extract_lets own paged sp twin src v put
  have hput : ∀ s v l, Canon s → Canon (put s v l) := by
    intro s v l hs
    unfold put
    split
    · exact hs
    · exact writeBytes_canon _ _ _ _ _ _ hs
  exact hput _ _ _ (hput _ _ _ (hput _ _ _ h))

theorem heldPush_canon {s t : State} {w : Warp} {p : Pairing} {bytes : List (Nat × Byte)} {poison : List Nat} (h : Canon s)
    (ht : heldPush s w p bytes poison = .ok t) : Canon t := by
  unfold heldPush at ht
  split at ht
  · cases ht; exact h
  · split at ht
    · cases ht
      exact commitEntry_canon _ _ h
    · split at ht <;> cases ht
      exact h

theorem heldCompare_mem {s t : State} {w : Warp} {p : Pairing} {bytes : List (Nat × Byte)}
    (h : heldCompare s w p bytes = .ok t) : t.mem = s.mem := by
  unfold heldCompare at h
  split at h
  · cases h
  · split at h
    · cases h; rfl
    · split at h
      · cases h
      · split at h <;> cases h
        rfl

/-! ## Lane loads and stores -/

@[simp] theorem placeLanes_mem (v : PathView) (w : Warp) (kind : AccKind) (n : Nat) (l : List LaneAcc) (s : State) :
    (placeLanes v w kind n l s).2.mem = s.mem := by
  induction l generalizing s with
  | nil => rfl
  | cons x t ih => exact (ih _).trans (placeAccess_mem ..)

@[simp] theorem withTrap_canon (d : Done) (t : Option TrapInfo) (h : Canon d.s) : (withTrap d t).canon := by
  cases t <;> exact h

@[simp] theorem readLanes_mem (v : PathView) (core n : Nat) (l : List (LaneAcc × Nat)) (s : State) :
    (readLanes v core n l s).2.mem = s.mem := by
  obtain ⟨_, _, _, h, -⟩ := readLanes_spec v core n l s
  rw [h]

@[simp] theorem afterLoads_mem (s : State) (ks : List Nat) (bs : List Byte) : (afterLoads s ks bs).mem = s.mem := by
  unfold afterLoads
  split <;> rfl

@[simp] theorem afterStores_mem {α : Type} (s : State) (l : List α) : (afterStores s l).mem = s.mem := by
  unfold afterStores
  split <;> rfl

theorem loadBytes_mem {cx : Cx} {v : PathView} {n : Nat} {s t : State} {ok : List (LaneAcc × Nat)} {bs : List (List Byte)}
    (h : loadBytes cx v n s ok = .ok (bs, t)) : t.mem = s.mem := by
  unfold loadBytes at h
  extract_lets w own shared lead keys merge at h
  split at h
  · split at h
    rename_i he
    have hown := (mem_of_pair he).trans (readLanes_mem ..)
    split at h
    · split at h
      · rename_i ht
        cases h
        exact (fwdTake_mem ht).trans hown
      · cases h
      · cases h
    · split at h
      rename_i he'
      have hsh := ((mem_of_pair he').trans (readLanes_mem ..)).trans hown
      dsimp only at h
      split at h
      · rename_i ht
        cases h
        exact (fwdPush_mem ht).trans hsh
      · cases h
      · cases h
  · injection h with h
    exact (mem_of_pair h).trans (readLanes_mem ..)

theorem loadBody_canon (n : Nat) (sx const : Bool) (accs : Cx → List LaneAcc) (pair : Bool) (cx : Cx) (h : Canon cx.s) :
    (loadBody n sx const accs pair cx).canon := by
  unfold loadBody
  dsimp only
  split
  · trivial
  · split
    · exact h
    · exact h
    · rename_i he
      refine withTrap_canon _ _ ?_
      exact h.of_mem ((afterLoads_mem ..).trans ((loadBytes_mem he).trans (placeLanes_mem ..)))

theorem loadWord_canon (i : Instr) (w : Strip) (const scratch : Bool) (accs : Cx → List LaneAcc) {s : State} (h : Canon s) :
    CanonResult (loadWord i w const scratch accs s) :=
  laneWord_canon (loadBody_canon _ _ _ _ _) h

@[simp] theorem writeLanes_canon (v : PathView) (core : Nat) (data : Nat → List Byte) (bad : Nat → Bool)
    (l : List (LaneAcc × Nat)) {s : State} (h : Canon s) : Canon (writeLanes v core data bad l s) := by
  induction l generalizing s with
  | nil => exact h
  | cons p t ih => exact ih (gStore_canon _ _ _ _ _ h)

@[simp] theorem markWritten_mem (s : State) (sp : Split) (n : Nat) (l : List LaneAcc) : (markWritten s sp n l).mem = s.mem := by
  unfold markWritten
  split <;> rfl

theorem storeLanes_canon {cx : Cx} {data : Nat → List Byte} {bad : Nat → Bool} {s t : State} {ok : List (LaneAcc × Nat)}
    (h : Canon s) (ht : storeLanes cx data bad s ok = .ok t) : Canon t := by
  unfold storeLanes at ht
  extract_lets w own shared s' lead bytes at ht
  have hw : Canon s' := writeLanes_canon _ _ _ _ _ h
  clear_value s'
  split at ht
  · cases ht; exact hw
  · split at ht
    · exact hw.of_mem (heldCompare_mem ht)
    · exact heldPush_canon hw ht

@[simp] theorem bufferStall_canon (cx : Cx) (h : Canon cx.s) : (bufferStall cx).canon := by
  unfold bufferStall LaneRes.canon
  dsimp only
  split <;> exact h

theorem storeBody_canon (n : Nat) (accs : Cx → List LaneAcc) (cx : Cx) (h : Canon cx.s) : (storeBody n accs cx).canon := by
  unfold storeBody
  dsimp only
  split
  · trivial
  · split
    · exact h
    · trivial
    · split
      · exact bufferStall_canon cx h
      · exact h
      · rename_i he
        have hs := storeLanes_canon (h.of_mem (placeLanes_mem ..)) he
        exact withTrap_canon _ _ (hs.of_mem ((markWritten_mem ..).trans (afterStores_mem ..)))

theorem storeWord_canon (i : Instr) (w : Strip) (pair : Bool) (accs : Cx → List LaneAcc) {s : State} (h : Canon s) :
    CanonResult (storeWord i w pair accs s) :=
  laneWord_canon (storeBody_canon _ _) h

/-! ## Atomics, fences and translation -/

@[simp] theorem placeRmw_mem (v : PathView) (w : Warp) (n : Nat) (l : List LaneAcc) (s : State) :
    (placeRmw v w n l s).2.mem = s.mem :=
  (placeLanes_mem ..).trans (placeLanes_mem ..)

@[simp] theorem atomRun_canon (v : PathView) (core aop : Nat) (c : Nat → Word) (l : List (Nat × DWord × List Nat)) {s : State}
    (h : Canon s) : Canon (atomRun v core aop c l s).2 := by
  induction l generalizing s with
  | nil => exact h
  | cons p t ih => exact ih (gStore_canon _ _ _ _ _ h)

theorem atomBody_canon (ret : Bool) (cx : Cx) (h : Canon cx.s) : (atomBody ret cx).canon := by
  unfold atomBody
  dsimp only
  split
  · trivial
  · split
    · exact h
    · trivial
    · refine withTrap_canon _ _ (Canon.of_mem ?_ ((markWritten_mem ..).trans (afterStores_mem ..)))
      exact atomRun_canon _ _ _ _ _ (h.of_mem (placeRmw_mem ..))

@[simp] theorem casRun_canon (cx : Cx) (n : Nat) (l : List (LaneAcc × Nat)) {s : State} (h : Canon s) :
    Canon (casRun cx n l s).2 := by
  induction l generalizing s with
  | nil => exact h
  | cons p t ih =>
    refine ih ?_
    split
    · exact (gStore_canon _ _ _ _ _ h).of_mem (markWritten_mem ..)
    · exact h

theorem execCas_canon (w : Strip) {s : State} (h : Canon s) : CanonResult (execCas w s) := by
  refine laneWord_canon (fun cx hc => ?_) h
  dsimp only
  split
  · trivial
  · split
    · exact hc
    · trivial
    · refine withTrap_canon _ _ (Canon.of_mem ?_ (afterStores_mem ..))
      exact casRun_canon cx _ _ (hc.of_mem (placeRmw_mem ..))

@[simp] theorem fenceRecord_canon {s : State} (ser : Nat) (hit : WriteRec → Bool) (h : Canon s) :
    Canon (fenceRecord s ser hit) := by
  unfold fenceRecord
  dsimp only
  split
  · exact h
  · split
    · exact memPut_wf h
    · exact h

@[simp] theorem fenceAll_canon {s : State} (pick : WriteRec → Bool) (h : Canon s) : Canon (fenceAll s pick) :=
  foldl_canon (fun _ _ hs => fenceRecord_canon _ _ hs) _ h

@[simp] theorem fenceIntoG_canon {s : State} (v : PathView) (p : Path) (h : Canon s) : Canon (fenceIntoG s v p) :=
  fenceAll_canon _ h

@[simp] theorem fenceCross_canon {s : State} (v : PathView) (e l : Path) (h : Canon s) : Canon (fenceCross s v e l).1 := by
  unfold fenceCross
  split_ifs <;> simp [h]

theorem execFenceX_canon (w : Strip) {s : State} (h : Canon s) : CanonResult (execFenceX w s) := by
  refine laneWord_canon (fun cx hc => ?_) h
  exact fenceCross_canon cx.sp.view _ _ hc

theorem execPrefetch_canon (w : Strip) {s : State} (h : Canon s) : CanonResult (execPrefetch w s) := by
  refine laneWord_canon (fun cx hc => ?_) h
  refine hc.of_mem (foldl_mem (fun s x => ?_) _ _)
  have hp := placeAccess_mem s cx.view s.warp .read x.ea 1
  split <;> rename_i he <;> rw [he] at hp
  · split <;> exact hp
  · exact hp

@[simp] theorem xlatLanes_mem (cx : Cx) (v : PathView) (l : List Nat) (s : State) : (xlatLanes cx v l s).2.mem = s.mem :=
  kvLanes_mem ..

theorem xlatEnd_canon (cx : Cx) (nt : Bool) (l : List (Nat × KvRes)) (trap : Option TrapInfo) {s : State} (h : Canon s) :
    (xlatEnd cx nt l trap s).canon := by
  unfold xlatEnd
  extract_lets d
  have hd : ∀ s, Canon s → (withTrap (d s) trap).canon := fun s hs => withTrap_canon _ _ hs
  split
  · split
    · exact endAbnormal_canon _ _ h
    · have hp := postFaults_canon 4 Posted.none
        (blockPosts (((xlatUnmapped l).map (·.2)).filter fun x => !cx.sp.noted.contains x.2)) h
      split
      rename_i he
      have hp := hp.of_pair he
      split
      · exact endAbnormal_canon _ _ hp
      · split
        · exact hd _ hp
        · exact hp
  · exact hd s h

theorem execXlat_canon (w : Strip) {s : State} (h : Canon s) : CanonResult (execXlat w s) :=
  laneWord_canon (fun _ hc => xlatEnd_canon _ _ _ _ (hc.of_mem (xlatLanes_mem ..))) h

theorem execXlatRp_canon (w : Strip) {s : State} (h : Canon s) : CanonResult (execXlatRp w s) := by
  refine laneWord_canon (fun cx hc => ?_) h
  dsimp only
  split
  · exact hc
  · exact xlatEnd_canon _ _ _ _ (hc.of_mem (xlatLanes_mem ..))

end Sys2Proof.Machine
end

section
/-! PROOFS. Every step keeps the canonical form of memory: the access stream, barrier objects and the logit filter. -/

namespace Sys2Proof.Machine

/-! ## The access stream -/

theorem accessWord_canon {body : State → State} {s : State} (hb : Canon s → Canon (body s)) (h : Canon s) :
    CanonResult (accessWord body s) := by
  unfold accessWord
  split
  · exact hb h
  · trivial

@[simp] theorem groupAccess_canon {s : State} (h : Canon s) : Canon (groupAccess s) := by
  unfold groupAccess
  split
  · exact h
  · dsimp only
    split
    · exact afterGrant_canon h
    · exact h

@[simp] theorem jumpAccess_canon {s : State} (pc : DWord) (h : Canon s) : Canon (jumpAccess s pc) := groupAccess_canon h
@[simp] theorem stepAccess_canon {s : State} (h : Canon s) : Canon (stepAccess s) := jumpAccess_canon _ h
@[simp] theorem putS_canon {s : State} (d : Reg) (v : DWord) (h : Canon s) : Canon (putS s d v) := stepAccess_canon h
@[simp] theorem countAcc_mem (s : State) : (countAcc s).mem = s.mem := rfl
@[simp] theorem pushQueue_mem (s : State) (q : BitVec 3) (e : QEntry) : (pushQueue s q e).mem = s.mem := rfl

@[simp] theorem accessPoison_canon {s : State} (h : Canon s) : Canon (accessPoison s) := by
  unfold accessPoison
  split <;> simp [h]

theorem immOp_canon (d a : Reg) (f : DWord → DWord) {s : State} (h : Canon s) : CanonResult (immOp d a f s) :=
  accessWord_canon (putS_canon _ _) h

theorem regOp_canon (d a b : Reg) (f : DWord → DWord → DWord) {s : State} (h : Canon s) : CanonResult (regOp d a b f s) :=
  accessWord_canon (putS_canon _ _) h

theorem branchOp_canon (a b : Reg) (off : BitVec 16) (f : DWord → DWord → Bool) {s : State} (h : Canon s) :
    CanonResult (branchOp a b off f s) := by
  refine accessWord_canon (fun h => ?_) h
  split <;> simp [h]

@[simp] theorem accPlace_mem (s : State) (kind : AccKind) (n : Nat) (ea : DWord) : (accPlace s kind n ea).2.mem = s.mem := by
  unfold accPlace
  dsimp only
  split
  · rfl
  · split
    · rfl
    · exact placeAccess_mem ..

@[simp] theorem accFail_canon {s : State} (e : AccErr) (lane : Nat) (ea : DWord) (h : Canon s) : Canon (accFail s e lane ea) :=
  accessTrap_canon _ _ _ _ h

theorem accReadRaw_mem {s t : State} {n : Nat} {l : List (DWord × Nat)} {bs : List (List Byte)}
    (h : accReadRaw s n l = .ok (bs, t)) : t.mem = s.mem := by
  unfold accReadRaw at h
  extract_lets w v accs keys at h
  split at h
  · split at h
    · split at h
      · rename_i ht
        cases h
        have ht := fwdTake_mem ht
        exact ht
      · cases h
      · cases h
    · split at h
      rename_i he
      dsimp only at h
      split at h
      · rename_i ht
        cases h
        have ht := (fwdPush_mem ht).trans ((mem_of_pair he).trans (readLanes_mem ..))
        exact ht
      · cases h
      · cases h
  · injection h with h
    exact (mem_of_pair h).trans (readLanes_mem ..)

theorem accRead_mem {s t : State} {n : Nat} {l : List (DWord × Nat)} {bs : List (List Byte)}
    (h : accRead s n l = .ok (bs, t)) : t.mem = s.mem := by
  unfold accRead accSeen at h
  split at h
  · rename_i he
    cases h
    have ht := accReadRaw_mem he
    exact ht
  · exact accReadRaw_mem h

theorem loadScalar_canon (n : Nat) (d a : Reg) (imm : BitVec 16) {s : State} (h : Canon s) :
    CanonResult (loadScalar n d a imm s) := by
  refine accessWord_canon (fun h => ?_) h
  dsimp only
  have hp := h.of_mem (accPlace_mem s .read n (s.s1 a + sext64 imm))
  split <;> rename_i he <;> have hp := hp.of_pair he
  · exact accFail_canon _ _ _ hp
  · split
    · exact accessPoison_canon hp
    · split
      · rename_i hr
        exact putS_canon _ _ (hp.of_mem (accRead_mem hr))
      · exact h
      · exact h

theorem storeScalar_canon (n : Nat) (d a : Reg) (imm : BitVec 16) {s : State} (h : Canon s) :
    CanonResult (storeScalar n d a imm s) := by
  refine accessWord_canon (fun h => ?_) h
  dsimp only
  have hp := h.of_mem (accPlace_mem s .write n (s.s1 a + sext64 imm))
  split <;> rename_i he <;> have hp := hp.of_pair he
  · exact accFail_canon _ _ _ hp
  · split
    · exact h
    · exact accFail_canon _ _ _ hp
    · split
      · split
        · rename_i hr
          refine stepAccess_canon (Canon.of_mem ?_ ((seeAccess_mem _).trans (countAcc_mem _)))
          split at hr
          · exact hp.of_mem (heldCompare_mem hr)
          · exact heldPush_canon hp hr
        · split <;> exact h
        · exact h
      · refine stepAccess_canon (Canon.of_mem ?_ (seeAccess_mem _))
        exact gStore_canon _ _ _ _ _ hp

theorem prefetchScalar_canon (l1 : Bool) (a : Reg) (imm : BitVec 16) {s : State} (h : Canon s) :
    CanonResult (prefetchScalar l1 a imm s) := by
  refine accessWord_canon (fun h => ?_) h
  have hp := h.of_mem (placeAccess_mem s (aviewOf s.warp) s.warp .read (s.s1 a + sext64 imm) 1)
  split <;> rename_i he <;> have hp := hp.of_pair he
  · refine stepAccess_canon ?_
    split <;> exact hp
  · exact stepAccess_canon hp

@[simp] theorem accPlaces_mem (n : Nat) (l : List (Nat × DWord)) (s : State) : (accPlaces n l s).2.mem = s.mem := by
  induction l generalizing s with
  | nil => rfl
  | cons p t ih => exact (ih _).trans (accPlace_mem s .read n p.2)

theorem execLdq_canon (a : Reg) (q : BitVec 3) (stride : BitVec 18) {s : State} (h : Canon s) :
    CanonResult (execLdq a q stride s) := by
  refine accessWord_canon (fun h => ?_) h
  split
  · exact h
  · dsimp only
    have hp := h.of_mem (accPlaces_mem 4 (laneIds.map fun i => (i, s.s1 a + BitVec.ofNat 64 i * sext64 stride)) s)
    split
    · exact accFail_canon _ _ _ hp
    · split
      · rename_i hr
        have ht := hp.of_mem (accRead_mem hr)
        exact stepAccess_canon ht
      · exact h
      · exact h

theorem execQpush_canon (a : Reg) (q : BitVec 3) (hi : Bool) {s : State} (h : Canon s) : CanonResult (execQpush a q hi s) := by
  refine accessWord_canon (fun h => ?_) h
  split
  · exact h
  · exact stepAccess_canon h

theorem popBack_canon (d : Reg) (bq peek : Bool) (lanes : List Nat) (f : BEntry → DWord) {s : State} (h : Canon s) :
    CanonResult (popBack d bq peek lanes f s) := by
  refine accessWord_canon (fun h => ?_) h
  dsimp only
  split
  · exact h
  · split
    · exact accessPoison_canon h
    · refine putS_canon _ _ ?_
      split <;> exact h

theorem execQpopD_canon (d : Reg) (bq : Bool) (lane : BitVec 5) (peek : Bool) {s : State} (h : Canon s) :
    CanonResult (execQpopD d bq lane peek s) := by
  unfold execQpopD
  split
  · exact accessWord_canon (accessTrap_canon _ _ _ _) h
  · exact popBack_canon _ _ _ _ _ h

theorem execXlats_canon (d a : Reg) (imm : BitVec 16) {s : State} (h : Canon s) : CanonResult (execXlats d a imm s) := by
  refine accessWord_canon (fun h => ?_) h
  split
  · exact accessTrap_canon _ _ _ _ h
  · have hp := h.of_mem (kvAddr_mem s (aviewOf s.warp) s.warp 0 (s.s1 a).toNat (s.s1 (regNext a)).toNat)
    split <;> rename_i he <;> have hp := hp.of_pair he
    · exact accessPoison_canon hp
    · exact putS_canon _ _ hp
    · exact accessTrap_canon _ _ _ _ hp
    · exact accFail_canon _ _ _ hp

theorem execXlatq_canon (a : Reg) (q : BitVec 3) (stride : BitVec 18) {s : State} (h : Canon s) :
    CanonResult (execXlatq a q stride s) := by
  refine accessWord_canon (fun h => ?_) h
  split
  · exact accessTrap_canon _ _ _ _ h
  · split
    · exact h
    · dsimp only
      have hp := h.of_mem (kvLanes_mem (aviewOf s.warp) s.warp (laneIds.map fun i => (i, (s.s1 a).toNat,
        (s.s1 (regNext a) + BitVec.ofNat 64 i * sext64 stride).toNat)) [] s)
      split
      · exact accFail_canon _ _ _ hp
      · refine stepAccess_canon ?_
        rw [Canon, pushQueue_mem]
        exact hp

theorem execLstart_canon (a : Reg) {s : State} (h : Canon s) : CanonResult (execLstart a s) := by
  refine accessWord_canon (fun h => ?_) h
  dsimp only
  split
  · exact accessTrap_canon _ _ _ _ h
  · split
    · exact accessTrap_canon _ _ _ _ h
    · have hs : Canon (stepAccess (modWarp s fun w => { w with lstarted := true, watch := s.cycle })) := stepAccess_canon h
      split
      · exact endNormal_canon _ hs
      · exact hs

@[simp] theorem finishLwait_canon {s : State} (n : Word) (h : Canon s) : Canon (finishLwait s n) := stepAccess_canon h

theorem execLwait_canon (a : Reg) (imm : BitVec 16) {s : State} (h : Canon s) : CanonResult (execLwait a imm s) := by
  refine accessWord_canon (fun h => ?_) h
  dsimp only
  split
  · exact finishLwait_canon _ h
  · exact h

theorem execLwaitComplete_canon {s : State} (h : Canon s) : CanonResult (execLwaitComplete s) := by
  unfold execLwaitComplete
  split
  · show Canon _
    split
    · exact finishLwait_canon _ h
    · exact h
  · exact h

theorem execHalts_canon {s : State} (h : Canon s) : CanonResult (execHalts s) := by
  refine accessWord_canon (fun h => ?_) h
  split
  · exact groupAccess_canon h
  · exact endNormal_canon _ (groupAccess_canon h)

theorem execYields_canon (imm : BitVec 16) {s : State} (h : Canon s) : CanonResult (execYields imm s) := by
  refine accessWord_canon (fun h => ?_) h
  exact stepAccess_canon h

theorem execYieldsExpire_canon {s : State} (h : Canon s) : CanonResult (execYieldsExpire s) := by
  unfold execYieldsExpire
  split
  · show Canon _
    split <;> exact h
  · exact h

@[simp] theorem pumpServed_mem (s : State) (id : Nat) : (pumpServed s id).mem = s.mem := rfl

theorem execCsrrs_canon (d : Reg) (csr : BitVec 16) {s : State} (h : Canon s) : CanonResult (execCsrrs d csr s) := by
  refine accessWord_canon (fun h => ?_) h
  split
  · split
    · exact putS_canon _ _ h
    · exact accessTrap_canon _ _ _ _ h
  · exact accessTrap_canon _ _ _ _ h

theorem execCsrws_canon (a : Reg) (csr : BitVec 16) {s : State} (h : Canon s) : CanonResult (execCsrws a csr s) := by
  refine accessWord_canon (fun h => ?_) h
  dsimp only
  split
  · split
    · exact accessTrap_canon _ _ _ _ h
    · have hp := csrPut_canon (aviewOf s.warp) none csr.toNat (s.s1 a) h
      split <;> rename_i he <;> have hp := hp.of_pair he
      · exact stepAccess_canon hp
      · exact accessTrap_canon _ _ _ _ hp
  · exact accessTrap_canon _ _ _ _ h

/-! ## Barrier objects -/

@[simp] theorem closePhase_mem (s : State) (key : Nat) : (closePhase s key).mem = s.mem := rfl
@[simp] theorem noteArrival_mem (s : State) (v : PathView) (key : Nat) : (noteArrival s v key).mem = s.mem := rfl
@[simp] theorem newLanding_mem (s : State) (p : Path) (objs : List Nat) : (newLanding s p objs).2.mem = s.mem := rfl

@[simp] theorem barUpdate_canon {s : State} (v : PathView) (core : Option Nat) (key : Nat) (f : BarObj → BarObj) (h : Canon s) :
    Canon (barUpdate s v core key f) := by
  unfold barUpdate
  dsimp only
  cases core <;> dsimp only <;> split <;> simp [h]

@[simp] theorem barLandAll_canon {s : State} (objs : List Nat) (n : Nat) (h : Canon s) : Canon (barLandAll s objs n) :=
  foldl_canon (fun _ _ hs => barUpdate_canon _ _ _ _ hs) _ h

@[simp] theorem Cx.arriveAt_canon (cx : Cx) {s : State} (k : Nat) (f : BarObj → BarObj) (h : Canon s) :
    Canon (cx.arriveAt s k f) :=
  barUpdate_canon _ _ _ _ h

theorem barWord_canon {i : Instr} {body : Cx → Nat → LaneRes} (hb : ∀ cx k, Canon cx.s → (body cx k).canon) {s : State}
    (h : Canon s) : CanonResult (barWord i body s) := by
  refine laneWord_canon (fun cx hc => ?_) h
  split
  · trivial
  · exact hb _ _ hc

theorem execBarInit_canon (w : Strip) {s : State} (h : Canon s) : CanonResult (execBarInit w s) := by
  refine barWord_canon (fun cx k hc => ?_) h
  simp [hc]

theorem execBarArrive_canon (w : Strip) {s : State} (h : Canon s) : CanonResult (execBarArrive w s) := by
  refine barWord_canon (fun cx k hc => ?_) h
  show Canon (seeSplit _)
  exact (foldl_canon (fun _ _ hs => cx.arriveAt_canon _ _ hs) _ hc).of_mem (seeSplit_mem _)

theorem execBarExpect_canon (w : Strip) {s : State} (h : Canon s) : CanonResult (execBarExpect w s) := by
  refine barWord_canon (fun cx k hc => ?_) h
  show Canon (seeSplit _)
  exact (foldl_canon (fun _ _ hs => cx.arriveAt_canon _ _ hs) _ hc).of_mem (seeSplit_mem _)

theorem execBarWait_canon (w : Strip) {s : State} (h : Canon s) : CanonResult (execBarWait w s) := by
  refine barWord_canon (fun cx k hc => ?_) h
  dsimp only
  split <;> exact hc

theorem execBarTest_canon (w : Strip) {s : State} (h : Canon s) : CanonResult (execBarTest w s) := by
  refine barWord_canon (fun cx k hc => ?_) h
  show Canon _
  dsimp only
  split <;> exact hc

theorem runBarWait_canon (i : Instr) (s : State) (r : Result) (h : Canon s) (hr : runBarWait i s = some r) : CanonResult r := by
  unfold runBarWait at hr
  split at hr
  · cases hr
    exact execBarWait_canon _ h
  · cases hr

theorem execBarWaitReturn_canon {s : State} (h : Canon s) : CanonResult (execBarWaitReturn s) := by
  have go : ∀ (b : Bool) (s : State), Canon s →
      Canon (if slotWaits s b (barReady s) then resumeWord s b runBarWait else s) := by
    intro b s hs
    split
    · exact resumeWord_canon runBarWait_canon b hs
    · exact hs
  exact go true _ (go false s h)

/-! ## The logit filter -/

@[simp] theorem placeList_mem (v : PathView) (w : Warp) (kind : AccKind) (l : List (DWord × Nat)) (s : State) :
    (placeList v w kind l s).2.mem = s.mem := by
  induction l generalizing s with
  | nil => rfl
  | cons p t ih => exact (ih _).trans (placeAccess_mem ..)

@[simp] theorem Cx.loadKeys_mem (cx : Cx) (s : State) (ks : List Nat) : (cx.loadKeys s ks).2.mem = s.mem :=
  (afterLoads_mem ..).trans (gReads_mem s cx.view _ cx.lane0 ks)

theorem execSampArm_canon (w : Strip) {s : State} (h : Canon s) : CanonResult (execSampArm w s) := by
  refine laneWord_canon (fun cx hc => ?_) h
  dsimp only
  split
  · trivial
  · split
    · trivial
    · have hp := hc.of_mem (placeSpan_mem cx.s cx.view cx.s.warp .read (cx.pairA cx.lane0) 64)
      split <;> rename_i he
      · trivial
      · have hp := hp.of_pair he
        have hl := fun ks => hp.of_mem (cx.loadKeys_mem _ ks)
        split
        · exact hl _
        · split
          · trivial
          · have hw := fun ks x x' l l' => (hl ks).of_mem
              ((placeList_mem cx.view x' .write l' _).trans (placeList_mem cx.view x .write l _))
            split
            · trivial
            · split
              · exact hw _ _ _ _ _
              · split
                · exact hw _ _ _ _ _
                · exact hw _ _ _ _ _

theorem filterConsume_mem {s t : State} {op : DrainOp} {va : DWord} {bs : List Byte} {n : Nat}
    (h : filterConsume s op va bs = some (n, t)) : t.mem = s.mem := by
  unfold filterConsume at h
  split at h
  · cases h
  · cases h
    rfl

@[simp] theorem recordRow_canon {s : State} (f : FilterCtx) (x : FilterRow) (h : Canon s) : Canon (recordRow s f x) :=
  barLandAll_canon _ _ (writeBytes_canon _ _ _ _ _ _ h)

theorem execFilterRowRecord_canon (fctx row : Nat) {s : State} (h : Canon s) : CanonResult (execFilterRowRecord fctx row s) := by
  unfold execFilterRowRecord
  split
  · exact h
  · dsimp only
    split
    · exact h
    · exact recordRow_canon _ _ h

end Sys2Proof.Machine
end

section
/-! PROOFS. Every step keeps the canonical form of memory: the matrix path, traps and the copy engine. -/

namespace Sys2Proof.Machine

/-! ## The matrix path -/

@[simp] theorem streamRows_mem (t : Team) (cols : List (List FVal)) (badCols : List Nat) (n : Nat) (op : StreamOp) (s : State) :
    (streamRows t cols badCols n op s).2.mem = s.mem := by
  induction n generalizing op s with
  | zero => rfl
  | succ n ih => exact ih _ _

@[simp] theorem runStream_mem (s : State) (t : Team) (n : Nat) (op : StreamOp) : (runStream s t n op).2.mem = s.mem :=
  streamRows_mem ..

theorem matrixWord_canon {i : Instr} {o : LaneOpts} {stall : Team → Bool} {check : Cx → Option TrapInfo} {act : Cx → LaneRes}
    (ha : ∀ cx, Canon cx.s → (act cx).canon) {s : State} (h : Canon s) : CanonResult (matrixWord i o stall check act s) := by
  refine laneWord_canon (fun cx hc => ?_) h
  split
  · exact hc
  · split
    · trivial
    · exact ha cx hc

theorem execLoaderDone_canon (team : Nat) {s : State} (h : Canon s) : CanonResult (execLoaderDone team s) := by
  unfold execLoaderDone
  split
  · exact h
  · split <;> exact h

@[simp] theorem Cx.mapRows_mem (cx : Cx) (f : Nat → AccRow → AccRow) : (cx.mapRows f).mem = cx.s.mem := rfl

theorem execStreamDone_canon (team : Nat) {s : State} (h : Canon s) : CanonResult (execStreamDone team s) := by
  unfold execStreamDone
  split
  · exact h
  · split
    · exact h
    · exact h.of_mem (runStream_mem ..)

@[simp] theorem Cx.noteNf_mem (cx : Cx) (s : State) (cols teams : List Nat) : (cx.noteNf s cols teams).mem = s.mem := by
  unfold Cx.noteNf
  dsimp only
  split
  · exact foldl_mem (fun s t => modTeam_mem s t _) _ _
  · rfl

theorem execMxDrainReg_canon (w : Strip) {s : State} (h : Canon s) : CanonResult (execMxDrainReg w s) := by
  refine matrixWord_canon (fun cx hc => ?_) h
  exact hc.of_mem (cx.noteNf_mem _ _ _)

theorem execMxDrainMem_canon (w : Strip) {s : State} (h : Canon s) : CanonResult (execMxDrainMem w s) := by
  refine matrixWord_canon (fun cx hc => ?_) h
  dsimp only
  split
  · trivial
  · split
    · trivial
    · have hp := hc.of_mem (placeList_mem cx.view cx.s.warp .write
        (cx.drainDsts.map fun d => (d.2.2, drainSize cx.w.fmt)) cx.s)
      split
      · trivial
      · trivial
      · split
        · trivial
        · split
          · exact hc
          · trivial
          · refine Canon.of_mem ?_ (cx.noteNf_mem _ _ _)
            exact hc.of_mem (placeList_mem ..)

@[simp] theorem landItem_canon {s : State} (op : DrainOp) (land : Nat) (x : DrainItem) (h : Canon s) :
    Canon (landItem s op land x) := by
  unfold landItem
  extract_lets scratch v
  split
  · simp [h]
  · split <;> rename_i he
    · split at he
      · cases he
      · have hs := h.of_mem (filterConsume_mem he)
        split <;> simp [hs]
    · simp [h]

theorem execDrainBytesLand_canon (op : Nat) {s : State} (h : Canon s) : CanonResult (execDrainBytesLand op s) := by
  unfold execDrainBytesLand
  split
  · exact h
  · dsimp only
    split
    · exact h
    · rename_i d _ _ x _
      exact barLandAll_canon _ _ (landItem_canon d _ x (h.of_mem (newLanding_mem s .m d.objs)))

@[simp] theorem landDrain_canon {s : State} (d : DrainOp) (h : Canon s) : Canon (landDrain s d) :=
  foldl_canon (f := fun s x => barLandAll (landItem s d (newLanding _ .m d.objs).1 x) d.objs x.bytes.length)
    (fun _ x hs => barLandAll_canon _ _ (landItem_canon d _ x hs)) d.items (h.of_mem (newLanding_mem s .m d.objs))

theorem execMxStat_canon (w : Strip) {s : State} (h : Canon s) : CanonResult (execMxStat w s) := by
  refine laneWord_canon (fun cx hc => ?_) h
  dsimp only
  split
  · show Canon _
    dsimp only
    split <;> exact hc
  · exact hc

/-! ## CSRW, traps and returns -/

theorem execCsrw_canon (w : Strip) {s : State} (h : Canon s) : CanonResult (execCsrw w s) := by
  refine laneWord_canon (fun cx hc => ?_) h
  extract_lets l v
  split
  · trivial
  · have hp := csrPut_canon cx.view cx.sp.ts (csrNum w) v hc
    split <;> rename_i he <;> have hp := hp.of_pair he
    · exact hp
    · exact takeTrap_canon _ hp

theorem execTret_canon (w : Strip) {s : State} (h : Canon s) : CanonResult (execTret w s) := by
  refine laneWord_canon (fun cx hc => ?_) h
  split
  · trivial
  · split
    · exact hc
    · dsimp only
      split
      · exact finishReturn_canon _ _ hc
      · exact hc

theorem execPreemptOff_canon (w : Strip) {s : State} (h : Canon s) : CanonResult (execPreemptOff w s) := by
  refine laneWord_canon (fun cx hc => ?_) h
  split <;> exact hc

theorem execUndefinedLaneOpcode_canon (op : BitVec 10) (w : Strip) {s : State} (h : Canon s) :
    CanonResult (execUndefinedLaneOpcode op w s) := by
  unfold execUndefinedLaneOpcode
  split
  · trivial
  · exact takeTrap_canon _ h

theorem execTrapEntry_canon {s : State} (h : Canon s) : CanonResult (execTrapEntry s) := by
  unfold execTrapEntry
  split
  · exact h
  · split
    · exact postTrap_canon _ _ _ h
    · exact h
    · split
      · exact h
      · refine takeTrap_canon _ ?_
        split <;> exact h

@[simp] theorem raiseSplit_mem (s : State) (sp : Split) (r : Raised) : (raiseSplit s sp r).mem = s.mem := by
  unfold raiseSplit
  dsimp only
  split_ifs <;> rfl

@[simp] theorem raiseLeast_mem (s : State) (code : BitVec 8) : (raiseLeast s code).mem = s.mem := by
  unfold raiseLeast
  split
  · rfl
  · split
    · rfl
    · exact raiseSplit_mem ..

theorem execWatchdogExpire_canon {s : State} (h : Canon s) : CanonResult (execWatchdogExpire s) := by
  unfold execWatchdogExpire
  dsimp only
  split
  · rw [CanonResult, Canon, modWarp_mem, raiseLeast_mem]
    split <;> exact h
  · exact h

theorem execNopreemptCap_canon {s : State} (h : Canon s) : CanonResult (execNopreemptCap s) := by
  unfold execNopreemptCap
  split
  · exact h.of_mem (raiseLeast_mem ..)
  · exact h

@[simp] theorem serviceEnd_canon {s : State} (b : Bool) (h : Canon s) : Canon (serviceEnd s b) := by
  unfold serviceEnd
  split
  · split
    · split_ifs
      · exact h
      · exact endAbnormal_canon _ _ h
      · exact h
    · exact h
  · exact h

theorem execPageHwServiceEnd_canon {s : State} (h : Canon s) : CanonResult (execPageHwServiceEnd s) :=
  serviceEnd_canon true (serviceEnd_canon false h)

/-! ## The copy engine -/

@[simp] theorem Cx.walkRecord_mem (cx : Cx) (s : State) : (cx.walkRecord s).2.mem = s.mem := by
  unfold Cx.walkRecord
  dsimp only
  split
  · rfl
  · split <;> exact placeSpan_mem ..

@[simp] theorem reserveFollow_mem (s : State) (teams : List Nat) (o : Option StreamOp) : (reserveFollow s teams o).mem = s.mem :=
  foldl_mem (fun s t => modTeam_mem s t _) _ _

theorem Cx.copyTile_canon (cx : Cx) {s : State} (bs : List Byte) (hc : Canon cx.s) (h : Canon s) : (cx.copyTile s bs).canon := by
  unfold Cx.copyTile
  dsimp only
  split
  · trivial
  · trivial
  · split
    · trivial
    · split
      · trivial
      · split
        · exact hc
        · trivial
        · show Canon _
          dsimp only
          have hp := fun kind l => h.of_mem (placeList_mem cx.view s.warp kind l s)
          split
          · exact hp _ _
          · refine Canon.of_mem ?_ (reserveFollow_mem _ _ _)
            exact hp _ _

theorem execCpTile_canon (w : Strip) {s : State} (h : Canon s) : CanonResult (execCpTile w s) := by
  refine laneWord_canon (fun cx hc => ?_) h
  split
  · exact hc
  · dsimp only
    split
    · trivial
    · exact cx.copyTile_canon _ hc (hc.of_mem (cx.walkRecord_mem _))

theorem execCpCmd_canon (w : Strip) {s : State} (h : Canon s) : CanonResult (execCpCmd w s) := by
  refine laneWord_canon (fun cx hc => ?_) h
  dsimp only
  split
  · trivial
  · split
    · trivial
    · exact (gStore_canon _ _ _ _ _ hc).of_mem (seeSplit_mem _)

@[simp] theorem landElem_canon {s : State} (op : CopyOp) (land : Nat) (x : CopyElem) (h : Canon s) :
    Canon (landElem s op land x) := by
  unfold landElem
  split
  · exact h
  · exact writeBytes_canon _ _ _ _ _ _ (writeBytes_canon _ _ _ _ _ _ h)

@[simp] theorem fireFollow_mem (s : State) (teams : List Nat) (copy : Nat) : (fireFollow s teams copy).mem = s.mem :=
  foldl_mem (fun s t => modTeam_mem s t _) _ _

@[simp] theorem dropElems_mem (s : State) (op : CopyOp) (left : List CopyElem) : (dropElems s op left).mem = s.mem := by
  unfold dropElems
  split
  · dsimp only
    split
    · exact fireFollow_mem ..
    · rfl
  · rfl

@[simp] theorem landCopy_canon {s : State} (c : CopyOp) (start n : Nat) (h : Canon s) : Canon (landCopy s c start n) := by
  unfold landCopy
  refine barLandAll_canon _ _ (Canon.of_mem ?_ (dropElems_mem _ _ _))
  exact foldl_canon (fun _ x hs => landElem_canon c _ x hs) _ (h.of_mem (newLanding_mem s .c c.objs))

theorem execCopyBytesLand_canon (op start n : Nat) {s : State} (h : Canon s) : CanonResult (execCopyBytesLand op start n s) := by
  unfold execCopyBytesLand
  split
  · exact h
  · split
    · exact landCopy_canon _ _ _ h
    · exact h

@[simp] theorem raiseIn_mem (s : State) (warp id : Nat) (mask : LaneMask) (r : Raised) : (raiseIn s warp id mask r).mem = s.mem := by
  refine onWarp_mem (fun s => ?_) _ _
  split
  · rfl
  · exact raiseSplit_mem ..

theorem execCopyFabricError_canon (op start n : Nat) {s : State} (h : Canon s) :
    CanonResult (execCopyFabricError op start n s) := by
  unfold execCopyFabricError
  split
  · exact h
  · split
    · exact h
    · refine h.of_mem ((raiseIn_mem ..).trans ((dropElems_mem ..).trans ?_))
      exact foldl_mem (fun s t => modTeam_mem s t _) _ _

/-! ## SHFL -/

theorem execShfl_canon (w : Strip) {s : State} (h : Canon s) : CanonResult (execShfl w s) := by
  refine laneWord_canon (fun cx hc => ?_) h
  split
  · split <;> exact hc
  · exact hc

end Sys2Proof.Machine
end

section
/-! PROOFS. Every step keeps the canonical form of memory: fragments, epochs and continuation queues. -/

namespace Sys2Proof.Machine

/-! ## Fragments -/

theorem fragWord_canon {i : Instr} {illegal : Cx → Frag → Bool} {early : Cx → Option TrapInfo} {deaths : Cx → LaneMask}
    {body : Cx → Frag → LaneRes} {closed : Cx → LaneRes} (hb : ∀ cx fr, Canon cx.s → (body cx fr).canon)
    (hn : ∀ cx, Canon cx.s → (closed cx).canon) {s : State} (h : Canon s) :
    CanonResult (fragWord i illegal early deaths body closed s) := by
  refine laneWord_canon (fun cx hc => ?_) h
  split
  · exact hb _ _ hc
  · exact hn _ hc

@[simp] theorem modDomain_mem (s : State) (d : Nat) (f : Domain → Domain) : (modDomain s d f).mem = s.mem := by
  unfold modDomain
  split <;> rfl

@[simp] theorem modFrag_mem (s : State) (f : Frag → Frag) : (modFrag s f).mem = s.mem := rfl
@[simp] theorem closeFrag_mem (s : State) : (closeFrag s).mem = s.mem := rfl
@[simp] theorem Cx.status_canon (cx : Cx) {s : State} (n : Nat) (h : Canon s) : (cx.status s n).canon := h

theorem execFragOpen_canon (w : Strip) {s : State} (h : Canon s) : CanonResult (execFragOpen w s) := by
  refine laneWord_canon (fun cx hc => ?_) h
  split
  · exact hc
  · trivial

theorem execFragIn_canon (w : Strip) {s : State} (h : Canon s) : CanonResult (execFragIn w s) :=
  fragWord_canon (by exact fun _ _ hc => hc) (by exact fun _ hc => hc) h

theorem execFragInm_canon (w : Strip) {s : State} (h : Canon s) : CanonResult (execFragInm w s) := by
  refine fragWord_canon (fun cx fr hc => ?_) (by exact fun _ hc => hc) h
  dsimp only
  split
  · trivial
  · rw [LaneRes.canon, Canon, modFrag_mem, Cx.loadKeys_mem, placeList_mem]
    exact hc

@[simp] theorem storeWindow_canon {s : State} (v : PathView) (core : Nat) (va : DWord) (pages : List Nat) (bs : List Byte)
    (h : Canon s) : Canon (storeWindow s v core va pages bs) :=
  gWrites_canon v core _ bs false h

theorem Cx.hit_canon (cx : Cx) (e : CatEntry) (h : Canon cx.s) : (cx.hit e).canon := by
  unfold Cx.hit
  extract_lets m regs finish a n
  have hf : ∀ {s}, Canon s → (finish s).canon := fun hs => hs
  clear_value finish
  split
  · trivial
  · split
    · exact hf h
    · split
      · trivial
      · dsimp only
        have hp := h.of_mem (placeList_mem cx.view cx.s.warp .write (cutsOf a n) cx.s)
        split
        · trivial
        · split
          · exact h
          · trivial
          · split
            · exact hf (commitEntry_canon _ _ hp)
            · exact hf (storeWindow_canon _ _ _ _ _ hp)

theorem Cx.claimIn_canon (cx : Cx) (fr : Frag) (d : Domain) (h : Canon cx.s) : (cx.claimIn fr d).canon := by
  unfold Cx.claimIn
  extract_lets name id s take
  have ht : ∀ n, (take n).canon := fun n => h.of_mem (modDomain_mem ..)
  clear_value take
  split
  · split
    · exact cx.hit_canon _ h
    · exact ht _
    · exact h
  · split
    · exact h
    · exact ht _

theorem execFragClaim_canon (w : Strip) {s : State} (h : Canon s) : CanonResult (execFragClaim w s) := by
  refine fragWord_canon (fun cx fr hc => ?_) (by exact fun _ hc => hc) h
  split
  · exact cx.claimIn_canon _ _ hc
  · exact hc

theorem Cx.refuse_canon (cx : Cx) {s : State} (fr : Frag) (name : BitVec 128) (n : Nat) (h : Canon s) :
    (cx.refuse s fr name n).canon :=
  cx.status_canon n (h.of_mem ((closeFrag_mem _).trans (modDomain_mem ..)))

theorem Cx.sealEntry_canon (cx : Cx) {s : State} (fr : Frag) (d : Domain) (name : BitVec 128) (window : List Byte) (bad : Bool)
    (h : Canon s) : (cx.sealEntry s fr d name window bad).canon := by
  unfold Cx.sealEntry
  have hr : ∀ n, (cx.refuse s fr name n).canon := fun n => cx.refuse_canon fr name n h
  dsimp only
  split_ifs
  iterate 5 exact hr _
  exact cx.status_canon 0 (h.of_mem ((closeFrag_mem _).trans (modDomain_mem s fr.dom _)))

theorem execFragSeal_canon (w : Strip) {s : State} (h : Canon s) : CanonResult (execFragSeal w s) := by
  refine fragWord_canon (fun cx fr hc => ?_) (by exact fun _ hc => hc) h
  split
  · exact hc
  · split
    · exact hc
    · split
      · trivial
      · split
        · exact hc
        · split
          · exact hc
          · split
            · exact cx.sealEntry_canon _ _ _ _ _ hc
            · dsimp only
              split
              · trivial
              · exact cx.sealEntry_canon _ _ _ _ _ (hc.of_mem (placeList_mem ..))

@[simp] theorem freeOwned_mem (s : State) (id dom : Nat) (name : BitVec 128) : (freeOwned s id dom name).mem = s.mem :=
  modDomain_mem ..

theorem execFragDrop_canon (w : Strip) {s : State} (h : Canon s) : CanonResult (execFragDrop w s) := by
  refine fragWord_canon (fun cx fr hc => ?_) (by exact fun _ hc => hc) h
  refine Canon.of_mem hc ((closeFrag_mem _).trans ?_)
  split
  · split
    · rfl
    · exact freeOwned_mem ..
  · rfl

/-! ## Epochs -/

theorem execSpecOpen_canon (w : Strip) {s : State} (h : Canon s) : CanonResult (execSpecOpen w s) := by
  refine laneWord_canon (fun cx hc => ?_) h
  dsimp only
  split
  · exact hc
  · split
    · exact hc
    · split
      · exact hc
      · split
        · exact hc
        · split <;> exact hc
      · exact hc

theorem execSpecCommit_canon (w : Strip) {s : State} (h : Canon s) : CanonResult (execSpecCommit w s) := by
  refine laneWord_canon (fun cx hc => ?_) h
  dsimp only
  split <;> exact hc

@[simp] theorem squashFrom_mem (s : State) (req a : Nat) : (squashFrom s req a).mem = s.mem := rfl

theorem execSpecSquash_canon (w : Strip) {s : State} (h : Canon s) : CanonResult (execSpecSquash w s) := by
  refine laneWord_canon (fun cx hc => ?_) h
  dsimp only
  split <;> exact hc

@[simp] theorem commitVersions_canon {s : State} (req e : Nat) (h : Canon s) : Canon (commitVersions s req e) := by
  unfold commitVersions
  refine foldl_canon (fun _ _ hs => writeCommitted_canon _ _ _ _ _ _ hs) _ ?_
  exact h.of_mem (foldl_mem (fun _ _ => countChip_mem _ _) _ _)

theorem execEpochCommitPoint_canon (req epoch : Nat) {s : State} (h : Canon s) :
    CanonResult (execEpochCommitPoint req epoch s) := by
  unfold execEpochCommitPoint
  split
  · exact h
  · split
    · split
      · exact commitVersions_canon _ _ h
      · exact h
    · exact h

theorem execWarpCancel_canon {s : State} (h : Canon s) : CanonResult (execWarpCancel s) := by
  unfold execWarpCancel
  split
  · exact endWarp_canon _ _ _ _ h
  · exact h

/-! ## Continuation queues -/

@[simp] theorem blockPlace_mem (s : State) (ctx core : Nat) (kind : AccKind) (va : DWord) (n : Nat) :
    (blockPlace s ctx core kind va n).2.mem = s.mem :=
  placeCuts_mem (fun _ _ s => placePaged_mem s ..) _ s

@[simp] theorem blockWrite_canon {s : State} (ctx core : Nat) (va : DWord) (bs : List Byte) (h : Canon s) :
    Canon (blockWrite s ctx core va bs) := by
  unfold blockWrite
  refine foldl_canon (fun s p hs => ?_) _ (h.of_mem (blockPlace_mem ..))
  split
  · exact writeBytes_canon _ _ _ _ _ _ hs
  · exact hs

@[simp] theorem blockRead_mem (s : State) (ctx core : Nat) (va : DWord) (n : Nat) : (blockRead s ctx core va n).2.mem = s.mem :=
  blockPlace_mem ..

@[simp] theorem wellWrite_canon {s : State} (ctx core hw : Nat) (d : QueueDecl) (pos : Nat) (e : CqEntry) (h : Canon s) :
    Canon (wellWrite s ctx core hw d pos e) :=
  blockWrite_canon _ _ _ _ (blockWrite_canon _ _ _ _ h)

theorem onQueues_canon {f : State → Nat → QueueDecl → State} (hf : ∀ s hw d, Canon s → Canon (f s hw d)) {s : State} (ctx : Nat)
    (h : Canon s) : Canon (onQueues s ctx f) := by
  refine foldl_canon (fun s m hs => foldl_canon (fun s key hs => ?_) _ hs) _ h
  split
  · exact hf _ _ _ hs
  · exact hs

@[simp] theorem saveBlocks_canon {s : State} (ctx : Nat) (h : Canon s) : Canon (saveBlocks s ctx) :=
  onQueues_canon (fun _ _ _ hs => blockWrite_canon _ _ _ _ hs) ctx h

@[simp] theorem loadBlocks_canon {s : State} (ctx : Nat) (h : Canon s) : Canon (loadBlocks s ctx) := by
  refine onQueues_canon (fun s hw d hs => ?_) ctx h
  have hr := hs.of_mem (blockRead_mem s ctx (hw * 4) (d.block hw) 1216)
  split <;> rename_i he <;> have hr := hr.of_pair he <;> exact hr

@[simp] theorem leaveContext_canon {s : State} (ctx : Nat) (h : Canon s) : Canon (leaveContext s ctx) := by
  unfold leaveContext
  split
  · exact h
  · exact saveBlocks_canon ctx h

@[simp] theorem returnContext_canon {s : State} (ctx : Nat) (h : Canon s) : Canon (returnContext s ctx) := by
  unfold returnContext
  split
  · exact loadBlocks_canon ctx h
  · exact h

@[simp] theorem pushEntry_canon {s : State} (ctx core hw : Nat) (d : QueueDecl) (e : CqEntry) (h : Canon s) :
    Canon (pushEntry s ctx core hw d e) := by
  unfold pushEntry
  dsimp only
  split
  · exact wellWrite_canon _ _ _ _ _ _ h
  · exact h

@[simp] theorem pushBatch_canon {s : State} (ctx core hw : Nat) (d : QueueDecl) (l : List CqEntry) (h : Canon s) :
    Canon (pushBatch s ctx core hw d l) :=
  foldl_canon (fun _ _ hs => pushEntry_canon _ _ _ _ _ hs) _ h

theorem queueWord_canon {i : Instr} {rung : Bool} {body : Cx → QueueDecl → Nat → LaneRes}
    (hb : ∀ cx d hw, Canon cx.s → (body cx d hw).canon) {s : State} (h : Canon s) : CanonResult (queueWord i rung body s) := by
  refine laneWord_canon (fun cx hc => ?_) h
  split
  · trivial
  · split
    · trivial
    · split
      · trivial
      · exact hb _ _ _ hc

theorem execQPush_canon (w : Strip) {s : State} (h : Canon s) : CanonResult (execQPush w s) := by
  refine queueWord_canon (fun cx d hw hc => ?_) h
  dsimp only
  split
  · exact hc
  · exact (pushBatch_canon cx.s.warp.ctx cx.s.warp.coreIx hw d _ hc).of_mem ((seeSplit_mem _).trans (publish_mem _ _))

theorem execQPop_canon (w : Strip) {s : State} (h : Canon s) : CanonResult (execQPop w s) := by
  refine queueWord_canon (fun cx d hw hc => ?_) h
  dsimp only
  split
  · exact hc
  · split
    · trivial
    · exact hc

theorem execQStat_canon (w : Strip) {s : State} (h : Canon s) : CanonResult (execQStat w s) :=
  queueWord_canon (by exact fun _ _ _ hc => hc) h

end Sys2Proof.Machine
end

section
/-! PROOFS. Every step keeps the canonical form of memory: launches, clusters, grids and their records. -/

namespace Sys2Proof.Machine

/-! ## The launch unit: its accesses and records -/

@[simp] theorem unitPlace_mem (s : State) (ctx : Nat) (kind : AccKind) (va : DWord) : (unitPlace s ctx kind va).2.mem = s.mem := by
  unfold unitPlace
  split
  · rfl
  · have hp := placePaged_mem s (unitView s) 0 ctx kind va
    split <;> rename_i he <;> exact (mem_of_pair he).trans hp

@[simp] theorem unitSpan_mem (s : State) (ctx : Nat) (kind : AccKind) (va : DWord) (n : Nat) :
    (unitSpan s ctx kind va n).2.mem = s.mem := by
  refine placeCuts_mem (fun va n s => ?_) _ s
  have hp := unitPlace_mem s ctx kind va
  split <;> rename_i he <;> exact (mem_of_pair he).trans hp

@[simp] theorem unitRead_mem (s : State) (ctx : Nat) (va : DWord) (n : Nat) : (unitRead s ctx va n).2.mem = s.mem := by
  have hp := unitSpan_mem s ctx .read va n
  unfold unitRead
  split <;> rename_i he <;> exact (mem_of_pair he).trans hp

@[simp] theorem accessHandler_mem (s : State) (ctx : Nat) (tvec : DWord) : (accessHandler s ctx tvec).2.mem = s.mem := by
  unfold accessHandler
  split
  · rfl
  · have hp := unitRead_mem s ctx tvec 8
    split <;> rename_i he <;> exact (mem_of_pair he).trans hp

@[simp] theorem unitWrite_canon (ctx n : Nat) (bs : List Byte) (va : DWord) {s : State} (h : Canon s) :
    Canon (unitWrite ctx n bs va s).2 := by
  induction n generalizing bs va s with
  | zero => exact h
  | succ n ih =>
    unfold unitWrite
    split
    · exact h
    · refine ih _ _ ?_
      have hp := h.of_mem (unitPlace_mem s ctx .write va)
      split
      · exact writeBytes_canon _ _ _ _ _ _ hp
      · exact hp

@[simp] theorem writeRecord_canon {s : State} (ctx : Nat) (va : DWord) (ws : List Nat) (r : RecordData) (h : Canon s) :
    Canon (writeRecord s ctx va ws r) := by
  have h1 := unitWrite_canon ctx (r.body.length / 2 ^ 18 + 2) r.body (va + 4#64) h
  unfold writeRecord
  extract_lets body
  split
  rename_i he
  have h1 := h1.of_pair he
  have h2 := unitWrite_canon ctx 2 (b4 magicWord) va h1
  split
  rename_i he'
  have h2 := h2.of_pair he'
  exact h2

/-! ## Clusters that start -/

/-- The notes about an object that is built anew are no part of memory. -/
theorem forgetObject_canon {s : State} (key : Nat) (h : Canon s) :
    Canon { s with
      barSeen := Tab.del s.barSeen key
      landings := s.landings.map fun l => { l with objs := l.objs.filter (· != key) } } := h

@[simp] theorem buildBars_canon {s : State} (core base : Nat) (k : Kernel) (h : Canon s) : Canon (buildBars s core base k) := by
  unfold buildBars
  refine foldl_canon (fun s b hs => ?_) _ h
  exact forgetObject_canon _ (writeBytes_canon _ _ _ _ _ _ hs)

@[simp] theorem startTeam_canon {s : State} (g : Grid) (m : Image) (k : Kernel) (hw cluster teamIx : Nat)
    (even : Option (Nat × Nat)) (x : Spot) (entry : DWord) (team first : Nat) (other : Option (Nat × Nat × Bool)) (h : Canon s) :
    Canon (startTeam s g m k hw cluster teamIx even x entry team first other) := by
  unfold startTeam
  extract_lets t ws s1 s2
  have h1 : Canon s1 := buildBars_canon _ _ _ h
  have h2 : Canon s2 := by
    unfold s2
    split
    · exact foldl_canon (fun _ w hs => writeCheckpoint_canon w hs) _ h1
    · exact h1
  exact h2

@[simp] theorem startPlain_canon (g : Grid) (m : Image) (k : Kernel) (hw cluster : Nat) (even : Option (Nat × Nat))
    (entry : DWord) (l : List Spot) (i : Nat) {s : State} (h : Canon s) :
    Canon (startPlain g m k hw cluster even entry l i s) := by
  induction l generalizing i s with
  | nil => exact h
  | cons x t ih => exact ih _ (startTeam_canon _ _ _ _ _ _ _ _ _ _ _ _ h)

@[simp] theorem startPairs_canon (g : Grid) (m : Image) (k : Kernel) (hw cluster : Nat) (even : Option (Nat × Nat))
    (entry : DWord) (l : List Spot) (i : Nat) {s : State} (h : Canon s) :
    Canon (startPairs g m k hw cluster even entry l i s) := by
  induction l, i, s using startPairs.induct (g := g) (m := m) (k := k) (hw := hw) (cluster := cluster) (even := even)
    (entry := entry) with
  | case1 a b t i s n s1 s2 s3 ih =>
    rw [startPairs]
    exact ih (startTeam_canon _ _ _ _ _ _ _ _ _ _ _ _ (startTeam_canon _ _ _ _ _ _ _ _ _ _ _ _ h))
  | case2 l i s hl =>
    rw [startPairs]
    · exact h
    · exact hl

@[simp] theorem startCluster_canon {s : State} (g : Grid) (m : Image) (k : Kernel) (redundant : Bool) (even : Option (Nat × Nat))
    (hw : Nat) (l : List Spot) (h : Canon s) : Canon (startCluster s g m k redundant even hw l) := by
  unfold startCluster
  dsimp only
  have ha := h.of_mem (accessHandler_mem s g.ctx g.lr.tvec)
  refine Canon.of_mem ?_ (modGrid_mem _ _ _)
  split
  · exact startPairs_canon _ _ _ _ _ _ _ _ _ ha
  · exact startPlain_canon _ _ _ _ _ _ _ _ _ ha

theorem startNextCluster_canon {s t : State} {gid : Nat} {even : Option (Nat × Nat)} (h : Canon s)
    (ht : startNextCluster s gid even = some t) : Canon t := by
  unfold startNextCluster at ht
  split at ht
  · cases ht
  · split at ht
    · cases ht
    · dsimp only at ht
      split at ht
      · cases ht
      · obtain ⟨l, -, rfl⟩ := Option.map_eq_some_iff.mp ht
        exact startCluster_canon _ _ _ _ _ _ _ h

theorem startAll_canon {gid : Nat} {even : Option (Nat × Nat)} (n : Nat) {s t : State} (h : Canon s)
    (ht : startAll gid even n s = some t) : Canon t := by
  induction n generalizing s with
  | zero =>
    cases ht
    exact h
  | succ n ih =>
    obtain ⟨u, hu, ht⟩ := Option.bind_eq_some_iff.mp ht
    exact ih (startNextCluster_canon h hu) ht

/-! ## Requests, tasks and grids -/

@[simp] theorem endRequest_canon {s : State} (r : Request) (h : Canon s) : Canon (endRequest s r) := by
  unfold endRequest
  dsimp only
  refine Canon.of_mem (writeRecord_canon _ _ _ _ (saveBlocks_canon _ ?_)) (modReq_mem _ _ _)
  split <;> exact h

@[simp] theorem settleRequest_canon {s : State} (id : Nat) (h : Canon s) : Canon (settleRequest s id) := by
  unfold settleRequest
  split
  · split
    · exact endRequest_canon _ h
    · exact h
  · exact h

@[simp] theorem endTask_canon {s : State} (seq req : Nat) (status code : BitVec 8) (h : Canon s) :
    Canon (endTask s seq req status code) := by
  refine settleRequest_canon _ (Canon.of_mem ?_ (modReq_mem _ _ _))
  exact h

theorem execLaunch_canon (w : Strip) {s : State} (h : Canon s) : CanonResult (execLaunch w s) := by
  refine laneWord_canon (fun cx hc => ?_) h
  dsimp only
  split
  · trivial
  · split
    · trivial
    · rw [LaneRes.canon, Canon]
      dsimp only
      rwa [Cx.loadKeys_mem, placeList_mem]

@[simp] theorem deliverSub_mem (s : State) (id : Nat) (v : Word) : (deliverSub s id v).mem = s.mem := rfl

@[simp] theorem leaveWindow_mem (s : State) (w : Option (HostPort × Nat)) : (leaveWindow s w).mem = s.mem := by
  unfold leaveWindow
  dsimp only
  split <;> rfl

@[simp] theorem refuseTask_canon {s : State} (x : Submission) (h : Canon s) : Canon (refuseTask s x) := by
  unfold refuseTask
  dsimp only
  rw [Canon, deliverSub_mem, leaveWindow_mem]
  exact writeRecord_canon _ _ _ _ h

@[simp] theorem requestOf_mem (s : State) (x : Submission) (t : TaskRec) : (requestOf s x t).2.mem = s.mem := by
  unfold requestOf
  split
  · rfl
  · split
    · rfl
    · have hp := unitRead_mem s x.ctx t.reqrec 144
      split <;> rename_i he <;> have hp := (mem_of_pair he).trans hp
      · exact hp
      · split <;> exact hp

@[simp] theorem enterTask_mem (s : State) (x : Submission) (t : TaskRec) (req : Nat) : (enterTask s x t req).mem = s.mem := by
  unfold enterTask
  dsimp only
  rw [deliverSub_mem, leaveWindow_mem]
  split <;> rfl

theorem execTaskAccept_canon {s : State} (h : Canon s) : CanonResult (execTaskAccept s) := by
  unfold execTaskAccept
  split
  · exact h
  · rename_i x rest _
    split
    · exact h
    · extract_lets s1
      have h1 : Canon s1 := h
      split
      · exact refuseTask_canon _ h1
      · rename_i t _
        have hr := h1.of_mem (requestOf_mem s1 x t)
        split <;> rename_i he <;> have hr := hr.of_pair he
        · exact hr.of_mem (enterTask_mem ..)
        · exact refuseTask_canon _ hr

@[simp] theorem enterGrid_mem (s : State) (g : Grid) : (enterGrid s g).mem = s.mem := rfl

@[simp] theorem readEven_mem (s : State) (ctx : Nat) (args : DWord) : (readEven s ctx args).2.mem = s.mem := by
  have hp := unitRead_mem s ctx args 16
  unfold readEven
  split <;> rename_i he <;> exact (mem_of_pair he).trans hp

@[simp] theorem writeFixup_canon {s : State} (ctx : Nat) (fixup : DWord) (tiles iters teams : Nat) (h : Canon s) :
    Canon (writeFixup s ctx fixup tiles iters teams) := by
  unfold writeFixup
  exact unitWrite_canon _ _ _ _ h

@[simp] theorem refuseGrid_canon {s : State} (t : Task) (grec : DWord) (h : Canon s) : Canon (refuseGrid s t grec) := by
  unfold refuseGrid
  dsimp only
  refine endTask_canon _ _ _ _ ?_
  rw [Canon]
  dsimp only
  refine writeRecord_canon _ _ _ _ ?_
  split
  · exact h
  · exact writeRecord_canon _ _ _ _ h

@[simp] theorem launchGrid_canon {s : State} (t : Task) (lr : LaunchRec) (image kernel : Nat) (k : Kernel) (h : Canon s) :
    Canon (launchGrid s t lr image kernel k) := by
  unfold launchGrid
  split
  · exact refuseGrid_canon _ _ h
  · split
    · have hp := h.of_mem (readEven_mem s t.ctx lr.args)
      split <;> rename_i he <;> have hp := hp.of_pair he
      · exact refuseGrid_canon _ _ hp
      · dsimp only
        split
        · exact writeFixup_canon _ _ _ _ _ hp
        · exact refuseGrid_canon _ _ hp
    · exact h

theorem execTaskLaunch_canon (seq : Nat) {s : State} (h : Canon s) : CanonResult (execTaskLaunch seq s) := by
  unfold execTaskLaunch
  split
  · exact h
  · rename_i t _
    split
    · exact h
    · extract_lets s1
      have hp : Canon (unitRead s1 t.ctx t.lrec 64).2 := h.of_mem (unitRead_mem ..)
      split <;> rename_i he <;> have hp := hp.of_pair he
      · exact refuseGrid_canon _ _ hp
      · dsimp only
        split
        · exact refuseGrid_canon _ _ hp
        · split
          · exact refuseGrid_canon _ _ hp
          · split
            · exact refuseGrid_canon _ _ hp
            · exact launchGrid_canon _ _ _ _ _ hp

theorem execClusterStart_canon (grid : Nat) {s : State} (h : Canon s) : CanonResult (execClusterStart grid s) := by
  unfold execClusterStart
  split
  · exact h
  · rename_i g _
    split
    · exact h
    · show Canon _
      cases hs : startAll grid g.work (if g.lr.even then g.lr.nclust else 1) s with
      | none => exact h
      | some t => exact returnContext_canon _ (startAll_canon _ h hs)

@[simp] theorem fenceGrid_canon {s : State} (g : Grid) (h : Canon s) : Canon (fenceGrid s g) := fenceAll_canon _ h

@[simp] theorem writeGridRecords_canon {s : State} (g : Grid) (crec : DWord) (h : Canon s) : Canon (writeGridRecords s g crec) := by
  unfold writeGridRecords
  dsimp only
  split <;> simp [h]

theorem execGridEnd_canon (grid : Nat) {s : State} (h : Canon s) : CanonResult (execGridEnd grid s) := by
  unfold execGridEnd
  split
  · exact h
  · split
    · exact h
    · extract_lets s1
      have h1 : Canon s1 := h
      split
      · exact h1
      · split
        · exact h1
        · dsimp only
          refine endTask_canon _ _ _ _ ?_
          refine Canon.of_mem (writeGridRecords_canon _ _ ?_) (modGrid_mem _ _ _)
          split
          · exact fenceGrid_canon _ h1
          · exact h1

end Sys2Proof.Machine
end

section
/-! PROOFS. Every step keeps the canonical form of memory: KV sequences, ladders, redundant groups, wear. -/

namespace Sys2Proof.Machine

/-! ## Results of variable latency -/

theorem execVarlatResultWrite_canon (k : Nat) {s : State} (h : Canon s) : CanonResult (execVarlatResultWrite k s) := by
  unfold execVarlatResultWrite
  split
  · exact h
  · split
    · exact h
    · split <;> exact h

/-! ## KV.STAGE and KV.COMMIT -/

theorem Cx.descriptor_mem (cx : Cx) (seq : Nat) (posts : DWord → List Post) (s : State) :
    (cx.descriptor seq posts s).2.mem = s.mem := by
  unfold Cx.descriptor
  split
  · rfl
  · dsimp only
    split
    · rfl
    · split
      · rfl
      · rename_i c _ _ _ _
        have hp := placeSpan_mem s cx.view s.warp .read (seqAddr c seq) 64
        split <;> rename_i he <;> have hp := (mem_of_pair he).trans hp
        · exact hp
        · exact (cx.loadKeys_mem _ _).trans hp

@[simp] theorem Cx.ring_mem (cx : Cx) (d : SeqDesc) (s : State) : (cx.ring d s).2.mem = s.mem := by
  refine foldl_snd_mem (fun acc k => ?_) _ _
  have hp := tableRead_mem acc.2 cx.view cx.s.warp cx.lane0 (d.btab + BitVec.ofNat 64 (16 * k)) 16
  split <;> rename_i he <;> exact (mem_of_pair he).trans hp

theorem Cx.specAreas_mem (cx : Cx) (d : SeqDesc) (s : State) : (cx.specAreas d s).2.mem = s.mem := by
  unfold Cx.specAreas
  split
  · rfl
  · exact cx.ring_mem d s

theorem Cx.placeRanges_mem (cx : Cx) (kind : AccKind) (l : List (DWord × Nat)) (s : State) :
    (cx.placeRanges kind l s).2.mem = s.mem := by
  unfold Cx.placeRanges
  dsimp only
  split <;> exact placeList_mem ..

@[simp] theorem Cx.storeKeys_canon (cx : Cx) {s : State} (va : DWord) (ks : List Nat) (bs : List Byte) (bad : Bool) (h : Canon s) :
    Canon (cx.storeKeys s va ks bs bad) := by
  unfold Cx.storeKeys
  have hw := (writeBytes_canon (storeView cx.view va) .g 0 ks bs bad h).of_mem (publish_mem _ (storeView cx.view va))
  dsimp only
  split
  · exact hw.of_mem (stampStore_mem ..)
  · exact hw

@[simp] theorem Cx.stageStore_canon (cx : Cx) (n : Nat) (va : DWord) (row : List Nat) (hdr : DWord) (hks : List Nat) {s : State}
    (h : Canon s) : Canon (cx.stageStore n va row hdr hks s) := by
  unfold Cx.stageStore
  dsimp only
  refine cx.storeKeys_canon _ _ _ _ (cx.storeKeys_canon _ _ _ _ ?_)
  exact foldl_canon (fun _ _ hs => cx.storeKeys_canon _ _ _ _ hs) _ h

theorem Cx.stageBody_canon (cx : Cx) (d : SeqDesc) {s : State} (hc : Canon cx.s) (h : Canon s) : (cx.stageBody d s).canon := by
  unfold Cx.stageBody
  extract_lets k n o va ranges
  split
  · trivial
  · have hp := h.of_mem (cx.placeRanges_mem .write ranges s)
    split <;> rename_i he
    · trivial
    · have hp := hp.of_pair he
      dsimp only
      split
      · exact hc
      · trivial
      · exact (cx.stageStore_canon _ _ _ _ _ hp).of_mem (seeSplit_mem _)

theorem execKvStage_canon (w : Strip) {s : State} (h : Canon s) : CanonResult (execKvStage w s) := by
  refine laneWord_canon (fun cx hc => ?_) h
  have hd := hc.of_mem (cx.descriptor_mem (cx.low cx.a).toNat (fun _ => []) cx.s)
  split <;> rename_i he
  · trivial
  · rename_i d _ s1
    have ha := (hd.of_pair he).of_mem (cx.specAreas_mem d s1)
    split <;> rename_i he'
    · trivial
    · exact cx.stageBody_canon d hc (ha.of_pair he')

theorem Cx.header_mem (cx : Cx) (d : SeqDesc) (t : Nat) (s : State) : (cx.header d t s).2.mem = s.mem := by
  have hp := placeSpan_mem s cx.view s.warp .read (d.slot t) 5
  unfold Cx.header
  dsimp only
  split <;> rename_i he <;> have hp := (mem_of_pair he).trans hp
  · exact hp
  · exact (cx.loadKeys_mem _ _).trans hp

theorem Cx.walkRun_mem (cx : Cx) (d : SeqDesc) (m : Nat) (l acc : List Nat) (s : State) :
    (cx.walkRun d m l acc s).2.mem = s.mem := by
  induction l generalizing acc s with
  | nil => rfl
  | cons j rest ih =>
    unfold Cx.walkRun
    dsimp only
    split
    · rfl
    · have hp := cx.header_mem d (cx.slotOf j) s
      split <;> rename_i he <;> have hp := (mem_of_pair he).trans hp
      · exact hp
      · split_ifs
        · exact hp
        · exact hp
        · exact hp
        · exact (ih _ _).trans hp

theorem Cx.targets_mem (cx : Cx) (seq len k : Nat) (s : State) : (cx.targets seq len k s).2.mem = s.mem := by
  unfold Cx.targets
  dsimp only
  split <;> exact kvLanes_mem ..

@[simp] theorem Cx.readRows_mem (cx : Cx) (n : Nat) (l : List (List Nat)) (s : State) : (cx.readRows n l s).2.mem = s.mem := by
  induction l generalizing s with
  | nil => rfl
  | cons ks t ih => exact (ih _).trans (cx.loadKeys_mem ..)

@[simp] theorem Cx.writeRow_canon (cx : Cx) (va : DWord) (dst : List Nat) (l : List (List Byte × Bool)) {s : State} (h : Canon s) :
    Canon (cx.writeRow va dst l s) := by
  induction l generalizing dst s with
  | nil => exact h
  | cons p t ih => exact ih _ (cx.storeKeys_canon _ _ _ _ h)

@[simp] theorem Cx.commitStore_canon (cx : Cx) (d : SeqDesc) (da : DWord) (ring : List DWord) (src dst : List (List Nat))
    (len : List Nat) (hdrs : List (List Nat)) (k : Nat) {s : State} (h : Canon s) :
    Canon (cx.commitStore d da ring src dst len hdrs k s) := by
  unfold Cx.commitStore
  dsimp only
  rw [Canon, seeSplit_mem]
  refine foldl_canon (fun _ _ hs => cx.storeKeys_canon _ _ _ _ hs) _ (cx.storeKeys_canon _ _ _ _ ?_)
  exact foldl_canon (fun _ _ hs => cx.writeRow_canon _ _ _ hs) _ (h.of_mem (cx.readRows_mem ..))

theorem Cx.commitBody_canon (cx : Cx) (d : SeqDesc) (da : DWord) (list : List Nat) (why : Nat) (ring : List DWord) {s : State}
    (hc : Canon cx.s) (h : Canon s) : (cx.commitBody d da list why ring s).canon := by
  unfold Cx.commitBody
  extract_lets k dsts lens hdrs
  have hr := h.of_mem (cx.placeRanges_mem .read (list.map fun t => (d.row t, d.rowb)) s)
  split <;> rename_i he
  · trivial
  · have hw := (hr.of_pair he).of_mem (cx.placeRanges_mem .write (dsts ++ lens ++ hdrs) _)
    split <;> rename_i he'
    · trivial
    · split
      · exact hc
      · trivial
      · exact cx.status_canon _ (cx.commitStore_canon _ _ _ _ _ _ _ _ (hw.of_pair he'))

theorem Cx.commitRun_canon (cx : Cx) (seq : Nat) (d : SeqDesc) (da : DWord) {s : State} (hc : Canon cx.s) (h : Canon s) :
    (cx.commitRun seq d da s).canon := by
  unfold Cx.commitRun
  split
  · exact cx.status_canon _ h
  · have hr := h.of_mem (cx.walkRun_mem d cx.runLimit (List.range cx.runLen) [] s)
    split <;> rename_i he
    · trivial
    · have ht := fun k => (hr.of_pair he).of_mem (cx.targets_mem seq d.len k _)
      split <;> rename_i he'
      · trivial
      · exact cx.commitBody_canon _ _ _ _ _ hc ((ht _).of_pair he')

theorem execKvCommit_canon (w : Strip) {s : State} (h : Canon s) : CanonResult (execKvCommit w s) := by
  refine laneWord_canon (fun cx hc => ?_) h
  extract_lets seq
  have hd := hc.of_mem (cx.descriptor_mem seq (fun da => [⟨3, da, some (seq, none)⟩]) cx.s)
  split <;> rename_i he
  · trivial
  · rename_i d _ s1
    have ha := (hd.of_pair he).of_mem (cx.specAreas_mem d s1)
    split <;> rename_i he'
    · trivial
    · exact cx.commitRun_canon _ _ _ hc (ha.of_pair he')

/-! ## Ladders -/

@[simp] theorem modLadder_mem (s : State) (home lnum : Nat) (f : Ladder → Ladder) : (modLadder s home lnum f).mem = s.mem := by
  unfold modLadder
  split <;> rfl

@[simp] theorem setItem_mem (s : State) (home lnum i : Nat) (v : ItemState) : (setItem s home lnum i v).mem = s.mem := by
  unfold setItem
  dsimp only
  split <;> rfl

@[simp] theorem formGroup_mem (s : State) (home lnum rung n : Nat) (q : QueueDecl) (ctx : Nat) :
    (formGroup s home lnum rung n q ctx).mem = s.mem :=
  modLadder_mem ..

@[simp] theorem formFull_mem (home lnum rung n : Nat) (s : State) : (formFull home lnum rung n s).mem = s.mem := by
  induction n generalizing s with
  | zero => rfl
  | succ n ih =>
    unfold formFull
    split
    · rfl
    · split
      · rfl
      · dsimp only
        split
        · exact (ih _).trans (formGroup_mem ..)
        · rfl

@[simp] theorem afterPush_mem (s : State) (home lnum rung n : Nat) : (afterPush s home lnum rung n).mem = s.mem := formFull_mem ..

theorem execLadderItemEntry_canon (hw lnum : Nat) {s : State} (h : Canon s) : CanonResult (execLadderItemEntry hw lnum s) := by
  unfold execLadderItemEntry
  split
  · exact h
  · rename_i l _
    split
    · exact h
    · split
      · exact h
      · dsimp only
        refine Canon.of_mem ?_ ((afterPush_mem ..).trans (modLadder_mem ..))
        refine pushEntry_canon _ _ _ _ _ ?_
        exact h.of_mem (unitSpan_mem ..)

theorem execStarveExpire_canon (hw lnum rung : Nat) {s : State} (h : Canon s) : CanonResult (execStarveExpire hw lnum rung s) := by
  unfold execStarveExpire
  split
  · exact h
  · split
    · exact h
    · split
      · exact h
      · split
        · exact h.of_mem (formGroup_mem ..)
        · exact h

@[simp] theorem launchGroup_canon {s : State} (hw lnum : Nat) (g : Group) (l : Ladder) (opener : Grid) (kn : Nat) (m : Image)
    (k : Kernel) (spots : List Spot) (h : Canon s) : Canon (launchGroup s hw lnum g l opener kn m k spots) := by
  unfold launchGroup
  refine returnContext_canon _ (startCluster_canon _ _ _ _ _ _ _ ?_)
  exact h.of_mem ((modLadder_mem _ hw lnum _).trans (enterGrid_mem _ _))

theorem execGroupLaunch_canon (hw : Nat) {s : State} (h : Canon s) : CanonResult (execGroupLaunch hw s) := by
  unfold execGroupLaunch
  split
  · exact h
  · split
    · exact h
    · split
      · split
        · show Canon _
          split
          · exact launchGroup_canon _ _ _ _ _ _ _ _ _ h
          · exact h
        · exact h
      · exact h

theorem execLadderComplete_canon (hw lnum : Nat) {s : State} (h : Canon s) : CanonResult (execLadderComplete hw lnum s) := by
  unfold execLadderComplete
  split
  · exact h
  · split
    · exact h
    · dsimp only
      refine Canon.of_mem ?_ (modGrid_mem _ _ _)
      exact foldl_canon (fun s k hs => barUpdate_canon _ _ _ _ (hs.of_mem (noteArrival_mem s (unitView s) k))) _ h

theorem execLadDoneOpen_canon (w : Strip) {s : State} (h : Canon s) : CanonResult (execLadDoneOpen w s) := by
  refine laneWord_canon (fun cx hc => ?_) h
  dsimp only
  split
  · trivial
  · refine cx.status_canon _ ?_
    split <;> exact hc

theorem execLadEsc_canon (w : Strip) {s : State} (h : Canon s) : CanonResult (execLadEsc w s) := by
  refine laneWord_canon (fun cx hc => ?_) h
  split
  · trivial
  · trivial
  · split
    · trivial
    · dsimp only
      split
      · exact hc
      · rw [LaneRes.canon, Canon]
        dsimp only
        rw [seeSplit_mem, afterPush_mem, publish_mem]
        refine Canon.of_mem ?_ ((modLadder_mem _ _ _ _).trans (foldl_mem (fun _ _ => setItem_mem _ _ _ _ _) _ _))
        exact pushBatch_canon _ _ _ _ _ hc

@[simp] theorem Cx.resStore_canon (cx : Cx) (l : Ladder) (ok : List (LaneAcc × Nat)) {s : State} (h : Canon s) :
    Canon (cx.resStore l ok s) := by
  induction ok generalizing s with
  | nil => exact h
  | cons p t ih => exact ih (gStore_canon _ _ _ _ _ h)

theorem Cx.resBody_canon (cx : Cx) (home lnum : Nat) (l : Ladder) (h : Canon cx.s) : (cx.resBody home lnum l).canon := by
  unfold Cx.resBody
  dsimp only
  split
  · trivial
  · split
    · exact h
    · trivial
    · refine withTrap_canon _ _ (Canon.of_mem ?_ (markWritten_mem _ _ _ _))
      refine Canon.of_mem ?_ (foldl_mem (fun _ _ => setItem_mem _ _ _ _ _) _ _)
      refine Canon.of_mem ?_ (afterStores_mem _ _)
      exact cx.resStore_canon _ _ (h.of_mem (placeLanes_mem ..))

theorem execLadRes_canon (w : Strip) {s : State} (h : Canon s) : CanonResult (execLadRes w s) := by
  refine laneWord_canon (fun cx hc => ?_) h
  split
  · trivial
  · trivial
  · exact cx.resBody_canon _ _ _ hc

/-! ## Redundant groups -/

theorem execRginjFire_canon {s : State} (h : Canon s) : CanonResult (execRginjFire s) := by
  unfold execRginjFire
  split
  · exact h
  · split
    · exact h
    · split <;> exact h

@[simp] theorem dropHeld_mem (s : State) (id : Nat) : (dropHeld s id).mem = s.mem := rfl

@[simp] theorem returnCopy_mem (s : State) (mismatch owes : Bool) (id : Nat) : (returnCopy s mismatch owes id).mem = s.mem := by
  unfold returnCopy
  split
  · rfl
  · simp

@[simp] theorem returnPair_mem (s : State) (p : Pair) (mismatch : Bool) : (returnPair s p mismatch).mem = s.mem :=
  (returnCopy_mem _ _ _ _).trans (returnCopy_mem (dropHeld s p.lead.id) _ _ _)

@[simp] theorem killPair_canon {s : State} (p : Pair) (m : LaneMask) (h : Canon s) : Canon (killPair s p m) := by
  unfold killPair
  split
  · exact h
  · refine foldl_canon (fun s id hs => onWarp_canon (fun s hs => ?_) _ hs) _ h
    extract_lets s1
    have h1 : Canon s1 := (killLanes_canon m s.warp.anyPc hs).of_mem (modWarp_mem _ _)
    clear_value s1
    exact h1

@[simp] theorem raiseMismatch_canon {s : State} (p : Pair) (h : Canon s) : Canon (raiseMismatch s p) := by
  refine foldl_canon (fun s id hs => onWarp_canon (fun s hs => ?_) _ hs) _ h
  split
  · exact endWarp_canon _ _ _ _ hs
  · exact hs.of_mem (raiseSplit_mem ..)

@[simp] theorem rollback_canon {s : State} (p : Pair) (h : Canon s) : Canon (rollback s p) := by
  unfold rollback
  dsimp only
  have hk := fun m => killPair_canon p m (h.of_mem (returnPair_mem s p true))
  split
  · exact raiseMismatch_canon p (hk _)
  · exact hk _

@[simp] theorem commitDrops_mem (s : State) (w : Warp) : (commitDrops s w).mem = s.mem := by
  unfold commitDrops
  dsimp only
  split
  · rfl
  · rw [modWarpId_mem]
    exact foldl_mem (fun _ _ => freeOwned_mem _ _ _ _) _ _

@[simp] theorem commitHeld_canon {s : State} (w : Warp) (h : Canon s) : Canon (commitHeld s w) := by
  unfold commitHeld
  dsimp only
  rw [Canon, commitDrops_mem, dropHeld_mem]
  exact foldl_canon (fun _ _ hs => commitEntry_canon _ _ hs) _ h

@[simp] theorem grantCopy_mem (s : State) (id : Nat) (x : Bool × DWord × LaneMask) : (grantCopy s id x).mem = s.mem := by
  unfold grantCopy
  refine onWarp_mem (fun s => ?_) _ _
  rw [modWarp_mem, checkpoint_mem, modWarp_mem]

@[simp] theorem endPair_canon {s : State} (p : Pair) (code : BitVec 8) (pc : DWord) (h : Canon s) : Canon (endPair s p code pc) :=
  foldl_canon (fun _ _ hs => endWarp_canon _ _ _ _ hs) _ h

theorem execRgCommit_canon {s : State} (h : Canon s) : CanonResult (execRgCommit s) := by
  unfold execRgCommit
  split
  · exact h
  · split
    · exact h
    · exact rollback_canon _ h
    · exact endPair_canon _ _ _ (commitHeld_canon _ h)
    · exact foldl_canon (fun s id hs => hs.of_mem (grantCopy_mem s id _)) _ (commitHeld_canon _ h)

/-! ## Signatures, soft errors and wear -/

@[simp] theorem Cx.sigSeeded_mem (cx : Cx) (s : State) : (cx.sigSeeded s).mem = s.mem := by
  simp [Cx.sigSeeded]

theorem execSigChk_canon (w : Strip) {s : State} (h : Canon s) : CanonResult (execSigChk w s) := by
  refine laneWord_canon (fun cx hc => ?_) h
  have hs : ∀ s, Canon s → Canon (cx.sigSeeded s) := fun s hs => hs.of_mem (cx.sigSeeded_mem s)
  split
  · exact hc
  · split
    · exact hs _ hc
    · split
      · trivial
      · dsimp only
        split
        · exact hs _ hc
        · split
          · exact hs _ hc
          · trivial

@[simp] theorem softError_mem (s : State) (e : ReplayEntry) (lane : Nat) : (softError s e lane).mem = s.mem := by
  unfold softError
  split
  · split
    · rfl
    · exact raiseIn_mem ..
  · rfl

theorem execPoisonDetect_canon (place : PoisonPlace) {s : State} (h : Canon s) : CanonResult (execPoisonDetect place s) := by
  cases place with
  | memory key words => exact h.of_mem (foldl_mem (fun _ _ => poisonWord_mem _ _) _ _)
  | register n lane => exact h
  | queue q index lane => exact h
  | backQueue k index lane => exact h
  | clusterQueue ctx hw q index word => exact h

@[simp] theorem chargeWear_mem (s : State) (x : Nat × Nat) : (chargeWear s x).mem = s.mem := by
  unfold chargeWear
  dsimp only
  rw [modGrid_mem]
  split
  · rw [modReq_mem]
    split <;> rfl
  · split <;> rfl

theorem execWearPeriod_canon (core : Nat) (r : WearReading) {s : State} (h : Canon s) : CanonResult (execWearPeriod core r s) := by
  unfold execWearPeriod
  split
  · exact h
  · exact h.of_mem (foldl_mem chargeWear_mem _ _)

@[simp] theorem writeLife_mem (s : State) : (writeLife s).mem = s.mem := rfl

theorem execWearRecordWrite_canon {s : State} (h : Canon s) : CanonResult (execWearRecordWrite s) := by
  unfold execWearRecordWrite
  show Canon _
  split <;> exact h

@[simp] theorem loadLine_mem (extra : Nat) (s : State) (l : LifeLine) : (loadLine extra s l).mem = s.mem := rfl

@[simp] theorem loadLife_mem (s : State) : (loadLife s).mem = s.mem := by
  unfold loadLife
  dsimp only
  split
  · exact foldl_mem (fun _ _ => modCore_mem _ _ _) _ _
  · rw [foldl_mem (loadLine_mem _)]
    split <;> rfl

end Sys2Proof.Machine
end

section
/-! PROOFS. Every step keeps the canonical form of memory: saves and restores, other chips, the start. -/

namespace Sys2Proof.Machine

/-! ## Clusters that leave their cores and return -/

/-- A meaning run for its next state keeps the canonical form where the meaning does. -/
theorem moved_canon {s : State} {r : Result} (h : Canon s) (hr : CanonResult r) : Canon (moved s r) := by
  cases r with
  | next t => exact hr
  | fault f => exact h
  | refused r => exact h

@[simp] theorem finishCopies_canon (hw n : Nat) {s : State} (h : Canon s) : Canon (finishCopies hw n s) := by
  induction n generalizing s with
  | zero => exact h
  | succ n ih =>
    unfold finishCopies
    split
    · exact h
    · exact ih (moved_canon h (execCopyBytesLand_canon _ _ _ h))

@[simp] theorem finishDrains_canon (hw n : Nat) {s : State} (h : Canon s) : Canon (finishDrains hw n s) := by
  induction n generalizing s with
  | zero => exact h
  | succ n ih =>
    unfold finishDrains
    split
    · exact h
    · exact ih (moved_canon h (execDrainBytesLand_canon _ h))

@[simp] theorem stopStream_mem (s : State) (t : Team) : (stopStream s t).mem = s.mem := by
  unfold stopStream
  split
  · rfl
  · exact (modTeam_mem _ _ _).trans (runStream_mem ..)

@[simp] theorem quiesce_canon {s : State} (hw : Nat) (h : Canon s) : Canon (quiesce s hw) := by
  unfold quiesce
  dsimp only
  refine foldl_canon (fun _ _ hs => hs.of_mem (modTeam_mem _ _ _)) _ (finishDrains_canon _ _ (finishCopies_canon _ _ ?_))
  refine foldl_canon (fun s t hs => ?_) _ h
  have hl := moved_canon hs (execLoaderDone_canon t.id hs)
  split
  · exact hl.of_mem (stopStream_mem ..)
  · exact hl

@[simp] theorem saveAtCheckpoint_mem (s : State) (hw : Nat) : (saveAtCheckpoint s hw).mem = s.mem := by
  refine foldl_mem (fun s w => ?_) _ s
  split
  · exact returnPair_mem ..
  · rfl

@[simp] theorem killPoisoned_canon {s : State} (w : Warp) (h : Canon s) : Canon (killPoisoned s w) := by
  unfold killPoisoned
  dsimp only
  split
  · exact h
  · exact onWarp_canon (fun _ hs => killLanes_canon _ _ hs) _ h

@[simp] theorem settleWarps_canon {s : State} (hw : Nat) (h : Canon s) : Canon (settleWarps s hw) := by
  unfold settleWarps
  refine foldl_canon (fun _ _ hs => hs.of_mem (modCore_mem _ _ _)) _ ?_
  refine foldl_canon (fun _ _ hs => killPoisoned_canon _ hs) _ ?_
  exact h.of_mem (foldl_mem (fun _ _ => closeFragment_mem _ _) _ _)

@[simp] theorem releaseMatrix_mem (s : State) (c : Saved) : (releaseMatrix s c).mem = s.mem := by
  refine foldl_mem (fun s t => ?_) _ _
  rfl

@[simp] theorem leaveCores_canon {s : State} (c : ClusterName) (x : Saved) (h : Canon s) : Canon (leaveCores s c x) := by
  have hm : Canon (releaseMatrix s x) := h.of_mem (releaseMatrix_mem s x)
  unfold leaveCores
  extract_lets gone keep landing filter ladder s1 s2
  have h2 : Canon s2 := filter_wf _ hm
  clear_value s2
  split
  · split <;> exact h2
  · exact h2

@[simp] theorem releaseMappings_canon {s : State} (c : ClusterName) (h : Canon s) : Canon (releaseMappings s c) :=
  foldl_canon (fun _ _ hs => releaseGrans_canon _ hs) _ h

theorem foldl_memPut_wf {α : Type} (k : α → Nat) (b : α → Byte) (l : List α) {m : List Host.Cell} (h : Memory.wf m = true) :
    Memory.wf (l.foldl (fun m x => memPut m (k x) (b x)) m) = true := by
  induction l generalizing m with
  | nil => exact h
  | cons x t ih => exact ih (memPut_wf h)

@[simp] theorem restoreScratch_canon {s : State} (hw : Nat) (c : Saved) (h : Canon s) : Canon (restoreScratch s hw c) :=
  foldl_memPut_wf _ _ _ (filter_wf _ h)

@[simp] theorem restoreMatrix_mem (s : State) (hw : Nat) (c : Saved) : (restoreMatrix s hw c).mem = s.mem := by
  unfold restoreMatrix
  dsimp only
  rw [foldl_mem fun s _ => modCore_mem s _ _, foldl_mem fun s _ => modCore_mem s _ _]

@[simp] theorem remap_canon (w : Warp) (v : PathView) {s : State} (k : Nat) (h : Canon s) : Canon (remap w v s k) := by
  unfold remap
  split
  · exact h
  · dsimp only
    split
    · have hp := fun s x (hs : Canon s) => spmapPut_canon w v k x hs
      split <;> rename_i he
      · have h1 := (hp _ _ (h.of_mem (modTeam_mem _ _ _))).of_pair he
        exact h1.of_mem (modTeam_mem _ _ _)
      · exact (hp _ _ (h.of_mem (modTeam_mem _ _ _))).of_pair he
    · exact h

@[simp] theorem restoreCluster_canon {s : State} (hw : Nat) (c : Saved) (h : Canon s) : Canon (restoreCluster s hw c) := by
  unfold restoreCluster
  extract_lets ws s1 s2 s3
  have h3 : Canon s3 := Canon.of_mem (restoreScratch_canon hw c (returnContext_canon c.ctx h)) (restoreMatrix_mem _ hw c)
  clear_value s3
  refine foldl_canon (fun s t hs => ?_) _ h3
  split
  · exact foldl_canon (fun _ _ hs => remap_canon _ _ _ hs) _ hs
  · exact hs

theorem execClusterRestore_canon (save hw : Nat) {s : State} (h : Canon s) : CanonResult (execClusterRestore save hw s) := by
  unfold execClusterRestore
  split
  · exact h
  · show Canon _
    split
    · exact restoreCluster_canon _ _ h
    · exact h

theorem execInfieldTest_canon (core : Nat) {s : State} (h : Canon s) : CanonResult (execInfieldTest core s) := by
  unfold execInfieldTest
  dsimp only
  split <;> exact h

theorem execInfieldTestDone_canon (hw : Nat) (failed : List Nat) {s : State} (h : Canon s) :
    CanonResult (execInfieldTestDone hw failed s) := by
  unfold execInfieldTestDone
  split
  · exact h
  · extract_lets passed s1 free
    have h1 : Canon s1 := h.of_mem (foldl_mem (fun _ _ => modCore_mem _ _ _) _ _)
    clear_value s1
    exact h1

/-! ## Times, remote writes and the fabric -/

theorem execTimestampScrub_canon (line : Nat) {s : State} (h : Canon s) : CanonResult (execTimestampScrub line s) := by
  unfold execTimestampScrub
  split <;> exact h

@[simp] theorem homeWrite_canon {s : State} (key : Nat) (bs : List Byte) (h : Canon s) : Canon (homeWrite s key bs) :=
  (writeBytes_canon (PathView.start 0 s.serial) .g 0 (keysFrom key bs.length) bs false h).of_mem (stampHome_mem _ _ _)

@[simp] theorem applyRemote_canon {s : State} (src inc n key : Nat) (bs : List Byte) (h : Canon s) :
    Canon (applyRemote s src inc n key bs) := by
  have hw := homeWrite_canon key bs h
  exact hw

@[simp] theorem applyHeld_canon (src inc k : Nat) {s : State} (h : Canon s) : Canon (applyHeld src inc k s) := by
  induction k generalizing s with
  | zero => exact h
  | succ k ih =>
    unfold applyHeld
    dsimp only
    split
    · exact h
    · exact ih (applyRemote_canon _ _ _ _ _ h)

@[simp] theorem takeRemote_canon {s : State} (src inc n key : Nat) (bs : List Byte) (h : Canon s) :
    Canon (takeRemote s src inc n key bs) := by
  unfold takeRemote
  dsimp only
  split_ifs
  · exact h
  · exact applyHeld_canon _ _ _ (applyRemote_canon _ _ _ _ _ h)
  · exact h

theorem execRemoteWriteApply_canon (src num key : Nat) (bytes : List Byte) {s : State} (h : Canon s) :
    CanonResult (execRemoteWriteApply src num key bytes s) := by
  unfold execRemoteWriteApply
  dsimp only
  split_ifs
  · exact h
  · exact h
  · exact takeRemote_canon _ _ _ _ _ h
  · exact takeRemote_canon _ _ _ _ _ h

theorem execRemoteLeaseRequest_canon (line chip : Nat) {s : State} (h : Canon s) :
    CanonResult (execRemoteLeaseRequest line chip s) := by
  unfold execRemoteLeaseRequest
  split <;> exact h

theorem execL2ModeChange_canon (toPrivate : Bool) {s : State} (h : Canon s) : CanonResult (execL2ModeChange toPrivate s) := by
  unfold execL2ModeChange
  dsimp only
  split <;> exact h

@[simp] theorem endSaved_mem (st : BitVec 8) (c : Saved) (s : State) (w : Warp) : (endSaved st c s w).mem = s.mem := by
  unfold endSaved
  split
  · rfl
  · exact (modGrid_mem _ _ _).trans (dropItems_mem ..)

@[simp] theorem endSavedClusters_mem (s : State) (gid : Nat) (st : BitVec 8) : (endSavedClusters s gid st).mem = s.mem :=
  foldl_mem (fun _ c => foldl_mem (endSaved_mem st c) _ _) _ s

@[simp] theorem settleEngines_canon {s : State} (g : Grid) (h : Canon s) : Canon (settleEngines s g) := by
  unfold settleEngines
  extract_lets whole mine s1 s2 s3
  have h1 : Canon s1 := by
    refine foldl_canon (fun t d ht => ?_) _ h
    split
    · exact landDrain_canon _ ht
    · exact ht
  clear_value s1
  have h2 : Canon s2 := by
    refine foldl_canon (fun t d ht => ?_) _ h1
    split
    · exact landCopy_canon _ _ _ ht
    · exact ht
  clear_value s2
  have h3 : Canon s3 := by
    refine foldl_canon (fun t f ht => ?_) _ h2
    split
    · refine foldl_canon (fun t x ht => ?_) _ ht
      split
      · exact recordRow_canon _ _ ht
      · exact ht
    · exact ht
  exact h3

@[simp] theorem cancelGrid_canon (st : BitVec 8) {s : State} (gid : Nat) (h : Canon s) : Canon (cancelGrid st s gid) := by
  unfold cancelGrid
  split
  · exact h
  · split
    · exact h
    · refine Canon.of_mem ?_ ((modGrid_mem _ _ _).trans (endSavedClusters_mem _ _ _))
      exact foldl_canon (fun _ _ hs => endWarp_canon _ _ _ _ hs) _ (settleEngines_canon _ h)

@[simp] theorem endUnlaunched_canon (st : BitVec 8) {s : State} (t : Task) (h : Canon s) : Canon (endUnlaunched st s t) := by
  unfold endUnlaunched
  exact endTask_canon _ _ _ _ (writeRecord_canon _ _ _ _ h)

@[simp] theorem abortRequest_canon (st : BitVec 8) {s : State} (req : Nat) (h : Canon s) : Canon (abortRequest st s req) := by
  unfold abortRequest
  refine foldl_canon (fun _ _ hs => endUnlaunched_canon _ _ hs) _ ?_
  have hg := foldl_canon (f := cancelGrid st) (fun _ _ hs => cancelGrid_canon _ _ hs)
  exact hg _ h

@[simp] theorem declareFailed_canon {s : State} (chip : Nat) (h : Canon s) : Canon (declareFailed s chip) := by
  unfold declareFailed
  split
  · exact h
  · refine foldl_canon (fun _ _ hs => abortRequest_canon _ _ hs) _ ?_
    exact h

theorem execRouteLossTimeout_canon (chip : Nat) {s : State} (h : Canon s) : CanonResult (execRouteLossTimeout chip s) := by
  unfold execRouteLossTimeout
  split
  · exact h
  · exact declareFailed_canon _ h

@[simp] theorem joinChip_mem (s : State) (chip inc : Nat) : (joinChip s chip inc).mem = s.mem := by
  unfold joinChip
  split <;> rfl

theorem execLinkNegotiate_canon (port : Nat) (o : LinkOutcome) {s : State} (h : Canon s) :
    CanonResult (execLinkNegotiate port o s) := by
  unfold execLinkNegotiate
  split
  · exact h
  · show Canon _
    split
    · exact h.of_mem (joinChip_mem ..)
    · exact h

theorem execFabricLinkLoss_canon (port : Nat) {s : State} (h : Canon s) : CanonResult (execFabricLinkLoss port s) := by
  unfold execFabricLinkLoss
  split <;> exact h

@[simp] theorem saveCluster_canon (only : Option Nat) {s : State} (c : ClusterName) (h : Canon s) :
    Canon (saveCluster only s c) := by
  unfold saveCluster
  split
  · exact leaveContext_canon _ (putArea_canon _ _ (leaveCores_canon _ _ (releaseMappings_canon _ h)))
  · exact h

/-! ## The start and the ends of power -/

@[simp] theorem afresh_canon {s : State} (keep : Bool) (h : Canon s) : Canon (afresh s keep) := filter_wf _ h

theorem execSuppliesUp_canon {s : State} (h : Canon s) : CanonResult (execSuppliesUp s) := by
  have ha := afresh_canon true h
  unfold execSuppliesUp
  split_ifs
  · exact h
  · exact ha
  · exact h

theorem execFuseRead_canon {s : State} (h : Canon s) : CanonResult (execFuseRead s) := by
  show Canon _
  split <;> exact h

@[simp] theorem failStart_canon {s : State} (h : Canon s) : Canon (failStart s) := by
  have ha := afresh_canon true h
  exact ha

theorem execRomLoad_canon {s : State} (h : Canon s) : CanonResult (execRomLoad s) := by
  unfold execRomLoad
  split
  · exact h
  · split
    · exact h
    · exact failStart_canon h

theorem execFwVerify_canon {s : State} (h : Canon s) : CanonResult (execFwVerify s) := by
  unfold execFwVerify
  split
  · exact h
  · show Canon _
    split
    · exact h
    · exact failStart_canon h

theorem execHbmInit_canon (settingsCheck : Bool) {s : State} (h : Canon s) : CanonResult (execHbmInit settingsCheck s) := by
  show Canon _
  split <;> exact h

theorem execWearLoad_canon {s : State} (h : Canon s) : CanonResult (execWearLoad s) := by
  have hl := h.of_mem (loadLife_mem s)
  show Canon _
  split
  · exact hl
  · exact h

theorem execFabricBringup_canon {s : State} (h : Canon s) : CanonResult (execFabricBringup s) := by
  show Canon _
  split <;> exact h

@[simp] theorem markCore_mem (s : State) (core : Nat) : (markCore s core).mem = s.mem := rfl

theorem execScanSelfTest_canon (failing : List Nat) {s : State} (h : Canon s) : CanonResult (execScanSelfTest failing s) := by
  unfold execScanSelfTest
  split
  · exact h
  · refine Canon.of_mem (s := if s.cold then _ else _) ?_ rfl
    split
    · exact h.of_mem (foldl_mem markCore_mem _ _)
    · exact h

@[simp] theorem clearMemory_canon {s : State} (h : Canon s) : Canon (clearMemory s) := filter_wf _ h

theorem execMemoryClear_canon {s : State} (h : Canon s) : CanonResult (execMemoryClear s) := by
  unfold execMemoryClear
  split
  · exact h
  · refine Canon.of_mem (s := if s.cold then _ else _) ?_ rfl
    split
    · exact clearMemory_canon h
    · exact h

theorem execStartFail_canon {s : State} (h : Canon s) : CanonResult (execStartFail s) := by
  unfold execStartFail
  split
  · exact h
  · exact h
  · exact h
  · exact failStart_canon h

theorem execPowerLoss_canon {s : State} (h : Canon s) : CanonResult (execPowerLoss s) := by
  have ha := afresh_canon false h
  exact ha

theorem execOrderlyShutdown_canon {s : State} (h : Canon s) : CanonResult (execOrderlyShutdown s) := by
  have ha := afresh_canon false (h.of_mem (writeLife_mem s))
  unfold execOrderlyShutdown
  split
  · exact ha
  · exact h

theorem execPowerWindow_canon (milliwatts : Nat) {s : State} (h : Canon s) : CanonResult (execPowerWindow milliwatts s) := by
  show Canon _
  split_ifs <;> exact h

theorem execHbmScrub_canon (stack : Nat) {s : State} (h : Canon s) : CanonResult (execHbmScrub stack s) := by
  unfold execHbmScrub
  split <;> exact h

end Sys2Proof.Machine
end

section
/-! PROOFS. Every step keeps the canonical form of memory: the host ports and their commands. -/

namespace Sys2Proof.Machine

/-! ## Host ports: submissions, semaphores and DMA -/

@[simp] theorem modPort_mem (s : State) (p : HostPort) (f : Port → Port) : (modPort s p f).mem = s.mem := by
  cases p <;> rfl

@[simp] theorem modBox_mem (s : State) (c : Cmd) (f : Mailbox → Mailbox) : (modBox s c f).mem = s.mem := modPort_mem ..
@[simp] theorem endCmd_mem (s : State) (c : Cmd) (status : Nat) : (endCmd s c status).mem = s.mem := modBox_mem ..

@[simp] theorem endWith_mem (s : State) (c : Cmd) (result : DWord) : (endWith s c result).mem = s.mem :=
  (endCmd_mem _ _ _).trans (modBox_mem ..)

@[simp] theorem fenceHost_canon {s : State} (h : Canon s) : Canon (fenceHost s) := fenceAll_canon _ h

@[simp] theorem submitRecord_canon (c : Cmd) (win : Nat) {s : State} (h : Canon s) : Canon (submitRecord c win s) := by
  unfold submitRecord
  extract_lets key p w put s1 x
  have hput : ∀ w s, Canon s → Canon (put w s) := fun _ s hs => hs.of_mem (modPort_mem s c.port _)
  clear_value put
  split
  · exact hput _ _ h
  · exact hput _ _ (fenceHost_canon h)

theorem execTaskSubmit_canon (c : Cmd) (win : BitVec 3) {s : State} (h : Canon s) : CanonResult (execTaskSubmit c win s) := by
  show Canon _
  split
  · exact submitRecord_canon _ _ h
  · exact h

@[simp] theorem setSems_mem (s : State) (iod : Bool) (l : Vector Word 16) : (setSems s iod l).mem = s.mem := by
  cases iod <;> rfl

@[simp] theorem acquireSem_mem (port : HostPort) (iod : Bool) (n : BitVec 4) (s : State) : (acquireSem port iod n s).mem = s.mem := by
  unfold acquireSem
  dsimp only
  split
  · exact setSems_mem ..
  · rfl

@[simp] theorem releaseSem_mem (port : HostPort) (iod : Bool) (n : BitVec 4) (s : State) : (releaseSem port iod n s).mem = s.mem := by
  unfold releaseSem
  dsimp only
  split
  · exact setSems_mem ..
  · rfl

theorem execSemAcquire_canon (port : HostPort) (iod : Bool) (n : BitVec 4) {s : State} (h : Canon s) :
    CanonResult (execSemAcquire port iod n s) := by
  show Canon _
  split
  · exact h.of_mem (acquireSem_mem ..)
  · exact h

theorem execSemRelease_canon (port : HostPort) (iod : Bool) (n : BitVec 4) {s : State} (h : Canon s) :
    CanonResult (execSemRelease port iod n s) := by
  show Canon _
  split
  · exact h.of_mem (releaseSem_mem ..)
  · exact h

@[simp] theorem hostRead_mem (ctx k : Nat) (va : DWord) (n : Nat) (s : State) : (hostRead ctx k va n s).2.mem = s.mem := by
  induction k generalizing va n s with
  | zero => rfl
  | succ k ih =>
    unfold hostRead
    split
    · rfl
    · dsimp only
      have hp := unitPlace_mem s ctx .read va
      split <;> rename_i he <;> have hp := (mem_of_pair he).trans hp
      · exact hp
      · split <;> rename_i he' <;> exact (mem_of_pair he').trans ((ih _ _ _).trans hp)

@[simp] theorem markBreach_mem (s : State) (since : Nat) (ks : List Nat) : (markBreach s since ks).mem = s.mem := by
  unfold markBreach
  split <;> rfl

@[simp] theorem hostStore_canon {s : State} (ctx : Nat) (va : DWord) (key : Nat) (bs : List Byte) (h : Canon s) :
    Canon (hostStore s ctx va key bs) :=
  (writeBytes_canon _ _ _ _ _ _ (h.of_mem (newLanding_mem s .h []))).of_mem (markBreach_mem _ _ _)

@[simp] theorem hostWrite_canon (ctx k : Nat) (bs : List Byte) (va : DWord) {s : State} (h : Canon s) :
    Canon (hostWrite ctx k bs va s) := by
  induction k generalizing bs va s with
  | zero => exact h
  | succ k ih =>
    unfold hostWrite
    split
    · exact h
    · dsimp only
      have hp := h.of_mem (unitPlace_mem s ctx .write va)
      split <;> rename_i he <;> have hp := hp.of_pair he
      · exact ih _ _ hp
      · exact ih _ _ (hostStore_canon _ _ _ _ hp)

@[simp] theorem returnData_mem (s : State) (port : HostPort) (bs : List Byte) : (returnData s port bs).mem = s.mem := modPort_mem ..

theorem execHostDma_canon (port : HostPort) (off : Nat) (op : DmaOp) {s : State} (h : Canon s) :
    CanonResult (execHostDma port off op s) := by
  show Canon _
  dsimp only
  split
  · split
    · exact hostWrite_canon _ _ _ _ h
    · exact h
  · split
    · exact h
    · have hr := fun ctx k va n => h.of_mem (hostRead_mem ctx k va n s)
      split <;> rename_i he
      · refine Canon.of_mem ?_ (returnData_mem _ _ _)
        have hr := (hr _ _ _ _).of_pair he
        exact hr
      · exact ((hr _ _ _ _).of_pair he).of_mem (returnData_mem _ _ _)
  · split
    · exact h.of_mem (returnData_mem _ _ _)
    · exact h

/-! ## Host commands -/

theorem doCtxCreate_mem (c : Cmd) (o : CtxOperands) (s : State) : (doCtxCreate c o s).mem = s.mem := by
  unfold doCtxCreate
  split
  · exact endCmd_mem _ _ _
  · exact endWith_mem _ _ _

theorem doCtxDestroy_mem (c : Cmd) (ctx : Nat) (s : State) : (doCtxDestroy c ctx s).mem = s.mem := by
  unfold doCtxDestroy
  split_ifs
  · exact endCmd_mem _ _ _
  · exact endCmd_mem _ _ _
  · exact endCmd_mem _ _ _

theorem doDomOpen_mem (c : Cmd) (dom : BitVec 16) (salt : DWord) (cistern catalogue : Nat) (s : State) :
    (doDomOpen c dom salt cistern catalogue s).mem = s.mem := by
  unfold doDomOpen
  dsimp only
  split
  · exact endCmd_mem _ _ _
  · split
    · exact endCmd_mem _ _ _
    · have hp := unitRead_mem s c.ctx salt 32
      split <;> rename_i he <;> have hp := (mem_of_pair he).trans hp <;> exact (endCmd_mem _ _ _).trans hp

theorem domCommand_mem (c : Cmd) (dom : BitVec 16) (isOpen : Bool) (s : State) : (domCommand c dom isOpen s).mem = s.mem := by
  unfold domCommand
  split
  · exact (endCmd_mem _ _ _).trans (modDomain_mem ..)
  · exact endCmd_mem _ _ _

theorem doPreempt_mem (c : Cmd) (hw : Nat) (s : State) : (doPreempt c hw s).mem = s.mem := by
  unfold doPreempt
  split
  · exact endCmd_mem _ _ _
  · exact modBox_mem s c _

theorem doWindow_mem (c : Cmd) (base : DWord) (s : State) : (doWindow c base s).mem = s.mem := by
  unfold doWindow
  split
  · exact endCmd_mem _ _ _
  · exact (endCmd_mem _ _ _).trans (modPort_mem _ _ _)

theorem imageBytes_mem (s : State) (ctx : Nat) (addr : DWord) (len : Nat) : (imageBytes s ctx addr len).2.mem = s.mem := by
  unfold imageBytes
  split
  · rfl
  · exact unitRead_mem ..

theorem doFwUpdate_mem (c : Cmd) (addr : DWord) (len : Nat) (s : State) : (doFwUpdate c addr len s).mem = s.mem := by
  have hp := imageBytes_mem s c.ctx addr len
  unfold doFwUpdate
  split <;> rename_i he <;> have hp := (mem_of_pair he).trans hp
  · exact (endCmd_mem _ _ _).trans hp
  · split
    · extract_lets s1
      have h1 : s1.mem = s.mem := (endCmd_mem _ _ _).trans hp
      split <;> exact h1
    · exact (endCmd_mem _ _ _).trans hp

theorem doAttest_canon (c : Cmd) (nonce : List Byte) (addr : DWord) {s : State} (h : Canon s) :
    Canon (doAttest c nonce addr s) := by
  unfold doAttest
  split
  · exact h.of_mem (endCmd_mem _ _ _)
  · refine Canon.of_mem ?_ (endCmd_mem _ _ _)
    split
    · exact writeBytes_canon _ _ _ _ _ _ h
    · exact unitWrite_canon _ _ _ _ h

/-! ## DIE.RESET -/

@[simp] theorem dropDieItems_mem (s : State) (die : Nat) : (dropDieItems s die).mem = s.mem := rfl

@[simp] theorem saveDieQueues_canon {s : State} (die : Nat) (h : Canon s) : Canon (saveDieQueues s die) := by
  refine foldl_canon (fun s key hs => ?_) _ h
  dsimp only
  split
  · exact blockWrite_canon _ _ _ _ hs
  · exact hs

@[simp] theorem squashDie_mem (s : State) (die : Nat) : (squashDie s die).mem = s.mem :=
  foldl_mem (fun _ _ => squashFrom_mem _ _ _) _ _

@[simp] theorem clearDie_canon {s : State} (die : Nat) (h : Canon s) : Canon (clearDie s die) := filter_wf _ h

theorem atOnce_canon {e : State → Result} {s : State} (h : Canon s) (he : CanonResult (e s)) : Canon (atOnce e s) := by
  unfold atOnce
  split <;> rename_i hr
  · rwa [hr] at he
  · exact h

@[simp] theorem finishGrid_canon {s : State} (gid : Nat) (h : Canon s) : Canon (finishGrid s gid) := by
  unfold finishGrid
  have hl : Canon ((s.ladders.filter (·.2.grid == gid)).foldl
      (fun s l => atOnce (execLadderComplete (l.1 / 4) (l.1 % 4)) s) s) :=
    foldl_canon (fun _ _ hs => atOnce_canon hs (execLadderComplete_canon _ _ hs)) _ h
  exact atOnce_canon hl (execGridEnd_canon _ hl)

@[simp] theorem resetDie_canon {s : State} (die : Nat) (failing : List Nat) (h : Canon s) : Canon (resetDie s die failing) := by
  unfold resetDie
  extract_lets gone s1 s2 s3
  have h1 : Canon s1 := foldl_canon (fun _ _ hs => cancelGrid_canon _ _ hs) _ h
  have h2 : Canon s2 := saveDieQueues_canon die (h1.of_mem (dropDieItems_mem s1 die))
  have h3 : Canon s3 := clearDie_canon die
    (Canon.of_mem (foldl_canon (fun _ _ hs => finishGrid_canon _ hs) gone h2) (squashDie_mem _ die))
  exact h3.of_mem (foldl_mem markCore_mem _ _)

/-! ## The command processor -/

@[simp] theorem HostCmd.act_canon (c : Cmd) (k : HostCmd) {s : State} (h : Canon s) : Canon (k.act c s) := by
  cases k with
  | ctxCreate o => exact h.of_mem (doCtxCreate_mem c o s)
  | ctxDestroy ctx => exact h.of_mem (doCtxDestroy_mem c ctx s)
  | domOpen dom salt ci ca => exact h.of_mem (doDomOpen_mem c dom salt ci ca s)
  | domClear dom => exact h.of_mem (domCommand_mem c dom true s)
  | domClose dom => exact h.of_mem (domCommand_mem c dom false s)
  | preempt hw => exact h.of_mem (doPreempt_mem c hw s)
  | inval va => exact h.of_mem (endCmd_mem (dropPage s c.ctx va) c 0)
  | peerseq chip => exact h.of_mem (endWith_mem _ _ _)
  | peerfail chip => exact (declareFailed_canon chip h).of_mem (endCmd_mem _ c 0)
  | dieReset die failing => exact (resetDie_canon die.toNat failing h).of_mem (endCmd_mem _ c 0)
  | fwUpdate addr len => exact h.of_mem (doFwUpdate_mem c addr len s)
  | attest nonce addr => exact doAttest_canon c nonce addr h
  | window base => exact h.of_mem (doWindow_mem c base s)
  | unlisted code => exact h.of_mem (endCmd_mem s c 1)

@[simp] theorem startCmd_canon (c : Cmd) (k : HostCmd) {s : State} (h : Canon s) : Canon (startCmd c k s) := by
  unfold startCmd
  split
  · exact h.of_mem (endCmd_mem _ _ _)
  · split
    · split
      · exact k.act_canon c h
      · exact h.of_mem (endCmd_mem _ _ _)
    · exact k.act_canon c h

theorem command_canon (c : Cmd) (k : HostCmd) {s : State} (h : Canon s) : CanonResult (command c k s) := by
  unfold command
  split
  · exact h
  · split
    · show Canon _
      split
      · exact k.act_canon c h
      · exact h.of_mem (endCmd_mem _ _ _)
    · split
      · exact h
      · split
        · exact h.of_mem (modBox_mem _ _ _)
        · exact startCmd_canon c k h

theorem writeMailbox_canon (c : Cmd) (off : Nat) (bs : List Byte) {s : State} (h : Canon s) :
    CanonResult (writeMailbox c off bs s) := by
  unfold writeMailbox
  extract_lets s1
  have h1 : Canon s1 := by
    unfold s1
    split
    · exact h.of_mem (modBox_mem _ _ _)
    · exact h
  split
  · exact command_canon _ _ h1
  · exact h1

@[simp] theorem writeWindow_canon (c : Cmd) (win off : Nat) (bs : List Byte) {s : State} (h : Canon s) :
    Canon (writeWindow c win off bs s) := by
  unfold writeWindow
  extract_lets key s1
  have h1 : Canon s1 := h.of_mem (modPort_mem _ _ _)
  split
  · exact submitRecord_canon _ _ h1
  · exact h1

@[simp] theorem writeSem_mem (port : HostPort) (off : Nat) (bs : List Byte) (s : State) : (writeSem port off bs s).mem = s.mem := by
  unfold writeSem
  dsimp only
  split
  · split
    · exact acquireSem_mem ..
    · exact releaseSem_mem ..
  · rfl

theorem execHostRegWrite_canon (c : Cmd) (off : Nat) (bytes : List Byte) {s : State} (h : Canon s) :
    CanonResult (execHostRegWrite c off bytes s) := by
  unfold execHostRegWrite
  dsimp only
  split_ifs
  · exact h
  · exact writeMailbox_canon _ _ _ h
  · exact h
  · exact writeWindow_canon _ _ _ _ h
  · exact h
  · exact h.of_mem (writeSem_mem ..)
  · exact h.of_mem (modPort_mem _ _ _)

@[simp] theorem runWaiting_canon (l : List (Cmd × HostCmd)) {s : State} (h : Canon s) : Canon (runWaiting l s) := by
  induction l generalizing s with
  | nil => exact h
  | cons p t ih =>
    unfold runWaiting
    split
    · exact (ih h).of_mem (modBox_mem _ _ _)
    · exact ih (startCmd_canon _ _ h)

@[simp] theorem finishPreempts_canon {s : State} (hw : Nat) (h : Canon s) : Canon (finishPreempts s hw) :=
  runWaiting_canon _ h

theorem execGangPreemption_canon (hw : Nat) {s : State} (h : Canon s) : CanonResult (execGangPreemption hw s) := by
  unfold execGangPreemption
  split
  · exact h
  · split
    · exact h
    · refine finishPreempts_canon hw (foldl_canon (fun _ _ hs => saveCluster_canon _ _ hs) _ (settleWarps_canon hw ?_))
      exact (quiesce_canon hw h).of_mem (saveAtCheckpoint_mem _ hw)

theorem execReplayReexecute_canon (core part idx : Nat) (run : SpareRun) {s : State} (h : Canon s) :
    CanonResult (execReplayReexecute core part idx run s) := by
  unfold execReplayReexecute
  extract_lets q
  split
  · exact h
  · extract_lets left q' differs s1
    clear_value differs
    split
    · exact h
    · show Canon _
      split
      · exact h.of_mem ((softError_mem _ _ _).trans (modCore_mem _ _ _))
      · exact h

end Sys2Proof.Machine
end

section
/-! PROOFS. Every step keeps the canonical form of memory: every instruction, every move, every step. -/

namespace Sys2Proof.Machine

/-! ## Every word and every event -/

theorem exec_canon (i : Instr) {s : State} (h : Canon s) : CanonResult (exec i s) := by
  cases i with
  | addi | andi | ori | xori | slti | lui | shli | shri | srai =>
    dsimp only [exec, execAddi, execAndi, execOri, execXori, execSlti, execLui, execShli, execShri, execSrai]
    exact immOp_canon _ _ _ h
  | add | sub | mul | mulh | and | or | xor | shl | shr | sra | slt | sltn | min | max | minn | maxn =>
    dsimp only [exec, execAdd, execSub, execMul, execMulh, execAnd, execOr, execXor, execShl, execShr, execSra, execSlt,
      execSltn, execMin, execMax, execMinn, execMaxn]
    exact regOp_canon _ _ _ _ h
  | beq | bne | blt | bge | bltn | bgen =>
    dsimp only [exec, execBeq, execBne, execBlt, execBge, execBltn, execBgen]
    exact branchOp_canon _ _ _ _ h
  | lds | ldsw =>
    dsimp only [exec, execLds, execLdsw]
    exact loadScalar_canon _ _ _ _ h
  | sts | stsw =>
    dsimp only [exec, execSts, execStsw]
    exact storeScalar_canon _ _ _ _ h
  | prefsL1 | prefsL2 =>
    dsimp only [exec, execPrefsL1, execPrefsL2]
    exact prefetchScalar_canon _ _ _ h
  | qpopW | qpopM =>
    dsimp only [exec, execQpopW, execQpopM]
    exact popBack_canon _ _ _ _ _ h
  | j | jal | jr | tramps | nops =>
    dsimp only [exec, execJ, execJal, execJr, execTramps, execNops]
    refine accessWord_canon (fun h => ?_) h
    exact jumpAccess_canon _ h
  | traps | undefinedAccessWord =>
    dsimp only [exec, execTraps, execUndefinedAccessWord]
    refine accessWord_canon (fun h => ?_) h
    exact accessTrap_canon _ _ _ _ h
  | imul | imulh | imulhn | imad | imin | imax | iminn | imaxn | iabs | ineg | iand | ior | ixor | inot | ishr | isra | irot
    | iclz | ipopc | ibrev | ibfx | ibfi | idiv | idivn | irem | iremn | hadd2 | hmul2 | hfma2 | cvt | cvtPk | cvtUpk =>
    dsimp only [exec, execImul, execImulh, execImulhn, execImad, execImin, execImax, execIminn, execImaxn, execIabs,
      execIneg, execIand, execIor, execIxor, execInot, execIshr, execIsra, execIrot, execIclz, execIpopc, execIbrev,
      execIbfx, execIbfi, execIdiv, execIdivn, execIrem, execIremn, execHadd2, execHmul2, execHfma2, execCvt, execCvtPk,
      execCvtUpk]
    exact laneMap_canon _ _ h
  | fadd | fsub | fmul | fma | fmin | fmax | fabs | fneg | frcp | frsq | fsqrt | fdiv | fexp2 | flog2 | frint | fscale |
    dot4e | fexpe =>
    dsimp only [exec, execFadd, execFsub, execFmul, execFma, execFmin, execFmax, execFabs, execFneg, execFrcp, execFrsq,
      execFsqrt, execFdiv, execFexp2, execFlog2, execFrint, execFscale, execDot4e, execFexpe, floatMap]
    exact laneMap_canon _ _ h
  | bra | call | yield =>
    dsimp only [exec, execBra, execCall, execYield]
    exact controlWord_canon _ _ h
  | brx | callx =>
    dsimp only [exec, execBrx, execCallx]
    exact targetWord_canon _ _ _ h
  | ld | ldP | ldCl | ldC =>
    dsimp only [exec, execLd, execLdP, execLdCl, execLdC]
    exact loadWord_canon _ _ _ _ _ h
  | st | stP | stCl =>
    dsimp only [exec, execSt, execStP, execStCl]
    exact storeWord_canon _ _ _ _ h
  | mxLoadw | mxSwap | mxClear | mxClearRel | mxStream | tmaskAcc =>
    dsimp only [exec, execMxLoadw, execMxSwap, execMxClear, execMxClearRel, execMxStream, execTmaskAcc]
    exact matrixWord_canon (by exact fun _ hc => hc) h
  | fragOut | fragOutWin =>
    dsimp only [exec, execFragOut, execFragOutWin]
    exact fragWord_canon (by exact fun _ _ hc => hc) (by exact fun _ hc => hc) h
  | ctxCreate | ctxDestroy | domOpen | domClear | domClose | preempt | inval | peerseq | peerfail | dieReset | fwUpdate |
    attest | window | unlistedCommandCode =>
    dsimp only [exec, execCtxCreate, execCtxDestroy, execDomOpen, execDomClear, execDomClose, execPreempt, execInval,
      execPeerseq, execPeerfail, execDieReset, execFwUpdate, execAttest, execWindow, execUnlistedCommandCode]
    exact command_canon _ _ h
  | nop | iadd | isub | ishl | icmp | isel | movi | mov | movx | movxd | laneid | fcmp | fclass | qbx4 | dqbx4 | tag | tagr
    | shape | vote | redx | scan | matchLanes | cmpr | elect | alive | ret | reconv | entry | pset | pmov | preemptOn |
    fence | tmaskReg | fragName | ladDoneTest | ladItem | sigRd | rgCkpt | rgStat | wearRd | csrr | tramp | twosum | fastsum
    | specStat =>
    dsimp only [exec, execNop, execIadd, execIsub, execIshl, execIcmp, execIsel, execMovi, execMov, execMovx, execMovxd,
      execLaneid, execFcmp, execFclass, execQbx4, execDqbx4, execTag, execTagr, execShape, execVote, execRedx, execScan,
      execMatchLanes, execCmpr, execElect, execAlive, execRet, execReconv, execEntry, execPset, execPmov, execPreemptOn,
      execFence, execTmaskReg, execFragName, execLadDoneTest, execLadItem, execSigRd, execRgCkpt, execRgStat, execWearRd,
      execCsrr, execTramp, execTwosum, execFastsum, execSpecStat, pairMap, specWord]
    exact laneWord_canon (by exact fun _ hc => hc) h
  | atom | red =>
    dsimp only [exec, execAtom, execRed]
    exact laneWord_canon (atomBody_canon _) h
  | trap =>
    dsimp only [exec, execTrap]
    exact laneWord_canon (by exact fun _ _ => trivial) h
    | queueRefill | ptsTick | queueStallEnd | hostLinkDown => exact h
    | ldq => exact execLdq_canon _ _ _ h
    | qpush => exact execQpush_canon _ _ _ h
    | qpopD => exact execQpopD_canon _ _ _ _ h
    | xlats => exact execXlats_canon _ _ _ h
    | xlatq => exact execXlatq_canon _ _ _ h
    | csrrs => exact execCsrrs_canon _ _ h
    | csrws => exact execCsrws_canon _ _ h
    | lstart => exact execLstart_canon _ h
    | lwait => exact execLwait_canon _ _ h
    | yields => exact execYields_canon _ h
    | shfl => exact execShfl_canon _ h
    | exit => exact execExit_canon _ h
    | lmark => exact execLmark_canon _ h
    | launch => exact execLaunch_canon _ h
    | preemptOff => exact execPreemptOff_canon _ h
    | cas => exact execCas_canon _ h
    | fenceX => exact execFenceX_canon _ h
    | barInit => exact execBarInit_canon _ h
    | barArrive => exact execBarArrive_canon _ h
    | barExpect => exact execBarExpect_canon _ h
    | barWait => exact execBarWait_canon _ h
    | barTest => exact execBarTest_canon _ h
    | xlat => exact execXlat_canon _ h
    | xlatRp => exact execXlatRp_canon _ h
    | prefetch => exact execPrefetch_canon _ h
    | mxDrainReg => exact execMxDrainReg_canon _ h
    | mxDrainMem => exact execMxDrainMem_canon _ h
    | mxStat => exact execMxStat_canon _ h
    | cpTile => exact execCpTile_canon _ h
    | cpCmd => exact execCpCmd_canon _ h
    | sampArm => exact execSampArm_canon _ h
    | fragOpen => exact execFragOpen_canon _ h
    | fragIn => exact execFragIn_canon _ h
    | fragInm => exact execFragInm_canon _ h
    | fragClaim => exact execFragClaim_canon _ h
    | fragSeal => exact execFragSeal_canon _ h
    | fragDrop => exact execFragDrop_canon _ h
    | specOpen => exact execSpecOpen_canon _ h
    | specCommit => exact execSpecCommit_canon _ h
    | specSquash => exact execSpecSquash_canon _ h
    | kvStage => exact execKvStage_canon _ h
    | kvCommit => exact execKvCommit_canon _ h
    | qPush => exact execQPush_canon _ h
    | qPop => exact execQPop_canon _ h
    | qStat => exact execQStat_canon _ h
    | ladDoneOpen => exact execLadDoneOpen_canon _ h
    | ladEsc => exact execLadEsc_canon _ h
    | ladRes => exact execLadRes_canon _ h
    | sigChk => exact execSigChk_canon _ h
    | csrw => exact execCsrw_canon _ h
    | tret => exact execTret_canon _ h
    | undefinedLaneOpcode op w => exact execUndefinedLaneOpcode_canon op w h
    | spmapWrite => exact execSpmapWrite_canon _ _ h
    | invpgWrite => exact execInvpgWrite_canon _ h
    | rginjWrite => exact execRginjWrite_canon _ h
    | varlatResultWrite => exact execVarlatResultWrite_canon _ h
    | clusterStart => exact execClusterStart_canon _ h
    | gangPreemption => exact execGangPreemption_canon _ h
    | clusterRestore => exact execClusterRestore_canon _ _ h
    | taskLaunch => exact execTaskLaunch_canon _ h
    | gridEnd => exact execGridEnd_canon _ h
    | epochCommitPoint => exact execEpochCommitPoint_canon _ _ h
    | loaderDone => exact execLoaderDone_canon _ h
    | streamDone => exact execStreamDone_canon _ h
    | drainBytesLand => exact execDrainBytesLand_canon _ h
    | filterRowRecord => exact execFilterRowRecord_canon _ _ h
    | copyBytesLand => exact execCopyBytesLand_canon _ _ _ h
    | ladderItemEntry => exact execLadderItemEntry_canon _ _ h
    | starveExpire => exact execStarveExpire_canon _ _ _ h
    | groupLaunch => exact execGroupLaunch_canon _ h
    | ladderComplete => exact execLadderComplete_canon _ _ h
    | replayReexecute => exact execReplayReexecute_canon _ _ _ _ h
    | halts => exact execHalts_canon h
    | yieldsExpire => exact execYieldsExpire_canon h
    | rginjFire => exact execRginjFire_canon h
    | trapEntry => exact execTrapEntry_canon h
    | pageHwServiceEnd => exact execPageHwServiceEnd_canon h
    | lmarkRetire => exact execLmarkRetire_canon h
    | lwaitComplete => exact execLwaitComplete_canon h
    | barWaitReturn => exact execBarWaitReturn_canon h
    | quantumRotation => exact execQuantumRotation_canon h
    | watchdogExpire => exact execWatchdogExpire_canon h
    | nopreemptCap => exact execNopreemptCap_canon h
    | warpCancel => exact execWarpCancel_canon h
    | taskAccept => exact execTaskAccept_canon h
    | rgCommit => exact execRgCommit_canon h
    | wearRecordWrite => exact execWearRecordWrite_canon h
    | suppliesUp => exact execSuppliesUp_canon h
    | fuseRead => exact execFuseRead_canon h
    | romLoad => exact execRomLoad_canon h
    | fwVerify => exact execFwVerify_canon h
    | wearLoad => exact execWearLoad_canon h
    | fabricBringup => exact execFabricBringup_canon h
    | memoryClear => exact execMemoryClear_canon h
    | startFail => exact execStartFail_canon h
    | powerLoss => exact execPowerLoss_canon h
    | orderlyShutdown => exact execOrderlyShutdown_canon h
    | copyFabricError => exact execCopyFabricError_canon _ _ _ h
    | poisonDetect => exact execPoisonDetect_canon _ h
    | timestampScrub => exact execTimestampScrub_canon _ h
    | remoteWriteApply => exact execRemoteWriteApply_canon _ _ _ _ h
    | l2ModeChange => exact execL2ModeChange_canon _ h
    | wearPeriod => exact execWearPeriod_canon _ _ h
    | infieldTest => exact execInfieldTest_canon _ h
    | infieldTestDone => exact execInfieldTestDone_canon _ _ h
    | powerWindow => exact execPowerWindow_canon _ h
    | hbmScrub => exact execHbmScrub_canon _ h
    | taskSubmit => exact execTaskSubmit_canon _ _ h
    | semAcquire => exact execSemAcquire_canon _ _ _ h
    | semRelease => exact execSemRelease_canon _ _ _ h
    | hostRegWrite => exact execHostRegWrite_canon _ _ _ h
    | hostDma => exact execHostDma_canon _ _ _ h
    | routeLossTimeout => exact execRouteLossTimeout_canon _ h
    | linkNegotiate => exact execLinkNegotiate_canon _ _ h
    | hbmInit => exact execHbmInit_canon _ h
    | scanSelfTest => exact execScanSelfTest_canon _ h
    | remoteLeaseRequest => exact execRemoteLeaseRequest_canon _ _ h
    | fabricLinkLoss => exact execFabricLinkLoss_canon _ h

/-! ## What moves next -/

@[simp] theorem accessMove_canon {s : State} (h : Canon s) : Canon (accessMove s).2 := by
  unfold accessMove
  split
  · exact h
  · extract_lets s1 pc
    have h1 : Canon s1 := h
    split
    · exact accessTrap_canon _ _ _ _ h1
    · have hf := h1.of_mem (fetchAccess_mem s1 s1.warp pc)
      split <;> rename_i he <;> have hf := hf.of_pair he
      · exact hf
      · exact accessTrap_canon _ _ _ _ hf

@[simp] theorem laneMove_canon (b : Bool) {s : State} (h : Canon s) : Canon (laneMove b s).2 := by
  unfold laneMove
  extract_lets s1
  have h1 : Canon s1 := h
  split
  · exact h1
  · split
    · exact h1
    · rename_i sp _
      split
      · exact takeTrap_canon _ h1
      · have hf := h1.of_mem (fetchLane_mem s1 s1.warp sp.pc)
        split <;> rename_i he <;> have hf := hf.of_pair he
        · exact hf
        · exact takeTrap_canon _ hf

@[simp] theorem eventMove_mem (s : State) : (eventMove s).2.mem = s.mem := by
  unfold eventMove
  split <;> rfl

@[simp] theorem turnMove_canon (t : Turn) {s : State} (h : Canon s) : Canon (turnMove t s).2 := by
  cases t with
  | access => exact accessMove_canon h
  | laneA => exact laneMove_canon false h
  | laneB => exact laneMove_canon true h
  | event => exact h.of_mem (eventMove_mem s)

@[simp] theorem rotate_mem (s : State) : (rotate s).mem = s.mem := by
  unfold rotate
  split <;> rfl

@[simp] theorem notServed_mem (cores : Tab Core) (id : Nat) (s : State) : (notServed cores id s).mem = s.mem := by
  unfold notServed
  split
  · split <;> rfl
  · rfl

@[simp] theorem afterMove_mem (cores : Tab Core) (t : Turn) (id : Nat) (s : State) : (afterMove cores t id s).mem = s.mem := by
  cases t with
  | access => exact (pumpServed_mem _ _).trans (notServed_mem cores id s)
  | laneA => rfl
  | laneB => rfl
  | event => exact rotate_mem s

@[simp] theorem passTo_mem (c : Nat) (s : State) : (passTo c s).mem = s.mem := rfl
@[simp] theorem beginTurn_mem (t : Turn) (n : Nat) (s : State) : (beginTurn t n s).mem = s.mem := rfl

theorem agentChoice_canon (t : Turn) (n : Nat) {s : State} (h : Canon s) : Canon (agentChoice t n s).move.2 :=
  turnMove_canon t (h.of_mem (beginTurn_mem t n s))

theorem choose_canon {s : State} (h : Canon s) : Canon (choose s).move.2 := by
  unfold choose
  split
  · refine agentChoice_canon _ _ (Canon.of_mem ?_ (focusWarp_mem _ _))
    exact h
  · exact agentChoice_canon _ _ h

theorem runMove_canon (cores : Tab Core) (c : Choice) (h : Canon c.move.2) : CanonResult (runMove cores c) := by
  unfold runMove
  dsimp only
  split
  · exact h.of_mem (afterMove_mem _ _ _ _)
  · rename_i i _
    have he := exec_canon i h
    split
    · rename_i hr
      rw [hr] at he
      exact Canon.of_mem he (afterMove_mem _ _ _ _)
    · exact he

theorem step_canon {s : State} (h : Canon s) : CanonResult (step s) := by
  unfold step nextMove
  split
  · exact exec_canon _ h
  · split
    · exact exec_canon _ (h.of_mem (passTo_mem _ s))
    · exact runMove_canon _ _ (choose_canon h)

/-- Settles O60: a state is canonical where its memory is, and every word, event and move leaves a canonical state so,
since a byte enters memory by `memPut` alone and leaves it by a filter. -/
theorem stepKeepsMemory : Obligations.StepKeepsMemory := by
  unfold Obligations.StepKeepsMemory
  intro s t h hs
  have hc := step_canon h
  rwa [hs] at hc

end Sys2Proof.Machine
end

section
/-! PROOFS. Lane masks: lanes of a mask, masks by a test, the lowest lane. -/

namespace Sys2Proof.Machine

theorem mask_ext {a b : LaneMask} (h : ∀ i, i < 32 → a.has i = b.has i) : a = b :=
  BitVec.eq_of_getLsbD_eq fun i hi => h i hi

@[simp] theorem zero_has (i : Nat) : LaneMask.has 0#32 i = false := by simp [LaneMask.has]

theorem has_lt {m : LaneMask} {i : Nat} (h : m.has i = true) : i < 32 := by
  by_contra hc
  rw [LaneMask.has, BitVec.getLsbD_of_ge _ _ (by omega)] at h
  exact absurd h (by simp)

theorem or_has (a b : LaneMask) (i : Nat) : LaneMask.has (a ||| b) i = (a.has i || b.has i) := BitVec.getLsbD_or

theorem and_has (a b : LaneMask) (i : Nat) : LaneMask.has (a &&& b) i = (a.has i && b.has i) := BitVec.getLsbD_and

theorem diff_has (a b : LaneMask) (i : Nat) : LaneMask.has (a &&& ~~~b) i = (a.has i && !b.has i) := by
  by_cases hi : i < 32
  · simp [LaneMask.has, hi]
  · simp [LaneMask.has, BitVec.getLsbD_of_ge _ i (Nat.le_of_not_lt hi)]

/-- A mask is empty where it holds no lane. -/
theorem mask_eq_zero {m : LaneMask} : m = 0#32 ↔ ∀ i, m.has i = false := by
  refine ⟨fun h i => by rw [h, zero_has], fun h => mask_ext fun i _ => by rw [h, zero_has]⟩

theorem mask_ne_zero {m : LaneMask} (h : m ≠ 0#32) : ∃ i, i < 32 ∧ m.has i = true := by
  by_contra hc
  push Not at hc
  exact h (mask_ext fun i hi => by rw [zero_has]; simpa using hc i hi)

/-- Of one mask nothing is left without another exactly where the other holds it. -/
theorem diff_eq_zero {a b : LaneMask} : a &&& ~~~b = 0#32 ↔ ∀ i, a.has i = true → b.has i = true := by
  rw [mask_eq_zero]
  simp only [diff_has, Bool.and_eq_false_iff, Bool.not_eq_false']
  refine forall_congr' fun i => ?_
  cases a.has i <;> simp

theorem mem_lanes {m : LaneMask} {i : Nat} : i ∈ LaneMask.lanes m ↔ m.has i = true := by
  unfold LaneMask.lanes laneIds
  rw [List.mem_filter, List.mem_range]
  exact ⟨fun h => h.2, fun h => ⟨has_lt h, h⟩⟩

theorem ofPred_has_aux (p : Nat → Bool) (l : List Nat) (m : LaneMask) (i : Nat) (hi : i < 32) :
    LaneMask.has (l.foldl (fun m i => if p i then m ||| BitVec.twoPow 32 i else m) m) i = (m.has i || (l.contains i && p i)) := by
  induction l generalizing m with
  | nil => simp
  | cons k t ih =>
    rw [List.foldl_cons, ih, List.contains_cons]
    by_cases hk : i = k
    · subst hk
      cases p i <;> simp [LaneMask.has, hi]
    · have hb : (i == k) = false := by simpa using hk
      rw [hb, Bool.false_or]
      congr 1
      split
      · simp [LaneMask.has, hi, hk]
      · rfl

/-- The mask of a test holds the lanes that satisfy it. -/
theorem ofPred_has (p : Nat → Bool) {i : Nat} (hi : i < 32) : (LaneMask.ofPred p).has i = p i := by
  refine (ofPred_has_aux p laneIds 0#32 i hi).trans ?_
  simp [laneIds, hi]

theorem ofPred_congr {p q : Nat → Bool} (h : ∀ i, i < 32 → p i = q i) : LaneMask.ofPred p = LaneMask.ofPred q :=
  mask_ext fun i hi => by rw [ofPred_has _ hi, ofPred_has _ hi, h i hi]

/-- A mask is the mask of its own lanes. -/
theorem ofPred_self (m : LaneMask) : LaneMask.ofPred (fun i => m.has i) = m :=
  mask_ext fun _ hi => ofPred_has _ hi

/-- A mask that holds a lane lists its lowest lane first. -/
theorem lanes_lowest {m : LaneMask} (h : m ≠ 0#32) : ∃ l, LaneMask.lanes m = LaneMask.lowest m :: l := by
  obtain ⟨i, -, hi⟩ := mask_ne_zero h
  cases hl : LaneMask.lanes m with
  | nil => exact absurd (mem_lanes.mpr hi) (by simp [hl])
  | cons a t => exact ⟨t, by simp [LaneMask.lowest, hl]⟩

end Sys2Proof.Machine
end

section
/-! PROOFS. Control words: a word that moves splits leaves the warp that its rule names, or traps before any effect, and
BRA (R171). -/

namespace Sys2Proof.Machine

/-! ## Words without operands -/

/-- The word names no queue and reads no register. -/
structure Bare (f : LaneForm) (w : Strip) : Prop where
  queues : namedQueues f w = []
  clean : ∀ s sp p, genericDeaths (readCx s w f sp p) = 0#32

/-- A form without sources reads nothing. -/
theorem bare_of {f : LaneForm} {w : Strip} (ha : f.a.used = false) (hb : f.b.used = false) (hc : f.c.used = false)
    (hd : f.dRead = .unchecked) : Bare f w := by
  refine ⟨?_, fun s sp p => ?_⟩
  · simp [namedQueues, Form.useB, ha, hb, hc]
  · simp [genericDeaths, readCx, Form.useB, ha, hb, hc, hd]

/-- A register pair is no queue. -/
theorem code_of_srcLegal {g : SrcForm} {x : SrcField} {lr : Bool} (h : srcLegal g x lr = true) (hu : g.used = true)
    (hq : g.queue = false) : x.code.toNat < 248 := by
  simp only [srcLegal, hu, hq] at h
  by_contra hc
  have : 248 ≤ x.code.toNat := by omega
  simp [this] at h

/-! ## Which warps a control word leaves -/

/-- Of a warp its slots, its two stacks and the next number have changed at most. -/
def SplitsOnly (w x : Warp) : Prop :=
  x = { w with slotA := x.slotA, slotB := x.slotB, stack := x.stack, rets := x.rets, nextJoin := x.nextJoin }

theorem SplitsOnly.refl (w : Warp) : SplitsOnly w w := rfl

theorem SplitsOnly.trans {w x y : Warp} (h : SplitsOnly w x) (k : SplitsOnly x y) : SplitsOnly w y := by
  unfold SplitsOnly at *
  rw [k, h]

theorem splitsOnly_setSlot (w : Warp) (b : Bool) (o : Option Split) : SplitsOnly w (w.setSlot b o) := by
  cases b <;> rfl

theorem splitsOnly_pushes (l : List Split) (w : Warp) : SplitsOnly w (l.foldl Warp.pushReady w) := by
  induction l generalizing w with
  | nil => exact .refl w
  | cons x t ih => exact SplitsOnly.trans (x := w.pushReady x) rfl (ih _)

theorem splitsOnly_placeSides (w : Warp) (b : Bool) (l : List Split) : SplitsOnly w (placeSides w b l) := by
  unfold placeSides
  split
  · exact .refl w
  · dsimp only
    split
    · exact (splitsOnly_setSlot ..).trans ((splitsOnly_setSlot ..).trans (splitsOnly_pushes ..))
    · exact (splitsOnly_setSlot ..).trans (splitsOnly_pushes ..)

theorem splitsOnly_spread (cx : Cx) (w : Warp) (j : DWord) (l : List (DWord × LaneMask)) :
    SplitsOnly w (cx.spread w j l) := by
  unfold Cx.spread
  split
  · exact splitsOnly_placeSides ..
  · unfold Cx.diverge
    refine SplitsOnly.trans (x := { w with
      nextJoin := w.nextJoin + l.length, stack := w.stack ++ [.join ⟨w.nextJoin, j, cx.sp.mask, cx.sp.join⟩] }) rfl ?_
    exact splitsOnly_placeSides ..

/-- The splits and stacks of the warp are those of `x`, and nothing else that a program sees has changed but counts. -/
structure Moved (s : State) (x : Warp) (t : State) : Prop where
  control : ControlOnly s t
  slotA : t.warp.slotA = x.slotA
  slotB : t.warp.slotB = x.slotB
  stack : t.warp.stack = x.stack
  rets : t.warp.rets = x.rets

section Moved
variable {s t : State} {x : Warp} (h : Moved s x t)
include h

theorem Moved.slot (b : Bool) : t.warp.slot? b = x.slot? b := by
  cases b
  · exact h.slotA
  · exact h.slotB

theorem Moved.slotOf : t.slotB = s.slotB := by rw [h.control.1]

theorem Moved.split : t.split? = x.slot? s.slotB := by
  unfold State.split?
  rw [h.slotOf]
  exact h.slot _

theorem Moved.splits : t.warp.splits = x.splits := by
  unfold Warp.splits
  rw [h.slotA, h.slotB, h.stack]

theorem Moved.joinRec (id : Nat) : t.warp.joinRec id = x.joinRec id := by
  unfold Warp.joinRec
  rw [h.stack]

theorem Moved.waitingAt (id : Nat) : t.warp.waitingAt id = x.waitingAt id := by
  unfold Warp.waitingAt
  rw [h.stack]

theorem Moved.links : t.warp.links = x.links := by
  unfold Warp.links Warp.spilled
  rw [h.rets, h.stack]

theorem Moved.linkOf (i : Nat) : t.warp.linkOf i = x.linkOf i := by
  unfold Warp.linkOf
  rw [h.links]

end Moved

/-! ## Retirement of a control word -/

/-- A control word retires: its splits stand as its body left them. -/
theorem retireMoved_moved {cx : Cx} {s : State} {tlb : List TlbEntry} {x : Warp} (hrg : s.warp.rg = none)
    (hq : namedQueues cx.f cx.w = []) (hx : SplitsOnly s.warp x) :
    Moved s x (retireMoved cx { s with warp := x, tlb := tlb }) := by
  obtain ⟨r, hr, hsame⟩ := release_keeps (releasedRegs cx.f cx.w []) x
  have hrg' : x.rg = none := by rw [hx]; exact hrg
  obtain ⟨c, p, g, hcount, hbare⟩ := countRetired_single (s := { s with warp := { x with regs := r }, tlb := tlb }) cx hrg'
  have hregs : x.regs = s.warp.regs := by rw [hx]
  have heq : retireMoved cx { s with warp := x, tlb := tlb } =
      countRetired { s with warp := { x with regs := r }, tlb := tlb } cx := by
    unfold retireMoved
    rw [hq]
    simp only [modWarp, popQueues, List.foldl_nil, hr]
  rw [heq, hcount]
  refine ⟨⟨?_, hbare, fun n => ?_⟩, rfl, rfl, rfl, rfl⟩
  · dsimp only
    rw [hx]
  · have := hsame n
    unfold SameReg Warp.reg at *
    rwa [hregs] at this

/-! ## A control word issues -/

/-- A word whose own checks stop it after the common ones traps. -/
theorem laneWord_early {i : Instr} {o : LaneOpts} {f : LaneForm} {w : Strip} {sp : Split} {s : State} {body : Cx → LaneRes}
    {tr : TrapInfo} (h : LaneReady i f w sp s) (h1 : o.illegal s sp w = false) (h2 : o.budget (cxOf s f w sp) = 0#32)
    (h3 : o.badFormat (cxOf s f w sp) = false) (h4 : o.early (cxOf s f w sp) = some tr) :
    laneWord i o body s = .next (takeTrap s tr) := by
  obtain ⟨hsplit, hform, hlegal, hin, hfed, hroom, htags, -, hrg⟩ := h
  have hslack : atSlack s.warp = false := by simp [atSlack, hrg]
  have tags : (takingPart s.warp sp f w != 0#32 && (decide (11 ≤ w.fmt.toNat) || !tagsOk s.draws s.warp f w)) = false := by
    rcases htags with h | ⟨h, h'⟩
    · simp [h]
    · simp [h', show ¬ 11 ≤ w.fmt.toNat by omega]
  unfold laneWord
  rw [mailOpts_single hrg]
  unfold laneIssue
  rw [hsplit, hform]
  simp only [cxOf] at h2 h3 h4
  simp only [hlegal, h1, hin, hslack, hfed, hroom, h2, h3, h4, tags, Bool.or_false, Bool.not_true, Bool.false_and,
    Bool.false_eq_true, if_false, bne_self_eq_false]

/-- A word whose own check of the allocation fails traps BUDGET for the lanes that fail it (R71). -/
theorem laneWord_budget {i : Instr} {o : LaneOpts} {f : LaneForm} {w : Strip} {sp : Split} {s : State} {body : Cx → LaneRes}
    {m : LaneMask} (h : LaneReady i f w sp s) (h1 : o.illegal s sp w = false) (h2 : o.budget (cxOf s f w sp) = m) (hm : m ≠ 0#32) :
    laneWord i o body s = .next (takeTrap s (wholeTrap Code.budget m)) := by
  obtain ⟨hsplit, hform, hlegal, hin, hfed, hroom, -, -, hrg⟩ := h
  have hslack : atSlack s.warp = false := by simp [atSlack, hrg]
  have hbud : (m != 0#32) = true := by simpa using hm
  unfold laneWord
  rw [mailOpts_single hrg]
  unfold laneIssue
  rw [hsplit, hform]
  simp only [cxOf] at h2
  simp only [hlegal, h1, hin, hslack, hfed, hroom, h2, hbud, Bool.or_false, Bool.not_true, Bool.false_and,
    Bool.false_eq_true, if_false, if_true]

/-- A ready control word that needs no 65th entry leaves the warp of its rule. -/
theorem controlWord_moved {i : Instr} {after : Cx → Warp} {f : LaneForm} {w : Strip} {sp : Split} {s : State}
    (h : LaneReady i f w sp s) (hb : Bare f w) (hx : SplitsOnly s.warp (after (cxOf s f w sp)))
    (hroom : (after (cxOf s f w sp)).stack.length ≤ 64) :
    ∃ t, controlWord i after s = .next t ∧ Moved s (after (cxOf s f w sp)) t := by
  have hearly : divstack (cxOf s f w sp) (after (cxOf s f w sp)) = none := if_neg (by unfold Warp.stackUse; omega)
  refine ⟨_, laneWord_ready h ⟨rfl, rfl, rfl, hearly, hb.clean .., fun _ _ => ⟨rfl, fun _ _ => rfl⟩⟩ (.inr rfl), ?_⟩
  exact retireMoved_moved (s := s) (tlb := s.tlb) h.single hb.queues hx

/-- A ready control word that needs a 65th entry traps DIVSTACK (R27). -/
theorem controlWord_divstack {i : Instr} {after : Cx → Warp} {f : LaneForm} {w : Strip} {sp : Split} {s : State}
    (h : LaneReady i f w sp s) (hfull : 64 < (after (cxOf s f w sp)).stack.length) :
    controlWord i after s = .next (takeTrap s (wholeTrap Code.divstack sp.mask)) :=
  laneWord_early h rfl rfl rfl (if_pos hfull)

/-! ## Sides of a divided split -/

/-- A side goes on at its address with its lanes, whatever number it has and whenever it entered its slot. -/
theorem continues_side (s : State) (f : LaneForm) (w : Strip) (sp : Split) (join : Option Nat) (pc : DWord) (m : LaneMask)
    (id entered : Nat) :
    Continues s sp pc m join { (cxOf s f w sp).side join (pc, m) with id := id, entered := entered } := rfl

/-- A split that is not divided stays in its slot, and everything else where it is. -/
theorem placeSides_one (w : Warp) (b : Bool) (q : Split) :
    (placeSides w b [q]).slot? b = some { q with entered := ((w.slot? b).map (·.entered)).getD q.entered } ∧
      (placeSides w b [q]).slot? (!b) = w.slot? (!b) ∧ (placeSides w b [q]).stack = w.stack ∧
      (placeSides w b [q]).rets = w.rets := by
  unfold placeSides
  cases h : w.slot? (!b) <;> cases b <;> simp_all [Warp.slot?, Warp.setSlot]

/-- Of two sides the first stays in the slot, and the second takes the free slot or is pushed (R24). -/
theorem placeSides_two (w : Warp) (b : Bool) (q r : Split) :
    (placeSides w b [q, r]).slot? b = some { q with entered := ((w.slot? b).map (·.entered)).getD q.entered } ∧
      (placeSides w b [q, r]).slot? (!b) = (if w.slot? (!b) = none then some r else w.slot? (!b)) ∧
      (placeSides w b [q, r]).stack = w.stack ++ (if w.slot? (!b) = none then [] else [.ready r]) ∧
      (placeSides w b [q, r]).rets = w.rets := by
  unfold placeSides
  cases h : w.slot? (!b) <;> cases b <;> simp_all [Warp.slot?, Warp.setSlot, Warp.pushReady]

/-! ## BRA (R171) -/

/-- The lanes that take a BRA. -/
def takenLanes (s : State) (w : Strip) (sp : Split) : LaneMask :=
  LaneMask.ofPred fun k => sp.mask.has k && (s.warp.predLane (Form.xf w 2 0) k != w.x.getLsbD 3)

theorem braAfter_eq (s : State) (f : LaneForm) (w : Strip) (sp : Split) :
    braAfter w (cxOf s f w sp) =
      if takenLanes s w sp = sp.mask then
        (cxOf s f w sp).spread s.warp 0#64 [(branchTarget sp w.tdisp, takenLanes s w sp)]
      else if takenLanes s w sp = 0#32 then (cxOf s f w sp).spread s.warp 0#64 [(sp.pc + 12#64, sp.mask)]
      else (cxOf s f w sp).spread s.warp (branchTarget sp w.jdispBra)
        [(sp.pc + 12#64, sp.mask &&& ~~~takenLanes s w sp), (branchTarget sp w.tdisp, takenLanes s w sp)] := rfl

/-- Where every lane is taken, or none, the split goes on undivided. -/
theorem braAfter_undivided {s : State} {f : LaneForm} {w : Strip} {sp : Split}
    (hT : takenLanes s w sp = sp.mask ∨ takenLanes s w sp = 0#32) :
    ∃ q, (braAfter w (cxOf s f w sp)).slot? s.slotB = some q ∧
      Continues s sp (if takenLanes s w sp = sp.mask then branchTarget sp w.tdisp else sp.pc + 12#64) sp.mask sp.join q ∧
      (braAfter w (cxOf s f w sp)).slot? (!s.slotB) = s.warp.slot? (!s.slotB) ∧
      (braAfter w (cxOf s f w sp)).stack = s.warp.stack ∧ (braAfter w (cxOf s f w sp)).rets = s.warp.rets := by
  have heq : braAfter w (cxOf s f w sp) = placeSides s.warp s.slotB [(cxOf s f w sp).side sp.join
      (if takenLanes s w sp = sp.mask then branchTarget sp w.tdisp else sp.pc + 12#64, sp.mask)] := by
    rw [braAfter_eq]
    by_cases hm : takenLanes s w sp = sp.mask
    · rw [if_pos hm, if_pos hm, hm]; rfl
    · rw [if_neg hm, if_neg hm, if_pos (hT.resolve_left hm)]; rfl
  rw [heq]
  obtain ⟨h1, h2, h3, h4⟩ := placeSides_one s.warp s.slotB ((cxOf s f w sp).side sp.join
    (if takenLanes s w sp = sp.mask then branchTarget sp w.tdisp else sp.pc + 12#64, sp.mask))
  exact ⟨_, h1, continues_side .., h2, h3, h4⟩

/-- Where some lanes are taken and others are not, a join record is made and the split is divided. -/
theorem braAfter_divided {s : State} {f : LaneForm} {w : Strip} {sp : Split} (hm : takenLanes s w sp ≠ sp.mask)
    (h0 : takenLanes s w sp ≠ 0#32) :
    ∃ q r, (braAfter w (cxOf s f w sp)).slot? s.slotB = some q ∧
      Continues s sp (sp.pc + 12#64) (sp.mask &&& ~~~takenLanes s w sp) (some s.warp.nextJoin) q ∧
      Continues s sp (branchTarget sp w.tdisp) (takenLanes s w sp) (some s.warp.nextJoin) r ∧
      (braAfter w (cxOf s f w sp)).slot? (!s.slotB) =
        (if s.warp.slot? (!s.slotB) = none then some r else s.warp.slot? (!s.slotB)) ∧
      (braAfter w (cxOf s f w sp)).stack = s.warp.stack ++
        [StackEntry.join ⟨s.warp.nextJoin, branchTarget sp w.jdispBra, sp.mask, sp.join⟩] ++
        (if s.warp.slot? (!s.slotB) = none then [] else [StackEntry.ready r]) ∧
      (braAfter w (cxOf s f w sp)).rets = s.warp.rets := by
  let x : Warp := { s.warp with
    nextJoin := s.warp.nextJoin + 2
    stack := s.warp.stack ++ [.join ⟨s.warp.nextJoin, branchTarget sp w.jdispBra, sp.mask, sp.join⟩] }
  let side (g : DWord × LaneMask) (id : Nat) : Split :=
    { (cxOf s f w sp).side (some s.warp.nextJoin) g with id := id }
  have heq : braAfter w (cxOf s f w sp) = placeSides x s.slotB
      [side (sp.pc + 12#64, sp.mask &&& ~~~takenLanes s w sp) sp.id,
        side (branchTarget sp w.tdisp, takenLanes s w sp) (s.warp.nextJoin + 1)] := by
    rw [braAfter_eq, if_neg hm, if_neg h0]
    rfl
  rw [heq]
  obtain ⟨h1, h2, h3, h4⟩ := placeSides_two x s.slotB (side (sp.pc + 12#64, sp.mask &&& ~~~takenLanes s w sp) sp.id)
    (side (branchTarget sp w.tdisp, takenLanes s w sp) (s.warp.nextJoin + 1))
  exact ⟨_, _, h1, continues_side .., continues_side .., h2, h3, h4⟩

theorem bra_bare {f : LaneForm} {w : Strip} {sp : Split} {s : State} (h : LaneReady (.bra w) f w sp s) : Bare f w := by
  have hf := h.form
  simp only [laneForm, Option.some.injEq, Prod.mk.injEq, and_true] at hf
  subst hf
  exact bare_of rfl rfl rfl rfl

theorem splitsOnly_braAfter (cx : Cx) (w : Strip) : SplitsOnly cx.s.warp (braAfter w cx) := by
  unfold braAfter
  dsimp only
  split
  · exact splitsOnly_spread ..
  · split <;> exact splitsOnly_spread ..

/-- Settles O13: a BRA leaves its split undivided where all its lanes agree, and divides it in two otherwise. -/
theorem branch : Obligations.Branch := by
  intro w f sp s h hstack T id record free
  have hx := splitsOnly_braAfter (cxOf s f w sp) w
  refine ⟨fun hT => ?_, fun hm h0 hroom => ?_, fun hm h0 hfull => ?_⟩
  · obtain ⟨q, hq, hc, ho, hst, hr⟩ := braAfter_undivided (f := f) hT
    obtain ⟨t, ht, hmv⟩ := controlWord_moved h (bra_bare h) hx (by rw [hst]; exact hstack)
    exact ⟨t, q, ht, hmv.split.trans hq, hc, (hmv.slot _).trans ho, hmv.stack.trans hst, hmv.rets.trans hr, hmv.control⟩
  · obtain ⟨q, r, hq, hc, hc', ho, hst, hr⟩ := braAfter_divided (f := f) hm h0
    have hlen : (braAfter w (cxOf s f w sp)).stack.length = s.warp.stack.length + 1 + (if free then 0 else 1) := by
      rw [hst]
      by_cases hfree : free <;> simp [free] at hfree <;> simp [free, hfree]
    obtain ⟨t, ht, hmv⟩ := controlWord_moved h (bra_bare h) hx (by rw [hlen]; exact hroom)
    exact ⟨t, q, r, ht, hmv.split.trans hq, hc, hc', (hmv.slot _).trans ho, hmv.stack.trans hst, hmv.rets.trans hr,
      hmv.control⟩
  · obtain ⟨q, r, -, -, -, -, hst, -⟩ := braAfter_divided (f := f) hm h0
    refine controlWord_divstack h ?_
    rw [hst]
    by_cases hfree : free <;> simp [free] at hfree <;> simp [free, hfree] at hfull ⊢ <;> omega

end Sys2Proof.Machine
end

section
/-! PROOFS. A split divided by an address per lane (R24), and BRX and CALLX (R172, R175): their targets are looked up, the
split is divided, or a trap names the lanes. -/

namespace Sys2Proof.Machine

/-! ## Groups of lanes -/

/-- The lanes that share lane k's address. -/
def sharing (m : LaneMask) (addr : Nat → DWord) (k : Nat) : LaneMask := LaneMask.ofPred fun j => m.has j && addr j == addr k

theorem mem_groupLanes {m : LaneMask} {addr : Nat → DWord} {g : DWord × LaneMask} :
    g ∈ groupLanes m addr ↔ ∃ k, m.has k = true ∧ g = (addr k, sharing m addr k) := by
  unfold groupLanes sharing
  simp only [List.mem_map, List.mem_eraseDups, mem_lanes]
  constructor
  · rintro ⟨a, ⟨k, hk, rfl⟩, rfl⟩
    exact ⟨k, hk, rfl⟩
  · rintro ⟨k, hk, rfl⟩
    exact ⟨addr k, ⟨k, hk, rfl⟩, rfl⟩

/-- The group of the lowest lane stands first. -/
theorem groupLanes_cons {m : LaneMask} (addr : Nat → DWord) (hm : m ≠ 0#32) :
    ∃ rest, groupLanes m addr = (addr (LaneMask.lowest m), sharing m addr (LaneMask.lowest m)) :: rest := by
  obtain ⟨l, hl⟩ := lanes_lowest hm
  unfold groupLanes
  rw [hl, List.map_cons, List.eraseDups_cons, List.map_cons]
  exact ⟨_, rfl⟩

theorem lowest_mem {m : LaneMask} (hm : m ≠ 0#32) : m.has (LaneMask.lowest m) = true := by
  obtain ⟨l, hl⟩ := lanes_lowest hm
  exact mem_lanes.mp (hl ▸ List.mem_cons_self ..)

/-- There is one group exactly where all lanes have one address. -/
theorem groupLanes_one {m : LaneMask} {addr : Nat → DWord} (hm : m ≠ 0#32) :
    (∃ g, groupLanes m addr = [g]) ↔
      ∀ j k, j < 32 → k < 32 → m.has j = true → m.has k = true → addr j = addr k := by
  constructor
  · rintro ⟨g, hg⟩ j k - - hj hk
    have hjg : (addr j, sharing m addr j) ∈ [g] := hg ▸ mem_groupLanes.mpr ⟨j, hj, rfl⟩
    have hkg : (addr k, sharing m addr k) ∈ [g] := hg ▸ mem_groupLanes.mpr ⟨k, hk, rfl⟩
    rw [List.mem_singleton] at hjg hkg
    exact congrArg Prod.fst (hjg.trans hkg.symm)
  · intro h
    obtain ⟨l, hl⟩ := lanes_lowest hm
    have hall : ∀ a ∈ l.map addr, a = addr (LaneMask.lowest m) := by
      intro a ha
      obtain ⟨k, hk, rfl⟩ := List.mem_map.mp ha
      have hk' : m.has k = true := mem_lanes.mp (hl ▸ List.mem_cons_of_mem _ hk)
      exact h _ _ (has_lt hk') (has_lt (lowest_mem hm)) hk' (lowest_mem hm)
    unfold groupLanes
    rw [hl, List.map_cons, List.eraseDups_cons,
      List.filter_eq_nil_iff.mpr fun a ha => by simp [hall a ha]]
    exact ⟨_, rfl⟩

/-! ## Sides put into the machine -/

/-- The entries of the divergence stack that are no links. -/
def Warp.frames (w : Warp) : List StackEntry := w.stack.filter fun e => match e with | .link _ => false | _ => true

theorem mem_frames {w : Warp} {e : StackEntry} (he : ∀ l, e ≠ .link l) : e ∈ w.frames ↔ e ∈ w.stack := by
  unfold Warp.frames
  rw [List.mem_filter]
  cases e with
  | link l => exact absurd rfl (he l)
  | ready | waiting | join => simp

theorem mem_splits {w : Warp} {b : Bool} {q : Split} :
    q ∈ w.splits ↔ w.slot? b = some q ∨ w.slot? (!b) = some q ∨ .ready q ∈ w.stack ∨ .waiting q ∈ w.stack := by
  unfold Warp.splits
  rw [List.mem_append, List.mem_append, Option.mem_toList, Option.mem_toList, List.mem_filterMap]
  have hstack : (∃ e ∈ w.stack, (match e with | .ready sp => some sp | .waiting sp => some sp | _ => none) = some q) ↔
      .ready q ∈ w.stack ∨ .waiting q ∈ w.stack := by
    constructor
    · rintro ⟨e, he, hq⟩
      cases e <;> simp at hq <;> subst hq <;> simp [he]
    · rintro (h | h)
      · exact ⟨_, h, rfl⟩
      · exact ⟨_, h, rfl⟩
  refine Iff.trans (or_congr_right hstack) ?_
  cases b <;> simp [Warp.slot?, or_left_comm, or_assoc]

/-- Where sides stand: the first in its slot, the others in the free slot and on the stack, as ready splits. -/
theorem placeSides_stands (w : Warp) (b : Bool) (first : Split) (rest : List Split) :
    ∃ pushed : List Split, (placeSides w b (first :: rest)).slot? b =
        some { first with entered := ((w.slot? b).map (·.entered)).getD first.entered } ∧
      (placeSides w b (first :: rest)).stack = w.stack ++ pushed.map .ready ∧
      (placeSides w b (first :: rest)).rets = w.rets ∧
      (∀ q, (placeSides w b (first :: rest)).slot? (!b) = some q ∨ q ∈ pushed ↔
        w.slot? (!b) = some q ∨ q ∈ rest) := by
  have pushes : ∀ (l : List Split) (x : Warp), (l.foldl Warp.pushReady x).stack = x.stack ++ l.map .ready ∧
      (l.foldl Warp.pushReady x).rets = x.rets ∧ ∀ c, (l.foldl Warp.pushReady x).slot? c = x.slot? c := by
    intro l
    induction l with
    | nil => exact fun x => ⟨by simp, rfl, fun _ => rfl⟩
    | cons y t ih =>
      intro x
      obtain ⟨h1, h2, h3⟩ := ih (x.pushReady y)
      exact ⟨by rw [List.foldl_cons, h1]; simp [Warp.pushReady], h2, h3⟩
  unfold placeSides
  dsimp only
  generalize hfirst : ({ first with entered := ((w.slot? b).map (·.entered)).getD first.entered } : Split) = q0
  have hstack : (w.setSlot b (some q0)).stack = w.stack ∧ (w.setSlot b (some q0)).rets = w.rets := by cases b <;> exact ⟨rfl, rfl⟩
  split
  · rename_i second more hfree
    rw [slot_setSlot_other] at hfree
    obtain ⟨h1, h2, h3⟩ := pushes more.reverse ((w.setSlot b (some q0)).setSlot (!b) (some second))
    refine ⟨more.reverse, ?_, ?_, ?_, fun q => ?_⟩
    · rw [h3]; cases b <;> rfl
    · rw [h1, ← hstack.1]; cases b <;> rfl
    · rw [h2, ← hstack.2]; cases b <;> rfl
    · rw [h3, slot_setSlot, hfree]
      simp [eq_comm]
  · rename_i others _ _ _
    obtain ⟨h1, h2, h3⟩ := pushes others.reverse (w.setSlot b (some q0))
    refine ⟨others.reverse, ?_, ?_, ?_, fun q => ?_⟩
    · rw [h3, slot_setSlot]
    · rw [h1, hstack.1]
    · rw [h2, hstack.2]
    · rw [h3, slot_setSlot_other]
      simp

theorem mem_sides {cx : Cx} {join : Option Nat} {n : Nat} {groups : List (DWord × LaneMask)} :
    (∀ q ∈ cx.sides join n groups, ∃ g ∈ groups, ∃ id, q = { cx.side join g with id := id }) ∧
    (∀ g ∈ groups, ∃ id, { cx.side join g with id := id } ∈ cx.sides join n groups) := by
  unfold Cx.sides
  refine ⟨fun q hq => ?_, fun g hg => ?_⟩
  · obtain ⟨p, hp, rfl⟩ := List.mem_map.mp hq
    exact ⟨p.1, (List.mem_zipIdx' hp).2 ▸ List.getElem_mem _, _, rfl⟩
  · obtain ⟨i, hi, rfl⟩ := List.mem_iff_getElem.mp hg
    exact ⟨_, List.mem_map.mpr ⟨(groups[i], i), List.mem_zipIdx_iff_getElem?.mpr (by simp [hi]), rfl⟩⟩

theorem or_regroup {a b c d e f g : Prop} (h : a ∨ b ↔ c ∨ d) : e ∨ a ∨ (f ∨ b) ∨ g ↔ e ∨ d ∨ c ∨ f ∨ g := by
  tauto

/-- Sides of every group, put into a warp with the issuing one's slots and splits, divide the split. -/
theorem divided_sides {s t : State} {f : LaneForm} {w : Strip} {sp : Split} {x : Warp} {join : Option Nat} {n : Nat}
    {addr : Nat → DWord} (hs : s.split? = some sp) (hm : sp.mask ≠ 0#32) (hslots : ∀ b, x.slot? b = s.warp.slot? b)
    (hstack : ∀ e, (∀ l, e ≠ .link l) → (∀ r, e ≠ .join r) → (e ∈ x.stack ↔ e ∈ s.warp.stack))
    (hjoins : ∀ r, StackEntry.join r ∈ s.warp.stack → StackEntry.join r ∈ x.stack)
    (ht : Moved s (placeSides x s.slotB ((cxOf s f w sp).sides join n (groupLanes sp.mask addr))) t) :
    Divided s t sp addr join := by
  obtain ⟨rest, hrest⟩ := groupLanes_cons addr hm
  have hcons : (cxOf s f w sp).sides join n (groupLanes sp.mask addr) =
      (cxOf s f w sp).side join (addr (LaneMask.lowest sp.mask), sharing sp.mask addr (LaneMask.lowest sp.mask)) ::
        ((rest.zipIdx 1).map fun p => { (cxOf s f w sp).side join p.1 with id := if p.2 = 0 then sp.id else n + p.2 }) := by
    rw [hrest]; rfl
  obtain ⟨hfrom, hto⟩ := mem_sides (cx := cxOf s f w sp) (join := join) (n := n) (groups := groupLanes sp.mask addr)
  have hsome : ∀ q ∈ (cxOf s f w sp).sides join n (groupLanes sp.mask addr), ∃ k, sp.mask.has k = true ∧
      ∀ e, Continues s sp (addr k) (sharing sp.mask addr k) join { q with entered := e } := by
    intro q hq
    obtain ⟨g, hg, id, rfl⟩ := hfrom q hq
    obtain ⟨k, hk, rfl⟩ := mem_groupLanes.mp hg
    exact ⟨k, hk, fun e => continues_side s f w sp join _ _ id e⟩
  have hevery : ∀ k, sp.mask.has k = true → ∃ q ∈ (cxOf s f w sp).sides join n (groupLanes sp.mask addr),
      ∀ e, Continues s sp (addr k) (sharing sp.mask addr k) join { q with entered := e } := by
    intro k hk
    obtain ⟨id, hid⟩ := hto _ (mem_groupLanes.mpr ⟨k, hk, rfl⟩)
    exact ⟨_, hid, fun e => continues_side s f w sp join _ _ id e⟩
  clear hfrom hto
  rw [hcons] at ht hsome hevery
  generalize ((rest.zipIdx 1).map fun p => { (cxOf s f w sp).side join p.1 with id := if p.2 = 0 then sp.id else n + p.2 }) =
    others at ht hsome hevery
  have hlow : ((cxOf s f w sp).side join
    (addr (LaneMask.lowest sp.mask), sharing sp.mask addr (LaneMask.lowest sp.mask))).mask =
      sharing sp.mask addr (LaneMask.lowest sp.mask) := rfl
  generalize (cxOf s f w sp).side join
    (addr (LaneMask.lowest sp.mask), sharing sp.mask addr (LaneMask.lowest sp.mask)) = first at ht hsome hevery hlow
  clear hcons
  obtain ⟨pushed, hslot, hst, -, hrem⟩ := placeSides_stands x s.slotB first others
  rw [← ht.slot] at hslot
  rw [← ht.stack] at hst
  simp only [← ht.slot, hslots] at hrem
  have hmem : ∀ q, q ∈ t.warp.splits ↔ t.warp.slot? s.slotB = some q ∨ q ∈ others ∨
      s.warp.slot? (!s.slotB) = some q ∨ .ready q ∈ s.warp.stack ∨ .waiting q ∈ s.warp.stack := by
    intro q
    have h1 : StackEntry.ready q ∈ t.warp.stack ↔ .ready q ∈ s.warp.stack ∨ q ∈ pushed := by
      rw [hst, List.mem_append, hstack _ (by simp) (by simp)]
      simp
    have h2 : StackEntry.waiting q ∈ t.warp.stack ↔ .waiting q ∈ s.warp.stack := by
      rw [hst, List.mem_append, hstack _ (by simp) (by simp)]
      simp
    rw [mem_splits (b := s.slotB), h1, h2]
    exact or_regroup (hrem q)
  refine ⟨fun k hk hkm => ?_, fun q hq => ?_, fun q hq hne => ?_, fun r hr => ?_, ?_⟩
  · obtain ⟨q, hq, hc⟩ := hevery k hkm
    rcases List.mem_cons.mp hq with rfl | hq
    · exact ⟨_, (hmem _).mpr (.inl hslot), hc _⟩
    · exact ⟨q, (hmem _).mpr (.inr (.inl hq)), hc q.entered⟩
  · rcases (hmem q).mp hq with h | h | h
    · rw [hslot, Option.some.injEq] at h
      obtain ⟨k, hk, hc⟩ := hsome first (List.mem_cons_self ..)
      exact .inr ⟨k, has_lt hk, hk, h ▸ hc _⟩
    · obtain ⟨k, hk, hc⟩ := hsome q (List.mem_cons_of_mem _ h)
      exact .inr ⟨k, has_lt hk, hk, hc q.entered⟩
    · exact .inl ((mem_splits (b := s.slotB)).mpr (.inr h))
  · rcases (mem_splits (b := s.slotB)).mp hq with h | h
    · rw [show s.warp.slot? s.slotB = some sp from hs, Option.some.injEq] at h
      exact absurd h.symm hne
    · exact (hmem q).mpr (.inr (.inr h))
  · rw [hst]
    exact List.mem_append_left _ (hjoins r hr)
  · refine ⟨_, by rw [State.split?, ht.slotOf]; exact hslot, ?_⟩
    show first.mask.has _ = true
    rw [hlow, sharing, ofPred_has _ (has_lt (lowest_mem hm)), lowest_mem hm]
    simp

/-- A split spread over its lanes' addresses (R24): undivided where they are one, else divided under a new join record. -/
theorem spread_divided {s t : State} {f : LaneForm} {w : Strip} {sp : Split} {x : Warp} {j : DWord} {addr : Nat → DWord}
    (hs : s.split? = some sp) (hm : sp.mask ≠ 0#32) (hslots : ∀ b, x.slot? b = s.warp.slot? b) (hframes : x.frames = s.warp.frames)
    (ht : Moved s ((cxOf s f w sp).spread x j (groupLanes sp.mask addr)) t) :
    let one := ∀ j k, j < 32 → k < 32 → sp.mask.has j = true → sp.mask.has k = true → addr j = addr k
    (one → Divided s t sp addr sp.join) ∧
    (¬ one → Divided s t sp addr (some x.nextJoin) ∧ StackEntry.join ⟨x.nextJoin, j, sp.mask, sp.join⟩ ∈ t.warp.stack) ∧
    t.warp.rets = x.rets ∧ x.stack <+: t.warp.stack := by
  intro one
  have hmem : ∀ e, (∀ l, e ≠ .link l) → (e ∈ x.stack ↔ e ∈ s.warp.stack) := fun e he => by
    rw [← mem_frames he, ← mem_frames he, hframes]
  obtain ⟨rest, hrest⟩ := groupLanes_cons addr hm
  have hne : ∀ join n, ∃ q l, (cxOf s f w sp).sides join n (groupLanes sp.mask addr) = q :: l := fun join n => by
    rw [hrest]; exact ⟨_, _, rfl⟩
  by_cases hone : one
  · obtain ⟨g, hg⟩ := (groupLanes_one hm).mpr hone
    have heq : (cxOf s f w sp).spread x j (groupLanes sp.mask addr) =
        placeSides x s.slotB ((cxOf s f w sp).sides sp.join 0 (groupLanes sp.mask addr)) := by
      rw [hg]; rfl
    rw [heq] at ht
    refine ⟨fun _ => divided_sides hs hm hslots (fun e he _ => hmem e he) (fun r hr => (hmem _ (by simp)).mpr hr) ht,
      fun h => absurd hone h, ?_⟩
    obtain ⟨q, l, hql⟩ := hne sp.join 0
    obtain ⟨pushed, -, hst, hr, -⟩ := placeSides_stands x s.slotB q l
    rw [ht.rets, ht.stack, hql, hst, hr]
    exact ⟨rfl, List.prefix_append ..⟩
  · let y : Warp := { x with
      nextJoin := x.nextJoin + (groupLanes sp.mask addr).length
      stack := x.stack ++ [.join ⟨x.nextJoin, j, sp.mask, sp.join⟩] }
    have heq : (cxOf s f w sp).spread x j (groupLanes sp.mask addr) =
        placeSides y s.slotB ((cxOf s f w sp).sides (some x.nextJoin) x.nextJoin (groupLanes sp.mask addr)) := by
      have hng : ∀ g, groupLanes sp.mask addr ≠ [g] := fun g hg => hone ((groupLanes_one hm).mp ⟨g, hg⟩)
      unfold Cx.spread
      split
      · rename_i g hg
        exact absurd hg (hng g)
      · rfl
    rw [heq] at ht
    obtain ⟨q, l, hql⟩ := hne (some x.nextJoin) x.nextJoin
    obtain ⟨pushed, -, hst, hr, -⟩ := placeSides_stands y s.slotB q l
    have hstack : t.warp.stack = y.stack ++ pushed.map .ready := by rw [ht.stack, hql, hst]
    refine ⟨fun h => absurd h hone, fun _ => ⟨divided_sides (x := y) hs hm hslots (fun e he hj => ?_) (fun r hr => ?_) ht, ?_⟩,
      by rw [ht.rets, hql, hr], ?_⟩
    · show e ∈ x.stack ++ [_] ↔ _
      rw [List.mem_append, List.mem_singleton, hmem e he]
      exact ⟨fun h => h.resolve_right (hj _), .inl⟩
    · exact List.mem_append_left _ ((hmem _ (by simp)).mpr hr)
    · rw [hstack]
      exact List.mem_append_left _ (List.mem_append_right _ (List.mem_singleton.mpr rfl))
    · rw [hstack]
      exact (List.prefix_append x.stack _).trans (List.prefix_append ..)

/-! ## Fetching a target -/

theorem fetch4_keeps (s : State) (w : Warp) (pc : DWord) : ∃ c, (fetch4 s w pc).2 = { s with tlb := c } := by
  obtain ⟨c, hc⟩ := placeAccess_keeps s ((PathView.start (2 * w.id) s.serial).setHor .t s.serial s.serial) w .fetch pc 4
  refine ⟨c, ?_⟩
  unfold fetch4
  dsimp only
  generalize placeAccess s _ w .fetch pc 4 = r at hc
  obtain ⟨r, s'⟩ := r
  cases r <;> exact hc

theorem fetchBytes_keeps (w : Warp) (n : Nat) (s : State) (pc : DWord) : ∃ c, (fetchBytes w n s pc).2 = { s with tlb := c } := by
  induction n generalizing s pc with
  | zero => exact ⟨_, rfl⟩
  | succ n ih =>
    obtain ⟨c, hc⟩ := fetch4_keeps s w pc
    unfold fetchBytes
    generalize fetch4 s w pc = r at hc
    obtain ⟨r, s'⟩ := r
    dsimp only at hc
    subst hc
    cases r with
    | error e => exact ⟨_, rfl⟩
    | ok b =>
      obtain ⟨c', hc'⟩ := ih { s with tlb := c } (pc + 4#64)
      dsimp only
      generalize fetchBytes w n { s with tlb := c } (pc + 4#64) = r at hc'
      obtain ⟨r, s''⟩ := r
      dsimp only at hc'
      subst hc'
      cases r <;> exact ⟨_, rfl⟩

theorem fetchLane_keeps (s : State) (w : Warp) (pc : DWord) : ∃ c, (fetchLane s w pc).2 = { s with tlb := c } := by
  obtain ⟨c, hc⟩ := fetchBytes_keeps w 3 s pc
  unfold fetchLane
  generalize fetchBytes w 3 s pc = r at hc
  obtain ⟨r, s'⟩ := r
  dsimp only at hc
  subst hc
  cases r <;> exact ⟨_, rfl⟩

theorem fetchCheck_keeps (w : Warp) (s : State) (t : DWord) : ∃ c, (fetchCheck w s t).2 = { s with tlb := c } := by
  unfold fetchCheck
  split
  · exact ⟨_, rfl⟩
  · obtain ⟨c, hc⟩ := fetchLane_keeps s w t
    generalize fetchLane s w t = r at hc
    obtain ⟨r, s'⟩ := r
    dsimp only at hc
    subst hc
    cases r <;> exact ⟨_, rfl⟩

theorem targetErrors_keeps (w : Warp) (t : Nat → DWord) (l : List Nat) (s : State) :
    ∃ c, (targetErrors w t l s).2 = { s with tlb := c } := by
  induction l generalizing s with
  | nil => exact ⟨_, rfl⟩
  | cons i rest ih =>
    obtain ⟨c, hc⟩ := fetchCheck_keeps w s (t i)
    obtain ⟨c', hc'⟩ := ih (fetchCheck w s (t i)).2
    refine ⟨c', ?_⟩
    show (targetErrors w t rest (fetchCheck w s (t i)).2).2 = _
    rw [hc', hc]

/-! ## No address that is fetched from fails ALIGN -/

theorem walk_align (s : State) (v : PathView) (va : Nat) (l : List (Nat × Nat × Bool)) (t : Nat) : walk s v va l t ≠ .error .align := by
  induction l generalizing t with
  | nil => simp [walk]
  | cons x rest ih =>
    unfold walk
    dsimp only
    split
    · simp
    · split
      · split
        · simp
        · exact ih _
      · simp

theorem walkCtx_align (s : State) (v : PathView) (ctx : Nat) (va : DWord) : walkCtx s v ctx va ≠ .error .align := by
  unfold walkCtx
  split
  · simp
  · dsimp only
    split
    · simp
    · exact walk_align _ _ _ _ _

theorem translate_align (s : State) (v : PathView) (core ctx : Nat) (va : DWord) :
    (translate s v core ctx va).1 ≠ .error .align := by
  have hw := walkCtx_align s v ctx va
  unfold translate
  generalize walkCtx s v ctx va = fresh at hw
  cases tlbFind s core ctx va with
  | none => cases fresh <;> exact hw
  | some t =>
    cases fresh with
    | error e =>
      dsimp only
      split
      · exact hw
      · split
        · simp
        · exact hw
    | ok l =>
      dsimp only
      split
      · simp
      · split <;> simp

theorem placeAccess_align (s : State) (v : PathView) (w : Warp) (kind : AccKind) (va : DWord) (n : Nat) :
    (placeAccess s v w kind va n).1 ≠ .error .align := by
  unfold placeAccess
  split
  · rename_i r hr
    unfold placeWindow at hr
    split at hr
    · simp at hr
    · simp only [Option.some.injEq] at hr
      simp [← hr]
    · split at hr <;> simp only [Option.some.injEq] at hr <;> rw [← hr] <;> dsimp only
      · split <;> simp
      · simp
    · split at hr <;> simp only [Option.some.injEq] at hr <;> rw [← hr] <;> dsimp only
      · split <;> simp
      · simp
  · have ht := translate_align s v w.coreIx w.ctx va
    unfold placePaged
    generalize translate s v w.coreIx w.ctx va = r at ht
    obtain ⟨r, s'⟩ := r
    cases r with
    | error e => simpa using ht
    | ok l =>
      dsimp only
      split
      · simp
      · split <;> simp

theorem fetch4_align (s : State) (w : Warp) (pc : DWord) : (fetch4 s w pc).1 ≠ .error .align := by
  have hp := placeAccess_align s ((PathView.start (2 * w.id) s.serial).setHor .t s.serial s.serial) w .fetch pc 4
  unfold fetch4
  dsimp only
  generalize placeAccess s _ w .fetch pc 4 = r at hp
  obtain ⟨r, s'⟩ := r
  cases r with
  | error e => simpa using hp
  | ok k => simp

theorem fetchBytes_align (w : Warp) (n : Nat) (s : State) (pc : DWord) : (fetchBytes w n s pc).1 ≠ .error .align := by
  induction n generalizing s pc with
  | zero => simp [fetchBytes]
  | succ n ih =>
    have h4 := fetch4_align s w pc
    unfold fetchBytes
    generalize fetch4 s w pc = r at h4
    obtain ⟨r, s'⟩ := r
    cases r with
    | error e => simpa using h4
    | ok b =>
      have := ih s' (pc + 4#64)
      dsimp only
      generalize fetchBytes w n s' (pc + 4#64) = r at this
      obtain ⟨r, s''⟩ := r
      cases r with
      | error e => simpa using this
      | ok bs => simp

theorem fetchLane_align (s : State) (w : Warp) (pc : DWord) : (fetchLane s w pc).1 ≠ .error .align := by
  have hb := fetchBytes_align w 3 s pc
  unfold fetchLane
  generalize fetchBytes w 3 s pc = r at hb
  obtain ⟨r, s'⟩ := r
  cases r with
  | error e => simpa using hb
  | ok bs => dsimp only; split <;> simp

/-- A target fails ALIGN exactly where it is no multiple of 4. -/
theorem fetchCheck_align (w : Warp) (s : State) (t : DWord) : (fetchCheck w s t).1 = some .align ↔ t.toNat % 4 ≠ 0 := by
  have hf := fetchLane_align s w t
  unfold fetchCheck
  split
  · rename_i h
    simp [h]
  · rename_i h
    generalize fetchLane s w t = r at hf
    obtain ⟨r, s'⟩ := r
    cases r with
    | error e => simpa [h] using hf
    | ok i => simpa using h

/-- The lanes listed with ALIGN are those whose targets are no multiples of 4. -/
theorem mem_targetErrors_align (w : Warp) (t : Nat → DWord) (l : List Nat) (s : State) (i : Nat) :
    (i, AccErr.align) ∈ (targetErrors w t l s).1 ↔ i ∈ l ∧ (t i).toNat % 4 ≠ 0 := by
  induction l generalizing s with
  | nil => simp [targetErrors]
  | cons k rest ih =>
    have hk := fetchCheck_align w s (t k)
    show (i, AccErr.align) ∈ (fetchCheck w s (t k)).1.toList.map (k, ·) ++ (targetErrors w t rest (fetchCheck w s (t k)).2).1 ↔ _
    rw [List.mem_append, ih, List.mem_map]
    constructor
    · rintro (⟨e, he, hke⟩ | ⟨h1, h2⟩)
      · obtain ⟨rfl, rfl⟩ := Prod.mk.inj hke
        exact ⟨List.mem_cons_self .., hk.mp (Option.mem_toList.mp he)⟩
      · exact ⟨List.mem_cons_of_mem _ h1, h2⟩
    · rintro ⟨h1, h2⟩
      rcases List.mem_cons.mp h1 with rfl | h1
      · exact .inl ⟨.align, Option.mem_toList.mpr (hk.mpr h2), rfl⟩
      · exact .inr ⟨h1, h2⟩

/-- A misaligned target of some lane traps ALIGN for the lanes of such targets (R87). -/
theorem targetTrap_align {t : Nat → DWord} {errs : List (Nat × AccErr)} (h : ∃ i, (i, AccErr.align) ∈ errs) :
    ∃ tr, targetTrap t errs = some tr ∧ tr.code = Code.align ∧
      ∀ k, k < 32 → (tr.lanes.has k = true ↔ (k, AccErr.align) ∈ errs) := by
  have hany : errs.any (fun x => x.2 == AccErr.align) = true := by
    obtain ⟨i, hi⟩ := h
    exact List.any_eq_true.mpr ⟨_, hi, by simp⟩
  unfold targetTrap
  rw [List.find?_cons, hany]
  refine ⟨_, rfl, rfl, fun k hk => ?_⟩
  show (LaneMask.ofPred _).has k = true ↔ _
  rw [ofPred_has _ hk]
  simp

end Sys2Proof.Machine
end

section
/-! PROOFS. BRX and CALLX (R172, R175). -/

namespace Sys2Proof.Machine

/-! ## Words of one register pair -/

/-- A legal word whose only source is a register pair names no queue. -/
theorem pair_queues {f : LaneForm} {w : Strip} (hl : formLegal f w = true) (ha : f.a = Form.adrPair) (hb : f.b.used = false)
    (hc : f.c.used = false) : namedQueues f w = [] := by
  have hused : f.a.used = true := by rw [ha]; rfl
  have hcode : w.a.code.toNat < 248 := by
    unfold formLegal at hl
    simp only [hused, Bool.not_true, Bool.and_false, Bool.false_eq_true, if_false, Bool.and_eq_true] at hl
    exact code_of_srcLegal hl.1.1.1.2 hused (by rw [ha]; rfl)
  simp [namedQueues, Form.useB, hused, hb, hc, show ¬ 248 ≤ w.a.code.toNat by omega]

/-- The addresses of the lanes are the pairs that A names (R37). -/
theorem pairA_eq (s : State) {f : LaneForm} (w : Strip) (sp : Split) (ha : f.a = Form.adrPair) :
    (cxOf s f w sp).pairA = fun k => (operand s.draws s.warp w.a 1).word k ++ (operand s.draws s.warp w.a 0).word k := by
  have hused : f.a.used = true := by rw [ha]; rfl
  funext k
  simp [Cx.pairA, Cx.srcA, cxOf, readCx, pair64, hused]

/-- The form of BRX and of CALLX. -/
structure TargetForm (f : LaneForm) : Prop where
  a : f.a = Form.adrPair
  b : f.b.used = false
  c : f.c.used = false

theorem targetForm {i : Instr} {f : LaneForm} {w : Strip} {sp : Split} {s : State} (h : LaneReady i f w sp s)
    (hi : i = .brx w ∨ i = .callx w) : TargetForm f := by
  have hf := h.form
  rcases hi with rfl | rfl <;> simp only [laneForm, Option.some.injEq, Prod.mk.injEq, and_true] at hf <;> subst hf <;>
    exact ⟨rfl, rfl, rfl⟩

/-! ## A branch to the lanes' addresses -/

section
variable {i : Instr} {b : Cx → LaneMask} {after : Cx → Warp} {f : LaneForm} {w : Strip} {sp : Split} {s : State}
  (h : LaneReady i f w sp s) (hb : b (cxOf s f w sp) = 0#32)
include h hb

/-- A ready word with room on the stack reaches its targets. -/
theorem targetWord_body (hclean : Unpoisoned (cxOf s f w sp)) (hroom : (after (cxOf s f w sp)).stack.length ≤ 64) :
    targetWord i { budget := b } after s = .next (finish i (cxOf s f w sp)
      (match targetTrap (cxOf s f w sp).pairA (targetErrors s.warp (cxOf s f w sp).pairA (LaneMask.lanes sp.mask) s).1 with
      | some t => .hold (takeTrap (targetErrors s.warp (cxOf s f w sp).pairA (LaneMask.lanes sp.mask) s).2 t)
      | none => .moved { (targetErrors s.warp (cxOf s f w sp).pairA (LaneMask.lanes sp.mask) s).2 with
          warp := after (cxOf s f w sp) })) := by
  have hearly : divstack (cxOf s f w sp) (after (cxOf s f w sp)) = none := if_neg (by unfold Warp.stackUse; omega)
  exact laneWord_ready h ⟨rfl, hb, rfl, hearly, hclean, fun _ _ => ⟨rfl, fun _ _ => rfl⟩⟩ (.inr rfl)

/-- All targets can be fetched: the warp moves. -/
theorem targetWord_moved (hf : TargetForm f) (hclean : Unpoisoned (cxOf s f w sp)) {s' : State}
    (herr : targetErrors s.warp (cxOf s f w sp).pairA (LaneMask.lanes sp.mask) s = ([], s'))
    (hx : SplitsOnly s.warp (after (cxOf s f w sp))) (hroom : (after (cxOf s f w sp)).stack.length ≤ 64) :
    ∃ t, targetWord i { budget := b } after s = .next t ∧ Moved s (after (cxOf s f w sp)) t := by
  obtain ⟨c, hc⟩ := targetErrors_keeps s.warp (cxOf s f w sp).pairA (LaneMask.lanes sp.mask) s
  have hbody := targetWord_body h hb hclean hroom
  rw [herr] at hbody hc
  dsimp only at hc
  refine ⟨_, hbody, ?_⟩
  rw [hc]
  exact retireMoved_moved h.single (pair_queues h.legal hf.a hf.b hf.c) hx

/-- Some target is no multiple of 4: its lanes trap ALIGN. -/
theorem targetWord_align (hclean : Unpoisoned (cxOf s f w sp)) (hroom : (after (cxOf s f w sp)).stack.length ≤ 64)
    (hbad : ∃ k, sp.mask.has k = true ∧ ((cxOf s f w sp).pairA k).toNat % 4 ≠ 0) :
    ∃ s' tr, targetWord i { budget := b } after s = .next (takeTrap s' tr) ∧ tr.code = Code.align ∧ s' = { s with tlb := s'.tlb } ∧
      ∀ k, k < 32 → (tr.lanes.has k = true ↔ sp.mask.has k = true ∧ ((cxOf s f w sp).pairA k).toNat % 4 ≠ 0) := by
  obtain ⟨c, hc⟩ := targetErrors_keeps s.warp (cxOf s f w sp).pairA (LaneMask.lanes sp.mask) s
  have hmem := mem_targetErrors_align s.warp (cxOf s f w sp).pairA (LaneMask.lanes sp.mask) s
  obtain ⟨k, hk, hk4⟩ := hbad
  obtain ⟨tr, htr, hcode, hlanes⟩ := targetTrap_align (t := (cxOf s f w sp).pairA) ⟨k, (hmem k).mpr ⟨mem_lanes.mpr hk, hk4⟩⟩
  have hbody := targetWord_body h hb hclean hroom
  rw [htr] at hbody
  exact ⟨_, tr, hbody, hcode, by rw [hc], fun j hj => by rw [hlanes j hj, hmem, mem_lanes]⟩

end

/-! ## Targets of CALLX (R175) -/

/-- A target holds a word that is no ENTRY within the allocation. -/
def NoEntry (s : State) (a : DWord) : Prop :=
  a.toNat % 4 = 0 ∧ ∃ i, (fetchLane s s.warp a).1 = .ok i ∧ ∀ e, i = .entry e → s.warp.units < Form.xf e 4 0

theorem overBudget_iff (s : State) (a : DWord) : overBudget s s.warp a = true ↔ NoEntry s a := by
  unfold overBudget NoEntry
  rw [Bool.and_eq_true, decide_eq_true_iff]
  refine and_congr_right fun _ => ?_
  generalize (fetchLane s s.warp a).1 = r
  cases r with
  | error e => simp
  | ok i =>
    by_cases hi : ∃ e, i = .entry e
    · obtain ⟨e, rfl⟩ := hi
      simp
    · have hne : ∀ e, i ≠ .entry e := fun e he => hi ⟨e, he⟩
      split
      · rename_i e he
        exact absurd (Except.ok.inj he) (hne e)
      · simpa using fun e he => absurd he (hne e)
      · rename_i he
        exact absurd he (by simp)

/-- The lanes whose targets hold no ENTRY within the allocation. -/
def entryBudget (cx : Cx) : LaneMask := LaneMask.ofPred fun i => cx.sp.mask.has i && overBudget cx.s cx.s.warp (cx.pairA i)

theorem entryBudget_has (s : State) (f : LaneForm) (w : Strip) (sp : Split) {k : Nat} (hk : k < 32) :
    (entryBudget (cxOf s f w sp)).has k = true ↔ sp.mask.has k = true ∧ NoEntry s ((cxOf s f w sp).pairA k) := by
  rw [← overBudget_iff]
  show (LaneMask.ofPred _).has k = true ↔ _
  rw [ofPred_has _ hk, Bool.and_eq_true]
  rfl

theorem entryBudget_zero {s : State} {f : LaneForm} {w : Strip} {sp : Split}
    (h : ∀ k, k < 32 → ¬ (sp.mask.has k = true ∧ NoEntry s ((cxOf s f w sp).pairA k))) : entryBudget (cxOf s f w sp) = 0#32 :=
  mask_ext fun k hk => by
    rw [zero_has, ← Bool.not_eq_true, entryBudget_has s f w sp hk]
    exact h k hk

/-- A CALLX with a target without an ENTRY that fits traps BUDGET, before its targets are looked up. -/
theorem callx_budget {f : LaneForm} {w : Strip} {sp : Split} {s : State} (h : LaneReady (.callx w) f w sp s)
    (hb : entryBudget (cxOf s f w sp) ≠ 0#32) :
    exec (.callx w) s = .next (takeTrap s (wholeTrap Code.budget (entryBudget (cxOf s f w sp)))) :=
  laneWord_budget h rfl rfl hb

/-! ## The warps that BRX and CALLX leave -/

theorem splitsOnly_pushRet (w : Warp) (a : DWord) (m : LaneMask) : SplitsOnly w (w.pushRet a m) := by
  unfold Warp.pushRet
  dsimp only
  split <;> rfl

/-- A call pushes its link; of a full return stack the oldest entry goes to the divergence stack (R173). -/
theorem pushRet_stacks (w : Warp) (a : DWord) (m : LaneMask) :
    (w.pushRet a m).rets = ⟨a, m, w.nextAge⟩ :: (if 8 ≤ w.rets.length then w.rets.dropLast else w.rets) ∧
      (w.pushRet a m).stack = w.stack ++ (if 8 ≤ w.rets.length then w.rets.getLast?.toList.map .link else []) ∧
      (w.pushRet a m).frames = w.frames ∧ (w.pushRet a m).nextJoin = w.nextJoin ∧
      ∀ b, (w.pushRet a m).slot? b = w.slot? b := by
  unfold Warp.pushRet Warp.frames
  dsimp only
  by_cases h : w.rets.length < 8
  · rw [if_pos h, if_neg (by omega), if_neg (by omega)]
    exact ⟨rfl, by simp, rfl, rfl, fun b => by cases b <;> rfl⟩
  · rw [if_neg h, if_pos (by omega), if_pos (by omega)]
    refine ⟨rfl, rfl, ?_, rfl, fun b => by cases b <;> rfl⟩
    simp [List.filter_append, List.filter_map, Function.comp_def]

/-! ## O14 -/

theorem indirectBranch : Clause.IndirectBranch := by
  intro i call w f sp s s' hi h hclean hset hm addr after herr hentry one full
  have hf : TargetForm f := targetForm h (hi.imp And.left And.left)
  have haddr : (cxOf s f w sp).pairA = addr := pairA_eq s w sp hf.a
  rcases hi with ⟨rfl, rfl⟩ | ⟨rfl, rfl⟩
  · have hx : brxAfter w (cxOf s f w sp) = (cxOf s f w sp).spread s.warp (branchTarget sp w.disp57) (groupLanes sp.mask addr) := by
      rw [← haddr]; rfl
    refine ⟨fun hroom => ?_, fun hfull => laneWord_early h rfl rfl rfl (if_pos hfull)⟩
    obtain ⟨t, ht, hmv⟩ := targetWord_moved (b := fun _ => 0#32) h rfl hf hclean (by rw [haddr]; exact herr)
      (splitsOnly_spread ..) hroom
    rw [hx] at hmv
    obtain ⟨h1, h2, h3, h4⟩ := spread_divided h.split hm (fun _ => rfl) rfl hmv
    exact ⟨t, ht, hmv.control, h1, h2, fun _ => ⟨h3, h4⟩, fun hc => absurd hc (by simp)⟩
  · have hx : callxAfter (cxOf s f w sp) = (cxOf s f w sp).spread (s.warp.pushRet (sp.pc + 12#64) sp.mask) (sp.pc + 12#64)
        (groupLanes sp.mask addr) := by
      rw [← haddr]; rfl
    have hb : entryBudget (cxOf s f w sp) = 0#32 := entryBudget_zero fun k hk ⟨hk1, _, j, hj, hjn⟩ => by
      obtain ⟨e, he, hle⟩ := hentry rfl k hk hk1
      rw [haddr, he] at hj
      have := hjn e (Except.ok.inj hj).symm
      omega
    refine ⟨fun hroom => ?_, fun hfull => laneWord_early h rfl hb rfl (if_pos hfull)⟩
    obtain ⟨t, ht, hmv⟩ := targetWord_moved (b := entryBudget) h hb hf hclean (by rw [haddr]; exact herr)
      ((splitsOnly_pushRet ..).trans (splitsOnly_spread ..)) hroom
    rw [hx] at hmv
    obtain ⟨p1, p2, p3, p4, p5⟩ := pushRet_stacks s.warp (sp.pc + 12#64) sp.mask
    obtain ⟨h1, h2, h3, h4⟩ := spread_divided h.split hm p5 p3 hmv
    rw [p4] at h2
    rw [p1] at h3
    rw [p2] at h4
    exact ⟨t, ht, hmv.control, h1, h2, fun hc => absurd hc (by simp), fun _ => ⟨h3, h4⟩⟩

theorem targetTraps : Clause.TargetTraps := by
  unfold Clause.TargetTraps
  intro target bad
  refine ⟨fun w f sp s h hset hbad => ?_, fun i w f sp s hi h hset hclean hbad => ?_⟩
  · have haddr := pairA_eq s w sp (targetForm h (.inr rfl)).a
    have hiff : ∀ k, k < 32 → ((entryBudget (cxOf s f w sp)).has k = true ↔ bad s w sp k) := fun k hk => by
      rw [entryBudget_has s f w sp hk, haddr]; rfl
    obtain ⟨k, hk, hkb⟩ := hbad
    refine ⟨_, callx_budget h fun h0 => ?_, hiff⟩
    have := (hiff k hk).mpr hkb
    rw [h0, zero_has] at this
    exact absurd this (by simp)
  · have haddr := pairA_eq s w sp (targetForm h (hi.imp And.left And.left)).a
    obtain ⟨k, hk, hkm, hk4⟩ := hbad
    have hk' : ∃ k, sp.mask.has k = true ∧ ((cxOf s f w sp).pairA k).toNat % 4 ≠ 0 := ⟨k, hkm, by rw [haddr]; exact hk4⟩
    rcases hi with ⟨rfl, hroom⟩ | ⟨rfl, hroom, hok⟩
    · have := targetWord_align (b := fun _ => 0#32) h rfl hclean hroom hk'
      rw [haddr] at this
      exact this
    · have hb : entryBudget (cxOf s f w sp) = 0#32 := entryBudget_zero fun k hk hkb => hok k hk (by rw [haddr] at hkb; exact hkb)
      have := targetWord_align (b := entryBudget) h hb hclean hroom hk'
      rw [haddr] at this
      exact this

/-- Settles O14: a split divided by its lanes' addresses, and the traps of bad targets. -/
theorem indirect : Obligations.Indirect := ⟨indirectBranch, targetTraps⟩

end Sys2Proof.Machine
end

section
/-! PROOFS. The return stack (R173): its entries by age, a call that pushes one, a return that clears lanes from their
entries; and CALL and RET (R174, R176). -/

namespace Sys2Proof.Machine

/-! ## Entries by age -/

theorem insertLink_perm (l : Link) (t : List Link) : List.Perm (insertLink l t) (l :: t) := by
  induction t with
  | nil => exact .refl _
  | cons x t ih =>
    unfold insertLink
    split
    · exact .refl _
    · exact (ih.cons x).trans (.swap ..)

theorem byAge_perm (l : List Link) : List.Perm (byAge l) l := by
  induction l with
  | nil => exact .refl _
  | cons x t ih => exact (insertLink_perm x _).trans (ih.cons x)

/-- Falling ages. -/
def Falling (l : List Link) : Prop := l.Pairwise fun a b => b.age ≤ a.age

theorem insertLink_falling (l : Link) {t : List Link} (h : Falling t) : Falling (insertLink l t) := by
  induction t with
  | nil => exact List.pairwise_singleton ..
  | cons x t ih =>
    obtain ⟨hx, ht⟩ := List.pairwise_cons.mp h
    unfold insertLink
    split
    · rename_i hlt
      refine List.pairwise_cons.mpr ⟨fun y hy => ?_, h⟩
      rcases List.mem_cons.mp hy with rfl | hy
      · exact Nat.le_of_lt hlt
      · exact Nat.le_trans (hx y hy) (Nat.le_of_lt hlt)
    · rename_i hge
      refine List.pairwise_cons.mpr ⟨fun y hy => ?_, ih ht⟩
      rcases List.mem_cons.mp ((insertLink_perm l t).mem_iff.mp hy) with rfl | hy
      · exact Nat.le_of_not_lt hge
      · exact hx y hy

theorem byAge_falling (l : List Link) : Falling (byAge l) := by
  induction l with
  | nil => exact .nil
  | cons x t ih => exact insertLink_falling x ih

/-- Falling ages that differ fall strictly. -/
theorem falling_strict {l : List Link} (h : Falling l) (hn : (l.map (·.age)).Nodup) : l.Pairwise fun a b => b.age < a.age := by
  have hne : l.Pairwise fun a b => a.age ≠ b.age := List.pairwise_map.mp hn
  exact (h.and hne).imp fun ⟨h1, h2⟩ => by omega

/-- Where ages differ, the order by age is fixed by the entries. -/
theorem byAge_eq {l k : List Link} (hp : List.Perm l k) (hn : (k.map (·.age)).Nodup) (hk : Falling k) : byAge l = k := by
  have hperm : List.Perm (byAge l) k := (byAge_perm l).trans hp
  have hn' : ((byAge l).map (·.age)).Nodup := (hperm.map _).nodup_iff.mpr hn
  exact hperm.eq_of_pairwise (fun a b _ _ h1 h2 => by omega) (falling_strict (byAge_falling l) hn') (falling_strict hk hn)

/-- The ages of a warp's return entries differ. -/
def Warp.Aged (w : Warp) : Prop := (w.links.map (·.age)).Nodup

theorem links_perm (w : Warp) : List.Perm w.links (w.rets ++ w.spilled) := byAge_perm _

/-- The next age is greater than every age. -/
theorem lt_nextAge {w : Warp} {l : Link} (h : l ∈ w.links) : l.age < w.nextAge := by
  unfold Warp.nextAge
  have hf : Falling w.links := byAge_falling _
  cases hl : w.links with
  | nil => rw [hl] at h; exact absurd h (by simp)
  | cons x t =>
    rw [hl] at h hf
    rcases List.mem_cons.mp h with rfl | h
    · exact Nat.lt_succ_self _
    · exact Nat.lt_succ_of_le ((List.pairwise_cons.mp hf).1 l h)

/-! ## The divergence stack without its links -/

theorem spilled_append (w : Warp) (l : List StackEntry) :
    ({ w with stack := w.stack ++ l } : Warp).spilled = w.spilled ++ ({ w with stack := l } : Warp).spilled := by
  unfold Warp.spilled
  exact List.filterMap_append

theorem spilled_links (w : Warp) (l : List Link) : ({ w with stack := l.map .link } : Warp).spilled = l := by
  unfold Warp.spilled
  simp [List.filterMap_map]

theorem spilled_ready (w : Warp) (l : List Split) : ({ w with stack := l.map .ready } : Warp).spilled = [] := by
  unfold Warp.spilled
  simp [List.filterMap_map]

theorem mem_spilled {w : Warp} {l : Link} : l ∈ w.spilled ↔ .link l ∈ w.stack := by
  unfold Warp.spilled
  rw [List.mem_filterMap]
  constructor
  · rintro ⟨e, he, hl⟩
    cases e <;> simp at hl
    subst hl
    exact he
  · intro h
    exact ⟨_, h, rfl⟩

/-- What has the links of `w` has them in any order; what has the same stacks has the same links. -/
theorem links_congr {w x : Warp} (hr : x.rets = w.rets) (hs : x.spilled = w.spilled) : x.links = w.links := by
  unfold Warp.links
  rw [hr, hs]

/-- Sides put into the machine leave the return stack. -/
theorem placeSides_links (w : Warp) (b : Bool) (first : Split) (rest : List Split) :
    (placeSides w b (first :: rest)).links = w.links := by
  obtain ⟨pushed, -, hst, hr, -⟩ := placeSides_stands w b first rest
  refine links_congr hr ?_
  have : (placeSides w b (first :: rest)).spilled = ({ w with stack := w.stack ++ pushed.map .ready } : Warp).spilled := by
    unfold Warp.spilled
    rw [hst]
  rw [this, spilled_append, spilled_ready, List.append_nil]

/-- Sides put into the machine leave the join records. -/
theorem placeSides_joinRec (w : Warp) (b : Bool) (first : Split) (rest : List Split) (id : Nat) :
    (placeSides w b (first :: rest)).joinRec id = w.joinRec id := by
  obtain ⟨pushed, -, hst, -, -⟩ := placeSides_stands w b first rest
  unfold Warp.joinRec
  rw [hst, List.findSome?_append, List.findSome?_map, Option.or_eq_left_of_none]
  exact List.findSome?_eq_none_iff.mpr fun _ _ => rfl

/-- The join record of a number, among the entries that are no links. -/
theorem joinRec_frames (w : Warp) (id : Nat) :
    w.joinRec id = w.frames.findSome? fun e => match e with | .join r => if r.id = id then some r else none | _ => none := by
  unfold Warp.joinRec Warp.frames
  induction w.stack with
  | nil => rfl
  | cons e t ih =>
    simp only [List.filter_cons, List.findSome?_cons]
    cases e with
    | join r =>
      simp only [if_true, List.findSome?_cons]
      split
      · rfl
      · exact ih
    | link r => exact ih
    | ready q => exact ih
    | waiting q => exact ih

/-! ## A call -/

theorem pushRet_links (w : Warp) (a : DWord) (m : LaneMask) :
    List.Perm (w.pushRet a m).links (⟨a, m, w.nextAge⟩ :: w.links) := by
  refine (links_perm _).trans ?_
  have hp : List.Perm (⟨a, m, w.nextAge⟩ :: (w.rets ++ w.spilled)) (⟨a, m, w.nextAge⟩ :: w.links) := (links_perm w).symm.cons _
  refine List.Perm.trans ?_ hp
  unfold Warp.pushRet
  dsimp only
  by_cases h : w.rets.length < 8
  · rw [if_pos h]
    exact .refl _
  · rw [if_neg h]
    have hsp : ({ w with rets := ⟨a, m, w.nextAge⟩ :: w.rets.dropLast, stack := w.stack ++ w.rets.getLast?.toList.map .link } :
        Warp).spilled = w.spilled ++ w.rets.getLast?.toList := by
      have := spilled_append w (w.rets.getLast?.toList.map .link)
      rw [spilled_links] at this
      exact this
    rw [hsp]
    refine List.Perm.cons _ ?_
    have hne : w.rets ≠ [] := fun h0 => h (by simp [h0])
    rw [List.getLast?_eq_some_getLast hne, Option.toList_some]
    calc w.rets.dropLast ++ (w.spilled ++ [w.rets.getLast hne])
      _ |>.Perm (w.rets.dropLast ++ ([w.rets.getLast hne] ++ w.spilled)) := List.perm_append_comm.append_left _
      _ = w.rets ++ w.spilled := by rw [← List.append_assoc, List.dropLast_append_getLast]

theorem pushRet_aged {w : Warp} (a : DWord) (m : LaneMask) (h : w.Aged) : (w.pushRet a m).Aged := by
  unfold Warp.Aged
  rw [((pushRet_links w a m).map _).nodup_iff, List.map_cons, List.nodup_cons]
  refine ⟨fun hm => ?_, h⟩
  obtain ⟨l, hl, he⟩ := List.mem_map.mp hm
  have := lt_nextAge hl
  simp only at he
  omega

/-! ## A return -/

/-- The links of a stack whose links are replaced, and its other entries. -/
theorem replaceLinks_parts (w : Warp) (st : List StackEntry) (l : List Link) :
    ({ w with stack := replaceLinks st l } : Warp).spilled = l ∧
      ({ w with stack := replaceLinks st l } : Warp).frames = ({ w with stack := st } : Warp).frames := by
  induction st generalizing l with
  | nil =>
    refine ⟨spilled_links w l, ?_⟩
    simp [replaceLinks, Warp.frames, List.filter_map, Function.comp_def]
  | cons e t ih =>
    unfold Warp.spilled Warp.frames at *
    cases e with
    | link x =>
      cases l with
      | nil => exact ih []
      | cons y ls =>
        obtain ⟨h1, h2⟩ := ih ls
        exact ⟨congrArg (y :: ·) h1, h2⟩
    | ready sp => exact ⟨(ih l).1, congrArg (StackEntry.ready sp :: ·) (ih l).2⟩
    | waiting sp => exact ⟨(ih l).1, congrArg (StackEntry.waiting sp :: ·) (ih l).2⟩
    | join r => exact ⟨(ih l).1, congrArg (StackEntry.join r :: ·) (ih l).2⟩

theorem spilled_perm (w : Warp) {st st' : List StackEntry} (h : List.Perm st st') :
    List.Perm ({ w with stack := st } : Warp).spilled ({ w with stack := st' } : Warp).spilled := by
  unfold Warp.spilled
  exact h.filterMap _

/-- A link taken off the stack. -/
theorem erase_parts (w : Warp) (st : List StackEntry) (l : Link) (h : .link l ∈ st) :
    List.Perm (l :: ({ w with stack := st.erase (.link l) } : Warp).spilled) ({ w with stack := st } : Warp).spilled ∧
      ({ w with stack := st.erase (.link l) } : Warp).frames = ({ w with stack := st } : Warp).frames := by
  refine ⟨spilled_perm w (List.perm_cons_erase h).symm, ?_⟩
  unfold Warp.frames
  induction st with
    | nil => exact absurd h (by simp)
    | cons e t ih =>
      by_cases he : e = .link l
      · subst he
        simp
      · rw [List.erase_cons_tail (by simpa using he)]
        rcases List.mem_cons.mp h with h | h
        · exact absurd h.symm he
        · have := ih h
          dsimp only at this ⊢
          rw [List.filter_cons, List.filter_cons, this]

/-- Entries brought back stay entries (R173). -/
theorem refillRets_keeps (n : Nat) (w : Warp) :
    SplitsOnly w (Warp.refillRets n w) ∧ List.Perm (Warp.refillRets n w).links w.links ∧
      (Warp.refillRets n w).frames = w.frames ∧ (Warp.refillRets n w).nextJoin = w.nextJoin ∧
      ∀ b, (Warp.refillRets n w).slot? b = w.slot? b := by
  induction n generalizing w with
  | zero => exact ⟨.refl w, .refl _, rfl, rfl, fun _ => rfl⟩
  | succ n ih =>
    unfold Warp.refillRets
    split
    · rename_i l rest hl
      split
      · have hmem : l ∈ w.spilled := (byAge_perm w.spilled).mem_iff.mp (hl ▸ List.mem_cons_self ..)
        obtain ⟨p1, p2⟩ := erase_parts w w.stack l (mem_spilled.mp hmem)
        obtain ⟨h1, h2, h3, h4, h5⟩ := ih { w with rets := insertLink l w.rets, stack := w.stack.erase (.link l) }
        refine ⟨SplitsOnly.trans (x := { w with rets := insertLink l w.rets, stack := w.stack.erase (.link l) }) rfl h1, ?_, h3.trans p2, h4, fun b => (h5 b).trans (by cases b <;> rfl)⟩
        refine h2.trans ((links_perm _).trans (.trans ?_ (links_perm w).symm))
        calc insertLink l w.rets ++ ({ w with stack := w.stack.erase (.link l) } : Warp).spilled
          _ |>.Perm (l :: (w.rets ++ ({ w with stack := w.stack.erase (.link l) } : Warp).spilled)) :=
            (insertLink_perm l w.rets).append_right _
          _ |>.Perm (w.rets ++ (l :: ({ w with stack := w.stack.erase (.link l) } : Warp).spilled)) := List.perm_middle.symm
          _ |>.Perm (w.rets ++ w.spilled) := p1.append_left _
      · exact ⟨.refl w, .refl _, rfl, rfl, fun _ => rfl⟩
    · exact ⟨.refl w, .refl _, rfl, rfl, fun _ => rfl⟩

/-- A return leaves the entries with its lanes cleared; splits and join records stay. -/
theorem popLinks_keeps (w : Warp) (m : LaneMask) :
    SplitsOnly w (w.popLinks m) ∧ List.Perm (w.popLinks m).links (clearLinks m w.links) ∧
      (w.popLinks m).frames = w.frames ∧ (w.popLinks m).nextJoin = w.nextJoin ∧ ∀ b, (w.popLinks m).slot? b = w.slot? b := by
  unfold Warp.popLinks
  extract_lets after used spill held
  let x : Warp := { w with
    rets := after.filter fun l => held.contains l.age
    stack := replaceLinks w.stack (after.filter fun l => !held.contains l.age) }
  obtain ⟨h1, h2, h3, h4, h5⟩ := refillRets_keeps 8 x
  obtain ⟨p1, p2⟩ := replaceLinks_parts w w.stack (after.filter fun l => !held.contains l.age)
  refine ⟨SplitsOnly.trans (x := x) rfl h1, h2.trans ((links_perm x).trans ?_), h3.trans p2, h4,
    fun b => (h5 b).trans (by cases b <;> rfl)⟩
  have : x.spilled = after.filter fun l => !held.contains l.age := p1
  rw [this]
  exact List.filter_append_perm _ _

/-- Clearing lanes keeps ages and their order. -/
theorem clearLinks_ages (m : LaneMask) (l : List Link) : List.Sublist ((clearLinks m l).map (·.age)) (l.map (·.age)) := by
  induction l generalizing m with
  | nil => exact .refl _
  | cons x t ih =>
    unfold clearLinks
    dsimp only
    split
    · exact (ih _).cons _
    · exact (ih _).cons_cons _

theorem clearLinks_falling (m : LaneMask) {l : List Link} (h : Falling l) : Falling (clearLinks m l) := by
  unfold Falling at *
  rw [← List.pairwise_map (f := Link.age) (R := fun a b => b ≤ a)] at h ⊢
  exact h.sublist (clearLinks_ages m l)

/-- The entries that hold a lane after lanes have been cleared: those that held it, but for the first if it was cleared. -/
theorem clearLinks_lane (m : LaneMask) (l : List Link) (k : Nat) :
    ((clearLinks m l).filter (·.mask.has k)).map (·.addr) =
      ((if m.has k then (l.filter (·.mask.has k)).drop 1 else l.filter (·.mask.has k))).map (·.addr) := by
  induction l generalizing m with
  | nil => simp [clearLinks]
  | cons x t ih =>
    have hrest := ih (m &&& ~~~x.mask)
    rw [diff_has] at hrest
    unfold clearLinks
    dsimp only
    by_cases hx : x.mask.has k = true
    · -- the entry holds the lane: it loses it exactly where the lane is cleared
      simp only [hx, Bool.not_true, Bool.and_false, Bool.false_eq_true, if_false] at hrest
      by_cases hm : m.has k = true
      · have hlose : LaneMask.has (x.mask &&& ~~~m) k = false := by rw [diff_has, hx, hm]; rfl
        split
        · rw [hrest]; simp [hx]
        · rw [List.filter_cons, if_neg (by simp [hlose]), hrest]; simp [hx]
      · have hm' : m.has k = false := by simpa using hm
        have hkeep : LaneMask.has (x.mask &&& ~~~m) k = true := by rw [diff_has, hx, hm']; rfl
        split
        · rename_i h0
          rw [h0, zero_has] at hkeep
          exact absurd hkeep (by simp)
        · rw [List.filter_cons, if_pos hkeep, List.map_cons, hrest]; simp [hx]
    · have hx' : x.mask.has k = false := by simpa using hx
      have hno : LaneMask.has (x.mask &&& ~~~m) k = false := by rw [diff_has, hx']; rfl
      simp only [hx', Bool.not_false, Bool.and_true] at hrest
      split
      · rw [hrest]; simp [hx']
      · rw [List.filter_cons, if_neg (by simp [hno]), hrest]; simp [hx']

theorem linkOf_filter (w : Warp) (k : Nat) : w.linkOf k = ((w.links.filter (·.mask.has k)).map (·.addr))[0]? := by
  unfold Warp.linkOf
  rw [← List.head?_filter, List.head?_eq_getElem?, List.getElem?_map]

/-- Each lane's link after a return of some lanes (R176). -/
theorem popLinks_linkOf {w : Warp} (m : LaneMask) (h : w.Aged) :
    (w.popLinks m).Aged ∧
    (∀ k, m.has k = false → (w.popLinks m).linkOf k = w.linkOf k) ∧
    (∀ k, m.has k = true → (w.popLinks m).linkOf k = ((w.links.filter (·.mask.has k))[1]?).map (·.addr)) := by
  obtain ⟨-, hp, -, -, -⟩ := popLinks_keeps w m
  have hn : ((clearLinks m w.links).map (·.age)).Nodup := List.Nodup.sublist (clearLinks_ages m w.links) h
  have hlinks : (w.popLinks m).links = clearLinks m w.links :=
    byAge_eq ((links_perm _).symm.trans hp) hn (clearLinks_falling m (byAge_falling _))
  refine ⟨?_, fun k hk => ?_, fun k hk => ?_⟩
  · unfold Warp.Aged
    rwa [hlinks]
  · rw [linkOf_filter, linkOf_filter, hlinks, clearLinks_lane, hk]; rfl
  · rw [linkOf_filter, hlinks, clearLinks_lane, hk, if_pos rfl, List.getElem?_map, List.getElem?_drop]

/-! ## CALL (R174) -/

theorem callAfter_stands (s : State) (f : LaneForm) (w : Strip) (sp : Split) :
    ∃ q, (callAfter w (cxOf s f w sp)).slot? s.slotB = some q ∧
      Continues s sp (branchTarget sp w.tdisp) sp.mask sp.join q ∧
      (callAfter w (cxOf s f w sp)).slot? (!s.slotB) = s.warp.slot? (!s.slotB) ∧
      (callAfter w (cxOf s f w sp)).stack = (s.warp.pushRet (sp.pc + 12#64) sp.mask).stack ∧
      (callAfter w (cxOf s f w sp)).rets = (s.warp.pushRet (sp.pc + 12#64) sp.mask).rets ∧
      (callAfter w (cxOf s f w sp)).links = (s.warp.pushRet (sp.pc + 12#64) sp.mask).links := by
  obtain ⟨-, -, -, -, hslot⟩ := pushRet_stacks s.warp (sp.pc + 12#64) sp.mask
  obtain ⟨h1, h2, h3, h4⟩ := placeSides_one (s.warp.pushRet (sp.pc + 12#64) sp.mask) s.slotB
    ((cxOf s f w sp).side sp.join (branchTarget sp w.tdisp, sp.mask))
  exact ⟨_, h1, continues_side .., h2.trans (hslot _), h3, h4, placeSides_links ..⟩

theorem call_ready {w : Strip} {f : LaneForm} {sp : Split} {s : State} (h : LaneReady (.call w) f w sp s) :
    let full := 8 ≤ s.warp.rets.length
    (s.warp.stack.length + (if full then 1 else 0) ≤ 64 →
      ∃ t q, exec (.call w) s = .next t ∧ t.split? = some q ∧
        Continues s sp (branchTarget sp w.tdisp) sp.mask sp.join q ∧
        t.warp.rets = ⟨sp.pc + 12#64, sp.mask, s.warp.nextAge⟩ :: (if full then s.warp.rets.dropLast else s.warp.rets) ∧
        t.warp.stack = s.warp.stack ++ (if full then s.warp.rets.getLast?.toList.map .link else []) ∧
        t.warp.slot? (!s.slotB) = s.warp.slot? (!s.slotB) ∧ ControlOnly s t ∧ (s.warp.Aged → t.warp.Aged)) ∧
    (64 < s.warp.stack.length + (if full then 1 else 0) →
      exec (.call w) s = .next (takeTrap s (wholeTrap Code.divstack sp.mask))) := by
  intro full
  obtain ⟨q, hq, hc, ho, hst, hr, hl⟩ := callAfter_stands s f w sp
  obtain ⟨p1, p2, -, -, -⟩ := pushRet_stacks s.warp (sp.pc + 12#64) sp.mask
  have hlen : (callAfter w (cxOf s f w sp)).stack.length = s.warp.stack.length + (if full then 1 else 0) := by
    rw [hst, p2]
    by_cases hf : full
    · have hne : s.warp.rets ≠ [] := fun h0 => by simp [full, h0] at hf
      rw [if_pos hf, if_pos hf, List.getLast?_eq_some_getLast hne]
      simp
    · rw [if_neg hf, if_neg hf]
      simp
  have hbare : Bare f w := by
    have hf := h.form
    simp only [laneForm, Option.some.injEq, Prod.mk.injEq, and_true] at hf
    subst hf
    exact bare_of rfl rfl rfl rfl
  refine ⟨fun hroom => ?_, fun hfull => controlWord_divstack (after := callAfter w) h (by rw [hlen]; exact hfull)⟩
  obtain ⟨t, ht, hmv⟩ := controlWord_moved (after := callAfter w) h hbare
    ((splitsOnly_pushRet ..).trans (splitsOnly_spread ..)) (by rw [hlen]; exact hroom)
  refine ⟨t, q, ht, hmv.split.trans hq, hc, hmv.rets.trans (hr.trans p1), hmv.stack.trans (hst.trans p2),
    (hmv.slot _).trans ho, hmv.control, fun ha => ?_⟩
  unfold Warp.Aged
  rw [hmv.links, hl]
  exact pushRet_aged _ _ ha

/-! ## RET (R176) -/

theorem groupLanes_congr {m : LaneMask} {a b : Nat → DWord} (h : ∀ k, m.has k = true → a k = b k) : groupLanes m a = groupLanes m b := by
  have hmap : (LaneMask.lanes m).map a = (LaneMask.lanes m).map b := List.map_congr_left fun k hk => h k (mem_lanes.mp hk)
  unfold groupLanes
  rw [hmap]
  refine List.map_congr_left fun x _ => ?_
  congr 1
  refine ofPred_congr fun i _ => ?_
  cases hi : m.has i
  · rfl
  · rw [h i hi]

/-- The warp from which a RET places its sides. -/
def returnedWarp (w : Warp) (m : LaneMask) (n : Nat) : Warp := { w.popLinks m with nextJoin := (w.popLinks m).nextJoin + n }

theorem retAfter_eq (s : State) (f : LaneForm) (w : Strip) (sp : Split) {link : Nat → DWord}
    (hlink : ∀ k, sp.mask.has k = true → s.warp.linkOf k = some (link k)) :
    retAfter (cxOf s f w sp) = placeSides (returnedWarp s.warp sp.mask (groupLanes sp.mask link).length) s.slotB
      ((cxOf s f w sp).sides sp.join (s.warp.popLinks sp.mask).nextJoin (groupLanes sp.mask link)) := by
  have : groupLanes sp.mask (fun i => (s.warp.linkOf i).getD 0#64) = groupLanes sp.mask link :=
    groupLanes_congr fun k hk => by rw [hlink k hk]; rfl
  rw [← this]
  rfl

theorem splitsOnly_retAfter (cx : Cx) : SplitsOnly cx.s.warp (retAfter cx) := by
  refine (popLinks_keeps cx.s.warp cx.sp.mask).1.trans ?_
  unfold retAfter
  exact SplitsOnly.trans (x := returnedWarp cx.s.warp cx.sp.mask _) rfl (splitsOnly_placeSides ..)

theorem ret_early {w : Strip} {f : LaneForm} {sp : Split} {s : State} (h : LaneReady (.ret w) f w sp s) {tr : TrapInfo}
    (ht : retEarly (cxOf s f w sp) = some tr) : exec (.ret w) s = .next (takeTrap s tr) := laneWord_early h rfl rfl rfl ht

theorem ret_ready {w : Strip} {f : LaneForm} {sp : Split} {s : State} (h : LaneReady (.ret w) f w sp s) {link : Nat → DWord}
    (hm : sp.mask ≠ 0#32) (hroom : (retAfter (cxOf s f w sp)).stack.length ≤ 64)
    (hlink : ∀ k, sp.mask.has k = true → s.warp.linkOf k = some (link k)) :
    ∃ t, exec (.ret w) s = .next t ∧ ControlOnly s t ∧ Divided s t sp link sp.join ∧
      (∀ id r, t.warp.joinRec id = some r → s.warp.joinRec id = some r) ∧
      t.warp.links = (s.warp.popLinks sp.mask).links := by
  have hbare : Bare f w := by
    have hf := h.form
    simp only [laneForm, Form.control, Option.some.injEq, Prod.mk.injEq, and_true] at hf
    subst hf
    exact bare_of rfl rfl rfl rfl
  have hearly : retEarly (cxOf s f w sp) = none := by
    have hdiv : divstack (cxOf s f w sp) (retAfter (cxOf s f w sp)) = none := if_neg (by unfold Warp.stackUse; omega)
    have hall : ((LaneMask.lanes sp.mask).all fun i => (s.warp.linkOf i).isSome) = true :=
      List.all_eq_true.mpr fun i hi => by rw [hlink i (mem_lanes.mp hi)]; rfl
    unfold retEarly
    rw [hdiv]
    exact if_pos hall
  obtain ⟨hx, hp, hfr, hnj, hslot⟩ := popLinks_keeps s.warp sp.mask
  obtain ⟨t, hrun, hmv⟩ : ∃ t, exec (.ret w) s = .next t ∧ Moved s (retAfter (cxOf s f w sp)) t :=
    ⟨_, laneWord_ready h ⟨rfl, rfl, rfl, hearly, hbare.clean .., fun _ _ => ⟨rfl, fun _ _ => rfl⟩⟩ (.inr rfl),
      retireMoved_moved (s := s) (tlb := s.tlb) h.single hbare.queues (splitsOnly_retAfter _)⟩
  obtain ⟨rest, hrest⟩ := groupLanes_cons link hm
  have hafter : ∃ q l, retAfter (cxOf s f w sp) =
      placeSides (returnedWarp s.warp sp.mask (groupLanes sp.mask link).length) s.slotB (q :: l) :=
    ⟨_, _, by rw [retAfter_eq s f w sp hlink, hrest]; rfl⟩
  obtain ⟨q, l, hql⟩ := hafter
  refine ⟨t, hrun, hmv.control, ?_, fun id r hj => ?_, ?_⟩
  · rw [retAfter_eq s f w sp hlink] at hmv
    refine divided_sides h.split hm (fun b => Eq.trans (by cases b <;> rfl) (hslot b)) (fun e he _ => ?_) (fun r hr => ?_) hmv
    · show e ∈ (s.warp.popLinks sp.mask).stack ↔ _
      rw [← mem_frames he, ← mem_frames he, hfr]
    · show _ ∈ (s.warp.popLinks sp.mask).stack
      rw [← mem_frames (by simp), hfr, mem_frames (by simp)]
      exact hr
  · have hkeep : (retAfter (cxOf s f w sp)).joinRec id = s.warp.joinRec id := by
      rw [hql, placeSides_joinRec]
      show (s.warp.popLinks sp.mask).joinRec id = _
      rw [joinRec_frames, joinRec_frames, hfr]
    exact hkeep ▸ (hmv.joinRec id).symm.trans hj
  · exact hmv.links.trans (by rw [hql, placeSides_links]; rfl)

/-- Settles O15: what a call pushes and what a return clears. -/
theorem callReturn : Obligations.CallReturn := by
  refine ⟨fun w f sp s h => call_ready h, fun w f sp s h => ?_⟩
  intro after
  refine ⟨fun link hm hroom hlink => ?_, fun hfull => ?_, ?_⟩
  · obtain ⟨t, ht, hctl, hdiv, hj, hl⟩ := ret_ready h hm hroom fun k hk => hlink k (has_lt hk) hk
    refine ⟨t, ht, hctl, hdiv, hj, fun ha => ?_⟩
    obtain ⟨h1, h2, h3⟩ := popLinks_linkOf sp.mask ha
    have hlk : ∀ k, t.warp.linkOf k = (s.warp.popLinks sp.mask).linkOf k := fun k => by
      unfold Warp.linkOf
      rw [hl]
    refine ⟨?_, fun k _ hk => (hlk k).trans (h2 k hk), fun k _ hk => (hlk k).trans (h3 k hk)⟩
    unfold Warp.Aged at h1
    rwa [← hl] at h1
  · have hdiv : divstack (cxOf s f w sp) (retAfter (cxOf s f w sp)) = some (wholeTrap Code.divstack sp.mask) := if_pos hfull
    exact ret_early h (by unfold retEarly; rw [hdiv]; rfl)
  · intro k hroom hk hkm hnone
    have hdiv : divstack (cxOf s f w sp) (retAfter (cxOf s f w sp)) = none := if_neg (Nat.not_lt.mpr hroom)
    have hall : ¬ ((LaneMask.lanes sp.mask).all fun i => (s.warp.linkOf i).isSome) = true := fun hall => by
      have := List.all_eq_true.mp hall k (mem_lanes.mpr hkm)
      rw [hnone] at this
      exact absurd this (by simp)
    exact ret_early h (by unfold retEarly; rw [hdiv]; exact if_neg hall)

end Sys2Proof.Machine
end

section
/-! PROOFS. RECONV (R25, R177): splits that wait at a join record, and the split that completes the join. -/

namespace Sys2Proof.Machine

/-! ## Splits that wait and the oldest ready one -/

theorem unionMask_snoc (l : List Split) (x : Split) : unionMask (l ++ [x]) = unionMask l ||| x.mask := by
  unfold unionMask
  rw [List.foldl_append, List.foldl_cons, List.foldl_nil]

/-- A record found under a number has that number. -/
theorem joinRec_id {w : Warp} {id : Nat} {r : JoinRec} (h : w.joinRec id = some r) : r.id = id := by
  unfold Warp.joinRec at h
  obtain ⟨e, -, he⟩ := List.exists_of_findSome?_eq_some h
  cases e with
  | join x =>
    simp only at he
    split at he
    · rename_i hx
      exact Option.some.inj he ▸ hx
    · exact absurd he (by simp)
  | ready | waiting | link => exact absurd he (by simp)

/-- A warp whose split has left its slot to wait on the stack. -/
def Warp.parkSplit (w : Warp) (b : Bool) (sp : Split) : Warp :=
  { w.setSlot b none with stack := w.stack ++ [.waiting sp] }

section
variable (w : Warp) (b : Bool) (sp : Split)

theorem parkSplit_waitingAt (id : Nat) : (w.parkSplit b sp).waitingAt id =
    w.waitingAt id ++ (if sp.join == some id && sp.wait == SplitWait.none then [sp] else []) := by
  unfold Warp.waitingAt Warp.parkSplit
  rw [List.filterMap_append]
  congr 1
  by_cases h : (sp.join == some id && sp.wait == SplitWait.none) = true
  · rw [if_pos h]
    exact List.filterMap_cons_some (if_pos h)
  · rw [if_neg h]
    exact List.filterMap_cons_none (if_neg h)

theorem parkSplit_joinRec (id : Nat) : (w.parkSplit b sp).joinRec id = w.joinRec id := by
  unfold Warp.joinRec Warp.parkSplit
  rw [List.findSome?_append, Option.or_eq_left_of_none]
  rfl

theorem parkSplit_oldestReady : (w.parkSplit b sp).oldestReady = w.oldestReady := by
  unfold Warp.oldestReady Warp.parkSplit
  rw [List.findSome?_append, Option.or_eq_left_of_none]
  rfl

theorem parkSplit_slot : (w.parkSplit b sp).slot? b = none := by cases b <;> rfl

theorem parkSplit_other : (w.parkSplit b sp).slot? (!b) = w.slot? (!b) := by cases b <;> rfl

theorem splitsOnly_parkSplit : SplitsOnly w (w.parkSplit b sp) := by cases b <;> rfl

end

/-- Taking the oldest ready split off the stack leaves what waits there. -/
theorem dropFirstReady_keeps (w : Warp) (st : List StackEntry) (id : Nat) :
    ({ w with stack := dropFirstReady st } : Warp).waitingAt id = ({ w with stack := st } : Warp).waitingAt id ∧
      ({ w with stack := dropFirstReady st } : Warp).joinRec id = ({ w with stack := st } : Warp).joinRec id := by
  induction st with
  | nil => exact ⟨rfl, rfl⟩
  | cons e t ih =>
    obtain ⟨h1, h2⟩ := ih
    unfold Warp.waitingAt Warp.joinRec at *
    cases e with
    | ready x => exact ⟨rfl, rfl⟩
    | waiting x | join x | link x =>
      simp only [dropFirstReady, List.filterMap_cons, List.findSome?_cons, h1, h2]
      exact ⟨trivial, trivial⟩

/-- Where a ready split stands on the stack it is one entry shorter, and otherwise as it was. -/
theorem dropFirstReady_oldest (w : Warp) (st : List StackEntry) :
    (({ w with stack := st } : Warp).oldestReady = none → dropFirstReady st = st) ∧
      ∀ q, ({ w with stack := st } : Warp).oldestReady = some q → (dropFirstReady st).length + 1 = st.length := by
  induction st with
  | nil => exact ⟨fun _ => rfl, fun q h => absurd h (by simp [Warp.oldestReady])⟩
  | cons e t ih =>
    cases e with
    | ready x => exact ⟨fun h => absurd h (by simp [Warp.oldestReady]), fun _ _ => rfl⟩
    | waiting x | join x | link x =>
      exact ⟨fun h => congrArg (_ :: ·) (ih.1 h), fun q h => congrArg (· + 1) (ih.2 q h)⟩

theorem dropFirstReady_length (w : Warp) :
    (dropFirstReady w.stack).length = w.stack.length - (if w.oldestReady.isSome = true then 1 else 0) := by
  obtain ⟨h1, h2⟩ := dropFirstReady_oldest w w.stack
  cases h : w.oldestReady with
  | none => rw [h1 h]; rfl
  | some q => have := h2 q h; simp; omega

/-- A slot left empty takes the oldest ready split (R28). -/
theorem rotateIn_empty {w : Warp} {b : Bool} (cycle : Nat) (h : w.slot? b = none) :
    (w.rotateIn b cycle).slot? b = w.oldestReady.map (fun sp => { sp with entered := cycle }) ∧
      (w.rotateIn b cycle).slot? (!b) = w.slot? (!b) ∧
      (w.rotateIn b cycle).stack = dropFirstReady w.stack ∧ (w.rotateIn b cycle).rets = w.rets ∧
      SplitsOnly w (w.rotateIn b cycle) := by
  have hdrop := (dropFirstReady_oldest w w.stack).1
  unfold Warp.rotateIn
  rw [h]
  cases ho : w.oldestReady with
  | none => exact ⟨h, rfl, (hdrop ho).symm, rfl, .refl w⟩
  | some sp => cases b <;> exact ⟨rfl, rfl, rfl, rfl, rfl⟩

/-! ## The warps that RECONV leaves -/

/-- Of the record the splits waiting there and the executing one. -/
def joinMask (s : State) (sp : Split) (id : Nat) : LaneMask := unionMask (s.warp.waitingAt id) ||| sp.mask

/-- The executing split as it waits. -/
def waitingSplit (s : State) (sp : Split) : Split := { sp with only := none, wait := .none, issued := s.draws }

section Here
variable {s : State} {f : LaneForm} {w : Strip} {sp : Split} {id : Nat} {r : JoinRec}

theorem joinHere_eq (hjoin : sp.join = some id) (hrec : s.warp.joinRec id = some r) (hj : r.j = sp.pc) : (cxOf s f w sp).joinHere = some r := by
  show (sp.join.bind s.warp.joinRec).filter (fun r => r.j == sp.pc) = some r
  rw [hjoin, Option.bind_some, hrec, Option.filter_some, if_pos (by simpa using hj)]

theorem completesJoin_iff (hrec : s.warp.joinRec id = some r) : (cxOf s f w sp).completesJoin r = true ↔ r.m &&& ~~~joinMask s sp id = 0#32 := by
  show (r.m &&& ~~~(sp.mask ||| unionMask (s.warp.waitingAt r.id)) == 0#32) = true ↔ _
  rw [joinRec_id hrec, BitVec.or_comm, beq_iff_eq]
  rfl

/-- The splits that wait at the record once the executing one does. -/
theorem park_waiting (hjoin : sp.join = some id) :
    (s.warp.parkSplit s.slotB (waitingSplit s sp)).waitingAt id = s.warp.waitingAt id ++ [waitingSplit s sp] ∧
      unionMask ((s.warp.parkSplit s.slotB (waitingSplit s sp)).waitingAt id) = joinMask s sp id := by
  have h : (s.warp.parkSplit s.slotB (waitingSplit s sp)).waitingAt id = s.warp.waitingAt id ++ [waitingSplit s sp] := by
    rw [parkSplit_waitingAt, if_pos]
    simp [waitingSplit, hjoin]
  exact ⟨h, by rw [h, unionMask_snoc]; rfl⟩

variable (hjoin : sp.join = some id) (hrec : s.warp.joinRec id = some r) (hj : r.j = sp.pc)
include hjoin hrec hj

/-- Lanes of the record are left: the split waits, and the oldest ready one takes its slot. -/
theorem reconvAfter_waits (hleft : r.m &&& ~~~joinMask s sp id ≠ 0#32) :
    reconvAfter (cxOf s f w sp) = (s.warp.parkSplit s.slotB (waitingSplit s sp)).rotateIn s.slotB s.cycle := by
  obtain ⟨-, hun⟩ := park_waiting (s := s) hjoin
  have hdone : (s.warp.parkSplit s.slotB (waitingSplit s sp)).joinDone r = none := by
    show (if r.m &&& ~~~unionMask ((s.warp.parkSplit s.slotB (waitingSplit s sp)).waitingAt r.id) = 0#32 then _ else _) = _
    rw [joinRec_id hrec, hun]
    exact if_neg hleft
  unfold reconvAfter
  rw [joinHere_eq hjoin hrec hj]
  dsimp only
  show (match (s.warp.parkSplit s.slotB (waitingSplit s sp)).joinDone r with | some m => _ | none => _) = _
  rw [hdone]
  rfl

/-- No lane of the record is left: the waiting splits go on as one. -/
theorem reconvAfter_joins (hnone : r.m &&& ~~~joinMask s sp id = 0#32) :
    ∃ m, mergeSplit r (s.warp.waitingAt id ++ [waitingSplit s sp]) = some m ∧
      reconvAfter (cxOf s f w sp) = ((s.warp.parkSplit s.slotB (waitingSplit s sp)).dropJoin id).setSlot s.slotB
        (some { m with entered := s.cycle }) := by
  obtain ⟨hw, hun⟩ := park_waiting (s := s) hjoin
  obtain ⟨m, hm⟩ : ∃ m, mergeSplit r (s.warp.waitingAt id ++ [waitingSplit s sp]) = some m := by
    cases h : s.warp.waitingAt id <;> exact ⟨_, rfl⟩
  have hdone : (s.warp.parkSplit s.slotB (waitingSplit s sp)).joinDone r = some m := by
    show (if r.m &&& ~~~unionMask ((s.warp.parkSplit s.slotB (waitingSplit s sp)).waitingAt r.id) = 0#32 then
      mergeSplit r ((s.warp.parkSplit s.slotB (waitingSplit s sp)).waitingAt r.id) else _) = _
    rw [joinRec_id hrec, hun, hw, hm]
    exact if_pos hnone
  refine ⟨m, hm, ?_⟩
  unfold reconvAfter
  rw [joinHere_eq hjoin hrec hj]
  dsimp only
  show (match (s.warp.parkSplit s.slotB (waitingSplit s sp)).joinDone r with | some m => _ | none => _) = _
  rw [hdone, joinRec_id hrec]
  rfl

end Here

/-- The merged split: after the RECONV, with every lane of its parts, under the outer record (R25, R322). -/
theorem mergeSplit_fields {r : JoinRec} {l : List Split} {m : Split} (h : mergeSplit r l = some m) :
    m.pc = r.j + 12#64 ∧ m.mask = unionMask l ∧ m.join = r.outer ∧
      ((∀ x ∈ l, x.ts.isSome = false) → m.sig = sigSeedJoin (unionMask l)) := by
  cases l with
  | nil => exact absurd h (by simp [mergeSplit])
  | cons x t =>
    obtain rfl := Option.some.inj h
    exact ⟨rfl, rfl, rfl, fun hts => if_neg (by simp [hts x (List.mem_cons_self ..)])⟩

/-- A closed record is gone, with the splits that waited at it. -/
theorem dropJoin_closed (w : Warp) (id : Nat) :
    (w.dropJoin id).joinRec id = none ∧ (w.dropJoin id).waitingAt id = [] ∧ (w.dropJoin id).stack.length ≤ w.stack.length ∧
      (∀ b, (w.dropJoin id).slot? b = w.slot? b) ∧ SplitsOnly w (w.dropJoin id) := by
  refine ⟨?_, ?_, List.length_filter_le .., fun b => by cases b <;> rfl, rfl⟩
  · unfold Warp.joinRec Warp.dropJoin
    refine List.findSome?_eq_none_iff.mpr fun e he => ?_
    have hk := (List.mem_filter.mp he).2
    cases e with
    | join x => simpa using hk
    | ready | waiting | link => rfl
  · unfold Warp.waitingAt Warp.dropJoin
    refine List.filterMap_eq_nil_iff.mpr fun e he => ?_
    have hk := (List.mem_filter.mp he).2
    cases e with
    | waiting x => simpa [or_iff_not_imp_left] using hk
    | ready | join | link => rfl

/-! ## RECONV issues -/

/-- Why a RECONV traps before it acts (R27). -/
def reconvEarly (cx : Cx) : Option TrapInfo := waitStack cx (cx.joinHere.any cx.completesJoin) (reconvAfter cx)

section
variable {w : Strip} {f : LaneForm} {sp : Split} {s : State} (h : LaneReady (.reconv w) f w sp s)
include h

theorem reconv_divstack (hearly : reconvEarly (cxOf s f w sp) = some (wholeTrap Code.divstack sp.mask)) :
    exec (.reconv w) s = .next (takeTrap s (wholeTrap Code.divstack sp.mask)) := laneWord_early h rfl rfl rfl hearly

theorem reconv_moved (hearly : reconvEarly (cxOf s f w sp) = none) (hx : SplitsOnly s.warp (reconvAfter (cxOf s f w sp))) :
    ∃ t, exec (.reconv w) s = .next t ∧ Moved s (reconvAfter (cxOf s f w sp)) t := by
  have hbare : Bare f w := by
    have hf := h.form
    simp only [laneForm, Form.control, Option.some.injEq, Prod.mk.injEq, and_true] at hf
    subst hf
    exact bare_of rfl rfl rfl rfl
  exact ⟨_, laneWord_ready h ⟨rfl, rfl, rfl, hearly, hbare.clean .., fun _ _ => ⟨rfl, fun _ _ => rfl⟩⟩ (.inr rfl),
    retireMoved_moved (s := s) (tlb := s.tlb) h.single hbare.queues hx⟩

/-- Elsewhere a RECONV does nothing but seed the signature. -/
theorem reconv_elsewhere (hlen : s.warp.stack.length ≤ 64)
    (hno : ∀ id r, sp.join = some id → s.warp.joinRec id = some r → r.j ≠ sp.pc) :
    ∃ t q, exec (.reconv w) s = .next t ∧ t.split? = some q ∧ q.pc = sp.pc + 12#64 ∧ q.mask = sp.mask ∧
      q.join = sp.join ∧ q.sig = (if sp.ts.isSome then sp.sig else sigSeedJoin sp.mask) ∧
      t.warp.stack = s.warp.stack ∧ t.warp.slot? (!s.slotB) = s.warp.slot? (!s.slotB) ∧ ControlOnly s t := by
  have hhere : (cxOf s f w sp).joinHere = none := by
    show (sp.join.bind s.warp.joinRec).filter (fun r => r.j == sp.pc) = none
    rw [Option.filter_eq_none_iff]
    intro r hr
    obtain ⟨id, hid, hrec⟩ := Option.bind_eq_some_iff.mp hr
    simpa using hno id r hid hrec
  let q : Split := { (cxOf s f w sp).side sp.join (sp.pc + 12#64, sp.mask) with
    sig := if sp.ts.isSome then sp.sig else sigSeedJoin sp.mask, entered := sp.entered }
  have hafter : reconvAfter (cxOf s f w sp) = s.warp.setSlot s.slotB (some q) := by
    unfold reconvAfter
    rw [hhere]
    rfl
  have hstack : (s.warp.setSlot s.slotB (some q)).stack = s.warp.stack := by cases s.slotB <;> rfl
  have hearly : reconvEarly (cxOf s f w sp) = none := by
    unfold reconvEarly waitStack divstack Warp.stackUse
    rw [hhere, hafter, hstack, if_neg (by simp), if_neg (by omega)]
  obtain ⟨t, ht, hmv⟩ := reconv_moved h hearly (hafter ▸ splitsOnly_setSlot ..)
  rw [hafter] at hmv
  exact ⟨t, q, ht, hmv.split.trans (slot_setSlot ..), rfl, rfl, rfl, rfl, hmv.stack.trans hstack,
    (hmv.slot _).trans (slot_setSlot_other ..), hmv.control⟩

end

/-- Settles O16: a RECONV waits at its join address, or completes the join, or does nothing. -/
theorem reconvergence : Obligations.Reconvergence := by
  intro w f sp s h
  refine ⟨reconv_elsewhere h, ?_⟩
  intro id r hjoin hrec hj M needs
  have hany : (cxOf s f w sp).joinHere.any (cxOf s f w sp).completesJoin = (cxOf s f w sp).completesJoin r := by
    rw [joinHere_eq hjoin hrec hj]; rfl
  have hcomp := completesJoin_iff (f := f) (w := w) (sp := sp) hrec
  by_cases hleft : r.m &&& ~~~joinMask s sp id = 0#32
  · -- the executing split completes the join
    have hneeds : needs = s.warp.stack.length + 1 := congrArg (s.warp.stack.length + 1 - ·) (if_neg fun hc => hc.1 hleft)
    obtain ⟨m, hm, hafter⟩ := reconvAfter_joins (f := f) (w := w) hjoin hrec hj hleft
    obtain ⟨c1, c2, c3, c4, c5⟩ := dropJoin_closed (s.warp.parkSplit s.slotB (waitingSplit s sp)) id
    have hst : (reconvAfter (cxOf s f w sp)).stack = ((s.warp.parkSplit s.slotB (waitingSplit s sp)).dropJoin id).stack := by
      rw [hafter]; cases s.slotB <;> rfl
    have hpark : (s.warp.parkSplit s.slotB (waitingSplit s sp)).stack.length = s.warp.stack.length + 1 := List.length_append ..
    refine ⟨fun hfull => reconv_divstack h ?_, fun hroom _ => ?_, fun _ hne => absurd hleft hne⟩
    · unfold reconvEarly waitStack
      rw [hany, hcomp.mpr hleft]
      have hsf : (cxOf s f w sp).s.warp.stackFull 1 = true := decide_eq_true (show 64 < s.warp.stack.length + 1 by omega)
      rw [hsf]
      rfl
    · have hearly : reconvEarly (cxOf s f w sp) = none := by
        have hsf : (cxOf s f w sp).s.warp.stackFull 1 = false := decide_eq_false (show ¬ 64 < s.warp.stack.length + 1 by omega)
        unfold reconvEarly waitStack divstack Warp.stackUse
        rw [hsf, Bool.and_false, if_neg (by simp), if_neg (by rw [hst]; omega)]
      obtain ⟨t, ht, hmv⟩ := reconv_moved h hearly
        (hafter ▸ (splitsOnly_parkSplit ..).trans (c5.trans (splitsOnly_setSlot ..)))
      obtain ⟨m1, m2, m3, m4⟩ := mergeSplit_fields hm
      have hun : unionMask (s.warp.waitingAt id ++ [waitingSplit s sp]) = M := unionMask_snoc ..
      rw [hun] at m2 m4
      refine ⟨t, { m with entered := s.cycle }, ht, ?_, m1, m2, m3, fun hts hall => m4 fun x hx => ?_, ?_, ?_, ?_, hmv.control⟩
      · rw [hmv.split, hafter, slot_setSlot]
      · rcases List.mem_append.mp hx with hx | hx
        · exact hall x hx
        · rw [List.mem_singleton.mp hx]
          exact hts
      · rw [hmv.joinRec, ← c1]
        unfold Warp.joinRec
        rw [hst]
      · rw [hmv.waitingAt, ← c2]
        unfold Warp.waitingAt
        rw [hst]
      · rw [hmv.slot, hafter, slot_setSlot_other, c4, parkSplit_other]
  · -- lanes of the record are left
    have hafter := reconvAfter_waits (f := f) (w := w) hjoin hrec hj hleft
    obtain ⟨r1, r2, r3, r4, r5⟩ := rotateIn_empty s.cycle (parkSplit_slot s.warp s.slotB (waitingSplit s sp))
    have hneeds : (reconvAfter (cxOf s f w sp)).stack.length = needs := by
      rw [hafter, r3, dropFirstReady_length, parkSplit_oldestReady]
      show (s.warp.stack ++ [_]).length - _ = s.warp.stack.length + 1 - (if r.m &&& ~~~joinMask s sp id ≠ 0#32 ∧ _ then 1 else 0)
      simp only [List.length_append, List.length_singleton, ne_eq, hleft, not_false_eq_true, true_and]
    have hc : (cxOf s f w sp).completesJoin r = false := by
      rw [← Bool.not_eq_true, hcomp]
      exact hleft
    refine ⟨fun hfull => reconv_divstack h ?_, fun _ h0 => absurd h0 hleft, fun hroom _ => ?_⟩
    · unfold reconvEarly waitStack divstack Warp.stackUse
      rw [hany, hc, hneeds, Bool.false_and, if_neg (by simp)]
      exact if_pos hfull
    · have hearly : reconvEarly (cxOf s f w sp) = none := by
        unfold reconvEarly waitStack divstack Warp.stackUse
        rw [hany, hc, hneeds, Bool.false_and, if_neg (by simp)]
        exact if_neg (by omega)
      obtain ⟨t, ht, hmv⟩ := reconv_moved h hearly (hafter ▸ (splitsOnly_parkSplit ..).trans r5)
      obtain ⟨-, hun⟩ := park_waiting (s := s) hjoin
      have hkeep := dropFirstReady_keeps s.warp (s.warp.parkSplit s.slotB (waitingSplit s sp)).stack id
      refine ⟨t, ht, ?_, ?_, ?_, ?_, hmv.control⟩
      · refine Eq.trans ?_ hun
        rw [hmv.waitingAt, hafter]
        unfold Warp.waitingAt at hkeep ⊢
        rw [r3, hkeep.1]
      · rw [hmv.joinRec, hafter, ← hrec, ← parkSplit_joinRec s.warp s.slotB (waitingSplit s sp)]
        unfold Warp.joinRec at hkeep ⊢
        rw [r3, hkeep.2]
      · rw [hmv.split, hafter, r1, parkSplit_oldestReady, Option.map_map]
        rfl
      · rw [hmv.slot, hafter, r2, parkSplit_other]

end Sys2Proof.Machine
end

section
/-! PROOFS. ENTRY, TRAMP, YIELD and LMARK (R16, R22, R141, R177, R233): words that act on their split alone. -/

namespace Sys2Proof.Machine

/-! ## Words that write no register -/

/-- A bare word that retires in a state whose issuing split stands writes nothing (R82). -/
theorem retire_bare (i : Instr) {f : LaneForm} {w : Strip} (hb : Bare f w) (s s1 : State) (sp sp1 : Split) (next : Option DWord)
    (hrg : s1.warp.rg = none) (hsp : s1.split? = some sp1) :
    LaneRetired (cxOf s f w sp) (next.getD (sp.pc + 12#64)) s1 (retire i (cxOf s f w sp) { s := s1, next := next }) ∧
      LaneResults [] [] s1 (retire i (cxOf s f w sp) { s := s1, next := next }) := by
  obtain ⟨hf, hsl, hso, hq, hr, hw⟩ := retire_frame i (cxOf s f w sp) { s := s1, next := next } hrg
  obtain ⟨r1, r2, -, r3⟩ := retire_results i (cxOf s f w sp) { s := s1, next := next } hrg ⟨rfl, rfl, rfl, rfl, rfl⟩
  have hnow : resultsIn (cxOf s f w sp) { s := s1, next := next } s1.warp = s1.warp := by
    have hlater : laterBy (cxOf s f w sp) { s := s1, next := next } = false := by
      show (!(namedQueues f w).isEmpty && _) = false
      rw [hb.queues]; rfl
    unfold resultsIn
    rw [hlater]
    rfl
  dsimp only at hf hsl hso hq hr hw r1 r2 r3
  rw [hnow] at r1 r2
  have hfq : (popQueues s1.warp (namedQueues (cxOf s f w sp).f (cxOf s f w sp).w)).fq = s1.warp.fq := by
    show (popQueues s1.warp (namedQueues f w)).fq = _
    rw [hb.queues]; rfl
  generalize retire i (cxOf s f w sp) { s := s1, next := next } = t at *
  have hback : t.warp.bq = backAfter s1 [] := by
    rw [r3]
    unfold backAfter
    split <;> rfl
  refine ⟨⟨⟨sp1, (retiredSplit (cxOf s f w sp) { s := s1, next := next } s1.draws sp1).sig, hsp, ?_⟩, hso, hq, ?_, hf.2, ?_⟩, fun _ => ⟨by simp, fun n _ => r1 n, hback, by simp, fun n k _ _ => ?_⟩,
    fun hne => absurd (hq.trans hfq) hne⟩
  · rw [State.split?, hf.slot, hsl, hsp]
    rfl
  · obtain ⟨⟨a, b, r, ps, fq, bq, q, pk, fr, n, wt, c, g, rfl⟩, -⟩ := hf
    simp only at hr hw
    subst hr; subst hw; rfl
  · obtain ⟨⟨a, b, r, ps, fq, bq, q, pk, fr, n, wt, c, g, rfl⟩, -⟩ := hf
    exact fun _ => rfl
  · unfold Warp.predLane
    rw [r2]

/-- A ready bare word whose own checks let it pass reaches its body whatever lanes take part. -/
theorem bareWord_body {i : Instr} {b : Cx → LaneMask} {body : Cx → LaneRes} {f : LaneForm} {w : Strip} {sp : Split} {s : State}
    (h : LaneReady i f w sp s) (hb : Bare f w) (h0 : b (cxOf s f w sp) = 0#32) :
    laneWord i { always := true, budget := b } body s = .next (finish i (cxOf s f w sp) (body (cxOf s f w sp))) :=
  laneWord_ready h ⟨rfl, h0, rfl, rfl, hb.clean .., fun _ _ => ⟨rfl, fun _ _ => rfl⟩⟩ (.inr rfl)

/-! ## ENTRY and TRAMP -/

theorem entry_bare {f : LaneForm} {w : Strip} {sp : Split} {s : State} (h : LaneReady (.entry w) f w sp s) : Bare f w := by
  have hf := h.form
  simp only [laneForm, Form.control, Option.some.injEq, Prod.mk.injEq, and_true] at hf
  subst hf
  exact bare_of rfl rfl rfl rfl

theorem entry_ready {w : Strip} {f : LaneForm} {sp : Split} {s : State} (h : LaneReady (.entry w) f w sp s) :
    (Form.xf w 4 0 ≤ s.warp.units →
      ∃ t, exec (.entry w) s = .next t ∧ LaneRetired (cxOf s f w sp) (sp.pc + 12#64) s t ∧ LaneResults [] [] s t) ∧
    (s.warp.units < Form.xf w 4 0 → sp.mask ≠ 0#32 →
      exec (.entry w) s = .next (takeTrap s (wholeTrap Code.budget sp.mask))) := by
  refine ⟨fun hle => ⟨_, bareWord_body h (entry_bare h) (if_neg (by show ¬ s.warp.units < _; omega)), ?_⟩, fun hlt hm => ?_⟩
  · exact retire_bare _ (entry_bare h) s s sp sp none h.single h.split
  · exact laneWord_budget (o := { always := true, budget := fun cx => if cx.s.warp.units < Form.xf w 4 0 then cx.sp.mask else 0#32 })
      h rfl (if_pos hlt) hm

theorem tramp_ready {w : Strip} {slot : BitVec 3} {f : LaneForm} {sp : Split} {s : State} (h : LaneReady (.tramp slot w) f w sp s) :
    ∃ t, exec (.tramp slot w) s = .next t ∧ LaneRetired (cxOf s f w sp) (branchTarget sp w.tdisp) s t ∧ LaneResults [] [] s t := by
  have hb : Bare f w := by
    have hf := h.form
    simp only [laneForm, Option.some.injEq, Prod.mk.injEq, and_true] at hf
    subst hf
    exact bare_of rfl rfl rfl rfl
  exact ⟨_, bareWord_body (b := fun _ => 0#32) h hb rfl,
    retire_bare _ hb s s sp sp (some (branchTarget sp w.tdisp)) h.single h.split⟩

/-! ## YIELD (R28) -/

/-- The split after a YIELD. -/
def yielded (s : State) (f : LaneForm) (w : Strip) (sp : Split) (entered : Nat) : Split :=
  { (cxOf s f w sp).side sp.join (sp.pc + 12#64, sp.mask) with entered := entered }

section
variable {w : Strip} {f : LaneForm} {sp : Split} {s : State}

/-- Nothing is ready, or the split is in a handler: it stays. -/
theorem yieldAfter_stays (hno : s.warp.oldestReady = none ∨ sp.ts.isSome = true) :
    yieldAfter (cxOf s f w sp) = s.warp.setSlot s.slotB (some (yielded s f w sp sp.entered)) := by
  refine if_neg ?_
  show ¬ (s.warp.oldestReady.isSome && sp.ts.isNone) = true
  rcases hno with h | h
  · simp [h]
  · obtain ⟨k, hk⟩ := Option.isSome_iff_exists.mp h
    simp [hk]

/-- A ready split takes its slot. -/
theorem yieldAfter_rotates {r : Split} (hr : s.warp.oldestReady = some r) (hts : sp.ts = none) :
    yieldAfter (cxOf s f w sp) = ((s.warp.setSlot s.slotB none).rotateIn s.slotB s.cycle).pushReady (yielded s f w sp s.cycle) := by
  refine if_pos ?_
  show (s.warp.oldestReady.isSome && sp.ts.isNone) = true
  simp [hr, hts]

theorem yield_ready (h : LaneReady (.yield w) f w sp s) (hlen : s.warp.stack.length ≤ 64) :
    (s.warp.oldestReady = none ∨ sp.ts.isSome = true →
      ∃ t q, exec (.yield w) s = .next t ∧ t.split? = some q ∧ Continues s sp (sp.pc + 12#64) sp.mask sp.join q ∧
        t.warp.stack = s.warp.stack ∧ ControlOnly s t) ∧
    (∀ r, s.warp.oldestReady = some r → sp.ts = none →
      ∃ t q, exec (.yield w) s = .next t ∧ t.split? = some { r with entered := s.cycle } ∧
        Continues s sp (sp.pc + 12#64) sp.mask sp.join q ∧ t.warp.stack.getLast? = some (.ready q) ∧
        t.warp.stack.length = s.warp.stack.length ∧ ControlOnly s t) := by
  have hb : Bare f w := by
    have hf := h.form
    simp only [laneForm, Form.control, Option.some.injEq, Prod.mk.injEq, and_true] at hf
    subst hf
    exact bare_of rfl rfl rfl rfl
  refine ⟨fun hno => ?_, fun r hr hts => ?_⟩
  · have hafter := yieldAfter_stays (w := w) (f := f) hno
    have hst : (yieldAfter (cxOf s f w sp)).stack = s.warp.stack := by rw [hafter]; cases s.slotB <;> rfl
    obtain ⟨t, ht, hmv⟩ := controlWord_moved h hb (hafter ▸ splitsOnly_setSlot ..) (by rw [hst]; exact hlen)
    exact ⟨t, _, ht, hmv.split.trans (hafter ▸ slot_setSlot ..), continues_side .., hmv.stack.trans hst, hmv.control⟩
  · have hafter := yieldAfter_rotates (w := w) (f := f) hr hts
    obtain ⟨r1, -, r3, -, r5⟩ := rotateIn_empty s.cycle (slot_setSlot s.warp s.slotB none)
    have hready : (s.warp.setSlot s.slotB none).oldestReady = some r := by rw [← hr]; cases s.slotB <;> rfl
    have hstack : (s.warp.setSlot s.slotB none).stack = s.warp.stack := by cases s.slotB <;> rfl
    have hst : (yieldAfter (cxOf s f w sp)).stack = dropFirstReady s.warp.stack ++ [.ready (yielded s f w sp s.cycle)] := by
      rw [hafter]
      show ((s.warp.setSlot s.slotB none).rotateIn s.slotB s.cycle).stack ++ _ = _
      rw [r3, hstack]
    have hone := (dropFirstReady_oldest s.warp s.warp.stack).2 r hr
    have hlen' : (yieldAfter (cxOf s f w sp)).stack.length = s.warp.stack.length := by
      rw [hst, List.length_append, List.length_singleton, hone]
    have honly : SplitsOnly s.warp (yieldAfter (cxOf s f w sp)) := by
      rw [hafter]; exact (splitsOnly_setSlot ..).trans (r5.trans (splitsOnly_pushes [yielded s f w sp s.cycle] _))
    obtain ⟨t, ht, hmv⟩ := controlWord_moved h hb honly (by rw [hlen']; exact hlen)
    refine ⟨t, yielded s f w sp s.cycle, ht, ?_, continues_side .., ?_, ?_, hmv.control⟩
    · rw [hmv.split, hafter]
      refine Eq.trans (b := ((s.warp.setSlot s.slotB none).rotateIn s.slotB s.cycle).slot? s.slotB) (by cases s.slotB <;> rfl) ?_
      rw [r1, hready]
      rfl
    · rw [hmv.stack, hst, List.getLast?_concat]
    · rw [hmv.stack, hlen']

end

/-! ## LMARK (R22, R141) -/

theorem lmark_bare {i : Instr} {f : LaneForm} {w : Strip} {sp : Split} {s : State} (hi : i = .lmark w) (h : LaneReady i f w sp s) :
    Bare f w := by
  subst hi
  have hf := h.form
  simp only [laneForm, Form.control, Option.some.injEq, Prod.mk.injEq, and_true] at hf
  subst hf
  exact bare_of rfl rfl rfl rfl

theorem lmarkReady_iff (w : Warp) : lmarkReady w = true ↔ (w.am - (w.lm + 1#32)).toNat < 2 ^ 31 ∨ w.acc = .halted := by
  simp [lmarkReady, reached]

section
variable {w : Strip} {f : LaneForm} {sp : Split} {s : State} (h : LaneReady (.lmark w) f w sp s)
include h

/-- AM has reached LM + 1: the mark is made and the split goes on. -/
theorem lmark_marks (hr : lmarkReady s.warp = true) : ∃ t, exec (.lmark w) s = .next t ∧
    LaneRetired (cxOf s f w sp) (sp.pc + 12#64) (markLm s sp) t ∧ LaneResults [] [] (markLm s sp) t ∧
      t.warp.lmView = (markLm s sp).warp.lmView := by
  have hb := lmark_bare rfl h
  have hsplit : (markLm s sp).split? = some sp := by
    have := h.split
    unfold State.split? at this ⊢
    cases hs : s.slotB <;> rw [hs] at this <;> simpa [markLm, modWarp, hs, Warp.slot?] using this
  have hrun : exec (.lmark w) s = .next (retire (.lmark w) (cxOf s f w sp) { s := markLm s sp }) := by
    refine (bareWord_body (b := fun _ => 0#32) h hb rfl).trans ?_
    show Host.Outcome.next (finish _ _ (if lmarkReady s.warp = true then _ else _)) = _
    rw [if_pos hr]
    rfl
  obtain ⟨h1, h2⟩ := retire_bare (.lmark w) hb s (markLm s sp) sp sp none h.single hsplit
  exact ⟨_, hrun, h1, h2, by rw [h1.2.2.2.1]⟩

/-- Before, the split is parked. -/
theorem lmark_parks (hr : lmarkReady s.warp = false) :
    exec (.lmark w) s = .next (s.setSplit (some { sp with wait := .lmark })) := by
  refine (bareWord_body (b := fun _ => 0#32) h (lmark_bare rfl h) rfl).trans ?_
  show Host.Outcome.next (finish _ _ (if lmarkReady s.warp = true then _ else _)) = _
  rw [if_neg (by simp [hr])]
  rfl

end

/-- What an LMARK that completes leaves, as the claim states it. -/
theorem lmark_marked {w : Strip} {f : LaneForm} {sp : Split} {s : State} (h : LaneReady (.lmark w) f w sp s)
    (hr : lmarkReady s.warp = true) : ∃ t, exec (.lmark w) s = .next t ∧
    let s1 : State := { s with warp := { s.warp with lm := s.warp.lm + 1#32, lmView := t.warp.lmView } }
    LaneRetired (cxOf s f w sp) (sp.pc + 12#64) s1 t ∧ LaneResults [] [] s1 t := by
  obtain ⟨t, ht, h1, h2, hv⟩ := lmark_marks h hr
  refine ⟨t, ht, ?_⟩
  rw [hv]
  exact ⟨h1, h2⟩

/-- The parked LMARK is performed as its word, which has been fetched again (R22). -/
theorem lmarkRetire_runs {w : Strip} {sp : Split} {s s' t : State} (hB : s.slotB = false)
    (hA : s.warp.slotA = some { sp with wait := .lmark }) (hr : lmarkReady s.warp = true)
    (hfetch : fetchLane { s with warp := { s.warp with slotA := some { sp with wait := .none } } }
      { s.warp with slotA := some { sp with wait := .none } } sp.pc = (.ok (.lmark w), s'))
    (ht : exec (.lmark w) s' = .next t) (htB : t.slotB = false) (hother : (t.warp.slotB.map (·.wait)) ≠ some .lmark) :
    exec .lmarkRetire s = .next t := by
  have hfirst : resumeWord s false runLmark = t := by
    unfold resumeWord
    show (match s.warp.slotA with | none => s | some sp => _) = t
    rw [hA]
    dsimp only
    have hs : ({ modWarp s fun w => w.setSlot false (some { sp with wait := .none }) with slotB := false } : State) =
        { s with warp := { s.warp with slotA := some { sp with wait := .none } } } := by
      cases s
      subst hB
      rfl
    change (match fetchLane ({ modWarp s fun w => w.setSlot false (some { sp with wait := .none }) with slotB := false } : State)
      ({ modWarp s fun w => w.setSlot false (some { sp with wait := .none }) with slotB := false } : State).warp sp.pc with
      | (.ok i, s') => _ | (_, s') => _) = t
    rw [hs, hfetch]
    dsimp only
    show (match some (exec (.lmark w) s') with | some (.next t) => ({ t with slotB := s.slotB } : State) | _ => _) = t
    rw [ht]
    show ({ t with slotB := s.slotB } : State) = t
    rw [hB, ← htB]
  have hwaits : slotWaits s false (· == .lmark) = true := by
    show ((s.warp.slotA.map fun sp => sp.wait == .lmark).getD false) = true
    rw [hA]; rfl
  have hnot : slotWaits t true (· == .lmark) = false := by
    show ((t.warp.slotB.map fun sp => sp.wait == .lmark).getD false) = false
    cases hq : t.warp.slotB with
    | none => rfl
    | some q =>
      rw [hq] at hother
      simpa using hother
  show execLmarkRetire s = _
  unfold execLmarkRetire
  simp only [hwaits, hr, Bool.and_true, if_true, hfirst, hnot, Bool.false_and, Bool.false_eq_true, if_false]

theorem laneMark : Clause.LaneMark := by
  unfold Clause.LaneMark
  intro reaches marked
  refine ⟨fun w f sp s h => ⟨fun hr => ?_, fun hr => ?_⟩, fun w sp s s' f hB hA hother hr hfetch h => ?_⟩
  · exact lmark_marked h ((lmarkReady_iff _).mpr hr)
  · refine lmark_parks h ?_
    rw [← Bool.not_eq_true, lmarkReady_iff]
    exact hr
  · obtain ⟨c, hc⟩ := fetchLane_keeps { s with warp := { s.warp with slotA := some { sp with wait := .none } } }
      { s.warp with slotA := some { sp with wait := .none } } sp.pc
    rw [hfetch] at hc
    dsimp only at hc
    have hr' : lmarkReady s'.warp = true := by rw [hc]; exact (lmarkReady_iff s.warp).mpr hr
    obtain ⟨t, ht, hm⟩ := lmark_marked h hr'
    have hm' := hm
    obtain ⟨⟨-, hslot, -, hframe, -, -⟩, -⟩ := hm'
    have hB' : s'.slotB = false := by rw [hc]; exact hB
    have htB : t.slotB = false := by rw [hframe]; exact hB'
    refine ⟨t, lmarkRetire_runs hB hA ((lmarkReady_iff _).mpr hr) hfetch ht htB ?_, ht, hm⟩
    have : t.warp.slotB = s.warp.slotB := by
      have : t.warp.slot? (!s'.slotB) = s'.warp.slot? (!s'.slotB) := hslot
      rw [hB'] at this
      rw [hc] at this
      exact this
    rw [this]
    exact hother

end Sys2Proof.Machine
end

section
/-! PROOFS. EXIT, and what the end of lanes leaves (R16, R25, R173, R177, R228). -/

namespace Sys2Proof.Machine

/-! ## Settling a warp after lanes have ended -/

/-- Splits have entered free slots, records and handlers have ended: what stands in a slot stays there, and of the rest of
the warp only its stack's splits and records and its trap sets have changed. -/
structure Settles (w x : Warp) : Prop where
  only : x = { w with slotA := x.slotA, slotB := x.slotB, stack := x.stack, ts0 := x.ts0, ts1 := x.ts1 }
  slot : ∀ b q, w.slot? b = some q → x.slot? b = some q
  spilled : x.spilled = w.spilled

theorem Settles.refl (w : Warp) : Settles w w := ⟨rfl, fun _ _ h => h, rfl⟩

theorem Settles.trans {w x y : Warp} (h : Settles w x) (k : Settles x y) : Settles w y :=
  ⟨by rw [k.only, h.only], fun b q hq => k.slot b q (h.slot b q hq), k.spilled.trans h.spilled⟩

theorem Settles.links {w x : Warp} (h : Settles w x) : x.links = w.links := links_congr (by rw [h.only]) h.spilled

/-- Entries that are no links leave the stack. -/
theorem settles_filter (w : Warp) (p : StackEntry → Bool) (hp : ∀ l, p (.link l) = true) :
    Settles w { w with stack := w.stack.filter p } := by
  refine ⟨rfl, fun b q h => by cases b <;> exact h, ?_⟩
  unfold Warp.spilled
  rw [List.filterMap_filter]
  congr 1
  funext e
  cases e <;> simp [hp]

theorem settles_setTs (w : Warp) (k : Nat) (t : TrapSet) : Settles w (w.setTs k t) := by
  unfold Warp.setTs
  split <;> exact ⟨rfl, fun b q h => by cases b <;> exact h, rfl⟩

theorem settles_placeSplit (w : Warp) (sp : Split) (cycle : Nat) : Settles w (w.placeSplit sp cycle) := by
  unfold Warp.placeSplit
  dsimp only
  split
  case h_1 ha =>
    refine ⟨rfl, fun b q h => ?_, rfl⟩
    cases b with
    | false => exact absurd (ha.symm.trans h) (by simp)
    | true => exact h
  case h_2 =>
    refine ⟨rfl, fun b q h => ?_, rfl⟩
    cases b with
    | false => exact h
    | true => exact absurd ((‹w.slotB = none›).symm.trans h) (by simp)
  case h_3 =>
    refine ⟨rfl, fun b q h => by cases b <;> exact h, ?_⟩
    exact (spilled_append w _).trans (by rw [show [StackEntry.ready { sp with entered := cycle }] =
      [{ sp with entered := cycle }].map .ready from rfl, spilled_ready, List.append_nil])

theorem spilled_dropFirstReady (w : Warp) (st : List StackEntry) :
    ({ w with stack := dropFirstReady st } : Warp).spilled = ({ w with stack := st } : Warp).spilled := by
  unfold Warp.spilled
  induction st with
  | nil => rfl
  | cons e t ih =>
    cases e with
    | ready x => rfl
    | waiting x | join x | link x => simp only [dropFirstReady, List.filterMap_cons, ih]

theorem settles_rotateIn (w : Warp) (b : Bool) (cycle : Nat) : Settles w (w.rotateIn b cycle) := by
  cases hs : w.slot? b with
  | some sp =>
    unfold Warp.rotateIn
    rw [hs]
    exact .refl w
  | none =>
    obtain ⟨-, hother, hstack, hrets, honly⟩ := rotateIn_empty cycle hs
    refine ⟨?_, fun c q h => ?_, ?_⟩
    · unfold Warp.rotateIn
      rw [hs]
      cases w.oldestReady with
      | none => rfl
      | some sp => cases b <;> rfl
    · have hc : c = !b := by
        rcases Bool.eq_or_eq_not c b with hcb | hcb
        · rw [hcb, hs] at h; cases h
        · exact hcb
      rw [hc] at h ⊢
      rw [hother, h]
    · refine Eq.trans ?_ (spilled_dropFirstReady w w.stack)
      unfold Warp.spilled
      rw [hstack]

theorem settles_settleJoins (w : Warp) (cycle : Nat) : Settles w (w.settleJoins cycle) := by
  unfold Warp.settleJoins
  generalize (w.stack.filterMap fun e => match e with | .join r => some r | _ => none) = l
  have hdrop (x : Warp) (id : Nat) : Settles x (x.dropJoin id) := settles_filter x _ fun _ => rfl
  induction l generalizing w with
  | nil => exact .refl w
  | cons r t ih =>
    refine Settles.trans ?_ (ih _)
    dsimp only
    split
    · exact hdrop w r.id
    · split
      · exact (hdrop w r.id).trans (settles_placeSplit ..)
      · exact .refl w

theorem settles_endHandler (w : Warp) (k : Nat) (skip : Option (SigKind × BitVec 10)) (cycle serial draws : Nat) :
    Settles w (w.endHandler k skip cycle serial draws).1 :=
  (settles_filter w _ fun _ => rfl).trans (settles_setTs _ k TrapSet.free)

theorem settles_settleHandler (w : Warp) (k cycle serial draws : Nat) : Settles w (w.settleHandler k cycle serial draws) := by
  have h := settles_endHandler w k (w.skipOf k) cycle serial draws
  unfold Warp.settleHandler
  split
  · split <;> rename_i he <;> rw [he] at h
    · exact h.trans (settles_placeSplit ..)
    · exact h
  · exact .refl w

theorem settles_fillSlots (w : Warp) (cycle : Nat) : Settles w (w.fillSlots cycle) :=
  (settles_rotateIn w false cycle).trans (settles_rotateIn _ true cycle)

theorem settles_settle (w : Warp) (cycle serial draws : Nat) : Settles w (w.settle cycle serial draws) :=
  (settles_settleJoins w cycle).trans <| (settles_settleHandler ..).trans <| (settles_settleHandler ..).trans <|
    settles_fillSlots ..

/-- A warp with nothing on its stack and no handler is settled. -/
theorem settle_of_bare {w : Warp} (hst : w.stack = []) (h0 : w.ts0.inUse = false) (h1 : w.ts1.inUse = false)
    (cycle serial draws : Nat) : w.settle cycle serial draws = w := by
  have hjoins : w.settleJoins cycle = w := by
    unfold Warp.settleJoins
    rw [hst]
    rfl
  have hhandler (k : Nat) : w.settleHandler k cycle serial draws = w := by
    refine if_neg ?_
    have : (w.ts k).inUse = false := by unfold Warp.ts; split <;> assumption
    simp [this]
  have hrot (b : Bool) : w.rotateIn b cycle = w := by
    have : w.oldestReady = none := by unfold Warp.oldestReady; rw [hst]; rfl
    unfold Warp.rotateIn
    rw [this]
    cases w.slot? b <;> rfl
  unfold Warp.settle Warp.fillSlots
  rw [hjoins, hhandler, hhandler, hrot, hrot]

/-! ## Lanes that leave a warp -/

/-- No link is left to lanes that have ended (R173). -/
theorem leaveLinks_keeps (w : Warp) (m : LaneMask) :
    SplitsOnly w (w.leaveLinks m) ∧ (w.leaveLinks m).nextJoin = w.nextJoin ∧
      (∀ b, (w.leaveLinks m).slot? b = w.slot? b) ∧ ∀ l ∈ (w.leaveLinks m).links, l.mask &&& m = 0#32 := by
  obtain ⟨x, hx, hsame, hnext, hslot, hleft⟩ : ∃ x : Warp, w.leaveLinks m = Warp.refillRets 8 x ∧ SplitsOnly w x ∧
      x.nextJoin = w.nextJoin ∧ (∀ b, x.slot? b = w.slot? b) ∧ ∀ l ∈ x.rets ++ x.spilled, l.mask &&& m = 0#32 := by
    refine ⟨_, rfl, rfl, rfl, fun b => by cases b <;> rfl, fun l hl => ?_⟩
    have htrim (l' : Link) (h : (if l'.mask &&& ~~~m = 0#32 then none else some { l' with mask := l'.mask &&& ~~~m }) = some l) :
        l.mask &&& m = 0#32 := by
      split at h
      · cases h
      · cases h
        exact mask_ext fun i hi => by simp [BitVec.and_assoc]
    rcases List.mem_append.mp hl with hl | hl
    · obtain ⟨l', -, h⟩ := List.mem_filterMap.mp hl
      exact htrim l' h
    · obtain ⟨e, -, he⟩ := List.mem_filterMap.mp (mem_spilled.mp hl)
      cases e with
      | link l' =>
        obtain ⟨k, hk, hkl⟩ := Option.map_eq_some_iff.mp he
        cases hkl
        exact htrim l' hk
      | ready x | waiting x | join x => cases he
  obtain ⟨h1, h2, -, h4, h5⟩ := refillRets_keeps 8 x
  rw [hx]
  exact ⟨hsame.trans h1, h4.trans hnext, fun b => (h5 b).trans (hslot b),
    fun l hl => hleft l ((h2.trans (links_perm _)).mem_iff.mp hl)⟩

/-- A warp without some lanes: its slots are trimmed, and no link of theirs is left. -/
theorem dropLanes_keeps (w : Warp) (m : LaneMask) :
    w.dropLanes m = { w with
        alive := w.alive &&& ~~~m, slotA := (w.dropLanes m).slotA, slotB := (w.dropLanes m).slotB
        stack := (w.dropLanes m).stack, rets := (w.dropLanes m).rets } ∧
      (∀ b, (w.dropLanes m).slot? b = (w.slot? b).bind (trimSplit m)) ∧
      (∀ l ∈ (w.dropLanes m).links, l.mask &&& m = 0#32) := by
  unfold Warp.dropLanes
  extract_lets stack
  obtain ⟨h1, h2, h3, h4⟩ := leaveLinks_keeps { w with
    alive := w.alive &&& ~~~ m
    slotA := w.slotA.bind (trimSplit m)
    slotB := w.slotB.bind (trimSplit m)
    stack := stack } m
  refine ⟨?_, fun b => (h3 b).trans (by cases b <;> rfl), h4⟩
  unfold SplitsOnly at h1
  rw [h2] at h1
  exact h1

/-- A warp whose stack is empty and whose links are held alone has no split but those in its slots. -/
theorem dropLanes_nil {w : Warp} (m : LaneMask) (hst : w.stack = []) : (w.dropLanes m).stack = [] := by
  unfold Warp.dropLanes Warp.leaveLinks
  rw [hst]
  unfold Warp.refillRets
  rfl

/-- Dropped items change ladders alone (R296). -/
theorem dropItems_keeps (s : State) (w : Warp) (m : LaneMask) : ∃ l, dropItems s w m = { s with ladders := l } := by
  unfold dropItems
  split
  · exact ⟨s.ladders, rfl⟩
  · have hitem (x : State) (home lnum ix : Nat) (st : ItemState) (hx : ∃ l, x = { s with ladders := l }) :
        ∃ l, setItem x home lnum ix st = { s with ladders := l } := by
      obtain ⟨l, rfl⟩ := hx
      unfold setItem
      extract_lets key
      split
      · exact ⟨l, rfl⟩
      · exact ⟨_, rfl⟩
    refine List.foldlRecOn _ _ (motive := fun x : State => ∃ l, x = { s with ladders := l }) ⟨s.ladders, rfl⟩ fun x hx i _ => ?_
    split
    · split
      · exact hitem x _ _ _ _ hx
      · exact hx
    · exact hx

/-! ## The end of a warp -/

theorem closeFragment_keeps (s : State) :
    (closeFragment s s.warp.id).warp = { s.warp with frag := none } ∧ (closeFragment s s.warp.id).mapped = s.mapped := by
  unfold closeFragment modWarpId
  extract_lets closed s1
  rw [if_pos (show s1.warp.id = s.warp.id from rfl)]
  exact ⟨rfl, rfl⟩

/-- Released granules leave the warps; where none was mapped memory stays (R185). -/
theorem releaseGrans_keeps (s : State) (sel : MapGran → Bool) :
    (releaseGrans s sel).warp = s.warp ∧ (s.mapped = [] → (releaseGrans s sel).mem = s.mem) := by
  unfold releaseGrans
  extract_lets gone s1
  refine ⟨?_, fun h => ?_⟩
  · refine List.foldlRecOn _ _ (motive := fun x : State => x.warp = s.warp) rfl fun x hx g _ => ?_
    extract_lets inG dirty s2
    show s2.warp = _
    refine List.foldlRecOn _ _ (motive := fun x : State => x.warp = s.warp) hx fun x hx l _ => ?_
    extract_lets off src dst bad s3
    obtain ⟨m, h, e, d, p, c, hw, -⟩ := writeBytes_keeps x (PathView.start 0 0) rfl .g 0 dst (src.map (memGet x.mem)) false
    have h3 : s3.warp = s.warp := by
      show (writeBytes ..).warp = _
      rw [hw]
      exact hx
    refine List.foldlRecOn _ _ (motive := fun x : State => x.warp = s.warp) h3 fun x hx k _ => ?_
    unfold poisonWord
    split <;> exact hx
  · have : gone = [] := by simp [gone, h]
    rw [this]
    rfl

theorem endTeamIfDone_keeps (s : State) (w : Warp) :
    (endTeamIfDone s w).warp = s.warp ∧ (s.mapped = [] → (endTeamIfDone s w).mem = s.mem) := by
  unfold endTeamIfDone
  split
  · exact ⟨rfl, fun _ => rfl⟩
  · exact releaseGrans_keeps s _

theorem endClusterIfDone_warp (s : State) (w : Warp) : (endClusterIfDone s w).warp = s.warp := by
  unfold endClusterIfDone
  split <;> rfl

theorem addLine_keeps (s : State) (w : Warp) (status code : BitVec 8) (pc : DWord) :
    (addLine s w status code pc).warp = s.warp ∧ (addLine s w status code pc).mapped = s.mapped := by
  unfold addLine
  split <;> exact ⟨rfl, rfl⟩

/-- The issuing warp ends with its status and code; where nothing is mapped no byte changes. -/
theorem endWarp_issuing (s : State) (status code : BitVec 8) (pc : DWord) (hend : s.warp.ended = none) :
    (endWarp s s.warp.id status code pc).warp.ended = some (status, code) ∧
      (endWarp s s.warp.id status code pc).warp.rg = s.warp.rg ∧
      (s.mapped = [] → SameMemory s (endWarp s s.warp.id status code pc)) := by
  obtain ⟨hw, hm⟩ := closeFragment_keeps s
  have hmem := closeFragment_mem s s.warp.id
  obtain ⟨x, y, hx, hend', hrg, hmap⟩ : ∃ x y, endWarp s s.warp.id status code pc =
      endClusterIfDone (endTeamIfDone (addLine x y status code pc) y) y ∧ x.warp.ended = some (status, code) ∧
        x.warp.rg = s.warp.rg ∧ x.mapped = s.mapped ∧ x.mem = s.mem := by
    unfold endWarp
    rw [show warpById s s.warp.id = some s.warp from if_pos rfl]
    dsimp only
    rw [if_neg (by simp [hend])]
    obtain ⟨l, hl⟩ := dropItems_keeps (closeFragment s s.warp.id) s.warp s.warp.alive
    obtain ⟨l, hl⟩ : ∃ l, (if status = 0#8 then closeFragment s s.warp.id
        else dropItems (closeFragment s s.warp.id) s.warp s.warp.alive) = { closeFragment s s.warp.id with ladders := l } := by
      split
      · exact ⟨(closeFragment s s.warp.id).ladders, rfl⟩
      · exact ⟨l, hl⟩
    rw [hl]
    refine ⟨_, _, rfl, ?_, ?_, ?_, ?_⟩
    · unfold modWarpId
      rw [if_pos (by show (closeFragment s s.warp.id).warp.id = _; rw [hw])]
    · unfold modWarpId
      rw [if_pos (by show (closeFragment s s.warp.id).warp.id = _; rw [hw])]
      show (closeFragment s s.warp.id).warp.rg = _
      rw [hw]
    · unfold modWarpId
      split <;> exact hm
    · exact (modWarpId_mem ..).trans hmem
  obtain ⟨a1, a2⟩ := addLine_keeps x y status code pc
  obtain ⟨t1, t2⟩ := endTeamIfDone_keeps (addLine x y status code pc) y
  rw [hx, endClusterIfDone_warp, t1, a1]
  refine ⟨hend', hrg, fun h k => ?_⟩
  rw [endClusterIfDone_mem, t2 (a2.trans (hmap.1.trans h)), addLine_mem, hmap.2]

/-- Where a split is left the warp goes on (R16). -/
theorem endIfNoSplit_left {s : State} (pc : DWord) (h : ∃ b q, s.warp.slot? b = some q) : endIfNoSplit s pc = s := by
  obtain ⟨b, q, hq⟩ := h
  have hne : s.warp.splits ≠ [] := List.ne_nil_of_mem ((mem_splits (b := b)).mpr (.inl hq))
  refine if_neg ?_
  simp [hne]

/-! ## EXIT (R177) -/

/-- The split that an EXIT leaves before its lanes are taken out. -/
def exitSplit (s : State) (f : LaneForm) (w : Strip) (sp : Split) : Split :=
  { (cxOf s f w sp).side sp.join (sp.pc + 12#64, sp.mask) with
    sig := (cxOf s f w sp).seed (sp.mask &&& ~~~takingPart s.warp sp f w), entered := sp.entered }

/-- An EXIT that counts stands before the lanes end. -/
def exiting (s : State) (f : LaneForm) (w : Strip) (sp : Split) : State :=
  bumpRetired (s.setSplit (some (exitSplit s f w sp))) (cxOf s f w sp)

theorem groupRetired_single {s : State} (cx : Cx) (h : s.warp.rg = none) : groupRetired s cx = s := if_pos (by rw [h]; rfl)

/-- The warp after lanes have ended. -/
def Warp.without (w : Warp) (m : LaneMask) (cycle serial draws : Nat) : Warp := ((w.loseItems m).dropLanes m).settle cycle serial draws

theorem exitLanes_eq (s : State) (m : LaneMask) (pc : DWord) :
    ∃ l, exitLanes s m pc = endIfNoSplit { s with ladders := l, warp := s.warp.without m s.cycle s.serial s.draws } pc := by
  obtain ⟨l, hl⟩ := dropItems_keeps s s.warp m
  exact ⟨l, by unfold exitLanes; rw [hl]; rfl⟩

/-- The warp of an EXIT once its lanes are out: they have left its slots and links, and its words and counts stand. -/
theorem exit_dropped (s : State) (f : LaneForm) (w : Strip) (sp : Split) (P : LaneMask) {y : Warp}
    (hy : ((exiting s f w sp).warp.loseItems P).dropLanes P = y) :
    y = { s.warp with
        alive := s.warp.alive &&& ~~~P, slotA := y.slotA, slotB := y.slotB, stack := y.stack, rets := y.rets
        items := y.items, retired := y.retired, watch := y.watch, parked := y.parked } ∧
      y.slot? s.slotB = trimSplit P (exitSplit s f w sp) ∧
      y.slot? (!s.slotB) = (s.warp.slot? (!s.slotB)).bind (trimSplit P) ∧
      (s.warp.stack = [] → y.stack = []) ∧ ∀ k, P.has k = true → y.linkOf k = none := by
  obtain ⟨d1, d2, d3⟩ := dropLanes_keeps ((exiting s f w sp).warp.loseItems P) P
  have hW : ∃ i r g p, ((exiting s f w sp).warp.loseItems P) =
      { s.warp.setSlot s.slotB (some (exitSplit s f w sp)) with items := i, retired := r, watch := g, parked := p } :=
    ⟨_, _, _, _, rfl⟩
  obtain ⟨i, r, g, p, hW⟩ := hW
  rw [hW] at hy d1 d2 d3
  have hnil : s.warp.stack = [] → y.stack = [] := fun hst => by
    rw [← hy]
    exact dropLanes_nil P (by cases s.slotB <;> exact hst)
  rw [hy] at d1 d2 d3
  refine ⟨d1.trans (by cases s.slotB <;> exact d1 ▸ rfl), ?_, ?_, hnil, fun k hk => ?_⟩
  · rw [d2]
    cases s.slotB <;> rfl
  · rw [d2]
    cases s.slotB <;> rfl
  · unfold Warp.linkOf
    rw [Option.map_eq_none_iff, List.find?_eq_none]
    intro l' hl' hkl
    have := congrArg (fun m : LaneMask => m.has k) (d3 l' hl')
    simp [and_has, hk, hkl] at this

section
variable {w : Strip} {f : LaneForm} {sp : Split} {s : State} (h : LaneReady (.exit w) f w sp s) (hp : s.warp.pending = [])
include h hp

theorem exit_runs : exec (.exit w) s =
    .next (groupRetired (exitLanes (exiting s f w sp) (takingPart s.warp sp f w) sp.pc) (cxOf s f w sp)) := by
  have hb : Bare f w := by
    have hf := h.form
    simp only [laneForm, Form.control, Option.some.injEq, Prod.mk.injEq, and_true] at hf
    subst hf
    exact bare_of rfl rfl rfl rfl
  refine (bareWord_body (b := fun _ => 0#32) h hb rfl).trans ?_
  show Host.Outcome.next (finish _ _ (if (!s.warp.pending.isEmpty) = true then _ else _)) = _
  rw [hp]
  rfl

/-- Lanes that do not take part go on at NEXT. -/
theorem exit_goesOn {P : LaneMask} (hP : takingPart s.warp sp f w = P) (hleft : sp.mask &&& ~~~P ≠ 0#32) :
    ∃ t q, exec (.exit w) s = .next t ∧ t.split? = some q ∧ q.pc = sp.pc + 12#64 ∧ q.mask = sp.mask &&& ~~~P ∧
      t.warp.alive = s.warp.alive &&& ~~~P ∧ t.warp.regs = s.warp.regs ∧ t.warp.ended = s.warp.ended ∧
      (∀ k, P.has k = true → t.warp.linkOf k = none) ∧ t.warp.preds = s.warp.preds ∧ t.warp.fq = s.warp.fq ∧
      t.warp.s = s.warp.s ∧ t.others = s.others ∧ SameMemory s t := by
  have hrun := exit_runs h hp
  obtain ⟨l, hl⟩ := exitLanes_eq (exiting s f w sp) P sp.pc
  unfold Warp.without at hl
  obtain ⟨y, hy⟩ : ∃ y, ((exiting s f w sp).warp.loseItems P).dropLanes P = y := ⟨_, rfl⟩
  obtain ⟨hyw, hyslot, -, -, hylink⟩ := exit_dropped s f w sp P hy
  rw [hy] at hl
  have hset := settles_settle y (exiting s f w sp).cycle (exiting s f w sp).serial (exiting s f w sp).draws
  generalize y.settle (exiting s f w sp).cycle (exiting s f w sp).serial (exiting s f w sp).draws = x at *
  have hslot : x.slot? s.slotB = some { exitSplit s f w sp with mask := sp.mask &&& ~~~P } :=
    hset.slot _ _ (hyslot.trans (if_neg hleft))
  have hrg : x.rg = none := (congrArg Warp.rg hset.only).trans ((congrArg Warp.rg hyw).trans h.single)
  rw [hP, hl, endIfNoSplit_left sp.pc ⟨s.slotB, _, hslot⟩, groupRetired_single _ hrg] at hrun
  refine ⟨_, _, hrun, hslot, rfl, rfl, (congrArg Warp.alive hset.only :).trans (congrArg Warp.alive hyw :),
    (congrArg Warp.regs hset.only :).trans (congrArg Warp.regs hyw :), (congrArg Warp.ended hset.only :).trans (congrArg Warp.ended hyw :),
    fun k hk => ?_, (congrArg Warp.preds hset.only :).trans (congrArg Warp.preds hyw :),
    (congrArg Warp.fq hset.only :).trans (congrArg Warp.fq hyw :), (congrArg Warp.s hset.only :).trans (congrArg Warp.s hyw :), rfl, fun _ => rfl⟩
  refine Eq.trans ?_ (hylink k hk)
  unfold Warp.linkOf
  rw [← hset.links]

/-- Where no split is left the warp ends normally. -/
theorem exit_ends {P : LaneMask} (hP : takingPart s.warp sp f w = P) (hleft : sp.mask &&& ~~~P = 0#32)
    (hst : s.warp.stack = []) (hother : s.warp.slot? (!s.slotB) = none) (h0 : s.warp.ts0.inUse = false)
    (h1 : s.warp.ts1.inUse = false) (hls : s.warp.lstarted = true) (hend : s.warp.ended = none) :
    ∃ t, exec (.exit w) s = .next t ∧ t.warp.ended = some (0#8, 0#8) ∧ (s.mapped = [] → SameMemory s t) := by
  have hrun := exit_runs h hp
  obtain ⟨l, hl⟩ := exitLanes_eq (exiting s f w sp) P sp.pc
  unfold Warp.without at hl
  obtain ⟨y, hy⟩ : ∃ y, ((exiting s f w sp).warp.loseItems P).dropLanes P = y := ⟨_, rfl⟩
  obtain ⟨hyw, hyslot, hyother, hynil, -⟩ := exit_dropped s f w sp P hy
  have hend' : y.ended = none := (congrArg Warp.ended hyw).trans hend
  rw [hy, settle_of_bare (hynil hst) ((congrArg (·.ts0.inUse) hyw).trans h0) ((congrArg (·.ts1.inUse) hyw).trans h1)] at hl
  obtain ⟨e1, e2, e3⟩ := endWarp_issuing { exiting s f w sp with ladders := l, warp := y } 0#8 0#8 sp.pc hend'
  have hsplits : y.splits = [] := by
    have hslots : y.slotA = none ∧ y.slotB = none := by
      rw [hother] at hyother
      rw [show trimSplit P (exitSplit s f w sp) = none from if_pos hleft] at hyslot
      cases hB : s.slotB <;> rw [hB] at hyother hyslot
      · exact ⟨hyslot, hyother⟩
      · exact ⟨hyother, hyslot⟩
    unfold Warp.splits
    rw [hslots.1, hslots.2, hynil hst]
    rfl
  have hrg : y.rg = none := (congrArg Warp.rg hyw).trans h.single
  have hnormal : endIfNoSplit { exiting s f w sp with ladders := l, warp := y } sp.pc =
      endWarp { exiting s f w sp with ladders := l, warp := y } y.id 0#8 0#8 sp.pc := by
    unfold endIfNoSplit endNormal
    show (if (y.lstarted && y.splits.isEmpty && y.ended.isNone) = true then _ else _) = _
    rw [show y.lstarted = true from (congrArg Warp.lstarted hyw).trans hls, hsplits, hend']
    show (match y.rg with | none => _ | some g => _) = _
    rw [hrg]
  rw [hP, hl, hnormal, groupRetired_single _ (e2.trans hrg)] at hrun
  exact ⟨_, hrun, e1, e3⟩

end

theorem splitControl : Clause.SplitControl :=
  ⟨fun _ _ _ _ h => entry_ready h, fun _ _ _ _ _ h => tramp_ready h, fun _ _ _ _ h hlen => yield_ready h hlen,
    fun _ _ _ _ h hp => ⟨fun hleft => exit_goesOn h hp rfl hleft,
      fun hleft hst ho h0 h1 hls hend => exit_ends h hp rfl hleft hst ho h0 h1 hls hend⟩⟩

/-- Settles O17: ENTRY, TRAMP and LMARK retire as words that write nothing, YIELD exchanges its split for the oldest ready
one, and an EXIT's split stands in its slot through all that the end of its lanes settles, or the warp ends. -/
theorem splitWords : Obligations.SplitWords := ⟨splitControl, laneMark⟩

end Sys2Proof.Machine
end

section
/-! PROOFS. TRET (R27, R228): splits of a handler that wait for each other, and the return. -/

namespace Sys2Proof.Machine

/-! ## Words that an own check refuses, and words that name no register -/

/-- An ill-formed word, or one that its own condition refuses, traps ILLEGAL for its whole split (R63, R69). -/
theorem laneWord_illegal {i : Instr} {o : LaneOpts} {f : LaneForm} {w : Strip} {sp : Split} {s : State} {body : Cx → LaneRes}
    (hsplit : s.split? = some sp) (hform : laneForm i = some (f, w)) (hrg : s.warp.rg = none)
    (hill : formLegal f w = false ∨ o.illegal s sp w = true) :
    laneWord i o body s = .next (takeTrap s (wholeTrap Code.illegal sp.mask)) := by
  unfold laneWord
  rw [mailOpts_single hrg]
  unfold laneIssue
  rw [hsplit, hform]
  dsimp only
  rw [if_pos (by rcases hill with h | h <;> simp [h])]

/-- A legal word without source operands marks none as last read (R69). -/
theorem releasedRegs_bare {f : LaneForm} {w : Strip} (hl : formLegal f w = true) (ho : f.overlay = false)
    (ha : f.a.used = false) (hb : f.b.used = false) (hc : f.c.used = false) (l : List Nat) : releasedRegs f w l = [] := by
  have hunused {g : SrcForm} {x : SrcField} {lr : Bool} (hg : g.used = false) (h : srcLegal g x lr = true) : lr = false := by
    unfold srcLegal at h
    rw [if_neg (by simp [hg])] at h
    simpa using (Bool.and_eq_true_iff.mp h).2
  unfold formLegal at hl
  simp only [ho, Bool.false_and, Bool.false_or, Bool.false_eq_true, if_false, Bool.and_eq_true] at hl
  obtain ⟨⟨⟨⟨⟨-, hbc⟩, hsa⟩, -⟩, -⟩, -⟩ := hl
  have h2 := hunused ha hsa
  have h0 := hunused hc hbc.2
  have h1 : w.lr.getLsbD 1 = false := by
    have := hbc.1
    split at this
    · simpa using this
    · exact hunused hb this
  unfold releasedRegs
  dsimp only
  rw [h0, h1, h2, ho]
  simp

/-- Of a warp its slots, its divergence stack and its trap sets have changed at most. -/
def SetsOnly (w x : Warp) : Prop :=
  x = { w with slotA := x.slotA, slotB := x.slotB, stack := x.stack, ts0 := x.ts0, ts1 := x.ts1 }

theorem SetsOnly.trans {w x y : Warp} (h : SetsOnly w x) (k : SetsOnly x y) : SetsOnly w y := by
  unfold SetsOnly at *
  rw [k, h]

/-- A word that moved splits alone and names no register retires with nothing outstanding: its counts move on. -/
theorem retireMoved_sets {cx : Cx} {s : State} {x : Warp} (hrg : s.warp.rg = none) (hp : s.warp.pending = [])
    (hq : namedQueues cx.f cx.w = []) (hrel : releasedRegs cx.f cx.w [] = []) (hx : SetsOnly s.warp x) :
    ∃ c g, retireMoved cx { s with warp := x } =
      { s with warp := { x with retired := s.warp.retired + 1, watch := s.cycle }, cores := c, filters := g } := by
  obtain ⟨h1, h2, h3⟩ : x.rg = none ∧ x.pending = [] ∧ x.retired = s.warp.retired := by
    rw [hx]
    exact ⟨hrg, hp, rfl⟩
  obtain ⟨g, hg, -⟩ := noteStatus_keeps { s with warp := x } cx
  have hparked : (x.parked || (cx.w.sw && !x.pending.isEmpty)) = x.parked := by simp [h2]
  have heq : retireMoved cx { s with warp := x } = bumpRetired { s with warp := x } cx := by
    unfold retireMoved countRetired
    rw [hq, hrel]
    exact groupRetired_single cx h1
  obtain ⟨c, hc⟩ : ∃ c, bumpRetired { s with warp := x } cx = { s with
      warp := { x with retired := x.retired + 1, watch := s.cycle, parked := x.parked || (cx.w.sw && !x.pending.isEmpty) }
      cores := c, filters := g } := by
    unfold bumpRetired
    rw [hg]
    exact ⟨_, rfl⟩
  rw [heq, hc, hparked, h3]
  exact ⟨c, g, rfl⟩

/-! ## Splits of a handler that wait -/

theorem parkSplit_returned (w : Warp) (b : Bool) (sp : Split) (k : Nat) : (w.parkSplit b sp).returned k =
    w.returned k ++ ({ w with stack := [.waiting sp] } : Warp).returned k := by
  unfold Warp.returned Warp.parkSplit
  exact List.filterMap_append

theorem dropFirstReady_returned (w : Warp) (st : List StackEntry) (k : Nat) :
    ({ w with stack := dropFirstReady st } : Warp).returned k = ({ w with stack := st } : Warp).returned k := by
  induction st with
  | nil => rfl
  | cons e t ih =>
    unfold Warp.returned at *
    cases e with
    | ready x => rfl
    | waiting x | join x | link x => simp only [dropFirstReady, List.filterMap_cons, ih]

/-- A split brought into a slot leaves what waits and the trap sets. -/
theorem rotateIn_keeps (w : Warp) (b : Bool) (cycle k : Nat) :
    (w.rotateIn b cycle).returned k = w.returned k ∧ (w.rotateIn b cycle).ts k = w.ts k ∧ SetsOnly w (w.rotateIn b cycle) := by
  cases hs : w.slot? b with
  | some sp =>
    have : w.rotateIn b cycle = w := by unfold Warp.rotateIn; rw [hs]
    rw [this]
    exact ⟨rfl, rfl, rfl⟩
  | none =>
    obtain ⟨-, -, hstack, -, honly⟩ := rotateIn_empty cycle hs
    refine ⟨Eq.trans ?_ (dropFirstReady_returned w w.stack k), ?_, (settles_rotateIn w b cycle).only⟩
    · unfold Warp.returned
      rw [hstack]
    · unfold Warp.ts
      rw [honly]

theorem fillSlots_keeps (w : Warp) (cycle k : Nat) :
    (w.fillSlots cycle).returned k = w.returned k ∧ (w.fillSlots cycle).ts k = w.ts k ∧ SetsOnly w (w.fillSlots cycle) := by
  obtain ⟨a1, a2, a3⟩ := rotateIn_keeps w false cycle k
  obtain ⟨b1, b2, b3⟩ := rotateIn_keeps (w.rotateIn false cycle) true cycle k
  exact ⟨b1.trans a1, b2.trans a2, a3.trans b3⟩

/-! ## The return -/

theorem ts_setTs (w : Warp) (k : Nat) (t : TrapSet) : (w.setTs k t).ts k = t := by
  unfold Warp.setTs Warp.ts
  split <;> rfl

theorem ts_setTs_other (w : Warp) {k : Nat} (hk : k < 2) (t : TrapSet) : (w.setTs k t).ts (1 - k) = w.ts (1 - k) := by
  obtain rfl | rfl : k = 0 ∨ k = 1 := by omega
  all_goals rfl

section
variable (w : Warp) (k : Nat) (skip : Option (SigKind × BitVec 10)) (cycle serial draws : Nat)

/-- The handler's set is free, and none of its splits waits. -/
theorem endHandler_warp {x : Warp} (hx : (w.endHandler k skip cycle serial draws).1 = x) :
    x.ts k = TrapSet.free ∧ x.returned k = [] ∧ (k < 2 → x.ts (1 - k) = w.ts (1 - k)) ∧ SetsOnly w x := by
  subst hx
  refine ⟨ts_setTs .., ?_, fun hk => ts_setTs_other _ hk _, (settles_endHandler w k skip cycle serial draws).only⟩
  have hst : (w.endHandler k skip cycle serial draws).1.stack = w.stack.filter fun e => match e with
      | .waiting sp => !(inHandler k sp && (match sp.wait with | .tret _ => true | _ => false))
      | _ => true := by
    unfold Warp.endHandler Warp.setTs
    dsimp only
    split <;> rfl
  unfold Warp.returned
  rw [hst]
  refine List.filterMap_eq_nil_iff.mpr fun e he => ?_
  have hk := (List.mem_filter.mp he).2
  cases e with
  | waiting x =>
    cases hw : x.wait <;> simp [hw, inHandler] at hk ⊢
    exact hk
  | ready | join | link => rfl

/-- The split that leaves the handler (R228). -/
theorem endHandler_split (hM : (w.ts k).tmask &&& w.alive ≠ 0#32) :
    ∃ q, (w.endHandler k skip cycle serial draws).2 = some q ∧ q.id = (w.ts k).id ∧ q.mask = (w.ts k).tmask &&& w.alive ∧
      q.ts = none ∧ q.join = (w.ts k).join ∧ q.wait = .none ∧
      (skip.isSome = true → q.pc = (w.ts k).tpc + 12#64 ∧ q.only = none) ∧
      (skip = none → q.sig = (w.ts k).sig ∧
        q.pc = (if (w.ts k).replay ≠ 0#32 ∧ (w.ts k).replay &&& w.alive = 0#32 then (w.ts k).tpc + 12#64 else (w.ts k).tpc) ∧
        q.only = (if (w.ts k).replay &&& w.alive = 0#32 then none else some ((w.ts k).replay &&& w.alive))) := by
  have hres : ∃ view q, (w.endHandler k skip cycle serial draws).2 = (resumeSplit w (w.ts k) draws skip.isSome view serial).map q ∧
      ∀ sp, ∃ sig, q sp = { sp with entered := cycle, sig := sig } ∧ (skip = none → sig = sp.sig) := by
    refine ⟨_, _, rfl, fun sp => ⟨_, rfl, fun h => ?_⟩⟩
    rw [h]
  obtain ⟨view, q, hq, hsig⟩ := hres
  have hr : ∃ r, resumeSplit w (w.ts k) draws skip.isSome view serial = some r := by
    unfold resumeSplit
    exact ⟨_, if_neg hM⟩
  obtain ⟨r, hr⟩ := hr
  obtain ⟨sig, h1, h2⟩ := hsig r
  rw [hq, hr, Option.map_some, h1]
  unfold resumeSplit at hr
  rw [if_neg hM] at hr
  obtain rfl := Option.some.inj hr
  refine ⟨_, rfl, rfl, rfl, rfl, rfl, rfl, fun h => ?_, fun h => ⟨h2 h, ?_, ?_⟩⟩
  · simp [h]
  · simp [h]
  · by_cases hre : (w.ts k).replay &&& w.alive = 0#32 <;> simp [h, hre]

end

/-! ## TRET issues -/

/-- What a TRET leaves beside its warp's splits and sets. -/
def TretFrame (s t : State) (k : Nat) : Prop :=
  t = { s with
    warp := { s.warp with
      slotA := t.warp.slotA, slotB := t.warp.slotB, stack := t.warp.stack, ts0 := t.warp.ts0, ts1 := t.warp.ts1
      retired := s.warp.retired + 1, watch := s.cycle }
    cores := t.cores, filters := t.filters } ∧
  t.warp.ts (1 - k) = s.warp.ts (1 - k)

/-- The split of a TRET as it waits. -/
def tretSplit (s : State) (sp : Split) (skip : Option (SigKind × BitVec 10)) : Split :=
  { sp with wait := .tret skip, only := none, issued := s.draws }

theorem tretWaits_eq (s : State) (f : LaneForm) (w : Strip) (sp : Split) (skip : Option (SigKind × BitVec 10)) :
    tretWaits (cxOf s f w sp) skip s.warp = s.warp.parkSplit s.slotB (tretSplit s sp skip) := by
  unfold tretWaits Warp.parkSplit
  show ({ s.warp.setSlot s.slotB none with stack := (s.warp.setSlot s.slotB none).stack ++ _ } : Warp) = _
  cases s.slotB <;> rfl

section
variable (s : State) {sp : Split} (skip : Option (SigKind × BitVec 10)) {k : Nat} (hts : sp.ts = some k)
include hts

/-- The split joins those of its handler that have executed TRET. -/
theorem tretSplit_returned : unionMask ((s.warp.parkSplit s.slotB (tretSplit s sp skip)).returned k) =
    sp.mask ||| unionMask (s.warp.returned k) := by
  have : ({ s.warp with stack := [.waiting (tretSplit s sp skip)] } : Warp).returned k = [tretSplit s sp skip] := by
    refine List.filterMap_cons_some (b := tretSplit s sp skip) ?_
    exact if_pos (by show (sp.ts == some k) = true; simp [hts])
  rw [parkSplit_returned, this, unionMask_snoc, BitVec.or_comm]
  rfl

end

theorem parkSplit_sets (w : Warp) (b : Bool) (sp : Split) (k : Nat) :
    (w.parkSplit b sp).ts k = w.ts k ∧ SetsOnly w (w.parkSplit b sp) := by
  unfold Warp.ts
  cases b <;> exact ⟨rfl, rfl⟩

theorem returnDone_iff (s : State) (f : LaneForm) (w : Strip) (sp : Split) (k : Nat) : returnDone (cxOf s f w sp) k = true ↔
    (s.warp.ts k).tlanes &&& s.warp.alive &&& ~~~(sp.mask ||| unionMask (s.warp.returned k)) = 0#32 := by
  show ((s.warp.ts k).tlanes &&& s.warp.alive &&& ~~~(sp.mask ||| unionMask (s.warp.returned k)) == 0#32) = true ↔ _
  exact beq_iff_eq

/-- Entries of the divergence stack after a TRET that waits. -/
theorem tretWaits_length (s : State) (f : LaneForm) (w : Strip) (sp : Split) (cycle : Nat) :
    ((tretWaits (cxOf s f w sp) none s.warp).rotateIn s.slotB cycle).stack.length =
      s.warp.stack.length + 1 - (if s.warp.oldestReady.isSome = true then 1 else 0) := by
  rw [tretWaits_eq]
  obtain ⟨-, -, hst, -⟩ := rotateIn_empty cycle (parkSplit_slot s.warp s.slotB (tretSplit s sp none))
  rw [hst, dropFirstReady_length, parkSplit_oldestReady]
  congr 1
  exact List.length_append

section
variable {w : Strip} {f : LaneForm} {sp : Split} {s : State} (h : LaneReady (.tret w) f w sp s) (hp : s.warp.pending = [])
include h

/-- TRET names no register. -/
theorem tret_bare : Bare f w ∧ releasedRegs f w [] = [] := by
  have hf := h.form
  have hl := h.legal
  simp only [laneForm, Option.some.injEq, Prod.mk.injEq, and_true] at hf
  subst hf
  exact ⟨bare_of rfl rfl rfl rfl, releasedRegs_bare hl rfl rfl rfl rfl []⟩

theorem tret_illegal (hts : sp.ts = none) : exec (.tret w) s = .next (takeTrap s (wholeTrap Code.illegal sp.mask)) :=
  laneWord_illegal h.split h.form h.single (.inr (by simp [hts]))

variable {k : Nat} (hts : sp.ts = some k)
include hts

/-- Where the stack is full and a wait needs an entry TRET traps DIVSTACK (R27, log 16). -/
theorem tret_divstack (hfull : 64 ≤ s.warp.stack.length)
    (hwhy : (s.warp.ts k).tlanes &&& s.warp.alive &&& ~~~(sp.mask ||| unionMask (s.warp.returned k)) = 0#32 ∨
      s.warp.oldestReady = none) :
    exec (.tret w) s = .next (takeTrap s (wholeTrap Code.divstack sp.mask)) := by
  refine laneWord_early h (by simp [hts]) rfl rfl ?_
  show (match sp.ts with | some k => _ | none => _) = _
  rw [hts]
  show waitStack (cxOf s f w sp) (returnDone (cxOf s f w sp) k) ((tretWaits (cxOf s f w sp) none s.warp).rotateIn s.slotB s.cycle) = _
  have hroom : s.warp.stackFull 1 = true := by
    unfold Warp.stackFull Warp.stackUse
    simp only [decide_eq_true_eq]
    omega
  by_cases hdone : returnDone (cxOf s f w sp) k = true
  · exact if_pos (by show (_ && s.warp.stackFull 1) = true; rw [hdone, hroom]; rfl)
  · refine (if_neg (by simp [hdone])).trans ?_
    have hnone : s.warp.oldestReady = none := hwhy.resolve_left fun hd => hdone ((returnDone_iff ..).mpr hd)
    refine if_pos ?_
    unfold Warp.stackUse
    rw [tretWaits_length, hnone]
    simp only [Option.isSome_none, Bool.false_eq_true, if_false]
    omega

include hp

/-- What a TRET asks of the word that trapped. -/
def tretSkip (s : State) (w : Strip) (k : Nat) : Option (SigKind × BitVec 10) :=
  if Form.xb w 0 then some (skippedSig (wordAt s s.warp (s.warp.ts k).tpc)) else none

/-- With room on the stack TRET moves its split and retires. -/
theorem tret_moves (hroom : s.warp.stack.length < 64) {x : Warp} (hx : SetsOnly s.warp x)
    (hother : x.ts (1 - k) = s.warp.ts (1 - k))
    (hbody : (if returnDone (cxOf s f w sp) k
      then finishReturn { s with warp := s.warp.parkSplit s.slotB (tretSplit s sp (tretSkip s w k)) } k (tretSkip s w k)
      else { s with warp := (s.warp.parkSplit s.slotB (tretSplit s sp (tretSkip s w k))).rotateIn s.slotB s.cycle }) =
        { s with warp := x }) :
    ∃ t, exec (.tret w) s = .next t ∧ TretFrame s t k ∧ (∀ b, t.warp.slot? b = x.slot? b) ∧ t.slotB = s.slotB ∧
      t.warp.returned k = x.returned k ∧ t.warp.ts k = x.ts k := by
  obtain ⟨hb, hrel⟩ := tret_bare h
  have hearly : waitStack (cxOf s f w sp) (returnDone (cxOf s f w sp) k)
      ((tretWaits (cxOf s f w sp) none s.warp).rotateIn s.slotB s.cycle) = none := by
    refine (if_neg ?_).trans (if_neg ?_)
    · have : s.warp.stackFull 1 = false := by
        unfold Warp.stackFull Warp.stackUse
        simp only [decide_eq_false_iff_not]
        omega
      show ¬ (_ && s.warp.stackFull 1) = true
      simp [this]
    · unfold Warp.stackUse
      rw [tretWaits_length]
      omega
  obtain ⟨c, g, hr⟩ := retireMoved_sets (cx := cxOf s f w sp) h.single hp hb.queues hrel hx
  have hframe : TretFrame s { s with
      warp := { x with retired := s.warp.retired + 1, watch := s.cycle }, cores := c, filters := g } k := by
    refine ⟨congrArg (fun y : Warp => ({ s with
      warp := { y with retired := s.warp.retired + 1, watch := s.cycle }, cores := c, filters := g } : State)) (show x = _ from hx), ?_⟩
    refine Eq.trans ?_ hother
    unfold Warp.ts; split <;> rfl
  refine ⟨_, ?_, hframe, fun b => by cases b <;> rfl, rfl, rfl, by unfold Warp.ts; split <;> rfl⟩
  rw [← hr, ← hbody]
  show execTret w s = _
  unfold execTret
  refine (laneWord_ready h ?_ (.inr rfl)).trans ?_
  · refine ⟨by simp [hts], rfl, rfl, ?_, hb.clean .., fun _ _ => ⟨rfl, fun _ _ => rfl⟩⟩
    show (match sp.ts with | some k => _ | none => _) = _
    rw [hts]
    exact hearly
  · show Host.Outcome.next (finish _ _ (match sp.ts with | none => _ | some k => _)) = _
    rw [hts]
    show Host.Outcome.next (finish _ _ (if (!s.warp.pending.isEmpty) = true then _ else _)) = _
    rw [hp]
    show Host.Outcome.next (finish _ (cxOf s f w sp) (if returnDone (cxOf s f w sp) k = true then
      .moved (finishReturn { s with warp := tretWaits (cxOf s f w sp) (tretSkip s w k) s.warp } k (tretSkip s w k))
      else .moved { s with warp := (tretWaits (cxOf s f w sp) (tretSkip s w k) s.warp).rotateIn s.slotB s.cycle })) = _
    rw [tretWaits_eq]
    split <;> rfl

/-- Lanes of the handler are left: the split waits, and the oldest ready one takes its slot. -/
theorem tret_waits (hroom : s.warp.stack.length < 64)
    (hleft : (s.warp.ts k).tlanes &&& s.warp.alive &&& ~~~(sp.mask ||| unionMask (s.warp.returned k)) ≠ 0#32) :
    ∃ t, exec (.tret w) s = .next t ∧ TretFrame s t k ∧
      unionMask (t.warp.returned k) = sp.mask ||| unionMask (s.warp.returned k) ∧ t.warp.ts k = s.warp.ts k ∧
      (t.split?).map (·.pc) = s.warp.oldestReady.map (·.pc) := by
  obtain ⟨p1, p2⟩ := parkSplit_sets s.warp s.slotB (tretSplit s sp (tretSkip s w k)) k
  obtain ⟨q1, -⟩ := parkSplit_sets s.warp s.slotB (tretSplit s sp (tretSkip s w k)) (1 - k)
  obtain ⟨r1, r2, r3⟩ := rotateIn_keeps (s.warp.parkSplit s.slotB (tretSplit s sp (tretSkip s w k))) s.slotB s.cycle k
  obtain ⟨-, u2, -⟩ := rotateIn_keeps (s.warp.parkSplit s.slotB (tretSplit s sp (tretSkip s w k))) s.slotB s.cycle (1 - k)
  obtain ⟨t, ht, hframe, hslot, hB, hret, hset⟩ := tret_moves h hp hts hroom (p2.trans r3) (u2.trans q1)
    (if_neg fun hd => hleft ((returnDone_iff ..).mp hd))
  refine ⟨t, ht, hframe, ?_, hset.trans (r2.trans p1), ?_⟩
  · rw [hret, r1, tretSplit_returned s _ hts]
  · show ((t.warp.slot? t.slotB).map _) = _
    rw [hB, hslot, (rotateIn_empty s.cycle (parkSplit_slot ..)).1, parkSplit_oldestReady, Option.map_map]
    rfl

/-- No lane of the handler is left: its set is free, and the trapped split goes on in the slot (R228). -/
theorem tret_returns (hk : k < 2) (hroom : s.warp.stack.length < 64)
    (hnone : (s.warp.ts k).tlanes &&& s.warp.alive &&& ~~~(sp.mask ||| unionMask (s.warp.returned k)) = 0#32)
    (hM : (s.warp.ts k).tmask &&& s.warp.alive ≠ 0#32) :
    let T := s.warp.ts k
    ∃ t q, exec (.tret w) s = .next t ∧ TretFrame s t k ∧ t.split? = some q ∧ q.id = T.id ∧
      q.mask = T.tmask &&& s.warp.alive ∧ q.ts = none ∧ q.join = T.join ∧ q.wait = .none ∧
      t.warp.ts k = TrapSet.free ∧ t.warp.returned k = [] ∧
      ((tretSkip s w k).isSome = true → q.pc = T.tpc + 12#64 ∧ q.only = none) ∧
      (tretSkip s w k = none → q.sig = T.sig ∧
        q.pc = (if T.replay ≠ 0#32 ∧ T.replay &&& s.warp.alive = 0#32 then T.tpc + 12#64 else T.tpc) ∧
        q.only = (if T.replay &&& s.warp.alive = 0#32 then none else some (T.replay &&& s.warp.alive))) := by
  intro T
  obtain ⟨p1, p2⟩ := parkSplit_sets s.warp s.slotB (tretSplit s sp (tretSkip s w k)) k
  obtain ⟨q1, -⟩ := parkSplit_sets s.warp s.slotB (tretSplit s sp (tretSkip s w k)) (1 - k)
  have halive : (s.warp.parkSplit s.slotB (tretSplit s sp (tretSkip s w k))).alive = s.warp.alive := by rw [p2]
  have hM' : ((s.warp.parkSplit s.slotB (tretSplit s sp (tretSkip s w k))).ts k).tmask &&&
      (s.warp.parkSplit s.slotB (tretSplit s sp (tretSkip s w k))).alive ≠ 0#32 := by rw [p1, halive]; exact hM
  obtain ⟨q, hq, hfields⟩ := endHandler_split _ k (tretSkip s w k) s.cycle s.serial s.draws hM'
  rw [p1, halive] at hfields
  obtain ⟨y, hy⟩ : ∃ y, (Warp.endHandler (s.warp.parkSplit s.slotB (tretSplit s sp (tretSkip s w k))) k (tretSkip s w k)
    s.cycle s.serial s.draws).1 = y := ⟨_, rfl⟩
  obtain ⟨e1, e2, e3, e4⟩ := endHandler_warp _ k (tretSkip s w k) s.cycle s.serial s.draws hy
  obtain ⟨f1, f2, f3⟩ := fillSlots_keeps (y.setSlot s.slotB (some q)) s.cycle k
  obtain ⟨-, g2, -⟩ := fillSlots_keeps (y.setSlot s.slotB (some q)) s.cycle (1 - k)
  have hts' (n : Nat) : (y.setSlot s.slotB (some q)).ts n = y.ts n := by unfold Warp.ts; cases s.slotB <;> rfl
  have hslot : ((y.setSlot s.slotB (some q)).fillSlots s.cycle).slot? s.slotB = some q :=
    (settles_fillSlots ..).slot _ _ (slot_setSlot ..)
  have hset : SetsOnly y (y.setSlot s.slotB (some q)) := by cases s.slotB <;> rfl
  obtain ⟨t, ht, hframe, hsl, hB, hret, hset'⟩ := tret_moves h hp hts hroom (x := (y.setSlot s.slotB (some q)).fillSlots s.cycle)
    (p2.trans (e4.trans (hset.trans f3))) ((g2.trans (hts' _)).trans ((e3 hk).trans q1)) <| by
      rw [if_pos ((returnDone_iff ..).mpr hnone)]
      unfold finishReturn
      show endIfNoSplit { s with warp := (Warp.setSlot (Warp.endHandler _ k (tretSkip s w k) s.cycle s.serial s.draws).1 s.slotB
        (Warp.endHandler _ k (tretSkip s w k) s.cycle s.serial s.draws).2).fillSlots s.cycle } _ = _
      rw [hq, hy]
      exact endIfNoSplit_left _ ⟨s.slotB, q, hslot⟩
  refine ⟨t, q, ht, hframe, ?_, ?_⟩
  · show t.warp.slot? t.slotB = _
    rw [hB, hsl, hslot]
  · obtain ⟨i1, i2, i3, i4, i5, i6, i7⟩ := hfields
    refine ⟨i1, i2, i3, i4, i5, hset'.trans (f2.trans ((hts' k).trans e1)), hret.trans (f1.trans (Eq.trans ?_ e2)), i6, i7⟩
    cases s.slotB <;> rfl

end

/-- Settles O51: a TRET parks its split among those of its handler; with the last of them the set is freed and the trapped
split resumed, and in the frame nothing but the warp's splits and sets has moved. -/
theorem handlerReturn : Obligations.HandlerReturn := by
  unfold Obligations.HandlerReturn
  refine fun w f sp s h hp => ⟨tret_illegal h, fun k hts hk => ?_⟩
  intro T back M again frame
  refine ⟨fun hfull hwhy => tret_divstack h hts hfull hwhy, fun hnone hM hroom => ?_, fun hleft hroom => ?_⟩
  · obtain ⟨t, q, ht, hframe, hq, a1, a2, a3, a4, a5, a6, a7, a8, a9⟩ := tret_returns h hp hts hk hroom hnone hM
    refine ⟨t, q, ht, hframe, hq, a1, a2, a3, a4, a5, a6, a7, fun hx => a8 ?_, fun hx => a9 ?_⟩
    · exact congrArg Option.isSome (if_pos hx : tretSkip s w k = _)
    · exact if_neg (by rw [show Form.xb w 0 = w.x.getLsbD 0 from rfl, hx]; exact Bool.false_ne_true)
  · exact tret_waits h hp hts hroom hleft

end Sys2Proof.Machine
end

section
/-! PROOFS. The common checks of a lane word (R19, R20, R36, R63, R69 to R71) and words with an empty P (R147). -/

namespace Sys2Proof.Machine

/-! ## Where the common checks stop a word -/

section
variable {i : Instr} {o : LaneOpts} {f : LaneForm} {w : Strip} {sp : Split} {s : State} {body : Cx → LaneRes}
  (hsplit : s.split? = some sp) (hform : laneForm i = some (f, w)) (hrg : s.warp.rg = none)
  (hlegal : formLegal f w = true) (hown : o.illegal s sp w = false)
include hsplit hform hrg hlegal hown

/-- A register outside the allocation: BUDGET (R71). -/
theorem laneWord_outside (hout : ¬ (Form.readRegs f w ++ Form.dstRegs f w).all (inAlloc s.warp.units) = true) :
    laneWord i o body s =
      .next (takeTrap s (wholeTrap Code.budget (orMask (takingPart s.warp sp f w) sp.mask))) := by
  unfold laneWord
  rw [mailOpts_single hrg]
  unfold laneIssue
  rw [hsplit, hform]
  dsimp only
  rw [Bool.not_eq_true] at hout
  rw [if_neg (by simp [hlegal, hown]), if_pos (by rw [hout]; rfl)]

variable (hin : (Form.readRegs f w ++ Form.dstRegs f w).all (inAlloc s.warp.units) = true)
include hin

/-- An empty queue that the word names, or a full back queue that it pushes: its split waits (R19, R20). -/
theorem laneWord_queue (hwait : ((namedQueues f w).any (fun q => (s.warp.fq.getD q []).isEmpty) ||
    backFull s.warp f w (takingPart s.warp sp f w)) = true) :
    laneWord i o body s = .next (s.setSplit (some { sp with wait := .queue })) := by
  have hslack : atSlack s.warp = false := by simp [atSlack, hrg]
  unfold laneWord
  rw [mailOpts_single hrg]
  unfold laneIssue
  rw [hsplit, hform]
  dsimp only
  rw [if_neg (by simp [hlegal, hown]), if_neg (by simp [hin]), if_neg (by simp [hslack]), if_pos hwait]

/-- A reserved FMT or a tag that is not accepted, where some lane takes part: FORMAT (R36). -/
theorem laneWord_format (hwait : ((namedQueues f w).any (fun q => (s.warp.fq.getD q []).isEmpty) ||
    backFull s.warp f w (takingPart s.warp sp f w)) = false) (hbudget : o.budget (cxOf s f w sp) = 0#32)
    (hp : takingPart s.warp sp f w ≠ 0#32) (htag : 11 ≤ w.fmt.toNat ∨ tagsOk s.draws s.warp f w = false) :
    laneWord i o body s = .next (takeTrap s (wholeTrap Code.format sp.mask)) := by
  have hslack : atSlack s.warp = false := by simp [atSlack, hrg]
  unfold laneWord
  rw [mailOpts_single hrg]
  unfold laneIssue
  rw [hsplit, hform]
  dsimp only
  rw [if_neg (by simp [hlegal, hown]), if_neg (by simp [hin]), if_neg (by simp [hslack]), if_neg (by simp [hwait]),
    if_neg (by rw [show o.budget (readCx s w f sp (takingPart s.warp sp f w)) = 0#32 from hbudget]; simp),
    if_pos (by rcases htag with h | h <;> simp [hp, h])]

end

/-! ## Every lane word meets the common checks -/

/-- A word is issued by the common checks with conditions of its own, of which those before the queues are none unless
its chapter adds some. -/
def MeetsChecks (i : Instr) : Prop :=
  ∃ (o : LaneOpts) (body : Cx → LaneRes), exec i = laneWord i o body ∧
    (¬ AddsChecks i → ∀ s sp w cx, o.illegal s sp w = false ∧ o.budget cx = 0#32)

theorem meetsChecks (i : Instr) {f : LaneForm} {w : Strip} (h : laneForm i = some (f, w)) : MeetsChecks i := by
  unfold MeetsChecks
  cases i with
  | nop | iadd | isub | imul | imulh | imulhn | imad | imin | imax | iminn | imaxn | iabs | ineg | iand | ior | ixor
  | inot | ishl | ishr | isra | irot | iclz | ipopc | ibrev | ibfx | ibfi | idiv | idivn | irem | iremn | icmp | isel
  | movi | mov | laneid | fadd | fsub | fmul | fma | fmin | fmax | fabs | fneg | fcmp | frcp | frsq | fsqrt | fdiv
  | fexp2 | flog2 | frint | twosum | fastsum | fclass | fscale | hadd2 | hmul2 | hfma2 | dot4e | fexpe | cvt | cvtPk
  | cvtUpk | qbx4 | dqbx4 | tag | tagr | shape | shfl | vote | redx | scan | matchLanes | cmpr | elect | alive | bra
  | call | ret | reconv | exit | yield | pset | pmov | lmark | launch | preemptOn | ld | st | ldP | stP | stCl | ldCl
  | ldC | atom | red | cas | fence | fenceX | barInit | barArrive | barExpect | barWait | barTest | xlat | xlatRp
  | prefetch | mxLoadw | mxSwap | mxClear | mxClearRel | mxDrainReg | mxDrainMem | mxStat | cpTile | cpCmd | tmaskAcc
  | tmaskReg | sampArm | specOpen | specCommit | specSquash | specStat | kvStage | kvCommit | ladDoneOpen
  | ladDoneTest | ladItem | sigChk | sigRd | rgCkpt | rgStat | wearRd | trap | tramp =>
    exact ⟨_, _, rfl, fun _ _ _ _ _ => ⟨rfl, rfl⟩⟩
  | movx | movxd | brx | callx | entry | preemptOff | mxStream | fragOpen | fragIn | fragInm | fragClaim | fragOut
  | fragOutWin | fragSeal | fragDrop | fragName | qPush | qPop | qStat | ladEsc | ladRes | csrr | csrw | tret =>
    exact ⟨_, _, rfl, fun hadds => absurd trivial hadds⟩
  | _ => exact absurd h (by simp [laneForm])

/-- What a word waits for before it takes its operands. -/
theorem waits_iff (s : State) (f : LaneForm) (w : Strip) (p : LaneMask) :
    ((namedQueues f w).any (fun q => (s.warp.fq.getD q []).isEmpty) || backFull s.warp f w p) = true ↔
      (∃ q ∈ namedQueues f w, s.warp.fq.getD q [] = []) ∨ backFull s.warp f w p = true := by
  rw [Bool.or_eq_true, List.any_eq_true]
  simp only [List.isEmpty_iff]

theorem laneChecks : Clause.LaneChecks := by
  unfold Clause.LaneChecks
  intro i f w sp s hsplit hform hrg p inside waits
  obtain ⟨o, body, hexec, hnone⟩ := meetsChecks i hform
  rw [hexec]
  refine ⟨fun hill => laneWord_illegal hsplit hform hrg (.inl hill), fun hlegal hadds => ?_⟩
  obtain ⟨hown, hbudget⟩ := hnone hadds s sp w (cxOf s f w sp)
  refine ⟨fun hout => laneWord_outside hsplit hform hrg hlegal hown hout, fun hin hwait => ?_, fun hin hwait hp htag => ?_⟩
  · exact laneWord_queue hsplit hform hrg hlegal hown hin ((waits_iff ..).mpr hwait)
  · exact laneWord_format hsplit hform hrg hlegal hown hin (by rw [← Bool.not_eq_true, waits_iff]; exact hwait) hbudget hp htag

/-! ## Words with an empty P -/

/-- The words of these rows have no condition of their own. -/
theorem rows_plain : ∀ row ∈ integerRows ++ floatRows ++ conversionRows, ∀ w,
    ∃ body, exec (row.1 w) = laneWord (row.1 w) {} body := by
  intro row hrow w
  unfold integerRows floatRows conversionRows at hrow
  fin_cases hrow <;> exact ⟨_, rfl⟩

theorem emptyMask : Clause.EmptyMask := by
  unfold Clause.EmptyMask
  intro row hrow w f sp s h hp
  obtain ⟨body, hexec⟩ := rows_plain row hrow w
  have hclean : Unpoisoned (cxOf s f w sp) := by
    unfold Unpoisoned genericDeaths
    rw [hp]
    exact BitVec.zero_and
  refine ⟨_, ?_, retire_done h [] [] [] none .nil List.nodup_nil (by simp) List.nodup_nil⟩
  rw [hexec]
  unfold laneWord
  rw [mailOpts_single h.single, laneIssue_ready h (optsPass_plain hclean)]
  have hmail : takesMail (row.1 w) (cxOf s f w sp).s = false := takesMail_single h.single
  simp only [hmail, Bool.false_eq_true, if_false]
  exact if_pos (by rw [hp]; rfl)

/-- Settles O55: every lane word is issued by the common checks with conditions of its own, and where those are none the
order of the checks is the order of its branches; a word with an empty P retires without its body. -/
theorem issueChecks : Obligations.IssueChecks := ⟨laneChecks, emptyMask⟩

end Sys2Proof.Machine
end

section
/-! PROOFS. WarpEvents: a result that names a predicate above p7. -/

namespace Sys2Proof.Machine

/-- An outstanding result of the predicate number 8, all lanes true. The model's type admits the number; no word encodes it. -/
def result8 : Pending := ⟨[], [⟨8, 0xFFFFFFFF#32, 0xFFFFFFFF#32⟩], [], none, none, none, none⟩

/-- The machine after reset with that result outstanding. -/
def awaits8 : State := { State.reset with warp := { State.reset.warp with pending := [result8] } }

/-- A warp has the predicates p0 to p7: one above them reads false in every lane (R72). -/
theorem predLane_above (w : Warp) {k : Nat} (hk : 7 < k) (j : Nat) : w.predLane k j = false := by
  unfold Warp.predLane
  rw [if_neg (by omega), vec_getD, Vector.getElem?_eq_none (by omega)]
  exact zero_has j

/-- The result returns and is no longer outstanding. -/
theorem exec_awaits8 : exec (.varlatResultWrite 0) awaits8 =
    .next { awaits8 with warp := { State.reset.warp with pending := [], parked := State.reset.warp.parked && false } } := rfl

/-- Refutes O54: its first clause asks of every predicate that a returning result names, whatever its number, that it holds
the result's bits; a result of the number 8 returns and leaves none, since a warp has no such predicate. -/
theorem not_warpEvents : ¬ Obligations.WarpEvents := by
  unfold Obligations.WarpEvents
  rintro ⟨hresult, -⟩
  obtain ⟨t, ht, -, -, -, -, hpred, -⟩ := hresult awaits8 0 result8 rfl rfl rfl rfl rfl List.nodup_nil (List.nodup_singleton _)
  rw [exec_awaits8] at ht
  cases ht
  have hread := hpred ⟨8, 0xFFFFFFFF#32, 0xFFFFFFFF#32⟩ (List.mem_singleton.mpr rfl) 0 (by omega)
  rw [predLane_above _ (by decide)] at hread
  exact absurd hread (by decide)

end Sys2Proof.Machine
end

section
/-! PROOFS. A step is exec of what is fetched, due or raised (R17, R62, R82, R301). -/

namespace Sys2Proof.Machine

/-! ## The move of a turn -/

/-- The step of a state in which an agent's turn begins is that agent's move. -/
theorem step_turn {s s0 : State} {a : Turn} (h : TurnBegins s a s0) : step s = runMove s.cores ⟨a, turnMove a s0⟩ := by
  obtain ⟨hagenda, hstarve, hturn⟩ := h
  have hchoose : choose s = ⟨a, turnMove a s0⟩ := by
    unfold choose
    rcases hturn with ⟨hplan, rfl, rfl⟩ | ⟨w, n, rest, hplan, rfl⟩ <;> rw [hplan] <;> rfl
  unfold step nextMove
  rw [hagenda]
  dsimp only
  rw [hstarve, ← hchoose]

/-- A turn that runs an instruction: exec of it, and what follows the turn. -/
theorem runMove_some (cores : Tab Core) (a : Turn) (i : Instr) (s : State) : runMove cores ⟨a, (some i, s)⟩ =
    match exec i s with | .next t => .next (afterMove cores a s.warp.id t) | r => r := rfl

/-! ## What each agent runs -/

theorem fetchAccess_ok {s s1 : State} {w : Warp} {pc : DWord} {bs : List Byte} {i : Instr}
    (h : fetchBytes w 1 s pc = (.ok bs, s1)) (hd : decodeAccessBytes bs = some (i, [])) : fetchAccess s w pc = (.ok i, s1) := by
  unfold fetchAccess
  rw [h]
  dsimp only
  rw [hd]

theorem fetchLane_ok {s s1 : State} {w : Warp} {pc : DWord} {bs : List Byte} {i : Instr}
    (h : fetchBytes w 3 s pc = (.ok bs, s1)) (hd : decodeLaneBytes bs = some (i, [])) : fetchLane s w pc = (.ok i, s1) := by
  unfold fetchLane
  rw [h]
  dsimp only
  rw [hd]

theorem accessMove_fetched {s s1 : State} {i : Instr} {bs : List Byte} (hready : accessReady s = true)
    (halign : s.warp.apc.toNat % 4 = 0)
    (hfetch : fetchBytes s.warp 1 (modCore s s.warp.coreIx fun c => { c with served := s.warp.slot }) s.warp.apc = (.ok bs, s1))
    (hd : decodeAccessBytes bs = some (i, [])) : accessMove s = (some i, s1) := by
  have h := fetchAccess_ok hfetch hd
  unfold accessMove
  rw [hready]
  change (if (!true) = true then _ else if s.warp.apc.toNat % 4 ≠ 0 then _ else
    match fetchAccess (modCore s s.warp.coreIx fun c => { c with served := s.warp.slot }) s.warp s.warp.apc with
    | (.ok i, s) => _ | (.error e, s) => _) = _
  rw [h, if_neg (by simp), if_neg (by simpa using halign)]

theorem laneMove_fetched {s s1 : State} {b : Bool} {sp : Split} {i : Instr} {bs : List Byte}
    (htrap : trapDue { s with slotB := b } b = false) (hready : readySplit { s with slotB := b } b = some sp)
    (halign : sp.pc.toNat % 4 = 0) (hfetch : fetchBytes s.warp 3 { s with slotB := b } sp.pc = (.ok bs, s1))
    (hd : decodeLaneBytes bs = some (i, [])) : laneMove b s = (some i, s1) := by
  have h := fetchLane_ok hfetch hd
  unfold laneMove
  dsimp only
  rw [htrap, hready]
  dsimp only
  rw [if_neg (by simp), if_neg (by simpa using halign), h]

/-- Of the events that the machine may raise one is raised. -/
theorem eventMove_raises {s : State} (h : events s ≠ []) : ∃ i ∈ events s, eventMove s = (some i, s) := by
  unfold eventMove
  cases he : events s with
  | nil => exact absurd he h
  | cons i l =>
    cases l with
    | nil => exact ⟨i, List.mem_cons_self .., rfl⟩
    | cons j t =>
      have hlt : (Config.free s.draws).toNat % ((j :: t).length + 1) < (i :: j :: t).length := Nat.mod_lt _ (by simp)
      refine ⟨(i :: j :: t)[(Config.free s.draws).toNat % ((j :: t).length + 1)], List.getElem_mem hlt, ?_⟩
      show ((i :: j :: t)[(Config.free s.draws).toNat % ((j :: t).length + 1)]?, s) = _
      rw [List.getElem?_eq_getElem hlt]

/-- Settles O58: the step of a turn is the move of its agent, which is the instruction that it fetches or an event that the
machine may raise. -/
theorem stepRuns : Obligations.StepRuns := by
  unfold Obligations.StepRuns
  refine ⟨fun s s0 s1 i bs hturn hready halign hfetch hd => ?_, fun s s0 s1 b sp i bs hturn htrap hready halign hfetch hd => ?_,
    fun s i rest hagenda => ?_, fun s c hw lnum rung hagenda hstarve => ?_, fun s s0 hturn hne => ?_⟩
  · rw [step_turn hturn, turnMove, accessMove_fetched hready halign hfetch hd, runMove_some]
    rfl
  · have hmove : turnMove (if b then .laneB else .laneA) s0 = (some i, s1) := by
      have := laneMove_fetched htrap hready halign hfetch hd
      cases b <;> exact this
    rw [step_turn hturn, hmove, runMove_some]
    cases b <;> cases exec i s1 <;> rfl
  · unfold step nextMove
    rw [hagenda]
  · unfold step nextMove
    rw [hagenda]
    dsimp only
    rw [hstarve]
  · obtain ⟨i, hi, hmove⟩ := eventMove_raises hne
    refine ⟨i, hi, ?_⟩
    rw [step_turn hturn, turnMove, hmove, runMove_some]
    rfl

end Sys2Proof.Machine
end

section
/-! PROOFS. The queues of the access stream: QPUSH, QPOP and LDQ (R132 to R135). -/

namespace Sys2Proof.Machine

/-! ## A word that completes -/

/-- The stream goes on at NEXT; no scalar register and no queue has changed. -/
theorem stepAccess_only (s : State) :
    (stepAccess s).warp.apc = s.warp.apc + 4#64 ∧ (stepAccess s).warp.acc = .ready ∧ (stepAccess s).warp.s = s.warp.s ∧
      (stepAccess s).warp.fq = s.warp.fq ∧ AccessOnly s (stepAccess s) := by
  obtain ⟨h1, h2, h3⟩ := jumpAccess_spec s (s.warp.apc + 4#64)
  unfold stepAccess
  generalize jumpAccess s (s.warp.apc + 4#64) = t at *
  refine ⟨by rw [h1], by rw [h1], by rw [h1], by rw [h1], by rw [h1], ⟨h2, fun h => ?_⟩, fun h => ?_⟩
  · rw [h3 h]; exact ⟨rfl, rfl, rfl⟩
  · rw [h3 h]

/-! ## QPUSH (R132, R134) -/

theorem pushQueue_fq (s : State) (q : BitVec 3) (e : QEntry) :
    (pushQueue s q e).warp.fq[q.toNat]'q.isLt = s.warp.fq[q.toNat]'q.isLt ++ [e] ∧
      ∀ p : BitVec 3, p ≠ q → (pushQueue s q e).warp.fq[p.toNat]'p.isLt = s.warp.fq[p.toNat]'p.isLt := by
  unfold pushQueue modWarp
  exact ⟨Vector.getElem_set_self .., fun p hp => Vector.getElem_set_ne q.isLt p.isLt fun h => hp (BitVec.eq_of_toNat_eq h.symm)⟩

/-- A pushed entry stands at the end of its queue when the word has completed. -/
theorem stepAccess_pushQueue (s : State) (q : BitVec 3) (e : QEntry) {t : State} (ht : stepAccess (pushQueue s q e) = t) :
    t.warp.fq[q.toNat]'q.isLt = s.warp.fq[q.toNat]'q.isLt ++ [e] ∧
      (∀ p : BitVec 3, p ≠ q → t.warp.fq[p.toNat]'p.isLt = s.warp.fq[p.toNat]'p.isLt) ∧
      t.warp.apc = s.warp.apc + 4#64 ∧ t.warp.acc = .ready ∧ t.warp.s = s.warp.s ∧
      AccessOnly { s with warp := { s.warp with fq := t.warp.fq } } t := by
  obtain ⟨h1, h2, h3, h4, h5⟩ := stepAccess_only (pushQueue s q e)
  obtain ⟨f1, f2⟩ := pushQueue_fq s q e
  rw [ht] at h1 h2 h3 h4 h5
  simp only [h4]
  exact ⟨f1, f2, h1, h2, h3, h5⟩

theorem qpush_room {s : State} (hrun : accessRuns s.warp = true) (a : Reg) (q : BitVec 3) (hi : Bool)
    (hroom : (s.warp.fq[q.toNat]'q.isLt).length < 16) :
    exec (.qpush a q hi) s = .next (stepAccess (pushQueue s q ⟨false,
      [if hi then ((s.warp.sget a) >>> 32).setWidth 32 else (s.warp.sget a).setWidth 32], queueTag s.warp q, 0#32⟩)) := by
  show execQpush a q hi s = _
  unfold execQpush
  refine (exec_access s _ hrun).trans ?_
  rw [if_neg (by unfold queueMax queueLen; omega)]
  cases hi <;> rfl

theorem qpush_full {s : State} (hrun : accessRuns s.warp = true) (a : Reg) (q : BitVec 3) (hi : Bool)
    (hfull : 16 ≤ (s.warp.fq[q.toNat]'q.isLt).length) :
    exec (.qpush a q hi) s = .next { s with warp := { s.warp with acc := .queue } } := by
  show execQpush a q hi s = _
  unfold execQpush
  refine (exec_access s _ hrun).trans ?_
  rw [if_pos (by unfold queueMax queueLen; omega)]
  rfl

/-! ## QPOP (R135) -/

/-- A pop or a peek of a back queue with an entry that has no poisoned word: sD has the value, and under a pop the entry
is gone. -/
theorem popBack_takes {s : State} (hrun : accessRuns s.warp = true) {bq peek : Bool} {e : BEntry} {rest : List BEntry}
    (hq : s.warp.bq[if bq then 1 else 0]? = some (e :: rest)) (hclean : e.poison = 0#32) (d : Reg) (lanes : List Nat)
    (f : BEntry → DWord) :
    ∃ t, popBack d bq peek lanes f s = .next t ∧ (∀ r, t.warp.sget r = scalarAfter s.warp d (f e) r) ∧
      t.warp.bq[if bq then 1 else 0]? = some (if peek then e :: rest else rest) ∧
      t.warp.bq[if bq then 0 else 1]? = s.warp.bq[if bq then 0 else 1]? ∧
      t.warp.apc = s.warp.apc + 4#64 ∧ t.warp.acc = .ready ∧
      AccessOnly { s with warp := { s.warp with bq := t.warp.bq } } t := by
  obtain ⟨y, hy, hy1, hy2⟩ : ∃ y : Vector (List BEntry) 2,
      y = (if peek then s.warp.bq else s.warp.bq.setIfInBounds (if bq then 1 else 0) rest) ∧
        y[if bq then 1 else 0]? = some (if peek then e :: rest else rest) ∧
        y[if bq then 0 else 1]? = s.warp.bq[if bq then 0 else 1]? := by
    refine ⟨_, rfl, ?_, ?_⟩
    · cases peek
      · cases bq <;> simp
      · exact hq
    · cases peek
      · cases bq <;> simp
      · rfl
  have hrun' : popBack d bq peek lanes f s = .next (putS { s with warp := { s.warp with bq := y } } d (f e)) := by
    refine (exec_access s _ hrun).trans ?_
    dsimp only
    rw [vec_getD, hq]
    dsimp only [Option.getD_some]
    rw [if_neg (by simp [hclean])]
    rw [hy]
    cases peek <;> rfl
  obtain ⟨h1, h2, h3, h4⟩ := putS_spec { s with warp := { s.warp with bq := y } } d (f e)
  refine ⟨_, hrun', h1, ?_⟩
  have hbq : (putS { s with warp := { s.warp with bq := y } } d (f e)).warp.bq = y := (congrArg (·.warp.bq) h4.1 :)
  rw [hbq]
  exact ⟨hy1, hy2, h2, h3, h4⟩

theorem popBack_empty {s : State} (hrun : accessRuns s.warp = true) {bq : Bool} (hq : s.warp.bq[if bq then 1 else 0]? = some [])
    (d : Reg) (peek : Bool) (lanes : List Nat) (f : BEntry → DWord) :
    popBack d bq peek lanes f s = .next { s with warp := { s.warp with acc := .queue } } := by
  refine (exec_access s _ hrun).trans ?_
  dsimp only
  rw [vec_getD, hq]
  rfl

/-- The value of QPOP.M: the mask below, the tag above. -/
theorem maskAndTag_eq (e : BEntry) : zext64 e.mask + zext64 e.tag <<< 32 = BitVec.ofNat 64 (e.mask.toNat + e.tag.toNat * 2 ^ 32) := by
  apply BitVec.eq_of_toNat_eq
  have hm := e.mask.isLt
  have ht := e.tag.isLt
  simp only [zext64, BitVec.toNat_add, BitVec.toNat_shiftLeft, BitVec.toNat_setWidth, BitVec.toNat_ofNat, Nat.shiftLeft_eq]
  omega

theorem scalarQueues : Clause.ScalarQueues := by
  unfold Clause.ScalarQueues
  refine ⟨fun s a q hi hrun => ⟨fun hroom => ?_, fun hfull => qpush_full hrun a q hi hfull⟩,
    fun s i d bq peek lane e rest v hrun hq hclean hi => ?_, fun s i d bq peek lane hrun hq hi => ?_⟩
  · exact ⟨_, qpush_room hrun a q hi hroom, stepAccess_pushQueue s q _ rfl⟩
  · rcases hi with ⟨rfl, rfl⟩ | ⟨rfl, heven, rfl⟩ | ⟨rfl, rfl⟩
    · exact popBack_takes hrun hq hclean d [lane.toNat] fun e => zext64 (e.lane lane.toNat)
    · have hexec : exec (.qpopD d bq lane peek) s = popBack d bq peek [lane.toNat, lane.toNat + 1]
          (fun e => pair64 (e.lane lane.toNat) (e.lane (lane.toNat + 1))) s := by
        show execQpopD d bq lane peek s = _
        unfold execQpopD
        rw [heven]
        rfl
      rw [hexec]
      exact popBack_takes hrun hq hclean d _ _
    · rw [← maskAndTag_eq]
      exact popBack_takes hrun hq hclean d [] fun e => zext64 e.mask + zext64 e.tag <<< 32
  · rcases hi with rfl | ⟨rfl, heven⟩ | rfl
    · exact popBack_empty hrun hq ..
    · show execQpopD d bq lane peek s = _
      unfold execQpopD
      rw [heven]
      exact popBack_empty hrun hq ..
    · exact popBack_empty hrun hq ..

/-! ## LDQ (R133) -/

/-- Lanes that can all be placed, each with its key. -/
def placed (m : List (Nat × DWord × Nat)) : List (Nat × DWord × Except AccErr Nat) := m.map fun p => (p.1, p.2.1, .ok p.2.2)

theorem exists_placed {l : List (Nat × DWord × Except AccErr Nat)} (h : ∀ p ∈ l, ∃ k, p.2.2 = .ok k) : ∃ m, l = placed m := by
  induction l with
  | nil => exact ⟨[], rfl⟩
  | cons p t ih =>
    obtain ⟨m, hm⟩ := ih fun q hq => h q (List.mem_cons_of_mem _ hq)
    obtain ⟨i, ea, r⟩ := p
    obtain ⟨k, hk⟩ := h (i, ea, r) (List.mem_cons_self ..)
    dsimp only at hk
    exact ⟨(i, ea, k) :: m, by rw [hk, hm]; rfl⟩

/-- Placing lanes changes the translation cache alone, and gives each its outcome in order. -/
theorem accPlaces_keeps (n : Nat) (lanes : List (Nat × DWord)) (s : State) :
    ∃ c, (accPlaces n lanes s).2 = { s with tlb := c } ∧ (accPlaces n lanes s).1.map (fun p => (p.1, p.2.1)) = lanes := by
  induction lanes generalizing s with
  | nil => exact ⟨s.tlb, rfl, rfl⟩
  | cons p t ih =>
    obtain ⟨i, ea⟩ := p
    obtain ⟨c, hc⟩ : ∃ c, (accPlace s .read n ea).2 = { s with tlb := c } := by
      unfold accPlace
      dsimp only
      split
      · exact ⟨s.tlb, rfl⟩
      · split
        · exact ⟨s.tlb, rfl⟩
        · exact placeAccess_keeps ..
    obtain ⟨c', h1, h2⟩ := ih { s with tlb := c }
    refine ⟨c', ?_, ?_⟩
    · show (accPlaces n t (accPlace s .read n ea).2).2 = _
      rw [hc, h1]
    · show (i, ea) :: (accPlaces n t (accPlace s .read n ea).2).1.map _ = _
      rw [hc, h2]

/-- The words of a vector entry whose lanes' keys are these. -/
def ldqWords (s : State) (m : List (Nat × DWord × Nat)) : List Word :=
  m.zipIdx.map fun p => BitVec.ofNat 32 (readNat s (aviewOf s.warp) .g p.2 p.1.2.2 4)

/-- A state that only reads of the stream have changed. -/
def ReadOf (s x : State) : Prop := ∃ av c lt dl cs, x = { s with
    warp := { s.warp with aview := av }, tlb := c, lineTimes := lt, dieLeases := dl, cores := cs } ∧ CoresTimes s.cores cs

/-- The stream's loads of placed lanes outside a redundant group. -/
theorem accRead_placed {s : State} (hrg : s.warp.rg = none) (c : List TlbEntry) (m : List (Nat × DWord × Nat)) :
    ∃ bs x, accRead { s with tlb := c } 4 (m.map fun p => (p.2.1, p.2.2)) = .ok (bs, x) ∧ ReadOf s x ∧
      bs.map (fun b => BitVec.ofNat 32 (ofBytesLE b)) = ldqWords s m := by
  obtain ⟨lt, dl, cs, hl, hcs⟩ := readLanes_spec (aviewOf s.warp) s.warp.coreIx 4
    ((List.range (m.map fun p => (p.2.1, p.2.2)).length).zip (m.map fun p => (p.2.1, p.2.2)) |>.map
      fun p => ((⟨p.1, p.2.1, true⟩ : LaneAcc), p.2.2)) { s with tlb := c }
  have hread := accRead_single (s := { s with tlb := c }) hrg 4 (m.map fun p => (p.2.1, p.2.2))
  change accRead _ 4 _ = accSeen _ (.ok (readLanes (aviewOf s.warp) s.warp.coreIx 4 _ _)) at hread
  rw [hl] at hread
  refine ⟨_, _, hread, ⟨_, _, _, _, _, rfl, hcs⟩, List.ext_getElem (by simp [ldqWords]) fun i h1 h2 => ?_⟩
  simp only [ldqWords, List.getElem_map, List.getElem_zip, List.getElem_range, List.getElem_zipIdx, Nat.zero_add]
  rfl

/-- LDQ of lanes that can all be placed, outside a redundant group: one entry with the words at their keys is pushed. -/
theorem ldq_placed {s s' : State} (hrun : accessRuns s.warp = true) (hrg : s.warp.rg = none) {a : Reg} {q : BitVec 3}
    {stride : BitVec 18} {m : List (Nat × DWord × Nat)} (hroom : (s.warp.fq[q.toNat]'q.isLt).length < 16)
    (hplaces : accPlaces 4 (laneIds.map fun i => (i, s.warp.sget a + BitVec.ofNat 64 i * stride.signExtend 64)) s = (placed m, s')) :
    ∃ x bad, exec (.ldq a q stride) s = .next (stepAccess (pushQueue x q ⟨true, ldqWords s m, queueTag s.warp q, bad⟩)) ∧
      ReadOf s x := by
  obtain ⟨c, hc, -⟩ := accPlaces_keeps 4 (laneIds.map fun i => (i, s.warp.sget a + BitVec.ofNat 64 i * stride.signExtend 64)) s
  rw [hplaces] at hc
  dsimp only at hc
  subst hc
  obtain ⟨bs, x, hread, hx, hwords⟩ := accRead_placed hrg c m
  have htag : queueTag x.warp q = queueTag s.warp q := by obtain ⟨_, _, _, _, _, rfl, -⟩ := hx; rfl
  suffices h : ∃ bad, execLdq a q stride s =
      .next (stepAccess (pushQueue x q ⟨true, ldqWords s m, queueTag s.warp q, bad⟩)) from
    ⟨x, h.choose, h.choose_spec, hx⟩
  refine ⟨?bad, ?run⟩
  case run =>
    unfold execLdq
    rw [exec_access s _ hrun, if_neg (by unfold queueMax queueLen; omega)]
    extract_lets lanes
    rw [show accPlaces 4 lanes s = _ from hplaces]
    dsimp only
    simp only [placed, List.filterMap_map, Function.comp_def, List.filterMap_none]
    rw [show firstFail [] = none from rfl, List.filterMap_eq_map' (f := fun p : Nat × DWord × Nat => (p.2.1, p.2.2)), hread]
    dsimp only
    rw [hwords, htag]

/-- Each lane's word is that at its key. -/
theorem ldqWords_lane {s s' : State} {addr : Nat → DWord} {m : List (Nat × DWord × Nat)}
    (hplaces : accPlaces 4 (laneIds.map fun i => (i, addr i)) s = (placed m, s')) {i k : Nat} {ea : DWord}
    (h : (i, ea, .ok k) ∈ placed m) : (ldqWords s m).getD i 0#32 = BitVec.ofNat 32 (readNat s (aviewOf s.warp) .g i k 4) := by
  obtain ⟨-, -, horder⟩ := accPlaces_keeps 4 (laneIds.map fun i => (i, addr i)) s
  rw [hplaces] at horder
  obtain ⟨p, hp, hpe⟩ := List.mem_map.mp h
  obtain ⟨j, hj, rfl⟩ := List.mem_iff_getElem.mp hp
  obtain ⟨h1, -, h3⟩ : m[j].1 = i ∧ m[j].2.1 = ea ∧ m[j].2.2 = k := by
    simp only [Prod.mk.injEq, Except.ok.injEq] at hpe
    exact hpe
  have hji : j = i := by
    have hget := congrArg (fun l => l[j]?.map Prod.fst) horder
    simp only [placed, List.map_map, List.getElem?_map, List.getElem?_eq_getElem hj, Option.map_some, Function.comp_def] at hget
    unfold laneIds at hget
    by_cases hlt : j < 32
    · rw [List.getElem?_range hlt, Option.map_some, Option.map_some, Option.some.injEq] at hget
      exact hget.symm.trans h1
    · rw [List.getElem?_eq_none (by simpa using hlt)] at hget
      cases hget
  subst hji
  unfold ldqWords
  rw [List.getD_eq_getElem _ _ (by simpa using hj)]
  simp only [List.getElem_map, List.getElem_zipIdx, Nat.zero_add, h3]

theorem vectorLoadQueue : Clause.VectorLoadQueue := by
  unfold Clause.VectorLoadQueue
  intro s s' a q stride l hrun hrg hroom hplaces hok
  obtain ⟨m, rfl⟩ := exists_placed hok
  obtain ⟨x, bad, hexec, av, c, lt, dl, cs, rfl, hcores⟩ := ldq_placed hrun hrg hroom hplaces
  obtain ⟨f1, f2⟩ := pushQueue_fq s q ⟨true, ldqWords s m, queueTag s.warp q, bad⟩
  unfold stepAccess at hexec
  rw [jumpAccess_single (by exact hrg)] at hexec
  exact ⟨_, ⟨true, ldqWords s m, queueTag s.warp q, bad⟩, hexec, f1, rfl, rfl, fun i k ea hi => ldqWords_lane hplaces hi, f2,
    rfl, fun _ => rfl, ⟨rfl, ⟨fun _ _ => rfl, fun _ => ⟨rfl, rfl, rfl⟩⟩, hcores⟩, rfl⟩

/-- Settles O3: QPUSH and LDQ push one entry and complete, QPOP takes or leaves the oldest and completes, and a full or an
empty queue stalls the stream before anything moves. -/
theorem accessQueues : Obligations.AccessQueues := ⟨scalarQueues, vectorLoadQueue⟩

end Sys2Proof.Machine
end


section
/-! PROOFS. Where a cluster is placed (R11, R12, R341): the slots of its warps, its scratchpad ranges, and the choice of
the package cluster. -/

namespace Sys2Proof.Machine

/-! ## Slots and registers of a partition -/

theorem freeSlots_length (used : List (Nat × Nat)) (p : Nat) :
    (freeSlots used p).length = ((List.range 8).filter fun j => !used.any fun u => u.1 == 8 * p + j).length := by
  unfold freeSlots
  rw [List.filter_map, List.length_map]
  rfl

theorem freeSlots_perm {a b : List (Nat × Nat)} (h : a.Perm b) (p : Nat) : freeSlots a p = freeSlots b p := by
  unfold freeSlots
  simp only [h.any_eq]

theorem mem_freeSlots {used : List (Nat × Nat)} {p k : Nat} (h : k ∈ freeSlots used p) :
    k / 8 = p ∧ ∀ u ∈ used, u.1 ≠ k := by
  unfold freeSlots at h
  simp only [List.mem_filter, List.mem_map, List.mem_range, Bool.not_eq_true', List.any_eq_false, beq_iff_eq] at h
  obtain ⟨⟨j, hj, rfl⟩, hn⟩ := h
  exact ⟨by omega, hn⟩

theorem foldl_units (l : List (Nat × Nat)) (n : Nat) :
    l.foldl (fun n u => n + 8 * u.2) n = n + 8 * (l.map (·.2)).sum := by
  induction l generalizing n with
  | nil => rfl
  | cons a t ih => rw [List.foldl_cons, ih, List.map_cons, List.sum_cons]; ring

theorem regsUsed_sum (used : List (Nat × Nat)) (p : Nat) :
    regsUsed used p = 8 * ((used.filter fun u => u.1 / 8 == p).map (·.2)).sum := by
  unfold regsUsed
  rw [foldl_units, Nat.zero_add]

theorem regsUsed_perm {a b : List (Nat × Nat)} (h : a.Perm b) (p : Nat) : regsUsed a p = regsUsed b p := by
  rw [regsUsed_sum, regsUsed_sum, ((h.filter _).map _).sum_eq]

theorem regsUsed_cons_same (k u : Nat) (used : List (Nat × Nat)) :
    regsUsed ((k, u) :: used) (k / 8) = regsUsed used (k / 8) + 8 * u := by
  rw [regsUsed_sum, regsUsed_sum, List.filter_cons_of_pos (by simp), List.map_cons, List.sum_cons]
  ring

/-- Warps placed on other partitions add nothing to this one. -/
theorem regsUsed_append_other (used more : List (Nat × Nat)) (p : Nat) (h : ∀ u ∈ more, u.1 / 8 ≠ p) :
    regsUsed (used ++ more) p = regsUsed used p := by
  have hm : more.filter (fun u => u.1 / 8 == p) = [] := by simpa using fun a b hab => h (a, b) hab
  rw [regsUsed_sum, regsUsed_sum, List.filter_append, hm, List.append_nil]

/-- The partition taken has the most free slots, and is the lowest such (R11). -/
theorem bestPart_most (used : List (Nat × Nat)) :
    bestPart used < 4 ∧ ∀ p, p < 4 → (freeSlots used p).length ≤ (freeSlots used (bestPart used)).length ∧
      (p < bestPart used → (freeSlots used p).length < (freeSlots used (bestPart used)).length) := by
  unfold bestPart
  simp only [List.foldl_cons, List.foldl_nil]
  split_ifs <;> refine ⟨by omega, fun p hp => ?_⟩ <;> interval_cases p <;> omega

/-! ## The warps of a team -/

/-- Slots taken one after the other, each in the partition with the most free ones, within its registers (R11, R12). -/
structure SlotsTaken (u n : Nat) (used : List (Nat × Nat)) (l : List Nat) : Prop where
  length : l.length = n
  nodup : l.Nodup
  free : ∀ k ∈ l, k < 32 ∧ ∀ x ∈ used, x.1 ≠ k
  regs : ∀ p, (∃ k ∈ l, k / 8 = p) → regsUsed (used ++ l.map (·, u)) p ≤ 1024
  most : ∀ j, j < n → ∀ p, p < 4 →
    (freeSlots (used ++ (l.take j).map (·, u)) p).length ≤
        (freeSlots (used ++ (l.take j).map (·, u)) (l.getD j 0 / 8)).length ∧
      (p < l.getD j 0 / 8 → (freeSlots (used ++ (l.take j).map (·, u)) p).length <
        (freeSlots (used ++ (l.take j).map (·, u)) (l.getD j 0 / 8)).length)

/-- A first slot of the best partition, within its registers, before slots taken with it in use. -/
theorem SlotsTaken.cons {u n k : Nat} {used : List (Nat × Nat)} {l : List Nat} (hk : k ∈ freeSlots used (bestPart used))
    (hr : regsUsed used (bestPart used) + 8 * u ≤ 1024) (h : SlotsTaken u n ((k, u) :: used) l) :
    SlotsTaken u (n + 1) used (k :: l) := by
  obtain ⟨hp, hn⟩ := mem_freeSlots hk
  obtain ⟨hb, hmost⟩ := bestPart_most used
  have hmid (m : List (Nat × Nat)) : (used ++ (k, u) :: m).Perm ((k, u) :: used ++ m) := List.perm_middle
  constructor
  case length => rw [List.length_cons, h.length]
  case nodup => exact List.nodup_cons.mpr ⟨fun hkl => (h.free k hkl).2 (k, u) (List.mem_cons_self ..) rfl, h.nodup⟩
  case free =>
    rintro j (_ | ⟨_, hj⟩)
    · exact ⟨by omega, hn⟩
    · exact ⟨(h.free j hj).1, fun x hx => (h.free j hj).2 x (List.mem_cons_of_mem _ hx)⟩
  case regs =>
    intro p hex
    rw [List.map_cons, regsUsed_perm (hmid _)]
    by_cases hl : ∃ j ∈ l, j / 8 = p
    · exact h.regs p hl
    · push Not at hl
      have hkp : k / 8 = p := by
        obtain ⟨j, hj | ⟨_, hj⟩, hjp⟩ := hex
        · exact hjp
        · exact absurd hjp (hl j hj)
      rw [regsUsed_append_other _ _ p (by simpa using hl), ← hkp, regsUsed_cons_same, hp]
      exact hr
  case most =>
    intro j hj p hp4
    cases j with
    | zero => simpa [hp] using hmost p hp4
    | succ j =>
      simp only [List.take_succ_cons, List.map_cons, freeSlots_perm (hmid _), List.getD_cons_succ]
      exact h.most j (by omega) p hp4

theorem placeWarps_taken (u n : Nat) (used : List (Nat × Nat)) (l : List Nat) (h : placeWarps u n used = some l) :
    SlotsTaken u n used l := by
  induction n generalizing used l with
  | zero =>
    cases h
    exact ⟨rfl, List.nodup_nil, by simp, by simp, fun j hj => absurd hj (Nat.not_lt_zero j)⟩
  | succ n ih =>
    unfold placeWarps at h
    dsimp only at h
    split at h
    · cases h
    · rename_i k rest hfree
      split at h
      · cases h
      · obtain ⟨l', hl', rfl⟩ := Option.map_eq_some_iff.mp h
        exact .cons (by rw [hfree]; exact List.mem_cons_self ..) (by omega) (ih _ _ hl')

/-! ## The scratchpad range -/

/-- A fold that keeps the least of a list yields one of its elements. -/
theorem foldl_min_mem (l : List Nat) (o : Option Nat) (b : Nat)
    (h : l.foldl (fun o b => some (min b (o.getD b))) o = some b) : b ∈ l ∨ o = some b := by
  induction l generalizing o with
  | nil => exact .inr h
  | cons a t ih =>
    rcases ih _ h with hb | hb
    · exact .inl (List.mem_cons_of_mem _ hb)
    · cases o with
      | none => exact .inl (by simp_all)
      | some c =>
        simp only [Option.getD_some, Option.some.injEq] at hb
        rcases min_choice a c with hm | hm
        · exact .inl (by simp [← hb, hm])
        · exact .inr (by rw [← hb, hm])

theorem placeRange_free {used : List (Nat × Nat)} {n b : Nat} (h : placeRange used n = some b) :
    b + n ≤ 2 ^ 19 ∧ ∀ r ∈ used, b + n ≤ r.1 ∨ r.1 + r.2 ≤ b := by
  have hb := (foldl_min_mem _ _ _ h).resolve_right (by simp)
  simpa using (List.mem_filter.mp hb).2

/-! ## The teams of a cluster -/

theorem placeTeam_spot {k : Kernel} {core : Nat} {used ranges : List (Nat × Nat)} {x : Spot}
    (h : placeTeam k core used ranges = some x) :
    x.core = core ∧ SlotsTaken k.units k.warps used x.slots ∧ x.base + (k.scr + 2048 * k.warps) ≤ 2 ^ 19 ∧
      ∀ r ∈ ranges, x.base + (k.scr + 2048 * k.warps) ≤ r.1 ∨ r.1 + r.2 ≤ x.base := by
  unfold placeTeam at h
  split at h
  · rename_i l b hl hb
    cases h
    exact ⟨rfl, placeWarps_taken _ _ _ _ hl, placeRange_free hb⟩
  · cases h

theorem allSome_eq {α : Type} {l : List (Option α)} {r : List α} (h : allSome l = some r) : l = r.map some := by
  induction l generalizing r with
  | nil => cases h; rfl
  | cons a t ih =>
    cases a with
    | none => cases h
    | some a =>
      obtain ⟨r', hr, rfl⟩ := Option.map_eq_some_iff.mp h
      rw [ih hr, List.map_cons]

/-- A cluster has as many spots as it needs cores, on the lowest usable ones, each a team's (R11, R331). -/
theorem placeCluster_spots {s : State} {hw : Nat} {k : Kernel} {red : Bool} {l : List Spot}
    (h : placeCluster s hw k red = some l) :
    l.length = coresNeeded k red ∧ l.map (·.core) = (liveCores s hw).take l.length ∧
      ∀ x ∈ l, placeTeam k x.core (seatsUsed s hw x.core) (rangesUsed s hw x.core) = some x := by
  unfold placeCluster at h
  dsimp only at h
  split at h
  · cases h
  · rename_i hlen
    have hmap := allSome_eq h
    have hl : l.length = coresNeeded k red := by
      have := congrArg List.length hmap
      simp only [List.length_map, List.length_take] at this hlen
      omega
    have hcore : l.map (·.core) = (liveCores s hw).take l.length := by
      rw [hl]
      refine List.ext_getElem (by simpa using (congrArg List.length hmap).symm) fun n h1 h2 => ?_
      have hn : ((liveCores s hw).take (coresNeeded k red)).map
          (fun c => placeTeam k c (seatsUsed s hw c) (rangesUsed s hw c)) = l.map some := hmap
      have := congrArg (·[n]?) hn
      simp only [List.getElem?_map, List.getElem?_eq_getElem h2, Option.map_some] at this
      rw [List.length_map] at h1
      rw [List.getElem?_eq_getElem h1, Option.map_some, Option.some.injEq] at this
      rw [List.getElem_map]
      exact (placeTeam_spot this).1
    refine ⟨hl, hcore, fun x hx => ?_⟩
    have : some x ∈ l.map some := List.mem_map_of_mem hx
    rw [← hmap] at this
    obtain ⟨c, -, hc⟩ := List.mem_map.mp this
    rw [(placeTeam_spot hc).1]
    exact hc

/-! ## The choice of the package cluster -/

theorem eligible_placed {s : State} {k : Kernel} {red : Bool} {hw : Nat} (h : eligible s k red hw = true) :
    ∃ l, placeCluster s hw k red = some l := by
  unfold eligible at h
  split at h
  · exact ⟨_, ‹_›⟩
  · cases h

/-- The chosen cluster is eligible, none that is eligible beats it, and each lower eligible one is beaten (R341). -/
theorem chooseCluster_some {s : State} {k : Kernel} {red : Bool} {hw : Nat} (h : chooseCluster s k red = some hw) :
    (hw < 160 ∧ eligible s k red hw = true) ∧
      (∀ a, a < 160 ∧ eligible s k red a = true → ¬ wuSum s k red a + 2209032000 < wuSum s k red hw) ∧
      ∀ b, b < hw → b < 160 ∧ eligible s k red b = true →
        ∃ a, (a < 160 ∧ eligible s k red a = true) ∧ wuSum s k red a + 2209032000 < wuSum s k red b := by
  have hmem (a : Nat) : a ∈ (List.range clusterCount).filter (eligible s k red) ↔ a < 160 ∧ eligible s k red a = true := by
    simp [clusterCount]
  have hsorted : ((List.range clusterCount).filter (eligible s k red)).Pairwise (· < ·) :=
    List.pairwise_lt_range.filter _
  unfold chooseCluster leastWorn at h
  obtain ⟨hun, pre, post, hl, hpre⟩ := List.find?_eq_some_iff_append.mp h
  refine ⟨(hmem hw).mp (by rw [hl]; simp), fun a ha => ?_, fun b hb hok => ?_⟩
  · simp only [Bool.not_eq_true', List.any_eq_false, decide_eq_true_eq] at hun
    exact hun a ((hmem a).mpr ha)
  · have hbl := (hmem b).mpr hok
    rw [hl] at hsorted hbl
    have hbp : b ∈ pre := by
      rw [List.pairwise_append, List.pairwise_cons] at hsorted
      rcases List.mem_append.mp hbl with hb' | hb'
      · exact hb'
      · rcases List.mem_cons.mp hb' with rfl | hb'
        · omega
        · have := hsorted.2.1.1 b hb'
          omega
    have := hpre b hbp
    simp only [Bool.not_not, List.any_eq_true, decide_eq_true_eq] at this
    obtain ⟨a, ha, hw⟩ := this
    exact ⟨a, (hmem a).mp ha, hw⟩

/-- An eligible cluster of the least wear is beaten by none, so that one is chosen. -/
theorem chooseCluster_isSome {s : State} {k : Kernel} {red : Bool} {hw : Nat} (h : hw < 160 ∧ eligible s k red hw = true) :
    ∃ x, chooseCluster s k red = some x := by
  have hne : hw ∈ (List.range clusterCount).filter (eligible s k red) := by simpa [clusterCount] using h
  unfold chooseCluster leastWorn
  generalize (List.range clusterCount).filter (eligible s k red) = l at hne ⊢
  obtain ⟨m, hm, hmin⟩ := l.toFinset.exists_min_image (wuSum s k red) ⟨hw, List.mem_toFinset.mpr hne⟩
  rw [← Option.isSome_iff_exists, List.find?_isSome]
  refine ⟨m, List.mem_toFinset.mp hm, ?_⟩
  simp only [Bool.not_eq_true', List.any_eq_false, decide_eq_true_eq]
  intro a ha
  have := hmin a (List.mem_toFinset.mpr ha)
  omega

theorem chooseCluster_none {s : State} {k : Kernel} {red : Bool} (h : ∀ hw, ¬ (hw < 160 ∧ eligible s k red hw = true)) :
    chooseCluster s k red = none := by
  rw [← Option.not_isSome_iff_eq_none]
  intro hs
  obtain ⟨x, hx⟩ := Option.isSome_iff_exists.mp hs
  exact h x (chooseCluster_some hx).1

end Sys2Proof.Machine
end


section
/-! PROOFS. What the start of a cluster does to the state (R73, R103, R146): the access handler, the barrier objects, the
teams and their warps. -/

namespace Sys2Proof.Machine

/-! ## Reads of the launch unit change the translation cache alone -/

theorem unitPlace_keeps (s : State) (ctx : Nat) (kind : AccKind) (va : DWord) :
    ∃ c, (unitPlace s ctx kind va).2 = { s with tlb := c } := by
  unfold unitPlace
  split
  · exact ⟨_, rfl⟩
  · obtain ⟨c, h⟩ := placePaged_keeps s (unitView s) 0 ctx kind va
    generalize placePaged s (unitView s) 0 ctx kind va = r at h
    obtain ⟨e | k, s'⟩ := r <;> exact ⟨c, h⟩

theorem unitRead_keeps (s : State) (ctx : Nat) (va : DWord) (n : Nat) : ∃ c, (unitRead s ctx va n).2 = { s with tlb := c } := by
  have hspan : ∃ c, (unitSpan s ctx .read va n).2 = { s with tlb := c } := by
    refine placeCuts_keeps _ (fun va n s => ?_) (cutsOf va n) s
    obtain ⟨c, h⟩ := unitPlace_keeps s ctx .read va
    generalize unitPlace s ctx .read va = r at h
    obtain ⟨_ | k, s'⟩ := r <;> exact ⟨c, h⟩
  obtain ⟨c, h⟩ := hspan
  unfold unitRead
  generalize unitSpan s ctx .read va n = r at h
  obtain ⟨_ | ks, s'⟩ := r <;> exact ⟨c, h⟩

theorem accessHandler_keeps (s : State) (ctx : Nat) (tvec : DWord) :
    ∃ c, (accessHandler s ctx tvec).2 = { s with tlb := c } := by
  unfold accessHandler
  split
  · exact ⟨_, rfl⟩
  · obtain ⟨c, h⟩ := unitRead_keeps s ctx tvec 8
    generalize unitRead s ctx tvec 8 = r at h
    obtain ⟨_ | bs, s'⟩ := r <;> exact ⟨c, h⟩

/-- The access handler is entry 0 of the trap vector, or 0 (R146). -/
theorem accessHandler_entry (s : State) (ctx : Nat) (tvec : DWord) :
    (tvec = 0#64 → (accessHandler s ctx tvec).1 = 0#64) ∧
      ∀ b s1, tvec ≠ 0#64 → unitRead s ctx tvec 8 = (some b, s1) →
        (accessHandler s ctx tvec).1 = BitVec.ofNat 64 (ofBytesLE b % 2 ^ 57) := by
  unfold accessHandler
  refine ⟨fun h => by rw [if_pos h], fun b s1 h hr => ?_⟩
  rw [if_neg h, hr]

/-! ## The queue blocks of a context that returns -/

/-- Reading queue blocks back changes the queues and the translation cache alone (R281). -/
theorem loadBlocks_keeps (s : State) (ctx : Nat) : ∃ c q, loadBlocks s ctx = { s with tlb := c, cqueues := q } := by
  unfold loadBlocks onQueues
  refine List.foldlRecOn (motive := fun t : State => ∃ c q, t = { s with tlb := c, cqueues := q }) _ _ ⟨_, _, rfl⟩ fun t ht m _ => ?_
  refine List.foldlRecOn (motive := fun t : State => ∃ c q, t = { s with tlb := c, cqueues := q }) _ _ ht fun t ht key _ => ?_
  obtain ⟨c, q, rfl⟩ := ht
  split
  · rename_i d _
    dsimp only
    have hread : ∀ core va, ∃ c', (blockRead { s with tlb := c, cqueues := q } ctx core va 1216).2 =
        { s with tlb := c', cqueues := q } := fun core va =>
      placeCuts_keeps _ (fun va n t => placePaged_keeps t _ core ctx .read va) (cutsOf va 1216) _
    obtain ⟨c', h⟩ := hread (key % 1280 / 8 * 4) (d.block (key % 1280 / 8))
    generalize blockRead { s with tlb := c, cqueues := q } ctx (key % 1280 / 8 * 4) (d.block (key % 1280 / 8)) 1216 = r at h
    obtain ⟨_ | bs, s'⟩ := r <;> dsimp only at h <;> subst h <;> exact ⟨_, _, rfl⟩
  · exact ⟨_, _, rfl⟩

theorem returnContext_keeps (s : State) (ctx : Nat) :
    ∃ c q a, returnContext s ctx = { s with tlb := c, cqueues := q, away := a } := by
  unfold returnContext
  split
  · obtain ⟨c, q, h⟩ := loadBlocks_keeps s ctx
    rw [h]
    exact ⟨_, _, _, rfl⟩
  · exact ⟨_, _, _, rfl⟩

/-! ## The bytes of a barrier object (R216) -/

theorem ofBytesLE_toBytesLE (n v : Nat) : ofBytesLE (toBytesLE n v) = v % 256 ^ n := by
  induction n generalizing v with
  | zero => simp [toBytesLE, ofBytesLE, Nat.mod_one]
  | succ n ih =>
    rw [toBytesLE, ofBytesLE, ih, BitVec.toNat_ofNat, show (256 : Nat) ^ (n + 1) = 2 ^ 8 * 256 ^ n from pow_succ' .., Nat.mod_mul]
    rfl

theorem BarObj.bytes_length (o : BarObj) : o.bytes.length = 16 := by simp [BarObj.bytes, toBytesLE_len]

/-- An object is read back from its bytes, its counts being of 16 bits. -/
theorem BarObj.parse_bytes (o : BarObj) (hp : o.pendArr < 2 ^ 16) (he : o.expArr < 2 ^ 16) : BarObj.parse o.bytes = o := by
  have hcut (a b c d e : List Byte) (ha : a.length = 4) (hb : b.length = 2) (hc : c.length = 2) (hd : d.length = 4)
      (he : e.length = 4) (l : List Byte) (hl : l = a ++ b ++ c ++ d ++ e) :
      (l.drop 0).take 4 = a ∧ (l.drop 4).take 2 = b ∧ (l.drop 6).take 2 = c ∧ (l.drop 8).take 4 = d ∧ (l.drop 12).take 4 = e := by
    subst hl
    simp [List.drop_append, ha, hb, hc, hd, he, List.take_of_length_le, List.drop_of_length_le]
  obtain ⟨h0, h4, h6, h8, h12⟩ := hcut _ _ _ _ _ (toBytesLE_len 4 o.phase.toNat) (toBytesLE_len 2 o.pendArr)
    (toBytesLE_len 2 o.expArr) (toBytesLE_len 4 o.pendB.toNat) (toBytesLE_len 4 o.reload.toNat) o.bytes rfl
  have hword (x : Word) : BitVec.ofNat 32 (x.toNat % 256 ^ 4) = x := by
    rw [show (256 : Nat) ^ 4 = 2 ^ 32 by norm_num, Nat.mod_eq_of_lt x.isLt, BitVec.ofNat_toNat, BitVec.setWidth_eq]
  unfold BarObj.parse
  simp only [h0, h4, h6, h8, h12, ofBytesLE_toBytesLE, hword]
  rw [Nat.mod_eq_of_lt (by omega), Nat.mod_eq_of_lt (by omega)]

/-! ## Objects written into scratchpads -/

/-- Two objects lie apart. -/
def ObjsApart (p q : Nat × BarObj) : Prop := ∀ j ∈ keysFrom p.1 16, j ∉ keysFrom q.1 16

/-- A state holds these objects, which another had not yet: no other byte differs, and its writes are ordered. -/
structure Holds (s t : State) (l : List (Nat × BarObj)) : Prop where
  ordered : Ordered t
  frame : ∀ j, (∀ p ∈ l, j ∉ keysFrom p.1 16) → memGet t.mem j = memGet s.mem j
  objs : ∀ p ∈ l, (keysFrom p.1 16).map (memGet t.mem) = p.2.bytes

theorem Holds.nil {s t : State} (hm : t.mem = s.mem) (hh : t.hist = s.hist) (h : Ordered s) : Holds s t [] :=
  ⟨fun r hr => h r (hh ▸ hr), fun _ _ => by rw [hm], by simp⟩

/-- Objects written after others that lie apart from them. -/
theorem Holds.append {s t u : State} {a b : List (Nat × BarObj)} (ha : Holds s t a) (hb : Holds t u b)
    (hab : ∀ p ∈ a, ∀ q ∈ b, ObjsApart p q) : Holds s u (a ++ b) where
  ordered := hb.ordered
  frame j hj := by
    rw [hb.frame j fun p hp => hj p (List.mem_append_right _ hp), ha.frame j fun p hp => hj p (List.mem_append_left _ hp)]
  objs p hp := by
    rcases List.mem_append.mp hp with hp | hp
    · rw [← ha.objs p hp]
      exact List.map_congr_left fun j hj => hb.frame j fun q hq => hab p hp q hq j hj
    · exact hb.objs p hp

/-- The objects depend on the bytes and the write records alone. -/
theorem Holds.congr {s s' t t' : State} {l : List (Nat × BarObj)} (h : Holds s t l) (hs : s'.mem = s.mem) (hm : t'.mem = t.mem)
    (hh : t'.hist = t.hist) : Holds s' t' l :=
  ⟨fun r hr => h.ordered r (hh ▸ hr), fun j hj => by rw [hm, hs]; exact h.frame j hj, fun p hp => by rw [hm]; exact h.objs p hp⟩

theorem writeRun_ordered (v : PathView) (hv : v.epoch = none) (hc : v.const = false) (land group : Nat)
    (l : List (Nat × Byte)) (s : State) (h : Ordered s) :
    Ordered (l.foldl (fun s p => writeByte s v .g land group p.1 p.2) s) := by
  refine List.foldlRecOn (motive := Ordered) l _ h fun t ht p _ => ?_
  simp only [writeByte, hv]
  exact writeCommitted_hist t v hc land group p.1 p.2 ht

theorem writeBytes_hist (s : State) (v : PathView) (path : Path) (land : Nat) (ks : List Nat) (bs : List Byte) (bad : Bool) :
    (writeBytes s v path land ks bs bad).hist =
      ((ks.zip bs).foldl (fun t p => writeByte t v path land (s.serial + 1) p.1 p.2) s).hist := by
  unfold writeBytes
  generalize (ks.zip bs).foldl (fun t p => writeByte t v path land (s.serial + 1) p.1 p.2) s = t
  obtain ⟨p, hp⟩ := poisonAfterWrite_keeps t ks bad
  obtain ⟨c, hc⟩ := countRemote_keeps { t with poison := p } v ks
  rw [hp, hc]

theorem home_scratchpad (s : State) {k : Nat} (h : spBase ≤ k) : home s k = k := by
  unfold home
  rw [if_neg (by omega)]

theorem keysFrom_ge {k n j : Nat} (h : j ∈ keysFrom k n) : k ≤ j ∧ j < k + n := by
  obtain ⟨i, hi, rfl⟩ := List.mem_map.mp h
  rw [List.mem_range] at hi
  omega

/-- One object written by hardware into a scratchpad. -/
theorem writeBytes_object (s : State) (h : Ordered s) {k : Nat} (hk : spBase ≤ k) (o : BarObj) :
    Holds s (writeBytes s (PathView.start 0 s.serial) .g 0 (keysFrom k 16) o.bytes false) [(k, o)] := by
  have hhome : (keysFrom k 16).map (home s) = keysFrom k 16 :=
    (List.map_congr_left fun j hj => home_scratchpad s (hk.trans (keysFrom_ge hj).1)).trans (List.map_id _)
  have hnodup : (keysFrom k 16).Nodup := (List.nodup_range).map fun a b hab => Nat.add_left_cancel hab
  have hzip : ((keysFrom k 16).zip o.bytes).map (fun p => home s p.1) = keysFrom k 16 := by
    rw [show (fun p : Nat × Byte => home s p.1) = home s ∘ Prod.fst from rfl, ← List.map_map,
      List.map_fst_zip (by rw [keysFrom_len, o.bytes_length]), hhome]
  obtain ⟨m, hi, e, d, p, c, heq, hframe, -, hm⟩ :=
    writeBytes_keeps s (PathView.start 0 s.serial) rfl .g 0 (keysFrom k 16) o.bytes false
  have hmem : (writeBytes s (PathView.start 0 s.serial) .g 0 (keysFrom k 16) o.bytes false).mem = m := by rw [heq]
  constructor
  case ordered =>
    intro r hr
    rw [writeBytes_hist] at hr
    exact writeRun_ordered _ rfl rfl 0 _ _ s h r hr
  case frame =>
    intro j hj
    rw [hmem]
    exact hframe j (by rw [hhome]; exact hj _ (List.mem_singleton_self _))
  case objs =>
    intro q hq
    obtain rfl := List.mem_singleton.mp hq
    rw [hmem, hm]
    dsimp only
    have hget := writeRun_get (PathView.start 0 s.serial) rfl rfl 0 (s.serial + 1) ((keysFrom k 16).zip o.bytes) s h
      (by rw [hzip]; exact hnodup)
    refine List.ext_getElem (by rw [List.length_map, keysFrom_len, o.bytes_length]) fun n h1 h2 => ?_
    rw [List.length_map] at h1
    have := hget ((keysFrom k 16)[n], o.bytes[n]) (List.mem_iff_getElem.mpr ⟨n, by
      rw [List.length_zip, keysFrom_len, o.bytes_length] at *; omega, List.getElem_zip⟩)
    have hn : n < (keysFrom k 16).length := h1
    have hhn : home s (keysFrom k 16)[n] = (keysFrom k 16)[n] := home_scratchpad s (hk.trans (keysFrom_ge (List.getElem_mem hn)).1)
    rw [List.getElem_map]
    exact (congrArg (memGet _) hhn).symm.trans this

/-! ## The declared objects of a team (R103) -/

/-- A declared object in phase 0. -/
def freshObj (b : BarDecl) : BarObj :=
  ⟨BitVec.ofNat 32 b.reload, BitVec.ofNat 32 b.reload, b.arrive, b.arrive, 0#32⟩

/-- A team's declared objects with their keys. -/
def teamObjs (core base : Nat) (bars : List BarDecl) : List (Nat × BarObj) :=
  bars.map fun b => (spKey core (base + b.off), freshObj b)

/-- What is known of an object's phases is dropped. -/
def forgetObj (key : Nat) (s : State) : State :=
  { s with
    barSeen := Tab.del s.barSeen key
    landings := s.landings.map fun l => { l with objs := l.objs.filter (· != key) } }

/-- One declared object. -/
def buildBar (core base : Nat) (s : State) (b : BarDecl) : State :=
  forgetObj (spKey core (base + b.off))
    (writeBytes s (PathView.start 0 s.serial) .g 0 (keysFrom (spKey core (base + b.off)) 16) (freshObj b).bytes false)

theorem buildBars_eq (s : State) (core base : Nat) (k : Kernel) :
    buildBars s core base k = k.bars.foldl (buildBar core base) s := rfl

/-- Building objects sets memory, its records and marks, and what is known of the objects. -/
theorem buildBars_keeps (s : State) (core base : Nat) (k : Kernel) :
    ∃ m h e d p c b l, buildBars s core base k =
      { s with mem := m, hist := h, serial := e, spDirty := d, poison := p, sent := c, barSeen := b, landings := l } := by
  rw [buildBars_eq]
  refine List.foldlRecOn (motive := fun t : State => ∃ m h e d p c b l, t =
    { s with mem := m, hist := h, serial := e, spDirty := d, poison := p, sent := c, barSeen := b, landings := l }) _ _
    ⟨_, _, _, _, _, _, _, _, rfl⟩ fun t ht b _ => ?_
  obtain ⟨m, h, e, d, p, c, bs, l, rfl⟩ := ht
  obtain ⟨m', h', e', d', p', c', heq, -⟩ := writeBytes_keeps
    { s with mem := m, hist := h, serial := e, spDirty := d, poison := p, sent := c, barSeen := bs, landings := l }
    (PathView.start 0 e) rfl .g 0 (keysFrom (spKey core (base + b.off)) 16) (freshObj b).bytes false
  exact ⟨m', h', e', d', p', c', _, _, congrArg (forgetObj (spKey core (base + b.off))) heq⟩

theorem buildBars_holds (core base : Nat) (k : Kernel) (s : State) (h : Ordered s)
    (hap : (teamObjs core base k.bars).Pairwise ObjsApart) : Holds s (buildBars s core base k) (teamObjs core base k.bars) := by
  rw [buildBars_eq]
  generalize k.bars = bars at hap ⊢
  induction bars generalizing s with
  | nil => exact .nil rfl rfl h
  | cons b t ih =>
    rw [teamObjs, List.map_cons, List.pairwise_cons] at hap
    have h1 : Holds s (buildBar core base s b) [(spKey core (base + b.off), freshObj b)] :=
      (writeBytes_object s h (by unfold spKey; omega) (freshObj b)).congr rfl rfl rfl
    exact h1.append (ih _ h1.ordered hap.2) fun p hp q hq => by rw [List.mem_singleton.mp hp]; exact hap.1 q hq

end Sys2Proof.Machine
end


section
/-! PROOFS. The teams of a cluster that starts, and CLUSTER_START (R11, R12, R73, R341). -/

namespace Sys2Proof.Machine

/-! ## Grids by number -/

/-- A change of one grid that keeps its number is what a look-up of it finds. -/
theorem find?_modified (l : List Grid) (id : Nat) (f : Grid → Grid) (hf : ∀ g, (f g).id = g.id) :
    (l.map fun g => if g.id = id then f g else g).find? (fun g => g.id == id) = (l.find? fun g => g.id == id).map f := by
  induction l with
  | nil => rfl
  | cons g t ih =>
    rw [List.map_cons, List.find?_cons, List.find?_cons, ih]
    by_cases h : g.id = id
    · simp [h, hf]
    · rw [if_neg h, beq_eq_false_iff_ne.mpr h]

theorem gridById_modGrid (s : State) (id : Nat) (f : Grid → Grid) (hf : ∀ g, (f g).id = g.id) :
    gridById (modGrid s id f) id = (gridById s id).map f := find?_modified s.grids id f hf

/-! ## The teams of a cluster outside a redundant group -/

section
variable (g : Grid) (m : Image) (k : Kernel) (hw c : Nat) (even : Option (Nat × Nat)) (entry : DWord) (cycle n0 : Nat)

/-- The number of a team, its warps' numbers following it. -/
def teamNumber (i : Nat) : Nat := n0 + i * (1 + k.warps)

/-- The team at a spot. -/
def teamAt (p : Spot × Nat) : Team := newTeam (teamNumber k n0 p.2) g k hw c p.2 p.1 none

/-- The warps of the team at a spot. -/
def warpsAt (p : Spot × Nat) : List Warp := p.1.slots.zipIdx.map fun q =>
  newWarp g m k hw c even ⟨teamNumber k n0 p.2 + 1 + q.2, teamNumber k n0 p.2, p.2, q.2, p.1, q.1⟩ none entry cycle

/-- A grid with these warps more. -/
def joinWarps (ws : List Warp) (y : Grid) : Grid := { y with members := y.members ++ ws.map (·.id), live := y.live + ws.length }

/-- The declared objects of the team at a spot. -/
def objsAt (x : Spot) : List (Nat × BarObj) := teamObjs (hw * 4 + x.core) x.base k.bars

/-- What the start of teams at these spots has done. -/
structure TeamsStarted (l : List (Spot × Nat)) (s t : State) : Prop where
  teams : t.teams = s.teams ++ l.map (teamAt g k hw c n0)
  others : t.others = s.others ++ l.flatMap (warpsAt g m k hw c even entry cycle n0)
  warp : t.warp = s.warp
  cycles : t.cycle = s.cycle
  grid : ∀ y, gridById s g.id = some y → ∃ ids, gridById t g.id =
    some { y with members := ids, live := y.live + (l.map (·.1.slots.length)).sum }
  holds : Ordered s → (l.flatMap fun p => objsAt k hw p.1).Pairwise ObjsApart → Holds s t (l.flatMap fun p => objsAt k hw p.1)

theorem startTeam_started (x : Spot) (i : Nat) (s : State) :
    TeamsStarted g m k hw c even entry s.cycle n0 [(x, i)] s
      (startTeam { s with nextId := s.nextId + 1 + k.warps } g m k hw c i even x entry (teamNumber k n0 i)
        (teamNumber k n0 i + 1) none) := by
  obtain ⟨me, h, e, d, p, sn, b, l, hb⟩ :=
    buildBars_keeps { s with nextId := s.nextId + 1 + k.warps } (hw * 4 + x.core) x.base k
  have hholds := buildBars_holds (hw * 4 + x.core) x.base k { s with nextId := s.nextId + 1 + k.warps }
  unfold startTeam
  dsimp only
  rw [hb] at hholds ⊢
  simp only [Option.isSome_none, Bool.false_eq_true, if_false]
  constructor
  case teams => rfl
  case others => simp [warpsAt]
  case warp => rfl
  case cycles => rfl
  case grid =>
    intro y hy
    refine ⟨y.members ++ (warpsAt g m k hw c even entry s.cycle n0 (x, i)).map (·.id),
      (find?_modified s.grids g.id (joinWarps (warpsAt g m k hw c even entry s.cycle n0 (x, i))) fun _ => rfl).trans ?_⟩
    rw [show List.find? (fun z => z.id == g.id) s.grids = some y from hy]
    simp [joinWarps, warpsAt]
  case holds =>
    intro ho hap
    rw [List.flatMap_singleton] at hap ⊢
    exact (hholds ho hap).congr rfl rfl rfl

theorem TeamsStarted.append {a b : List (Spot × Nat)} {s t u : State}
    (h1 : TeamsStarted g m k hw c even entry cycle n0 a s t) (h2 : TeamsStarted g m k hw c even entry cycle n0 b t u) :
    TeamsStarted g m k hw c even entry cycle n0 (a ++ b) s u where
  teams := by rw [h2.teams, h1.teams, List.map_append, List.append_assoc]
  others := by rw [h2.others, h1.others, List.flatMap_append, List.append_assoc]
  warp := h2.warp.trans h1.warp
  cycles := h2.cycles.trans h1.cycles
  grid y hy := by
    obtain ⟨ids, h⟩ := h1.grid y hy
    obtain ⟨ids', h'⟩ := h2.grid _ h
    refine ⟨ids', ?_⟩
    rw [h', List.map_append, List.sum_append, Nat.add_assoc]
  holds ho hap := by
    rw [List.flatMap_append, List.pairwise_append] at hap
    obtain ⟨ha, hb, hab⟩ := hap
    have ht := h1.holds ho ha
    rw [List.flatMap_append]
    exact ht.append (h2.holds ht.ordered hb) hab

theorem startPlain_started (l : List Spot) (i : Nat) (s : State) (hn : s.nextId = teamNumber k n0 i) :
    TeamsStarted g m k hw c even entry s.cycle n0 (l.zipIdx i) s (startPlain g m k hw c even entry l i s) := by
  induction l generalizing i s with
  | nil => exact ⟨by simp [startPlain], by simp [startPlain], rfl, rfl, fun y hy => ⟨_, hy⟩, fun ho _ => .nil rfl rfl ho⟩
  | cons x t ih =>
    have h1 := startTeam_started g m k hw c even entry n0 x i s
    rw [← hn] at h1
    rw [startPlain, List.zipIdx_cons]
    generalize hs' : startTeam { s with nextId := s.nextId + 1 + k.warps } g m k hw c i even x entry s.nextId (s.nextId + 1)
      none = s' at h1
    have hid : s'.nextId = teamNumber k n0 (i + 1) := by
      obtain ⟨me, h, e, d, p, sn, b, l, hb⟩ :=
        buildBars_keeps { s with nextId := s.nextId + 1 + k.warps } (hw * 4 + x.core) x.base k
      rw [← hs']
      unfold startTeam
      dsimp only
      rw [hb]
      simp only [Option.isSome_none, Bool.false_eq_true, if_false, hn, teamNumber]
      ring
    have h2 := ih (i + 1) s' hid
    rw [h1.cycles] at h2
    exact h1.append g m k hw c even entry s.cycle n0 h2

end

end Sys2Proof.Machine
end


section
/-! PROOFS. CLUSTER_START (R11, R12, R73, R341): the cluster that starts, its teams, its warps and its barrier objects. -/

namespace Sys2Proof.Machine

/-! ## The cluster as a whole -/

/-- The next cluster starts: its teams with their warps, and the count of clusters. -/
theorem startCluster_started (s : State) (g : Grid) (m : Image) (k : Kernel) (hw : Nat) (l : List Spot) :
    ∃ u, TeamsStarted g m k hw g.started none (accessHandler s g.ctx g.lr.tvec).1 s.cycle s.nextId l.zipIdx s u ∧
      startCluster s g m k false none hw l = modGrid u g.id fun y =>
        { y with started := g.started + 1, ran := if y.ran.contains hw then y.ran else y.ran ++ [hw] } := by
  obtain ⟨c, hc⟩ := accessHandler_keeps s g.ctx g.lr.tvec
  have h := startPlain_started g m k hw g.started none (accessHandler s g.ctx g.lr.tvec).1 s.nextId l 0 { s with tlb := c }
    (by simp [teamNumber])
  have hstart : startCluster s g m k false none hw l = modGrid (startPlain g m k hw g.started none
      (accessHandler s g.ctx g.lr.tvec).1 l 0 (accessHandler s g.ctx g.lr.tvec).2) g.id fun y =>
        { y with started := g.started + 1, ran := if y.ran.contains hw then y.ran else y.ran ++ [hw] } := rfl
  rw [hc] at hstart
  exact ⟨_, ⟨h.teams, h.others, h.warp, h.cycles, h.grid, fun ho hap => (h.holds ho hap).congr rfl rfl rfl⟩, hstart⟩

/-- A grid whose clusters may start: CLUSTER_START starts the next one where a package cluster can take it. -/
theorem exec_clusterStart {s : State} {g : Grid} {m : Image} {k : Kernel} (hg : gridById s g.id = some g)
    (hk : g.kern s = some (m, k)) (hended : g.ended = false) (hrung : g.rung = none) (hstarted : g.started < g.lr.nclust)
    (heven : g.lr.even = false) (hmode : modeFits s g.ctx = true) (hred : isRedundant s g.ctx = false) (hwork : g.work = none) :
    (chooseCluster s k false = none → exec (.clusterStart g.id) s = .next s) ∧
      ∀ hw l, chooseCluster s k false = some hw → placeCluster s hw k false = some l →
        exec (.clusterStart g.id) s = .next (returnContext (startCluster s g m k false none hw l) g.ctx) := by
  have hrun : exec (.clusterStart g.id) s =
      .next (((startNextCluster s g.id none).map fun t => returnContext t g.ctx).getD s) := by
    show execClusterStart g.id s = _
    unfold execClusterStart
    simp only [hg, hended, hrung, hmode, heven, hwork, Option.isSome_none, Bool.false_or, Bool.not_true, Bool.or_false,
      decide_eq_true_eq, Nat.not_le.mpr hstarted, if_false, Bool.false_eq_true]
    rw [startAll]
    rcases startNextCluster s g.id none with _ | t <;> rfl
  have hnext : startNextCluster s g.id none = (chooseCluster s k false).bind fun hw =>
      (placeCluster s hw k false).map (startCluster s g m k false none hw) := by
    unfold startNextCluster
    simp only [hg, hk, hred]
    rcases chooseCluster s k false with _ | hw <;> rfl
  rw [hrun, hnext]
  refine ⟨fun h => ?_, fun hw l h hp => ?_⟩
  · rw [h]; rfl
  · rw [h, Option.bind_some, hp]; rfl

/-! ## Its teams and their warps -/

theorem teamNumber_inj {k : Kernel} {n0 i j : Nat} (h : teamNumber k n0 i = teamNumber k n0 j) : i = j := by
  unfold teamNumber at h
  exact Nat.eq_of_mul_eq_mul_right (by omega) (Nat.add_left_cancel h)

/-- One place of a list by its index. -/
theorem flatMap_at {α β : Type} (f : α × Nat → List β) (l : List α) (i n : Nat) (x : α) (h : l[n]? = some x) :
    (l.zipIdx i).flatMap (fun p => if p.2 = i + n then f p else []) = f (x, i + n) := by
  induction l generalizing i n with
  | nil => cases h
  | cons a t ih =>
    rw [List.zipIdx_cons, List.flatMap_cons]
    cases n with
    | zero =>
      obtain rfl : a = x := by simpa using h
      rw [if_pos (by rfl)]
      have : (t.zipIdx (i + 1)).flatMap (fun p => if p.2 = i + 0 then f p else []) = [] := by
        refine List.flatMap_eq_nil_iff.mpr fun p hp => if_neg ?_
        have := (List.mem_zipIdx hp).1
        omega
      rw [this, List.append_nil]; rfl
    | succ n =>
      rw [if_neg (by dsimp only; omega), List.nil_append, show i + (n + 1) = i + 1 + n by omega]
      exact ih (i + 1) n h

/-- The warps of one of the teams, in the order of their slots. -/
theorem warpsAt_team (g : Grid) (m : Image) (k : Kernel) (hw c : Nat) (even : Option (Nat × Nat)) (entry : DWord)
    (cycle n0 n : Nat) (l : List Spot) (x : Spot) (h : l[n]? = some x) :
    (l.zipIdx.flatMap (warpsAt g m k hw c even entry cycle n0)).filter (fun w => w.team == teamNumber k n0 n) =
      warpsAt g m k hw c even entry cycle n0 (x, n) := by
  have hone (p : Spot × Nat) : (warpsAt g m k hw c even entry cycle n0 p).filter (fun w => w.team == teamNumber k n0 n) =
      if p.2 = 0 + n then warpsAt g m k hw c even entry cycle n0 p else [] := by
    have hteam : ∀ w ∈ warpsAt g m k hw c even entry cycle n0 p, w.team = teamNumber k n0 p.2 := by
      intro w hw
      obtain ⟨q, -, rfl⟩ := List.mem_map.mp hw
      rfl
    split
    · rename_i hp
      rw [Nat.zero_add] at hp
      exact List.filter_eq_self.mpr fun w hw => by rw [hteam w hw, hp, beq_self_eq_true]
    · rename_i hp
      rw [Nat.zero_add] at hp
      refine List.filter_eq_nil_iff.mpr fun w hw => ?_
      rw [hteam w hw, beq_iff_eq]
      exact fun heq => hp (teamNumber_inj heq)
  rw [List.filter_flatMap]
  simp only [hone]
  rw [flatMap_at _ l 0 n x h, Nat.zero_add]

/-- Scalar registers at launch (R73). -/
theorem launchRegs_getD (args : DWord) (base : Nat) :
    (launchRegs args base (0, 0)).getD 2 0#64 = args ∧
      (launchRegs args base (0, 0)).getD 3 0#64 = BitVec.ofNat 64 (2 ^ 56 + base) ∧
      ∀ n, n < 32 → n ≠ 2 → n ≠ 3 → (launchRegs args base (0, 0)).getD n 0#64 = 0#64 := by
  refine ⟨rfl, rfl, fun n hn h2 h3 => ?_⟩
  unfold launchRegs
  rw [vec_getD, Vector.getElem?_eq_getElem hn, Option.getD_some, Vector.getElem_set, Vector.getElem_set,
    Vector.getElem_set_ne _ _ h3.symm, Vector.getElem_set_ne _ _ h2.symm, Vector.getElem_replicate]
  split_ifs <;> rfl

/-! ## Its barrier objects -/

/-- Declared objects of teams on distinct cores lie apart. -/
theorem objs_apart {k : Kernel} {hw : Nat} {l : List Spot} (hcore : (l.map (·.core)).Nodup)
    (hbase : ∀ x ∈ l, x.base + k.scr ≤ 2 ^ 19) (hoff : (k.bars.map (·.off)).Nodup)
    (hbar : ∀ b ∈ k.bars, b.off % 16 = 0 ∧ b.off + 16 ≤ k.scr) :
    (l.zipIdx.flatMap fun p => objsAt k hw p.1).Pairwise ObjsApart := by
  have hfst : (l.zipIdx.flatMap fun p => objsAt k hw p.1) = l.flatMap (objsAt k hw) := by
    rw [← List.flatMap_map, List.zipIdx_map_fst]
  have hkey (x : Spot) (b : BarDecl) (j : Nat) (h : j ∈ keysFrom (spKey (hw * 4 + x.core) (x.base + b.off)) 16) :
      spBase + (hw * 4 + x.core) * 2 ^ 19 + x.base + b.off ≤ j ∧ j < spBase + (hw * 4 + x.core) * 2 ^ 19 + x.base + b.off + 16 := by
    have := keysFrom_ge h
    unfold spKey at this
    omega
  rw [hfst, List.pairwise_flatMap]
  refine ⟨fun x hx => ?_, ?_⟩
  · unfold objsAt teamObjs
    rw [List.pairwise_map]
    refine ((List.pairwise_map.mp hoff).imp_of_mem ?_)
    intro a b ha hb hab j hj hj'
    have h1 := hkey x a j hj
    have h2 := hkey x b j hj'
    have := (hbar a ha).1
    have := (hbar b hb).1
    omega
  · refine (List.pairwise_map.mp hcore).imp_of_mem ?_
    intro x y hx hy hxy p hp q hq j hj hj'
    obtain ⟨a, ha, rfl⟩ := List.mem_map.mp hp
    obtain ⟨b, hb, rfl⟩ := List.mem_map.mp hq
    have h1 := hkey x a j hj
    have h2 := hkey y b j hj'
    have := hbase x hx
    have := hbase y hy
    have := (hbar a ha).2
    have := (hbar b hb).2
    rcases Nat.lt_or_gt_of_ne hxy with h | h <;> omega

/-- An object that a state holds is what its bytes are read as. -/
theorem Holds.objAt {s t : State} {l : List (Nat × BarObj)} (h : Holds s t l) {key : Nat} {o : BarObj} (hm : (key, o) ∈ l)
    (hp : o.pendArr < 2 ^ 16) (he : o.expArr < 2 ^ 16) : objAt t key = o := by
  show BarObj.parse ((keysFrom key 16).map (memGet t.mem)) = o
  rw [h.objs _ hm, o.parse_bytes hp he]

/-! ## The statement -/

/-- R11, R12: where the teams of a cluster stand. -/
theorem clusterPlaced (s : State) (hw : Nat) (kern : Kernel) (red : Bool) (l : List Spot)
    (h : placeCluster s hw kern red = some l) :
    l.length = (if red then 2 * kern.teams else kern.teams) ∧
    l.map (·.core) = ([0, 1, 2, 3].filter fun c => (coreAt s (hw * 4 + c)).wear != .retired).take l.length ∧
    ∀ x ∈ l,
      let used := seatsUsed s hw x.core
      x.slots.length = kern.warps ∧ x.slots.Nodup ∧ (∀ n ∈ x.slots, n < 32 ∧ ∀ u ∈ used, u.1 ≠ n) ∧
      (∀ p, p < 4 → x.slots.any (fun n => n / 8 == p) = true →
        ((used ++ x.slots.map (·, kern.units)).filter fun u => u.1 / 8 == p).foldl (fun n u => n + 8 * u.2) 0 ≤ 1024) ∧
      x.base + (kern.scr + 2048 * kern.warps) ≤ 2 ^ 19 ∧
      (∀ r ∈ rangesUsed s hw x.core, x.base + (kern.scr + 2048 * kern.warps) ≤ r.1 ∨ r.1 + r.2 ≤ x.base) ∧
      ∀ n, n < kern.warps → ∀ p, p < 4 →
        let now := used ++ (x.slots.take n).map (·, kern.units)
        let free (p : Nat) : Nat := ((List.range 8).filter fun j => !now.any fun u => u.1 == 8 * p + j).length
        free p ≤ free (x.slots.getD n 0 / 8) ∧ (p < x.slots.getD n 0 / 8 → free p < free (x.slots.getD n 0 / 8)) := by
  obtain ⟨hlen, hcore, hteam⟩ := placeCluster_spots h
  refine ⟨hlen, hcore, fun x hx => ?_⟩
  obtain ⟨-, hslots, hbase, hrange⟩ := placeTeam_spot (hteam x hx)
  refine ⟨hslots.length, hslots.nodup, hslots.free, fun p _ hp => ?_, hbase, hrange, fun n hn p hp => ?_⟩
  · exact hslots.regs p (by simpa using hp)
  · have := hslots.most n hn p hp
    simpa only [freeSlots_length] using this

/-- Settles O38: a placement is spots within what is free (`clusterPlaced`); the cluster that starts is the first that none
beats, and its teams, warps and objects are those that the launch makes spot by spot (`startPlain_started`). -/
theorem clusterStart : Obligations.ClusterStart := by
  refine ⟨clusterPlaced, ?_⟩
  intro s g m kern hg hk hended hrung hstarted heven hmode hred hwork
  obtain ⟨hnone, hsome⟩ := exec_clusterStart hg hk hended hrung hstarted heven hmode hred hwork
  refine ⟨fun hno => hnone (chooseCluster_none hno), fun ⟨hw0, hok0⟩ => ?_⟩
  obtain ⟨hw, hchoose⟩ := chooseCluster_isSome hok0
  obtain ⟨hok, hleast, hlow⟩ := chooseCluster_some hchoose
  obtain ⟨l, hplace⟩ := eligible_placed hok.2
  obtain ⟨u, hu, hstart⟩ := startCluster_started s g m kern hw l
  have hexec := hsome hw l hchoose hplace
  rw [hstart] at hexec
  obtain ⟨c, q, a, hret⟩ := returnContext_keeps (modGrid u g.id fun y =>
    { y with started := g.started + 1, ran := if y.ran.contains hw then y.ran else y.ran ++ [hw] }) g.ctx
  rw [hret] at hexec
  obtain ⟨hlen, hcore, hspot⟩ := clusterPlaced s hw kern false l hplace
  obtain ⟨ids, hgrid⟩ := hu.grid g hg
  have hslots : (l.zipIdx.map (·.1.slots.length)).sum = l.length * kern.warps := by
    rw [show (fun p : Spot × Nat => p.1.slots.length) = (fun x : Spot => x.slots.length) ∘ Prod.fst from rfl, ← List.map_map,
      List.zipIdx_map_fst, List.map_congr_left fun x hx => (hspot x hx).1, List.map_const', List.sum_replicate, smul_eq_mul]
  have hfound := (gridById_modGrid u g.id (fun y =>
    { y with started := g.started + 1, ran := if y.ran.contains hw then y.ran else y.ran ++ [hw] }) fun _ => rfl).trans
      (congrArg (Option.map _) hgrid)
  refine ⟨_, hw, l, _, _, _, hexec, hok, hleast, hlow, hplace, hfound, rfl, ?_, ?_, hu.teams, hu.others, hu.warp, ?_, ?_, ?_, ?_⟩
  · dsimp only
    split
    · exact List.contains_iff_mem.mp ‹_›
    · exact List.mem_append_right _ (List.mem_singleton_self _)
  · exact congrArg (g.live + ·) hslots
  · rw [List.length_map, List.length_zipIdx]
  · intro n x tm hx htm
    rw [List.getElem?_map, List.getElem?_zipIdx, hx, Option.map_some, Option.map_some, Nat.zero_add] at htm
    obtain rfl := Option.some.inj htm
    refine ⟨rfl, rfl, rfl, rfl, rfl, rfl, rfl, rfl, rfl, rfl, ?_⟩
    refine (congrArg (List.map fun w => (w.index, w.slot)) (warpsAt_team g m kern hw g.started none (accessHandler s g.ctx g.lr.tvec).1 s.cycle s.nextId n l x
      hx)).trans ?_
    unfold warpsAt
    rw [List.map_map]
    rfl
  · intro w hw
    obtain ⟨p, hp, hwp⟩ := List.mem_flatMap.mp hw
    obtain ⟨r, -, rfl⟩ := List.mem_map.mp hwp
    obtain ⟨hargs, hbase, hrest⟩ := launchRegs_getD g.lr.args p.1.base
    obtain ⟨hnull, hentry⟩ := accessHandler_entry s g.ctx g.lr.tvec
    refine ⟨rfl, rfl, rfl, rfl, ?_, rfl, rfl, rfl, rfl, rfl, rfl, rfl, hargs, hnull, hentry, ?_, hrest⟩
    · simp only [newWarp, hrung]
    · exact ⟨_, List.mem_map_of_mem hp, rfl, hbase⟩
  · intro ho hoff hbar x hx b hb
    have hcores : (l.map (·.core)).Nodup := by
      rw [hcore]
      exact ((List.Nodup.filter _ (by decide)).sublist (List.take_sublist ..))
    have hholds := hu.holds ho (objs_apart hcores (fun x hx => by have := (hspot x hx).2.2.2.2.1; omega) hoff
      fun b hb => ⟨(hbar b hb).1, (hbar b hb).2.1⟩)
    have hmem : (spKey (hw * 4 + x.core) (x.base + b.off), freshObj b) ∈ l.zipIdx.flatMap fun p => objsAt kern hw p.1 := by
      obtain ⟨n, hn⟩ := List.mem_iff_getElem?.mp hx
      refine List.mem_flatMap.mpr ⟨(x, 0 + n), List.mem_of_getElem? (i := n) ?_, List.mem_map_of_mem hb⟩
      rw [List.getElem?_zipIdx, hn]
      rfl
    exact hholds.objAt hmem (hbar b hb).2.2.1 (hbar b hb).2.2.1

end Sys2Proof.Machine
end


section
/-! PROOFS. PreemptionAndTests: two teams of one number. -/

namespace Sys2Proof.Machine

/-- The only team of package cluster 1. Its number is 1, and it has no stream. -/
def restingTeam : Team where
  id := 1
  grid := 1
  cluster := 0
  teamIx := 0
  hw := 1
  core := 0
  warps := 0
  base := 0
  total := 0
  spmap := Vector.replicate 8 0#64
  activeFmt := 0#4
  shadowFmt := 0#4
  loader := none
  slots := []
  nf := false
  fd := false
  cf := false
  trailing := false
  partner := none
  held := []
  fwd := []

/-- A stream of 16 row steps that runs. -/
def runningOp : StreamOp := ⟨.running, 0#4, 0, 0, 0, 16, 0, PathView.start 0 0, none⟩

/-- A team of another grid on package cluster 2, of the same number, whose stream runs. -/
def streamingTeam : Team := { restingTeam with grid := 2, hw := 2, slots := [runningOp] }

/-- The machine after reset with both teams, the pre-emption of cluster 1 asked for. -/
def twinTeams : State := { State.reset with teams := [restingTeam, streamingTeam], preemptAsked := [1] }

/-- The save of cluster 1 takes its team away, and what brings the streams of that number to rest reaches the team of
cluster 2: its running stream waits. -/
theorem preempted_twinTeams : (moved twinTeams (exec (.gangPreemption 1) twinTeams)).teams =
    [{ streamingTeam with slots := [{ runningOp with state := .waiting }] }] := rfl

/-- Refutes O40: its third clause asks that a save leaves every team of another cluster as it was, and does not ask that
the numbers of teams differ; the model brings streams to rest by the number of their team, so that where a team of
another cluster has the saved team's number, its running stream is set to wait. -/
theorem not_preemptionAndTests : ¬ Obligations.PreemptionAndTests := by
  unfold Obligations.PreemptionAndTests
  rintro ⟨-, -, hsave, -⟩
  have hnone : ∀ w ∈ allWarps twinTeams, w.hw ≠ 1 ∧ w.grid ≠ 1 := by
    intro w hw
    obtain rfl := List.mem_singleton.mp hw
    exact ⟨by decide, by decide⟩
  obtain ⟨t, x, u, ht, -, -, -, hteams, -⟩ := hsave 1 twinTeams restingTeam (List.mem_singleton.mpr rfl) List.not_mem_nil rfl
    (by decide) (fun w hw => ⟨fun h => absurd h (hnone w hw).1, fun h => absurd h.1 (hnone w hw).2⟩)
    (fun w hw h => absurd h (hnone w hw).1) rfl rfl (fun c hc => absurd hc List.not_mem_nil)
    (fun d hd => absurd hd List.not_mem_nil) rfl (fun b hb => absurd hb List.not_mem_nil)
  have hleft := preempted_twinTeams
  rw [ht] at hleft
  exact absurd (hleft.symm.trans hteams) (by decide)

end Sys2Proof.Machine
end

section
/-! PROOFS. Rounding (R48): the units of the last place between which a magnitude lies, the codes of a format's grid, and the
conversions (R51, R52, R158, R159). -/

namespace Sys2Proof.Machine

/-! ## Rounding to an integer -/

/-- Whether a quotient q with remainder r by d goes up to q + 1 under a rounding mode (R48). -/
def goesUp (rm : Nat) (neg : Bool) (d q r : Nat) : Prop :=
  rm = 0 ∧ (d < 2 * r ∨ d = 2 * r ∧ q % 2 = 1) ∨ rm = 2 ∧ neg = false ∧ r ≠ 0 ∨ rm = 3 ∧ neg = true ∧ r ≠ 0

/-- A magnitude far below the last place is less than half of it. -/
theorem far_below {mag shift : Nat} (h : mag.log2 + 2 < shift) : 2 * mag < 2 ^ shift := by
  calc 2 * mag < 2 * 2 ^ (mag.log2 + 1) := by have := Nat.lt_log2_self (n := mag); omega
    _ = 2 ^ (mag.log2 + 2) := by ring
    _ ≤ 2 ^ shift := Nat.pow_le_pow_right (by norm_num) h.le

/-- The two integers between which `roundShift` chooses, and its choice. -/
theorem roundShift_choice {rm : Nat} (hrm : rm < 4) (neg : Bool) (mag shift : Nat) :
    goesUp rm neg (2 ^ shift) (mag / 2 ^ shift) (mag % 2 ^ shift) ∧
        roundShift rm neg mag shift false = mag / 2 ^ shift + 1 ∨
      ¬ goesUp rm neg (2 ^ shift) (mag / 2 ^ shift) (mag % 2 ^ shift) ∧
        roundShift rm neg mag shift false = mag / 2 ^ shift := by
  unfold roundShift goesUp
  by_cases hfar : mag.log2 + 2 < shift
  · have hsmall := far_below hfar
    have hq : mag / 2 ^ shift = 0 := Nat.div_eq_of_lt (by omega)
    have hr : mag % 2 ^ shift = mag := Nat.mod_eq_of_lt (by omega)
    have h0 : ¬ (2 ^ shift < 2 * mag) := by omega
    simp only [hq, hr, hfar, decide_true, if_true]
    interval_cases rm <;> cases neg <;> simp [h0] <;> omega
  · simp only [hfar, decide_false, Bool.false_eq_true, if_false, Nat.shiftRight_eq_div_pow, Nat.testBit_zero]
    interval_cases rm <;> cases neg <;> simp <;> omega

/-- x, in units of u, rounded to n under a mode: n or the unit below x, whichever the mode names (R48). -/
def RoundedTo (rm : Nat) (neg : Bool) (x u : ℚ) (n : Nat) : Prop :=
  n * u ≤ x ∧ x < (n + 1) * u ∧ (rm = 0 → 2 * x ≤ (2 * n + 1) * u ∧ (2 * x = (2 * n + 1) * u → n % 2 = 0)) ∧
    (rm = 2 ∧ neg = false ∨ rm = 3 ∧ neg = true → x = n * u) ∨
  ∃ q : Nat, n = q + 1 ∧ q * u < x ∧ x < (q + 1) * u ∧ rm ≠ 1 ∧ (rm = 2 → neg = false) ∧ (rm = 3 → neg = true) ∧
    (rm = 0 → (2 * q + 1) * u ≤ 2 * x ∧ (2 * x = (2 * q + 1) * u → q % 2 = 1))

theorem roundedTo_exact (rm : Nat) (neg : Bool) {u : ℚ} (hu : 0 < u) (n : Nat) : RoundedTo rm neg (n * u) u n :=
  .inl ⟨le_rfl, by linarith, fun _ => ⟨by linarith, fun h => absurd h (by intro h; linarith)⟩, fun _ => rfl⟩

theorem roundShift_roundedTo {rm : Nat} (hrm : rm < 4) (neg : Bool) (mag shift : Nat) {u : ℚ} (hu : 0 < u) :
    RoundedTo rm neg (mag * u) (2 ^ shift * u) (roundShift rm neg mag shift false) := by
  have hlt : mag % 2 ^ shift < 2 ^ shift := Nat.mod_lt _ (by positivity)
  have hmag : (mag : ℚ) * u = (mag / 2 ^ shift : Nat) * (2 ^ shift * u) + (mag % 2 ^ shift : Nat) * u := by
    conv_lhs => rw [← Nat.div_add_mod mag (2 ^ shift)]
    push_cast; ring
  have hd : (2 ^ shift : ℚ) = (2 ^ shift : Nat) := by push_cast; rfl
  have hc := roundShift_choice hrm neg mag shift
  rw [hmag, hd]
  generalize roundShift rm neg mag shift false = n at *
  generalize mag / 2 ^ shift = q at *
  generalize mag % 2 ^ shift = r at *
  generalize 2 ^ shift = d at *
  have le {a b : Nat} : (a : ℚ) * u ≤ b * u ↔ a ≤ b := by rw [mul_le_mul_iff_left₀ hu]; exact Nat.cast_le
  have lt {a b : Nat} : (a : ℚ) * u < b * u ↔ a < b := by rw [mul_lt_mul_iff_left₀ hu]; exact Nat.cast_lt
  have hr0 : (0 : ℚ) ≤ r * u := by positivity
  have hrd := (lt (a := r) (b := d)).mpr hlt
  rcases hc with ⟨hup, rfl⟩ | ⟨hup, rfl⟩
  · unfold goesUp at hup
    have hr : (0 : ℚ) < r * u := by simpa using (lt (a := 0) (b := r)).mpr (by omega)
    refine .inr ⟨q, rfl, by linarith, by linarith, by omega, ?_, ?_, fun h0 => ?_⟩
    · rintro rfl; exact (by simpa using hup : neg = false ∧ _).1
    · rintro rfl; exact (by simpa using hup : neg = true ∧ _).1
    · have h := le (a := d) (b := 2 * r)
      have h' := lt (a := d) (b := 2 * r)
      push_cast at h h'
      refine ⟨by linarith [h.mpr (by omega)], fun he => ?_⟩
      have : ¬ d < 2 * r := fun hl => by linarith [h'.mpr hl]
      omega
  · unfold goesUp at hup
    refine .inl ⟨by linarith, by linarith, fun h0 => ?_, fun h => ?_⟩
    · have h := le (a := 2 * r) (b := d)
      have h' := lt (a := 2 * r) (b := d)
      push_cast at h h'
      refine ⟨by linarith [h.mpr (by omega)], fun he => ?_⟩
      have : ¬ 2 * r < d := fun hl => by linarith [h'.mpr hl]
      omega
    · have : r = 0 := by_contra fun h0 => hup (.inr (h.imp (fun h => ⟨h.1, h.2, h0⟩) fun h => ⟨h.1, h.2, h0⟩))
      simp [this]

/-! ## The grid of a format -/

/-- The code of q units of the last place at scale L, carried into the next binade where q is 2^(m+1). -/
theorem gridValue_scaled (f : FloatFmt) (L q : Nat) (hq : q ≤ 2 ^ (f.m + 1)) (hL : 0 < L → 2 ^ f.m ≤ q) :
    gridValue f (L * 2 ^ f.m + q) = q * (2 : ℚ) ^ (f.qmin + L) := by
  have hm : 0 < 2 ^ f.m := by positivity
  have h2 : (2 : ℚ) ≠ 0 := by norm_num
  rw [pow_succ] at hq
  unfold gridValue
  by_cases h0 : q < 2 ^ f.m
  · obtain rfl : L = 0 := by by_contra h; exact absurd (hL (by omega)) (by omega)
    simp [Nat.div_eq_of_lt h0]
  · obtain ⟨r, rfl⟩ := Nat.exists_eq_add_of_le (not_lt.mp h0)
    by_cases hr : r < 2 ^ f.m
    · have hd : (L * 2 ^ f.m + (2 ^ f.m + r)) = 2 ^ f.m * (L + 1) + r := by ring
      have hdiv : (L * 2 ^ f.m + (2 ^ f.m + r)) / 2 ^ f.m = L + 1 := by
        rw [hd, Nat.mul_add_div hm, Nat.div_eq_of_lt hr, add_zero]
      have hmod : (L * 2 ^ f.m + (2 ^ f.m + r)) % 2 ^ f.m = r := by rw [hd, Nat.mul_add_mod, Nat.mod_eq_of_lt hr]
      rw [hdiv, hmod, if_neg (by omega)]
      push_cast
      rw [show f.qmin + ((L : Int) + 1) - 1 = f.qmin + L by ring, add_comm (r : ℚ)]
    · obtain rfl : r = 2 ^ f.m := by omega
      have hd : (L * 2 ^ f.m + (2 ^ f.m + 2 ^ f.m)) = 2 ^ f.m * (L + 2) := by ring
      rw [hd, Nat.mul_div_cancel_left _ hm, Nat.mul_mod_right, if_neg (by omega)]
      push_cast
      rw [show f.qmin + ((L : Int) + 2) - 1 = f.qmin + L + 1 by ring, zpow_add_one₀ h2]
      ring

/-- A magnitude lies in the binade of its binary logarithm. -/
theorem mag_bounds {mag : Nat} (h : mag ≠ 0) (exp : Int) :
    (2 : ℚ) ^ (exp + mag.log2) ≤ mag * (2 : ℚ) ^ exp ∧ mag * (2 : ℚ) ^ exp < (2 : ℚ) ^ (exp + mag.log2 + 1) := by
  have hlo : ((2 ^ mag.log2 : Nat) : ℚ) ≤ mag := by exact_mod_cast Nat.log2_self_le h
  have hhi : (mag : ℚ) < (2 ^ (mag.log2 + 1) : Nat) := by exact_mod_cast Nat.lt_log2_self
  push_cast at hlo hhi
  have h2 : (2 : ℚ) ≠ 0 := by norm_num
  have hp : (0 : ℚ) < 2 ^ exp := by positivity
  rw [add_assoc, zpow_add₀ h2, zpow_add₀ h2, mul_comm (mag : ℚ)]
  refine ⟨mul_le_mul_of_nonneg_left (by exact_mod_cast hlo) hp.le, mul_lt_mul_of_pos_left (by exact_mod_cast hhi) hp⟩

/-- The exponent of the last place that a magnitude is rounded to (R48). -/
def lastPlace (f : FloatFmt) (mag : Nat) (exp : Int) : Int := max f.qmin (exp + mag.log2 - f.m)

/-- A rounded magnitude is a whole number of units of its last place, at most 2^(m+1) of them and, above the subnormal
range, at least 2^m with the unit below it. -/
theorem roundCode_spec (f : FloatFmt) {rm : Nat} (hrm : rm < 4) (neg : Bool) {mag : Nat} (h0 : mag ≠ 0) (exp : Int) :
    ∃ n, roundCode f rm neg mag exp false = (lastPlace f mag exp - f.qmin).toNat * 2 ^ f.m + n ∧
      RoundedTo rm neg (mag * (2 : ℚ) ^ exp) ((2 : ℚ) ^ lastPlace f mag exp) n := by
  have h2 : (2 : ℚ) ≠ 0 := by norm_num
  unfold roundCode
  simp only [h0, decide_false, Bool.false_and, Bool.false_eq_true, if_false]
  refine ⟨_, rfl, ?_⟩
  change RoundedTo _ _ _ _ (if exp ≤ lastPlace f mag exp then roundShift rm neg mag (lastPlace f mag exp - exp).toNat false
    else mag <<< (exp - lastPlace f mag exp).toNat)
  split
  · next h =>
    have := roundShift_roundedTo hrm neg mag (lastPlace f mag exp - exp).toNat (u := (2 : ℚ) ^ exp) (by positivity)
    rwa [← zpow_natCast, ← zpow_add₀ h2, Int.toNat_of_nonneg (by omega), sub_add_cancel] at this
  · next h =>
    have hx : (mag : ℚ) * 2 ^ exp = (mag <<< (exp - lastPlace f mag exp).toNat : Nat) * (2 : ℚ) ^ lastPlace f mag exp := by
      rw [Nat.shiftLeft_eq]
      push_cast
      rw [mul_assoc, ← zpow_natCast, ← zpow_add₀ h2, Int.toNat_of_nonneg (by omega), sub_add_cancel]
    rw [hx]
    exact roundedTo_exact _ _ (by positivity) _

/-- Clause Rounding for one magnitude, from the number of units n of its last place and their values. -/
theorem rounding_of_roundedTo {rm : Nat} {neg : Bool} {x u : ℚ} (hu : 0 < u) {f : FloatFmt} (hm : f.m ≠ 0) {L n : Nat} {c : Nat}
    (hc : c = L * 2 ^ f.m + n) (h : RoundedTo rm neg x u n) (hx : x < 2 ^ (f.m + 1) * u)
    (hL : 0 < L → 2 ^ f.m * u ≤ x) (hval : u = (2 : ℚ) ^ (f.qmin + L)) :
    (gridValue f c = x ∨ gridValue f c < x ∧ x < gridValue f (c + 1) ∨
        0 < c ∧ x < gridValue f c ∧ gridValue f (c - 1) < x) ∧
    (rm = 1 ∨ rm = 2 ∧ neg = true ∨ rm = 3 ∧ neg = false → gridValue f c ≤ x) ∧
    (rm = 2 ∧ neg = false ∨ rm = 3 ∧ neg = true → x ≤ gridValue f c) ∧
    (rm = 0 → (gridValue f c ≤ x → 2 * x ≤ gridValue f c + gridValue f (c + 1) ∧
        (2 * x = gridValue f c + gridValue f (c + 1) → c % 2 = 0)) ∧
      (x < gridValue f c → gridValue f (c - 1) + gridValue f c ≤ 2 * x ∧
        (2 * x = gridValue f (c - 1) + gridValue f c → c % 2 = 0))) := by
  subst hc
  have heven : 2 ^ f.m % 2 = 0 := by
    obtain ⟨k, hk⟩ := Nat.exists_eq_succ_of_ne_zero hm
    rw [hk, pow_succ, Nat.mul_mod_left]
  have hpar (q : Nat) : (L * 2 ^ f.m + q) % 2 = q % 2 := by
    rw [Nat.add_mod, Nat.mul_mod, heven]; simp
  have below {q : Nat} (h1 : q * u ≤ x) : q + 1 ≤ 2 ^ (f.m + 1) := by
    have : (q : ℚ) < (2 ^ (f.m + 1) : Nat) := by push_cast; exact lt_of_mul_lt_mul_right (h1.trans_lt hx) hu.le
    exact_mod_cast this
  have above {q : Nat} (h1 : x < (q + 1) * u) (h0 : 0 < L) : 2 ^ f.m ≤ q := by
    have : ((2 ^ f.m : Nat) : ℚ) < (q + 1 : Nat) := by push_cast; exact lt_of_mul_lt_mul_right ((hL h0).trans_lt h1) hu.le
    have : 2 ^ f.m < q + 1 := by exact_mod_cast this
    omega
  have value {q : Nat} (h1 : q * u ≤ x) (h2 : x < (q + 1) * u) : gridValue f (L * 2 ^ f.m + q) = q * u ∧
      gridValue f (L * 2 ^ f.m + (q + 1)) = (q + 1 : Nat) * u := by
    rw [hval]
    exact ⟨gridValue_scaled f L q (by have := below h1; omega) (above h2),
      gridValue_scaled f L (q + 1) (below h1) fun h => (above h2 h).trans (by omega)⟩
  rcases h with ⟨h1, h2, h3, h4⟩ | ⟨q, rfl, h1, h2, hr1, hr2, hr3, h3⟩
  · obtain ⟨e1, e2⟩ := value h1 h2
    rw [add_assoc, e1, e2, hpar]
    push_cast
    refine ⟨?_, fun _ => h1, fun h => (h4 h).le, fun h0 => ⟨fun _ => ⟨by linarith [(h3 h0).1], fun he => (h3 h0).2 (by linarith)⟩,
      fun hlt => absurd h1 (not_le.mpr hlt)⟩⟩
    rcases h1.eq_or_lt with he | hl
    · exact .inl he
    · exact .inr (.inl ⟨hl, h2⟩)
  · obtain ⟨e1, e2⟩ := value h1.le h2
    rw [show L * 2 ^ f.m + (q + 1) - 1 = L * 2 ^ f.m + q by omega, e1, e2, hpar]
    push_cast
    refine ⟨.inr (.inr ⟨by omega, h2, h1⟩), ?_, fun _ => h2.le, fun h0 => ⟨fun hle => absurd h2 (not_lt.mpr hle),
      fun _ => ⟨by linarith [(h3 h0).1], fun he => ?_⟩⟩⟩
    · rintro (h | ⟨h, hn⟩ | ⟨h, hn⟩)
      · exact absurd h hr1
      · rw [hr2 h] at hn; exact absurd hn (by decide)
      · rw [hr3 h] at hn; exact absurd hn (by decide)
    · have := (h3 h0).2 (by linarith)
      omega

theorem rounding : Clause.Rounding := by
  intro f rm neg mag exp hf hrm
  have hm : f.m ≠ 0 := by fin_cases hf <;> decide
  by_cases h0 : mag = 0
  · subst h0
    have hu : (0 : ℚ) < (2 : ℚ) ^ f.qmin := by positivity
    have hz : RoundedTo rm neg (((0 : Nat) : ℚ) * (2 : ℚ) ^ exp) ((2 : ℚ) ^ f.qmin) 0 := by
      simpa using roundedTo_exact rm neg hu 0
    exact rounding_of_roundedTo (L := 0) hu hm (by simp [roundCode]) hz (by simpa using hu) (fun h => absurd h (lt_irrefl 0)) (by simp)
  obtain ⟨n, hc, hn⟩ := roundCode_spec f hrm neg h0 exp
  obtain ⟨hlo, hhi⟩ := mag_bounds h0 exp
  have h2 : (2 : ℚ) ≠ 0 := by norm_num
  have hL : f.qmin ≤ lastPlace f mag exp := le_max_left ..
  have hp : exp + mag.log2 - f.m ≤ lastPlace f mag exp := le_max_right ..
  refine rounding_of_roundedTo (by positivity) hm hc hn ?_ (fun h => ?_) ?_
  · refine hhi.trans_le ?_
    rw [← zpow_natCast, ← zpow_add₀ h2]
    exact zpow_le_zpow_right₀ (by norm_num) (by push_cast; omega)
  · have : lastPlace f mag exp = exp + mag.log2 - f.m := by unfold lastPlace at *; omega
    rw [this, ← zpow_natCast, ← zpow_add₀ h2]
    refine le_of_eq_of_le ?_ hlo
    congr 1; ring
  · congr 1; omega

/-! ## The conversions -/

theorem half_eq (v : Word) (k : Nat) : half v k = v.toNat / 2 ^ (16 * k) % 2 ^ 16 := by
  unfold half fieldNat
  rw [Nat.shiftRight_eq_div_pow]
  congr 2; omega

theorem byteOf_eq (v : Word) (k : Nat) : byteOf v k = v.toNat / 2 ^ (8 * k) % 2 ^ 8 := by
  unfold byteOf fieldNat
  rw [Nat.shiftRight_eq_div_pow]
  congr 2; omega

theorem pack2_eq (lo hi : Nat) : pack2 lo hi = BitVec.ofNat 16 hi ++ BitVec.ofNat 16 lo := by
  apply BitVec.eq_of_toNat_eq
  simp only [pack2, BitVec.toNat_append, BitVec.toNat_ofNat]
  rw [← Nat.shiftLeft_add_eq_or_of_lt (Nat.mod_lt _ (by norm_num)), Nat.shiftLeft_eq]
  omega

/-- The four bytes of a packed word, high byte first. -/
theorem pack4_eq (b0 b1 b2 b3 : Nat) :
    pack4 b0 b1 b2 b3 = BitVec.ofNat 8 b3 ++ BitVec.ofNat 8 b2 ++ BitVec.ofNat 8 b1 ++ BitVec.ofNat 8 b0 := by
  apply BitVec.eq_of_toNat_eq
  simp only [pack4, BitVec.toNat_append, BitVec.toNat_ofNat]
  rw [← Nat.shiftLeft_add_eq_or_of_lt (Nat.mod_lt _ (by norm_num)), ← Nat.shiftLeft_add_eq_or_of_lt (Nat.mod_lt _ (by norm_num)),
    ← Nat.shiftLeft_add_eq_or_of_lt (Nat.mod_lt _ (by norm_num))]
  simp only [Nat.shiftLeft_eq]
  omega

/-- A word as an integer clamped to the other integer format: one bound of the two can be met (R38, R51). -/
theorem clamp32_sget (signed : Bool) (tag : FmtTag) (v : Word) : clamp32 signed (sget tag v) =
    BitVec.ofInt 32 (if signed then min 2147483647 (sget tag v) else max 0 (sget tag v)) := by
  have hlo : -2147483648 ≤ sget tag v := by unfold sget; split <;> [have := BitVec.le_toInt v; skip] <;> omega
  have hhi : sget tag v ≤ 4294967295 := by
    unfold sget; split
    · have := BitVec.toInt_lt (x := v); omega
    · have := v.isLt; omega
  unfold clamp32 wrap32
  cases signed
  · rw [if_neg Bool.false_ne_true, if_neg Bool.false_ne_true, min_eq_right (by omega)]
  · rw [if_pos rfl, if_pos rfl, max_eq_right (by omega)]; norm_num

/-- One bit of X as a number. -/
theorem xf_bit (w : Strip) (n : Nat) : Form.xf w n n = if w.x.getLsbD n then 1 else 0 := by
  unfold Form.xf BitVec.getLsbD
  rw [Nat.add_sub_cancel_left, pow_one, Nat.shiftRight_eq_div_pow, Nat.testBit_eq_decide_div_mod_eq]
  rcases Nat.mod_two_eq_zero_or_one (w.x.toNat / 2 ^ n) with h | h <;> simp [h]

/-- CVT, CVT.PK and CVT.UPK compute their rows lane by lane. -/
theorem conversionResults : Clause.ConversionResults := by
  intro row hrow w f sp s h
  unfold conversionRows at hrow
  simp only [List.mem_cons, List.not_mem_nil, or_false] at hrow
  rcases hrow with rfl | rfl | rfl
  · refine laneMap_ready h _ _ fun k _ _ => ?_
    simp only [Cx.rm, clamp32_sget, beq_iff_eq]
    rfl
  · refine laneMap_ready h _ _ fun k _ _ => ?_
    simp only [half_eq, pack2_eq, pack4_eq, Bool.or_eq_true, decide_eq_true_eq, Cx.rm, Cx.an, Cx.bn, fmt16, fmt8]
  · refine laneMap_ready h _ _ fun k _ _ => ?_
    simp only [half_eq, byteOf_eq, pack2_eq, fmt16, fmt8, Cx.x, xf_bit]

/-- Settles O6: a rounded magnitude is one of the two whole numbers of units of its last place around the exact value, and
the conversions compute their rows in every lane. -/
theorem conversions : Obligations.Conversions := ⟨rounding, conversionResults⟩

end Sys2Proof.Machine
end

section
/-! PROOFS. The block formats (R43 to R45, R160, R161): QBX4 and DQBX4. -/

namespace Sys2Proof.Machine

/-! ## A source that is a range of registers -/

/-- A legal word's source A obeys its form. -/
theorem srcLegal_a {f : LaneForm} {w : Strip} (hl : formLegal f w = true) (hused : f.a.used = true) :
    srcLegal f.a w.a (w.lr.getLsbD 2) = true := by
  unfold formLegal at hl
  simp only [hused, Bool.not_true, Bool.and_false, Bool.false_eq_true, if_false, Bool.and_eq_true] at hl
  exact hl.1.1.1.2

/-- A legal range of registers is read as it stands: it has no pattern and names no queue (R79). -/
theorem range_plain {f : LaneForm} {w : Strip} {n al : Nat} {t : TagSet} (hl : formLegal f w = true)
    (ha : f.a = Form.range n al t) : w.a.pat = 0#3 ∧ w.a.code.toNat < 248 := by
  have hsrc := srcLegal_a hl (by rw [ha]; rfl)
  refine ⟨?_, code_of_srcLegal hsrc (by rw [ha]; rfl) (by rw [ha]; rfl)⟩
  rw [ha] at hsrc
  simp only [srcLegal, Form.range, if_true, Bool.false_or, Bool.and_eq_true, beq_iff_eq] at hsrc
  exact hsrc.1.1.2

/-- The words of register k of a range where no result is outstanding. -/
theorem range_word {f : LaneForm} {w : Strip} {sp : Split} {s : State} {n al : Nat} {t : TagSet} (hl : formLegal f w = true)
    (hset : Settled s f w) (ha : f.a = Form.range n al t) {k i : Nat} (hk : k < n) (hi : i < 32) :
    ((cxOf s f w sp).srcA k).word i = (s.warp.reg (w.a.code.toNat + k)).val.word i := by
  obtain ⟨hpat, hcode⟩ := range_plain hl ha
  have hmem : w.a.code.toNat + k ∈ Form.readRegs f w := by
    simp only [Form.readRegs, Form.srcRegs, ha, Form.range, hcode, List.mem_append, decide_true, Bool.and_self, if_true,
      List.mem_map, List.mem_range]
    exact .inl (.inl (.inl ⟨k, hk, Nat.add_comm ..⟩))
  unfold Cx.srcA operand
  simp only [cxOf, readCx, hpat, BitVec.toNat_ofNat, applyPat, show ¬ 248 ≤ w.a.code.toNat by omega, if_false]
  exact readReg_word _ _ _ _ hi (settled_reg hset hmem)

/-! ## QBX4 (R160) -/

/-- The values of a block are those of the lanes of P in the eight registers from A upward. -/
theorem blockVals_eq {f : LaneForm} {w : Strip} {sp : Split} {s : State} (h : LaneRuns (.qbx4 w) f w sp s)
    (ha : f.a = Form.range 8 8 .f32) {b : Nat} (hb : b < 8) :
    (cxOf s f w sp).blockVals b = (List.range 4).flatMap fun j => if (cxOf s f w sp).p.has (4 * b + j) then
      (List.range 8).map fun k => (8 * j + k, fval .f32 ((s.warp.reg (w.a.code.toNat + k)).val.word (4 * b + j)).toNat)
    else [] := by
  unfold Cx.blockVals
  refine List.flatMap_congr fun j hj => ?_
  have hj := List.mem_range.mp hj
  split
  · refine List.map_congr_left fun k hk => ?_
    rw [range_word h.legal h.settled ha (List.mem_range.mp hk) (by omega)]
  · rfl

theorem getD_range {α : Type} (g : Nat → α) (d : α) {n k : Nat} (hk : k < n) : ((List.range n).map g).getD k d = g k := by
  simp [List.getD_eq_getElem?_getD, hk]

theorem qbx4_form {f : LaneForm} {w : Strip} {sp : Split} {s : State} (h : LaneReady (.qbx4 w) f w sp s) :
    f.a = Form.range 8 8 .f32 := by
  have hf := h.form
  simp only [laneForm, Option.some.injEq, Prod.mk.injEq, and_true] at hf
  rw [← hf]

/-- QBX4 writes the codes and the metadata of each block, as `quantise` gives them for the block's lanes of P. -/
theorem qbx4_ready {f : LaneForm} {w : Strip} {sp : Split} {s : State} (h : LaneRuns (.qbx4 w) f w sp s)
    {block : Nat → (Byte × Byte) × List (Nat × Nat)}
    (hblock : ∀ b, b < 8 → quantise w.rm.toNat ((cxOf s f w sp).blockVals b) = block b) :
    ∃ t, exec (.qbx4 w) s = .next t ∧ LaneRetired (cxOf s f w sp) (sp.pc + 12#64) s t ∧
      LaneResults [{ n := w.d.toNat, mask := (cxOf s f w sp).p, tag := 8#4
                     word := fun i => BitVec.ofNat 32 ((List.range 8).foldl
                       (fun v k => v + Tab.getD (block (i / 4)).2 (8 * (i % 4) + k) 0 * 16 ^ k) 0)
                     side := laneIds.map fun i => (block (i / 4)).1 }] [] s t := by
  have hget {i : Nat} (hi : i < 32) : ((List.range 8).map fun b =>
      quantise (cxOf s f w sp).rm ((cxOf s f w sp).blockVals b)).getD (i / 4) ((0#8, 0#8), []) = block (i / 4) := by
    rw [getD_range _ _ (by omega)]
    exact hblock _ (by omega)
  refine ⟨_, laneWord_ready h.toLaneReady (optsPass_plain h.clean) (.inl h.some),
    retire_done h.toLaneReady _ [] _ none (.cons ⟨rfl, rfl, rfl, rfl, ?_, fun i hi hp => ?_⟩ .nil) (by simp) (by simp) (by simp)⟩
  · dsimp only
    refine List.map_congr_left fun i hi => ?_
    rw [hget (List.mem_range.mp hi)]
  · refine (mapLanes_word _ _ _ hi hp).trans ?_
    dsimp only
    rw [hget hi]

/-! ## DQBX4 (R161) -/

/-- DQBX4 writes to register D + k, in every lane of P, the element whose code is hexadecimal digit k of the lane's word. -/
theorem dqbx4_ready {f : LaneForm} {w : Strip} {sp : Split} {s : State} (h : LaneRuns (.dqbx4 w) f w sp s) :
    let cx := cxOf s f w sp
    let elem (k i : Nat) : Word :=
      let code := (cx.a.word i).toNat / 16 ^ k % 16
      let side := cx.a.side.getD i (0x7F#8, 0x00#8)
      BitVec.ofNat 32 (if code = 8 ∧ side.1 ≠ 0xFF#8 ∧ isNan .e4m3 side.2.toNat = true then convNan .e4m3 .f32 side.2.toNat
        else narrow .f32 w.rm.toNat (bx4Val code side))
    ∃ t, exec (.dqbx4 w) s = .next t ∧ LaneRetired cx (sp.pc + 12#64) s t ∧
      LaneResults ((List.range 8).map fun k => { n := w.d.toNat + k, mask := cx.p, tag := 3#4, word := elem k }) [] s t := by
  intro cx elem
  refine ⟨_, laneWord_ready h.toLaneReady (optsPass_plain h.clean) (.inl h.some),
    retire_done h.toLaneReady _ [] _ none ?_ ?_ (by simp) (by simp)⟩
  · rw [List.forall₂_map_left_iff, List.forall₂_map_right_iff, List.forall₂_same]
    refine fun k _ => ⟨rfl, rfl, rfl, rfl, rfl, fun i hi hp => (mapLanes_word _ _ _ hi hp).trans ?_⟩
    simp only [elem, Bool.and_eq_true, decide_eq_true_eq, bne_iff_ne, and_assoc, apply_ite (BitVec.ofNat 32)]
    rfl
  · rw [List.map_map]
    exact List.nodup_range.map fun a b hab => Nat.add_left_cancel hab

/-- Settles O10: QBX4 quantises the values of each block's lanes of P, and DQBX4 expands the digits of each lane's word. -/
theorem blockResults : Obligations.BlockResults := by
  refine ⟨fun w f sp s h => ?_, fun w f sp s h => dqbx4_ready h⟩
  intro cx block
  exact qbx4_ready h (block := block) fun b hb => by rw [blockVals_eq h (qbx4_form h.toLaneReady) hb]

end Sys2Proof.Machine
end

section
/-! PROOFS. Retirement of a word whose body has changed the state beside its warp: its results written or outstanding (R74, R75),
and what its core counts. -/

namespace Sys2Proof.Machine

/-! ## States in which a word issues alike -/

/-- Two states agree in what the issue and the retirement of a lane word read. -/
structure SameIssue (s s1 : State) : Prop where
  warp : s1.warp = s.warp
  slot : s1.slotB = s.slotB
  draws : s1.draws = s.draws
  filters : s1.filters = s.filters

theorem LaneReady.sameIssue {i : Instr} {f : LaneForm} {w : Strip} {sp : Split} {s s1 : State} (h : LaneReady i f w sp s)
    (hs : SameIssue s s1) : LaneReady i f w sp s1 := by
  obtain ⟨hw, hb, hd, -⟩ := hs
  obtain ⟨hsplit, hform, hlegal, hinside, hfed, hroom, htags, hpure, hsingle⟩ := h
  constructor <;> (try simp only [State.split?, hw, hb, hd]) <;> assumption

theorem cxOf_sameIssue {s s1 : State} (hs : SameIssue s s1) (f : LaneForm) (w : Strip) (sp : Split) :
    cxOf s1 f w sp = { cxOf s f w sp with s := s1 } := by
  simp only [cxOf, readCx, hs.warp, hs.draws]

/-- Retirement reads the state of its context in nothing but what such states agree in. -/
theorem retire_context (i : Instr) (cx : Cx) (d : Done) {s1 : State} (hs : SameIssue cx.s s1) :
    retire i { cx with s := s1 } d = retire i cx d := by
  obtain ⟨hw, -, hd, hf⟩ := hs
  have hreplay (s : State) (regs : List RegWrite) : enterReplay s i { cx with s := s1 } regs = enterReplay s i cx regs := by
    simp only [enterReplay, Cx.replayRegs, hw, hd]
  have hnote (s : State) : noteStatus s { cx with s := s1 } = noteStatus s cx := by
    simp only [noteStatus, hw, hf]
  have hcount (s : State) : countRetired s { cx with s := s1 } = countRetired s cx := by
    unfold countRetired bumpRetired
    rw [hnote]
    rfl
  unfold retire
  rw [hcount, hreplay]
  rfl

/-- A retired word that is not variable-latency by itself, whose body has changed the state beside its warp. -/
theorem retire_changed {i : Instr} {f : LaneForm} {w : Strip} {sp : Split} {s s1 : State} (h : LaneReady i f w sp s)
    (hs : SameIssue s s1) (regs : List RegWrite) (ps : List PredWrite) (l : List Wrote)
    (hl : List.Forall₂ (fun x y => Wrote.of y x) regs l) (hn : (l.map (·.n)).Nodup)
    (h7 : ∀ p ∈ ps, p.k ≤ 7) (hp : (ps.map (·.k)).Nodup) :
    LaneRetired (cxOf s f w sp) (sp.pc + 12#64) s1 (retire i (cxOf s f w sp) { s := s1, regs := regs, preds := ps }) ∧
      LaneResults l ps s1 (retire i (cxOf s f w sp) { s := s1, regs := regs, preds := ps }) := by
  have hd := retire_done (h.sameIssue hs) regs ps l none hl hn h7 hp
  rw [cxOf_sameIssue hs, retire_context i (cxOf s f w sp) _ hs] at hd
  exact hd

/-! ## What retirement leaves of the results and of the core -/

theorem LaneFrame.coreIx {s t : State} (h : LaneFrame s t) : t.warp.coreIx = s.warp.coreIx := by
  obtain ⟨⟨_, _, _, _, _, _, _, _, _, _, _, _, _, rfl⟩, -⟩ := h; rfl

/-- A core counts retired words and keeps them for replay. -/
def CountsOnly (s t : State) : Prop :=
  (∃ a b, coreOf t s.warp.coreIx = { coreOf s s.warp.coreIx with issued := a, replay := b }) ∧
    ∀ n, n ≠ s.warp.coreIx → coreOf t n = coreOf s n

theorem enterReplay_counts (s : State) (i : Instr) (cx : Cx) (regs : List RegWrite) : CountsOnly s (enterReplay s i cx regs) := by
  unfold enterReplay
  split
  · refine ⟨⟨_, _, getD_put_self ..⟩, fun n hn => getD_put_ne _ _ _ hn⟩
  · exact ⟨⟨_, _, rfl⟩, fun _ _ => rfl⟩

theorem countRetired_counts {s : State} (cx : Cx) (h : s.warp.rg = none) : CountsOnly s (countRetired s cx) := by
  obtain ⟨g, hg, -⟩ := noteStatus_keeps s cx
  unfold countRetired groupRetired bumpRetired
  rw [hg, if_pos (by simp [modWarp, modCore, h])]
  exact ⟨⟨_, _, getD_put_self ..⟩, fun n hn => getD_put_ne _ _ _ hn⟩

theorem CountsOnly.trans {s t u : State} (h : CountsOnly s t) (hc : t.warp.coreIx = s.warp.coreIx) (k : CountsOnly t u) :
    CountsOnly s u := by
  obtain ⟨⟨a, b, h1⟩, h2⟩ := h
  obtain ⟨⟨a', b', k1⟩, k2⟩ := k
  rw [hc] at k1 k2
  exact ⟨⟨a', b', by rw [k1, h1]⟩, fun n hn => (k2 n hn).trans (h2 n hn)⟩

/-- The state of a retiring word once its results are written or outstanding. -/
def afterResults (cx : Cx) (d : Done) : State :=
  writeResults (modWarp d.s fun w => popQueues w (namedQueues cx.f cx.w)) d (!(namedQueues cx.f cx.w).isEmpty)
    (d.regs.filter fun x => decide (x.n < 248)) (pendingOf d)

/-- Retirement outside a redundant group: the results as written, and what the core counts. -/
theorem retire_afterResults (i : Instr) (cx : Cx) (d : Done) (h : d.s.warp.rg = none) (hd : ({ d with var := false } : Done).fixed) :
    (∀ n, SameLane ((retire i cx d).warp.reg n) ((afterResults cx d).warp.reg n)) ∧
    (retire i cx d).warp.preds = (afterResults cx d).warp.preds ∧
    (retire i cx d).warp.pending = (afterResults cx d).warp.pending ∧
    (retire i cx d).warp.bq = (afterResults cx d).warp.bq ∧ CountsOnly d.s (retire i cx d) := by
  obtain ⟨-, hh, hb, he, hu⟩ := hd
  dsimp only at hh hb he hu
  unfold retire
  extract_lets regs pend pp s1 s2 s3 s4 s5 s6
  have hpp : pp = pendingOf d := by
    show Pending.mk _ _ _ _ _ _ _ = _
    rw [hb, he, hu, hh]; rfl
  have e2 : s2 = afterResults cx d := by unfold afterResults; rw [← hpp]
  have f1 : LaneFrame d.s s1 := frame_pop _ _
  have f2 : LaneFrame s1 s2 := (frame_results _ _ _ _ _).1
  have f3 : LaneFrame s2 s3 := (frame_clean _ _ _ _ _).1
  have f4 : LaneFrame s3 s4 := (frame_release _ _).1
  have f : LaneFrame d.s s4 := f1.trans (f2.trans (f3.trans f4))
  have hrg : s4.warp.rg = none := f.rg.trans h
  have e5 : s5 = s4 := deliverMail_single _ _ _ hrg
  have e3 : s3.warp.regs = s2.warp.regs ∧ s3.warp.preds = s2.warp.preds ∧ s3.warp.pending = s2.warp.pending ∧
      s3.warp.bq = s2.warp.bq ∧ s3.cores = s2.cores := by
    show (modWarp s2 _).warp.regs = _ ∧ (modWarp s2 _).warp.preds = _ ∧ (modWarp s2 _).warp.pending = _ ∧
      (modWarp s2 _).warp.bq = _ ∧ (modWarp s2 _).cores = _
    cases cx.sp.ts.isSome <;> exact ⟨rfl, rfl, rfl, rfl, rfl⟩
  have c2 : s2.cores = d.s.cores := by
    obtain ⟨_, _, _, _, hk⟩ := writeResults_keeps s1 d (!(namedQueues cx.f cx.w).isEmpty) regs pp
    show (writeResults s1 d _ regs pp).cores = _
    rw [hk]; rfl
  obtain ⟨r', h4, h4'⟩ := release_keeps (releasedRegs cx.f cx.w (regs.map (·.n))) s3.warp
  have e4 : s4 = { s3 with warp := { s3.warp with regs := r' } } := congrArg (fun v => { s3 with warp := v }) h4
  have e6 : ∃ a b, s6 = { s4 with warp := { s4.warp with slotA := a, slotB := b } } := by
    rw [← e5]
    exact ⟨_, _, (modSplit_eq ..).trans (congrArg (fun v => { s5 with warp := v }) (setSlot_keeps ..))⟩
  clear_value s6 s5 s4 s3 s2 s1
  obtain ⟨a, b, rfl⟩ := e6
  have hcounts := (enterReplay_counts { s4 with warp := { s4.warp with slotA := a, slotB := b } } i cx regs)
  obtain ⟨c, h7⟩ := enterReplay_keeps { s4 with warp := { s4.warp with slotA := a, slotB := b } } i cx regs
  rw [h7] at hcounts ⊢
  have hall := hcounts.trans rfl (countRetired_counts cx hrg)
  obtain ⟨c', p, g, h8, -⟩ := countRetired_single (s := { s4 with
    warp := { s4.warp with slotA := a, slotB := b }, cores := c }) cx hrg
  rw [h8] at hall ⊢
  obtain ⟨e3r, e3p, e3q, e3b, e3c⟩ := e3
  subst e2 e4
  refine ⟨fun n => ?_, e3p, e3q, e3b, ?_⟩
  · have hn := h4' n
    rw [show s3.warp.reg n = (afterResults cx d).warp.reg n by unfold Warp.reg; rw [e3r]] at hn
    exact hn
  · have hcore (n : Nat) : coreOf s3 n = coreOf d.s n := by unfold coreOf; rw [e3c, c2]
    have hix : s3.warp.coreIx = d.s.warp.coreIx := f.coreIx
    obtain ⟨⟨x, y, k1⟩, k2⟩ := hall
    refine ⟨⟨x, y, ?_⟩, fun n hn => ?_⟩
    · rw [← hix, ← hcore]; exact k1
    · rw [← hcore]; exact k2 n (by rw [← hix] at hn; exact hn)

/-- A retired word that holds nothing: its split goes on, and everything outside its warp stays but for what is counted. -/
theorem retire_laneRetired {i : Instr} {f : LaneForm} {w : Strip} {sp : Split} {s s1 : State} (h : LaneReady i f w sp s)
    (hs : SameIssue s s1) {d : Done} (hd : d.s = s1) (hh : d.holds = false) (hnext : d.next = none) :
    LaneRetired (cxOf s f w sp) (sp.pc + 12#64) s1 (retire i (cxOf s f w sp) d) := by
  subst hd
  have hr := h.sameIssue hs
  obtain ⟨hf, hsl, hso, hq, hret, hwt⟩ := retire_frame i (cxOf s f w sp) d hr.single
  refine ⟨⟨sp, (retiredSplit (cxOf s f w sp) d d.s.draws sp).sig, hr.split, ?_⟩, hso, hq, ?_, hf.2, ?_⟩
  · rw [State.split?, hf.slot, hsl, hr.split]
    simp only [Option.map_some, retiredSplit, hh, hnext]
    rfl
  · obtain ⟨⟨a, b, r, ps, fq, bq, q, pk, fr, n, wt, c, g, he⟩, -⟩ := hf
    rw [he] at hret hwt ⊢
    dsimp only at hret hwt
    rw [hret, hwt]
  · obtain ⟨⟨a, b, r, ps, fq, bq, q, pk, fr, n, wt, c, g, he⟩, -⟩ := hf
    rw [he]
    exact fun _ => rfl

/-- The registers of an outstanding result are those that the claims describe. -/
theorem pendingOf_wrote {regs : List RegWrite} {l : List Wrote} (hl : List.Forall₂ (fun x y => Wrote.of y x) regs l) {d : Done}
    (hd : d.regs = regs) : List.Forall₂ Wrote.of (l.filter fun y => decide (y.n < 248)) (pendingOf d).regs := by
  show List.Forall₂ Wrote.of _ ((d.regs.filter fun x => decide (x.n < 248)).map _)
  rw [hd, List.forall₂_map_right_iff]
  clear hd
  induction hl with
  | nil => exact .nil
  | @cons x y _ _ hxy _ ih =>
    obtain ⟨e1, e2, e3, e4, e5, e6⟩ := hxy
    simp only [List.filter_cons, e1]
    split
    · refine .cons ?_ ih
      split
      · exact ⟨e1, e2, e3, e4, e5, e6⟩
      · exact ⟨e1, e2, e3, e4, e5, fun k hk hm => (getD_laneIds _ _ hk).trans (e6 k hk hm)⟩
    · exact ih

/-- A variable-latency word with results, or with none, before it goes on: nothing but queues and outstanding results. -/
theorem afterResults_var (cx : Cx) (s1 : State) (regs : List RegWrite) :
    ∃ q, (afterResults cx { s := s1, regs := regs, var := true }).warp =
      { s1.warp with
        fq := q
        bq := ((regs.filter fun x => decide (248 ≤ x.n)).foldl (fun w x => pushBack w (x.n - 248) x) s1.warp).bq
        pending := if (regs.filter fun x => decide (x.n < 248)) = [] then s1.warp.pending
          else (s1.warp.promise (pendingOf { s := s1, regs := regs, var := true })).pending } := by
  obtain ⟨b, hb⟩ := pushBack_keeps (regs.filter fun x => decide (248 ≤ x.n)) s1.warp
  refine ⟨(popQueues s1.warp (namedQueues cx.f cx.w)).fq, ?_⟩
  unfold afterResults writeResults
  simp only [modWarp]
  rw [popQueues_keeps, pushBack_with, hb]
  by_cases hnil : (regs.filter fun x => decide (x.n < 248)) = []
  · simp [hnil]
  · simp [hnil, Warp.promise]

/-- A retired variable-latency word: its results are outstanding (R74). -/
theorem retire_var {i : Instr} {f : LaneForm} {w : Strip} {sp : Split} {s s1 : State} (h : LaneReady i f w sp s)
    (hs : SameIssue s s1) (regs : List RegWrite) (l : List Wrote) (hl : List.Forall₂ (fun x y => Wrote.of y x) regs l) :
    LaneRetired (cxOf s f w sp) (sp.pc + 12#64) s1 (retire i (cxOf s f w sp) { s := s1, regs := regs, var := true }) ∧
      LanePromised l [] s1 (retire i (cxOf s f w sp) { s := s1, regs := regs, var := true }) ∧
      CountsOnly s1 (retire i (cxOf s f w sp) { s := s1, regs := regs, var := true }) := by
  obtain ⟨r1, r2, r3, r4, r5⟩ := retire_afterResults i (cxOf s f w sp) { s := s1, regs := regs, var := true }
    (h.sameIssue hs).single ⟨rfl, rfl, rfl, rfl, rfl⟩
  obtain ⟨q, hq⟩ := afterResults_var (cxOf s f w sp) s1 regs
  rw [hq] at r1 r2 r3 r4
  have hwrote := pendingOf_wrote hl (d := { s := s1, regs := regs, var := true }) rfl
  have hempty : (regs.filter fun x => decide (x.n < 248)) = [] ↔ (l.filter fun y => decide (y.n < 248)) = [] := by
    have hlen := hwrote.length_eq
    rw [show (pendingOf { s := s1, regs := regs, var := true }).regs.length =
      (regs.filter fun x => decide (x.n < 248)).length from List.length_map ..] at hlen
    rw [← List.length_eq_zero_iff, ← List.length_eq_zero_iff, hlen]
  refine ⟨retire_laneRetired h hs rfl rfl rfl, ⟨r1, r2, r4.trans (backAfter_eq s1 hl), ?_⟩, r5⟩
  by_cases hnil : (l.filter fun y => decide (y.n < 248)) = []
  · rw [if_pos ⟨hnil, rfl⟩, r3, if_pos (hempty.mpr hnil)]
  · rw [if_neg fun hc => hnil hc.1]
    exact ⟨pendingOf { s := s1, regs := regs, var := true }, by rw [r3]; exact if_neg fun hc => hnil (hempty.mp hc), rfl, rfl, hwrote⟩

end Sys2Proof.Machine
end

section
/-! PROOFS. Words of the matrix path (R244 to R254): issue, ownership, rows rewritten, MX.CLEAR, MX.STREAM at issue, MX.STAT. -/

namespace Sys2Proof.Machine

/-! ## A matrix word issues -/

theorem engine_team {i : Instr} {f : LaneForm} {w : Strip} {sp : Split} {s : State} {T : Team}
    (h : EngineReady i f w sp s T) : (cxOf s f w sp).team = T := by
  show (teamById s s.warp.team).getD _ = T
  rw [h.team]; rfl

theorem engine_teamId {i : Instr} {f : LaneForm} {w : Strip} {sp : Split} {s : State} {T : Team}
    (h : EngineReady i f w sp s T) : T.id = s.warp.team := by
  simpa using List.find?_some h.team

/-- A ready matrix word that does not stall and passes its own checks acts. -/
theorem matrixWord_ready {i : Instr} {f : LaneForm} {w : Strip} {sp : Split} {s : State} {T : Team}
    {bad : Cx → Bool} {stall : Team → Bool} {check : Cx → Option TrapInfo} {act : Cx → LaneRes} (h : EngineReady i f w sp s T)
    (hbad : bad (cxOf s f w sp) = false) (hstall : stall T = false) (hcheck : check (cxOf s f w sp) = none) :
    matrixWord i { badFormat := bad } stall check act s = .next (finish i (cxOf s f w sp) (act (cxOf s f w sp))) := by
  have ho : OptsPass i { badFormat := bad, deaths := some lowDeaths } f w sp s :=
    ⟨rfl, rfl, hbad, rfl, h.clean, fun _ _ => ⟨rfl, fun _ _ => rfl⟩⟩
  refine (laneWord_ready h.toLaneReady ho (.inl h.taking)).trans ?_
  rw [engine_team h, hstall, hcheck]
  rfl

/-- The team of the issuing warp changed. -/
theorem modTeam_teamWith {i : Instr} {f : LaneForm} {w : Strip} {sp : Split} {s : State} {T : Team}
    (h : EngineReady i f w sp s T) (g : Team → Team) : modTeam s s.warp.team g = teamWith s T g := by
  unfold modTeam teamWith
  rw [engine_teamId h]

theorem coreIs_of_counts {s s1 t : State} (hw : s1.warp = s.warp) (h : CountsOnly s1 t)
    (hc : ∀ n, n ≠ s.warp.coreIx → coreOf s1 n = coreOf s n) : CoreIs s t (coreOf s1 s.warp.coreIx) := by
  obtain ⟨h1, h2⟩ := h
  rw [hw] at h1 h2
  exact ⟨h1, fun n hn => (h2 n hn).trans (hc n hn)⟩

/-- A matrix word that writes no register and no predicate. -/
theorem engine_silent {i : Instr} {f : LaneForm} {w : Strip} {sp : Split} {s s1 : State} (h : LaneReady i f w sp s)
    (hs : SameIssue s s1) (hc : ∀ n, n ≠ s.warp.coreIx → coreOf s1 n = coreOf s n) :
    LaneRetired (cxOf s f w sp) (sp.pc + 12#64) s1 (retire i (cxOf s f w sp) { s := s1 }) ∧
      LaneResults [] [] s1 (retire i (cxOf s f w sp) { s := s1 }) ∧
      CoreIs s (retire i (cxOf s f w sp) { s := s1 }) (coreOf s1 s.warp.coreIx) := by
  obtain ⟨hr, hres⟩ := retire_changed h hs [] [] [] .nil (by simp) (by simp) (by simp)
  obtain ⟨-, -, -, -, hcount⟩ := retire_afterResults i (cxOf s f w sp) { s := s1 } (h.sameIssue hs).single ⟨rfl, rfl, rfl, rfl, rfl⟩
  exact ⟨hr, hres, coreIs_of_counts hs.warp hcount hc⟩

/-! ## Ownership (R244) -/

theorem rowMine_iff (s : State) (r : Nat) : rowMine s s.warp r = true ↔ RowMine s r := by
  unfold rowMine RowMine coreOf
  cases ((Tab.getD s.cores s.warp.coreIx Core.init).row r).owner with
  | none => simp
  | some o => cases hx : warpById s o <;> simp [hx]

theorem rowProt_none {cx : Cx} {bad : Nat → Bool} (h : ∀ r ∈ cx.rows, bad r = false) : cx.rowProt bad = none := by
  unfold Cx.rowProt
  rw [List.find?_eq_none.mpr fun r hr => by simp [h r hr]]
  rfl

theorem planeProt_none {cx : Cx} (h : (coreOf cx.s cx.s.warp.coreIx).planeOwner = none ∨
    (coreOf cx.s cx.s.warp.coreIx).planeOwner = some cx.s.warp.team) : cx.planeProt = none := by
  unfold Cx.planeProt planesForeign
  unfold coreOf at h
  rcases h with h | h <;> simp [h]

/-! ## Rows rewritten (R247) -/

/-- Rows put one after another, each with a value of its own. -/
theorem getD_putRows {α : Type} (g : Nat → α) (rows : List Nat) (t : Tab α) (r : Nat) (d : α) :
    Tab.getD (rows.foldl (fun l r => Tab.put l r (g r)) t) r d = if r ∈ rows then g r else Tab.getD t r d := by
  induction rows generalizing t with
  | nil => simp
  | cons k l ih =>
    rw [List.foldl_cons, ih, getD_put]
    by_cases hl : r ∈ l
    · simp [hl]
    · by_cases hk : r = k
      · simp [hk]
      · simp [hl, hk]

/-- The state of a word that rewrites its rows: of the core, the rows it names alone are changed. -/
theorem mapRows_spec (cx : Cx) (g : Nat → AccRow → AccRow) :
    SameIssue cx.s (cx.mapRows g) ∧ (∀ n, n ≠ cx.s.warp.coreIx → coreOf (cx.mapRows g) n = coreOf cx.s n) ∧
    coreOf (cx.mapRows g) cx.s.warp.coreIx =
        { coreOf cx.s cx.s.warp.coreIx with rows := (coreOf (cx.mapRows g) cx.s.warp.coreIx).rows } ∧
      ∀ r, (coreOf (cx.mapRows g) cx.s.warp.coreIx).row r =
        if r ∈ cx.rows then g r ((coreOf cx.s cx.s.warp.coreIx).row r) else (coreOf cx.s cx.s.warp.coreIx).row r := by
  have hcore : coreOf (cx.mapRows g) cx.s.warp.coreIx = { coreOf cx.s cx.s.warp.coreIx with
      rows := cx.rows.foldl (fun l r => Tab.put l r (g r ((coreOf cx.s cx.s.warp.coreIx).row r)))
        (coreOf cx.s cx.s.warp.coreIx).rows } := getD_put_self ..
  refine ⟨⟨rfl, rfl, rfl, rfl⟩, fun n hn => getD_put_ne _ _ _ hn, by rw [hcore], fun r => ?_⟩
  rw [hcore]
  exact getD_putRows (fun r => g r ((coreOf cx.s cx.s.warp.coreIx).row r)) cx.rows _ r AccRow.blank

/-! ## MX.CLEAR (R250) -/

theorem mxClear_ready (w : Strip) (f : LaneForm) (sp : Split) (s : State) (T : Team) (h : EngineReady (.mxClear w) f w sp s T)
    (hslots : T.slots = []) (hrows : ∀ r ∈ rowsOf w, rowForeign s s.warp r = false) :
    ∃ t c', exec (.mxClear w) s = .next t ∧ LaneRetired (cxOf s f w sp) (sp.pc + 12#64) s t ∧ LaneResults [] [] s t ∧
      CoreIs s t c' ∧ c' = { coreOf s s.warp.coreIx with rows := c'.rows } ∧ ∀ r, c'.row r = if r ∈ rowsOf w then
          { owner := some s.warp.id, anchor := ((cxOf s f w sp).b.word (cxOf s f w sp).lane0).setWidth 16
            words := List.replicate 128 { w := 0#128, st := .fin } }
        else (coreOf s s.warp.coreIx).row r := by
  have hrun := matrixWord_ready (bad := fun _ => false) (stall := slotsUsed)
    (check := fun cx => cx.rowProt (rowForeign cx.s cx.s.warp)) (act := fun cx =>
      .done { s := cx.mapRows fun _ _ => { AccRow.blank with owner := some cx.s.warp.id, anchor := (cx.low cx.b).setWidth 16 } })
    h rfl (by simp [slotsUsed, hslots]) (rowProt_none hrows)
  obtain ⟨hs, hother, hcore, hrow⟩ := mapRows_spec (cxOf s f w sp) fun _ _ =>
    { AccRow.blank with owner := some s.warp.id, anchor := ((cxOf s f w sp).low (cxOf s f w sp).b).setWidth 16 }
  obtain ⟨hret, hres, hci⟩ := engine_silent h.toLaneReady hs hother
  exact ⟨_, _, hrun, hret, hres, hci, hcore, hrow⟩

/-- MX.CLEAR with REL releases the named rows of the team and clears none. -/
theorem mxClearRel_ready (w : Strip) (f : LaneForm) (sp : Split) (s : State) (T : Team)
    (h : EngineReady (.mxClearRel w) f w sp s T) (hslots : T.slots = []) :
    ∃ t c', exec (.mxClearRel w) s = .next t ∧ LaneRetired (cxOf s f w sp) (sp.pc + 12#64) s t ∧ LaneResults [] [] s t ∧
      CoreIs s t c' ∧ c' = { coreOf s s.warp.coreIx with rows := c'.rows } ∧
      ∀ r, (r ∈ rowsOf w ∧ RowMine s r → c'.row r = { (coreOf s s.warp.coreIx).row r with owner := none }) ∧
        (¬ (r ∈ rowsOf w ∧ RowMine s r) → c'.row r = (coreOf s s.warp.coreIx).row r) := by
  have hrun := matrixWord_ready (bad := fun _ => false) (stall := slotsUsed) (check := fun _ => none) (act := fun cx =>
      .done { s := cx.mapRows fun r x => if rowMine cx.s cx.s.warp r then { x with owner := none } else x })
    h rfl (by simp [slotsUsed, hslots]) rfl
  obtain ⟨hs, hother, hcore, hrow⟩ := mapRows_spec (cxOf s f w sp) fun r x =>
    if rowMine s s.warp r then { x with owner := none } else x
  obtain ⟨hret, hres, hci⟩ := engine_silent h.toLaneReady hs hother
  refine ⟨_, _, hrun, hret, hres, hci, hcore, fun r => ⟨fun ⟨hr, hm⟩ => ?_, fun hn => ?_⟩⟩
  · exact (hrow r).trans ((if_pos hr).trans (if_pos ((rowMine_iff s r).mpr hm)))
  · refine (hrow r).trans ?_
    split
    · next hr => exact if_neg fun hm => hn ⟨hr, (rowMine_iff s r).mp hm⟩
    · rfl

/-! ## MX.STREAM at issue (R251) -/

/-- A tile whose operands are aligned and whose columns all lie in the team's range is allowed (R248, R251). -/
theorem tileCheck_none {cx : Cx} {count : Nat} (hcount : count ≠ 0)
    (halign : cx.w.fmt = 4#4 ∨ cx.w.fmt = 5#4 → cx.offA % 2 = 0 ∧ cx.strideB % 2 = 0)
    (hin : ∀ j : Nat, j < count → 0 ≤ cx.offA + j * cx.strideB ∧ cx.offA + j * cx.strideB + colBytes cx.w.fmt ≤ cx.team.total) :
    cx.tileCheck count = none := by
  have hodd : ((cx.w.fmt == 4#4 || cx.w.fmt == 5#4) && (cx.offA % 2 != 0 || cx.strideB % 2 != 0)) = false := by
    by_cases hf : cx.w.fmt = 4#4 ∨ cx.w.fmt = 5#4
    · simp [halign hf]
    · rw [not_or] at hf
      simp [hf]
  have hinside : insideTeam cx.team cx.offA cx.strideB count (colBytes cx.w.fmt) = true := by
    obtain ⟨h1, h2⟩ := hin 0 (by omega)
    obtain ⟨h3, h4⟩ := hin (count - 1) (by omega)
    rw [Nat.cast_sub (by omega), Nat.cast_one, mul_comm] at h3 h4
    simp only [Nat.cast_zero, zero_mul, add_zero] at h1 h2
    simp [insideTeam, h1, h2, h3, h4]
  unfold Cx.tileCheck
  simp only [hodd, hinside]
  rfl

theorem mxStream_ready (w : Strip) (f : LaneForm) (sp : Split) (s : State) (T : Team) (h : EngineReady (.mxStream w) f w sp s T)
    (hslots : T.slots.length < 2) (hpairs : pairs w.fmt T.activeFmt = true)
    (halign : w.fmt = 4#4 ∨ w.fmt = 5#4 → (cxOf s f w sp).offA % 2 = 0 ∧ (cxOf s f w sp).strideB % 2 = 0)
    (hin : ∀ j : Nat, j ≤ Form.xf w 13 7 → 0 ≤ (cxOf s f w sp).offA + j * (cxOf s f w sp).strideB ∧
      (cxOf s f w sp).offA + j * (cxOf s f w sp).strideB + colBytes w.fmt ≤ T.total)
    (hplane : (coreOf s s.warp.coreIx).planeOwner = none ∨ (coreOf s s.warp.coreIx).planeOwner = some s.warp.team)
    (hrows : ∀ r ∈ rowsOf w, RowMine s r) :
    ∃ t, exec (.mxStream w) s = .next t ∧
      LaneRetired (cxOf s f w sp) (sp.pc + 12#64) (teamWith s T fun x => addStream x ((cxOf s f w sp).stream none)) t ∧
      LaneResults [] [] (teamWith s T fun x => addStream x ((cxOf s f w sp).stream none)) t ∧
      CoreIs s t (coreOf s s.warp.coreIx) := by
  have hteam := engine_team h
  have htile : (cxOf s f w sp).tileCheck ((cxOf s f w sp).x 13 7 + 1) = none :=
    tileCheck_none (by omega) halign fun j hj => by rw [hteam]; exact hin j (Nat.lt_succ_iff.mp hj)
  have hcheck : (((cxOf s f w sp).tileCheck ((cxOf s f w sp).x 13 7 + 1)).or (cxOf s f w sp).planeProt).or
      ((cxOf s f w sp).rowProt fun r => !rowMine s s.warp r) = none := by
    rw [htile, planeProt_none hplane, rowProt_none fun r hr => by rw [(rowMine_iff s r).mpr (hrows r hr)]; rfl]
    rfl
  have hrun := matrixWord_ready (bad := fun cx => !slotsBusy cx.team && !pairs w.fmt cx.team.activeFmt) (stall := slotsBusy)
    (check := fun cx => ((cx.tileCheck (cx.x 13 7 + 1)).or cx.planeProt).or (cx.rowProt fun r => !rowMine cx.s cx.s.warp r))
    (act := fun cx => .done { s := modTeam cx.s cx.s.warp.team fun t => addStream t (cx.stream none) })
    h (by simp [hteam, hpairs]) (by simp [slotsBusy, hslots]) hcheck
  have hs : SameIssue s (modTeam s s.warp.team fun x => addStream x ((cxOf s f w sp).stream none)) := ⟨rfl, rfl, rfl, rfl⟩
  obtain ⟨hret, hres, hci⟩ := engine_silent h.toLaneReady hs fun _ _ => rfl
  rw [← modTeam_teamWith h]
  exact ⟨_, hrun, hret, hres, hci⟩

/-! ## MX.STAT (R254) -/

theorem toNat_append_add {n m : Nat} (x : BitVec n) (y : BitVec m) : (x ++ y).toNat = x.toNat * 2 ^ m + y.toNat := by
  rw [BitVec.toNat_append, ← Nat.shiftLeft_add_eq_or_of_lt y.isLt, Nat.shiftLeft_eq]

/-- The word that MX.STAT gives of the state: its fields from bit 0 upward (R254). -/
theorem matrixState_word (loader owner nf fd cf : Bool) (slots : Nat) (active shadow : FmtTag) (hslots : slots ≤ 2) :
    let b (x : Bool) : Nat := if x then 1 else 0
    let bit (x : Bool) : BitVec 1 := if x then 1#1 else 0#1
    BitVec.ofNat 32 (b loader + 2 * min slots 2 + 2 ^ 3 * active.toNat + 2 ^ 7 * shadow.toNat + 2 ^ 11 * b owner + 2 ^ 12 * b nf +
        2 ^ 13 * b fd + 2 ^ 14 * b cf) =
      (bit cf ++ bit fd ++ bit nf ++ bit owner ++ shadow ++ active ++ BitVec.ofNat 2 slots ++ bit loader : BitVec 15).setWidth 32 := by
  intro b bit
  have hbit (x : Bool) : (bit x).toNat = b x := by cases x <;> rfl
  have hb (x : Bool) : b x ≤ 1 := by cases x <;> decide
  apply BitVec.eq_of_toNat_eq
  obtain ⟨h1, h2, h3, h4, h5⟩ : b loader ≤ 1 ∧ b owner ≤ 1 ∧ b nf ≤ 1 ∧ b fd ≤ 1 ∧ b cf ≤ 1 := ⟨hb _, hb _, hb _, hb _, hb _⟩
  simp only [BitVec.toNat_setWidth, toNat_append_add, hbit, BitVec.toNat_ofNat]
  have ha := active.isLt
  have hs := shadow.isLt
  omega

/-- MX.STAT names no register, so that no lane of P reads a poisoned word. -/
theorem mxStat_clean {w : Strip} {f : LaneForm} {sp : Split} {s : State} (h : LaneReady (.mxStat w) f w sp s) :
    Unpoisoned (cxOf s f w sp) := by
  have hf := h.form
  simp only [laneForm, Option.some.injEq, Prod.mk.injEq, and_true] at hf
  subst hf
  simp [Unpoisoned, genericDeaths, cxOf, readCx, Form.matrix, Form.bare, Form.noSrc, Form.useB]

/-- A ready word whose body is done retires. -/
theorem laneWord_done {i : Instr} {o : LaneOpts} {f : LaneForm} {w : Strip} {sp : Split} {s : State} {body : Cx → LaneRes}
    {d : Done} (h : LaneReady i f w sp s) (ho : OptsPass i o f w sp s) (hp : (cxOf s f w sp).p ≠ 0#32)
    (hbody : body (cxOf s f w sp) = .done d) : laneWord i o body s = .next (retire i (cxOf s f w sp) d) := by
  rw [laneWord_ready h ho (.inl hp), hbody]
  rfl

/-- One result written to every lane of P, by a word that has changed the state beside its warp. -/
theorem retire_uniform {i : Instr} {f : LaneForm} {w : Strip} {sp : Split} {s s1 : State} (h : LaneReady i f w sp s)
    (hs : SameIssue s s1) (tag : FmtTag) (v : Word) :
    LaneRetired (cxOf s f w sp) (sp.pc + 12#64) s1
        (retire i (cxOf s f w sp) { s := s1, regs := [mkWrite w.d.toNat (.uniform v) (cxOf s f w sp).p tag] }) ∧
      LaneResult (cxOf s f w sp) tag (fun _ => v) s1
        (retire i (cxOf s f w sp) { s := s1, regs := [mkWrite w.d.toNat (.uniform v) (cxOf s f w sp).p tag] }) :=
  retire_changed h hs _ [] [{ n := w.d.toNat, mask := (cxOf s f w sp).p, tag := tag, word := fun _ => v }]
    (.cons ⟨rfl, rfl, rfl, rfl, rfl, fun _ _ _ => rfl⟩ .nil) (by simp) (by simp) (by simp)

/-- The team's flags cleared where the word asks for it (R254). -/
def flagsTaken (w : Strip) (s : State) (T : Team) : State :=
  if w.x.getLsbD 9 then teamWith s T fun x => { x with nf := false, fd := false, cf := false } else s

theorem flagsTaken_sameIssue (w : Strip) (s : State) (T : Team) : SameIssue s (flagsTaken w s T) := by
  unfold flagsTaken
  split <;> exact ⟨rfl, rfl, rfl, rfl⟩

/-- MX.STAT of the state. -/
theorem mxStat_state (w : Strip) (f : LaneForm) (sp : Split) (s : State) (T : Team) (h : EngineReady (.mxStat w) f w sp s T)
    (hx : Form.xf w 1 0 = 0) (hslots : T.slots.length ≤ 2) :
    let c := coreOf s s.warp.coreIx
    let bit (b : Bool) : BitVec 1 := if b then 1#1 else 0#1
    let v : BitVec 15 := bit T.cf ++ bit T.fd ++ bit T.nf ++ bit (decide (c.planeOwner = some T.id)) ++ T.shadowFmt ++
      T.activeFmt ++ BitVec.ofNat 2 T.slots.length ++ bit T.loader.isSome
    ∃ t, exec (.mxStat w) s = .next t ∧ LaneRetired (cxOf s f w sp) (sp.pc + 12#64) (flagsTaken w s T) t ∧
      LaneResult (cxOf s f w sp) 2#4 (fun _ => v.setWidth 32) (flagsTaken w s T) t := by
  intro c bit v
  refine ⟨_, laneWord_done h.toLaneReady (optsPass_plain (mxStat_clean h.toLaneReady)) h.taking ?_,
    retire_uniform h.toLaneReady (flagsTaken_sameIssue w s T) 2#4 (v.setWidth 32)⟩
  refine (if_pos hx).trans ?_
  have howner : ((coreOf s s.warp.coreIx).planeOwner == some T.id) = decide (c.planeOwner = some T.id) := by
    rw [beq_eq_decide]
  rw [engine_team h, show v.setWidth 32 = _ from (matrixState_word T.loader.isSome _ T.nf T.fd T.cf _ T.activeFmt T.shadowFmt hslots).symm,
    ← howner]
  rfl

/-- MX.STAT of an anchor. -/
theorem mxStat_anchor (w : Strip) (f : LaneForm) (sp : Split) (s : State) (T : Team) (h : EngineReady (.mxStat w) f w sp s T)
    (hx : Form.xf w 1 0 = 1) :
    ∃ t v, exec (.mxStat w) s = .next t ∧ LaneRetired (cxOf s f w sp) (sp.pc + 12#64) s t ∧
      LaneResult (cxOf s f w sp) 2#4 (fun _ => v) s t ∧
      (RowMine s (Form.xf w 8 2) → v.toInt = ((coreOf s s.warp.coreIx).row (Form.xf w 8 2)).anchor.toInt) ∧
      (¬ RowMine s (Form.xf w 8 2) → v = 0#32) := by
  obtain ⟨hret, hres⟩ := retire_uniform h.toLaneReady (s1 := s) ⟨rfl, rfl, rfl, rfl⟩ 2#4
    (if rowMine s s.warp (Form.xf w 8 2) then ((coreOf s s.warp.coreIx).row (Form.xf w 8 2)).anchor.signExtend 32 else 0#32)
  refine ⟨_, _, laneWord_done h.toLaneReady (optsPass_plain (mxStat_clean h.toLaneReady)) h.taking ?_, hret, hres, fun hm => ?_, fun hm => ?_⟩
  · exact if_neg fun h0 => absurd (hx.symm.trans h0) (by decide)
  · rw [if_pos ((rowMine_iff s _).mpr hm), BitVec.toInt_signExtend_of_le (by decide)]
  · rw [if_neg fun hc => hm ((rowMine_iff s _).mp hc)]

end Sys2Proof.Machine
end

section
/-! PROOFS. Addends on the grid of a row (R54) and the row steps of a stream (R243, R251). -/

namespace Sys2Proof.Machine

/-! ## Addends on the grid of a row (R54) -/

/-- Rounding to nearest even leaves at most half a unit, and an even number of units on a tie. -/
theorem RoundedTo.nearest {neg : Bool} {x u : ℚ} {n : Nat} (h : RoundedTo 0 neg x u n) :
    2 * |(n : ℚ) * u - x| ≤ u ∧ (2 * |(n : ℚ) * u - x| = u → n % 2 = 0) := by
  rcases h with ⟨h1, -, h3, -⟩ | ⟨q, rfl, -, h2, -, -, -, h3⟩
  · obtain ⟨h3, h4⟩ := h3 rfl
    rw [abs_of_nonpos (by linarith)]
    exact ⟨by linarith, fun he => h4 (by linarith)⟩
  · obtain ⟨h3, h4⟩ := h3 rfl
    push_cast
    rw [abs_of_nonneg (by linarith)]
    exact ⟨by linarith, fun he => by have := h4 (by linarith); omega⟩

/-- A multiple of 2^128 is nothing in an exact word. -/
theorem ofInt_multiple {z : Int} (h : (2 ^ 128 : Int) ∣ z) : BitVec.ofInt 128 z = 0#128 := by
  apply BitVec.eq_of_toInt_eq
  rw [BitVec.toInt_ofInt, Int.bmod_def, show ((2 ^ 128 : Nat) : Int) = 2 ^ 128 by norm_num, Int.emod_eq_zero_of_dvd h]
  rfl

/-- A magnitude on the grid of an anchor: the units that it is rounded to, up to multiples of 2^128. -/
theorem fixOnGrid_units (anchor : Int) (neg : Bool) (mag : Nat) (exp : Int) :
    ∃ n : Nat, RoundedTo 0 neg (mag * (2 : ℚ) ^ exp) ((2 : ℚ) ^ (anchor - 96)) n ∧
      fixOnGrid anchor (.fin neg mag exp) = (BitVec.ofInt 128 (if neg then -(n : Int) else n), .fin) := by
  have h2 : (2 : ℚ) ≠ 0 := by norm_num
  by_cases h : 0 ≤ anchor - 96 - exp
  · refine ⟨roundShift 0 neg mag (anchor - 96 - exp).toNat false, ?_, by simp only [fixOnGrid, h, if_true]⟩
    have hr := roundShift_roundedTo (rm := 0) (by norm_num) neg mag (anchor - 96 - exp).toNat (u := (2 : ℚ) ^ exp) (by positivity)
    rwa [← zpow_natCast, ← zpow_add₀ h2, Int.toNat_of_nonneg h, sub_add_cancel] at hr
  · refine ⟨mag <<< (-(anchor - 96 - exp)).toNat, ?_, ?_⟩
    · have hx : (mag : ℚ) * 2 ^ exp = (mag <<< (-(anchor - 96 - exp)).toNat : Nat) * (2 : ℚ) ^ (anchor - 96) := by
        rw [Nat.shiftLeft_eq]
        push_cast
        rw [mul_assoc, ← zpow_natCast, ← zpow_add₀ h2, Int.toNat_of_nonneg (by omega)]
        congr 2; ring
      rw [hx]
      exact roundedTo_exact _ _ (by positivity) _
    · by_cases hfar : anchor - 96 - exp ≤ -128
      · have hdvd : (2 ^ 128 : Int) ∣ (mag <<< (-(anchor - 96 - exp)).toNat : Nat) := by
          rw [Nat.shiftLeft_eq]
          push_cast
          exact (pow_dvd_pow 2 (show 128 ≤ (-(anchor - 96 - exp)).toNat by omega)).mul_left _
        have hword (z : Int) (hz : (2 ^ 128 : Int) ∣ z) : BitVec.ofInt 128 (if neg then -z else z) = 0#128 :=
          ofInt_multiple (by split <;> [exact hz.neg_right; exact hz])
        rw [hword _ hdvd]
        simp only [fixOnGrid, h, hfar, if_false, if_true]
        rw [hword ((0 : Nat) : Int) (dvd_zero _)]
      · simp only [fixOnGrid, h, hfar, if_false]

/-- An addend enters a word rounded to nearest even on the row's grid, modulo 2^128; an infinity or a NaN joins its state. -/
theorem add_rounded (x : ExWord) (anchor : Int) (neg : Bool) (mag : Nat) (exp : Int) :
    let p : ℚ := (if neg then -1 else 1) * (mag : ℚ) * (2 : ℚ) ^ exp
    let unit : ℚ := (2 : ℚ) ^ (anchor - 96)
    ∃ q : Int, (x.add anchor (.fin neg mag exp)).w = x.w + BitVec.ofInt 128 q ∧
      2 * |(q : ℚ) * unit - p| ≤ unit ∧ (2 * |(q : ℚ) * unit - p| = unit → q % 2 = 0) ∧
      (x.add anchor (.fin neg mag exp)).st = x.st ∧
      x.add anchor (.inf neg) = { w := x.w, st := x.st.join (if neg then .ninf else .pinf) } ∧
      x.add anchor .nan = { w := x.w, st := .nan } := by
  intro p unit
  obtain ⟨n, hn, hfix⟩ := fixOnGrid_units anchor neg mag exp
  obtain ⟨hhalf, htie⟩ := hn.nearest
  have hsign : |(((if neg then -(n : Int) else n) : Int) : ℚ) * unit - p| = |(n : ℚ) * unit - mag * (2 : ℚ) ^ exp| := by
    cases neg
    · simp [p]
    · rw [← abs_neg]
      congr 1
      simp only [p, if_true]
      push_cast; ring
  have hinf (b : Bool) : x.add anchor (.inf b) = { w := x.w, st := x.st.join (if b then .ninf else .pinf) } := by
    simp [ExWord.add, fixOnGrid]
  have hnan : x.add anchor .nan = { w := x.w, st := .nan } := by
    cases hx : x.st <;> simp [ExWord.add, fixOnGrid, NonFin.join, hx]
  refine ⟨if neg then -(n : Int) else n, ?_, ?_, ?_, ?_, hinf neg, hnan⟩
  · simp only [ExWord.add, hfix]
  · rwa [hsign]
  · rw [hsign]
    intro he
    have := htie he
    cases neg <;> simp <;> omega
  · simp only [ExWord.add, hfix]
    cases x.st <;> rfl

/-! ## Reading what every write of which is seen (R195) -/

theorem histRead_seen (v : PathView) (path : Path) (draws lane key : Nat) (cur : Byte) :
    ∀ l : List WriteRec, (∀ r ∈ l, r.key = key → v.sees path r = true) → (histRead v path draws lane key l cur).1 = cur
  | [], _ => rfl
  | r :: t, h => by
    unfold histRead
    split
    · next hk => rw [h r List.mem_cons_self hk]; rfl
    · exact histRead_seen v path draws lane key cur t fun x hx => h x (List.mem_cons_of_mem _ hx)

/-- An issuer outside every epoch that is ordered after each write of these bytes reads them as they stand. -/
theorem readBytes_seen {s : State} {v : PathView} (hv : v.epoch = none) (path : Path) (lane : Nat) (ks : List Nat)
    (h : ∀ r ∈ s.hist, r.key ∈ ks.map (home s) → v.sees path r = true) :
    readBytes s v path lane ks = ks.map fun k => memGet s.mem (home s k) := by
  refine List.map_congr_left fun k hk => ?_
  unfold readByte
  rw [hv]
  exact histRead_seen v path s.draws lane _ _ _ fun r hr he => h r hr (he ▸ List.mem_map_of_mem hk)

/-! ## STREAM_DONE (R251) -/

/-- The scratchpad bytes of the activation row of step j of a stream. -/
def streamKeys (t : Team) (op : StreamOp) (j : Nat) : List Nat :=
  keysFrom (spKey t.coreIx (t.base + (op.off + j * op.stride).toNat)) (colBytes op.fmt)

theorem streamKeys_succ (t : Team) (op : StreamOp) (j : Nat) :
    streamKeys t { op with off := op.off + op.stride, row := op.row + 1, left := op.left - 1 } j = streamKeys t op (j + 1) := by
  unfold streamKeys
  dsimp only
  congr 4
  push_cast; ring

/-- Row j of a stream after its step. -/
def streamedRow (s : State) (t : Team) (cols : List (List FVal)) (bad : List Nat) (op : StreamOp) (j : Nat) : AccRow :=
  stepRow ((coreOf s t.coreIx).row (op.row + j)) (anyPoisoned s (streamKeys t op j))
    (elemVals op.fmt (readBytes s op.view (if op.follow.isSome then .c else .m) 0 (streamKeys t op j))) cols bad

/-- The row steps of a stream: of the core, the rows it names alone are changed, each by its own step. -/
theorem streamRows_spec (t : Team) (cols : List (List FVal)) (bad : List Nat) (n : Nat) (op : StreamOp) (s : State) :
    ∃ cs c', (streamRows t cols bad n op s).2 = { s with cores := cs } ∧
      (∀ m, m ≠ t.coreIx → Tab.getD cs m Core.init = coreOf s m) ∧ Tab.getD cs t.coreIx Core.init = c' ∧
      c' = { coreOf s t.coreIx with rows := c'.rows } ∧
      (∀ r, r < op.row ∨ op.row + n ≤ r → c'.row r = (coreOf s t.coreIx).row r) ∧
      ∀ j, j < n → c'.row (op.row + j) = streamedRow s t cols bad op j := by
  induction n generalizing op s with
  | zero => exact ⟨_, _, rfl, fun _ _ => rfl, rfl, rfl, fun _ _ => rfl, fun j hj => absurd hj (Nat.not_lt_zero j)⟩
  | succ n ih =>
    set c1 : Core := { coreOf s t.coreIx with rows := Tab.put (coreOf s t.coreIx).rows op.row (streamedRow s t cols bad op 0) } with hc1
    set s1 : State := { s with cores := Tab.put s.cores t.coreIx c1 } with hs1
    have hrun : streamRows t cols bad (n + 1) op s =
        streamRows t cols bad n { op with off := op.off + op.stride, row := op.row + 1, left := op.left - 1 } s1 := by
      have hrow0 : streamedRow s t cols bad op 0 = stepRow ((coreOf s t.coreIx).row op.row)
          (anyPoisoned s (keysFrom (spKey t.coreIx (t.base + op.off.toNat)) (colBytes op.fmt)))
          (elemVals op.fmt (readBytes s op.view (if op.follow.isSome then .c else .m) 0
            (keysFrom (spKey t.coreIx (t.base + op.off.toNat)) (colBytes op.fmt)))) cols bad := by
        simp only [streamedRow, streamKeys, Nat.cast_zero, zero_mul, add_zero]
      rw [hs1, hc1, hrow0]
      rfl
    obtain ⟨cs, c', h1, h2, h3, h4, h5, h6⟩ :=
      ih { op with off := op.off + op.stride, row := op.row + 1, left := op.left - 1 } s1
    have hcore : coreOf s1 t.coreIx = c1 := getD_put_self ..
    have hrow (r : Nat) : c1.row r = if r = op.row then streamedRow s t cols bad op 0 else (coreOf s t.coreIx).row r := by
      show Tab.getD (Tab.put _ _ _) r _ = _
      rw [getD_put]; rfl
    rw [hcore] at h4 h5
    refine ⟨cs, c', by rw [hrun, h1], fun m hm => (h2 m hm).trans (getD_put_ne _ _ _ hm), h3, by rw [h4], fun r hr => ?_, fun j hj => ?_⟩
    · rw [h5 r (by dsimp only; omega), hrow, if_neg (by omega)]
    · cases j with
      | zero => rw [h5 _ (.inl (by dsimp only; omega)), hrow, if_pos (by omega)]
      | succ j =>
        have h := h6 j (by omega)
        dsimp only at h
        rw [show op.row + (j + 1) = op.row + 1 + j by omega, h]
        unfold streamedRow
        rw [streamKeys_succ, hcore, hrow, if_neg (by dsimp only; omega), show op.row + (j + 1) = op.row + 1 + j by omega]
        rfl

/-- The words of a row after a step on sound operands (R243). -/
theorem stepRow_word {r : AccRow} (hlen : r.words.length = 128) (x : List FVal) (cols : List (List FVal)) {n : Nat} (hn : n < 128) :
    (stepRow r false x cols []).word n =
      (x.zip (cols.getD n [])).foldl (fun y q => y.add r.anchor.toInt (mulVal q.1 q.2)) (r.word n) := by
  have hn' : n < r.words.length := by omega
  simp [stepRow, AccRow.word, hn']

theorem nextStream_first {op : StreamOp} {rest : List StreamOp} (h : op.state ≠ .reserved) :
    nextStream (op :: rest) = some (op, rest) := by
  simp [nextStream, h]

theorem streamDone_spec (s : State) (T : Team) (op : StreamOp) (rest : List StreamOp) (hT : teamById s T.id = some T)
    (hslots : T.slots = op :: rest) (hstate : op.state ≠ .reserved)
    (hsees : ∀ r ∈ s.hist, op.view.sees (if op.follow.isSome then .c else .m) r = true) (hepoch : op.view.epoch = none)
    (hclean : ∀ j, j < op.left → anyPoisoned s (streamKeys T op j) = false ∧
      ((coreOf s T.coreIx).row (op.row + j)).words.length = 128) (hbad : (coreOf s T.coreIx).active.bad = []) :
    ∃ t c', exec (.streamDone T.id) s = .next t ∧
      t = { teamWith s T (fun x => { x with slots := startNext rest }) with cores := t.cores } ∧
      (∀ n, n ≠ T.coreIx → coreOf t n = coreOf s n) ∧ coreOf t T.coreIx = c' ∧
      c' = { coreOf s T.coreIx with rows := c'.rows } ∧
      (∀ r, r < op.row ∨ op.row + op.left ≤ r → c'.row r = (coreOf s T.coreIx).row r) ∧
      ∀ j, j < op.left →
        (c'.row (op.row + j)).anchor = ((coreOf s T.coreIx).row (op.row + j)).anchor ∧
        (c'.row (op.row + j)).owner = ((coreOf s T.coreIx).row (op.row + j)).owner ∧ ∀ n, n < 128 →
          (c'.row (op.row + j)).word n =
            ((elemVals op.fmt ((streamKeys T op j).map fun k => memGet s.mem (home s k))).zip
              (((coreOf s T.coreIx).active.cols.map (elemVals (coreOf s T.coreIx).active.fmt)).getD n [])).foldl
            (fun y q => y.add ((coreOf s T.coreIx).row (op.row + j)).anchor.toInt (mulVal q.1 q.2))
            (((coreOf s T.coreIx).row (op.row + j)).word n) := by
  obtain ⟨cs, c', hs, hother, hcore, hc', hframe, hrows⟩ := streamRows_spec T
    ((coreOf s T.coreIx).active.cols.map (elemVals (coreOf s T.coreIx).active.fmt)) (coreOf s T.coreIx).active.bad op.left op s
  have hrun : exec (.streamDone T.id) s =
      .next (modTeam { s with cores := cs } T.id fun t => { t with slots := startNext rest }) := by
    show execStreamDone T.id s = _
    unfold execStreamDone
    rw [hT]
    dsimp only
    rw [hslots, nextStream_first hstate, ← hs]
    rfl
  refine ⟨_, c', hrun, rfl, hother, hcore, hc', hframe, fun j hj => ?_⟩
  obtain ⟨hsound, hlen⟩ := hclean j hj
  have hrow : c'.row (op.row + j) = stepRow ((coreOf s T.coreIx).row (op.row + j)) false
      (elemVals op.fmt ((streamKeys T op j).map fun k => memGet s.mem (home s k)))
      ((coreOf s T.coreIx).active.cols.map (elemVals (coreOf s T.coreIx).active.fmt)) [] := by
    rw [hrows j hj, streamedRow, hsound, hbad, readBytes_seen hepoch _ _ _ fun r hr _ => hsees r hr]
  rw [hrow]
  exact ⟨rfl, rfl, fun n hn => stepRow_word hlen _ _ hn⟩

/-- Settles O25: the rows that each matrix word names change by their own rule and no others do; a stream's rows change by
the exact sums of their steps. -/
theorem matrixRows : Obligations.MatrixRows := by
  refine ⟨mxClear_ready, mxClearRel_ready, ?_, ?_, add_rounded, ?_⟩
  · intro w f sp s T h hslots hpairs cx a b c halign hin hplane hrows s1
    exact mxStream_ready w f sp s T h hslots hpairs halign hin hplane hrows
  · intro s T op rest hT hslots hstate path c keys hsees hepoch hclean hbad
    exact streamDone_spec s T op rest hT hslots hstate hsees hepoch hclean hbad
  · intro w f sp s T h cx c bit
    exact ⟨fun hx hslots => mxStat_state w f sp s T h hx hslots, mxStat_anchor w f sp s T h⟩

end Sys2Proof.Machine
end

section
/-! PROOFS. Drains of accumulator rows to registers (R245, R252). -/

namespace Sys2Proof.Machine

/-! ## NF (R245, R252) -/

/-- A drain in exact form takes a word that is not finite from one of these columns. -/
def DrainsNonFinite (w : Strip) (s : State) (cols : List Nat) : Prop :=
  w.fmt = 9#4 ∧ ∃ r ∈ rowsOf w, ∃ n ∈ cols, (((coreOf s s.warp.coreIx).row r).word n).st ≠ .fin

theorem noteNf_eq {cx : Cx} {s : State} {cols : List Nat} (teams : List Nat) :
    (DrainsNonFinite cx.w s cols → cx.noteNf s cols teams =
      teams.foldl (fun s t => modTeam s t fun t => { t with nf := true }) s) ∧
    (¬ DrainsNonFinite cx.w s cols → cx.noteNf s cols teams = s) := by
  have htest : ((cx.w.fmt = 9#4 : Bool) && cx.rows.any fun r => cols.any fun n =>
      (((Tab.getD s.cores s.warp.coreIx Core.init).row r).word n).st != .fin) = true ↔ DrainsNonFinite cx.w s cols := by
    simp only [Bool.and_eq_true, decide_eq_true_eq, List.any_eq_true, bne_iff_ne]
    rfl
  unfold Cx.noteNf
  exact ⟨fun h => if_pos (htest.mpr h), fun h => if_neg fun hc => h (htest.mp hc)⟩

/-! ## MX.DRAIN to registers (R252) -/

/-- What one lane of one register gets of a drained row, as the table of R252 lays it out. -/
theorem drainLane_eq (fmt : FmtTag) (r : AccRow) (k i : Nat) : drainLane fmt r k i =
    if fmt = 9#4 then (r.word (32 * (k / 4) + i)).w.extractLsb' (32 * (k % 4)) 32
    else if fmt = 3#4 then BitVec.ofNat 32 ((r.word (32 * k + i)).drain (drainFmt fmt) r.anchor.toInt)
    else BitVec.ofNat 16 ((r.word (64 * k + 2 * i + 1)).drain (drainFmt fmt) r.anchor.toInt) ++
      BitVec.ofNat 16 ((r.word (64 * k + 2 * i)).drain (drainFmt fmt) r.anchor.toInt) := by
  unfold drainLane
  dsimp only
  split
  · apply BitVec.eq_of_toNat_eq
    rw [BitVec.extractLsb'_toNat, BitVec.toNat_ofNat, Nat.shiftRight_eq_div_pow, mul_comm 32 (k / 4)]
  · rw [pack2_eq]

/-- The registers that a drain fills: each row those of its place among the rows. -/
def drainedRegs (cx : Cx) : List RegWrite :=
  cx.rows.zipIdx.flatMap fun p => (List.range (drainPer cx.w.fmt)).map fun k =>
    mkWrite (cx.d + drainPer cx.w.fmt * p.2 + k)
      (.lanes (laneIds.map fun i => drainLane cx.w.fmt ((coreOf cx.s cx.s.warp.coreIx).row p.1) k i)) cx.p cx.w.fmt

theorem drainedRegs_wrote {f : LaneForm} {w : Strip} {sp : Split} {s : State} {lane : Nat → Nat → Nat → Word}
    (hlane : ∀ r k i, drainLane w.fmt ((coreOf s s.warp.coreIx).row r) k i = lane r k i) :
    List.Forall₂ (fun x y => Wrote.of y x) (drainedRegs (cxOf s f w sp)) ((rowsOf w).zipIdx.flatMap fun p =>
      (List.range (drainPer w.fmt)).map fun k =>
        { n := (cxOf s f w sp).d + drainPer w.fmt * p.2 + k, mask := (cxOf s f w sp).p, tag := w.fmt, word := lane p.1 k }) := by
  refine List.rel_flatMap (R := Eq) (List.forall₂_eq_eq_eq ▸ rfl) ?_
  rintro p _ rfl
  rw [List.forall₂_map_left_iff, List.forall₂_map_right_iff]
  exact List.forall₂_same.mpr fun k _ => ⟨rfl, rfl, rfl, rfl, rfl, fun i hi _ => (getD_laneIds _ _ hi).trans (hlane p.1 k i)⟩

theorem mxDrainReg_ready (w : Strip) (f : LaneForm) (sp : Split) (s : State) (T : Team)
    (h : EngineReady (.mxDrainReg w) f w sp s T) (hslots : T.slots = [])
    (hrows : ∀ r ∈ rowsOf w, rowForeign s s.warp r = false) {lane : Nat → Nat → Nat → Word}
    (hlane : ∀ r k i, drainLane w.fmt ((coreOf s s.warp.coreIx).row r) k i = lane r k i) :
    ∃ t, exec (.mxDrainReg w) s = .next t ∧
      (DrainsNonFinite w s (List.range 128) →
        LaneRetired (cxOf s f w sp) (sp.pc + 12#64) (teamWith s T fun x => { x with nf := true }) t) ∧
      (¬ DrainsNonFinite w s (List.range 128) → LaneRetired (cxOf s f w sp) (sp.pc + 12#64) s t) ∧
      CoreIs s t (coreOf s s.warp.coreIx) ∧
      LanePromised ((rowsOf w).zipIdx.flatMap fun p => (List.range (drainPer w.fmt)).map fun k =>
        { n := (cxOf s f w sp).d + drainPer w.fmt * p.2 + k, mask := (cxOf s f w sp).p, tag := w.fmt, word := lane p.1 k }) [] s t := by
  have hrun : exec (.mxDrainReg w) s = .next (retire (.mxDrainReg w) (cxOf s f w sp)
      { s := (cxOf s f w sp).noteNf s (List.range 128) [(cxOf s f w sp).team.id], regs := drainedRegs (cxOf s f w sp), var := true }) :=
    matrixWord_ready (bad := fun _ => false) (stall := slotsUsed) (check := fun cx => cx.rowProt (rowForeign cx.s cx.s.warp))
      h rfl (by simp [slotsUsed, hslots]) (rowProt_none hrows)
  obtain ⟨hnf, hfin⟩ := noteNf_eq (cx := cxOf s f w sp) (s := s) (cols := List.range 128) [(cxOf s f w sp).team.id]
  rw [hrun]
  by_cases hn : DrainsNonFinite w s (List.range 128)
  · have hs1 : (cxOf s f w sp).noteNf s (List.range 128) [(cxOf s f w sp).team.id] = teamWith s T fun x => { x with nf := true } := by
      rw [hnf hn, engine_team h]
      rfl
    obtain ⟨hret, hprom, hcount⟩ := retire_var h.toLaneReady (s1 := teamWith s T fun x => { x with nf := true })
      ⟨rfl, rfl, rfl, rfl⟩ _ _ (drainedRegs_wrote hlane)
    rw [hs1]
    exact ⟨_, rfl, fun _ => hret, fun hc => absurd hn hc, coreIs_of_counts rfl hcount fun _ _ => rfl, hprom⟩
  · obtain ⟨hret, hprom, hcount⟩ := retire_var h.toLaneReady (s1 := s) ⟨rfl, rfl, rfl, rfl⟩ _ _ (drainedRegs_wrote hlane)
    rw [hfin hn]
    exact ⟨_, rfl, fun hc => absurd hc hn, fun _ => hret, coreIs_of_counts rfl hcount fun _ _ => rfl, hprom⟩

end Sys2Proof.Machine
end

section
/-! PROOFS. Drains to memory (R253): the accesses placed and the operation left. -/

namespace Sys2Proof.Machine

/-! ## Accesses placed one after another -/

/-- Placing accesses fills the translation cache alone, and answers each address in its turn. -/
theorem placeList_spec (v : PathView) (w : Warp) (kind : AccKind) (accs : List (DWord × Nat)) (s : State) :
    (∃ c, (placeList v w kind accs s).2 = { s with tlb := c }) ∧
      (placeList v w kind accs s).1.map (·.1) = accs.map (·.1) := by
  induction accs generalizing s with
  | nil => exact ⟨⟨_, rfl⟩, rfl⟩
  | cons p t ih =>
    obtain ⟨c, hc⟩ := placeAccess_keeps s v w kind p.1 p.2
    obtain ⟨⟨c', hc'⟩, hmap⟩ := ih (placeAccess s v w kind p.1 p.2).2
    refine ⟨⟨c', ?_⟩, ?_⟩
    · show (placeList v w kind t (placeAccess s v w kind p.1 p.2).2).2 = _
      rw [hc', hc]
    · show p.1 :: (placeList v w kind t (placeAccess s v w kind p.1 p.2).2).1.map (·.1) = _
      rw [hmap]; rfl

theorem placeList_tlb {v : PathView} {w : Warp} {kind : AccKind} {accs : List (DWord × Nat)} {s s' : State}
    {l : List (DWord × Except AccErr Nat)} (h : placeList v w kind accs s = (l, s')) : ∃ c, s' = { s with tlb := c } := by
  obtain ⟨c, hc⟩ := (placeList_spec v w kind accs s).1
  exact ⟨c, by rw [← hc, h]⟩

theorem failsWith_nil {l : List (DWord × Except AccErr Nat)} (h : ∀ p ∈ l, ∃ k, p.2 = .ok k) (e : AccErr) :
    failsWith l e = [] := by
  refine List.filterMap_eq_nil_iff.mpr fun p hp => ?_
  obtain ⟨k, hk⟩ := h p hp
  simp [hk]

theorem placedFail_none {l : List (DWord × Except AccErr Nat)} (h : ∀ p ∈ l, ∃ k, p.2 = .ok k) (cx : Cx) (kind : Nat) :
    cx.placedFail kind l = none := by
  simp [Cx.placedFail, failsWith_nil h]

/-- Where every access is placed, each has its key. -/
theorem keysOf_placed {l : List (DWord × Except AccErr Nat)} (h : ∀ p ∈ l, ∃ k, p.2 = .ok k) :
    (keysOf l).map .ok = l.map (·.2) := by
  induction l with
  | nil => rfl
  | cons p t ih =>
    obtain ⟨k, hk⟩ := h p List.mem_cons_self
    have ht := ih fun q hq => h q (List.mem_cons_of_mem _ hq)
    simp only [keysOf, List.filterMap_cons, hk, List.map_cons] at ht ⊢
    rw [ht]

/-! ## Rows and columns of a drain -/

theorem zipIdx_map_range {α : Type} (g : Nat → α) (n : Nat) :
    ((List.range n).map g).zipIdx = (List.range n).map fun j => (g j, j) := by
  refine List.ext_getElem (by simp) fun i h1 h2 => ?_
  simp

/-- The element of row j and column n, rows laid one after the other. -/
theorem getElem?_rows {α : Type} (g : Nat → Nat → α) {rows cols j n : Nat} (hj : j < rows) (hn : n < cols) :
    ((List.range rows).flatMap fun j => (List.range cols).map (g j))[j * cols + n]? = some (g j n) := by
  induction rows with
  | zero => omega
  | succ m ih =>
    have hlen : ((List.range m).flatMap fun j => (List.range cols).map (g j)).length = m * cols := by
      simp [List.length_flatMap]
    rw [List.range_succ, List.flatMap_append, List.flatMap_singleton]
    by_cases hm : j < m
    · rw [List.getElem?_append_left, ih hm]
      rw [hlen]
      calc j * cols + n < j * cols + cols := by omega
        _ = (j + 1) * cols := by ring
        _ ≤ m * cols := Nat.mul_le_mul_right _ hm
    · obtain rfl : j = m := by omega
      rw [List.getElem?_append_right (by rw [hlen]; omega), hlen, Nat.add_sub_cancel_left]
      simp [hn]

theorem length_rows {α : Type} (g : Nat → Nat → α) (rows cols : Nat) :
    ((List.range rows).flatMap fun j => (List.range cols).map (g j)).length = rows * cols := by
  simp [List.length_flatMap]

/-- The first column that a drain to memory takes, and how many (R253). -/
def drainCol (o : Nat) : Nat := o / 2 ^ 15 % 2 ^ 7
def drainCount (o : Nat) : Nat := min (drainCol o + (o / 2 ^ 22 % 2 ^ 7 + 1)) 128 - drainCol o

theorem drainCols_eq (cx : Cx) : cx.drainCols =
    (List.range (drainCount (cx.low cx.c).toNat)).map (drainCol (cx.low cx.c).toNat + ·) := by
  unfold Cx.drainCols drainCount drainCol fieldNat
  simp only [Nat.shiftRight_eq_div_pow]
  rfl

theorem drainObj_eq (cx : Cx) : cx.drainObj = 16 * ((cx.low cx.c).toNat % 2 ^ 15) := rfl

/-- The destination of row j, column n of a drain. -/
def drainDst (cx : Cx) (j n : Nat) : DWord :=
  cx.pairA cx.lane0 + BitVec.ofInt 64 (cx.strideB * j) + BitVec.ofNat 64 (n * drainSize cx.w.fmt)

theorem drainDsts_eq (cx : Cx) : cx.drainDsts = (List.range (cx.x 13 7 + 1)).flatMap fun j =>
    (List.range (drainCount (cx.low cx.c).toNat)).map fun n =>
      (cx.x 6 0 + j, drainCol (cx.low cx.c).toNat + n, drainDst cx j n) := by
  unfold Cx.drainDsts Cx.rows
  rw [drainCols_eq, zipIdx_map_range, zipIdx_map_range, List.flatMap_map]
  simp only [List.map_map]
  rfl

/-! ## MX.DRAIN to memory (R253) -/

theorem engineEpoch_none {cx : Cx} (h : cx.s.warp.epoch = none) (l : List (DWord × Nat)) : cx.engineEpoch l = none := by
  unfold Cx.engineEpoch
  rw [List.find?_eq_none.mpr fun p _ => by simp [epochOutside_none h]]
  rfl

theorem objKey_ok {T : Team} {n : Nat} (h : 16 * n + 16 ≤ T.total) :
    objKey (some T) ((16 * n : Nat) : Int) = .ok (spKey T.coreIx (T.base + 16 * n)) := by
  unfold objKey
  rw [if_neg (by push_cast; omega)]
  dsimp only
  rw [if_pos (by simp only [Bool.and_eq_true, decide_eq_true_eq]; omega)]
  rfl

theorem epochRoom_none {v : PathView} (h : v.epoch = none) (s : State) (ks : List Nat) : epochRoom s v ks = .ok := by
  unfold epochRoom
  rw [h]

/-- The operation that a drain to memory leaves, with its accesses placed. -/
def drainOpOf (cx : Cx) (s : State) (obj : Nat) (l : List (DWord × Except AccErr Nat)) : DrainOp where
  id := s.nextId
  core := s.warp.coreIx
  warp := s.warp.id
  objs := [obj]
  items := cx.drainItems s (cx.drainDsts.zip (keysOf l))
  begun := false
  view := cx.view
  ctx := s.warp.ctx
  armed := (s.filters.filter (·.knownTo cx.view cx.sp.id)).map (·.id)

/-- A state with one more drain to memory. -/
def withDrain (s : State) (op : DrainOp) : State := { s with nextId := s.nextId + 1, drains := s.drains ++ [op] }

theorem mxDrainMem_run {w : Strip} {f : LaneForm} {sp : Split} {s s' : State} {T : Team}
    {l : List (DWord × Except AccErr Nat)} (h : EngineReady (.mxDrainMem w) f w sp s T) (hslots : T.slots = [])
    (hepoch : s.warp.epoch = none) (hea : ((cxOf s f w sp).pairA (cxOf s f w sp).lane0).toNat % drainSize w.fmt = 0)
    (hb : (cxOf s f w sp).strideB % drainSize w.fmt = 0) (hbar : (cxOf s f w sp).drainObj + 16 ≤ T.total)
    (hrows : ∀ r ∈ rowsOf w, rowForeign s s.warp r = false)
    (hplace : placeList (cxOf s f w sp).view s.warp .write ((cxOf s f w sp).drainDsts.map fun d => (d.2.2, drainSize w.fmt)) s = (l, s'))
    (hl : ∀ p ∈ l, ∃ k, p.2 = .ok k) :
    exec (.mxDrainMem w) s = .next (retire (.mxDrainMem w) (cxOf s f w sp)
      { s := (cxOf s f w sp).noteNf (withDrain s' (drainOpOf (cxOf s f w sp) s'
          (spKey T.coreIx (T.base + (cxOf s f w sp).drainObj)) l)) (cxOf s f w sp).drainCols [T.id] }) := by
  show execMxDrainMem w s = _
  unfold execMxDrainMem
  refine (matrixWord_ready (bad := fun _ => false) h rfl (by simp [slotsUsed, hslots]) rfl).trans ?_
  obtain ⟨c, rfl⟩ := placeList_tlb hplace
  have hsrc : (cxOf s f w sp).s = s := rfl
  have halign : (decide (((cxOf s f w sp).pairA (cxOf s f w sp).lane0).toNat % drainSize w.fmt ≠ 0) ||
      decide ((cxOf s f w sp).strideB % (drainSize w.fmt : Int) ≠ 0)) = false := by simp [hea, hb]
  have hview : (cxOf s f w sp).view.epoch = none := by
    show s.warp.epoch.map _ = none
    rw [hepoch]; rfl
  have hprot : (cxOf s f w sp).rowProt (rowForeign s s.warp) = none := rowProt_none hrows
  have hobj : teamObjects { s with tlb := c } s.warp (cxOf s f w sp).drainObj (spKey T.coreIx (T.base + (cxOf s f w sp).drainObj)) =
      [spKey T.coreIx (T.base + (cxOf s f w sp).drainObj)] := by
    simp [teamObjects, partnerObject, h.single]
  have hkey : objKey (some T) ((cxOf s f w sp).drainObj : Int) = .ok (spKey T.coreIx (T.base + (cxOf s f w sp).drainObj)) :=
    objKey_ok hbar
  dsimp only
  simp only [hsrc, engineEpoch_none (cx := cxOf s f w sp) hepoch, halign, hplace, engine_team h, hkey, failsWith_nil hl, hprot,
    placedFail_none hl, epochRoom_none hview, hobj, Cx.bothTeams, h.single, Bool.false_eq_true, if_false,
    Option.none_or]
  rfl

/-- A drain in exact form that takes a word which is not finite sets NF of its team, and nothing else (R245). -/
theorem noteNf_teams {cx : Cx} {s : State} {cols : List Nat} (id : Nat) {P : Prop} [Decidable P]
    (hP : P ↔ DrainsNonFinite cx.w s cols) : cx.noteNf s cols [id] =
      { s with teams := s.teams.map fun x => { x with nf := x.nf || (x.id == id && decide P) } } := by
  obtain ⟨hnf, hfin⟩ := noteNf_eq (cx := cx) (s := s) (cols := cols) [id]
  by_cases h : P
  · rw [hnf (hP.mp h)]
    show modTeam s id _ = _
    unfold modTeam
    congr 1
    refine List.map_congr_left fun x _ => ?_
    by_cases hx : x.id = id
    · simp [hx, h]
    · simp [hx, h, beq_eq_false_iff_ne.mpr hx]
  · rw [hfin fun hc => h (hP.mpr hc)]
    simp [h]

theorem laneRetired_beside {cx : Cx} {next : DWord} {s t : State} (h : LaneRetired cx next s t) :
    t.tlb = s.tlb ∧ t.teams = s.teams := by
  obtain ⟨-, -, -, ht, -, -⟩ := h
  exact ⟨by rw [ht], by rw [ht]⟩

/-- A word that has left a drain: its translation cache and teams are those of the state it leaves. -/
theorem laneRetired_drain {cx : Cx} {next : DWord} {s t : State} {tlb : List TlbEntry} {drains : List DrainOp} {n : Nat}
    {teams : List Team} (hret : LaneRetired cx next { s with tlb := tlb, drains := drains, nextId := n, teams := teams } t)
    (hres : LaneResults [] [] { s with tlb := tlb, drains := drains, nextId := n, teams := teams } t) :
    LaneRetired cx next { s with tlb := t.tlb, drains := drains, nextId := n, teams := t.teams } t ∧
      LaneResults [] [] { s with tlb := t.tlb, drains := drains, nextId := n, teams := t.teams } t := by
  obtain ⟨htlb, hteams⟩ := laneRetired_beside hret
  rw [htlb, hteams]
  exact ⟨hret, hres⟩

/-- The item of row j and column n of a drain whose accesses are placed. -/
theorem drainItems_get {f : LaneForm} {w : Strip} {sp : Split} {s s1 : State} (hcores : s1.cores = s.cores) (hwarp : s1.warp = s.warp)
    (hsingle : s.warp.rg = none) {l : List (DWord × Except AccErr Nat)} (hl : ∀ p ∈ l, ∃ k, p.2 = .ok k) {j n k : Nat} {va : DWord}
    (hj : j < Form.xf w 13 7 + 1) (hn : n < drainCount ((cxOf s f w sp).low (cxOf s f w sp).c).toNat)
    (hk : l[j * drainCount ((cxOf s f w sp).low (cxOf s f w sp).c).toNat + n]? = some (va, .ok k)) :
    ((cxOf s f w sp).drainItems s1 ((cxOf s f w sp).drainDsts.zip (keysOf l)))[
        j * drainCount ((cxOf s f w sp).low (cxOf s f w sp).c).toNat + n]? =
      some { addr := drainDst (cxOf s f w sp) j n, dst := keysFrom k (drainSize w.fmt), twin := [], add := w.x.getLsbD 14
             bytes := drainBytes w.fmt ((coreOf s s.warp.coreIx).row (Form.xf w 6 0 + j))
               (drainCol ((cxOf s f w sp).low (cxOf s f w sp).c).toNat + n) } := by
  have hdst := getElem?_rows (fun j n => ((cxOf s f w sp).x 6 0 + j, drainCol ((cxOf s f w sp).low (cxOf s f w sp).c).toNat + n,
    drainDst (cxOf s f w sp) j n)) (rows := (cxOf s f w sp).x 13 7 + 1) hj hn
  rw [← drainDsts_eq] at hdst
  have hkey : (keysOf l)[j * drainCount ((cxOf s f w sp).low (cxOf s f w sp).c).toNat + n]? = some k := by
    have hmap := congrArg (fun m => m[j * drainCount ((cxOf s f w sp).low (cxOf s f w sp).c).toNat + n]?) (keysOf_placed hl)
    simpa [hk] using hmap
  have hzip := (List.getElem?_zip_eq_some (z := (((cxOf s f w sp).x 6 0 + j,
    drainCol ((cxOf s f w sp).low (cxOf s f w sp).c).toNat + n, drainDst (cxOf s f w sp) j n), k))).mpr ⟨hdst, hkey⟩
  unfold Cx.drainItems
  rw [List.getElem?_map, hzip, hcores, hwarp]
  simp only [Option.map_some, twinKeys, hsingle]
  rfl

theorem mxDrainMem_ready {w : Strip} {f : LaneForm} {sp : Split} {s s' : State} {T : Team}
    {l : List (DWord × Except AccErr Nat)} (h : EngineReady (.mxDrainMem w) f w sp s T) (hslots : T.slots = [])
    (hepoch : s.warp.epoch = none) (hea : ((cxOf s f w sp).pairA (cxOf s f w sp).lane0).toNat % drainSize w.fmt = 0)
    (hb : (cxOf s f w sp).strideB % drainSize w.fmt = 0) (hbar : (cxOf s f w sp).drainObj + 16 ≤ T.total)
    (hrows : ∀ r ∈ rowsOf w, rowForeign s s.warp r = false) {ncol : Nat}
    (hncol : ncol = drainCount ((cxOf s f w sp).low (cxOf s f w sp).c).toNat)
    (hplace : placeList (cxOf s f w sp).view s.warp .write ((List.range (rowsOf w).length).flatMap fun j =>
      (List.range ncol).map fun n => (drainDst (cxOf s f w sp) j n, drainSize w.fmt)) s = (l, s'))
    (hl : ∀ p ∈ l, ∃ k, p.2 = .ok k) {P : Prop} [Decidable P]
    (hP : P ↔ DrainsNonFinite w s (cxOf s f w sp).drainCols) :
    ∃ t op, exec (.mxDrainMem w) s = .next t ∧
      (let s1 := { s with tlb := t.tlb, drains := s.drains ++ [op], nextId := s.nextId + 1, teams := t.teams }
       LaneRetired (cxOf s f w sp) (sp.pc + 12#64) s1 t ∧ LaneResults [] [] s1 t) ∧ CoreIs s t (coreOf s s.warp.coreIx) ∧
      t.teams = s.teams.map (fun x => { x with nf := x.nf || (x.id == T.id && decide P) }) ∧
      op.id = s.nextId ∧ op.objs = [spKey T.coreIx (T.base + (cxOf s f w sp).drainObj)] ∧ op.view = (cxOf s f w sp).view ∧
      op.items.length = (rowsOf w).length * ncol ∧
      ∀ j n k, j < (rowsOf w).length → n < ncol → l[j * ncol + n]? = some (drainDst (cxOf s f w sp) j n, .ok k) →
        op.items[j * ncol + n]? = some { addr := drainDst (cxOf s f w sp) j n, dst := keysFrom k (drainSize w.fmt), twin := []
                                         add := w.x.getLsbD 14
                                         bytes := drainBytes w.fmt ((coreOf s s.warp.coreIx).row (Form.xf w 6 0 + j))
                                           (drainCol ((cxOf s f w sp).low (cxOf s f w sp).c).toNat + n) } := by
  subst hncol
  have hlen : (rowsOf w).length = Form.xf w 13 7 + 1 := by simp [rowsOf]
  have haccs : ((List.range (rowsOf w).length).flatMap fun j => (List.range (drainCount ((cxOf s f w sp).low (cxOf s f w sp).c).toNat)).map
      fun n => (drainDst (cxOf s f w sp) j n, drainSize w.fmt)) = (cxOf s f w sp).drainDsts.map fun d => (d.2.2, drainSize w.fmt) := by
    rw [drainDsts_eq, List.map_flatMap, hlen]
    simp only [List.map_map]
    rfl
  rw [haccs] at hplace
  have hrun := mxDrainMem_run h hslots hepoch hea hb hbar hrows hplace hl
  obtain ⟨c, rfl⟩ := placeList_tlb hplace
  set op := drainOpOf (cxOf s f w sp) { s with tlb := c } (spKey T.coreIx (T.base + (cxOf s f w sp).drainObj)) l with hop
  have hnote := noteNf_teams (cx := cxOf s f w sp) (s := withDrain { s with tlb := c } op) (cols := (cxOf s f w sp).drainCols) T.id hP
  rw [hnote] at hrun
  obtain ⟨hret, hres, hci⟩ := engine_silent (i := .mxDrainMem w) h.toLaneReady (s1 := { withDrain { s with tlb := c } op with
    teams := s.teams.map fun x => { x with nf := x.nf || (x.id == T.id && decide P) } }) ⟨rfl, rfl, rfl, rfl⟩ fun _ _ => rfl
  refine ⟨_, op, hrun, ?_, hci, (laneRetired_beside hret).2, rfl, rfl, rfl, ?_, fun j n k hj hn hk => ?_⟩
  · exact laneRetired_drain hret hres
  · have hmap := congrArg List.length (keysOf_placed hl)
    have hplaced := congrArg List.length (placeList_spec (cxOf s f w sp).view s.warp .write
      ((cxOf s f w sp).drainDsts.map fun d => (d.2.2, drainSize w.fmt)) s).2
    rw [hplace] at hplaced
    simp only [List.length_map] at hmap hplaced
    show ((cxOf s f w sp).drainItems _ ((cxOf s f w sp).drainDsts.zip (keysOf l))).length = _
    rw [Cx.drainItems, List.length_map, List.length_zip, hmap, hplaced, min_self, drainDsts_eq, length_rows, hlen]
    rfl
  · exact drainItems_get (s1 := { s with tlb := c }) rfl rfl h.single hl (hlen ▸ hj) hn hk

end Sys2Proof.Machine
end

section
/-! PROOFS. Bytes put in memory, counted against barrier objects (R217), and the landing of drained bytes (R253). -/

namespace Sys2Proof.Machine

/-! ## Bytes put at their homes -/

/-- A state holds these bytes at these places, which another had not yet: no other byte differs, the newer write records
are of these places, and nothing but memory and its bookkeeping differs. -/
structure Puts (s t : State) (l : List (Nat × Byte)) : Prop where
  beside : ∃ m h e d p c, t = { s with mem := m, hist := h, serial := e, spDirty := d, poison := p, sent := c }
  bytes : ∀ p ∈ l, memGet t.mem p.1 = p.2
  frame : ∀ j, j ∉ l.map (·.1) → memGet t.mem j = memGet s.mem j
  hist : ∀ r ∈ t.hist, r ∈ s.hist ∨ r.key ∈ l.map (·.1)

theorem Puts.nil (s : State) : Puts s s [] :=
  ⟨⟨_, _, _, _, _, _, rfl⟩, by simp, fun _ _ => rfl, fun _ hr => .inl hr⟩

theorem Puts.home {s t : State} {l : List (Nat × Byte)} (h : Puts s t l) (k : Nat) : home t k = home s k := by
  obtain ⟨m, hi, e, d, p, c, rfl⟩ := h.beside
  rfl

theorem Puts.units {s t : State} {l : List (Nat × Byte)} (h : Puts s t l) :
    t.warp = s.warp ∧ t.others = s.others ∧ t.cores = s.cores ∧ t.teams = s.teams ∧ t.drains = s.drains := by
  obtain ⟨m, hi, e, d, p, c, rfl⟩ := h.beside
  exact ⟨rfl, rfl, rfl, rfl, rfl⟩

/-- Bytes put after others at places apart from theirs. -/
theorem Puts.append {s t u : State} {a b : List (Nat × Byte)} (ha : Puts s t a) (hb : Puts t u b)
    (hab : ∀ j ∈ a.map (·.1), j ∉ b.map (·.1)) : Puts s u (a ++ b) where
  beside := by
    obtain ⟨_, _, _, _, _, _, rfl⟩ := ha.beside
    obtain ⟨_, _, _, _, _, _, rfl⟩ := hb.beside
    exact ⟨_, _, _, _, _, _, rfl⟩
  bytes p hp := by
    rcases List.mem_append.mp hp with hp | hp
    · rw [hb.frame _ (hab _ (List.mem_map_of_mem hp)), ha.bytes p hp]
    · exact hb.bytes p hp
  frame j hj := by
    rw [List.map_append, List.mem_append, not_or] at hj
    rw [hb.frame j hj.2, ha.frame j hj.1]
  hist r hr := by
    rw [List.map_append, List.mem_append]
    rcases hb.hist r hr with hr | hr
    · exact (ha.hist r hr).imp_right .inl
    · exact .inr (.inr hr)

/-- The marks of poison and the numbers of writes that a store leaves besides. -/
theorem Puts.marked {s t : State} {l : List (Nat × Byte)} (h : Puts s t l) (v : PathView) (ks : List Nat) (bad : Bool) :
    Puts s (countRemote (poisonAfterWrite t ks bad) v ks) l := by
  obtain ⟨p, hp⟩ := poisonAfterWrite_keeps t ks bad
  obtain ⟨c, hc⟩ := countRemote_keeps { t with poison := p } v ks
  rw [hp, hc]
  obtain ⟨_, _, _, _, _, _, rfl⟩ := h.beside
  exact ⟨⟨_, _, _, _, _, _, rfl⟩, h.bytes, h.frame, h.hist⟩

/-- The bytes of a run, read back in their order. -/
theorem Puts.read {s t : State} {ks : List Nat} {bs : List Byte} (h : Puts s t (ks.zip bs)) (hlen : ks.length = bs.length) :
    ks.map (memGet t.mem) = bs := by
  have hget : ∀ p ∈ ks.zip bs, memGet t.mem p.1 = p.2 := h.bytes
  calc ks.map (memGet t.mem) = ((ks.zip bs).map Prod.fst).map (memGet t.mem) := by rw [List.map_fst_zip hlen.le]
    _ = (ks.zip bs).map Prod.snd := by rw [List.map_map]; exact List.map_congr_left hget
    _ = bs := List.map_snd_zip hlen.ge

/-- A run of bytes is put where each step puts its byte, be it that the issuer is ordered after each write of that byte. -/
theorem foldl_puts {v : PathView} {path : Path} {step : State → Nat → Byte → State}
    (hstep : ∀ t k b, (∀ r ∈ t.hist, r.key = home t k → v.sees path r = true) → Puts t (step t k b) [(home t k, b)])
    (l : List (Nat × Byte)) (s : State) (hsees : ∀ r ∈ s.hist, r.key ∈ l.map (fun p => home s p.1) → v.sees path r = true)
    (hnodup : (l.map fun p => home s p.1).Nodup) :
    Puts s (l.foldl (fun t p => step t p.1 p.2) s) (l.map fun p => (home s p.1, p.2)) := by
  induction l generalizing s with
  | nil => exact .nil s
  | cons p l ih =>
    rw [List.map_cons, List.nodup_cons] at hnodup
    have hp : Puts s (step s p.1 p.2) [(home s p.1, p.2)] :=
      hstep s p.1 p.2 fun r hr hk => hsees r hr (by rw [hk]; exact List.mem_cons_self)
    have hrest := ih (step s p.1 p.2)
    simp only [hp.home] at hrest
    refine hp.append (hrest (fun r hr hk => ?_) hnodup.2) ?_
    · rcases hp.hist r hr with hr | hr
      · exact hsees r hr (List.mem_cons_of_mem _ hk)
      · have hkey : r.key = home s p.1 := by simpa using hr
        exact absurd (hkey ▸ hk) hnodup.1
    · simpa [Function.comp_def] using hnodup.1

/-- A byte written by an issuer that is ordered after each write of it. -/
theorem writeByte_puts {v : PathView} (hv : v.epoch = none) (path : Path) (land group : Nat) (s : State) (k : Nat) (b : Byte)
    (h : ∀ r ∈ s.hist, r.key = home s k → v.sees path r = true) :
    Puts s (writeByte s v path land group k b) [(home s k, b)] := by
  obtain ⟨d, hd⟩ := markDirty_keeps { s with serial := s.serial + 1 } (home s k)
  have hrun : writeByte s v path land group k b = { s with
      serial := s.serial + 1, spDirty := d, mem := memPut s.mem (home s k) b
      hist := ⟨s.serial + 1, path, home s k, memGet s.mem (home s k), v.own, land, none, false, group, false⟩ :: s.hist } := by
    simp only [writeByte, hv, writeCommitted, hd]
    split
    · next x hx =>
      have hkey : x.key = home s k := by simpa using List.find?_some hx
      rw [h x (List.mem_of_find?_eq_some hx) hkey, Bool.true_or, if_pos rfl]
    · rfl
  rw [hrun]
  refine ⟨⟨_, _, _, _, _, _, rfl⟩, by simp [memGet_put], fun j hj => ?_, fun r hr => ?_⟩
  · rw [memGet_put, if_neg (by simpa using hj)]
  · rcases List.mem_cons.mp hr with rfl | hr
    · exact .inr List.mem_cons_self
    · exact .inl hr

/-- A byte of an add-on-store stands whatever was written before it (R253). -/
theorem sumByte_puts {v : PathView} (hv : v.epoch = none) (land group : Nat) (s : State) (k : Nat) (b : Byte) :
    Puts s (sumByte s v land group k b) [(home s k, b)] := by
  obtain ⟨d, hd⟩ := markDirty_keeps { s with serial := s.serial + 1 } (home s k)
  simp only [sumByte, hv, hd]
  refine ⟨⟨_, _, _, _, _, _, rfl⟩, by simp [memGet_put], fun j hj => ?_, fun r hr => ?_⟩
  · rw [memGet_put, if_neg (by simpa using hj)]
  · rcases List.mem_cons.mp hr with rfl | hr
    · exact .inr List.mem_cons_self
    · exact .inl hr

theorem homes_zip (s : State) {ks : List Nat} {bs : List Byte} (hlen : ks.length ≤ bs.length) :
    (ks.zip bs).map (fun p => home s p.1) = ks.map (home s) := by
  rw [← List.map_fst_zip hlen, List.map_map, List.map_fst_zip hlen]
  rfl

/-- A store by an issuer that is ordered after each write of its bytes. -/
theorem writeBytes_puts {v : PathView} (hv : v.epoch = none) (path : Path) (land : Nat) (s : State) {ks : List Nat} {bs : List Byte}
    (bad : Bool) (hlen : ks.length ≤ bs.length) (hsees : ∀ r ∈ s.hist, r.key ∈ ks.map (home s) → v.sees path r = true)
    (hnodup : (ks.map (home s)).Nodup) : Puts s (writeBytes s v path land ks bs bad) ((ks.map (home s)).zip bs) := by
  have h := foldl_puts (writeByte_puts hv path land (s.serial + 1)) (ks.zip bs) s (by rwa [homes_zip s hlen])
    (by rwa [homes_zip s hlen])
  rw [List.zip_map_left]
  exact h.marked v ks bad

theorem sumBytes_puts {v : PathView} (hv : v.epoch = none) (land : Nat) (s : State) {ks : List Nat} {bs : List Byte}
    (bad : Bool) (hlen : ks.length ≤ bs.length) (hsees : ∀ r ∈ s.hist, v.sees .m r = true)
    (hnodup : (ks.map (home s)).Nodup) : Puts s (sumBytes s v land ks bs bad) ((ks.map (home s)).zip bs) := by
  have h := foldl_puts (path := .m) (fun t k b _ => sumByte_puts hv land (s.serial + 1) t k b) (ks.zip bs) s
    (fun r hr _ => hsees r hr) (by rwa [homes_zip s hlen])
  rw [List.zip_map_left]
  exact h.marked v ks bad

/-! ## Bytes counted against a barrier object (R217) -/

theorem ofBytesLE_lt : ∀ l : List Byte, ofBytesLE l < 256 ^ l.length
  | [] => by simp [ofBytesLE]
  | b :: t => by
    have hb : b.toNat < 256 := b.isLt
    have ht := ofBytesLE_lt t
    rw [ofBytesLE, List.length_cons, pow_succ]
    omega

/-- The counts of arrivals of an object in memory are of 16 bits. -/
theorem BarObj.parse_counts (l : List Byte) : (BarObj.parse l).pendArr < 2 ^ 16 ∧ (BarObj.parse l).expArr < 2 ^ 16 := by
  have h (o : Nat) : ofBytesLE ((l.drop o).take 2) < 2 ^ 16 :=
    (ofBytesLE_lt _).trans_le (Nat.pow_le_pow_right (n := 256) (by norm_num) (List.length_take_le _ _))
  exact ⟨h 4, h 6⟩

/-- The end of an update keeps the counts of arrivals within 16 bits. -/
theorem BarObj.settle_counts {o : BarObj} (hp : o.pendArr < 2 ^ 16) (he : o.expArr < 2 ^ 16) :
    o.settle.pendArr < 2 ^ 16 ∧ o.settle.expArr < 2 ^ 16 := by
  unfold BarObj.settle
  split
  · exact ⟨he, he⟩
  · exact ⟨hp, he⟩

theorem homes_object (s : State) {k : Nat} (hk : spBase ≤ k) (n : Nat) : (keysFrom k n).map (home s) = keysFrom k n :=
  (List.map_congr_left fun _ hj => home_scratchpad s (hk.trans (keysFrom_ge hj).1)).trans (List.map_id _)

theorem keysFrom_nodup (k n : Nat) : (keysFrom k n).Nodup :=
  List.nodup_range.map fun _ _ hab => Nat.add_left_cancel hab

/-- What the end of an update does beside memory: fences, filters, times of lines and landings of a completed phase. -/
theorem closed_beside (s : State) (v : PathView) (key : Nat) (p : Prop) [Decidable p] :
    ∃ tf fl lt la bs, (if p then stampHome (publish s v) 0#48 key else closePhase (stampHome (publish s v) 0#48 key) key) =
      { s with tfences := tf, filters := fl, lineTimes := lt, landings := la, barSeen := bs } := by
  split <;> exact ⟨_, _, _, _, _, rfl⟩

/-- Bytes landed against an object in a scratchpad whose writes are ordered: the object counts them, and no byte beside
it, no unit and no drain changes. -/
theorem barLand_object (s : State) {k : Nat} (hk : spBase ≤ k) (n : Nat)
    (h : ∀ r ∈ s.hist, r.key ∈ keysFrom k 16 → r.path = .g ∨ r.fenced.isSome = true) :
    objAt (barLand s k n) k = ((objAt s k).landed n).settle ∧ SameMemoryBut (keysFrom k 16) s (barLand s k n) ∧
      (barLand s k n).warp = s.warp ∧ (barLand s k n).others = s.others ∧ (barLand s k n).cores = s.cores ∧
      (barLand s k n).teams = s.teams ∧ (barLand s k n).drains = s.drains := by
  have hhome := homes_object s hk 16
  have hsees (r) (hr : r ∈ s.hist) (hkey : r.key ∈ (keysFrom k 16).map (home s)) : (PathView.start 0 s.serial).sees .g r = true :=
    sees_ordered rfl (h r hr (hhome ▸ hkey))
  have hread : readBar s (PathView.start 0 s.serial) k = objAt s k := by
    show BarObj.parse (readBytes s (PathView.start 0 s.serial) .g 63 (keysFrom k 16)) = _
    rw [readBytes_seen rfl _ _ _ hsees]
    exact congrArg BarObj.parse (List.map_congr_left fun j hj => by rw [home_scratchpad s (hk.trans (keysFrom_ge hj).1)])
  have hput := writeBytes_puts rfl .g 0 s false (bs := ((objAt s k).landed n).settle.bytes)
    (by rw [keysFrom_len, BarObj.bytes_length]) hsees (hhome.symm ▸ keysFrom_nodup k 16)
  rw [hhome] at hput
  have hrun : barLand s k n = if ((objAt s k).landed n).settle.phase = ((objAt s k).landed n).phase then
      stampHome (publish (writeBytes s (PathView.start 0 s.serial) .g 0 (keysFrom k 16) ((objAt s k).landed n).settle.bytes false)
        (PathView.start 0 s.serial)) 0#48 k
      else closePhase (stampHome (publish (writeBytes s (PathView.start 0 s.serial) .g 0 (keysFrom k 16)
        ((objAt s k).landed n).settle.bytes false) (PathView.start 0 s.serial)) 0#48 k) k := by
    rw [← hread]
    rfl
  obtain ⟨hp, he⟩ := BarObj.parse_counts ((keysFrom k 16).map (memGet s.mem))
  obtain ⟨hp', he'⟩ := BarObj.settle_counts (o := (objAt s k).landed n) hp he
  obtain ⟨_, _, _, _, _, hbeside⟩ := closed_beside (writeBytes s (PathView.start 0 s.serial) .g 0 (keysFrom k 16)
    ((objAt s k).landed n).settle.bytes false) (PathView.start 0 s.serial) k
    (((objAt s k).landed n).settle.phase = ((objAt s k).landed n).phase)
  rw [hrun, hbeside]
  refine ⟨?_, fun j hj => hput.frame j ?_, ?_⟩
  · show BarObj.parse ((keysFrom k 16).map (memGet (writeBytes _ _ _ _ _ _ _).mem)) = _
    rw [hput.read (by rw [keysFrom_len, BarObj.bytes_length]), BarObj.parse_bytes _ hp' he']
  · rwa [List.map_fst_zip (by rw [keysFrom_len, BarObj.bytes_length])]
  · obtain ⟨_, _, _, _, _, _, hw⟩ := hput.beside
    rw [hw]
    exact ⟨rfl, rfl, rfl, rfl, rfl⟩

/-! ## DRAIN_BYTES_LAND (R253) -/

/-- The bytes that an item of a drain leaves at its destination: its own, or their sum with what stands there. -/
def landedBytes (s : State) (x : DrainItem) : List Byte :=
  if x.add then toBytesLE 16 (ofBytesLE (x.dst.map fun y => memGet s.mem (home s y)) + ofBytesLE x.bytes) else x.bytes

/-- An item of a drain of which no filter takes anything: its bytes are put at its destination. -/
theorem landItem_puts (s : State) (d : DrainOp) (land : Nat) (x : DrainItem) (hsees : ∀ r ∈ s.hist, d.view.sees .m r = true)
    (hepoch : d.view.epoch = none) (htwin : x.twin = []) (hlen : x.dst.length = x.bytes.length)
    (hnodup : (x.dst.map (home s)).Nodup) (hadd : x.add = true → x.bytes.length = 16)
    (hfilter : ∀ f ∈ s.filters, f.place x.addr = none) :
    Puts s (landItem s d land x) ((x.dst.map (home s)).zip (landedBytes s x)) := by
  have hview : (if x.dst.any (fun k => spBase ≤ k) then { d.view with epoch := none } else d.view) = d.view := by
    split
    · rw [← hepoch]
    · rfl
  have hseen : ∀ r ∈ s.hist, r.key ∈ x.dst.map (home s) → d.view.sees .m r = true := fun r hr _ => hsees r hr
  unfold landItem landedBytes
  dsimp only
  rw [hview, htwin]
  split
  · next h =>
    have hold : x.dst.map (standingByte s d.view) = x.dst.map fun y => memGet s.mem (home s y) := by
      refine List.map_congr_left fun y _ => ?_
      simp [standingByte, hepoch]
    rw [hold]
    have hsum := sumBytes_puts hepoch land s (anyPoisoned s x.dst)
      (bs := toBytesLE 16 (ofBytesLE (x.dst.map fun y => memGet s.mem (home s y)) + ofBytesLE x.bytes))
      (by rw [toBytesLE_len, hlen, hadd h]) hsees hnodup
    exact hsum.marked d.view [] _
  · have hkeep : (if x.bytes.length = 16 then none else filterConsume s d x.addr x.bytes) = none := by
      have hnone : consumer s d x.addr = none := List.findSome?_eq_none_iff.mpr fun f hf => by rw [hfilter f hf]
      split
      · rfl
      · simp [filterConsume, hnone]
    rw [hkeep]
    exact (writeBytes_puts hepoch .m land s false hlen.le hseen hnodup).marked d.view [] false

/-- The drains left when one item of this one has landed. -/
def drainsLeft (s : State) (d : DrainOp) (ix : Nat) : List DrainOp :=
  if (d.items.eraseIdx ix).isEmpty then s.drains.filter (·.id != d.id)
  else s.drains.map fun y => if y.id = d.id then { y with items := d.items.eraseIdx ix, begun := true } else y

theorem drainsLeft_last {s : State} {d : DrainOp} {ix : Nat} (h : ix < d.items.length) :
    (d.items.length = 1 → drainsLeft s d ix = s.drains.filter (·.id != d.id)) ∧
    (d.items.length ≠ 1 → drainsLeft s d ix =
      s.drains.map fun y => if y.id = d.id then { y with items := d.items.eraseIdx ix, begun := true } else y) := by
  have hlen : (d.items.eraseIdx ix).length = d.items.length - 1 := List.length_eraseIdx_of_lt h
  refine ⟨fun h1 => if_pos ?_, fun h1 => if_neg ?_⟩
  · rw [List.isEmpty_iff_length_eq_zero, hlen, h1]
  · rw [List.isEmpty_iff_length_eq_zero, hlen]
    omega

/-- One item of a drain, that of the choice, lands and is counted. -/
theorem drainBytesLand_run {s : State} {d : DrainOp} (hd : s.drains.find? (fun x => x.id == d.id) = some d) (hitems : d.items ≠ []) :
    ∃ ix x, d.items[ix]? = some x ∧ exec (.drainBytesLand d.id) s =
      .next (barLandAll { landItem (newLanding s .m d.objs).2 d s.nextId x with
        drains := drainsLeft (landItem (newLanding s .m d.objs).2 d s.nextId x) d ix } d.objs x.bytes.length) := by
  set ix := if d.items.length ≤ 1 then 0 else (Config.free s.draws).toNat % d.items.length with hix
  have hpos : 0 < d.items.length := List.length_pos_iff.mpr hitems
  have hlt : ix < d.items.length := by
    rw [hix]
    split
    · exact hpos
    · exact Nat.mod_lt _ hpos
  refine ⟨ix, d.items[ix], List.getElem?_eq_getElem hlt, ?_⟩
  show execDrainBytesLand d.id s = _
  unfold execDrainBytesLand
  rw [hd]
  dsimp only
  rw [← hix, List.getElem?_eq_getElem hlt]
  rfl

theorem settle_landed (o : BarObj) (n : Nat) : (o.landed n).settle = landedObj o n := by
  unfold BarObj.settle BarObj.landed landedObj
  simp only [Bool.and_eq_true, decide_eq_true_eq, beq_iff_eq]

theorem drainBytesLand_spec (s : State) (d : DrainOp) (k : Nat) (hd : s.drains.find? (fun x => x.id == d.id) = some d)
    (hitems : d.items ≠ []) (hobjs : d.objs = [k]) (hk : spBase ≤ k) (hord : Ordered s)
    (hsees : ∀ r ∈ s.hist, d.view.sees .m r = true) (hepoch : d.view.epoch = none)
    (hall : ∀ x ∈ d.items, x.twin = [] ∧ x.dst.length = x.bytes.length ∧ (x.dst.map (home s)).Nodup ∧
      (x.add = true → x.bytes.length = 16) ∧ (∀ y ∈ x.dst, home s y ∉ keysFrom k 16) ∧ ∀ f ∈ s.filters, f.place x.addr = none) :
    ∃ (t : State) (ix : Nat) (x : DrainItem), exec (.drainBytesLand d.id) s = .next t ∧ d.items[ix]? = some x ∧
      (x.dst.map fun y => memGet t.mem (home s y)) = landedBytes s x ∧
      SameMemoryBut (x.dst.map (home s) ++ keysFrom k 16) s t ∧ objAt t k = landedObj (objAt s k) x.bytes.length ∧
      (d.items.length = 1 → t.drains = s.drains.filter fun y => y.id != d.id) ∧
      (d.items.length ≠ 1 → t.drains = s.drains.map fun y => if y.id = d.id then
        { y with items := d.items.eraseIdx ix, begun := true } else y) ∧
      t.warp = s.warp ∧ t.others = s.others ∧ t.cores = s.cores ∧ t.teams = s.teams := by
  obtain ⟨ix, x, hx, hrun⟩ := drainBytesLand_run hd hitems
  obtain ⟨hlt, rfl⟩ := List.getElem?_eq_some_iff.mp hx
  obtain ⟨htwin, hlen, hnodup, hadd, hapart, hfilter⟩ := hall _ (List.getElem_mem hlt)
  set x := d.items[ix]
  set u := landItem (newLanding s .m d.objs).2 d s.nextId x
  have hput : Puts (newLanding s .m d.objs).2 u ((x.dst.map (home s)).zip (landedBytes s x)) :=
    landItem_puts (newLanding s .m d.objs).2 d s.nextId x hsees hepoch htwin hlen hnodup hadd hfilter
  have hbytes : (x.dst.map (home s)).length = (landedBytes s x).length := by
    unfold landedBytes
    split
    · next h => rw [List.length_map, toBytesLE_len, hlen, hadd h]
    · rw [List.length_map, hlen]
  have hplaces : ((x.dst.map (home s)).zip (landedBytes s x)).map (·.1) = x.dst.map (home s) := List.map_fst_zip hbytes.le
  have hobject : ∀ j ∈ keysFrom k 16, j ∉ x.dst.map (home s) := by
    intro j hj hmem
    obtain ⟨y, hy, rfl⟩ := List.mem_map.mp hmem
    exact hapart y hy hj
  obtain ⟨hobj, hframe, hwarp, hothers, hcores, hteams, hdrains⟩ := barLand_object { u with drains := drainsLeft u d ix } hk
    x.bytes.length fun r hr hkey => (hput.hist r hr).elim (hord r) fun hc => absurd (hplaces ▸ hc) (hobject _ hkey)
  have hstill : objAt { u with drains := drainsLeft u d ix } k = objAt s k :=
    congrArg BarObj.parse (List.map_congr_left fun j hj => hput.frame j (by rw [hplaces]; exact hobject j hj))
  obtain ⟨huwarp, huothers, hucores, huteams, hudrains⟩ := hput.units
  have hleft : drainsLeft u d ix = drainsLeft s d ix := by
    unfold drainsLeft
    rw [hudrains]
    rfl
  rw [hobjs] at hrun
  refine ⟨barLand { u with drains := drainsLeft u d ix } k x.bytes.length, ix, x, hrun, hx, ?_, fun j hj => ?_, ?_,
    fun h1 => ?_, fun h1 => ?_, hwarp.trans huwarp, hothers.trans huothers, hcores.trans hucores, hteams.trans huteams⟩
  · calc x.dst.map (fun y => memGet (barLand { u with drains := drainsLeft u d ix } k x.bytes.length).mem (home s y))
        = (x.dst.map (home s)).map (memGet u.mem) := by
          rw [List.map_map]
          exact List.map_congr_left fun y hy => hframe _ (hapart y hy)
      _ = landedBytes s x := hput.read hbytes
  · rw [List.mem_append, not_or] at hj
    exact (hframe j hj.2).trans (hput.frame j (by rw [hplaces]; exact hj.1))
  · rw [← hstill, ← settle_landed]
    exact hobj
  · rw [hdrains, ← (drainsLeft_last hlt).1 h1]
    exact hleft
  · rw [hdrains, ← (drainsLeft_last hlt).2 h1]
    exact hleft

/-- Settles O26: a drain gives each word of its rows to its lane or its address, and each landing puts one item and counts
it against the object. -/
theorem matrixDrains : Obligations.MatrixDrains := by
  refine ⟨?_, ?_, ?_⟩
  · intro w f sp s T h hslots cx c hrows per out lane notFinite
    have hnf : DrainsNonFinite w s (List.range 128) ↔ notFinite := by
      simp only [DrainsNonFinite, List.mem_range, notFinite, c]
    obtain ⟨t, hrun, hbad, hfin, hcore, hprom⟩ :=
      mxDrainReg_ready w f sp s T h hslots hrows (lane := lane) fun r k i => drainLane_eq w.fmt _ k i
    exact ⟨t, hrun, fun hn => hbad (hnf.mpr hn), fun hn => hfin fun hc => hn (hnf.mp hc), hcore, hprom⟩
  · intro w f sp s s' T l h hslots hepoch cx c es ea b o bar col ncol dst hea hb hbar hrows hplace hl
    refine mxDrainMem_ready h hslots hepoch hea hb hbar hrows rfl hplace hl ?_
    rw [DrainsNonFinite, drainCols_eq]
    simp only [List.mem_map, exists_exists_and_eq_and]
    rfl
  · intro s d k hd hitems hobjs hk hord hsees hepoch hall
    exact drainBytesLand_spec s d k hd hitems hobjs hk hord hsees hepoch hall

end Sys2Proof.Machine
end

section
/-! PROOFS. Stores of the units and the records of launches (R109, R242, R290): what they change beside memory, and what the
refusal of a task leaves. -/

namespace Sys2Proof.Machine

/-! ## Stores of the units -/

/-- Nothing differs but memory, its bookkeeping and the translation cache. -/
def StoresOnly (s t : State) : Prop :=
  ∃ m h e d p c l, t = { s with mem := m, hist := h, serial := e, spDirty := d, poison := p, sent := c, tlb := l }

theorem StoresOnly.refl (s : State) : StoresOnly s s := ⟨_, _, _, _, _, _, _, rfl⟩

theorem StoresOnly.trans {s t u : State} (h : StoresOnly s t) (k : StoresOnly t u) : StoresOnly s u := by
  obtain ⟨_, _, _, _, _, _, _, rfl⟩ := h
  obtain ⟨_, _, _, _, _, _, _, rfl⟩ := k
  exact ⟨_, _, _, _, _, _, _, rfl⟩

theorem StoresOnly.of_tlb {s t : State} (h : ∃ c, t = { s with tlb := c }) : StoresOnly s t := by
  obtain ⟨_, rfl⟩ := h
  exact ⟨_, _, _, _, _, _, _, rfl⟩

theorem StoresOnly.home {s t : State} (h : StoresOnly s t) (k : Nat) : home t k = home s k := by
  obtain ⟨_, _, _, _, _, _, _, rfl⟩ := h
  rfl

theorem StoresOnly.nextGrid {s t : State} (h : StoresOnly s t) : t.nextGrid = s.nextGrid := by
  obtain ⟨_, _, _, _, _, _, _, rfl⟩ := h
  rfl

theorem writeBytes_storesOnly (s : State) {v : PathView} (hv : v.epoch = none) (path : Path) (land : Nat) (ks : List Nat)
    (bs : List Byte) (bad : Bool) : StoresOnly s (writeBytes s v path land ks bs bad) := by
  obtain ⟨_, _, _, _, _, _, h, -⟩ := writeBytes_keeps s v hv path land ks bs bad
  exact ⟨_, _, _, _, _, _, _, h⟩

theorem unitWrite_nil (ctx n : Nat) (va : DWord) (s : State) : unitWrite ctx n [] va s = ([], s) := by
  cases n <;> rfl

theorem unitWrite_storesOnly (ctx n : Nat) (bs : List Byte) (va : DWord) (s : State) :
    StoresOnly s (unitWrite ctx n bs va s).2 := by
  induction n generalizing bs va s with
  | zero => exact .refl s
  | succ n ih =>
    unfold unitWrite
    split
    · exact .refl s
    · have hplace : StoresOnly s (unitPlace s ctx .write va).2 := .of_tlb (unitPlace_keeps s ctx .write va)
      generalize unitPlace s ctx .write va = r at hplace ⊢
      obtain ⟨_ | k, u⟩ := r
      · exact hplace.trans (ih ..)
      · exact (hplace.trans (writeBytes_storesOnly u rfl ..)).trans (ih ..)

theorem blockWrite_storesOnly (s : State) (ctx core : Nat) (va : DWord) (bs : List Byte) :
    StoresOnly s (blockWrite s ctx core va bs) := by
  have hplace : StoresOnly s (blockPlace s ctx core .write va bs.length).2 :=
    .of_tlb (placeCuts_keeps _ (fun va _ s => placePaged_keeps s ..) (cutsOf va bs.length) s)
  unfold blockWrite
  refine List.foldlRecOn (motive := StoresOnly s) _ _ hplace fun t ht p _ => ?_
  split
  · exact ht.trans (writeBytes_storesOnly t rfl ..)
  · exact ht

theorem saveBlocks_storesOnly (s : State) (ctx : Nat) : StoresOnly s (saveBlocks s ctx) := by
  unfold saveBlocks onQueues
  refine List.foldlRecOn (motive := StoresOnly s) _ _ (.refl s) fun t ht m _ => ?_
  refine List.foldlRecOn (motive := StoresOnly s) _ _ ht fun t ht key _ => ?_
  split
  · exact ht.trans (blockWrite_storesOnly ..)
  · exact ht

/-- Bytes that a unit writes within one page stand from the key of their first, and no other byte changes. -/
theorem unitWrite_page {s s' : State} {ctx key : Nat} {va : DWord} {bs : List Byte} (n : Nat) (h : Ordered s)
    (hfit : va.toNat % 2 ^ 18 + bs.length ≤ 2 ^ 18) (hplace : unitPlace s ctx .write va = (some key, s'))
    (hnodup : ((keysFrom key bs.length).map (home s)).Nodup) :
    SameMemoryBut ((keysFrom key bs.length).map (home s)) s (unitWrite ctx (n + 1) bs va s).2 ∧
      ((keysFrom key bs.length).map (home s)).map (memGet (unitWrite ctx (n + 1) bs va s).2.mem) = bs := by
  by_cases hbs : bs = []
  · subst hbs
    rw [unitWrite_nil]
    exact ⟨fun _ _ => rfl, rfl⟩
  · have hwrite : (unitWrite ctx (n + 1) bs va s).2 =
        writeBytes s' (PathView.start 0 s'.serial) .g 0 (keysFrom key bs.length) bs false := by
      have htake : bs.take (2 ^ 18 - va.toNat % 2 ^ 18) = bs := List.take_of_length_le (by omega)
      have hdrop : bs.drop (2 ^ 18 - va.toNat % 2 ^ 18) = [] := List.drop_of_length_le (by omega)
      rw [unitWrite, if_neg (by simpa using hbs), hplace]
      simp only [htake, hdrop, unitWrite_nil]
    obtain ⟨hmem, hhist, hhome⟩ : s'.mem = s.mem ∧ s'.hist = s.hist ∧ home s' = home s := by
      obtain ⟨c, hs'⟩ := unitPlace_keeps s ctx .write va
      rw [hplace] at hs'
      obtain rfl : s' = { s with tlb := c } := hs'
      exact ⟨rfl, rfl, rfl⟩
    have hput := writeBytes_puts (v := PathView.start 0 s'.serial) rfl .g 0 s' false (keysFrom_len key bs.length).le
      (fun r hr _ => sees_ordered rfl (h r (hhist ▸ hr))) (hhome ▸ hnodup)
    rw [hhome] at hput
    have hlen : ((keysFrom key bs.length).map (home s)).length = bs.length := by rw [List.length_map, keysFrom_len]
    rw [hwrite]
    exact ⟨fun j hj => (hput.frame j (by rwa [List.map_fst_zip hlen.le])).trans (by rw [hmem]), hput.read hlen⟩

/-! ## Grids and tasks that stay -/

/-- Two states have the same grids and the same tasks in flight. -/
structure SameLaunches (s t : State) : Prop where
  grids : t.grids = s.grids
  tasks : t.tasks = s.tasks

theorem SameLaunches.refl (s : State) : SameLaunches s s := ⟨rfl, rfl⟩

theorem SameLaunches.trans {s t u : State} (h : SameLaunches s t) (k : SameLaunches t u) : SameLaunches s u :=
  ⟨k.grids.trans h.grids, k.tasks.trans h.tasks⟩

theorem StoresOnly.launches {s t : State} (h : StoresOnly s t) : SameLaunches s t := by
  obtain ⟨_, _, _, _, _, _, _, rfl⟩ := h
  exact ⟨rfl, rfl⟩

theorem modReq_launches (s : State) (id : Nat) (f : Request → Request) : SameLaunches s (modReq s id f) := ⟨rfl, rfl⟩

theorem writeRecord_launches (s : State) (ctx : Nat) (va : DWord) (ws : List Nat) (r : RecordData) :
    SameLaunches s (writeRecord s ctx va ws r) := by
  have hwrites := (unitWrite_storesOnly ctx (r.body.length / 2 ^ 18 + 2) r.body (va + 4#64) s).trans
    (unitWrite_storesOnly ctx 2 (b4 magicWord) va _)
  unfold writeRecord
  dsimp only
  generalize unitWrite ctx 2 (b4 magicWord) va _ = q at hwrites ⊢
  exact ⟨hwrites.launches.grids, hwrites.launches.tasks⟩

theorem endRequest_launches (s : State) (r : Request) : SameLaunches s (endRequest s r) := by
  unfold endRequest
  dsimp only
  refine .trans (.trans (.trans ?_ (saveBlocks_storesOnly ..).launches) (writeRecord_launches ..)) (modReq_launches ..)
  split
  · exact ⟨rfl, rfl⟩
  · exact .refl s

theorem settleRequest_launches (s : State) (id : Nat) : SameLaunches s (settleRequest s id) := by
  unfold settleRequest
  split
  · split
    · exact endRequest_launches s _
    · exact .refl s
  · exact .refl s

/-- A state without a task, which has left its matcher. -/
def withoutTask (s : State) (seq : Nat) : State := { s with tasks := s.tasks.filter (·.seq != seq) }

theorem mem_withoutTask (s : State) (seq : Nat) : seq ∉ (withoutTask s seq).tasks.map (·.seq) := by
  simp [withoutTask]

theorem SameLaunches.withoutTask {s t : State} (h : SameLaunches s t) (seq : Nat) :
    SameLaunches (withoutTask s seq) (withoutTask t seq) :=
  ⟨h.grids, congrArg (List.filter _) h.tasks⟩

theorem endTask_launches (s : State) (seq req : Nat) (status code : BitVec 8) :
    SameLaunches (withoutTask s seq) (endTask s seq req status code) :=
  (modReq_launches ..).trans (settleRequest_launches ..)

/-- A task whose grid is refused leaves its matcher, and no grid comes of it (R109). -/
theorem refuseGrid_launches (s : State) (t : Task) (grec : DWord) :
    SameLaunches (withoutTask s t.seq) (refuseGrid s t grec) := by
  unfold refuseGrid
  dsimp only
  have hnumber (u : State) (n : Nat) : SameLaunches u { u with nextGrid := n } := ⟨rfl, rfl⟩
  refine .trans (SameLaunches.withoutTask (.trans (.trans ?_ (writeRecord_launches ..)) (hnumber ..)) t.seq) (endTask_launches ..)
  split
  · exact .refl s
  · exact writeRecord_launches ..

end Sys2Proof.Machine
end

section
/-! PROOFS. The launch of a task's grid (R109, R291, R293): the tasks that it waits for, its launch record, its kernel, and
the FIXUP bytes of LAUNCH.EVEN. -/

namespace Sys2Proof.Machine

/-! ## Tasks that share bytes (R291) -/

theorem rangesMeet_iff (a b : DWord × Nat) : rangesMeet a b = true ↔ Overlap a b := by
  unfold rangesMeet Overlap
  rw [decide_eq_true_iff]
  constructor
  · intro h
    exact ⟨max a.1.toNat b.1.toNat, by omega⟩
  · rintro ⟨k, hk⟩
    omega

theorem regionsMeet_iff (l m : List (DWord × Nat)) : regionsMeet l m = true ↔ ∃ a ∈ l, ∃ b ∈ m, Overlap a b := by
  simp only [regionsMeet, List.any_eq_true, rangesMeet_iff]

theorem depends_iff (y x : Task) : depends y x = true ↔ TaskDepends y x := by
  simp only [depends, TaskDepends, Bool.or_eq_true, regionsMeet_iff, List.mem_append, or_and_right, exists_or, and_or_left]
  exact or_right_comm

/-! ## The launch record and its kernel (R109) -/

/-- The launch record in these bytes. -/
def launchRecOf (b : List Byte) : LaunchRec where
  kaddr := BitVec.ofNat 64 (field b 0 8)
  nclust := field b 8 4
  argsz := field b 12 4
  args := BitVec.ofNat 64 (field b 16 8)
  even := decide (field b 24 4 = 1)
  tvec := BitVec.ofNat 64 (field b 32 8)
  faultq := BitVec.ofNat 64 (field b 40 8)
  grec := BitVec.ofNat 64 (field b 48 8)

theorem parseLaunch_ok {b : List Byte} (h : LaunchOk b) : parseLaunch b = some (launchRecOf b) := by
  rw [parseLaunch, if_pos]
  · rfl
  · simpa [LaunchOk, faultqOk, and_assoc] using h

theorem parseLaunch_bad {b : List Byte} (h : ¬ LaunchOk b) : parseLaunch b = none := by
  rw [parseLaunch, if_neg]
  simpa [LaunchOk, faultqOk, and_assoc] using h

/-- No kernel is found where none of the context's images of its mode has that entry. -/
theorem findKernel_none {s : State} {ctx : Nat} {entry : DWord}
    (h : ∀ p ∈ s.images, p.2.ctx = ctx → p.2.priv = ((Tab.find? s.contexts ctx).map (·.priv)).getD false →
      ∀ x ∈ p.2.kernels, x.entry ≠ entry) : findKernel s ctx entry = none := by
  refine List.findSome?_eq_none_iff.mpr fun p hp => ?_
  split
  · next hfits =>
    obtain ⟨hctx, hpriv⟩ : p.2.ctx = ctx ∧ ((Tab.find? s.contexts ctx).map (·.priv)).getD false = p.2.priv := by
      simpa using hfits
    rw [Option.map_eq_none_iff, List.find?_eq_none]
    intro x hx
    simpa using h p hp hctx hpriv.symm x.1 (List.fst_mem_of_mem_zipIdx hx)
  · rfl

/-! ## The ranges of LAUNCH.EVEN (R293) -/

/-- How many of the teams have an iteration of the tile in their ranges. -/
def teamsMeeting (tiles iters teams tile : Nat) : Nat :=
  ((List.range teams).filter fun r => decide (∃ i, i < tiles * iters ∧ r * (tiles * iters) / teams ≤ i ∧
    i < (r + 1) * (tiles * iters) / teams ∧ i / iters = tile)).length

/-- A team's range meets a tile where some iteration of the range is the tile's. -/
theorem range_meets_tile {tiles iters teams r tile : Nat} (hr : r < teams) :
    max (r * (tiles * iters) / teams) (tile * iters) < min ((r + 1) * (tiles * iters) / teams) ((tile + 1) * iters) ↔
      ∃ i, i < tiles * iters ∧ r * (tiles * iters) / teams ≤ i ∧ i < (r + 1) * (tiles * iters) / teams ∧ i / iters = tile := by
  have hend : (r + 1) * (tiles * iters) / teams ≤ tiles * iters :=
    Nat.div_le_of_le_mul (Nat.mul_le_mul_right (tiles * iters) hr)
  constructor
  · intro h
    refine ⟨max (r * (tiles * iters) / teams) (tile * iters), by omega, by omega, by omega, ?_⟩
    exact Nat.div_eq_of_lt_le (by omega) (by omega)
  · rintro ⟨i, hi, hlo, hhi, rfl⟩
    have hiters : 0 < iters := Nat.pos_of_mul_pos_left (Nat.zero_lt_of_lt hi)
    have hfrom : i / iters * iters ≤ i := Nat.div_mul_le_self i iters
    have hto : i < (i / iters + 1) * iters := (Nat.div_lt_iff_lt_mul hiters).mp (Nat.lt_succ_self _)
    omega

theorem fixupByte_meeting (tiles iters teams tile : Nat) : fixupByte tiles iters teams tile =
    BitVec.ofNat 8 (if teamsMeeting tiles iters teams tile < 2 then 0 else teamsMeeting tiles iters teams tile) := by
  have hmeet : ((List.range teams).filter fun r => decide (max (evenRange tiles iters teams r).1 (tile * iters) <
      min (evenRange tiles iters teams r).2 ((tile + 1) * iters))).length = teamsMeeting tiles iters teams tile := by
    refine congrArg List.length (List.filter_congr fun r hr => ?_)
    exact decide_eq_decide.mpr (range_meets_tile (List.mem_range.mp hr))
  unfold fixupByte
  rw [hmeet, apply_ite (BitVec.ofNat 8)]

/-- The FIXUP bytes of a grid: for each tile how many teams meet it, 0 below 2 (R293). -/
def fixupCounts (tiles iters teams : Nat) : List Byte :=
  (List.range tiles).map fun n =>
    BitVec.ofNat 8 (if teamsMeeting tiles iters teams n < 2 then 0 else teamsMeeting tiles iters teams n)

theorem writeFixup_counts (s : State) (ctx : Nat) (fixup : DWord) (tiles iters teams : Nat) :
    writeFixup s ctx fixup tiles iters teams =
      (unitWrite ctx (tiles / 2 ^ 18 + 2) (fixupCounts tiles iters teams) fixup s).2 := by
  rw [writeFixup, funext (fixupByte_meeting tiles iters teams)]
  rfl

theorem writeFixup_storesOnly (s : State) (ctx : Nat) (fixup : DWord) (tiles iters teams : Nat) :
    StoresOnly s (writeFixup s ctx fixup tiles iters teams) := unitWrite_storesOnly ..

/-- FIXUP bytes within one page stand in memory, and no other byte changes. -/
theorem writeFixup_page {s s' : State} {ctx key tiles : Nat} {fixup : DWord} (iters teams : Nat) (h : Ordered s)
    (hfit : fixup.toNat % 2 ^ 18 + tiles ≤ 2 ^ 18) (hplace : unitPlace s ctx .write fixup = (some key, s'))
    (hnodup : ((keysFrom key tiles).map (home s)).Nodup) :
    SameMemoryBut ((keysFrom key tiles).map (home s)) s (writeFixup s ctx fixup tiles iters teams) ∧
      ∀ n, n < tiles → bytesAt (writeFixup s ctx fixup tiles iters teams) [key + n] =
        [(fixupCounts tiles iters teams).getD n 0] := by
  have hlen : (fixupCounts tiles iters teams).length = tiles := by rw [fixupCounts, List.length_map, List.length_range]
  have hhome := (writeFixup_storesOnly s ctx fixup tiles iters teams).home
  obtain ⟨hframe, hread⟩ := unitWrite_page (tiles / 2 ^ 18 + 1) h (hlen.symm ▸ hfit) hplace (hlen.symm ▸ hnodup)
  rw [writeFixup_counts] at hhome ⊢
  rw [hlen] at hframe hread
  refine ⟨hframe, fun n hn => ?_⟩
  generalize (unitWrite ctx (tiles / 2 ^ 18 + 2) (fixupCounts tiles iters teams) fixup s).2 = u at hhome hread
  have hn' : n < (fixupCounts tiles iters teams).length := hlen.symm ▸ hn
  have hbyte : memGet u.mem (home s (key + n)) = (fixupCounts tiles iters teams)[n] := by
    simp [← hread, keysFrom]
  rw [List.getD_eq_getElem _ _ hn', ← hbyte, ← hhome]
  rfl

/-! ## Launching with the record read -/

@[simp] theorem enterGrid_grids (s : State) (g : Grid) : (enterGrid s g).grids = s.grids ++ [g] := rfl

@[simp] theorem enterGrid_nextGrid (s : State) (g : Grid) : (enterGrid s g).nextGrid = (s.nextGrid + 1) % 2 ^ 32 := rfl

@[simp] theorem bytesAt_enterGrid (s : State) (g : Grid) (ks : List Nat) : bytesAt (enterGrid s g) ks = bytesAt s ks := rfl

/-- The grid that a task enters with a launch record, before a cluster of it has started (R109). -/
def EntersAs (s : State) (k : Task) (lr : LaunchRec) (m n : Nat) (work : Option (Nat × Nat)) (g : Grid) : Prop :=
  g.id = s.nextGrid ∧ g.ctx = k.ctx ∧ g.req = k.req ∧ g.task = k.seq ∧ g.image = m ∧ g.kernel = n ∧ g.work = work ∧
    g.started = 0 ∧ g.live = 0 ∧ g.rung = none ∧ g.ended = false ∧ g.lines = [] ∧ g.lr = lr

theorem newGrid_entersAs {s u : State} (h : u.nextGrid = s.nextGrid) (k : Task) (lr : LaunchRec) (m n : Nat)
    (work : Option (Nat × Nat)) (since : Nat) :
    EntersAs s k lr m n work { newGrid u k.ctx k.req k.seq m n lr work none with since := since } :=
  ⟨h, rfl, rfl, rfl, rfl, rfl, rfl, rfl, rfl, rfl, rfl, rfl, rfl⟩

section
variable {s : State} {k : Task} {lr : LaunchRec} {kern : Kernel} (m n : Nat)

theorem launchGrid_unfit (h : canFit kern (isRedundant s k.ctx) = false) :
    launchGrid s k lr m n kern = refuseGrid s k lr.grec := by
  rw [launchGrid, if_pos (by rw [h]; rfl)]

theorem launchGrid_plain (h : canFit kern (isRedundant s k.ctx) = true) (heven : lr.even = false) :
    launchGrid s k lr m n kern = enterGrid s (newGrid s k.ctx k.req k.seq m n lr none none) := by
  rw [launchGrid, if_neg (by rw [h]; decide), if_neg (by rw [heven]; decide)]

variable {eb : List Byte} {u : State} (h : canFit kern (isRedundant s k.ctx) = true) (heven : lr.even = true)
  (hread : unitRead s k.ctx lr.args 16 = (some eb, u))
include h heven hread

theorem launchGrid_even_over (hover : 2 ^ 32 ≤ field eb 0 4 * field eb 4 4) :
    launchGrid s k lr m n kern = refuseGrid u k lr.grec := by
  rw [launchGrid, if_neg (by rw [h]; decide), if_pos heven]
  simp only [readEven, hread, if_neg hover.not_gt]

theorem launchGrid_even (hfits : field eb 0 4 * field eb 4 4 < 2 ^ 32)
    (hcan : evenCanFit (enterGrid u (newGrid u k.ctx k.req k.seq m n lr (some (field eb 0 4, field eb 4 4)) none))
      (newGrid u k.ctx k.req k.seq m n lr (some (field eb 0 4, field eb 4 4)) none) = true) :
    ∃ since, launchGrid s k lr m n kern =
      enterGrid (writeFixup u k.ctx (BitVec.ofNat 64 (field eb 8 8)) (field eb 0 4) (field eb 4 4) (lr.nclust * kern.teams))
        { newGrid u k.ctx k.req k.seq m n lr (some (field eb 0 4, field eb 4 4)) none with since := since } := by
  rw [launchGrid, if_neg (by rw [h]; decide), if_pos heven]
  simp only [readEven, hread, if_pos hfits, hcan, if_true]
  exact ⟨_, rfl⟩

end

/-! ## TASK_LAUNCH (R291) -/

/-- A task that has not launched stands among the tasks in flight between these. -/
structure AwaitsLaunch (s : State) (tasks : List Task) (k : Task) (later : List Task) : Prop where
  list : s.tasks = tasks ++ k :: later
  waiting : k.launched = false
  earlier : ∀ x ∈ tasks, x.seq ≠ k.seq
  others : ∀ x ∈ later, x.seq ≠ k.seq

/-- The state in which that task has launched. -/
def markLaunched (s : State) (tasks : List Task) (k : Task) (later : List Task) : State :=
  { s with tasks := tasks ++ { k with launched := true } :: later }

section
variable {s s1 : State} {tasks later : List Task} {k : Task} {b : List Byte} (h : AwaitsLaunch s tasks k later)
include h

theorem AwaitsLaunch.find : s.tasks.find? (fun t => t.seq == k.seq && !t.launched) = some k := by
  have hnone : tasks.find? (fun t => t.seq == k.seq && !t.launched) = none :=
    List.find?_eq_none.mpr fun x hx => by simp [h.earlier x hx]
  rw [h.list, List.find?_append, hnone, Option.none_or, List.find?_cons_of_pos (by simp [h.waiting])]

theorem AwaitsLaunch.before : before s k = tasks := by
  rw [Machine.before, h.list, List.takeWhile_append_of_pos fun x hx => by simpa using h.earlier x hx]
  simp

theorem AwaitsLaunch.marked :
    s.tasks.map (fun x => if x.seq = k.seq then { x with launched := true } else x) =
      tasks ++ { k with launched := true } :: later := by
  have hsame (l : List Task) (hl : ∀ x ∈ l, x.seq ≠ k.seq) :
      l.map (fun x => if x.seq = k.seq then { x with launched := true } else x) = l :=
    (List.map_congr_left fun x hx => if_neg (hl x hx)).trans (List.map_id _)
  rw [h.list, List.map_append, List.map_cons, hsame tasks h.earlier, hsame later h.others, if_pos rfl]

/-- A task waits for an earlier one on which it depends. -/
theorem taskLaunch_waits (hdep : ∃ x ∈ tasks, TaskDepends k x) : exec (.taskLaunch k.seq) s = .next s := by
  have hany : (before s k).any (depends k) = true := by
    rw [h.before, List.any_eq_true]
    simpa only [depends_iff] using hdep
  show execTaskLaunch k.seq s = _
  rw [execTaskLaunch, h.find]
  simp only [hany, if_true]

/-- A task that depends on none is refused for its launch record or its kernel, or launches with what they say. -/
theorem taskLaunch_reads (hdep : ∀ x ∈ tasks, ¬ TaskDepends k x)
    (hread : unitRead (markLaunched s tasks k later) k.ctx k.lrec 64 = (some b, s1)) :
    (k.lrec.toNat % 64 ≠ 0 ∨ ¬ LaunchOk b ∨ findKernel s1 k.ctx (launchRecOf b).kaddr = none →
      ∃ grec, exec (.taskLaunch k.seq) s = .next (refuseGrid s1 k grec)) ∧
    (k.lrec.toNat % 64 = 0 → LaunchOk b → ∀ m n kern, findKernel s1 k.ctx (launchRecOf b).kaddr = some (m, n, kern) →
      exec (.taskLaunch k.seq) s = .next (launchGrid s1 k (launchRecOf b) m n kern)) := by
  have hany : (before s k).any (depends k) = false := by
    rw [h.before, List.any_eq_false]
    simpa only [depends_iff] using hdep
  have hmark : { s with tasks := s.tasks.map fun x => if x.seq = k.seq then { x with launched := true } else x } =
      markLaunched s tasks k later := by rw [h.marked]; rfl
  have hexec : exec (.taskLaunch k.seq) s = execTaskLaunch k.seq s := rfl
  rw [hexec, execTaskLaunch, h.find]
  simp only [hany, Bool.false_eq_true, if_false, hmark, hread]
  by_cases halign : k.lrec.toNat % 64 = 0
  · rw [if_neg (not_not_intro halign)]
    by_cases hok : LaunchOk b
    · simp only [parseLaunch_ok hok]
      refine ⟨fun hbad => ?_, fun _ _ m n kern hkern => by rw [hkern]⟩
      have hnone : findKernel s1 k.ctx (launchRecOf b).kaddr = none := by tauto
      exact ⟨_, by rw [hnone]⟩
    · rw [parseLaunch_bad hok]
      exact ⟨fun _ => ⟨_, rfl⟩, fun _ hok' => absurd hok' hok⟩
  · rw [if_pos halign]
    exact ⟨fun _ => ⟨_, rfl⟩, fun halign' => absurd halign' halign⟩

end

/-! ## What launches -/

/-- A state that differs in its tasks and its translation cache alone, as the records of a launch are read in. -/
def ReadsFrom (s u : State) : Prop := ∃ l c, u = { s with tasks := l, tlb := c }

section
variable {s u : State} (h : ReadsFrom s u)
include h

theorem ReadsFrom.grids : u.grids = s.grids := by
  obtain ⟨_, _, rfl⟩ := h
  rfl

theorem ReadsFrom.nextGrid : u.nextGrid = s.nextGrid := by
  obtain ⟨_, _, rfl⟩ := h
  rfl

theorem ReadsFrom.isRedundant (ctx : Nat) : isRedundant u ctx = isRedundant s ctx := by
  obtain ⟨_, _, rfl⟩ := h
  rfl

theorem ReadsFrom.memory : u.mem = s.mem ∧ u.hist = s.hist ∧ home u = home s := by
  obtain ⟨_, _, rfl⟩ := h
  exact ⟨rfl, rfl, rfl⟩

theorem ReadsFrom.of_read {v : State} {ctx n : Nat} {va : DWord} {r : Option (List Byte)} (hread : unitRead u ctx va n = (r, v)) :
    ReadsFrom s v := by
  obtain ⟨_, _, rfl⟩ := h
  obtain ⟨_, hv⟩ := unitRead_keeps _ ctx va n
  rw [hread] at hv
  exact ⟨_, _, hv⟩

/-- A refused task leaves no grid and is in flight no more. -/
theorem ReadsFrom.refused {k : Task} {grec : DWord} (hrun : exec (.taskLaunch k.seq) s = .next (refuseGrid u k grec)) :
    ∃ t, exec (.taskLaunch k.seq) s = .next t ∧ t.grids = s.grids ∧ k.seq ∉ t.tasks.map (·.seq) := by
  have hleft := refuseGrid_launches u k grec
  exact ⟨_, hrun, hleft.grids.trans h.grids, by rw [hleft.tasks]; exact mem_withoutTask u k.seq⟩

/-- A grid of LAUNCH.EVEN is entered with its FIXUP bytes written (R293). -/
theorem ReadsFrom.enterEven (ctx : Nat) (fixup : DWord) (tiles iters teams : Nat) (g : Grid) :
    let t := enterGrid (writeFixup u ctx fixup tiles iters teams) g
    t.grids = s.grids ++ [g] ∧ t.nextGrid = (s.nextGrid + 1) % 2 ^ 32 ∧
      t.mem = (unitWrite ctx (tiles / 2 ^ 18 + 2) (fixupCounts tiles iters teams) fixup u).2.mem ∧
      (Ordered s → ∀ key v, fixup.toNat % 2 ^ 18 + tiles ≤ 2 ^ 18 → unitPlace u ctx .write fixup = (some key, v) →
        ((keysFrom key tiles).map (home s)).Nodup →
        SameMemoryBut ((keysFrom key tiles).map (home s)) s t ∧
        ∀ n, n < tiles → bytesAt t [key + n] = [(fixupCounts tiles iters teams).getD n 0]) := by
  obtain ⟨hmem, hhist, hhome⟩ := h.memory
  have hstores := writeFixup_storesOnly u ctx fixup tiles iters teams
  refine ⟨?_, ?_, ?_, fun hord key v hfit hplace hnodup => ?_⟩
  · rw [enterGrid_grids, hstores.launches.grids, h.grids]
  · rw [enterGrid_nextGrid, hstores.nextGrid, h.nextGrid]
  · rw [enterGrid_mem, writeFixup_counts]
  · obtain ⟨hframe, hbytes⟩ := writeFixup_page iters teams (fun r hr => hord r (hhist ▸ hr)) hfit hplace (hhome ▸ hnodup)
    rw [hhome, SameMemoryBut, hmem] at hframe
    exact ⟨hframe, hbytes⟩

end

/-- Settles O37: a task waits for those on which it depends; then its grid is entered as its launch record says, or the
task is refused. -/
theorem taskLaunches : Obligations.TaskLaunches := by
  intro s s1 tasks later k b hlist hwaiting hearlier hlater
  have h : AwaitsLaunch s tasks k later := ⟨hlist, hwaiting, hearlier, hlater⟩
  refine ⟨taskLaunch_waits h, fun hdep hread => ?_⟩
  obtain ⟨hrefuse, hlaunch⟩ := taskLaunch_reads h hdep hread
  obtain ⟨c, hs1⟩ := unitRead_keeps (markLaunched s tasks k later) k.ctx k.lrec 64
  obtain rfl : s1 = { markLaunched s tasks k later with tlb := c } := (congrArg Prod.snd hread).symm.trans hs1
  have hs : ReadsFrom s { markLaunched s tasks k later with tlb := c } := ⟨_, _, rfl⟩
  refine ⟨fun hbad => ?_, fun halign hok => ⟨fun hnone => ?_, fun m n kern hkern => ?_⟩⟩
  · obtain ⟨grec, hrun⟩ := hrefuse (hbad.imp_right .inl)
    exact hs.refused hrun
  · obtain ⟨grec, hrun⟩ := hrefuse (.inr (.inr (findKernel_none hnone)))
    exact hs.refused hrun
  have hrun := hlaunch halign hok m n kern hkern
  rw [← hs.isRedundant]
  refine ⟨fun hfit => ?_, fun hfit heven => ?_, ?_⟩
  · rw [launchGrid_unfit m n hfit] at hrun
    exact hs.refused hrun
  · rw [launchGrid_plain m n hfit (decide_eq_false heven)] at hrun
    exact ⟨_, _, hrun, rfl, newGrid_entersAs hs.nextGrid k (launchRecOf b) m n none s.serial⟩
  · intro eb s2 hfit heven hord hargs tiles iters fixup teams start meet
    have heven : (launchRecOf b).even = true := decide_eq_true heven
    have hs2 : ReadsFrom s s2 := hs.of_read hargs
    refine ⟨fun hover => ?_, fun hwork hcan => ?_⟩
    · rw [launchGrid_even_over m n hfit heven hargs hover] at hrun
      exact hs2.refused hrun
    · obtain ⟨since, hentered⟩ := launchGrid_even m n hfit heven hargs hwork hcan
      obtain ⟨hgrids, hnumber, hmem, hpage⟩ := hs2.enterEven k.ctx fixup tiles iters teams
        { newGrid s2 k.ctx k.req k.seq m n (launchRecOf b) (some (tiles, iters)) none with since := since }
      exact ⟨_, _, hrun.trans (congrArg _ hentered), hgrids, hnumber,
        newGrid_entersAs hs2.nextGrid k (launchRecOf b) m n (some (tiles, iters)) since, hmem, hpage hord⟩

end Sys2Proof.Machine
end
